-- ==== Sys2Proof/Word.lean ====
section
/-! DEFINITION. The word types of the model and the two container types of its state. -/
namespace Sys2Proof

/-- One byte (R4). -/
abbrev Byte := BitVec 8
/-- One 32-bit lane element or one instruction word (R40, R58). -/
abbrev Word := BitVec 32
/-- One scalar register (R41). -/
abbrev DWord := BitVec 64
/-- A program counter or a virtual address (R40, R157). -/
abbrev Addr := BitVec 56

/-- A scalar-register field that passed check 2 of R63. -/
abbrev SReg := BitVec 6
/-- A vector-register field (R42). -/
abbrev VReg := BitVec 8

/-- A table of values by key: at most one value a key. -/
abbrev Tbl (α : Type) := List (Nat × α)
/-- A file of `w`-bit cells in which an unlisted key holds zero: keys rise, no entry is zero. -/
abbrev Sparse (w : Nat) := List (Nat × BitVec w)

end Sys2Proof
end

