-- ==== Sys2Proof/Syntax.lean ====
section
/-! DEFINITION. The steps of the machine: one constructor of Instr for each row of the opcode table. The first 116 rows
have a 32-bit word (R58 to R62), and their fields are the word's. The other 130 are steps of the hardware without a word
(completions, deliveries, dispatch, halts, host and firmware acts), and their arguments name what the step acts on and what
comes from outside the module. -/
namespace Sys2Proof

/-- The answer of the ATS translation agent to one request (R456); a translation comes on an IDE stream or on none (R463). -/
inductive AtsResult where
  | success (r w : Bool) (pa : Nat) (stream : Option Nat)
  | refused
  deriving DecidableEq, Repr

/-- The code of a PRG Response (R458). -/
inductive PrgCode where
  | success | invalidRequest | responseFailure
  deriving DecidableEq, Repr

/-- Where an uncorrectable error is found (R375): by scrub or on a read at a flat address, in a word of a line of a core's L1, or in an element of
a tile. -/
inductive PoisonPlace where
  | flat (addr : Nat)
  | read (addr : Nat)
  | l1Word (core line word : Nat)
  | tile (team tile elem : Nat)
  deriving DecidableEq, Repr

/-- A part that fails at bring-up (R474): a die, a channel set of HBM, or a lane of the link of two dies. -/
inductive BringupFail where
  | die (d : Nat) | channelSet (k : Nat) | lane (a b : Nat)
  deriving DecidableEq, Repr

/-- A firmware image that the die-0 processor reads (R474, R476): the measurement it has (2 to 4, R466), its bytes, its security version
number, and whether both its signatures verify. -/
structure Image where
  index : Nat
  bytes : List (BitVec 8)
  svn : Nat
  verified : Bool
  deriving DecidableEq, Repr

/-- What the steps 1 and 2 of bring-up find (R474 to R476): whether the PUF regenerates the identity, and the firmware images. -/
structure Boot where
  puf : Bool
  images : List Image
  deriving DecidableEq, Repr

/-- How a key reaches a slot of a bulk key table (R470): by KEY_LOAD in a secured session, or from firmware through the mailbox. -/
inductive KeyPath where
  | session (slot : Nat) | mailbox (slot : Nat)
  deriving DecidableEq, Repr

/-- A part that leaves a slice (R429). -/
inductive SlicePart where
  | core (c : Nat) | wayGroup (g : Nat) | channelSet (k : Nat)
  deriving DecidableEq, Repr

/-- The PCIe AtomicOps of R288. -/
inductive HostAtomic where
  | fetchAdd | swap | cas
  deriving DecidableEq, Repr

/-- The eight atomics of R290, by the low digit of their opcode. -/
inductive AtomicOp where
  | add | min | max | and | or | xor | xch | cas
  deriving DecidableEq, Repr

/-- What a pod request asks of the target (R302, R303). -/
inductive PodOp where
  | load
  | store (data : List Byte)
  | atomic (op : AtomicOp) (ty : BitVec 4) (operands : List (DWord × DWord))
  deriving DecidableEq, Repr

/-- A pod access as it reaches the target: source index, window, function, offset and size (R299, R302). -/
structure PodReq where
  src : Nat
  win : Nat
  rfunc : Nat
  off : Nat
  size : Nat
  op : PodOp
  deriving DecidableEq, Repr

/-- What a pod response brings back (R302, R304). -/
inductive PodResult where
  | data (bytes : List Byte)
  | refused (reason : Nat)
  | poisoned (bytes : List Byte)
  deriving DecidableEq, Repr

/-- The parts of a verified manifest that set state (R471, R476): slices with their core ranges and SLMEM, functions with slice and
link, the budgets of dies, its security version number and the number of its rollback record. -/
structure Manifest where
  modid : BitVec 10
  slices : List (Nat × List (Nat × Nat × Nat) × DWord)
  funcs : List (Nat × Nat × Nat)
  budgets : List (Nat × DWord × DWord)
  svn : Nat
  rollback : Nat
  deriving DecidableEq, Repr

/-- The rows of the opcode table. -/
inductive Instr where
  /-- NOP (R113). Occupies the control slot for one cycle and changes nothing. -/
  | nop
  /-- BR (R114). Branches to PC plus four times the signed 24-bit displacement. -/
  | br (i : BitVec 24)
  /-- BRZ (R115). Branches when all 64 bits of the scalar register are zero. -/
  | brz (d : SReg) (i : BitVec 16)
  /-- BRNZ (R115). Branches when any bit of the scalar register is set. -/
  | brnz (d : SReg) (i : BitVec 16)
  /-- CALL (R114). Branches by the signed word displacement and writes the return address to s63. -/
  | call (i : BitVec 24)
  /-- RET (R116). Continues at the address held in s63, after the target check. -/
  | ret
  /-- JR (R116). Continues at the address held in a scalar register, after the target check. -/
  | jr (a : SReg)
  /-- BLKZ (R104). Skips the next n words when mask bits [W-1:0] of the register are all zero. -/
  | blkz (d : SReg) (n : BitVec 16)
  /-- MODE (R117). Writes one 16-bit quarter of MODE from the immediate. -/
  | mode (q : BitVec 2) (i : BitVec 16)
  /-- MODER (R118). Exchanges MODE with a scalar register. -/
  | moder (d a : SReg)
  /-- WAIT (R110). Blocks until every class counter is at or below its threshold, then raises any held faults. -/
  | wait (l s c t : BitVec 6)
  /-- WAITR (R111). Blocks until one class counter is at or below a threshold held in a register. -/
  | waitr (a : SReg) (k : BitVec 2)
  /-- END (R121). Ends the crew after closing its region and draining its class counters. -/
  | endCrew
  /-- SREAD (R120). Reads a special register into a scalar register, zero-extended. -/
  | sread (d : SReg) (i : BitVec 8)
  /-- SLI (R124). Loads a sign-extended 16-bit immediate into a scalar register. -/
  | sli (d : SReg) (i : BitVec 16)
  /-- SLIS (R124). Shifts a scalar register left by 16 and inserts an unsigned 16-bit immediate. -/
  | slis (d : SReg) (i : BitVec 16)
  /-- SADD (R125). Adds two scalar registers modulo 2^64. -/
  | sadd (d a b : SReg)
  /-- SADDI (R126). Adds a signed 8-bit immediate to a scalar register. -/
  | saddi (d a : SReg) (i : BitVec 8)
  /-- SSUB (R125). Subtracts two scalar registers modulo 2^64. -/
  | ssub (d a b : SReg)
  /-- SMUL (R125). Writes the low 64 bits of the product of two scalar registers. -/
  | smul (d a b : SReg)
  /-- SDIVS (R127). Divides signed scalar values, rounding towards zero, with no fault. -/
  | sdivs (d a b : SReg)
  /-- SDIVN (R127). Divides unsigned scalar values, with no fault. -/
  | sdivn (d a b : SReg)
  /-- SAND (R125). Bitwise AND of two scalar registers. -/
  | sand (d a b : SReg)
  /-- SOR (R125). Bitwise OR of two scalar registers. -/
  | sor (d a b : SReg)
  /-- SXOR (R125). Bitwise XOR of two scalar registers. -/
  | sxor (d a b : SReg)
  /-- SSHL (R125). Shifts a scalar register left by the low six bits of the amount. -/
  | sshl (d a b : SReg)
  /-- SSHR (R125). Shifts a scalar register right, filling with zeros. -/
  | sshr (d a b : SReg)
  /-- SSRA (R125). Shifts a scalar register right, filling with the sign bit. -/
  | ssra (d a b : SReg)
  /-- SSLT (R125). Writes 1 when the first operand is less than the second as signed values. -/
  | sslt (d a b : SReg)
  /-- SCNT (R128). Counts the set bits of a scalar register. -/
  | scnt (d a : SReg)
  /-- SCLZ (R128). Counts the leading zero bits of a scalar register. -/
  | sclz (d a : SReg)
  /-- VADD (R139). Adds lane elements, with a single rounding or integer narrowing. -/
  | vadd (d a b : VReg)
  /-- VSUB (R139). Subtracts lane elements. -/
  | vsub (d a b : VReg)
  /-- VMUL (R139). Multiplies lane elements. -/
  | vmul (d a b : VReg)
  /-- VFMA (R139). Fused multiply-add with the old destination as the addend, rounded once. -/
  | vfma (d a b : VReg)
  /-- VMIN (R140). Lane-wise minimum. -/
  | vmin (d a b : VReg)
  /-- VMAX (R140). Lane-wise maximum. -/
  | vmax (d a b : VReg)
  /-- VAND (R141). Lane-wise bitwise AND. -/
  | vand (d a b : VReg)
  /-- VOR (R141). Lane-wise bitwise OR. -/
  | vor (d a b : VReg)
  /-- VXOR (R141). Lane-wise bitwise XOR. -/
  | vxor (d a b : VReg)
  /-- VSHL (R142). Lane-wise left shift within the element width. -/
  | vshl (d a b : VReg)
  /-- VSHR (R142). Lane-wise right shift, arithmetic for signed types. -/
  | vshr (d a b : VReg)
  /-- VCEQ (R143). Compares lanes for equality into a scalar mask. -/
  | vceq (d : SReg) (a b : VReg)
  /-- VCLT (R143). Compares lanes for less-than into a scalar mask. -/
  | vclt (d : SReg) (a b : VReg)
  /-- VCLE (R143). Compares lanes for less-or-equal into a scalar mask. -/
  | vcle (d : SReg) (a b : VReg)
  /-- VMOV (R144). Copies each active lane's unit unchanged. -/
  | vmov (d a : VReg)
  /-- VBCS (R145). Broadcasts a scalar into every active lane. -/
  | vbcs (d : VReg) (a : SReg)
  /-- VEXT (R146). Extracts one lane to a scalar register, faulting on a lane index of W or more. -/
  | vext (d : SReg) (a : VReg) (b : SReg)
  /-- VLID (R147). Writes each active lane's index. -/
  | vlid (d : VReg)
  /-- VCVT (R148). Converts one element per lane from STYPE to TYPE. -/
  | vcvt (d a : VReg)
  /-- VRCP (R149). Correctly rounded reciprocal per lane. -/
  | vrcp (d a : VReg)
  /-- VRSQ (R149). Correctly rounded reciprocal square root per lane. -/
  | vrsq (d a : VReg)
  /-- VEXP2 (R149). Correctly rounded base-2 exponential per lane. -/
  | vexp2 (d a : VReg)
  /-- VLOG2 (R149). Correctly rounded base-2 logarithm per lane. -/
  | vlog2 (d a : VReg)
  /-- VRED (R150). Reduces the active lanes with REDOP into one scalar. -/
  | vred (d : SReg) (a : VReg)
  /-- VCMPR (R151). Compresses the mask-selected lanes downwards. -/
  | vcmpr (d a : VReg) (b : SReg)
  /-- VEXPD (R151). Expands the low lanes into the mask-selected lanes. -/
  | vexpd (d a : VReg) (b : SReg)
  /-- VSLUP (R152). Slides lanes up by a scalar distance. -/
  | vslup (d a : VReg) (b : SReg)
  /-- VSLDN (R152). Slides lanes down by a scalar distance. -/
  | vsldn (d a : VReg) (b : SReg)
  /-- VPERM (R153). Permutes whole lanes by per-lane indices. -/
  | vperm (d a b : VReg)
  /-- VPK2 (R154). Converts and packs two 16-bit elements per lane. -/
  | vpk2 (d a b : VReg)
  /-- VPK4 (R155). Converts and packs four 8-bit or 4-bit elements per lane. -/
  | vpk4 (d a b : VReg)
  /-- VUPK (R156). Unpacks one packed element per lane, widened exactly. -/
  | vupk (d a : VReg) (e : BitVec 3)
  /-- LD (R199). Loads one element per active lane after all-or-nothing address checks. -/
  | ld (d : VReg) (a : SReg) (b : VReg)
  /-- ST (R200). Stores one element per active lane, highest lane winning on shared addresses. -/
  | st (d : VReg) (a : SReg) (b : VReg)
  /-- LDT (R201). Loads a box of a shape record into consecutive registers, clipping out-of-bounds elements. -/
  | ldt (d : VReg) (s : BitVec 4) (b : SReg)
  /-- STT (R202). Stores a box of a shape record from consecutive registers. -/
  | stt (d : VReg) (s : BitVec 4) (b : SReg)
  /-- SHAPE (R203). Reads a 64-byte descriptor into a shape record. -/
  | shape (d : BitVec 4) (a : SReg)
  /-- FENCE (R222). Orders the crew's operations with an acquire and/or release part at a scope. -/
  | fence (s : BitVec 3) (o : BitVec 2)
  /-- PREF (R204). Hints that each active lane's line be brought into L1 or L2. -/
  | pref (l : BitVec 1) (a : SReg) (b : VReg)
  /-- FLUSH (R205). Writes back and invalidates every line of a byte range. -/
  | flush (a b : SReg)
  /-- CPY4 (R239). Copies 4 bytes per active lane through the copy engine and signals a semaphore. -/
  | cpy4 (d : BitVec 6) (a b : VReg)
  /-- CPY8 (R239). Copies 8 bytes per active lane through the copy engine and signals a semaphore. -/
  | cpy8 (d : BitVec 6) (a b : VReg)
  /-- CPY16 (R239). Copies 16 bytes per active lane through the copy engine and signals a semaphore. -/
  | cpy16 (d : BitVec 6) (a b : VReg)
  /-- CPYT (R240). Copies a box between a shape and a dense buffer and signals a semaphore. -/
  | cpyt (d : BitVec 6) (s : BitVec 4) (b : SReg)
  /-- BINW (R246). Scatters token words into bins by bump counters, with one overflow hop. -/
  | binw (d a : VReg) (b : SReg)
  /-- BULK (R250). Checks a command record, resolves its spans and queues it to the die's bulk engines. -/
  | bulk (d a : SReg)
  /-- SEMSET (R243). Sets a semaphore count as a release at core scope. -/
  | semset (d : BitVec 6) (a : SReg)
  /-- SEMACQ (R243). Waits in order until a semaphore holds k and takes it. -/
  | semacq (d : BitVec 6) (a : SReg)
  /-- SEMTRY (R244). Takes one count if available and no crew waits, without blocking. -/
  | semtry (d : SReg) (a : BitVec 6)
  /-- SEMRD (R244). Reads a semaphore count. -/
  | semrd (d : SReg) (a : BitVec 6)
  /-- GANG (R278). Writes the crew's gang register after checking the member list. -/
  | gang (a : SReg)
  /-- MMAG (R279). Arrives at the Trivet for a gang matrix multiply-accumulate. -/
  | mmag (d : BitVec 6) (a : SReg) (b : VReg)
  /-- MMAS (R281). Performs one single-issuer matrix step into a tile. -/
  | mmas (d : BitVec 6) (a b : SReg)
  /-- TILEZ (R282). Writes +0 to every element of a tile. -/
  | tilez (d : BitVec 6)
  /-- TLD (R282). Loads 4096 bytes from scratchpad into a tile. -/
  | tld (d : BitVec 6) (a : SReg)
  /-- TDRN (R283). Drains tile rows, converted to TYPE, into scratchpad. -/
  | tdrn (d : BitVec 6) (a : SReg)
  /-- TDRM (R283). Drains tile rows, converted to TYPE, into global memory with a row pitch. -/
  | tdrm (d : BitVec 6) (a b : SReg)
  /-- TDRP (R286). Sends tile rows to be added into a peer team's tile, then increments its semaphore. -/
  | tdrp (d : BitVec 6) (a : SReg)
  /-- AADD (R292). Atomic add per active lane, returning the old value. -/
  | aadd (d : VReg) (a : SReg) (b : VReg)
  /-- AMIN (R292). Atomic minimum per active lane. -/
  | amin (d : VReg) (a : SReg) (b : VReg)
  /-- AMAX (R292). Atomic maximum per active lane. -/
  | amax (d : VReg) (a : SReg) (b : VReg)
  /-- AAND (R292). Atomic bitwise AND per active lane. -/
  | aand (d : VReg) (a : SReg) (b : VReg)
  /-- AOR (R292). Atomic bitwise OR per active lane. -/
  | aor (d : VReg) (a : SReg) (b : VReg)
  /-- AXOR (R292). Atomic bitwise XOR per active lane. -/
  | axor (d : VReg) (a : SReg) (b : VReg)
  /-- AXCH (R292). Atomic exchange per active lane. -/
  | axch (d : VReg) (a : SReg) (b : VReg)
  /-- ACAS (R294). Atomic bitwise compare-and-swap per active lane. -/
  | acas (d : VReg) (a : SReg) (b : VReg)
  /-- WAITC (R306). Blocks until a memory word satisfies a comparison, by monitor or polling. -/
  | waitc (c : BitVec 3) (a b : SReg)
  /-- BARI (R321). Arms a barrier with an expected count. -/
  | bari (d : BitVec 8) (a : SReg)
  /-- BAR (R322). Arrives at a barrier and waits for the phase to complete. -/
  | bar (d : BitVec 8)
  /-- BARS (R323). Arrives at a core barrier and continues speculatively instead of waiting. -/
  | bars (d : BitVec 8)
  /-- BARA (R322). Arrives at a barrier without waiting, setting PEND. -/
  | bara (d : BitVec 8)
  /-- BARD (R322). Arrives at a barrier and leaves its membership from the next phase. -/
  | bard (d : BitVec 8)
  /-- LAUNCH (R347). Copies a launch record onto the context's ready queue and returns a status. -/
  | launch (d a : SReg)
  /-- TSPAWN (R351). Binds a task record to its dependence counter and returns a status. -/
  | tspawn (d a : SReg)
  /-- TDEP (R353). Adds a signed delta to a dependence counter at its Skillet. -/
  | tdep (a b : SReg)
  /-- REGION_CLOSE (R357). Closes the open region, releasing its buffered stores. -/
  | regionClose
  /-- REGION_OPEN (R358). Closes any open region and opens a new one with a checkpoint. -/
  | regionOpen
  /-- MARK (R417). Emits a program trace record with an id and payload. -/
  | mark (d : BitVec 8) (a : SReg)
  /-- TRCTL_GATE (R418). Sets the crew's trace gate. -/
  | trctlGate (a : SReg)
  /-- TRCTL_MASK (R418). Sets the crew's trace class mask. -/
  | trctlMask (a : SReg)
  /-- TRCTL_DRAIN (R418). Waits until TRWP has passed every record the crew emitted before. -/
  | trctlDrain (a : SReg)
  /-- TRCTL_ANCHOR (R418). Emits an ANCHOR record carrying the upper time base. -/
  | trctlAnchor (a : SReg)
  /-- TRAP (R372). Raises a precise software trap that resumes after the TRAP. -/
  | trap (i : BitVec 24)
  /-- SWRITE (R373). Writes RSEED or, in a handler, the resume PC. -/
  | swrite (i : BitVec 8) (a : SReg)
  /-- TRET (R374). Returns from handler state to the resume PC, restoring MODE and s63. -/
  | tret
  /-- ISSUE_STARVATION_PROMOTE (R101). A crew ready for 64 consecutive cycles without being chosen is chosen next. -/
  | issueStarvationPromote (crew : Nat)
  /-- INSTRUCTION_FETCH_FAULT (R112). A fetch that cannot be completed raises a precise fault at the target in the control slot. -/
  | instructionFetchFault (cause : BitVec 8) (addr : Addr) (detail : DWord)
  /-- LOAD_DATA_RETURN (R105). A load's data returns and is written to its destination, lowering LDC in order. -/
  | loadDataReturn (op : Nat)
  /-- STORE_PERFORMED (R208). A write reaches its point of coherence with invalidations acknowledged. -/
  | storePerformed (op k : Nat)
  /-- INVALIDATION_RECEIVE (R216). A core acknowledges an arriving L1 invalidation. -/
  | invalidationReceive (core line : Nat)
  /-- INVALIDATION_APPLY_TIMEOUT (R216). A received invalidation is applied at the latest 2 µs after arrival. -/
  | invalidationApplyTimeout (core : Nat)
  /-- ATOMIC_STEP (R289). An execution point applies the combined lanes of an atomic to one line as one step. -/
  | atomicStep (op addr : Nat)
  /-- ATOMIC_RESULT_RETURN (R291). Old values return to the atomic's lanes and the atomic completes for LDC. -/
  | atomicResultReturn (op : Nat)
  /-- SHAPE_COMPLETE (R203). The descriptor read returns and the record is written valid or a fault is held. -/
  | shapeComplete (op : Nat)
  /-- TDEP_STEP (R353). The Skillet applies the delta to the counter block and fires a ready task. -/
  | tdepStep (op : Nat)
  /-- FLUSH_COMPLETE (R205). Every covered line has been written back and invalidated. -/
  | flushComplete (op : Nat)
  /-- COPY_COMPLETE (R239). Every lane's copy is performed and the semaphore is incremented. -/
  | copyComplete (op : Nat)
  /-- BIN_CLAIM (R247). A bump of a bin counter is applied at its Skillet. -/
  | binClaim (op : Nat)
  /-- BINW_COMPLETE (R246). Every lane has its result and put, results are written back and the semaphore is incremented. -/
  | binwComplete (op : Nat)
  /-- MIRROR_DELIVERY (R194). A mirror store's delivery is performed at a receiving member, or fails and is logged. -/
  | mirrorDelivery (op member : Nat) (bad : List Nat)
  /-- BULK_START (R249). A free bulk engine picks the next entry with the deficit arbiter and starts it. -/
  | bulkStart (die engine func : Nat)
  /-- BULK_COPY_DONE (R254). A copy command ends and writes its completion record. -/
  | bulkCopyDone (cmd : Nat)
  /-- BULK_DECRYPT_DONE (R255). A decrypt-copy ends, releasing plaintext on a tag match or zeros on mismatch. -/
  | bulkDecryptDone (cmd : Nat)
  /-- COLLECTIVE_MATCH (R257). All members of a collective group are matched by GROUP and SEQ. -/
  | collectiveMatch (func group : Nat) (seq : Word) (agree : Bool)
  /-- COLLECTIVE_DONE (R257). A collective's data is reduced or gathered and completion records are written. -/
  | collectiveDone (func group : Nat) (seq : Word) (remote : List (Nat × List (Byte × Bool)))
  /-- SCAN_DONE (R258). A scan command ends with its matches written and a completion record. -/
  | scanDone (cmd : Nat)
  /-- TILE_STEP_COMPLETE (R266). A matrix step finishes writing its tile and lowers TLC. -/
  | tileStepComplete (op : Nat)
  /-- DRAIN_COMPLETE (R283). A TDRN or TDRM finishes writing its destination bytes. -/
  | drainComplete (op : Nat)
  /-- DRAIN_ADD_RECEIVE (R286). A drain-add arrives at the receiving core and is added to the tile, or refused. -/
  | drainAddReceive (op : Nat)
  /-- DRAIN_ADD_ACK (R286). The increment done or refusal returns and TDRP completes for TLC. -/
  | drainAddAck (op : Nat)
  /-- MONITOR_WAKE (R307). A wake carrying the read value reaches the waiting crew and ends its WAITC. -/
  | monitorWake (crew : Nat)
  /-- WAITC_POLL (R307). A polled WAITC repeats its read every 1 µs of module time. -/
  | waitcPoll (crew : Nat)
  /-- MONITOR_THRESHOLD_HALT (R308). A WAITC waiting longer than the launch's threshold halts its team. -/
  | monitorThresholdHalt (crew : Nat)
  /-- RELAUNCH_POLL (R308). The command front end polls a relaunch entry of a halted team. -/
  | relaunchPoll (team : Nat)
  /-- WIDE_BARRIER_ARRIVAL (R312). An arrival, drop or BARI of a crew reaches a wide barrier context. -/
  | wideBarrierArrival (ctx crew : Nat)
  /-- WIDE_BARRIER_COMPLETION (R317). A wide-barrier completion message reaches a core and ends its crews' waits. -/
  | wideBarrierCompletion (ctx core : Nat)
  /-- REGION_RELEASE_COMPLETE (R481). Every store released at a close or commit is performed and the release completes. -/
  | regionReleaseComplete (op : Nat)
  /-- DISPATCH_ENTRY (R344). The head ready-queue entry is checked, barriers claimed and ranges translated. -/
  | dispatchEntry (ctx : Nat)
  /-- PLACE_TEAM (R340). A team of the head entry is placed on a fitting core and its crews start. -/
  | placeTeam (ctx : Nat)
  /-- PLACE_MIRROR_GROUP (R341). All members of a mirror group are placed on one die at once. -/
  | placeMirrorGroup (ctx : Nat)
  /-- COMPACTOR_MOVE (R343). The compactor moves one crew's register blocks to free space. -/
  | compactorMove (core crew : Nat)
  /-- HEAT_SWEEP (R168). The sweeper lowers heat fields of each leaf once per sweep period. -/
  | heatSweep (ctx : Nat)
  /-- PAGE_REQUEST_REPLY (R388). A page-request reply is applied to extents, posted to the fault table, or discarded. -/
  | pageRequestReply (ctx req : Nat) (status : BitVec 8)
  /-- PRG_RESPONSE (R458). A PRI PRG Response arrives and is matched to its request by function, PRG index and PASID. -/
  | prgResponse (func : Nat) (index : Nat × BitVec 20) (code : PrgCode)
  /-- PAGE_REQUEST_TIMEOUT (R458). A page request without response within the time-out completes with STATUS 2. -/
  | pageRequestTimeout (ctx req : Nat)
  /-- PRG_INDEX_REUSE_TIMEOUT (R458). A timed-out PRG index becomes allocatable after twice the time-out. -/
  | prgIndexReuseTimeout (func index : Nat)
  /-- ATS_TRANSLATION_COMPLETION (R456). An ATS Translation completion is applied to the extents being built. -/
  | atsTranslationCompletion (ctx : Nat) (page : Nat) (res : AtsResult)
  /-- ATS_TRANSLATION_TIMEOUT (R456). No ATS completion within 1 ms is a translation error. -/
  | atsTranslationTimeout (ctx : Nat) (page : Nat)
  /-- ATS_INVALIDATE_REQUEST (R457). An ATS Invalidate Request starts a translation invalidation of affected teams. -/
  | atsInvalidateRequest (link ctx lo len : Nat)
  /-- UNMAP_INVALIDATION (R174). An unmap by the S-mode scheduler halts affected teams and rebuilds spans as holes. -/
  | unmapInvalidation (ctx lo len : Nat)
  /-- INVALIDATION_COMPLETE (R174). Outstanding accesses to old pages complete, extents are rebuilt and teams resume. -/
  | invalidationComplete (id : Nat)
  /-- HALT_REQUEST (R378). Firmware requests a halt of a team for pre-emption or world switch. -/
  | haltRequest (team : Nat)
  /-- HALT_COMPLETE (R378). Every crew has stopped and aborts are done, and the halt is reported. -/
  | haltComplete (team : Nat)
  /-- RESUME (R383). A halted team's spilled units are reloaded and its crews go on. -/
  | resume (team : Nat)
  /-- QUANTUM_EXPIRY (R436). A function's quantum ends and the slice switches to the next waiting function. -/
  | quantumExpiry (slice : Nat)
  /-- CONTEXT_TEARDOWN (R386). A context's crews stop without save and its state and work are discarded. -/
  | contextTeardown (ctx : Nat)
  /-- TRAP_ENTRY (R363). After older instructions drain, the trap record is written and the handler entered. -/
  | trapEntry (crew : Nat)
  /-- UNCORRECTABLE_STATE_ERROR (R377). An error not carried as poison ends the entry with STATUS 0x00FE. -/
  | uncorrectableStateError (crew : Nat) (cause : BitVec 8)
  /-- SCRUB_SECTOR (R375). Scrub finds an uncorrectable error and poisons the granule. -/
  | scrubSector (place : PoisonPlace)
  /-- ACTIVITY_BUDGET_PERIOD (R447). Each 10 µs period renews every background activity's budget. -/
  | activityBudgetPeriod (die : Nat)
  /-- CARVE_WRITEBACK (R180). Dirty lines of units taken from L1 are written back under the carve budget. -/
  | carveWriteback (core n : Nat)
  /-- CARVE_COMPLETE (R180). DIRTY reaches zero or teams release units and the units join their new use. -/
  | carveComplete (core : Nat)
  /-- SRAMCFG_WRITE (R178). A write to SRAMCFG starts a carve change or is rejected. -/
  | sramcfgWrite (core : Nat) (value : DWord)
  /-- TRACE_RESERVATION_REFILL (R409). The collector tops up a core's reservation pool when the buffer has space. -/
  | traceReservationRefill (core : Nat)
  /-- TRACE_ACCEPT (R405). A collector accepts a record, numbers it and writes it to the buffer. -/
  | traceAccept (die src : Nat)
  /-- EPOCH (R399). The die's time base crossing a multiple of 2^40 emits EPOCH to every enabled buffer. -/
  | epoch (die : Nat)
  /-- TRCFG_WRITE (R402). A write to TRCFG changes enable or mode, emitting EPOCH or releasing stalls; bits 63 and 62 of the
  value bring what firmware makes of FORCED with it. -/
  | trcfgWrite (func : Nat) (value : DWord)
  /-- TRBUF_WRITE (R402). A firmware write to TRBUF is taken, or refused setting CFGERR. -/
  | trbufWrite (func : Nat) (value : DWord) (firmware : Bool)
  /-- TRRP_WRITE (R402). The reader advances TRRP, freeing buffer space, or the write is refused. -/
  | trrpWrite (func : Nat) (value : DWord)
  /-- PPS_EDGE (R396). A rising 1PPS edge is captured into PPSCAP and disciplines the time base. -/
  | ppsEdge (offset : BitVec 32)
  /-- PTM_EXCHANGE (R460). The time master issues a PTM request at its interval and corrects rate. -/
  | ptmExchange (offset : BitVec 32)
  /-- PTM_FAILURE_TIMEOUT (R460). PTM failure for more than 2 s moves the time lock to holdover. -/
  | ptmFailureTimeout
  /-- TIME_FORWARD_STEP (R396). Firmware orders a single forward step to remove a lag above 1 ms. -/
  | timeForwardStep (units : Nat)
  /-- TBEPOCH_WRITE (R396). A write to TBEPOCH is taken, or refused setting EPERR while trace is enabled. -/
  | tbepochWrite (value : DWord)
  /-- SLICE_CREATE (R429). A slice is created from free resources. -/
  | sliceCreate (s : Nat) (cores : List (Nat × Nat × Nat)) (mem : DWord)
  /-- SLICE_GROW (R429). A slice takes further free resources. -/
  | sliceGrow (s : Nat) (cores : List (Nat × Nat × Nat)) (mem : DWord)
  /-- SLICE_SHRINK (R429). A slice releases cores, way-groups and channel sets as they drain. -/
  | sliceShrink (s : Nat) (cores : List (Nat × Nat × Nat)) (mem : DWord)
  /-- SLICE_MERGE (R429). One slice is merged into another, halting and resuming its contexts. -/
  | sliceMerge (a b : Nat)
  /-- SLICE_SPLIT (R429). Released parts of a slice form a new slice. -/
  | sliceSplit (a b : Nat) (cores : List (Nat × Nat × Nat)) (memA memB : DWord)
  /-- SLICE_RELEASE_PROGRESS (R429). A released core, way-group or channel set leaves the slice once drained. -/
  | sliceReleaseProgress (s : Nat) (part : SlicePart)
  /-- SLICE_RESET (R437). A write to SLRST resets a slice in six ordered steps. -/
  | sliceReset (s : Nat)
  /-- QUEUE_NOTIFY (R432). A QNTF write advances a queue's tail, sets a pending bit, or is refused. -/
  | queueNotify (func queue : Nat) (value : DWord)
  /-- QUEUE_MAP (R434). The scheduler maps a queue to a slot and fetching starts from HEAD. -/
  | queueMap (func queue slot : Nat)
  /-- QUEUE_SLOT_FETCH (R433). A slot fetches one queue entry and queues, rejects or admits it. -/
  | queueSlotFetch (slice slot : Nat)
  /-- NP_QUEUE_RECLAIM (R435). An NP queue mapped for RUNMAX µs is reclaimed. -/
  | npQueueReclaim (slice slot : Nat)
  /-- ADAPTER_ADMISSION (R446). An admission claims an adapter slot, prefetches its weights and queues the launch. -/
  | adapterAdmission (id : Nat)
  /-- ADMISSION_RETRY (R446). A held admission retries on a write to its slot table. -/
  | admissionRetry (id : Nat)
  /-- MIGRATION_COMMAND (R439). Firmware submits a page move to a die's migration engine. -/
  | migrationCommand (die src dst psize func report : Nat)
  /-- MIGRATION_LINE_COPY (R440). The migration engine copies one line and marks it copied. -/
  | migrationLineCopy (die entry : Nat)
  /-- MIGRATION_DONE (R443). A move ends and its report is written. -/
  | migrationDone (die entry : Nat)
  /-- FORWARDING_ENTRY_RETIRE (R441). Firmware retires a forwarding entry after the invalidation. -/
  | forwardingEntryRetire (die entry : Nat)
  /-- POD_REQUEST_RECEIVE (R302). A pod access arrives at the target, is checked and performed or refused. -/
  | podRequestReceive (req : PodReq)
  /-- POD_RESPONSE_TIMEOUT (R302). A pod access without response within the time-out is refused with reason 2. -/
  | podResponseTimeout (op k : Nat)
  /-- POD_RESPONSE (R304). A pod response or refusal returns to the issuing module. -/
  | podResponse (op k : Nat) (res : PodResult)
  /-- HOST_ATOMICOP (R288). A PCIe AtomicOp from the host reaches device memory. -/
  | hostAtomicop (pa : Nat) (kind : HostAtomic) (size : Nat) (operand compare : DWord)
  /-- HOST_MEMORY_WRITE (R228). A host write reaches device memory in PCIe order. -/
  | hostMemoryWrite (pa : Nat) (data : List Byte)
  /-- HOST_MEMORY_READ (R376). A host read over PCIe returns data, with EP set on poison. -/
  | hostMemoryRead (pa n : Nat)
  /-- MAILBOX_DOORBELL (R449). A write to a mailbox doorbell signals the other side. -/
  | mailboxDoorbell (func : Nat) (inbound : Bool) (value : DWord)
  /-- REGISTER_WRITE (R452). An MMIO write to a register without a row of its own. `stream` is that of a request with the T bit. -/
  | registerWrite (link func off size : Nat) (value : DWord) (stream : Option Nat)
  /-- TBLGO_PEER (R451). A TBLGO writes a peer-table entry through the table port. -/
  | tblgoPeer
  /-- TBLGO_WINDOW (R451). A TBLGO writes a window-table entry through the table port. -/
  | tblgoWindow
  /-- TBLGO_ROUTING (R451). A TBLGO writes a routing-table entry through the table port. -/
  | tblgoRouting
  /-- KEY_ASSIGN (R468). KEYCTL ASSIGN generates a new key and gives its index to a function. -/
  | keyAssign (index func : Nat)
  /-- KEY_RETIRE (R469). KEYCTL RETIRE writes back, invalidates and zeroises a key index. -/
  | keyRetire (index : Nat)
  /-- FUNCTION_LEVEL_RESET (R454). An FLR tears down a function's contexts and resets its state. -/
  | functionLevelReset (func : Nat)
  /-- IDE_KM_KEY_PROGRAM (R461). IDE_KM programs stream keys in a secured session. -/
  | ideKmKeyProgram (link stream : Nat)
  /-- IDE_INTEGRITY_FAILURE (R461). An integrity or sequence failure drops the TLP and makes the stream insecure. -/
  | ideIntegrityFailure (link stream : Nat)
  /-- LOCK_INTERFACE_REQUEST (R462). Locks a VF's TDI configuration. -/
  | lockInterfaceRequest (vf stream : Nat)
  /-- STOP_INTERFACE_REQUEST (R464). Moves a TDI to CONFIG_UNLOCKED through the error steps. -/
  | stopInterfaceRequest (vf : Nat)
  /-- DEVICE_INTERFACE_REPORT (R463). Returns the VF's BAR0 ranges with their TEE markings. -/
  | deviceInterfaceReport (vf : Nat)
  /-- GET_VERSION (R465). SPDM request returning supported versions. -/
  | getVersion
  /-- GET_CAPABILITIES (R465). SPDM request returning responder capabilities. -/
  | getCapabilities
  /-- NEGOTIATE_ALGORITHMS (R465). SPDM request selecting algorithms. -/
  | negotiateAlgorithms (hash kex aead : Nat)
  /-- GET_DIGESTS (R465). SPDM request returning certificate chain digests. -/
  | getDigests
  /-- GET_CERTIFICATE (R465). SPDM request returning a certificate chain of a slot. -/
  | getCertificate (slot : Nat)
  /-- CHALLENGE (R465). SPDM challenge signed with the named slot. -/
  | challenge (slot : Nat) (nonce : List Byte)
  /-- GET_MEASUREMENTS (R466). SPDM request returning the measurement records. -/
  | getMeasurements (slot index : Nat) (nonce : List Byte)
  /-- KEY_EXCHANGE (R465). SPDM key exchange signed with the named slot. -/
  | keyExchange (slot : Nat) (nonce : List Byte)
  /-- FINISH (R465). SPDM request completing a secured session. -/
  | finish
  /-- END_SESSION (R465). SPDM request ending a secured session. -/
  | endSession
  /-- KEY_LOAD (R470). Vendor-defined SPDM request loading or emptying a bulk key slot. -/
  | keyLoad (func : Nat) (slot : KeyPath) (key : BitVec 256)
  /-- POWER_ON_SEQUENCE (R474). Power good and PERST# release start the die bring-up steps. -/
  | powerOnSequence (failed : List BringupFail) (boot : Boot) (manifest : Option Manifest)
  /-- GOVERNOR_EVALUATE (R478). Every 10 µs the governor evaluates power and sets die clock steps. -/
  | governorEvaluate (lower raise : List Nat)
  /-- GOVERNOR_FAST_STEP (R478). Over-current or over-temperature lowers a die one step per microsecond. -/
  | governorFastStep (die : Nat)
  /-- FIRMWARE_UPDATE (R479). Front-end firmware of one die is verified and switched. -/
  | firmwareUpdate (die svn : Nat) (verified : Bool)
  /-- D2D_LANE_RETIRE (R480). A die-to-die lane is retired and replaced by the spare or the link halved. -/
  | d2dLaneRetire (a b : Nat)
  /-- UALINK_LANE_RETIRE (R471). A UALink lane is retired and the station runs on fewer lanes. -/
  | ualinkLaneRetire (station : Nat)
  /-- HBM_CHANNEL_RETIRE (R480). A released channel set is marked retired. -/
  | hbmChannelRetire (set : Nat)
  /-- DIE_FENCE (R480). A die is fenced out of service. -/
  | dieFence (die : Nat)
  /-- ILLEGAL_INSTRUCTION_WORD (R68). Issue of a word that is not an instruction raises a precise illegal-instruction trap and has no other effect. -/
  | illegalInstructionWord (w : Word)
  /-- PPS_LOSS_TIMEOUT (R396). When no 1PPS edge has been seen for 2 s, TIMESTAT.PPS falls to 0. -/
  | ppsLossTimeout
  /-- PRI_RESET (R458). The host writes the PRI Reset bit, which frees timed-out PRG indices and lets a function raise page requests again after a Response Failure. -/
  | priReset (func : Nat)
  /-- START_INTERFACE_REQUEST (R462). A TDISP request moves a locked TDI from CONFIG_LOCKED into RUN. -/
  | startInterfaceRequest (vf : Nat)
  /-- UALINK_STATION_DOWN (R473). A UALink station goes down, which changes the set of up stations that routing chooses from and can make modules unreachable. -/
  | ualinkStationDown (station : Nat)
  /-- UALINK_STATION_UP (R473). A UALink station comes up and rejoins the set of stations that routing chooses from; firmware may have loaded its keys. -/
  | ualinkStationUp (station : Nat × Bool)
  deriving DecidableEq, Repr

end Sys2Proof
end

