-- ==== Sys2Proof/WellFormed.lean ====
section
/-! DEFINITION. The conditions that the fields of a word meet beyond the widths of Instr's arguments: codes within their
limits and aligned register groups (R59, R43, R63 check 2). -/
namespace Sys2Proof

/-- An even vector-register field (R43). -/
def VReg.even (v : VReg) : Bool := !v.getLsbD 0

/-- The instruction has a word that passes check 2 of R63. Steps without a word carry no such condition. -/
def Instr.wf (i : Instr) : Bool :=
  match i with
  | .nop => true
  | .br _ => true
  | .brz _ _ => true
  | .brnz _ _ => true
  | .call _ => true
  | .ret => true
  | .jr _ => true
  | .blkz _ _ => true
  | .mode _ _ => true
  | .moder _ _ => true
  | .wait _ _ _ _ => true
  | .waitr _ _ => true
  | .endCrew => true
  | .sread _ _ => true
  | .sli _ _ => true
  | .slis _ _ => true
  | .sadd _ _ _ => true
  | .saddi _ _ _ => true
  | .ssub _ _ _ => true
  | .smul _ _ _ => true
  | .sdivs _ _ _ => true
  | .sdivn _ _ _ => true
  | .sand _ _ _ => true
  | .sor _ _ _ => true
  | .sxor _ _ _ => true
  | .sshl _ _ _ => true
  | .sshr _ _ _ => true
  | .ssra _ _ _ => true
  | .sslt _ _ _ => true
  | .scnt _ _ => true
  | .sclz _ _ => true
  | .vadd _ _ _ => true
  | .vsub _ _ _ => true
  | .vmul _ _ _ => true
  | .vfma _ _ _ => true
  | .vmin _ _ _ => true
  | .vmax _ _ _ => true
  | .vand _ _ _ => true
  | .vor _ _ _ => true
  | .vxor _ _ _ => true
  | .vshl _ _ _ => true
  | .vshr _ _ _ => true
  | .vceq _ _ _ => true
  | .vclt _ _ _ => true
  | .vcle _ _ _ => true
  | .vmov _ _ => true
  | .vbcs _ _ => true
  | .vext _ _ _ => true
  | .vlid _ => true
  | .vcvt _ _ => true
  | .vrcp _ _ => true
  | .vrsq _ _ => true
  | .vexp2 _ _ => true
  | .vlog2 _ _ => true
  | .vred _ _ => true
  | .vcmpr _ _ _ => true
  | .vexpd _ _ _ => true
  | .vslup _ _ _ => true
  | .vsldn _ _ _ => true
  | .vperm _ _ _ => true
  | .vpk2 _ _ _ => true
  | .vpk4 _ a b => VReg.even a && VReg.even b
  | .vupk _ _ _ => true
  | .ld _ _ _ => true
  | .st _ _ _ => true
  | .ldt _ _ _ => true
  | .stt _ _ _ => true
  | .shape _ _ => true
  | .fence s o => s.toNat ≤ 6 && 1 ≤ o.toNat
  | .pref _ _ _ => true
  | .flush _ _ => true
  | .cpy4 _ a b => VReg.even a && VReg.even b
  | .cpy8 _ a b => VReg.even a && VReg.even b
  | .cpy16 _ a b => VReg.even a && VReg.even b
  | .cpyt _ _ _ => true
  | .binw _ _ _ => true
  | .bulk _ _ => true
  | .semset _ _ => true
  | .semacq _ _ => true
  | .semtry _ _ => true
  | .semrd _ _ => true
  | .gang _ => true
  | .mmag _ _ _ => true
  | .mmas _ _ _ => true
  | .tilez _ => true
  | .tld _ _ => true
  | .tdrn _ _ => true
  | .tdrm _ _ _ => true
  | .tdrp _ _ => true
  | .aadd _ _ _ => true
  | .amin _ _ _ => true
  | .amax _ _ _ => true
  | .aand _ _ _ => true
  | .aor _ _ _ => true
  | .axor _ _ _ => true
  | .axch _ _ _ => true
  | .acas d _ _ => VReg.even d
  | .waitc c _ _ => c.toNat ≤ 5
  | .bari _ _ => true
  | .bar _ => true
  | .bars _ => true
  | .bara _ => true
  | .bard _ => true
  | .launch _ _ => true
  | .tspawn _ _ => true
  | .tdep _ _ => true
  | .regionClose => true
  | .regionOpen => true
  | .mark _ _ => true
  | .trctlGate _ => true
  | .trctlMask _ => true
  | .trctlDrain _ => true
  | .trctlAnchor _ => true
  | .trap _ => true
  | .swrite _ _ => true
  | .tret => true
  | .issueStarvationPromote _ => true
  | .instructionFetchFault _ _ _ => true
  | .loadDataReturn _ => true
  | .storePerformed _ _ => true
  | .invalidationReceive _ _ => true
  | .invalidationApplyTimeout _ => true
  | .atomicStep _ _ => true
  | .atomicResultReturn _ => true
  | .shapeComplete _ => true
  | .tdepStep _ => true
  | .flushComplete _ => true
  | .copyComplete _ => true
  | .binClaim _ => true
  | .binwComplete _ => true
  | .mirrorDelivery _ _ _ => true
  | .bulkStart _ _ _ => true
  | .bulkCopyDone _ => true
  | .bulkDecryptDone _ => true
  | .collectiveMatch _ _ _ _ => true
  | .collectiveDone _ _ _ _ => true
  | .scanDone _ => true
  | .tileStepComplete _ => true
  | .drainComplete _ => true
  | .drainAddReceive _ => true
  | .drainAddAck _ => true
  | .monitorWake _ => true
  | .waitcPoll _ => true
  | .monitorThresholdHalt _ => true
  | .relaunchPoll _ => true
  | .wideBarrierArrival _ _ => true
  | .wideBarrierCompletion _ _ => true
  | .regionReleaseComplete _ => true
  | .dispatchEntry _ => true
  | .placeTeam _ => true
  | .placeMirrorGroup _ => true
  | .compactorMove _ _ => true
  | .heatSweep _ => true
  | .pageRequestReply _ _ _ => true
  | .prgResponse _ _ _ => true
  | .pageRequestTimeout _ _ => true
  | .prgIndexReuseTimeout _ _ => true
  | .atsTranslationCompletion _ _ _ => true
  | .atsTranslationTimeout _ _ => true
  | .atsInvalidateRequest _ _ _ _ => true
  | .unmapInvalidation _ _ _ => true
  | .invalidationComplete _ => true
  | .haltRequest _ => true
  | .haltComplete _ => true
  | .resume _ => true
  | .quantumExpiry _ => true
  | .contextTeardown _ => true
  | .trapEntry _ => true
  | .uncorrectableStateError _ _ => true
  | .scrubSector _ => true
  | .activityBudgetPeriod _ => true
  | .carveWriteback _ _ => true
  | .carveComplete _ => true
  | .sramcfgWrite _ _ => true
  | .traceReservationRefill _ => true
  | .traceAccept _ _ => true
  | .epoch _ => true
  | .trcfgWrite _ _ => true
  | .trbufWrite _ _ _ => true
  | .trrpWrite _ _ => true
  | .ppsEdge _ => true
  | .ptmExchange _ => true
  | .ptmFailureTimeout => true
  | .timeForwardStep _ => true
  | .tbepochWrite _ => true
  | .sliceCreate _ _ _ => true
  | .sliceGrow _ _ _ => true
  | .sliceShrink _ _ _ => true
  | .sliceMerge _ _ => true
  | .sliceSplit _ _ _ _ _ => true
  | .sliceReleaseProgress _ _ => true
  | .sliceReset _ => true
  | .queueNotify _ _ _ => true
  | .queueMap _ _ _ => true
  | .queueSlotFetch _ _ => true
  | .npQueueReclaim _ _ => true
  | .adapterAdmission _ => true
  | .admissionRetry _ => true
  | .migrationCommand _ _ _ _ _ _ => true
  | .migrationLineCopy _ _ => true
  | .migrationDone _ _ => true
  | .forwardingEntryRetire _ _ => true
  | .podRequestReceive _ => true
  | .podResponseTimeout _ _ => true
  | .podResponse _ _ _ => true
  | .hostAtomicop _ _ _ _ _ => true
  | .hostMemoryWrite _ _ => true
  | .hostMemoryRead _ _ => true
  | .mailboxDoorbell _ _ _ => true
  | .registerWrite _ _ _ _ _ _ => true
  | .tblgoPeer => true
  | .tblgoWindow => true
  | .tblgoRouting => true
  | .keyAssign _ _ => true
  | .keyRetire _ => true
  | .functionLevelReset _ => true
  | .ideKmKeyProgram _ _ => true
  | .ideIntegrityFailure _ _ => true
  | .lockInterfaceRequest _ _ => true
  | .stopInterfaceRequest _ => true
  | .deviceInterfaceReport _ => true
  | .getVersion => true
  | .getCapabilities => true
  | .negotiateAlgorithms _ _ _ => true
  | .getDigests => true
  | .getCertificate _ => true
  | .challenge _ _ => true
  | .getMeasurements _ _ _ => true
  | .keyExchange _ _ => true
  | .finish => true
  | .endSession => true
  | .keyLoad _ _ _ => true
  | .powerOnSequence _ _ _ => true
  | .governorEvaluate _ _ => true
  | .governorFastStep _ => true
  | .firmwareUpdate _ _ _ => true
  | .d2dLaneRetire _ _ => true
  | .ualinkLaneRetire _ => true
  | .hbmChannelRetire _ => true
  | .dieFence _ => true
  | .illegalInstructionWord _ => true
  | .ppsLossTimeout => true
  | .priReset _ => true
  | .startInterfaceRequest _ => true
  | .ualinkStationDown _ => true
  | .ualinkStationUp _ => true

/-- The instruction is well formed. -/
abbrev Instr.WellFormed (i : Instr) : Prop := i.wf = true

end Sys2Proof
end

