-- ==== Sys2Proof/Decode.lean ====
section
/-! DEFINITION. The decoder of instruction words, total and rejecting by name (R58 to R63 checks 1 and 2, R68), and the
encoder, both from the forms of R62. -/
namespace Sys2Proof

/-- Why a word is not an instruction (R68). -/
inductive Reject where
  /-- The opcode position is unassigned (R61). -/
  | unassigned
  /-- A zero field is not zero (R59). -/
  | zeroField
  /-- A scalar field holds 64 or more (R41). -/
  | scalarField
  /-- A code field is above its limit (R59). -/
  | codeField
  /-- A semaphore, tile or shape handle field is above its range (R51). -/
  | handleField
  /-- A register group is not aligned (R43). -/
  | group
  /-- Fewer than four bytes. -/
  | short
  deriving DecidableEq, Repr

/-- The fields of the formats of R58. -/
def opcodeOf (w : Word) : BitVec 8 := w.extractLsb' 24 8
def fieldD (w : Word) : BitVec 8 := w.extractLsb' 16 8
def fieldA (w : Word) : BitVec 8 := w.extractLsb' 8 8
def fieldB (w : Word) : BitVec 8 := w.extractLsb' 0 8
def imm16 (w : Word) : BitVec 16 := w.extractLsb' 0 16
def imm24 (w : Word) : BitVec 24 := w.extractLsb' 0 24
def loadsOf (w : Word) : BitVec 6 := w.extractLsb' 18 6
def storesOf (w : Word) : BitVec 6 := w.extractLsb' 12 6
def copiesOf (w : Word) : BitVec 6 := w.extractLsb' 6 6
def tilesOf (w : Word) : BitVec 6 := w.extractLsb' 0 6

/-- A zero field (R59). -/
def pZero (x : BitVec 8) : Except Reject Unit := if x = 0 then .ok () else .error .zeroField
/-- A scalar-register field (R41). -/
def pSreg (x : BitVec 8) : Except Reject SReg := if x.toNat < 64 then .ok (x.setWidth 6) else .error .scalarField
/-- A vector-register field; the allocation is checked at issue (R42). -/
def pVreg (x : BitVec 8) : Except Reject VReg := .ok x
/-- An even-aligned pair of vector registers (R43). -/
def pPair (x : BitVec 8) : Except Reject VReg := if x.getLsbD 0 then .error .group else .ok x
/-- A semaphore or tile handle field (R51). -/
def pHandle (x : BitVec 8) : Except Reject (BitVec 6) := if x.toNat < 64 then .ok (x.setWidth 6) else .error .handleField
/-- A shape handle field (R51). -/
def pShape (x : BitVec 8) : Except Reject (BitVec 4) := if x.toNat < 16 then .ok (x.setWidth 4) else .error .handleField
/-- A barrier handle, an index or an unsigned 8-bit field: every value. -/
def pAny (x : BitVec 8) : Except Reject (BitVec 8) := .ok x
/-- A code up to `max`, at least `min`, held in `n` bits (R59). -/
def pCode (n lo hi : Nat) (x : BitVec 8) : Except Reject (BitVec n) :=
  if lo ≤ x.toNat ∧ x.toNat ≤ hi then .ok (x.setWidth n) else .error .codeField
/-- PREF's level (R62). -/
def pLevel : BitVec 8 → Except Reject (BitVec 1) := pCode 1 0 1
/-- The codes 0 to 3 of MODE, WAITR and TRCTL (R62). -/
def pQuarter : BitVec 8 → Except Reject (BitVec 2) := pCode 2 0 3
/-- VUPK's element (R62). -/
def pElem : BitVec 8 → Except Reject (BitVec 3) := pCode 3 0 7
/-- WAITC's condition (R62). -/
def pCond : BitVec 8 → Except Reject (BitVec 3) := pCode 3 0 5
/-- FENCE's scope (R62). -/
def pScope : BitVec 8 → Except Reject (BitVec 3) := pCode 3 0 6
/-- FENCE's ordering (R62). -/
def pOrder : BitVec 8 → Except Reject (BitVec 2) := pCode 2 1 3
/-- REGION's code (R62). -/
def pRegion : BitVec 8 → Except Reject (BitVec 1) := pCode 1 0 1

/-- The formats F3 and FR8 with the kinds of their three fields (R58, R59). -/
def f3 {α β γ : Type} (pd : BitVec 8 → Except Reject α) (pa : BitVec 8 → Except Reject β) (pb : BitVec 8 → Except Reject γ)
    (c : α → β → γ → Instr) (w : Word) : Except Reject Instr :=
  match pd (fieldD w), pa (fieldA w), pb (fieldB w) with
  | .ok d, .ok a, .ok b => .ok (c d a b)
  | .error e, _, _ => .error e
  | _, .error e, _ => .error e
  | _, _, .error e => .error e
/-- The format FI (R58). -/
def fi {α : Type} (pd : BitVec 8 → Except Reject α) (c : α → BitVec 16 → Instr) (w : Word) : Except Reject Instr :=
  match pd (fieldD w) with
  | .ok d => .ok (c d (imm16 w))
  | .error e => .error e
/-- The format FJ (R58). -/
def fj (c : BitVec 24 → Instr) (w : Word) : Except Reject Instr := .ok (c (imm24 w))
/-- The format FW (R58). -/
def fw (c : BitVec 6 → BitVec 6 → BitVec 6 → BitVec 6 → Instr) (w : Word) : Except Reject Instr :=
  .ok (c (loadsOf w) (storesOf w) (copiesOf w) (tilesOf w))
/-- TRCTL's four operations (R418). -/
def trctlOf (k : BitVec 2) (a : SReg) : Instr :=
  if k = 0 then .trctlGate a else if k = 1 then .trctlMask a else if k = 2 then .trctlDrain a else .trctlAnchor a

/-- The instruction of a word, by its opcode (R61, R62). -/
def decode (w : Word) : Except Reject Instr :=
  match (opcodeOf w).toNat with
  | 0x01 => f3 pZero pZero pZero (fun _ _ _ => .nop) w
  | 0x02 => fj .br w
  | 0x03 => fi pSreg .brz w
  | 0x04 => fi pSreg .brnz w
  | 0x05 => fj .call w
  | 0x06 => f3 pZero pZero pZero (fun _ _ _ => .ret) w
  | 0x07 => f3 pZero pSreg pZero (fun _ a _ => .jr a) w
  | 0x08 => fi pSreg .blkz w
  | 0x09 => fi pQuarter .mode w
  | 0x0A => f3 pSreg pSreg pZero (fun d a _ => .moder d a) w
  | 0x0B => fw .wait w
  | 0x0C => f3 pZero pSreg pQuarter (fun _ a k => .waitr a k) w
  | 0x0D => f3 pZero pZero pZero (fun _ _ _ => .endCrew) w
  | 0x0E => f3 pSreg pAny pZero (fun d i _ => .sread d i) w
  | 0x10 => fi pSreg .sli w
  | 0x11 => fi pSreg .slis w
  | 0x12 => f3 pSreg pSreg pSreg .sadd w
  | 0x13 => f3 pSreg pSreg pAny .saddi w
  | 0x14 => f3 pSreg pSreg pSreg .ssub w
  | 0x15 => f3 pSreg pSreg pSreg .smul w
  | 0x16 => f3 pSreg pSreg pSreg .sdivs w
  | 0x17 => f3 pSreg pSreg pSreg .sdivn w
  | 0x18 => f3 pSreg pSreg pSreg .sand w
  | 0x19 => f3 pSreg pSreg pSreg .sor w
  | 0x1A => f3 pSreg pSreg pSreg .sxor w
  | 0x1B => f3 pSreg pSreg pSreg .sshl w
  | 0x1C => f3 pSreg pSreg pSreg .sshr w
  | 0x1D => f3 pSreg pSreg pSreg .ssra w
  | 0x1E => f3 pSreg pSreg pSreg .sslt w
  | 0x1F => f3 pSreg pSreg pZero (fun d a _ => .scnt d a) w
  | 0x20 => f3 pSreg pSreg pZero (fun d a _ => .sclz d a) w
  | 0x30 => f3 pVreg pVreg pVreg .vadd w
  | 0x31 => f3 pVreg pVreg pVreg .vsub w
  | 0x32 => f3 pVreg pVreg pVreg .vmul w
  | 0x33 => f3 pVreg pVreg pVreg .vfma w
  | 0x34 => f3 pVreg pVreg pVreg .vmin w
  | 0x35 => f3 pVreg pVreg pVreg .vmax w
  | 0x36 => f3 pVreg pVreg pVreg .vand w
  | 0x37 => f3 pVreg pVreg pVreg .vor w
  | 0x38 => f3 pVreg pVreg pVreg .vxor w
  | 0x39 => f3 pVreg pVreg pVreg .vshl w
  | 0x3A => f3 pVreg pVreg pVreg .vshr w
  | 0x3B => f3 pSreg pVreg pVreg .vceq w
  | 0x3C => f3 pSreg pVreg pVreg .vclt w
  | 0x3D => f3 pSreg pVreg pVreg .vcle w
  | 0x3E => f3 pVreg pVreg pZero (fun d a _ => .vmov d a) w
  | 0x3F => f3 pVreg pSreg pZero (fun d a _ => .vbcs d a) w
  | 0x40 => f3 pSreg pVreg pSreg .vext w
  | 0x41 => f3 pVreg pZero pZero (fun d _ _ => .vlid d) w
  | 0x42 => f3 pVreg pVreg pZero (fun d a _ => .vcvt d a) w
  | 0x43 => f3 pVreg pVreg pZero (fun d a _ => .vrcp d a) w
  | 0x44 => f3 pVreg pVreg pZero (fun d a _ => .vrsq d a) w
  | 0x45 => f3 pVreg pVreg pZero (fun d a _ => .vexp2 d a) w
  | 0x46 => f3 pVreg pVreg pZero (fun d a _ => .vlog2 d a) w
  | 0x47 => f3 pSreg pVreg pZero (fun d a _ => .vred d a) w
  | 0x50 => f3 pVreg pVreg pSreg .vcmpr w
  | 0x51 => f3 pVreg pVreg pSreg .vexpd w
  | 0x52 => f3 pVreg pVreg pSreg .vslup w
  | 0x53 => f3 pVreg pVreg pSreg .vsldn w
  | 0x54 => f3 pVreg pVreg pVreg .vperm w
  | 0x55 => f3 pVreg pVreg pVreg .vpk2 w
  | 0x56 => f3 pVreg pPair pPair .vpk4 w
  | 0x57 => f3 pVreg pVreg pElem .vupk w
  | 0x60 => f3 pVreg pSreg pVreg .ld w
  | 0x61 => f3 pVreg pSreg pVreg .st w
  | 0x62 => f3 pVreg pShape pSreg .ldt w
  | 0x63 => f3 pVreg pShape pSreg .stt w
  | 0x64 => f3 pShape pSreg pZero (fun d a _ => .shape d a) w
  | 0x65 => f3 pScope pOrder pZero (fun s o _ => .fence s o) w
  | 0x66 => f3 pLevel pSreg pVreg .pref w
  | 0x67 => f3 pZero pSreg pSreg (fun _ a b => .flush a b) w
  | 0x70 => f3 pHandle pPair pPair .cpy4 w
  | 0x71 => f3 pHandle pPair pPair .cpy8 w
  | 0x72 => f3 pHandle pPair pPair .cpy16 w
  | 0x73 => f3 pHandle pShape pSreg .cpyt w
  | 0x74 => f3 pVreg pVreg pSreg .binw w
  | 0x75 => f3 pSreg pSreg pZero (fun d a _ => .bulk d a) w
  | 0x76 => f3 pHandle pSreg pZero (fun d a _ => .semset d a) w
  | 0x77 => f3 pHandle pSreg pZero (fun d a _ => .semacq d a) w
  | 0x78 => f3 pSreg pHandle pZero (fun d a _ => .semtry d a) w
  | 0x79 => f3 pSreg pHandle pZero (fun d a _ => .semrd d a) w
  | 0x80 => f3 pZero pSreg pZero (fun _ a _ => .gang a) w
  | 0x81 => f3 pHandle pSreg pVreg .mmag w
  | 0x82 => f3 pHandle pSreg pSreg .mmas w
  | 0x83 => f3 pHandle pZero pZero (fun d _ _ => .tilez d) w
  | 0x84 => f3 pHandle pSreg pZero (fun d a _ => .tld d a) w
  | 0x85 => f3 pHandle pSreg pZero (fun d a _ => .tdrn d a) w
  | 0x86 => f3 pHandle pSreg pSreg .tdrm w
  | 0x87 => f3 pHandle pSreg pZero (fun d a _ => .tdrp d a) w
  | 0x90 => f3 pVreg pSreg pVreg .aadd w
  | 0x91 => f3 pVreg pSreg pVreg .amin w
  | 0x92 => f3 pVreg pSreg pVreg .amax w
  | 0x93 => f3 pVreg pSreg pVreg .aand w
  | 0x94 => f3 pVreg pSreg pVreg .aor w
  | 0x95 => f3 pVreg pSreg pVreg .axor w
  | 0x96 => f3 pVreg pSreg pVreg .axch w
  | 0x97 => f3 pPair pSreg pVreg .acas w
  | 0x98 => f3 pCond pSreg pSreg .waitc w
  | 0x99 => f3 pAny pSreg pZero (fun d a _ => .bari d a) w
  | 0x9A => f3 pAny pZero pZero (fun d _ _ => .bar d) w
  | 0x9B => f3 pAny pZero pZero (fun d _ _ => .bars d) w
  | 0x9C => f3 pAny pZero pZero (fun d _ _ => .bara d) w
  | 0x9D => f3 pAny pZero pZero (fun d _ _ => .bard d) w
  | 0xA0 => f3 pSreg pSreg pZero (fun d a _ => .launch d a) w
  | 0xA1 => f3 pSreg pSreg pZero (fun d a _ => .tspawn d a) w
  | 0xA2 => f3 pZero pSreg pSreg (fun _ a b => .tdep a b) w
  | 0xA3 => f3 pRegion pZero pZero (fun k _ _ => if k = 0 then .regionClose else .regionOpen) w
  | 0xB0 => f3 pAny pSreg pZero (fun d a _ => .mark d a) w
  | 0xB1 => f3 pQuarter pSreg pZero (fun k a _ => trctlOf k a) w
  | 0xC0 => fj .trap w
  | 0xC1 => f3 pAny pSreg pZero (fun i a _ => .swrite i a) w
  | 0xC2 => f3 pZero pZero pZero (fun _ _ _ => .tret) w
  | _ => .error .unassigned

/-- The four bytes of a word are little-endian (R4). -/
def wordOfBytes (a b c d : Byte) : Word := d ++ c ++ b ++ a

/-- The first instruction of a list of bytes and the rest of the list. -/
def decodeBytes : List Byte → Except Reject (Instr × List Byte)
  | a :: b :: c :: d :: rest =>
    match decode (wordOfBytes a b c d) with
    | .ok i => .ok (i, rest)
    | .error e => .error e
  | _ => .error .short

/-- The bytes of a word in memory order (R4). -/
def bytesOfWord (w : Word) : List Byte :=
  [w.extractLsb' 0 8, w.extractLsb' 8 8, w.extractLsb' 16 8, w.extractLsb' 24 8]

/-- The decoder on a row of the opcode table: every instruction is one 32-bit word (R58). -/
def decodeTableWord (nbits w : Nat) : Option Instr :=
  if nbits ≤ 32 then
    match decodeBytes (bytesOfWord (BitVec.ofNat 32 (w % 2 ^ nbits))) with
    | .ok (i, _) => some i
    | .error _ => none
  else none

/-- A 6-bit field in its 8-bit place. -/
def s8 (x : BitVec 6) : BitVec 8 := x.setWidth 8
/-- A word of format F3 or FR8. -/
def w3 (o d a b : BitVec 8) : Word := o ++ d ++ a ++ b
/-- A word of format FI. -/
def wi (o d : BitVec 8) (i : BitVec 16) : Word := o ++ d ++ i
/-- A word of format FJ. -/
def wj (o : BitVec 8) (i : BitVec 24) : Word := o ++ i
/-- A word of format FW. -/
def ww (o : BitVec 8) (l s c t : BitVec 6) : Word := o ++ l ++ s ++ c ++ t

/-- The word of an instruction; a step without a word has none. -/
def encode (i : Instr) : Option Word :=
  match i with
  | .nop => some (w3 0x01 0 0 0)
  | .br i => some (wj 0x02 i)
  | .brz d i => some (wi 0x03 (s8 d) i)
  | .brnz d i => some (wi 0x04 (s8 d) i)
  | .call i => some (wj 0x05 i)
  | .ret => some (w3 0x06 0 0 0)
  | .jr a => some (w3 0x07 0 (s8 a) 0)
  | .blkz d n => some (wi 0x08 (s8 d) n)
  | .mode q i => some (wi 0x09 (q.setWidth 8) i)
  | .moder d a => some (w3 0x0A (s8 d) (s8 a) 0)
  | .wait l s c t => some (ww 0x0B l s c t)
  | .waitr a k => some (w3 0x0C 0 (s8 a) (k.setWidth 8))
  | .endCrew => some (w3 0x0D 0 0 0)
  | .sread d i => some (w3 0x0E (s8 d) i 0)
  | .sli d i => some (wi 0x10 (s8 d) i)
  | .slis d i => some (wi 0x11 (s8 d) i)
  | .sadd d a b => some (w3 0x12 (s8 d) (s8 a) (s8 b))
  | .saddi d a i => some (w3 0x13 (s8 d) (s8 a) i)
  | .ssub d a b => some (w3 0x14 (s8 d) (s8 a) (s8 b))
  | .smul d a b => some (w3 0x15 (s8 d) (s8 a) (s8 b))
  | .sdivs d a b => some (w3 0x16 (s8 d) (s8 a) (s8 b))
  | .sdivn d a b => some (w3 0x17 (s8 d) (s8 a) (s8 b))
  | .sand d a b => some (w3 0x18 (s8 d) (s8 a) (s8 b))
  | .sor d a b => some (w3 0x19 (s8 d) (s8 a) (s8 b))
  | .sxor d a b => some (w3 0x1A (s8 d) (s8 a) (s8 b))
  | .sshl d a b => some (w3 0x1B (s8 d) (s8 a) (s8 b))
  | .sshr d a b => some (w3 0x1C (s8 d) (s8 a) (s8 b))
  | .ssra d a b => some (w3 0x1D (s8 d) (s8 a) (s8 b))
  | .sslt d a b => some (w3 0x1E (s8 d) (s8 a) (s8 b))
  | .scnt d a => some (w3 0x1F (s8 d) (s8 a) 0)
  | .sclz d a => some (w3 0x20 (s8 d) (s8 a) 0)
  | .vadd d a b => some (w3 0x30 d a b)
  | .vsub d a b => some (w3 0x31 d a b)
  | .vmul d a b => some (w3 0x32 d a b)
  | .vfma d a b => some (w3 0x33 d a b)
  | .vmin d a b => some (w3 0x34 d a b)
  | .vmax d a b => some (w3 0x35 d a b)
  | .vand d a b => some (w3 0x36 d a b)
  | .vor d a b => some (w3 0x37 d a b)
  | .vxor d a b => some (w3 0x38 d a b)
  | .vshl d a b => some (w3 0x39 d a b)
  | .vshr d a b => some (w3 0x3A d a b)
  | .vceq d a b => some (w3 0x3B (s8 d) a b)
  | .vclt d a b => some (w3 0x3C (s8 d) a b)
  | .vcle d a b => some (w3 0x3D (s8 d) a b)
  | .vmov d a => some (w3 0x3E d a 0)
  | .vbcs d a => some (w3 0x3F d (s8 a) 0)
  | .vext d a b => some (w3 0x40 (s8 d) a (s8 b))
  | .vlid d => some (w3 0x41 d 0 0)
  | .vcvt d a => some (w3 0x42 d a 0)
  | .vrcp d a => some (w3 0x43 d a 0)
  | .vrsq d a => some (w3 0x44 d a 0)
  | .vexp2 d a => some (w3 0x45 d a 0)
  | .vlog2 d a => some (w3 0x46 d a 0)
  | .vred d a => some (w3 0x47 (s8 d) a 0)
  | .vcmpr d a b => some (w3 0x50 d a (s8 b))
  | .vexpd d a b => some (w3 0x51 d a (s8 b))
  | .vslup d a b => some (w3 0x52 d a (s8 b))
  | .vsldn d a b => some (w3 0x53 d a (s8 b))
  | .vperm d a b => some (w3 0x54 d a b)
  | .vpk2 d a b => some (w3 0x55 d a b)
  | .vpk4 d a b => some (w3 0x56 d a b)
  | .vupk d a e => some (w3 0x57 d a (e.setWidth 8))
  | .ld d a b => some (w3 0x60 d (s8 a) b)
  | .st d a b => some (w3 0x61 d (s8 a) b)
  | .ldt d s b => some (w3 0x62 d (s.setWidth 8) (s8 b))
  | .stt d s b => some (w3 0x63 d (s.setWidth 8) (s8 b))
  | .shape d a => some (w3 0x64 (d.setWidth 8) (s8 a) 0)
  | .fence s o => some (w3 0x65 (s.setWidth 8) (o.setWidth 8) 0)
  | .pref l a b => some (w3 0x66 (l.setWidth 8) (s8 a) b)
  | .flush a b => some (w3 0x67 0 (s8 a) (s8 b))
  | .cpy4 d a b => some (w3 0x70 (s8 d) a b)
  | .cpy8 d a b => some (w3 0x71 (s8 d) a b)
  | .cpy16 d a b => some (w3 0x72 (s8 d) a b)
  | .cpyt d s b => some (w3 0x73 (s8 d) (s.setWidth 8) (s8 b))
  | .binw d a b => some (w3 0x74 d a (s8 b))
  | .bulk d a => some (w3 0x75 (s8 d) (s8 a) 0)
  | .semset d a => some (w3 0x76 (s8 d) (s8 a) 0)
  | .semacq d a => some (w3 0x77 (s8 d) (s8 a) 0)
  | .semtry d a => some (w3 0x78 (s8 d) (s8 a) 0)
  | .semrd d a => some (w3 0x79 (s8 d) (s8 a) 0)
  | .gang a => some (w3 0x80 0 (s8 a) 0)
  | .mmag d a b => some (w3 0x81 (s8 d) (s8 a) b)
  | .mmas d a b => some (w3 0x82 (s8 d) (s8 a) (s8 b))
  | .tilez d => some (w3 0x83 (s8 d) 0 0)
  | .tld d a => some (w3 0x84 (s8 d) (s8 a) 0)
  | .tdrn d a => some (w3 0x85 (s8 d) (s8 a) 0)
  | .tdrm d a b => some (w3 0x86 (s8 d) (s8 a) (s8 b))
  | .tdrp d a => some (w3 0x87 (s8 d) (s8 a) 0)
  | .aadd d a b => some (w3 0x90 d (s8 a) b)
  | .amin d a b => some (w3 0x91 d (s8 a) b)
  | .amax d a b => some (w3 0x92 d (s8 a) b)
  | .aand d a b => some (w3 0x93 d (s8 a) b)
  | .aor d a b => some (w3 0x94 d (s8 a) b)
  | .axor d a b => some (w3 0x95 d (s8 a) b)
  | .axch d a b => some (w3 0x96 d (s8 a) b)
  | .acas d a b => some (w3 0x97 d (s8 a) b)
  | .waitc c a b => some (w3 0x98 (c.setWidth 8) (s8 a) (s8 b))
  | .bari d a => some (w3 0x99 d (s8 a) 0)
  | .bar d => some (w3 0x9A d 0 0)
  | .bars d => some (w3 0x9B d 0 0)
  | .bara d => some (w3 0x9C d 0 0)
  | .bard d => some (w3 0x9D d 0 0)
  | .launch d a => some (w3 0xA0 (s8 d) (s8 a) 0)
  | .tspawn d a => some (w3 0xA1 (s8 d) (s8 a) 0)
  | .tdep a b => some (w3 0xA2 0 (s8 a) (s8 b))
  | .regionClose => some (w3 0xA3 0 0 0)
  | .regionOpen => some (w3 0xA3 1 0 0)
  | .mark d a => some (w3 0xB0 d (s8 a) 0)
  | .trctlGate a => some (w3 0xB1 0 (s8 a) 0)
  | .trctlMask a => some (w3 0xB1 1 (s8 a) 0)
  | .trctlDrain a => some (w3 0xB1 2 (s8 a) 0)
  | .trctlAnchor a => some (w3 0xB1 3 (s8 a) 0)
  | .trap i => some (wj 0xC0 i)
  | .swrite i a => some (w3 0xC1 i (s8 a) 0)
  | .tret => some (w3 0xC2 0 0 0)
  | .issueStarvationPromote _ => none
  | .instructionFetchFault _ _ _ => none
  | .loadDataReturn _ => none
  | .storePerformed _ _ => none
  | .invalidationReceive _ _ => none
  | .invalidationApplyTimeout _ => none
  | .atomicStep _ _ => none
  | .atomicResultReturn _ => none
  | .shapeComplete _ => none
  | .tdepStep _ => none
  | .flushComplete _ => none
  | .copyComplete _ => none
  | .binClaim _ => none
  | .binwComplete _ => none
  | .mirrorDelivery _ _ _ => none
  | .bulkStart _ _ _ => none
  | .bulkCopyDone _ => none
  | .bulkDecryptDone _ => none
  | .collectiveMatch _ _ _ _ => none
  | .collectiveDone _ _ _ _ => none
  | .scanDone _ => none
  | .tileStepComplete _ => none
  | .drainComplete _ => none
  | .drainAddReceive _ => none
  | .drainAddAck _ => none
  | .monitorWake _ => none
  | .waitcPoll _ => none
  | .monitorThresholdHalt _ => none
  | .relaunchPoll _ => none
  | .wideBarrierArrival _ _ => none
  | .wideBarrierCompletion _ _ => none
  | .regionReleaseComplete _ => none
  | .dispatchEntry _ => none
  | .placeTeam _ => none
  | .placeMirrorGroup _ => none
  | .compactorMove _ _ => none
  | .heatSweep _ => none
  | .pageRequestReply _ _ _ => none
  | .prgResponse _ _ _ => none
  | .pageRequestTimeout _ _ => none
  | .prgIndexReuseTimeout _ _ => none
  | .atsTranslationCompletion _ _ _ => none
  | .atsTranslationTimeout _ _ => none
  | .atsInvalidateRequest _ _ _ _ => none
  | .unmapInvalidation _ _ _ => none
  | .invalidationComplete _ => none
  | .haltRequest _ => none
  | .haltComplete _ => none
  | .resume _ => none
  | .quantumExpiry _ => none
  | .contextTeardown _ => none
  | .trapEntry _ => none
  | .uncorrectableStateError _ _ => none
  | .scrubSector _ => none
  | .activityBudgetPeriod _ => none
  | .carveWriteback _ _ => none
  | .carveComplete _ => none
  | .sramcfgWrite _ _ => none
  | .traceReservationRefill _ => none
  | .traceAccept _ _ => none
  | .epoch _ => none
  | .trcfgWrite _ _ => none
  | .trbufWrite _ _ _ => none
  | .trrpWrite _ _ => none
  | .ppsEdge _ => none
  | .ptmExchange _ => none
  | .ptmFailureTimeout => none
  | .timeForwardStep _ => none
  | .tbepochWrite _ => none
  | .sliceCreate _ _ _ => none
  | .sliceGrow _ _ _ => none
  | .sliceShrink _ _ _ => none
  | .sliceMerge _ _ => none
  | .sliceSplit _ _ _ _ _ => none
  | .sliceReleaseProgress _ _ => none
  | .sliceReset _ => none
  | .queueNotify _ _ _ => none
  | .queueMap _ _ _ => none
  | .queueSlotFetch _ _ => none
  | .npQueueReclaim _ _ => none
  | .adapterAdmission _ => none
  | .admissionRetry _ => none
  | .migrationCommand _ _ _ _ _ _ => none
  | .migrationLineCopy _ _ => none
  | .migrationDone _ _ => none
  | .forwardingEntryRetire _ _ => none
  | .podRequestReceive _ => none
  | .podResponseTimeout _ _ => none
  | .podResponse _ _ _ => none
  | .hostAtomicop _ _ _ _ _ => none
  | .hostMemoryWrite _ _ => none
  | .hostMemoryRead _ _ => none
  | .mailboxDoorbell _ _ _ => none
  | .registerWrite _ _ _ _ _ _ => none
  | .tblgoPeer => none
  | .tblgoWindow => none
  | .tblgoRouting => none
  | .keyAssign _ _ => none
  | .keyRetire _ => none
  | .functionLevelReset _ => none
  | .ideKmKeyProgram _ _ => none
  | .ideIntegrityFailure _ _ => none
  | .lockInterfaceRequest _ _ => none
  | .stopInterfaceRequest _ => none
  | .deviceInterfaceReport _ => none
  | .getVersion => none
  | .getCapabilities => none
  | .negotiateAlgorithms _ _ _ => none
  | .getDigests => none
  | .getCertificate _ => none
  | .challenge _ _ => none
  | .getMeasurements _ _ _ => none
  | .keyExchange _ _ => none
  | .finish => none
  | .endSession => none
  | .keyLoad _ _ _ => none
  | .powerOnSequence _ _ _ => none
  | .governorEvaluate _ _ => none
  | .governorFastStep _ => none
  | .firmwareUpdate _ _ _ => none
  | .d2dLaneRetire _ _ => none
  | .ualinkLaneRetire _ => none
  | .hbmChannelRetire _ => none
  | .dieFence _ => none
  | .illegalInstructionWord _ => none
  | .ppsLossTimeout => none
  | .priReset _ => none
  | .startInterfaceRequest _ => none
  | .ualinkStationDown _ => none
  | .ualinkStationUp _ => none

end Sys2Proof
end

