-- ==== Sys2Proof/Machine/Aes.lean ====
section
/-! DEFINITION. AES-256 in Galois/Counter Mode, as R255 uses it (FIPS 197 and NIST SP 800-38D, which R255 names), and in XTS, as R467 uses it
(IEEE 1619). -/
namespace Sys2Proof.Machine

/-- Multiplication by x, and multiplication, in the field of AES. -/
def xtime (a : Byte) : Byte := (a <<< 1) ^^^ (if a.getLsbD 7 then 0x1B else 0)
def gmul (a b : Byte) : Byte :=
  ((List.range 8).foldl (fun (p : Byte × Byte) i => (if b.getLsbD i then p.1 ^^^ p.2 else p.1, xtime p.2)) (0, a)).1
/-- The inverse in the field: the power 254. -/
def ginv (a : Byte) : Byte :=
  ((List.range 7).foldl (fun (p : Byte × Byte) _ => let q := gmul p.2 p.2; (gmul p.1 q, q)) (1, a)).1
/-- SubBytes of one byte. -/
def sbox (a : Byte) : Byte :=
  let b := ginv a
  b ^^^ b.rotateLeft 1 ^^^ b.rotateLeft 2 ^^^ b.rotateLeft 3 ^^^ b.rotateLeft 4 ^^^ 0x63
/-- Bytewise sum. -/
def xorBytes (a b : List Byte) : List Byte := a.zipWith (· ^^^ ·) b
/-- The round constant of key-expansion step i. -/
def rcon (i : Nat) : Byte := (List.range i).foldl (fun a _ => xtime a) 1
/-- One step of the key expansion: the next eight words from the last eight. -/
def expandStep (i : Nat) (k : List (List Byte)) : List (List Byte) :=
  let last := k.getD 7 []
  let t := match last with
    | [a, b, c, d] => [sbox b ^^^ rcon i, sbox c, sbox d, sbox a]
    | l => l
  let w0 := xorBytes (k.getD 0 []) t
  let w1 := xorBytes (k.getD 1 []) w0
  let w2 := xorBytes (k.getD 2 []) w1
  let w3 := xorBytes (k.getD 3 []) w2
  let w4 := xorBytes (k.getD 4 []) (w3.map sbox)
  let w5 := xorBytes (k.getD 5 []) w4
  let w6 := xorBytes (k.getD 6 []) w5
  [w0, w1, w2, w3, w4, w5, w6, xorBytes (k.getD 7 []) w6]
/-- The key schedule: the words after n further steps. -/
def expandKey : Nat → Nat → List (List Byte) → List (List Byte)
  | 0, _, k => k
  | n + 1, i, k => k ++ expandKey n (i + 1) (expandStep i k)
/-- The fifteen round keys of a 32-byte key. -/
def roundKeys (key : List Byte) : List (List Byte) :=
  let ws := expandKey 7 0 ((List.range 8).map fun i => (key.drop (4 * i)).take 4)
  (List.range 15).map fun r => ((ws.drop (4 * r)).take 4).flatten
/-- ShiftRows and SubBytes of a block in column order. -/
def shiftSub (b : List Byte) : List Byte :=
  (List.range 16).map fun i => sbox (b.getD ((i + 4 * (i % 4)) % 16) 0)
/-- MixColumns. -/
def mixColumns (b : List Byte) : List Byte :=
  (List.range 16).map fun i =>
    let c := i / 4 * 4
    let at_ := fun k => b.getD (c + (i + k) % 4) 0
    gmul (at_ 0) 2 ^^^ gmul (at_ 1) 3 ^^^ at_ 2 ^^^ at_ 3
/-- The cipher on one block. -/
def aesBlock (keys : List (List Byte)) (b : List Byte) : List Byte :=
  let b := xorBytes b (keys.getD 0 [])
  let b := (List.range 13).foldl (fun b r => xorBytes (mixColumns (shiftSub b)) (keys.getD (r + 1) [])) b
  xorBytes (shiftSub b) (keys.getD 14 [])

/-- The inverse of SubBytes for one byte: the affine map undone, then the inverse in the field. -/
def invSbox (a : Byte) : Byte := ginv (a.rotateLeft 1 ^^^ a.rotateLeft 3 ^^^ a.rotateLeft 6 ^^^ 0x05)
/-- The inverses of ShiftRows and SubBytes, and of MixColumns. -/
def invShiftSub (b : List Byte) : List Byte :=
  (List.range 16).map fun i => invSbox (b.getD ((i + 12 * (i % 4)) % 16) 0)
def invMixColumns (b : List Byte) : List Byte :=
  (List.range 16).map fun i =>
    let c := i / 4 * 4
    let at_ := fun k => b.getD (c + (i + k) % 4) 0
    gmul (at_ 0) 14 ^^^ gmul (at_ 1) 11 ^^^ gmul (at_ 2) 13 ^^^ gmul (at_ 3) 9
/-- The inverse cipher on one block. -/
def aesInvBlock (keys : List (List Byte)) (b : List Byte) : List Byte :=
  let b := invShiftSub (xorBytes b (keys.getD 14 []))
  let b := (List.range 13).foldl (fun b r => invShiftSub (invMixColumns (xorBytes b (keys.getD (13 - r) [])))) b
  xorBytes b (keys.getD 0 [])
/-- The product of a 16-byte tweak, first byte lowest, with x (IEEE 1619). -/
def xtsDouble (t : List Byte) : List Byte :=
  (List.range 16).map fun i =>
    let low := if i = 0 then (if (t.getD 15 0).getLsbD 7 then 0x87#8 else 0) else (t.getD (i - 1) 0) >>> 7
    (t.getD i 0 <<< 1) ^^^ low
/-- The tweaks of the two blocks of a sector (R467): its number as a 128-bit little-endian value under the second key, and the next. -/
def xtsTweaks (key : List Byte) (sec : Nat) : List (List Byte) :=
  let t := aesBlock (roundKeys (key.drop 32)) ((List.range 16).map fun i => BitVec.ofNat 8 (sec / 256 ^ i))
  [t, xtsDouble t]
/-- XTS-AES-256 on one sector of 32 bytes (R467). -/
def xtsMap (cipher : List Byte → List Byte) (key : List Byte) (sec : Nat) (bs : List Byte) : List Byte :=
  ((xtsTweaks key sec).mapIdx fun i t => xorBytes (cipher (xorBytes ((bs.drop (16 * i)).take 16) t)) t).flatten
def xtsEncrypt (key : List Byte) (sec : Nat) (bs : List Byte) : List Byte := xtsMap (aesBlock (roundKeys (key.take 32))) key sec bs
def xtsDecrypt (key : List Byte) (sec : Nat) (bs : List Byte) : List Byte := xtsMap (aesInvBlock (roundKeys (key.take 32))) key sec bs

/-- A block as a 128-bit value, first byte highest. -/
def blockVal (b : List Byte) : BitVec 128 := BitVec.ofNat 128 (b.foldl (fun n x => n * 256 + x.toNat) 0)
def valBlock (v : BitVec 128) : List Byte := (List.range 16).map fun i => v.extractLsb' (120 - 8 * i) 8
/-- The product of GHASH. -/
def ghashMul (x y : BitVec 128) : BitVec 128 :=
  ((List.range 128).foldl (fun (p : BitVec 128 × BitVec 128) i =>
    (if x.getMsbD i then p.1 ^^^ p.2 else p.1,
     if p.2.getLsbD 0 then (p.2 >>> 1) ^^^ (0xE1#128 <<< 120) else p.2 >>> 1)) (0, y)).1
/-- Sixteen-byte blocks of a list, the last filled up with zeros. -/
def blocksOf (l : List Byte) : List (List Byte) :=
  (List.range ((l.length + 15) / 16)).map fun i =>
    let b := (l.drop (16 * i)).take 16
    b ++ List.replicate (16 - b.length) 0
/-- A length in bits as eight bytes, highest first. -/
def lenBytes (n : Nat) : List Byte := (List.range 8).map fun i => BitVec.ofNat 8 (8 * n / 256 ^ (7 - i))
/-- The counter block of a 12-byte IV. -/
def counterBlock (iv : List Byte) (n : Nat) : List Byte := iv ++ (List.range 4).map fun i => BitVec.ofNat 8 (n / 256 ^ (3 - i))
/-- Decryption under R255: the plaintext and the computed tag. -/
def gcmDecrypt (key iv aad ct : List Byte) : List Byte × List Byte :=
  let keys := roundKeys key
  let h := blockVal (aesBlock keys (List.replicate 16 0))
  let pt := ((blocksOf ct).mapIdx fun i b => xorBytes b (aesBlock keys (counterBlock iv ((i + 2) % 2 ^ 32)))).flatten.take ct.length
  let g := (blocksOf aad ++ blocksOf ct ++ [lenBytes aad.length ++ lenBytes ct.length]).foldl
    (fun (y : BitVec 128) b => ghashMul (y ^^^ blockVal b) h) 0
  (pt, xorBytes (valBlock g) (aesBlock keys (counterBlock iv 1)))

end Sys2Proof.Machine
end

