-- ==== Sys2Proof/Config.lean ====
section
/-! DEFINITION. What the machine fixes for good and the free values: constants without a body, of which nothing can be proved.
A statement about the machine holds whatever they are. -/
namespace Sys2Proof.Config

/-- Cycles that pass in the step numbered by the clock, beyond one (log entry 4). -/
opaque extraCycles : Nat → Nat
/-- The unit that a crew's next instruction needs is taking passes of an earlier one, in the step numbered by the clock (R102, R130, log entry 4):
the clock and the crew. -/
opaque unitBusy : Nat → Nat → Bool
/-- Time units of 1/16 ns that pass in the step numbered by the clock (log entry 4). -/
opaque timeUnits : Nat → Nat
/-- How far a die's copy of the time base is behind the master's, before it is cut to at most 64 (R36, log entry 4). -/
opaque dieLag : Nat → Nat → Nat
/-- The 64 bytes of a memory encryption key, which are never readable (R467, log entry 5): index, generation and byte. -/
opaque memKey : Nat → Nat → Nat → Byte
/-- The link that carries a request of the PF, which is live on both (R448, log entry 121): the clock. -/
opaque pfLink : Nat → Nat
/-- Whether the migration engine's write of a destination line fails (R443, log entry 55): the clock and the line. -/
opaque moveFails : Nat → Nat → Bool
/-- The set of a home segment that holds a line (R20, log entry 10): segment and line. -/
opaque l2Set : Nat → Nat → Nat
/-- The set of a core's L1 that holds a line, and the way that a fill takes when every way of the set is full (R178, log entry 10): core and
line; the clock. -/
opaque l1Set : Nat → Nat → Nat
opaque l1Victim : Nat → Nat
/-- The answer of another module of the pod to a request that a step makes and completes by itself (R302, log entry 11): the clock,
the physical address and the size give a reason (1 to 6) or 0, and the data. -/
opaque podAnswer : Nat → Nat → Nat → Nat × List Byte
/-- The answer of the ATS agent to a request that a step makes and completes by itself (R482, log entry 11): the clock and the
untranslated 64 KiB page give the permissions (bit 0 read, bit 1 write; 0 a refusal) and the translated page. -/
opaque atsAnswer : Nat → Nat → Nat × Nat
/-- A byte that an uncorrectable error has destroyed, as a matrix step reads it (R268, R375, log entry 12): the clock and the
flat address, or for a tile element 2^60 plus its place. -/
opaque destroyed : Nat → Nat → Byte
/-- Bits [27:0] of a ROLLBACK record whose cause names no line (R394, log entry 13). -/
opaque rollbackPlace : Nat → Word
/-- Bytes of certificates, signatures, digests and measurements of the device (R465, R466, log entry 7):
what is asked, its parameter, and the nonce. -/
opaque attest : Nat → Nat → List Byte → List Byte

/-- Whether a read of the aligned 4-byte word with this number is performed in the step numbered by the clock, when it may be performed
and its operation completes later (R208, R224, log entries 19 and 20): the clock and the word. -/
opaque readsNow : Nat → Nat → Bool
/-- Whether an engine operation reads the aligned 4-byte word with this number after its own write to it (R224, log entry 20): the
clock and the word. -/
opaque readsNew : Nat → Nat → Bool
/-- Whether an engine operation that a teardown stops had written the byte at a flat address (R386, log entry 58): the clock and the
address. -/
opaque halfDone : Nat → Nat → Bool

/-- What the spec leaves open of a resource of the capability table (R427, log entry 85): its GEN and the RES code give TOTAL, FREE and OWNED by
slice. -/
opaque capResource : Nat → Nat → Nat × Nat × List Nat

/-- The wide barrier contexts of a level that firmware assigns to a slice of the free ones (R28, log entry 97): clock and level. -/
opaque wideShare : Nat → Nat → Nat

/-- Die that holds PCIe link 0 and link 1 (R17). -/
def linkDie (link : Nat) : Nat := if link = 0 then 32 else 31
/-- The die that holds a UALink station (R17). -/
def stationDie (i : Nat) : Nat := if i < 8 then i else if i < 16 then 48 + i else if i = 16 then 24 else 39
/-- Dies, cores of a die, crew slots of a core (R14, R15, R21). -/
def dies : Nat := 64
def coresPerDie : Nat := 32
def slotsPerCore : Nat := 64
/-- Bytes of a core's SRAM and of one unit (R22, R178). -/
def sramBytes : Nat := 786432
def unitBytes : Nat := 65536
/-- Bytes of device HBM (R159). -/
def hbmBytes : Nat := 0x18000000000
/-- Register-file rows of a core (R22). -/
def rowsPerCore : Nat := 8192
/-- Line entries of a core's region store buffer, and of one crew (R355). -/
def bufCore : Nat := 512
def bufCrew : Nat := 128
/-- Read-set entries of a core and of one crew (R325). -/
def readCore : Nat := 4096
def readCrew : Nat := 256
/-- Places of a context's ready queue (R339). -/
def readyPlaces : Nat := 4096
/-- Extents of a team (R170). -/
def maxExtents : Nat := 128
/-- Monitor entries of a segment (R307). -/
def monitorsPerSegment : Nat := 512
/-- Outstanding page requests of a context (R387). -/
def maxPageReqs : Nat := 4096

end Sys2Proof.Config
end

