-- ==== Sys2Proof/Machine/State.lean ====
section
/-! DEFINITION. The state of the machine as plain data, the reasons a step can stop, and the state after reset.
INVENTORY.md lists every field under '## State' with the rule of the spec that names it. -/
namespace Sys2Proof.Machine

/-- Memory: address and byte, addresses rising, no entry zero (an unlisted byte reads as zero, log entry 1). -/
abbrev Memory := List Host.Cell

/-- The class counters of R50. -/
inductive Cls where
  | load | store | copy | tile
  deriving DecidableEq, Repr

/-- The kinds of R361, by name. -/
inductive TrapKind where
  | illegal | operand | handle | branchTarget | fetch | address | misaligned | range | permission | demand
  | extentOverflow | shape | poison | mirror | bin | drainRefused | remote | systemAtomic | dependence | gang
  | overArrival | barrierState | deadlock | software
  deriving DecidableEq, Repr

/-- A trap or fault before it is taken: what its record will hold (R368 to R370). -/
structure TrapInfo where
  kind : TrapKind
  cause : BitVec 8 := 0
  resume : Addr
  fault : Addr
  word : Word := 0
  addr : DWord := 0
  mask : DWord := 0
  detail : DWord := 0
  held : Bool := false
  deriving DecidableEq, Repr

/-- The eight words of the trap record (R369). -/
structure TrapRec where
  w0 : DWord := 0
  w1 : DWord := 0
  w2 : DWord := 0
  w3 : DWord := 0
  w4 : DWord := 0
  w5 : DWord := 0
  w6 : DWord := 0
  w7 : DWord := 0
  deriving DecidableEq, Repr

/-- A fault held against an issued instruction (R107): its operation number, class, the vector registers the instruction
writes, the shape handle of a SHAPE, the record, and whether the pending trap has gathered it (R366). -/
structure Held where
  op : Nat
  cls : Option Cls
  regs : List Nat
  shape : Option Nat
  info : TrapInfo
  raised : Bool := false
  deriving DecidableEq, Repr

/-- Whether one access of an operation has been performed (R208), and how a refused one ended (R302). -/
inductive AccSt where
  | todo | done | refused (reason : Nat)
  deriving DecidableEq, Repr

/-- Where a loaded value goes: bits [lo+bits-1:lo] of a lane, the other bits cleared or kept (R82, R197); 64 bits is a pair. -/
structure Dst where
  reg : Nat
  lane : Nat
  lo : Nat
  bits : Nat
  clear : Bool
  deriving DecidableEq, Repr

/-- One access of an operation: one lane of LD, ST or an atomic, or one element (R206). `pa` is the flat address; `num` is the place of
a buffered store in the crew's program order, none when it is the operation's own; `got` is the value that a load has bound ahead of its
completion, and whether it is poisoned; `half` a 4-byte word that an 8-byte load has read ahead of an engine's write (R223): its place, its
value, whether it is poisoned; `ctx` and `cls` are the context that makes it and the page's CLASS (R164); `slice` is the slice of the target
function of a window (R301). -/
structure Acc where
  lane : Nat := 0
  elem : Nat := 0
  va : Nat := 0
  pa : Nat := 0
  size : Nat := 4
  home : BitVec 2 := 0
  key : Nat := 0
  sysatom : Bool := false
  clip : Bool := false
  dst : Option Dst := none
  data : DWord := 0
  cmp : DWord := 0
  num : Option Nat := none
  st : AccSt := .todo
  resp : Option PodResult := none
  got : Option (Nat × Bool) := none
  half : Option (Nat × Nat × Bool) := none
  ctx : Option Nat := none
  cls : BitVec 2 := 0
  slice : Option Nat := none
  deriving DecidableEq, Repr

/-- One block copied by an engine; a source of none writes zeros (R240). `seen` holds the bytes that the engine has read ahead of its
completion (R224): place in the block, byte, poisoned. -/
structure CopyPart where
  row : Nat
  src : Option Acc
  dst : Acc
  seen : List (Nat × Byte × Bool) := []
  deriving DecidableEq, Repr

/-- A BINW in the engine: lanes still to claim in each phase, results so far, and the lanes whose header or descriptor was read poisoned, with
its address (R246); `bytes` counts what it has put in global memory (R346). A token whose slot lies on another module is an access of the
operation. -/
structure BinOp where
  table : Nat
  sem : Nat
  reg : Nat
  todo : List (Nat × Word × Word)
  redirect : List (Nat × Nat × Word)
  res : List (Nat × Word)
  bad : List Nat
  pois : List (Nat × Nat)
  bytes : Nat := 0
  deriving DecidableEq, Repr

/-- One K-slice of a matrix step, read at issue: rows of A, columns of B and their scale words (R261 to R263). -/
structure MacSlice where
  arow : List (List Byte)
  ascale : List Word
  bcol : List (List Byte)
  bscale : List Word
  deriving DecidableEq, Repr

/-- A tile step that has issued and not yet written its tile (R266). -/
inductive TileStep where
  | zero
  | load (words : List Word)
  | mac (rows : Nat) (tyA tyB : BitVec 4) (slices : List MacSlice)
  deriving DecidableEq, Repr

/-- A drain-add under way (R285, R286); `verdict` is 0 once added, else the refusal code. -/
structure DrainAdd where
  pteam : Nat
  find : Bool
  psem : Nat
  ptile : Nat
  pcore : Nat
  rows : List (List Word)
  pois : List Nat
  verdict : Option Nat
  deriving DecidableEq, Repr

/-- What an outstanding operation is (R105). -/
inductive OpKind where
  | load
  | store
  | release (fault : Addr)
  | mirror (members : List (Nat × Bool)) (failed : BitVec 16)
  | atomic (op : AtomicOp) (ty : BitVec 4) (reg : Nat)
  | shape (handle : Nat) (addr : Nat)
  | tdep (delta : Int)
  | flush (spans : List (Nat × Nat × BitVec 2))
  | copy (sem : Nat) (parts : List CopyPart)
  | binw (b : BinOp)
  | tile (tile : Nat) (step : TileStep)
  | drain (tile : Nat) (pois : List Nat)
  | drainAdd (d : DrainAdd)
  deriving DecidableEq, Repr

/-- An issued instruction that is not complete, or is complete and not yet counted (R50). Its key in the table is its issue
number; `stamp` is the time its messages carry (R398); a `quiet` one belongs to an aborted region, and its faults are
discarded (R359). A store's `entered` is its place in the core's store queue (R216), on the scale of the issue numbers; `inRegion` marks a
copy issued inside an open region (R235). -/
structure Op where
  crew : Nat
  team : Nat
  core : Nat
  cls : Option Cls
  kind : OpKind
  acq : Bool := false
  rel : Bool := false
  scope : Nat := 0
  accs : List Acc := []
  pc : Addr := 0
  word : Word := 0
  stamp : Nat := 0
  quiet : Bool := false
  done : Bool := false
  entered : Option Nat := none
  inRegion : Bool := false
  deriving DecidableEq, Repr

/-- What a region or a speculation checkpoint records (R324, R358). -/
structure Checkpoint where
  pc : Addr
  sregs : Sparse 64
  mode : DWord
  gang : DWord
  gangMarks : List (BitVec 8 × DWord)
  rndcnt : Word
  deriving DecidableEq, Repr

/-- An open region: checkpoint, the first operation issued inside it, and the semaphore counts of R236. -/
structure Region where
  cp : Checkpoint
  first : Nat
  sems : Tbl Int
  opener : Addr
  deriving DecidableEq, Repr

/-- A speculative region past a BARS (R324 to R326): shadow registers, read set, whether the crew has stopped, and the values of the GANGs in
it that may fail Trivet entries (R269, R274). -/
structure Spec where
  cp : Checkpoint
  handle : Nat
  phase : Word
  shadow : Tbl (List Word)
  reads : List Nat
  first : Nat
  stopped : Bool
  bars : Addr
  gangs : List DWord := []
  deriving DecidableEq, Repr

/-- What a crew that cannot issue waits for. WAIT, WAITR, END and FENCE issue again instead (R109). A woken crew has the value that its
monitor read, none for a poisoned one, and the send time of the wake. An armed one has its BARI applied at the wide context and is still to
retire it. -/
inductive Wait where
  | none
  | barrier (handle : Nat) (phase : Word)
  | bari (handle : Nat)
  | armed
  | trivet
  | monitor
  | woken (value : Option DWord) (sent : Nat)
  | demand (pages : List (Nat × Option (BitVec 8))) (info : TrapInfo)
  | ended
  | stopped
  deriving DecidableEq, Repr

/-- A declared range of a launch record (R334). -/
structure RangeDecl where
  idx : Nat
  base : Nat
  len : Nat
  r : Bool
  w : Bool
  demand : Bool
  deriving DecidableEq, Repr

/-- A launch record as read (R334). -/
structure LaunchRec where
  entry : Nat := 0
  trapv : Nat := 0
  image : Nat := 0
  ilen : Nat := 0
  dataoff : Nat := 0
  gx : Nat := 1
  gy : Nat := 1
  gz : Nat := 1
  teamsz : Nat := 1
  width : Nat := 32
  vregs : Nat := 1
  scratch : Nat := 0
  tiles : Nat := 0
  sems : Nat := 0
  cbars : Nat := 0
  wquad : Nat := 0
  wdie : Nat := 0
  wmod : Nat := 0
  wpod : Nat := 0
  prio : Nat := 0
  mirror : Nat := 0
  monthr : Nat := 0
  rseed : DWord := 0
  compl : Nat := 0
  tindex : Nat := 0
  args : List DWord := []
  ranges : List RangeDecl := []
  deriving DecidableEq, Repr

/-- A task record as read (R349). -/
structure TaskRec where
  lrec : Nat
  cnt : Nat
  tindex : Nat
  prio : Nat
  compl : Nat
  args : List DWord
  succ : List Nat
  deriving DecidableEq, Repr

/-- A crew on its slot (R40). Lane l of vector register r is cell 64 r + l of `vregs`. The class counters of R50 are the
counts of the crew's entries in the table of outstanding operations (`classCount`). `buf` is its region store buffer (R198). `stalled` is
the cycle at which a stall for trace space began, `needs` how many reservations its step takes, and `stallSum` the cycles of stalls that STALLEND has not reported (R410). `started` is false until CREWSTART has been emitted (R410). `fenceAt` is the place in issue order of a FENCE whose release part waits (R222); `spare` the outstanding operations that a WAIT under way does not cover (R108); `spawn` the address and copies of a TSPAWN under way, which has a place reserved (R351); `saved` the flat
address of the slot's spilled state (R380, R382); `acqAt` the place in issue order of its last acquire (R212); `seen` the operand bytes of
the matrix instruction that it is to issue that have been read already (R268): its count of issued instructions, flat address, byte, poisoned. -/
structure Crew where
  team : Nat := 0
  idx : Nat := 0
  pc : Addr := 0
  sregs : Sparse 64 := []
  vregs : Sparse 32 := []
  mode : DWord := 0
  gang : DWord := 0
  gangMarks : List (BitVec 8 × DWord) := []
  rseed : DWord := 0
  rndcnt : Word := 0
  trap : TrapRec := {}
  handler : Bool := false
  pending : Option TrapInfo := none
  rclosed : Bool := false
  held : List Held := []
  wait : Wait := .none
  region : Option Region := none
  spec : Option Spec := none
  rolled : Option (Nat × Word) := none
  buf : List Acc := []
  fenceAt : Option Nat := none
  spare : Option (List Nat) := none
  spawn : Option (Nat × TaskRec × LaunchRec) := none
  saved : Option Nat := none
  acqAt : Nat := 0
  seen : List (Nat × Nat × Byte × Bool) := []
  started : Bool := true
  gate : Bool := true
  cmask : BitVec 16 := 0xFFFF
  issued : Nat := 0
  stalled : Option Nat := none
  needs : Nat := 0
  stallSum : Nat := 0
  ready : Nat := 0
  deriving DecidableEq, Repr

/-- A maximal run of pages of a range (R169); range 8 is the implicit range I, whose code part is `x`. `r` and `w` are the range's
mode, `lr` and `lw` the leaves' R and W. -/
structure Extent where
  range : Nat
  vlo : Nat
  vhi : Nat
  plo : Nat := 0
  home : BitVec 2 := 0
  cls : BitVec 2 := 0
  sysatom : Bool := false
  key : Nat := 0
  r : Bool := false
  w : Bool := false
  x : Bool := false
  present : Bool := false
  lr : Bool := false
  lw : Bool := false
  deriving DecidableEq, Repr

/-- A barrier: core barrier or wide context (R310). DROPPED and PEND are kept by crew key. -/
structure Barrier where
  armed : Bool := false
  e : Nat := 0
  arr : Nat := 0
  drops : Nat := 0
  phase : Word := 1
  dropped : List Nat := []
  pend : Tbl Word := []
  here : List Nat := []
  deriving DecidableEq, Repr

/-- A shape record as SHAPE leaves it (R187, R188); an invalid record is absent from the team's table. -/
structure Shape where
  base : Nat
  perm : Nat
  esz : Nat
  rank : Nat
  size : List Nat
  stride : List Nat
  boxc : Nat
  boxr : Nat
  deriving DecidableEq, Repr

/-- Why a team is halted (R378; the codes of the HALT record, R394). -/
inductive HaltWhy where
  | preempt | invalidation | threshold
  deriving DecidableEq, Repr

/-- Halt state of a team (R378). -/
inductive Halt where
  | running | halting (why : HaltWhy) | halted (why : HaltWhy)
  deriving DecidableEq, Repr

/-- A resident team (R25, R40). `blocks` holds the register blocks of each crew: crew index, first row, rows. What an incoming team
has claimed of a halted one is in the save area, at flat addresses (R380, R382): `rowsOut` has crews' rows by crew index, `tilesOut` tiles
and `ctxOut` the team context; a crew whose key is 2^17 or more has its slot there, and a unit numbered 2^20 + n lies at 64 KiB times n.
Element (i, j) of tile t is cell 1024 t + 32 i + j of `tiles`. `relaunch` is the arrival of its relaunch in the ready queue (R308), `due` says that it is to join once the halt is complete (R309); `haltSent` is the send time of its last halt command (R398). A `retired` member of a mirror
group keeps only its scratchpad (R191). -/
structure Team where
  entry : Nat
  ctx : Nat
  tidx : Nat
  core : Nat
  crews : List Nat
  ended : List Nat := []
  units : List Nat := []
  blocks : List (Nat × Nat × Nat) := []
  width : Nat := 32
  nvreg : Nat := 16
  nsem : Nat := 0
  ntile : Nat := 0
  ncbar : Nat := 0
  nwide : Nat := 0
  sems : Sparse 32 := []
  semWait : List (Nat × Nat) := []
  bars : Tbl Barrier := []
  tiles : Sparse 32 := []
  tilePois : List Nat := []
  shapes : Tbl Shape := []
  ranges : List RangeDecl := []
  extents : List Extent := []
  trapv : Addr := 0
  prio : Nat := 0
  monthr : Nat := 0
  group : List Nat := []
  halt : Halt := .running
  haltSent : Nat := 0
  relaunch : Option Nat := none
  due : Bool := false
  retired : Bool := false
  rowsOut : Tbl Nat := []
  tilesOut : Tbl Nat := []
  ctxOut : Option Nat := none
  deriving DecidableEq, Repr

/-- How far an entry of the ready queue has come (R339, R344, R364). -/
inductive EntrySt where
  | queued | active | ending (status : BitVec 16) (detail : DWord)
  deriving DecidableEq, Repr

/-- A grid, or a task, of a context (R339). `after` names the crew and the issue number of the LAUNCH that queued it: the entry is
on the queue once the older operations that this releases are performed (R347). `claimed` says that its wide contexts are claimed, `ready` that the steps of R344 are done. `asked` holds the absent pages of resident ranges
that have been requested, and `refused` says that a request failed (R172, R344). `due` is the clock at which an end that an update of the front
end holds was due (R479). -/
structure Entry where
  ctx : Nat
  rec_ : LaunchRec
  addr : Nat
  succ : List Nat := []
  task : Bool := false
  parent : Option Nat := none
  arrival : Nat := 0
  st : EntrySt := .queued
  next : Nat := 0
  retired : List Nat := []
  tasksDone : Nat := 0
  bytes : Nat := 0
  extents : List Extent := []
  after : Option (Nat × Nat) := none
  claimed : Bool := false
  ready : Bool := false
  asked : List Nat := []
  refused : Bool := false
  due : Option Nat := none
  deriving DecidableEq, Repr

/-- A task bound to its counter by TSPAWN: the copies of record and template (R351). The key in the table is the counter's
flat address. -/
structure Bound where
  ctx : Nat
  task : TaskRec
  tmpl : LaunchRec
  addr : Nat
  parent : Option Nat
  deriving DecidableEq, Repr

/-- A page request (R172, R387, R458): a 64 KiB page of the context, the read and write need of the ranges that hold it, the context's PASID, the
PRG index of one for host space, whether it has gone out, and the teams that wait on it. The key in the table is its REQID. -/
structure PageReq where
  page : Nat
  host : Bool
  read : Bool
  write : Bool
  pasid : BitVec 20
  prg : Option Nat := none
  sent : Bool := false
  teams : List Nat := []
  deriving DecidableEq, Repr

/-- A posted reply, with the flat address of its entry in the saved fault table (R387). -/
structure FaultReply where
  req : Nat
  page : Nat
  status : BitVec 8
  teams : List Nat
  place : Option Nat := none
  deriving DecidableEq, Repr

/-- Why a completion record could not be written (R482): no page, no permission, a translation error, an address in the local area, or a pod
write refused with a reason of R302. -/
inductive ComplCause where
  | absent | permission | translation | local_ | refused (reason : Nat)
  deriving DecidableEq, Repr

/-- An entry of the context's task error log (R350, R352, R482). -/
inductive TaskErr where
  | unbound (block : Nat)
  | badSuccessor (block : Nat)
  | completion (compl status tindex : Nat) (cause : ComplCause)
  deriving DecidableEq, Repr

/-- A context (R160, R387, R455). `ats` holds the translations asked of the agent for an entry being dispatched, by page: none until
the completion has arrived (R456); `swept` is how many leaves the heat sweeper has visited in its current sweep (R168); `save` is the flat address of the
save area that firmware has given the context (R382); `pages` holds the untranslated page of host space from which each page of its extents
was translated (R457). -/
structure Ctx where
  func : Nat
  slice : Nat
  root : Nat := 0
  pasid : BitVec 20 := 0
  reserved : Nat := 0
  reqs : Tbl PageReq := []
  faults : List FaultReply := []
  errlog : List TaskErr := []
  ats : Tbl (Option AtsResult) := []
  swept : Nat := 0
  save : Option Nat := none
  pages : Tbl Nat := []
  deriving DecidableEq, Repr

/-- TDISP states (R462). -/
inductive Tdi where
  | unlocked | locked | run | error
  deriving DecidableEq, Repr

/-- A queue of a function (R431). -/
structure Queue where
  ring : Nat := 0
  ctx : Nat := 0
  log2n : Nat := 4
  np : Bool := false
  runmax : Nat := 1
  head : BitVec 16 := 0
  tail : BitVec 16 := 0
  qerr : Word := 0
  slot : Option Nat := none
  deriving DecidableEq, Repr

/-- Trace registers of a function (R402). Every position given is written at once, so TRWP counts the positions given (R405). -/
structure TraceRegs where
  cfg : DWord := 0
  buf : DWord := 0
  wp : DWord := 0
  rp : DWord := 0
  filt : DWord := 0x0000FF0000000000
  dies : DWord := 0xFFFFFFFFFFFFFFFF
  stat : DWord := 0
  stall : DWord := 0
  drop : DWord := 0
  deriving DecidableEq, Repr

/-- A member of a collective group: a die of this module, or one of another module (R256). -/
inductive Member where
  | die (d : Nat) | remote (modId : Nat)
  deriving DecidableEq, Repr
/-- A collective group bound to a function: its members by rank (R256). -/
structure Group where
  members : List Member
  deriving DecidableEq, Repr

/-- A function: the PF (0) or a VF (R448). `msixTab` holds the 16 words of its MSI-X table, `msixPend` its pending bits, `msix` the messages sent:
vector, address and data (R449, R453). `hbmDepth` and `hbmRate` are those of its HBM token buckets (R186), `quantum` is in µs (R436). -/
structure Func where
  slice : Nat := 0
  enabled : Bool := true
  key : Option Nat := none
  queues : Tbl Queue := []
  pendingNotify : List Nat := []
  trace : TraceRegs := {}
  bulkKeys : Tbl (BitVec 256) := []
  tdi : Tdi := .unlocked
  stream : Option Nat := none
  requester : Option Nat := none
  peerBase : Option Nat := none
  winBase : Option Nat := none
  routeBase : Option Nat := none
  wCopy : Nat := 1
  wColl : Nat := 1
  groups : Tbl Group := []
  prg : List Nat := []
  prgDead : List Nat := []
  prgMax : Nat := 0
  priStopped : Bool := false
  mailbox : Sparse 8 := []
  mailIn : List DWord := []
  mailOut : List DWord := []
  msixTab : Tbl DWord := []
  msixPend : List Nat := []
  msix : List (Nat × Nat × Nat) := []
  quantum : Nat := 1000
  hbmDepth : Nat := 0
  hbmRate : Nat := 0
  deriving DecidableEq, Repr

/-- A member waiting at the Trivet: its crew and arrival record (R273). -/
structure Arrival where
  crew : Nat
  gang : DWord
  tile : Nat
  mode : DWord
  reg : Nat
  addr : DWord
  deriving DecidableEq, Repr

/-- A Trivet entry: team, member set, and the members that have arrived (R272). -/
structure Rendezvous where
  team : Nat
  members : List Nat
  arrived : List Arrival
  deriving DecidableEq, Repr

/-- A line in a core's L1 (R178, R181, R375, R469): its way and set, the key index it was filled under, its bytes, which of its 4-byte words
are poisoned, and whether it is dirty. -/
structure L1Line where
  way : Nat
  set : Nat
  key : Nat
  bytes : List Byte
  pois : List Nat := []
  dirty : Bool := false
  deriving DecidableEq, Repr

/-- A line in L2 at its home segment (R20, R183, R184, R469), which is its directory entry too: the line, its way and set, the context and
CLASS that it is counted for, the key index it was filled under, whether its way is pinned. -/
structure L2Line where
  line : Nat
  seg : Nat
  set : Nat
  way : Nat
  ctx : Option Nat
  cls : BitVec 2
  key : Nat
  pinned : Bool
  deriving DecidableEq, Repr

/-- A core (R22, R178, R181). A line is a flat address divided by 128. `granted` counts the reservations in its pool, in the buffer of
function `grantee` (R409). -/
structure Core where
  l1 : Tbl L1Line := []
  inv : List Nat := []
  sramcfg : DWord := 0
  carvestat : DWord := 0
  pool : Nat := 0
  pinned : Nat := 0
  trivet : List Rendezvous := []
  mirrorLog : List (Nat × Nat) := []
  granted : Nat := 0
  grantee : Nat := 0
  fenced : Bool := false
  deriving DecidableEq, Repr

/-- A queue slot (R430): its queue, the master's time when it was mapped (R435), the page whose reply it waits for, and whether that
request failed (R433). -/
structure QSlot where
  func : Nat
  queue : Nat
  since : Nat := 0
  page : Option Nat := none
  failed : Bool := false
  deriving DecidableEq, Repr

/-- A slice (R421). `cores` holds SLCORE by die; `left` holds cores that have
left it while others of their die still leave; `taken` the way-groups whose pinning changes (R183); `target` the SLCORE registers and the SLMEM that it comes to (R429); `compact` is the core that the
dispatcher has chosen for compaction, with the context and, if one resumes, the team that waits for it, or else the entry (R343), `since` the master's time when the running function's quantum began, `switching` the function that a world switch under way brings in (R436). -/
structure Slice where
  cores : Tbl DWord := []
  mem : DWord := 0
  fab : DWord := 0x0400000004000008
  stat : DWord := 0
  l2cstat : DWord := 0
  wide : Nat × Nat × Nat × Nat := (0, 0, 0, 0)
  cursor : Option Nat := none
  compact : Option (Nat × Nat × Option Nat × Nat) := none
  running : Option Nat := none
  since : Nat := 0
  switching : Option Nat := none
  slots : Tbl QSlot := []
  turn : Nat := 0
  leaving : List SlicePart := []
  left : List Nat := []
  taken : List Nat := []
  target : Option (Tbl DWord × DWord) := none
  splitTo : Option Nat := none
  deriving DecidableEq, Repr

/-- State of an admission (R446): `claimed` has its slot and waits for a place in the bulk queue. -/
inductive AdmitSt where
  | trying | claimed (slot : Nat) | loading (slot cmd : Nat) | loaded (slot code : Nat) | waiting (slot : Nat) | held
  deriving DecidableEq, Repr

/-- An admission (R445). -/
structure Admission where
  slice : Nat
  ctx : Nat
  queue : Nat
  lrec : Nat
  adapter : DWord
  table : Nat
  nslots : Nat
  pref : Nat
  policy : Nat
  stride : Nat
  record : List Byte
  st : AdmitSt := .trying
  deriving DecidableEq, Repr

/-- A physical run of a BULK span (R250): start, length, HOME, key. -/
structure Run where
  pa : Nat
  len : Nat
  home : BitVec 2
  key : Nat
  cls : BitVec 2 := 0
  deriving DecidableEq, Repr

/-- A BULK command (R250 to R258): its record and resolved runs; while it runs, its engine and its place in issue order, and in `seen`
the bytes that it read before another agent wrote them (R224): flat address, byte, poisoned. `issuer` is the crew that issued it, by team and
index, and the place of that in issue order; `ending` the code, COUNT and charge of one that is over, while another engine owns the line of its
completion record (R223). -/
structure Cmd where
  func : Nat
  ctx : Nat
  die : Nat
  core : Nat
  entry : Option Nat
  rec_ : List Byte
  src : List Run
  dst : List Run
  compl : List Run
  tag : List Run
  running : Option (Nat × Nat) := none
  stamp : Nat := 0
  seen : List (Nat × Byte × Bool) := []
  issuer : Option (Nat × Nat × Nat) := none
  ending : Option (Nat × Nat × Nat) := none
  deriving DecidableEq, Repr

/-- The bulk engine complexes: commands by number, deficits and the function last served, by 2 die + set (R248, R249). -/
structure Bulk where
  cmds : Tbl Cmd := []
  deficit : Tbl Int := []
  last : Tbl Nat := []
  matched : List (Nat × Nat × Word) := []
  deriving DecidableEq, Repr

/-- A page in flight (R439, R440). -/
structure Forward where
  src : Nat
  dst : Nat
  size : Nat
  func : Nat
  report : Nat
  copied : Nat := 0
  pois : List Nat := []
  failed : Bool := false
  done : Bool := false
  deriving DecidableEq, Repr

/-- What a request in host space carries on its link (R448, R455, R463): the link, the function whose requester ID it has, the PASID of the context
that causes it, whether its address is translated, and the selective stream of one with the T bit. -/
structure LinkHeader where
  link : Nat
  requester : Nat
  pasid : Option (BitVec 20)
  translated : Bool
  stream : Option Nat
  deriving DecidableEq, Repr

/-- A monitor (R307), or a WAITC served by polling; `start` is the master's time when the WAITC issued (R308). -/
structure Monitor where
  crew : Nat
  team : Nat
  acc : Acc
  cond : BitVec 3
  value : DWord
  acq : Bool
  scope : Nat
  polled : Bool
  start : Nat := 0
  relaunch : Bool := false
  deriving DecidableEq, Repr

/-- A message to a wide context: an arrival, a drop or a BARI (R312). -/
inductive WideWhat where
  | arrive | arriveSplit | drop | arm (count : DWord)
  deriving DecidableEq, Repr

structure WideMsg where
  ctx : Nat
  crew : Nat
  handle : Nat
  what : WideWhat
  deriving DecidableEq, Repr

/-- A trace record on its way to its collector (R391, R405). `slot` is the crew slot and
`crew` the key of the crew that it names; `granted` says that a reservation is held; `ctx` is the context whose work it belongs to (R408);
what is not `own` is dropped for its function, and only its copy for the PF is left (R407); `kindS` says that it is a kind S record (R394), and
`clock` is the step that emitted it (R397). -/
structure TraceItem where
  die : Nat
  src : Nat
  func : Nat
  event : BitVec 8
  arg : BitVec 8
  payload : Word
  slot : Nat
  spec : Bool
  stamp : Nat
  granted : Bool
  crew : Option Nat := none
  ctx : Option Nat := none
  own : Bool := true
  kindS : Bool := false
  clock : Nat := 0
  deriving DecidableEq, Repr

/-- The trace fabric: records in flight, collector sequence numbers, drops by source (R400, R414),
the multiples of 2^40 that each die's time base is known to have crossed (R399), the last stamp of each source (R397); `starved` says that the
current step would emit a record for which no reservation is free, and `wanted` how many reservations it would take (R410). -/
structure Fabric where
  items : List TraceItem := []
  seq : Tbl (BitVec 8) := []
  drops : Tbl Nat := []
  epochs : Tbl Nat := []
  last : Tbl Nat := []
  starved : Bool := false
  wanted : Nat := 0
  deriving DecidableEq, Repr

/-- The module's time (R36, R396). `cycle` counts the cycles of a die at full clock, and `lag` the 22nd parts of one by which each die is behind
(R478); `link` is the PCIe link whose die holds the master; `measured` says that the offset has been measured
since the last forward step. -/
structure Time where
  master : Nat := 0
  copies : Tbl Nat := []
  cycle : Nat := 0
  lag : Tbl Nat := []
  timestat : DWord := 0
  tbepoch : DWord := 0
  ppscap : DWord := 0
  link : Nat := 0
  measured : Bool := false
  deriving DecidableEq, Repr

/-- The responses of the SPDM responder (R465). -/
inductive SpdmCode where
  | version | capabilities | algorithms | digests | certificate | challengeAuth | measurements | keyExchangeRsp | finishRsp | endSessionAck
  | vendorRsp | error
  deriving DecidableEq, Repr

/-- How the two certificate slots sign (R465). -/
inductive SignAlg where
  | rsaPss3072Sha384Salt48 | slhDsaSha2_192s
  deriving DecidableEq, Repr

/-- A message of the SPDM responder (R465): what signs it, if it is signed, or what it advertises. -/
structure SpdmMsg where
  code : SpdmCode
  slot : Nat
  algs : List SignAlg := []
  body : List Byte
  deriving DecidableEq, Repr

/-- A memory encryption key (R467): the function that holds the index and how many keys the index has had. -/
structure KeySlot where
  owner : Option Nat := none
  gen : Nat := 0
  deriving DecidableEq, Repr

/-- A key operation under way (R468). -/
inductive KeyOp where
  | assign (index func : Nat) | retire (index : Nat)
  deriving DecidableEq, Repr

/-- Host link and security state (R448 to R470). `groups` holds the register groups of the expert window that firmware has enabled: 0 the
slice registers, 1 the budgets, 2 the keys, 3 FLINK, 4 time, 5 the table port, 6 the SRAM carve. `session` is the secured session, by
number, and `sessions` counts them. `replies` holds what has been answered to the host and to other modules: 0 or the reason of a
refusal (7 is Unsupported Request), data, and whether it is poisoned; `invDone` the ATS Invalidate Completions sent: link and request (R457). `flink`
holds the functions that FLINK binds to link 1 (R448), `keyOp` the key operation under way (R468), `invReqs` counts the ATS Invalidate Requests. -/
structure Sec where
  tblsel : DWord := 0
  tbldat0 : DWord := 0
  tbldat1 : DWord := 0
  keystat : DWord := 0
  keys : Tbl KeySlot := [(0, { owner := some 0 })]
  streams : List (Nat × Nat) := []
  atomicLinks : List Nat := []
  negotiated : Bool := false
  session : Option Nat := none
  finished : Bool := false
  outbox : List SpdmMsg := []
  reports : List (Nat × List (Nat × Nat × Bool)) := []
  generation : Nat := 0
  groups : List Nat := []
  sessions : Nat := 0
  replies : List (Nat × List Byte × Bool) := []
  invDone : List (Nat × Nat) := []
  invReqs : Nat := 0
  flink : List Nat := []
  keyOp : Option KeyOp := none
  deriving DecidableEq, Repr

/-- A UALink station (R471): one whose keys firmware has not loaded carries no traffic. -/
structure Station where
  up : Bool := false
  keyed : Bool := false
  lanes : Nat := 4
  deriving DecidableEq, Repr

/-- A record of the capability table (R427): a resource by its code with TOTAL, FREE and OWNED; a slice with its functions, SLMEM, SLFAB and
SLCORE; a function; the activity budgets of the dies. -/
inductive CapRec where
  | resource (res total free : Nat) (owned : List Nat)
  | slice (i : Nat) (funcs : List Nat) (mem fab : DWord) (cores : Tbl DWord)
  | func (f slice depth rate wCopy wColl quantum slots : Nat)
  | budgets (bs : List (DWord × DWord))
  deriving DecidableEq, Repr

/-- A reply to a page request that an update of the front end holds (R479): context, REQID, STATUS, whether its PRG index stays unusable, whether the
function may ask no more, when it came, and the time of its message. -/
structure HeldReply where
  ctx : Nat
  req : Nat
  status : BitVec 8
  keep : Bool
  halt : Bool
  clock : Nat
  sent : Nat
  deriving DecidableEq, Repr

/-- Bring-up, power and service state (R474 to R480). `spent` is what each background activity has used of its budget in the current
period (R447), `periods` the master's time at which the period of each die began. `events` are the events that firmware receives: 1 notify refused, 2 notify pending, 3 slot starvation, 4 reclaim
(R432 to R435), with function, queue and value; 5 a complete halt (R378), with the team; 6 a change of a die's clock (R478), with die and
step. `updating` holds the dies whose front-end firmware is being replaced, with the security version number of the verified image, `replies` what it
holds (R479), `fast` when a die's clock was last lowered at once,
`identity` that the device identity was regenerated (R475), `lanes` how many lanes of a die-to-die link are retired, `manifest` the active
manifest (R476), `images` the firmware images as they were measured (R466), `cap` the capability table as it was last published (R427). -/
structure Service where
  recovery : Bool := false
  ready : Bool := false
  modid : BitVec 10 := 0
  stations : Tbl Station := []
  lanes : Tbl Nat := []
  clockStep : Tbl Nat := []
  identity : Bool := true
  updating : Tbl Nat := []
  replies : List HeldReply := []
  fast : Tbl Nat := []
  fenced : List Nat := []
  retiredSets : List Nat := []
  fw : Tbl Nat := []
  svn : Nat := 0
  capGen : Nat := 0
  cap : List CapRec := []
  manifest : Option Manifest := none
  images : Tbl (List Byte) := []
  governed : Nat := 0
  budgets : Tbl (DWord × DWord) := []
  spent : Tbl Nat := []
  periods : Tbl Nat := []
  events : List (Nat × Nat × Nat × Nat) := []
  deriving DecidableEq, Repr

/-- A translation invalidation under way (R174, R457): the virtual spans it covers, the physical spans that they held, the teams it
reaches, and the link and number of the ATS request that it answers. -/
structure Invalidation where
  ctx : Nat
  spans : List (Nat × Nat)
  phys : List (Nat × Nat)
  teams : List Nat
  ats : Option (Nat × Nat)
  deriving DecidableEq, Repr

/-- A move of the schedule: a crew issues, or a step without a word takes place. -/
inductive Move where
  | crew (key : Nat)
  | event (i : Instr)
  deriving DecidableEq, Repr

/-- The reasons a step stops. Neither is raised by an instruction of a crew: those take the traps of R361. -/
inductive Fault where
  /-- Raised by a step without a word that names nothing in the state (no such operation, no such crew, a condition of its
  rule that does not hold): the step cannot occur there. Safe: the machine goes on by other steps. -/
  | notEnabled
  /-- Raised by `step` when the current move names a crew slot that holds no crew. Safe, as above. -/
  | noCrew
  deriving DecidableEq, Repr

/-- What the model gives no meaning to. -/
inductive Refusal where
  /-- Raised by the arm of an instruction without a meaning. Safe. No arm is one. -/
  | notModelled (mnemonic : String)
  deriving DecidableEq, Repr

/-- The state of the module. `crews` is keyed by 64 core + slot, `cores` by core id, `ops` by issue number. `undo` holds the bytes that HBM
and host memory hold under dirty lines; `l2` lists the lines of L2, the most recently used last; `targets` is T of R184 by 4 context + CLASS. -/
structure State where
  mem : Memory
  undo : Tbl Byte
  l2 : List L2Line
  targets : Tbl Nat
  poison : List Nat
  secKey : Tbl (Nat × Nat)
  crews : Tbl Crew
  teams : Tbl Team
  entries : Tbl Entry
  bound : Tbl Bound
  ctxs : Tbl Ctx
  funcs : Tbl Func
  cores : Tbl Core
  slices : Tbl Slice
  ops : Tbl Op
  monitors : List Monitor
  wide : Tbl Barrier
  wideMsgs : List WideMsg
  wideDone : List (Nat × Nat × Word × Nat)
  bulk : Bulk
  forwards : Tbl Forward
  admissions : Tbl Admission
  invals : Tbl Invalidation
  fabric : Fabric
  time : Time
  sec : Sec
  svc : Service
  promoted : List Nat
  schedule : List Move
  cur : Nat
  clock : Nat
  nextOp : Nat
  nextId : Nat
  deriving DecidableEq, Repr

/-- The module right after reset: nothing resident, every register at the value the spec gives or log entries 1 to 4 name. -/
def State.reset : State where
  mem := []
  undo := []
  l2 := []
  targets := []
  poison := []
  secKey := []
  crews := []
  teams := []
  entries := []
  bound := []
  ctxs := []
  funcs := [(0, {})]
  cores := []
  slices := []
  ops := []
  monitors := []
  wide := []
  wideMsgs := []
  wideDone := []
  bulk := {}
  forwards := []
  admissions := []
  invals := []
  fabric := {}
  time := {}
  sec := {}
  svc := {}
  promoted := []
  schedule := []
  cur := 0
  clock := 0
  nextOp := 0
  nextId := 0

end Sys2Proof.Machine
end

