-- ==== Sys2Proof/Machine/Table.lean ====
section
/-! DEFINITION. Operations on the two containers of the state: tables by key and files of cells that hold zero when unlisted.
Both keep their keys rising, and a file lists no zero, so that equal contents are equal data. -/
namespace Sys2Proof

/-- The value at a key. -/
def Tbl.get? {α : Type} : Tbl α → Nat → Option α
  | [], _ => none
  | (k, v) :: t, j => if k = j then some v else Tbl.get? t j
/-- The value at a key, or the default. -/
def Tbl.getD {α : Type} (t : Tbl α) (k : Nat) (d : α) : α := (Tbl.get? t k).getD d
/-- Set the value at a key. -/
def Tbl.put {α : Type} : Tbl α → Nat → α → Tbl α
  | [], j, a => [(j, a)]
  | (k, v) :: t, j, a => if j < k then (j, a) :: (k, v) :: t else if k = j then (j, a) :: t else (k, v) :: Tbl.put t j a
/-- Remove a key. -/
def Tbl.del {α : Type} : Tbl α → Nat → Tbl α
  | [], _ => []
  | (k, v) :: t, j => if k = j then Tbl.del t j else (k, v) :: Tbl.del t j
/-- Change the value at a key that is present. -/
def Tbl.upd {α : Type} (t : Tbl α) (k : Nat) (f : α → α) : Tbl α :=
  match Tbl.get? t k with
  | some v => Tbl.put t k (f v)
  | none => t
/-- Change every value. -/
def Tbl.mapV {α : Type} (t : Tbl α) (f : α → α) : Tbl α := t.map fun p => (p.1, f p.2)

/-- The cell at a key. -/
def Sparse.get {w : Nat} : Sparse w → Nat → BitVec w
  | [], _ => 0
  | (k, v) :: t, j => if k = j then v else Sparse.get t j
/-- Remove a key: its cell holds zero. -/
def Sparse.clear {w : Nat} : Sparse w → Nat → Sparse w
  | [], _ => []
  | (k, v) :: t, j => if k = j then Sparse.clear t j else (k, v) :: Sparse.clear t j
/-- List a value at a key. -/
def Sparse.ins {w : Nat} : Sparse w → Nat → BitVec w → Sparse w
  | [], j, a => [(j, a)]
  | (k, v) :: t, j, a => if j < k then (j, a) :: (k, v) :: t else if k = j then (j, a) :: t else (k, v) :: Sparse.ins t j a
/-- Set the cell at a key. -/
def Sparse.set {w : Nat} (t : Sparse w) (k : Nat) (v : BitVec w) : Sparse w :=
  if v = 0 then Sparse.clear t k else Sparse.ins t k v
/-- The canonical form: keys rise and no cell listed is zero. -/
def Sparse.wf {w : Nat} : Sparse w → Bool
  | [] => true
  | [(_, v)] => v != 0
  | (k, v) :: (k', v') :: t => (decide (k < k') && v != 0) && Sparse.wf ((k', v') :: t)

namespace Machine

/-- The memory's canonical form. -/
abbrev Memory.wf (m : Memory) : Bool := Sparse.wf (w := 8) m

/-- Insert into a rising list of numbers. -/
def setAdd : List Nat → Nat → List Nat
  | [], j => [j]
  | k :: t, j => if j < k then j :: k :: t else if k = j then k :: t else k :: setAdd t j
/-- Remove from a list of numbers. -/
def setDel (l : List Nat) (j : Nat) : List Nat := l.filter (· != j)

/-- Insertion before the first element with a greater key, and sorting by it. -/
def insertKey {α : Type} (f : α → Nat) (x : α) : List α → List α
  | [] => [x]
  | y :: t => if f x < f y then x :: y :: t else y :: insertKey f x t
def sortKey {α : Type} (f : α → Nat) (l : List α) : List α := l.foldl (fun r x => insertKey f x r) []
/-- The numbers below n that satisfy p, rising. -/
def below (n : Nat) (p : Nat → Bool) : List Nat := (List.range n).filter p

end Machine
end Sys2Proof
end

