-- ==== Sys2Proof/Machine/Flags.lean ====
section
/-! DEFINITION. The fields of MODE (R45), the element types (R74, R79), the guard (R11, R65) and the bits that instructions
derive from them. The machine has no flags (R123, R77). -/
namespace Sys2Proof.Machine

/-- The fields of MODE (R45). -/
def mGuard (m : DWord) : BitVec 6 := m.extractLsb' 0 6
def mType (m : DWord) : BitVec 4 := m.extractLsb' 6 4
def mStype (m : DWord) : BitVec 4 := m.extractLsb' 10 4
def mRnd (m : DWord) : BitVec 3 := m.extractLsb' 14 3
def mSat (m : DWord) : Bool := m.getLsbD 17
def mFtz (m : DWord) : Bool := m.getLsbD 18
def mHalf (m : DWord) : Bool := m.getLsbD 19
def mRedop (m : DWord) : BitVec 3 := m.extractLsb' 20 3
def mScope (m : DWord) : BitVec 3 := m.extractLsb' 23 3
def mOrd (m : DWord) : BitVec 2 := m.extractLsb' 26 2
def mShape (m : DWord) : BitVec 2 := m.extractLsb' 28 2
def mAw (m : DWord) : Bool := m.getLsbD 30

/-- The code of MODE.TYPE and of MODE.STYPE as a number. -/
def tyOf (m : DWord) : Nat := (mType m).toNat
def styOf (m : DWord) : Nat := (mStype m).toNat
def rndOf (m : DWord) : Nat := (mRnd m).toNat

/-- A defined rounding mode (R45, R46). -/
def rndOk (m : DWord) : Bool := decide (rndOf m ≤ 5)
/-- A defined scope code (R45, R46). -/
def scopeOk (m : DWord) : Bool := decide ((mScope m).toNat ≤ 6)

/-- Kinds of types by code (R74, R79). -/
def isFloat (t : Nat) : Bool := decide (t ≤ 5)
def isInt (t : Nat) : Bool := decide (6 ≤ t ∧ t ≤ 11)
def isSigned (t : Nat) : Bool := t == 6 || t == 8 || t == 10
/-- The width of an element of a type, in bits. -/
def tyBits (t : Nat) : Nat :=
  match t with
  | 0 | 6 | 7 | 12 => 32
  | 1 | 2 | 8 | 9 => 16
  | 3 | 4 | 10 | 11 => 8
  | 5 => 4
  | 13 => 64
  | _ => 32
/-- The type code lies in a list. -/
def tyIn (t : Nat) (l : List Nat) : Bool := l.contains t

/-- Lane l takes part (R11): below the width, and unguarded or with its bit of the guard register set. -/
def activeLane (width : Nat) (mode guard : DWord) (l : Nat) : Bool :=
  decide (l < width) && (mGuard mode == 0 || guard.getLsbD l)
/-- The mask bits of a width (R5). -/
def maskOf (width : Nat) (x : DWord) : DWord := x &&& (BitVec.allOnes 64 >>> (64 - width))
/-- A mask whose bits are the lanes in a list. -/
def lanesMask : List Nat → DWord
  | [] => 0
  | l :: t => (1#64 <<< l) ||| lanesMask t

end Sys2Proof.Machine
end

