-- ==== Sys2Proof/Machine/Num.lean ====
section
/-! DEFINITION. Number formats and arithmetic (03_numbers). A finite value is a sign and a magnitude counted in units of
2 to the power -298, the least product of two operands, so that every sum and product is exact. -/
namespace Sys2Proof.Machine

/-- A value of the extended reals as R75 reads an element. -/
inductive Val where
  | nan
  | inf (neg : Bool)
  | fin (neg : Bool) (m : Nat)
  deriving DecidableEq, Repr

/-- A floating format of R74: width, bits of M, exponent of the least spacing in units, code of MAX, code of infinity and of
the canonical NaN (R76; zero for f4, R85 step 1), and whether FTZ acts on it (R88). -/
structure Fmt where
  bits : Nat
  m : Nat
  kmin : Nat
  max : Nat
  inf : Option Nat
  nan : Nat
  flush : Bool
  deriving DecidableEq, Repr

/-- The six formats (R74, R76). -/
def fmtOf (t : Nat) : Fmt :=
  match t with
  | 0 => ⟨32, 23, 149, 0x7F7FFFFF, some 0x7F800000, 0x7FC00000, true⟩
  | 1 => ⟨16, 10, 274, 0x7BFF, some 0x7C00, 0x7E00, true⟩
  | 2 => ⟨16, 7, 165, 0x7F7F, some 0x7F80, 0x7FC0, true⟩
  | 3 => ⟨8, 3, 289, 0x7E, none, 0x7F, false⟩
  | 4 => ⟨8, 2, 282, 0x7B, some 0x7C, 0x7E, false⟩
  | _ => ⟨4, 1, 297, 7, none, 0, false⟩

/-- The value of an element (R75), flushed under R88 when `ftz`. -/
def readF (f : Fmt) (ftz : Bool) (x : Nat) : Val :=
  let mag := x % 2 ^ (f.bits - 1)
  let neg := x.testBit (f.bits - 1)
  if f.max < mag then (if f.inf = some mag then .inf neg else .nan)
  else
    let e := mag / 2 ^ f.m
    let q := mag % 2 ^ f.m
    if e = 0 then (if ftz && f.flush then .fin neg 0 else .fin neg (q * 2 ^ f.kmin))
    else .fin neg ((2 ^ f.m + q) * 2 ^ (f.kmin + e - 1))

/-- How a result is rounded: MODE.RND, SAT, FTZ and the draw of R91. -/
structure Rnd where
  rnd : Nat
  sat : Bool := false
  ftz : Bool := false
  draw : Nat := 0
  deriving DecidableEq, Repr

/-- R85 step 3: whether the magnitude is taken up, for quotient q and remainder rem of d (rem not zero). -/
def roundUp (r : Rnd) (neg : Bool) (q rem d : Nat) : Bool :=
  match r.rnd with
  | 0 => decide (d < 2 * rem) || (decide (d = 2 * rem) && q % 2 == 1)
  | 1 => false
  | 2 => !neg
  | 3 => neg
  | 4 => decide (d ≤ 2 * rem)
  | _ =>
    if neg then !decide (r.draw < (d - rem) * 2 ^ 32 / d)
    else decide (r.draw < rem * 2 ^ 32 / d)

/-- The code with a sign. -/
def withSign (f : Fmt) (neg : Bool) (c : Nat) : Nat := if neg then c + 2 ^ (f.bits - 1) else c

/-- A would-be infinity (R85 step 4, R86). -/
def wouldBeInf (f : Fmt) (r : Rnd) (neg : Bool) : Nat :=
  if r.sat then withSign f neg f.max
  else match f.inf with
    | some c => withSign f neg c
    | none => if f.bits = 8 then f.nan else withSign f neg f.max

/-- R85 for a finite magnitude n / d in units. -/
def roundQ (f : Fmt) (r : Rnd) (neg : Bool) (n d : Nat) : Nat :=
  if n = 0 then withSign f neg 0
  else
    let k := max f.kmin ((n / d).log2 - f.m)
    let q := n / (d * 2 ^ k)
    let rem := n % (d * 2 ^ k)
    let c := (k - f.kmin) * 2 ^ f.m + q + (if rem ≠ 0 ∧ roundUp r neg q rem (d * 2 ^ k) then 1 else 0)
    if f.max < c then
      (if r.rnd = 0 ∨ r.rnd = 4 ∨ 5 ≤ r.rnd ∨ (r.rnd = 2 ∧ neg = false) ∨ (r.rnd = 3 ∧ neg = true) then wouldBeInf f r neg
       else withSign f neg f.max)
    else if rem ≠ 0 ∧ r.ftz ∧ f.flush ∧ c < 2 ^ f.m then withSign f neg 0
    else withSign f neg c

/-- `round(x, T, rnd)` of R85. -/
def roundV (f : Fmt) (r : Rnd) (v : Val) : Nat :=
  match v with
  | .nan => f.nan
  | .inf neg => wouldBeInf f r neg
  | .fin neg m => roundQ f r neg m 1

/-- The signed magnitude of a finite value. -/
def Val.int : Val → Int
  | .fin neg m => if neg then -(m : Int) else m
  | _ => 0
/-- A value is NaN; infinite with a sign; a zero with a sign. -/
def Val.isNan : Val → Bool
  | .nan => true
  | _ => false
def Val.isInf (neg : Bool) : Val → Bool
  | .inf n => n == neg
  | _ => false
def Val.isZero (neg : Bool) : Val → Bool
  | .fin n 0 => n == neg
  | _ => false
/-- A finite value from a signed magnitude, with the sign of a zero given. -/
def Val.ofInt (zneg : Bool) (i : Int) : Val :=
  if i = 0 then .fin zneg 0 else .fin (decide (i < 0)) i.natAbs
/-- The value with the other sign. -/
def Val.neg : Val → Val
  | .nan => .nan
  | .inf n => .inf (!n)
  | .fin n m => .fin (!n) m

/-- The exact sum of addends (R95, R97) with the sign of a zero of R89. -/
def sumV (rnd : Nat) (xs : List Val) : Val :=
  if xs.any Val.isNan || (xs.any (Val.isInf true) && xs.any (Val.isInf false)) then .nan
  else if xs.any (Val.isInf true) then .inf true
  else if xs.any (Val.isInf false) then .inf false
  else
    let t := xs.foldl (fun a v => a + v.int) 0
    let zneg := if xs.all (Val.isZero true) then true else if xs.all (Val.isZero false) then false else rnd == 3
    Val.ofInt zneg t

/-- The exact product of two operands (R95, R89). -/
def mulV (a b : Val) : Val :=
  match a, b with
  | .nan, _ => .nan
  | _, .nan => .nan
  | .inf n, .inf p => .inf (n != p)
  | .inf n, .fin p m => if m = 0 then .nan else .inf (n != p)
  | .fin n m, .inf p => if m = 0 then .nan else .inf (n != p)
  | .fin n m, .fin p q => .fin (n != p) (m * q / 2 ^ 298)

/-- The place of a value in the order of R94: infinities beyond every number. -/
def Val.key : Val → Int
  | .nan => 0
  | .inf true => -(2 ^ 1000 : Nat)
  | .inf false => (2 ^ 1000 : Nat)
  | v => v.int
/-- Less-than and equality of R94. -/
def ltV (a b : Val) : Bool := !a.isNan && !b.isNan && decide (a.key < b.key)
def eqV (a b : Val) : Bool := !a.isNan && !b.isNan && decide (a.key = b.key)
/-- Below in the order in which -0 is less than +0 (R94). -/
def belowV (a b : Val) : Bool := decide (a.key < b.key) || (decide (a.key = b.key) && a.isZero true && b.isZero false)
/-- Minimum and maximum of R94. -/
def minV (a b : Val) : Val := if a.isNan then b else if b.isNan then a else if belowV b a then b else a
def maxV (a b : Val) : Val := if a.isNan then b else if b.isNan then a else if belowV a b then b else a

/-- The value of an integer element (R80). -/
def readI (t x : Nat) : Int :=
  let w := tyBits t
  let y := x % 2 ^ w
  if isSigned t && y.testBit (w - 1) then (y : Int) - (2 ^ w : Nat) else y
/-- The range of an integer type (R79). -/
def intLo (t : Nat) : Int := if isSigned t then -(2 ^ (tyBits t - 1) : Nat) else 0
def intHi (t : Nat) : Int := if isSigned t then (2 ^ (tyBits t - 1) : Nat) - 1 else (2 ^ tyBits t : Nat) - 1
/-- An exact integer clamped to a type's range, and its low bits. -/
def clampI (t : Nat) (v : Int) : Int := if v < intLo t then intLo t else if intHi t < v then intHi t else v
def lowBits (t : Nat) (v : Int) : Nat := (v % (2 ^ tyBits t : Nat)).toNat
/-- Narrowing of R80. -/
def narrowI (t : Nat) (sat : Bool) (v : Int) : Nat := lowBits t (if sat then clampI t v else v)

/-- Conversion from floating point to an integer type (R87). -/
def toIntV (t : Nat) (r : Rnd) (v : Val) : Nat :=
  match v with
  | .nan => 0
  | .inf neg => lowBits t (if neg then intLo t else intHi t)
  | .fin neg m =>
    let q := m / 2 ^ 298
    let rem := m % 2 ^ 298
    let q := if rem ≠ 0 ∧ roundUp r neg q rem (2 ^ 298) then q + 1 else q
    lowBits t (clampI t (if neg then -(q : Int) else q))
/-- The value of an integer (R87). -/
def ofIntV (i : Int) : Val := .fin (decide (i < 0)) (i.natAbs * 2 ^ 298)

/-- The draw of R91 at position (l, e). -/
def drawOf (rseed : DWord) (c : Word) (q l e : Nat) : Nat :=
  let x := rseed ^^^ (c.setWidth 64 <<< 32) ^^^ (BitVec.ofNat 64 q <<< 11) ^^^ (BitVec.ofNat 64 l <<< 5) ^^^ BitVec.ofNat 64 e
  let x := x ^^^ (x >>> 30)
  let x := x * 0xBF58476D1CE4E5B9#64
  let x := x ^^^ (x >>> 27)
  let x := x * 0x94D049BB133111EB#64
  let x := x ^^^ (x >>> 31)
  (x >>> 32).toNat

/-- The integer square root by bits from bit i down. -/
def isqrtFrom (n : Nat) : Nat → Nat → Nat
  | 0, r => if (r + 1) * (r + 1) ≤ n then r + 1 else r
  | i + 1, r => isqrtFrom n i (if (r + 2 ^ (i + 1)) * (r + 2 ^ (i + 1)) ≤ n then r + 2 ^ (i + 1) else r)
def isqrt (n : Nat) : Nat := isqrtFrom n (n.log2 / 2 + 1) 0

/-- A rounded result where the exact value lies strictly between two magnitudes n1 / d and n2 / d: the code when both ends
round alike, else none. -/
def roundEnds (f : Fmt) (r : Rnd) (neg : Bool) (n1 n2 d : Nat) : Option Nat :=
  let a := roundQ f r neg n1 d
  if a = roundQ f r neg n2 d then some a else none

/-- A lower bound of 2 to the power (frac / 2^149), in units of 2^-256: the product of the roots whose bits are set.
`root` is a lower bound of 2^(2^-(149 - i)) in the same units. -/
def exp2Frac (frac : Nat) : Nat → Nat → Nat → Nat
  | 0, _, acc => acc
  | i + 1, root, acc =>
    let root := isqrt (root * 2 ^ 256)
    exp2Frac frac i root (if frac.testBit i then acc * root / 2 ^ 256 else acc)

/-- The largest number of n bits that a falling condition holds of, added to one that it holds of. -/
def largest (p : Nat → Bool) : Nat → Nat → Nat
  | 0, r => r
  | n + 1, r => largest p n (if p (r + 2 ^ n) then r + 2 ^ n else r)
/-- The code of an irrational magnitude whose whole part in units is k: no rounding boundary lies between whole units. -/
def roundWhole (f : Fmt) (r : Rnd) (neg : Bool) (k : Nat) : Nat := roundQ f r neg (2 * k + 1) 2
/-- VEXP2 of a finite operand (R96). The enclosure gives the code when its ends round alike; otherwise the whole units of the result are found
exactly: k of them are at most 2 to the power i + fr / 2^149 when the power 2^149 of both sides says so. -/
def exp2Q (f : Fmt) (r : Rnd) (neg : Bool) (m : Nat) : Nat :=
  let x : Int := if neg then -(m : Int) else m
  let i : Int := x / (2 ^ 298 : Nat)
  let fr := (x % (2 ^ 298 : Nat)).toNat / 2 ^ 149
  let i : Int := if 1000 < i then 1000 else if i < -1000 then -1000 else i
  let up := 2 ^ (298 + i).toNat
  let dn := 2 ^ (-(298 + i)).toNat
  if fr = 0 then roundQ f r false up dn
  else
    let l := exp2Frac fr 149 (2 * 2 ^ 256) (2 ^ 256)
    match roundEnds f r false (l * up) ((l + l / 2 ^ 240 + 1) * up) (2 ^ 256 * dn) with
    | some x => x
    | none => roundWhole f r false (largest (fun k => decide ((k * dn) ^ (2 ^ 149) ≤ up ^ (2 ^ 149) * 2 ^ fr)) 1400 0)

/-- The next n bits of the base-2 logarithm of a value in [1, 2) held between lo and hi in units of 2^-320. -/
def log2Bits : Nat → Nat → Nat → Nat → Option Nat
  | 0, _, _, acc => some acc
  | n + 1, lo, hi, acc =>
    let lo := lo * lo / 2 ^ 320
    let hi := hi * hi / 2 ^ 320 + 1
    if 2 ^ 321 ≤ lo then log2Bits n (lo / 2) (hi / 2 + 1) (2 * acc + 1)
    else if hi < 2 ^ 321 then log2Bits n lo hi (2 * acc)
    else none

/-- The enclosure of VLOG2 at a value 2^x times y / 2^320: the code when both ends round alike. -/
def log2Ends (f : Fmt) (r : Rnd) (x : Int) (y : Nat) : Option Nat :=
  match log2Bits 128 y (y + 1) 0 with
  | none => none
  | some b =>
    let v : Int := x * (2 ^ 128 : Nat) + b
    if 0 ≤ v then roundEnds f r false (v.toNat * 2 ^ 170) ((v.toNat + 1) * 2 ^ 170) 1
    else roundEnds f r true ((-v).toNat * 2 ^ 170 - 2 ^ 170) ((-v).toNat * 2 ^ 170) 1
/-- VLOG2 of a finite operand above zero (R96). Where the enclosure does not decide, the whole units of the magnitude are found exactly: k of
them are at most the logarithm of a / b when 2^k b^(2^298) is at most a^(2^298). -/
def log2Q (f : Fmt) (r : Rnd) (m : Nat) : Nat :=
  let e := m.log2
  let x : Int := (e : Int) - 298
  if m = 2 ^ e then roundQ f r (decide (x < 0)) (x.natAbs * 2 ^ 298) 1
  else
    match log2Ends f r x (m * 2 ^ 320 / 2 ^ e) with
    | some c => c
    | none =>
      let a := max m (2 ^ 298)
      let b := min m (2 ^ 298)
      roundWhole f r (decide (x < 0)) (largest (fun k => decide (2 ^ k * b ^ (2 ^ 298) ≤ a ^ (2 ^ 298))) 320 0)

/-- VRSQ of a finite operand above zero (R96): the square root of 2^894 / m lies between whole units, and no rounding
boundary does. -/
def rsqQ (f : Fmt) (r : Rnd) (m : Nat) : Nat :=
  let y := isqrt (2 ^ 894 / m)
  if y * y * m = 2 ^ 894 then roundQ f r false y 1 else roundQ f r false (2 * y + 1) 2

/-- The four special functions, by the low digit of their opcode less 3: 0 VRCP, 1 VRSQ, 2 VEXP2, 3 VLOG2 (R96). -/
def specialV (op : Nat) (f : Fmt) (r : Rnd) (v : Val) : Nat :=
  match op, v with
  | _, .nan => f.nan
  | 0, .inf neg => roundV f r (.fin neg 0)
  | 0, .fin neg m => if m = 0 then roundV f r (.inf neg) else roundQ f r neg (2 ^ 596) m
  | 1, .inf neg => if neg then f.nan else 0
  | 1, .fin neg m =>
    if m = 0 then roundV f r (.inf neg) else if neg then f.nan else rsqQ f r m
  | 2, .inf neg => if neg then 0 else roundV f r (.inf false)
  | 2, .fin neg m => exp2Q f r neg m
  | _, .inf neg => if neg then f.nan else roundV f r (.inf false)
  | _, .fin neg m =>
    if m = 0 then roundV f r (.inf true) else if neg then f.nan else log2Q f r m

end Sys2Proof.Machine
end

