-- ==== Sys2Proof/Machine/Mem.lean ====
section
/-! DEFINITION. Bytes of memory: the flat numbering of every byte that the machine holds, keys, poison, the places of virtual
addresses, extents and the checks on an access (06_memory). -/
namespace Sys2Proof.Machine

/-- Flat addresses: a physical address as it is (R159); a core's SRAM from 2^52 on; pinned frames from 2^53 on (R163). -/
def scratchAddr (core unit off : Nat) : Nat := 2 ^ 52 + core * Config.sramBytes + unit * Config.unitBytes + off
def frameAddr (core frame off : Nat) : Nat := 2 ^ 53 + (core * 4 + frame) * Config.unitBytes + off
/-- What a flat address names (R159). -/
def inHbm (a : Nat) : Bool := decide (a < Config.hbmBytes)
def inPod (a : Nat) : Bool := decide (2 ^ 50 ≤ a ∧ a < 2 ^ 51)
def inHost (a : Nat) : Bool := decide (2 ^ 51 ≤ a ∧ a < 2 ^ 52)
def inScratch (a : Nat) : Bool := decide (2 ^ 52 ≤ a ∧ a < 2 ^ 53)
def inFrame (a : Nat) : Bool := decide (2 ^ 53 ≤ a)
/-- The core whose SRAM holds a flat address at or above 2^52. -/
def coreOfFlat (a : Nat) : Nat :=
  if a < 2 ^ 53 then (a - 2 ^ 52) % 2 ^ 36 / Config.sramBytes else (a - 2 ^ 53) / (4 * Config.unitBytes)
/-- The 128-byte line of a flat address. -/
def lineOf (a : Nat) : Nat := a / 128
/-- The poison granule of a flat address (R375): a 32-byte sector, or a 4-byte word of SRAM. -/
def granSize (a : Nat) : Nat := if a < 2 ^ 52 then 32 else 4
def granOf (a : Nat) : Nat := a - a % granSize a

/-- How many keys an index has had (R468). -/
def keyGen (s : State) (k : Nat) : Nat := (Tbl.getD s.sec.keys k {}).gen
/-- Words 2v and 2v + 1 of a function's MSI-X table: address; data and, in bit 32, the mask, which is set after reset (log entry 123). -/
def Func.msixWord (f : Func) (i : Nat) : DWord := Tbl.getD f.msixTab i (if i % 2 = 1 then 1#64 <<< 32 else 0)
/-- An MSI-X vector is signalled (R453): its message is sent, or its pending bit set while it is masked. -/
def Func.signal (f : Func) (v : Nat) : Func :=
  if (f.msixWord (2 * v + 1)).getLsbD 32 then { f with msixPend := setAdd f.msixPend v }
  else { f with msix := f.msix ++ [(v, (f.msixWord (2 * v)).toNat, (f.msixWord (2 * v + 1)).toNat % 2 ^ 32)] }
/-- The link of a function's host-space requests (R448): a VF's is the one that FLINK binds it to. -/
def linkOf (s : State) (func : Nat) : Nat :=
  if func = 0 then Config.pfLink s.clock % 2 else if s.sec.flink.contains func then 1 else 0
/-- CYCLE of a die (R478): one whose clock is at a lower step counts slower cycles. -/
def cycleOf (s : State) (die : Nat) : Nat := (22 * s.time.cycle - Tbl.getD s.time.lag die 0) / 22
/-- The copy of a byte that an access reaches: a line that the migration engine has copied is at its destination (R440). -/
def route (s : State) (a : Nat) : Nat :=
  match s.forwards.find? fun p => decide (p.2.src ≤ a ∧ a < p.2.src + 128 * p.2.copied) with
  | some p => p.2.dst + (a - p.2.src)
  | none => a
/-- The address whose byte `route` gives at an address. -/
def unroute (s : State) (a : Nat) : Nat :=
  match s.forwards.find? fun p => decide (p.2.dst ≤ a ∧ a < p.2.dst + 128 * p.2.copied) with
  | some p => p.2.src + (a - p.2.dst)
  | none => a
/-- The 64 bytes of a key: the pair of AES-256 keys of XTS (R467). -/
def memKeyBytes (k g : Nat) : List Byte := (List.range 64).map fun i => Config.memKey k g i
/-- The 32 bytes of a sector that one key wrote, as another reads them (R166, R467): what is stored is decrypted under the other. -/
def recrypt (s : State) (sec k g key : Nat) : List Byte :=
  let plain := (List.range 32).map fun i => Sparse.get (w := 8) s.mem (32 * sec + i)
  xtsDecrypt (memKeyBytes key (keyGen s key)) sec (xtsEncrypt (memKeyBytes k g) sec plain)
/-- A byte read under a key index (R166). -/
def readByte (s : State) (key a : Nat) : Byte :=
  let a := route s a
  let v := Sparse.get (w := 8) s.mem a
  if inHbm a then
    match Tbl.get? s.secKey (a / 32) with
    | none => v
    | some (k, g) => if k = key ∧ g = keyGen s key then v else (recrypt s (a / 32) k g key).getD (a % 32) 0
  else v
/-- n bytes from a flat address. -/
def readBytes (s : State) (key a n : Nat) : List Byte := (List.range n).map fun i => readByte s key (a + i)
/-- The granule of a byte is poisoned (R375). -/
def poisoned (s : State) (a : Nat) : Bool := s.poison.contains (granOf (route s a))
/-- A byte among n from a is poisoned. -/
def anyPoison (s : State) (a n : Nat) : Bool := !s.poison.isEmpty && (List.range n).any fun i => poisoned s (a + i)

/-- Little-endian value of bytes, and bytes of a value (R4). -/
def leVal : List Byte → Nat
  | [] => 0
  | b :: t => b.toNat + 256 * leVal t
def leBytes : Nat → Nat → List Byte
  | 0, _ => []
  | n + 1, v => BitVec.ofNat 8 v :: leBytes n (v / 256)
/-- Bytes o to o + n - 1 of a record as a value. -/
def fieldOf (bs : List Byte) (o n : Nat) : Nat := leVal ((bs.drop o).take n)

/-- One byte of memory is written; the byte that HBM or host memory holds under a cached line is kept while the line is
dirty (R205, R437). -/
def putByte (cached : Bool) (s : State) (a : Nat) (b : Byte) : State :=
  { s with
    undo := if cached && (inHbm a || inHost a) && (Tbl.get? s.undo a).isNone then Tbl.put s.undo a (Sparse.get (w := 8) s.mem a) else s.undo
    mem := Sparse.set (w := 8) s.mem a b }
/-- Consecutive bytes are written. -/
def putList (cached : Bool) : State → Nat → List Byte → State
  | s, _, [] => s
  | s, a, b :: t => putList cached (putByte cached s a b) (a + 1) t
/-- A sector of HBM comes under a key: its other bytes are then what that key reads (R166). -/
def rekey (key : Nat) (s : State) (sec : Nat) : State :=
  if inHbm (32 * sec) then
    let g := keyGen s key
    match Tbl.get? s.secKey sec with
    | none => { s with secKey := Tbl.put s.secKey sec (key, g) }
    | some (k, h) =>
      if k = key ∧ h = g then s
      else { putList false s (32 * sec) (recrypt s sec k h key) with secKey := Tbl.put s.secKey sec (key, g) }
  else s
/-- The granules that n bytes from a touch. -/
def gransOf (a n : Nat) : List Nat :=
  if n = 0 then [] else
    let z := granSize a
    (List.range ((a + n - 1) / z - a / z + 1)).map fun i => (a / z + i) * z
/-- Bytes reach memory (R375): a granule that they cover whole loses its poison, and every granule touched is poisoned when
they are. -/
def putBytes (key : Nat) (cached : Bool) (s : State) (a : Nat) (bs : List Byte) (bad : Bool := false) : State :=
  let n := bs.length
  let s := if n = 0 then s else (List.range ((a + n - 1) / 32 - a / 32 + 1)).foldl (fun s i => rekey key s (a / 32 + i)) s
  let s := putList cached s a bs
  let gs := gransOf a n
  { s with poison :=
      if bad then gs.foldl setAdd s.poison
      else s.poison.filter fun g => !(gs.contains g && decide (a ≤ g ∧ g + granSize g ≤ a + n)) }

/-- Where a lane address lies (R157, R158). -/
inductive Place where
  | bad | scratch (o : Nat) | mirror (o : Nat) | global
  deriving DecidableEq, Repr
def placeOf (va : Nat) : Place :=
  if 2 ^ 56 ≤ va then .bad
  else if va / 2 ^ 40 = 0xFFFF then
    (if va / 2 ^ 32 = 0xFFFF00 then .scratch (va % 2 ^ 32)
     else if va / 2 ^ 32 = 0xFFFF01 then .mirror (va % 2 ^ 32) else .bad)
  else .global

/-- The team's scratchpad size in bytes (R158). -/
def Team.scratchBytes (t : Team) : Nat := t.units.length * Config.unitBytes
/-- The flat address of byte o of a scratchpad unit: in the core's SRAM, or, for a unit spilled to the save area, in device memory (R380,
R382). -/
def unitAddr (core unit o : Nat) : Nat :=
  if 2 ^ 20 ≤ unit then (unit - 2 ^ 20) * Config.unitBytes + o else scratchAddr core unit o
/-- The flat address of a scratchpad offset (R180). -/
def Team.scratchFlat (t : Team) (o : Nat) : Nat := unitAddr t.core (t.units.getD (o / Config.unitBytes) 0) (o % Config.unitBytes)

/-- An extent contains an address; permits an access. -/
def Extent.has (e : Extent) (va : Nat) : Bool := decide (e.vlo ≤ va ∧ va < e.vhi)
def Extent.permits (e : Extent) (ld st : Bool) : Bool := (!ld || e.r) && (!st || e.w)
/-- R173 for one byte of a global address. -/
def checkByte (t : Team) (ld st : Bool) (va : Nat) : Option TrapKind :=
  let es := t.extents.filter (·.has va)
  let ps := es.filter (·.permits ld st)
  if es.isEmpty then some .range else if ps.isEmpty then some .permission
  else if ps.any (·.present) then none else some .demand
/-- The extent through which an access to an address passes. -/
def extentFor (t : Team) (ld st : Bool) (va : Nat) : Option Extent :=
  t.extents.find? fun e => e.has va && e.permits ld st && e.present
/-- The order in which R176 takes the kinds. -/
def TrapKind.rank : TrapKind → Nat
  | .address => 0 | .misaligned => 1 | .range => 2 | .permission => 3 | .demand => 4 | _ => 5
/-- The kind of a list that R176 takes first. -/
def firstKind : List TrapKind → Option TrapKind
  | [] => none
  | k :: t =>
    match firstKind t with
    | none => some k
    | some j => if j.rank < k.rank then some j else some k
/-- The kinds of fault of one byte of a global address, for a load, a store or both; an access that is both may find each permission
in a range of its own (R173, R291). -/
def byteFaults (t : Team) (ld st : Bool) (va : Nat) : List TrapKind :=
  (if ld then (checkByte t true false va).toList else []) ++ (if st then (checkByte t false true va).toList else [])
/-- Every kind of fault that an access of `size` bytes at a lane address meets (R157, R158, R173, R175): a load, a store or
both, with or without the scratchpad and the mirror window, aligned to `align` bytes. -/
def accessFaults (t : Team) (ld st local_ mirror : Bool) (align va size : Nat) : List TrapKind :=
  (match placeOf va with
   | .bad => [.address]
   | .scratch o => if !local_ then [.address] else if o + size ≤ t.scratchBytes then [] else [.range]
   | .mirror o =>
     if !mirror || t.group.isEmpty then [.address] else if o + size ≤ t.scratchBytes then [] else [.range]
   | .global => (List.range size).flatMap fun i =>
       if placeOf (va + i) = .global then byteFaults t ld st (va + i) else [.address]) ++
  (if va % align = 0 then [] else [.misaligned])
/-- One check of an access: its lane, address and size, what it asks (0 load, 1 store, 2 both; R370), and the faults it meets. -/
structure Check where
  lane : Nat
  va : Nat
  size : Nat
  access : Nat
  faults : List TrapKind
  deriving DecidableEq, Repr
/-- The access code of R370 for a list of failing checks. -/
def accessOf (cs : List Check) : Nat :=
  match cs with
  | [] => 0
  | c :: r => if r.all fun d => d.access == c.access then c.access else 2
/-- R176 over the accesses of an instruction: the kind taken, the address of its lowest lane, the mask of its lanes and its access
code. Among the checks of the lowest lane the first counts. -/
def laneFault (cs : List Check) : Option (TrapKind × Nat × DWord × Nat) :=
  match firstKind (cs.filterMap fun c => firstKind c.faults) with
  | none => none
  | some k =>
    match cs.filter fun c => c.faults.contains k with
    | [] => none
    | c :: r =>
      let low := r.foldl (fun m d => if d.lane < m.lane then d else m) c
      some (k, low.va, lanesMask ((c :: r).map (·.lane)).eraseDups, accessOf (c :: r))

/-- What a page gives the lines in it, and who asks: HOME, key index, CLASS, the context that makes the access (R163, R164, R166), and for one that
no context makes the slice by whose colour the lines are homed (R301). -/
structure Attr where
  home : BitVec 2 := 0
  key : Nat := 0
  cls : BitVec 2 := 0
  ctx : Option Nat := none
  slice : Option Nat := none
  deriving DecidableEq, Repr
def Acc.attr (a : Acc) : Attr := { home := a.home, key := a.key, cls := a.cls, ctx := a.ctx, slice := a.slice }
/-- An access with its physical place: flat address and the page's attributes, as the extent through which it passes gives them. -/
def mkAcc (t : Team) (ld st : Bool) (lane elem va size : Nat) : Acc :=
  let a : Acc := { lane := lane, elem := elem, va := va, size := size, ctx := some t.ctx }
  match placeOf va with
  | .scratch o => { a with pa := t.scratchFlat o }
  | .mirror o => { a with pa := t.scratchFlat o }
  | .bad => a
  | .global =>
    match extentFor t (ld && !st) st va with
    | some e => { a with pa := e.plo + (va - e.vlo), home := e.home, key := e.key, sysatom := e.sysatom, cls := e.cls }
    | none => a

/-- The access of a page holds device memory of HOME 00 or 10 (R350). -/
def counterPage (a : Acc) : Bool := inHbm a.pa && (a.home == 0 || a.home == 2)
/-- The lines of a page are held in L2 (R163, R183). -/
def Attr.inL2 (p : Attr) (pa : Nat) : Bool := (inHbm pa && (p.home == 0 || p.home == 2)) || (inHost pa && p.home == 0)
/-- A line may have a copy in a core's L1 for an access of a context (R163, R181): that of a page of HOME 00 or 10 (log entry
96), or of a pinned frame in the named core alone. -/
def cacheable (core : Nat) (p : Attr) (pa : Nat) : Bool := p.ctx.isSome && (p.inL2 pa || (inFrame pa && coreOfFlat pa == core))

end Sys2Proof.Machine
end

