-- ==== Sys2Proof/Machine/Operands.lean ====
section
/-! DEFINITION. The operand forms: registers, elements in lanes, lane addresses, and the look-up of crews and teams. -/
namespace Sys2Proof.Machine

/-- A scalar register; s0 reads as zero (R41). -/
def Crew.getS (c : Crew) (r : SReg) : DWord := if r = 0 then 0 else Sparse.get c.sregs r.toNat
/-- Write a scalar register; a write to s0 is discarded (R41). -/
def Crew.setS (c : Crew) (r : SReg) (v : DWord) : Crew :=
  if r = 0 then c else { c with sregs := Sparse.set c.sregs r.toNat v }
/-- Lane l of vector register r (R42). -/
def Crew.getV (c : Crew) (r l : Nat) : Word := Sparse.get c.vregs (64 * r + l)
def Crew.setV (c : Crew) (r l : Nat) (v : Word) : Crew := { c with vregs := Sparse.set c.vregs (64 * r + l) v }
/-- A 64-bit element of an even-aligned pair (R43). -/
def Crew.getPair (c : Crew) (r l : Nat) : DWord := c.getV (r + 1) l ++ c.getV r l
def Crew.setPair (c : Crew) (r l : Nat) (v : DWord) : Crew :=
  (c.setV r l (v.extractLsb' 0 32)).setV (r + 1) l (v.extractLsb' 32 32)
/-- Write several lanes of a vector register. -/
def Crew.setLanes (c : Crew) (r : Nat) (l : List (Nat × Word)) : Crew := l.foldl (fun c p => c.setV r p.1 p.2) c
/-- Lane l of a crew takes part (R11). -/
def Crew.isActive (c : Crew) (width l : Nat) : Bool := activeLane width c.mode (c.getS (mGuard c.mode)) l
/-- The active lanes, rising. -/
def Crew.actives (c : Crew) (width : Nat) : List Nat := below width (c.isActive width)

/-- The element of a type that a lane holds, one to a lane (R82). -/
def elemOf (ty : Nat) (half : Bool) (w : Word) : Nat :=
  match tyBits ty with
  | 16 => (if half then w >>> 16 else w).toNat % 65536
  | 8 => w.toNat % 256
  | 4 => w.toNat % 16
  | _ => w.toNat
/-- A lane with an element of a type written, one to a lane (R82). -/
def withElem (ty : Nat) (half : Bool) (old : Word) (x : Nat) : Word :=
  match tyBits ty with
  | 16 => if half then BitVec.ofNat 16 x ++ old.extractLsb' 0 16 else old.extractLsb' 16 16 ++ BitVec.ofNat 16 x
  | 8 => BitVec.ofNat 32 (x % 256)
  | 4 => BitVec.ofNat 32 (x % 16)
  | _ => BitVec.ofNat 32 x
/-- Bits lo and up of a lane receive a value of some bits; the other bits are kept, or cleared. -/
def Dst.apply (d : Dst) (old : Word) (x : DWord) : Word :=
  let m := (BitVec.allOnes 32 >>> (32 - d.bits)) <<< d.lo
  let v := (x.setWidth 32 <<< d.lo) &&& m
  if d.clear then v else (old &&& ~~~m) ||| v
/-- A loaded value is written to its destination (R105). -/
def Crew.setDst (c : Crew) (d : Dst) (x : DWord) : Crew :=
  if d.bits = 64 then c.setPair d.reg d.lane x else c.setV d.reg d.lane (d.apply (c.getV d.reg d.lane) x)

/-- The lane address of LD, ST, PREF and the atomics (R196). -/
def laneAddr (c : Crew) (a : SReg) (b : VReg) (l : Nat) : DWord :=
  if mAw c.mode then c.getS a + c.getPair b.toNat l else c.getS a + (c.getV b.toNat l).signExtend 64

/-- The fields of the gang register (R57, R278). -/
def gangN (g : DWord) : Nat := (g.extractLsb' 32 3).toNat
def gangAt (g : DWord) (i : Nat) : Nat := (g.extractLsb' (5 * i) 5).toNat
def gangMembers (g : DWord) : List Nat := (List.range (gangN g)).map (gangAt g)
/-- The member set, rising (R272). -/
def gangSet (g : DWord) : List Nat := (gangMembers g).foldl setAdd []

/-- The crew on a slot, its team, context and function. -/
def State.crew? (s : State) (k : Nat) : Option Crew := Tbl.get? s.crews k
def State.team? (s : State) (t : Nat) : Option Team := Tbl.get? s.teams t
def State.setCrew (s : State) (k : Nat) (c : Crew) : State := { s with crews := Tbl.put s.crews k c }
def State.setTeam (s : State) (t : Nat) (x : Team) : State := { s with teams := Tbl.put s.teams t x }
def State.modCrew (s : State) (k : Nat) (f : Crew → Crew) : State := { s with crews := Tbl.upd s.crews k f }
def State.modTeam (s : State) (t : Nat) (f : Team → Team) : State := { s with teams := Tbl.upd s.teams t f }
def State.modCore (s : State) (c : Nat) (f : Core → Core) : State := { s with cores := Tbl.put s.cores c (f (Tbl.getD s.cores c {})) }
def State.core (s : State) (c : Nat) : Core := Tbl.getD s.cores c {}
def State.func (s : State) (f : Nat) : Func := Tbl.getD s.funcs f {}
def State.modFunc (s : State) (f : Nat) (g : Func → Func) : State := { s with funcs := Tbl.put s.funcs f (g (s.func f)) }
def State.slice (s : State) (i : Nat) : Slice := Tbl.getD s.slices i {}
def State.modSlice (s : State) (i : Nat) (g : Slice → Slice) : State := { s with slices := Tbl.put s.slices i (g (s.slice i)) }
def State.modCtx (s : State) (i : Nat) (g : Ctx → Ctx) : State := { s with ctxs := Tbl.upd s.ctxs i g }
def State.modEntry (s : State) (i : Nat) (g : Entry → Entry) : State := { s with entries := Tbl.upd s.entries i g }
def State.modOp (s : State) (n : Nat) (g : Op → Op) : State := { s with ops := Tbl.upd s.ops n g }
/-- The core and the slot of a crew key. A crew whose slot has been spilled (R380) has a key of 2^17 or more. -/
def coreOf (key : Nat) : Nat := key / 64 % 2048
def slotOf (key : Nat) : Nat := key % 64
/-- The function of a context, of a team (R393). -/
def funcOfCtx (s : State) (ctx : Nat) : Nat := match Tbl.get? s.ctxs ctx with | some x => x.func | none => 0
def funcOfTeam (s : State) (t : Nat) : Nat := match s.team? t with | some x => funcOfCtx s x.ctx | none => 0
/-- The team of a crew key. -/
def teamOfCrew (s : State) (k : Nat) : Option Team := match s.crew? k with | some c => s.team? c.team | none => none
/-- The keys of the crews on a core. -/
def crewsOn (s : State) (core : Nat) : List Nat := (s.crews.map (·.1)).filter fun k => decide (k < 2 ^ 17) && coreOf k == core

end Sys2Proof.Machine
end

