-- ==== Sys2Proof/Machine/Perform.lean ====
section
/-! DEFINITION. What every agent shares: the time base, the emission of trace records, outstanding operations and their
counters, and the rollback of speculation. -/
namespace Sys2Proof.Machine

/-- A die's copy of the time base (R36): behind the master by at most 64 units, never below what it has shown. -/
def dieTime (s : State) (die : Nat) : Nat :=
  max (Tbl.getD s.time.copies die 0) (s.time.master - Config.dieLag s.clock die % 65)
/-- The copy has been read. -/
def noteTime (s : State) (die : Nat) : State :=
  { s with time := { s.time with copies := Tbl.put s.time.copies die (dieTime s die) } }

/-- The send time of a message from a source (R398): it follows what the source has recorded (R401). -/
def sendTime (s : State) (die src : Nat) : Nat := max (dieTime s die) (Tbl.getD s.fabric.last (die * 64 + src) 0)
/-- A message sent at a time has come to a core: what the core records from then on follows it (R398, R401). -/
def heard (s : State) (core sent : Nat) : State :=
  let k := core / 32 * 64 + core % 32
  { s with fabric := { s.fabric with last := Tbl.put s.fabric.last k (max (Tbl.getD s.fabric.last k 0) (sent + 1)) } }

/-- ACTBUD0 and ACTBUD1 of a die (R447). -/
def budgetOf (s : State) (die : Nat) : DWord × DWord := Tbl.getD s.svc.budgets die (0x0100100008004000, 0x10000400)
/-- What an activity has spent in this period at a place (R447): 0 scrub, 1 migration, 2 compactor, 3 trace, 4 sweeper, 5 carve, 6 a
way-group change. -/
def spentOf (s : State) (activity place : Nat) : Nat := Tbl.getD s.svc.spent (activity * 65536 + place) 0
def spend (s : State) (activity place n : Nat) : State :=
  { s with svc := { s.svc with spent := Tbl.put s.svc.spent (activity * 65536 + place) (spentOf s activity place + n) } }

/-- R404: the function's filter delivers a record; `crew` is the crew that the record names. -/
def delivers (s : State) (func die : Nat) (event arg : BitVec 8) (spec : Bool) (crew : Option Crew) : Bool :=
  let t := (s.func func).trace
  let cl := event.toNat / 16
  t.cfg.getLsbD 0 && (cl == 15 || t.filt.getLsbD (48 + cl)) && t.dies.getLsbD die &&
  (event != 0x40 || (decide ((t.filt.extractLsb' 32 8).toNat ≤ arg.toNat) && decide (arg.toNat ≤ (t.filt.extractLsb' 40 8).toNat))) &&
  (!spec || !t.filt.getLsbD 31) &&
  (match crew with
   | none => true
   | some c => c.gate && c.cmask.getLsbD cl)
/-- The function delivers without loss (R402: LOSSLESS unless FORCED). -/
def lossless (s : State) (func : Nat) : Bool := (s.func func).trace.cfg.getLsbD 1 && !(s.func func).trace.stat.getLsbD 4
/-- The function that runs on a core: that of its teams that are not halted (R393, R409). -/
def coreFunc (s : State) (core : Nat) : Option Nat :=
  match s.teams.find? fun p => p.2.core == core && p.2.halt == .running && !p.2.retired with
  | some (_, t) => some (funcOfCtx s t.ctx)
  | none => none
/-- Free positions of a function's buffer (R405, R409). -/
def traceSpace (s : State) (func : Nat) : Nat :=
  let t := (s.func func).trace
  let held := (s.cores.filter fun p => p.2.grantee == func).foldl (fun n p => n + p.2.granted) 0 +
    (s.fabric.items.filter fun i => i.func == func && i.granted).length
  2 ^ ((t.buf.extractLsb' 60 4).toNat + 8) - (t.wp.toNat - t.rp.toNat) - held
/-- A source drops a record (R414, R415). -/
def dropRecord (s : State) (func die src : Nat) : State :=
  let k := (func * 64 + die) * 64 + src
  let s := s.modFunc func fun f => { f with trace := { f.trace with drop := f.trace.drop + 1 } }
  { s with fabric := { s.fabric with drops := Tbl.put s.fabric.drops k (Tbl.getD s.fabric.drops k 0 + 1) } }
/-- The function's records are copied to the PF's buffer (R407). -/
def shared (s : State) (func : Nat) : Bool := (s.func func).trace.cfg.getLsbD 2 && func != 0
/-- A record takes its place among those that wait: of one source and one step S records come before A records (R397). -/
def placeItem (i : TraceItem) : List TraceItem → List TraceItem
  | [] => [i]
  | j :: t =>
    if i.kindS && !j.kindS && j.die == i.die && j.src == i.src && j.clock == i.clock then { i with stamp := min i.stamp j.stamp } :: j :: t
    else j :: placeItem i t
/-- A record leaves its source. The stamps of one source never decrease (R397). -/
def sendRecord (s : State) (i : TraceItem) : State :=
  let k := i.die * 64 + i.src
  let t := max i.stamp (Tbl.getD s.fabric.last k 0)
  let items := placeItem { i with stamp := t, clock := s.clock } s.fabric.items
  { noteTime s i.die with fabric := { s.fabric with items := items, last := Tbl.put s.fabric.last k t } }
/-- A record finds no place for its function and is dropped; its copy for the PF goes on (R407, R414). -/
def loseRecord (s : State) (i : TraceItem) : State :=
  let s := dropRecord s i.func i.die i.src
  if shared s i.func then sendRecord s { i with own := false } else s
/-- A stallable record of a crew (R394 kind S, R409, R410, R414): it takes a reservation, stalls a lossless function, or is
dropped. `cause` is the send time of the message that caused it, plus one (R398). -/
def emitS (s : State) (key : Nat) (event arg : BitVec 8) (payload : Word) (spec : Bool := false) (cause : Nat := 0) : State :=
  match s.crew? key with
  | none => s
  | some c =>
    let func := funcOfTeam s c.team
    let core := coreOf key
    let die := core / 32
    let i : TraceItem := { die := die, src := core % 32, func := func, event := event, arg := arg, payload := payload, slot := slotOf key,
                           spec := spec, stamp := max (dieTime s die) cause, granted := false, crew := some key,
                           ctx := (s.team? c.team).map (·.ctx), kindS := true }
    if delivers s func die event arg spec (some c) then
      let s := { s with fabric := { s.fabric with wanted := s.fabric.wanted + 1 } }
      if 0 < (s.core core).granted ∧ (s.core core).grantee = func then
        sendRecord (s.modCore core fun k => { k with granted := k.granted - 1 }) { i with granted := true }
      else if lossless s func then { s with fabric := { s.fabric with starved := true } }
      else loseRecord s i
    else s
/-- A record that never holds up its emitter (R394 kind A, R411): it takes an arrival entry, or is dropped when the source's
64 are full. `crew` is the crew it names; `cause` is the send time of the message that caused it, plus one (R398). -/
def emitA (s : State) (die src func : Nat) (crew : Option Nat) (event arg : BitVec 8) (payload : Word) (cause : Nat := 0)
    (ctx : Option Nat := none) : State :=
  let i : TraceItem := { die := die, src := src, func := func, event := event, arg := arg, payload := payload,
                         slot := match crew with | some k => slotOf k | none => 0,
                         spec := false, stamp := max (dieTime s die) cause, granted := false, crew := crew, ctx := ctx }
  if delivers s func die event arg false (crew.bind s.crew?) then
    if (s.fabric.items.filter fun i => i.die == die && i.src == src && !i.granted && i.own).length < 64 then sendRecord s i
    else loseRecord s i
  else s
/-- A kind A record of a core, for a crew on it. -/
def emitCrewA (s : State) (key : Nat) (event arg : BitVec 8) (payload : Word) (cause : Nat := 0) : State :=
  match s.crew? key with
  | none => s
  | some c => emitA s (coreOf key / 32) (coreOf key % 32) (funcOfTeam s c.team) (some key) event arg payload cause ((s.team? c.team).map (·.ctx))
/-- Bits [33:2] of a program counter, as payloads hold it (R394). -/
def pcBits (pc : Addr) : Word := pc.extractLsb' 2 32
/-- The next issued instruction of a crew is one that R406 samples, and its record is delivered. -/
def samples (s : State) (key : Nat) (c : Crew) (op : BitVec 8) : Bool :=
  let f := funcOfTeam s c.team
  (c.issued + 1) % 2 ^ (((s.func f).trace.filt.extractLsb' 24 4).toNat + 4) == 0 &&
    delivers s f (coreOf key / 32) 0x50 op c.spec.isSome (some c)

/-- The outstanding operations of a crew in a class: issued and not counted (R50). -/
def opsOf (s : State) (key : Nat) (cls : Option Cls) : List (Nat × Op) :=
  s.ops.filter fun p => p.2.crew == key && p.2.cls == cls
/-- A class counter (R50). -/
def classCount (s : State) (key : Nat) (cls : Cls) : Nat := (opsOf s key (some cls)).length
/-- An operation issues and takes the next number. -/
def addOp (s : State) (o : Op) : State :=
  { noteTime s (o.core / 32) with
    ops := Tbl.put s.ops s.nextOp { o with stamp := sendTime s (o.core / 32) (o.core % 32) }, nextOp := s.nextOp + 1 }
/-- An operation is complete, and every complete operation of its crew and class without an older incomplete one is counted:
completions are counted in issue order within the class (R50). -/
def completeOp (s : State) (n : Nat) : State :=
  match Tbl.get? s.ops n with
  | none => s
  | some o =>
    let ops := Tbl.put s.ops n { o with done := true }
    let same := fun (p : Nat × Op) => p.2.crew == o.crew && p.2.cls == o.cls
    if o.cls = none then { s with ops := Tbl.del ops n }
    else
      { s with ops := ops.filter fun p =>
          !(same p && p.2.done && !(ops.any fun q => same q && decide (q.1 < p.1) && !q.2.done)) }
/-- A fault is held against an operation, unless its region was aborted (R107, R359). -/
def holdFault (s : State) (n : Nat) (o : Op) (regs : List Nat) (shape : Option Nat) (info : TrapInfo) : State :=
  if o.quiet then s
  else s.modCrew o.crew fun c =>
    { c with held := c.held ++ [{ op := n, cls := o.cls, regs := regs, shape := shape,
                                  info := { info with fault := o.pc, word := o.word, held := true },
                                  raised := c.pending.isSome }] }

/-- Stores as R208 counts them. -/
def OpKind.isStore : OpKind → Bool
  | .store | .release _ | .mirror _ _ => true
  | _ => false
/-- Engine operations (R223): they own their destination lines from issue. -/
def OpKind.isEngine : OpKind → Bool
  | .copy _ _ | .binw _ | .drain _ _ | .drainAdd _ => true
  | _ => false
/-- Every access is done, and every delivery of a mirror store; an engine operation is performed when it is done. -/
def Op.performed (o : Op) : Bool :=
  o.done || (!o.kind.isEngine && (o.accs.all fun a => a.st != .todo || a.clip) && match o.kind with | .mirror ms _ => ms.all (·.2) | _ => true)
/-- The offset in a team's scratchpad of a flat SRAM address. -/
def scratchOff (t : Team) (a : Nat) : Nat :=
  let o := a - scratchAddr t.core 0 0
  (t.units.findIdx fun u => u == o / Config.unitBytes) * Config.unitBytes + o % Config.unitBytes
/-- Bits [27:0] of a ROLLBACK record (R394): the line or scratchpad offset, or, for a cause that names none, a free value (log
entry 13). -/
def rollbackLow (s : State) (key cause line : Nat) : Word :=
  match teamOfCrew s key with
  | some t =>
    if 5 ≤ cause then Config.rollbackPlace s.clock &&& 0x0FFFFFFF
    else if inScratch (line * 128) then BitVec.ofNat 32 (scratchOff t (line * 128) / 128 % 8192)
    else BitVec.ofNat 32 (line % 2 ^ 28)
  | none => 0
/-- R329: a speculating crew is put back to the barrier wait of its BARS; loads that it issued since write nothing. `cause`
and `line` are those of the ROLLBACK record (R394), `sent` the send time of the message that causes it, plus one (R398). -/
def rollback (s : State) (key cause line : Nat) (sent : Nat := 0) : State :=
  match s.crew? key with
  | none => s
  | some c =>
    match c.spec with
    | none => s
    | some sp =>
      let s := emitCrewA s key 0x15 (BitVec.ofNat 8 sp.handle) (BitVec.ofNat 32 (cause * 2 ^ 28) ||| rollbackLow s key cause line) sent
      let c := { c with
        pc := sp.cp.pc, sregs := sp.cp.sregs, mode := sp.cp.mode, gang := sp.cp.gang, rndcnt := sp.cp.rndcnt
        gangMarks := c.gangMarks ++ sp.cp.gangMarks.filter fun m => !c.gangMarks.any fun k => gangSet k.2 == gangSet m.2
        vregs := sp.shadow.foldl (fun v p =>
          (List.range p.2.length).foldl (fun v l => Sparse.set v (64 * p.1 + l) (p.2.getD l 0)) v) c.vregs
        buf := [], held := c.held.filter fun h => decide (h.op < sp.first), spec := none, spare := none, fenceAt := none
        rolled := some (sp.handle, sp.phase), wait := .barrier sp.handle sp.phase }
      let s := s.setCrew key c
      { s with ops := s.ops.map fun p =>
          if p.2.crew == key && decide (sp.first ≤ p.1) then (p.1, { p.2 with accs := [], quiet := true }) else p }
/-- R328: a write to a line puts back the crews that track it, but for the writer; `pick` gives the cause for each crew. -/
def rollbackLine (s : State) (writer : Option Nat) (line : Nat) (pick : Nat → Option Nat) (sent : Nat := 0) : State :=
  (s.crews.filter fun p => some p.1 != writer &&
      (match p.2.spec with | some sp => sp.reads.contains line | none => false)).foldl
    (fun s p => match pick p.1 with | some cause => rollback s p.1 cause line sent | none => s) s
/-- The cause of R328 for a store: 1 for crews of the writing core, 2 by the directory. -/
def storeCause (core : Option Nat) (key : Nat) : Option Nat := if core = some (coreOf key) then some 1 else some 2

/-- A relaunch of a halted team joins the ready queue, once the halt is complete, and the team's relaunch entries are removed (R308, R309,
R339). -/
def queueRelaunch (s : State) (tid : Nat) : State :=
  { s.modTeam tid (fun t => match t.halt with | .halted _ => { t with relaunch := some s.nextId } | _ => { t with due := true }) with
    monitors := s.monitors.filter fun k => !(k.team == tid && k.relaunch), nextId := s.nextId + 1 }
/-- The six conditions of WAITC on z-byte values (R62, R306): eq, ne, signed lt, signed ge, unsigned lt, unsigned ge. -/
def condHolds (c : BitVec 3) (z x y : Nat) : Bool :=
  let xs := (BitVec.ofNat (8 * z) x).toInt
  let ys := (BitVec.ofNat (8 * z) y).toInt
  match c.toNat with
  | 0 => x == y
  | 1 => x != y
  | 2 => decide (xs < ys)
  | 3 => decide (ys ≤ xs)
  | 4 => decide (x < y)
  | _ => decide (y ≤ x)

end Sys2Proof.Machine
end

