-- ==== Sys2Proof/Machine/Pod.lean ====
section
/-! DEFINITION. Pod window space (10 R299 to R304, 16 R472, R473): the tables that an access passes through, what this module serves
itself, and what it waits for the pod to answer. -/
namespace Sys2Proof.Machine

/-- The channel set of an HBM address (R424). -/
def channelSet (pa : Nat) : Nat := pa / 0x180000000
/-- The fields of a pod window address (R299). -/
def podPeer (pa : Nat) : Nat := pa / 2 ^ 40 % 1024
def podWin (pa : Nat) : Nat := pa / 2 ^ 34 % 64
def podOff (pa : Nat) : Nat := pa % 2 ^ 34
/-- A 64-bit entry of a firmware table. -/
def tableWord (s : State) (a : Nat) : DWord := BitVec.ofNat 64 (leVal (readBytes s 0 a 8))

/-- R473: the station that carries a request to a module, of a target line or context number h: of the stations of the routing entry that are up
the one that h picks; none where the entry is not valid, none of them is up, or the keys of the one picked are not loaded, which then carries no
traffic (R471). -/
def stationFor (s : State) (func m h : Nat) : Option Nat :=
  match (s.func func).routeBase with
  | none => none
  | some b =>
    let e := tableWord s (b + 8 * m)
    let up := below 18 fun i => e.getLsbD i && (Tbl.getD s.svc.stations i {}).up
    if e.getLsbD 63 && e.extractLsb' 18 45 == 0 then (up[h % up.length]?).filter fun i => (Tbl.getD s.svc.stations i {}).keyed else none
/-- Checks 1 and 2 of R302 at the issuing module: the target module, RSELF and RFUNC, or the reason. -/
def podIssuer (s : State) (func pa : Nat) : Except Nat (Nat × Nat × Nat) :=
  match (s.func func).peerBase with
  | none => .error 1
  | some b =>
    let e := tableWord s (b + 8 * podPeer pa)
    let m := (e.extractLsb' 0 10).toNat
    if !e.getLsbD 63 || e.extractLsb' 27 36 != 0 then .error 1
    else if m ≠ s.svc.modid.toNat ∧ stationFor s func m (pa / 128 % 512) = none then .error 2
    else .ok (m, (e.extractLsb' 17 10).toNat, (e.extractLsb' 10 7).toNat)
/-- What an access asks of a window (R301, R302). -/
inductive PodKind where
  | load | store | atomic
  deriving DecidableEq, Repr
/-- The die of a channel set (R424). -/
def dieOfSet (k : Nat) : Nat := 2 * (k / 8) + k % 8 / 4
/-- A slice is under reset (R428, R437). -/
def underReset (s : State) (i : Nat) : Bool := (s.slice i).stat.extractLsb' 4 4 == 6 && (s.slice i).stat.extractLsb' 0 4 != 0
/-- A valid window entry (R301). -/
structure Window where
  base : Nat
  size : Nat
  key : Nat
  sysatom : Bool
  rights : DWord
  deriving DecidableEq, Repr
/-- Entry i of the window table at a flat address: none when it is not valid. -/
def windowAt (s : State) (b i : Nat) : Option Window :=
  let e0 := tableWord s (b + 16 * i)
  let e1 := tableWord s (b + 16 * i + 8)
  let base := (e0.extractLsb' 16 36).toNat * 65536
  let size := (e1.extractLsb' 0 19).toNat * 65536
  if !e0.getLsbD 63 || e0.extractLsb' 59 4 != 0 || e0.extractLsb' 52 4 != 0 || e0.extractLsb' 0 16 != 0 || e1.extractLsb' 44 20 != 0 ||
      e1.extractLsb' 19 17 != 0 || size == 0 || decide (262144 * 65536 < size) || decide (Config.hbmBytes < base + size) then none
  else some { base := base, size := size, key := (e1.extractLsb' 36 7).toNat, sysatom := e1.getLsbD 43, rights := e0 }
/-- Checks 3 to 6 of R302 at the target, which is this module: the target address, key and SYSATOM, or the reason. -/
def podTarget (s : State) (rfunc q w off z : Nat) (kind : PodKind) : Except Nat (Nat × Nat × Bool) :=
  match Tbl.get? s.funcs rfunc with
  | none => .error 3
  | some f =>
    match f.winBase with
    | none => .error 3
    | some b =>
      match if f.enabled then windowAt s b (64 * q + w) else none with
      | none => .error 3
      | some v =>
        let pa := v.base + off
        if v.size < off + z then .error 4
        else if !v.rights.getLsbD (match kind with | .load => 56 | .store => 57 | .atomic => 58) then .error 5
        else if underReset s f.slice || s.svc.retiredSets.contains (channelSet pa) || s.svc.fenced.contains (dieOfSet (channelSet pa)) then
          .error 6
        else .ok (pa, v.key, v.sysatom)
/-- How far an access has come: it lies on this module, the pod has answered it, or it waits for the answer. -/
inductive Reach where
  | here (a : Acc) | answered (r : PodResult) | waits
  deriving DecidableEq, Repr
/-- The reach of an access of a function (R302): an access to this module's own index is served here. -/
def reach (s : State) (func : Nat) (kind : PodKind) (a : Acc) : Reach :=
  if inPod a.pa then
    match podIssuer s func a.pa with
    | .error n => .answered (.refused n)
    | .ok (m, q, rfunc) =>
      if m = s.svc.modid.toNat then
        match podTarget s rfunc q (podWin a.pa) (podOff a.pa) a.size kind with
        | .ok (pa, key, sa) => .here { a with pa := pa, key := key, sysatom := sa, home := 0, cls := 0, ctx := none, slice := some (s.func rfunc).slice }
        | .error n => .answered (.refused n)
      else match a.resp with
        | some r => .answered r
        | none => .waits
  else .here a
/-- Where an access acts: behind a window of this module's own index it is the target address (R302). -/
def landing (s : State) (team : Nat) (kind : PodKind) (a : Acc) : Acc :=
  if inPod a.pa then (match reach s (funcOfTeam s team) kind a with | .here b => b | _ => a) else a
/-- What an operation asks of a window. -/
def OpKind.podKind (k : OpKind) : PodKind :=
  match k with
  | .load | .shape _ _ | .tile _ _ => .load
  | .atomic _ _ _ | .tdep _ => .atomic
  | _ => .store
/-- A remote-permission fault (R370): reason, and the peer and window of the access. -/
def remoteInfo (c : Crew) (reason pa addr : Nat) (mask : DWord) : TrapInfo :=
  { kind := .remote, cause := BitVec.ofNat 8 reason, resume := c.pc, fault := c.pc, addr := BitVec.ofNat 64 addr, mask := mask,
    detail := BitVec.ofNat 64 (podWin pa * 2 ^ 10 + podPeer pa) }
/-- A poison fault of an operation. -/
def poisonInfo (c : Crew) (addr : Nat) (mask : DWord) : TrapInfo :=
  { kind := .poison, resume := c.pc, fault := c.pc, addr := BitVec.ofNat 64 addr, mask := mask }
/-- The lane accesses of lowest lane in a list, with the mask of its lanes. -/
def lowAcc (as : List Acc) : Option (Acc × DWord) :=
  match as with
  | [] => none
  | a :: r => some (r.foldl (fun m b => if b.lane < m.lane then b else m) a, lanesMask (as.map (·.lane)).eraseDups)
/-- The reason of a refused answer; none for an answer with data. -/
def PodResult.reason? : PodResult → Option Nat
  | .data _ => none
  | .poisoned _ => none
  | .refused n => some n

end Sys2Proof.Machine
end

