-- ==== Sys2Proof/Machine/Cache.lean ====
section
/-! DEFINITION. The caches and the point of coherence: L1 in a core's SRAM (06 R178, R181, R469), L2 at the home segments with the
directory and its replacement (R182 to R184), recalls and invalidations (07 R208, R216), monitors, and the performing of a write. -/
namespace Sys2Proof.Machine

/-- The home segment of a line under a colour (R182). -/
def homeSegment (colour : BitVec 10) (pa : Nat) : Nat :=
  let x := BitVec.ofNat 45 (pa / 128)
  (x.extractLsb' 0 10 ^^^ x.extractLsb' 10 10 ^^^ x.extractLsb' 20 10 ^^^ x.extractLsb' 30 10 ^^^
    (x.extractLsb' 40 5).setWidth 10 ^^^ colour).toNat
/-- The colour of a context's slice (R423). -/
def colourOf (s : State) (ctx : Nat) : BitVec 10 :=
  match Tbl.get? s.ctxs ctx with
  | some x => (s.slice x.slice).mem.extractLsb' 22 10
  | none => 0
/-- The home segment of an address for a team's context. -/
def segmentOf (s : State) (team pa : Nat) : Nat :=
  homeSegment (match s.team? team with | some t => colourOf s t.ctx | none => 0) pa
/-- The slice that owns the channel set of an address (R423, R424). -/
def sliceOfAddr (s : State) (pa : Nat) : Option Nat :=
  (List.range 16).find? fun i =>
    let m := (s.slice i).mem
    m != 0 && decide ((m.extractLsb' 0 8).toNat ≤ channelSet pa ∧ channelSet pa ≤ (m.extractLsb' 8 8).toNat)
/-- The slice in whose L2 a line is held: that of the context, or for an access that no context makes that of the page or window, else of the
address. -/
def sliceFor (s : State) (p : Attr) (line : Nat) : Nat :=
  match p.ctx.bind (Tbl.get? s.ctxs) with
  | some x => x.slice
  | none => p.slice.getD ((sliceOfAddr s (line * 128)).getD 0)
/-- The way-groups of a slice that leave it, or whose pinning changes: they take no fill (R183, R429). -/
def Slice.closedGroups (x : Slice) : List Nat := x.taken ++ x.leaving.filterMap fun p => match p with | .wayGroup g => some g | _ => none
/-- The ways of a slice in each set that take fills: those of its pinned way-groups, or of the others (R20, R183). -/
def Slice.ways (x : Slice) (pinned : Bool) : List Nat :=
  let wg := x.mem.extractLsb' 48 16
  let pin := x.mem.extractLsb' 32 16
  (List.range 16).flatMap fun g =>
    if wg.getLsbD g && pin.getLsbD g == pinned && !x.closedGroups.contains g then [2 * g, 2 * g + 1] else []

/-- The L1 copy of a line in a core. -/
def l1Line (s : State) (core line : Nat) : Option L1Line := Tbl.get? (s.core core).l1 line
/-- The line in L2. -/
def l2Line (s : State) (line : Nat) : Option L2Line := s.l2.find? fun e => e.line == line
/-- Some byte of the line differs, or may differ, from what HBM holds. -/
def dirtyLine (s : State) (line : Nat) : Bool := s.undo.any fun p => lineOf p.1 == line
/-- Lines are written back to HBM. -/
def writeBack (s : State) (sel : Nat → Bool) : State := { s with undo := s.undo.filter fun p => !sel (lineOf p.1) }
/-- Dirty copies of lines pass to the home segments (R375): a sector takes the poison of a word of it, and one of which no word is poisoned is
written whole. -/
def deposit (s : State) (sel : Nat → Bool) : State :=
  s.cores.foldl (fun s p => p.2.l1.foldl (fun s (e : Nat × L1Line) =>
    if e.2.dirty && sel e.1 && inHbm (e.1 * 128) && !(s.poison.isEmpty && e.2.pois.isEmpty) then
      (List.range 4).foldl (fun s i =>
        let g := e.1 * 128 + 32 * i
        { s with poison := if e.2.pois.any fun w => w / 8 == i then setAdd s.poison g else setDel s.poison g }) s
    else s) s) s
/-- Lines are written back to HBM, and stay in the caches clean. -/
def cleanLines (s : State) (sel : Nat → Bool) : State :=
  let clean := fun (e : Nat × L1Line) => (e.1, if sel e.1 then { e.2 with dirty := false } else e.2)
  let s := deposit s sel
  writeBack { s with cores := Tbl.mapV s.cores fun k => { k with l1 := k.l1.map clean } } sel
/-- No cache can hold the line dirty any more: what it holds is in HBM. -/
def settleDirty (s : State) (line : Nat) : State :=
  if (l2Line s line).isSome || s.cores.any fun p => match Tbl.get? p.2.l1 line with | some e => e.dirty | none => false then s
  else writeBack s (· == line)
/-- The core's own copy of a line is dropped. A dirty one goes to the home segment, or to HBM. -/
def dropOwnLine (s : State) (core line : Nat) : State :=
  if (l1Line s core line).isSome || (s.core core).inv.contains line then
    settleDirty ((deposit s (· == line)).modCore core fun x => { x with l1 := Tbl.del x.l1 line, inv := setDel x.inv line }) line
  else s
/-- The core's own copy of a line is dropped if its invalidation has been received (R209, R216). -/
def dropStale (s : State) (core line : Nat) : State := if (s.core core).inv.contains line then dropOwnLine s core line else s
/-- Every core but one that holds a copy of a line receives its invalidation (R216); what a copy held dirty passes on with the recall. -/
def recallLine (s : State) (core : Option Nat) (line : Nat) : State :=
  let hit := fun (p : Nat × Core) => some p.1 != core && (Tbl.get? p.2.l1 line).isSome && !p.2.inv.contains line
  if s.cores.any hit then
    let s := deposit s fun l => l == line
    { s with cores := s.cores.map fun p =>
        if hit p then (p.1, { p.2 with inv := p.2.inv ++ [line], l1 := Tbl.upd p.2.l1 line fun e => { e with dirty := false } }) else p }
  else s
/-- R208: no other core holds an L1 copy whose invalidation it has not acknowledged. -/
def invAcked (s : State) (core : Option Nat) (line : Nat) : Bool :=
  s.cores.all fun p => some p.1 == core || (Tbl.get? p.2.l1 line).isNone || p.2.inv.contains line
/-- Received invalidations are applied (R216). -/
def applyInvs (s : State) (core : Nat) : State :=
  s.modCore core fun k => { k with l1 := k.inv.foldl Tbl.del k.l1, inv := [] }

/-- The send time of a recall from the line's home segment, plus one (R398). -/
def recallTime (s : State) (line : Nat) : State × Nat :=
  match l2Line s line with
  | some e => (noteTime s (e.seg / 16), sendTime s (e.seg / 16) (0x20 + e.seg % 16) + 1)
  | none => (s, 0)
/-- A line leaves L2, and with it its directory entry: it is written back, copies in L1 are recalled, and crews that track it are put back
(R184, R328). -/
def evictL2 (s : State) (line : Nat) : State :=
  let (s, sent) := recallTime s line
  let s := { s with l2 := s.l2.filter fun e => e.line != line }
  writeBack (rollbackLine (recallLine s none line) none line (fun _ => some 2) sent) (· == line)
/-- Every line under a key index is written back and leaves every cache (R469). -/
def dropKey (s : State) (index : Nat) : State :=
  let s := (s.l2.filter fun e => e.key == index).foldl (fun s e => evictL2 s e.line) s
  s.cores.foldl (fun s p => (p.2.l1.filter fun (e : Nat × L1Line) => e.2.key == index).foldl (fun s e => dropOwnLine s p.1 e.1) s) s
/-- The target of R184 for a context and CLASS at one segment; 0 means none. -/
def segTarget (s : State) (e : L2Line) : Nat :=
  match e.ctx with
  | some c => (Tbl.getD s.targets (4 * c + e.cls.toNat) 0 + 1023) / 1024
  | none => 0
/-- The lines of a segment that count with one of the slice's unpinned ways (R184). -/
def classLines (s : State) (ways : List Nat) (e : L2Line) : Nat :=
  (s.l2.filter fun q => q.seg == e.seg && !q.pinned && ways.contains q.way && q.ctx == e.ctx && q.cls == e.cls).length
/-- The victim of a fill of a set none of whose ways is invalid (R183, R184): the lines come least recently used first. -/
def l2Victim (s : State) (ways : List Nat) (pinned : Bool) (set : List L2Line) : Option L2Line :=
  match if pinned then none else set.find? fun e => segTarget s e != 0 && decide (segTarget s e < classLines s ways e) with
  | some e => some e
  | none => set.head?
/-- A line held in L2 under another key index is written back and invalidated before it is used (R469). -/
def keyedL2 (s : State) (p : Attr) (line : Nat) : State :=
  match l2Line s line with
  | some e => if e.key = p.key then s else evictL2 s line
  | none => s
/-- A line comes to be in L2, in a way that R184 gives, or is there: it is the most recently used. -/
def placeL2 (s : State) (p : Attr) (line : Nat) : State :=
  match l2Line s line with
  | some e => { s with l2 := s.l2.filter (fun q => q.line != line) ++ [e] }
  | none =>
    let i := sliceFor s p line
    let pinned := p.home == 2
    let ways := (s.slice i).ways pinned
    if ways.isEmpty then s
    else
      let seg := homeSegment ((s.slice i).mem.extractLsb' 22 10) (line * 128)
      let set := Config.l2Set seg line % 1024
      let mine := s.l2.filter fun e => e.seg == seg && e.set == set && ways.contains e.way
      let fill := fun (s : State) (way : Nat) => { s with l2 := s.l2 ++
        [{ line := line, seg := seg, set := set, way := way, ctx := p.ctx, cls := p.cls, key := p.key, pinned := pinned }] }
      match ways.find? fun w => !mine.any fun e => e.way == w with
      | some w => fill s w
      | none => match l2Victim s ways pinned mine with
        | some e => fill (evictL2 s e.line) e.way
        | none => s
/-- A line is used in L2 (R163, R183). -/
def touchL2 (s : State) (p : Attr) (line : Nat) : State := if p.inL2 (line * 128) then placeL2 (keyedL2 s p line) p line else s

/-- The ways of a core's L1 that take fills: a unit that a carve change takes accepts none (R178, R180). -/
def Core.fillWays (k : Core) : Nat :=
  12 - max (k.pool + k.pinned) ((k.sramcfg.extractLsb' 0 4).toNat + (k.sramcfg.extractLsb' 4 2).toNat)
/-- A line is in the core's L1 under the access's key index (R469). -/
def l1Hit (s : State) (core : Nat) (p : Attr) (line : Nat) : Option L1Line :=
  if cacheable core p (line * 128) then (l1Line s core line).filter fun e => e.key == p.key else none
/-- The 4-byte words of a line that memory holds poisoned. -/
def lineWords (s : State) (line : Nat) : List Nat := if s.poison.isEmpty then [] else below 32 fun i => poisoned s (line * 128 + 4 * i)
/-- Lines of a core's L1 are dropped. -/
def dropLinesOf (s : State) (core : Nat) (l : Tbl L1Line) : State := l.foldl (fun s (e : Nat × L1Line) => dropOwnLine s core e.1) s
/-- A line takes a way of its set in a core's L1: a free one, or that of another line (R178). Other cores' copies of it are clean from then
on. -/
def placeL1 (s : State) (core : Nat) (p : Attr) (l : Nat) : State :=
  let k := s.core core
  let set := Config.l1Set core l % 512
  let mine := k.l1.filter fun (e : Nat × L1Line) => e.2.set == set
  let free := (List.range k.fillWays).find? fun w => !mine.any fun (e : Nat × L1Line) => e.2.way == w
  let way := free.getD (Config.l1Victim s.clock % k.fillWays)
  let s := dropLinesOf s core (if free.isSome then [] else mine.filter fun (e : Nat × L1Line) => e.2.way == way)
  let clean := fun (c : Core) => { c with l1 := Tbl.upd c.l1 l fun e => { e with dirty := false } }
  let s := deposit s fun x => x == l
  let s := { s with cores := Tbl.mapV s.cores clean }
  s.modCore core fun k => { k with
    l1 := Tbl.put k.l1 l { way := way, set := set, key := p.key, bytes := readBytes s p.key (l * 128) 128, pois := lineWords s l } }
/-- A line comes into a core's L1 (R178, R181). -/
def fillL1 (s : State) (core : Nat) (p : Attr) (pa : Nat) : State :=
  let l := lineOf (route s pa)
  if !cacheable core p (l * 128) || (l1Hit s core p l).isSome then s else placeL1 (touchL2 (dropOwnLine s core l) p l) core p l
/-- The core's own copy takes bytes that its store writes at a flat address of the line, and is dirty (R181); a word that they cover whole
loses its poison there (R375). -/
def writeL1 (s : State) (core line a : Nat) (bs : List Byte) (bad : Bool) : State :=
  let o := a - line * 128
  let new := fun (e : L1Line) =>
    let hit := fun (w : Nat) => decide (o ≤ 4 * w ∧ 4 * w + 4 ≤ o + bs.length)
    let ws := if bad then below 32 fun w => e.pois.contains w || decide (4 * w < o + bs.length ∧ o < 4 * w + 4)
      else e.pois.filter fun w => !hit w
    { e with bytes := e.bytes.take o ++ bs ++ e.bytes.drop (o + bs.length), pois := ws, dirty := true }
  s.modCore core fun k => { k with l1 := Tbl.upd k.l1 line new }

/-- R307: after a write to a line, each monitor on it is evaluated. One that holds is removed and wakes its crew with the value
read, and so is one whose word is poisoned (R306); a relaunch entry that holds removes the team's entries and queues the team (R308). -/
def evalMonitors (s : State) (line : Nat) : State :=
  (s.monitors.filter fun m => !m.polled && lineOf (route s m.acc.pa) == line).foldl (fun s m =>
    let x := leVal (readBytes s m.acc.key m.acc.pa m.acc.size)
    let bad := anyPoison s m.acc.pa m.acc.size
    if s.monitors.contains m && (bad || condHolds m.cond m.acc.size x m.value.toNat) then
      if m.relaunch then
        if bad then s else queueRelaunch s m.team
      else
        let seg := segmentOf s m.team m.acc.pa
        let s := emitA s (seg / 16) (0x20 + seg % 16) (funcOfTeam s m.team) none 0x23 (BitVec.ofNat 8 m.cond.toNat)
          (BitVec.ofNat 32 (m.acc.pa / 4)) 0 ((s.team? m.team).map (·.ctx))
        { (noteTime s (seg / 16)).modCrew m.crew (fun c => { c with wait := .woken (if bad then none else some (BitVec.ofNat 64 x)) (sendTime s (seg / 16) (0x20 + seg % 16)) }) with
          monitors := s.monitors.filter (· != m) }
    else s) s

/-- A running bulk command, numbered m in issue order, may have read bytes that a write is about to change: for each aligned 4-byte
word of its sources that the write reaches the free value says so (R224). -/
def noteCmd (s : State) (m a n : Nat) (own : Nat → Bool) (c : Cmd) : Cmd :=
  let lo := a / 4 * 4
  { c with seen := c.seen ++ (List.range ((a + n + 3) / 4 * 4 - lo)).filterMap fun i =>
      match (c.src ++ c.tag).find? fun r => decide (r.pa ≤ lo + i ∧ lo + i < r.pa + r.len) with
      | some r =>
        if Config.readsNow s.clock ((lo + i) / 4) && !(c.seen.any fun x => x.1 == lo + i) && !inPod r.pa && !own m then
          some (lo + i, readByte s r.key (lo + i), poisoned s (lo + i))
        else none
      | none => none }
/-- What an engine owns until it has written it (R223, R225): its destination. -/
def engineDst (o : Op) : List Acc :=
  match o.kind with
  | .copy _ ps => (ps.map (·.dst)).filter fun a => !a.clip && a.st == .todo
  | .drain _ _ | .binw _ => o.accs.filter fun a => a.st == .todo
  | _ => []
/-- A location on uncached host memory that an atomic has read and has still to write (R287). -/
def halfAtomic (o : Op) : List Acc :=
  match o.kind with
  | .atomic _ _ _ => o.accs.filter fun a => a.st == .todo && a.got.isSome
  | _ => []
/-- Two spans of bytes meet in a line. -/
def lineMeet (a n b m : Nat) : Bool := decide (lineOf a ≤ lineOf (b + m - 1) ∧ lineOf b ≤ lineOf (a + n - 1))
/-- The pieces of a physical run where it acts: behind windows of this module's own index they are target addresses (R302). -/
def runSpans (s : State) (func : Nat) (r : Run) : List (Nat × Nat) :=
  if r.len = 0 then []
  else if inPod r.pa then
    (List.range ((r.pa + r.len - 1) / 2 ^ 34 - r.pa / 2 ^ 34 + 1)).map fun i =>
      let lo := max r.pa ((r.pa / 2 ^ 34 + i) * 2 ^ 34)
      let hi := min (r.pa + r.len) ((r.pa / 2 ^ 34 + i + 1) * 2 ^ 34)
      (match reach s func .store { pa := lo, size := hi - lo } with | .here b => b.pa | _ => lo, hi - lo)
  else [(r.pa, r.len)]
/-- The engine operations that have still to write in a span's lines: their places in issue order, and the crew of an instruction's. -/
def engineOwners (s : State) (pa size : Nat) : List (Nat × Option Nat) :=
  (s.ops.filterMap fun p =>
    if !p.2.done && (engineDst p.2).any fun a => let b := landing s p.2.team .store a; lineMeet b.pa b.size pa size then
      some (p.1, some p.2.crew) else none) ++
  s.bulk.cmds.filterMap fun p => match p.2.running with
    | some (_, m) => if p.2.ending.isNone && p.2.dst.any fun r => (runSpans s p.2.func r).any fun q => lineMeet q.1 q.2 pa size then some (m, none) else none
    | none => none
/-- Those that have still to write in a span's lines, the device's atomics under way included. -/
def owners (s : State) (pa size : Nat) : List (Nat × Option Nat) :=
  engineOwners s pa size ++ s.ops.filterMap fun p =>
    if !p.2.done && (halfAtomic p.2).any fun a => lineMeet a.pa a.size pa size then some (p.1, some p.2.crew) else none
/-- An operation older than n owns a line of a span. -/
def ownedBefore (s : State) (n pa size : Nat) : Bool := (owners s pa size).any fun p => decide (p.1 < n)
/-- The running bulk commands with what they have read of n bytes at a flat address. -/
def noteReads (s : State) (a n : Nat) : State :=
  { s with bulk := { s.bulk with cmds := Tbl.mapV s.bulk.cmds fun c => match c.running with
      | some (_, m) => noteCmd s m a n (fun m => ownedBefore s m a n) c
      | none => c } }
/-- The copy of the core that writes, or takes, a line is dropped, if a core does. -/
def dropFor (s : State) (core : Option Nat) (l : Nat) : State := match core with | some k => dropOwnLine s k l | none => s
/-- The writing core's own copy takes a crew's bytes, or is dropped: an engine wrote them, or its invalidation has been received. -/
def writeOwn (s : State) (core writer : Option Nat) (p : Attr) (l a : Nat) (bs : List Byte) (bad : Bool) : State :=
  match core with
  | none => s
  | some k =>
    if writer.isSome && (l1Hit s k p l).isSome && !(s.core k).inv.contains l then writeL1 s k l a bs bad else dropOwnLine s k l
/-- The line is in a cache that may hold it dirty for a writer of the core. -/
def lineHeld (s : State) (core : Option Nat) (l : Nat) : Bool :=
  (l2Line s l).isSome || match core with | some k => (l1Line s k l).isSome | none => false
/-- Bytes of one line reach their point of coherence: L2 takes the line, other cores' copies are recalled, the writing core's own copy
takes a crew's bytes or is dropped, memory holds them, and crews that track the line are put back. -/
def performLine (s : State) (core writer : Option Nat) (p : Attr) (a : Nat) (bs : List Byte) (bad : Bool) (pick : Nat → Option Nat) :
    State :=
  let a := route s a
  let l := lineOf a
  let s := recallLine (touchL2 s p l) core l
  let sent := (recallTime s l).2
  let s := writeOwn (recallTime s l).1 core writer p l a bs bad
  let s := putBytes p.key (p.inL2 a && lineHeld s core l) s a bs bad
  evalMonitors (rollbackLine s writer l pick sent) l
/-- Bytes reach their point of coherence (R208), line by line. Bulk engines may have read what was there (R224). -/
def performBytes (s : State) (core writer : Option Nat) (p : Attr) (a : Nat) (bs : List Byte) (bad : Bool)
    (pick : Nat → Option Nat) : State :=
  if bs.isEmpty then s
  else
    (List.range (lineOf (a + bs.length - 1) - lineOf a + 1)).foldl (fun s i =>
      let lo := max a ((lineOf a + i) * 128)
      let hi := min (a + bs.length) ((lineOf a + i + 1) * 128)
      performLine s core writer p lo ((bs.drop (lo - a)).take (hi - lo)) bad pick) (noteReads s a bs.length)
/-- An engine takes a line of global memory (R223): copies are recalled and crews that track it are put back (R328). -/
def ownLines (s : State) (core : Option Nat) (pa size : Nat) : State :=
  if size = 0 ∨ inScratch pa = true then s
  else (List.range (lineOf (pa + size - 1) - lineOf pa + 1)).foldl (fun s i =>
    let l := lineOf (route s ((lineOf pa + i) * 128))
    let s := dropFor s core l
    rollbackLine (recallLine (recallTime s l).1 core l) none l (fun _ => some 2) (recallTime s l).2) s
/-- Granules of bytes become poisoned (R238, R375). -/
def poisonBytes (s : State) (as : List Nat) : State :=
  { s with poison := as.foldl (fun l a => setAdd l (granOf (route s a))) s.poison }
/-- Granules that the writes of one instruction cover whole between them lose their poison (R375, log entry 122). -/
def clearCovered (s : State) (as : List Acc) : State :=
  if s.poison.isEmpty then s
  else
    let spans := as.map fun a => (route s a.pa, a.size)
    let whole := fun (g : Nat) => (List.range (granSize g)).all fun i => spans.any fun p => decide (p.1 ≤ g + i ∧ g + i < p.1 + p.2)
    { s with poison := s.poison.filter fun g => !whole g }
/-- A store access is performed. -/
def performStore (s : State) (core writer : Option Nat) (a : Acc) (bad : Bool := false) : State :=
  performBytes s core writer a.attr a.pa (leBytes a.size a.data.toNat) bad (storeCause core)

end Sys2Proof.Machine
end

