-- ==== Sys2Proof/Machine/Order.lean ====
section
/-! DEFINITION. The order of a crew's operations and of its core's store queue, and the values that loads bind (07 R208 to R216, R219,
R223). Every predicate here looks only at operations that have issued. -/
namespace Sys2Proof.Machine

/-- The order of an operation in its crew's program: a buffered store keeps its own (R219). -/
def Acc.order (n : Nat) (a : Acc) : Nat := a.num.getD n
/-- Two accesses meet in a byte. -/
def overlap (a b : Acc) : Bool := decide (a.pa < b.pa + b.size ∧ b.pa < a.pa + a.size) && !a.clip && !b.clip
/-- An access of an operation that is still to be made meets an access that has its place already. -/
def Op.pendsOn (s : State) (o : Op) (a : Acc) (sel : Acc → Bool) : Bool :=
  o.accs.any fun b => b.st == .todo && sel b && overlap a (landing s o.team o.kind.podKind b)
/-- Stores as R208 counts them. -/
def Op.isStore (o : Op) : Bool := o.kind.isStore
/-- Reads that may take their bytes from the crew's buffer and the store queue. -/
def Op.isRead (o : Op) : Bool := match o.kind with | .load | .shape _ _ => true | _ => false
/-- A release at quad scope or wider (R216). -/
def Op.wideRel (o : Op) : Bool := o.rel && decide (2 ≤ o.scope)
/-- Performed as a release at core scope counts it (R216): a relaxed store, or a release at core scope, in the core's store queue, and a
mirror store's own delivery made. -/
def Op.corePerformed (o : Op) : Bool :=
  o.performed || (o.isStore && o.entered.isSome && !o.wideRel &&
    match o.kind with | .mirror _ _ => o.accs.all fun a => a.st != .todo | _ => true)
/-- The engine owns its destination lines (R223, R225): a BINW once it has made its claims, the others from their issue. -/
def Op.owns (o : Op) : Bool := match o.kind with | .binw b => b.todo.isEmpty && b.redirect.isEmpty | _ => o.kind.isEngine
/-- The bulk engine has started every command that a crew issued before a place, and so owns its destination lines (R223, R225). -/
def bulkOwned (s : State) (key ord : Nat) : Bool :=
  s.bulk.cmds.all fun p => match p.2.issuer, s.crew? key with
    | some (t, i, m), some c => !(t == c.team && i == c.idx && decide (m < ord)) || p.2.running.isSome
    | _, _ => true
/-- R216's order, for an operation that issues or is performed in its place in the program of crew `key`: every older acquire is
performed; an ordered operation waits for older ordered ones, a release for every older operation at its scope, and for older engine
operations to own their lines. -/
def orderOver (s : State) (key : Nat) (ord : Nat) (acq rel wide : Bool) : Bool :=
  (!rel || bulkOwned s key ord) && s.ops.all fun p =>
    let q := p.2
    !(q.crew == key && decide (p.1 < ord)) || q.performed ||
      (!q.acq && !((acq || rel) && q.rel && (wide || !q.corePerformed)) &&
        !(rel && !(q.owns || (!wide && q.corePerformed))))
/-- No store that entered a core's queue before a place is left in it (R216). -/
def queueDrained (s : State) (core from_ : Nat) : Bool :=
  s.ops.all fun p => p.2.core != core || !p.2.isStore || p.2.performed || match p.2.entered with | some e => decide (from_ ≤ e) | none => true
/-- THE RELEASE PART of what a crew issues and waits in (R216, R222): its older operations are performed at the scope; then, at quad scope or
wider, every store that its core's queue holds drains. It gives whether that is over, and the place in the queue from which it waits. -/
def releaseStep (s : State) (key : Nat) (from_ : Option Nat) (acq wide : Bool) : Bool × Option Nat :=
  if orderOver s key s.nextOp acq true wide then
    (!wide || queueDrained s (coreOf key) (from_.getD s.nextOp), some (from_.getD s.nextOp))
  else (false, none)
/-- The acquire part of a FENCE is over (R222): every older read of the crew is performed. -/
def acquireOver (s : State) (key : Nat) : Bool :=
  s.ops.all fun p => p.2.crew != key || p.2.performed ||
    (match p.2.kind with | .load | .atomic _ _ _ | .shape _ _ | .tdep _ => false | _ => true)
/-- The same for access a of operation n. -/
def orderMet (s : State) (n : Nat) (o : Op) (a : Acc) : Bool := orderOver s o.crew (a.order n) o.acq o.rel o.wideRel
/-- Older accesses of the crew to the same bytes come first (R209): every one for an operation that is no store, those that have not entered
the store queue for a store that enters. -/
def ownClear (s : State) (n : Nat) (o : Op) (a : Acc) : Bool :=
  s.ops.all fun p =>
    let q := p.2
    p.1 == n || q.crew != o.crew || q.done || (o.isRead && q.isStore) ||
      !(q.pendsOn s a fun b => decide (b.order p.1 < a.order n)) || (o.isStore && q.entered.isSome)
/-- A store may enter its core's store queue (R216). -/
def canEnter (s : State) (n : Nat) (o : Op) : Bool :=
  o.isStore && o.entered.isNone && !o.done &&
  o.accs.all fun a => let b := landing s o.team .store a; orderMet s n o b && ownClear s n o b
/-- Stores enter the core's store queue in issue order as soon as they may: crews of the core that track their lines are put back (R328). -/
def enterStores (s : State) : State :=
  s.ops.foldl (fun s p =>
    match Tbl.get? s.ops p.1 with
    | some o =>
      if canEnter s p.1 o then
        let s := { s.modOp p.1 (fun o => { o with entered := some s.nextOp }) with nextOp := s.nextOp + 1 }
        o.accs.foldl (fun s a => rollbackLine s (some o.crew) (lineOf (route s (landing s o.team .store a).pa)) fun k =>
          if coreOf k = o.core then some 1 else none) s
      else s
    | none => s) s
/-- The oldest operation but n that still has to write in a span's lines (R223). -/
def owner (s : State) (n pa size : Nat) : Option (Nat × Option Nat) :=
  ((owners s pa size).filter (·.1 != n)).foldl (fun r p => match r with | some q => if p.1 < q.1 then some p else some q | none => some p) none
/-- The directory holds an access to a line until the engine that owns it has written it (R223), but for what comes before the engine's
operation: the issuing crew's older accesses, and stores that had entered the core's store queue. A load instruction of the issuing crew
may find what scratchpad bytes held before (R235). It gives the engine's place in issue order. -/
def holder (s : State) (n : Nat) (o : Op) (a : Acc) : Option Nat :=
  match owner s n a.pa a.size with
  | none => none
  | some (m, k) =>
    if (k == some o.crew && decide (a.order n < m)) ||
        (match o.entered, k with | some e, some c => coreOf c == o.core && decide (e < m) | _, _ => false) ||
        (o.isRead && o.cls.isSome && k == some o.crew && inScratch a.pa && (match Tbl.get? s.ops m with | some q => q.inRegion | none => false))
      then none else some m
def heldByEngine (s : State) (n : Nat) (o : Op) (a : Acc) : Bool := (holder s n o a).isSome
/-- Stores of the core that come before an access at its point of coherence (R209, R216): for a store those that entered the queue before
it on its bytes; for an atomic or a WAITC those that other crews have entered; for a release at quad scope or wider every one that was in the
queue before it. -/
def queueClear (s : State) (n : Nat) (o : Op) (a : Acc) : Bool :=
  o.isRead ||
  s.ops.all fun p =>
    let q := p.2
    q.core != o.core || q.done || p.1 == n || !q.isStore ||
      match q.entered with
      | none => true
      | some f =>
        if o.isStore then
          (match o.entered with | some e => decide (e ≤ f) | none => true) || !(o.wideRel && !q.performed || q.pendsOn s a fun _ => true)
        else q.performed || !(o.wideRel || (q.crew != o.crew && q.pendsOn s a fun _ => true))
/-- Access a of operation n, in its place, may be performed now. -/
def performable (s : State) (n : Nat) (o : Op) (a : Acc) : Bool :=
  (!o.isStore || o.entered.isSome) && orderMet s n o a && ownClear s n o a && queueClear s n o a && !heldByEngine s n o a
/-- A queued store that crews of its core may read before it is performed (R216). -/
def Op.forwardable (o : Op) : Bool :=
  o.isStore && o.entered.isSome && !o.wideRel && match o.kind with | .mirror _ _ => false | _ => true

/-- The byte that a store access writes at an address, if it does. -/
def Acc.byteAt (a : Acc) (x : Nat) : Option Byte :=
  if a.pa ≤ x ∧ x < a.pa + a.size ∧ a.clip = false then some (BitVec.ofNat 8 (a.data.toNat / 256 ^ (x - a.pa))) else none
/-- The last byte that a list of accesses writes at an address. -/
def lastByte (as : List Acc) (x : Nat) : Option Byte :=
  as.foldl (fun r a => match a.byteAt x with | some b => some b | none => r) none
/-- The byte a crew's buffer holds for a load at a place in program order (R198), where the load finds it. -/
def bufByte (s : State) (c : Crew) (ord x : Nat) : Option Byte :=
  lastByte ((c.buf.filter fun a => decide (a.order 0 < ord)).map (landing s c.team .load)) x
/-- The stores that a load of crew `key` may find in the core's queue, the last in coherence order first: the crew's own that have not
entered, then those that have entered, its own older ones and those of other crews that may be read. -/
def queueFor (s : State) (key : Nat) : List (Nat × Op) :=
  let mine := s.ops.filter fun p => p.2.core == coreOf key && p.2.isStore && !p.2.done
  (mine.filter fun p => p.2.crew == key && p.2.entered.isNone).reverse ++
    (sortKey (fun p => p.2.entered.getD 0) (mine.filter fun p => p.2.entered.isSome && (p.2.crew == key || p.2.forwardable))).reverse
/-- The byte that the core's store queue gives a load of crew `key` at a place in program order (R209, R216), and the store. -/
def queueFind (s : State) (key ord x : Nat) : Option (Byte × Nat × Op) :=
  (queueFor s key).findSome? fun p =>
    (lastByte ((p.2.accs.filter fun a => a.st == .todo && (p.2.crew != key || decide (a.order p.1 < ord))).map
      (landing s p.2.team .store)) x).map fun b => (b, p)
def queueByte (s : State) (key ord x : Nat) : Option Byte := (queueFind s key ord x).map (·.1)
/-- The byte that the crew's own buffer or the core's queue gives a load. -/
def forwarded (s : State) (key : Nat) (c : Crew) (ord x : Nat) : Option Byte :=
  match bufByte s c ord x with
  | some b => some b
  | none => queueByte s key ord x
/-- One byte as a load of a crew reads it, and whether the granule is poisoned (R199, R375, R376). -/
def loadByte (s : State) (key : Nat) (c : Crew) (ord : Nat) (a : Acc) (x : Nat) : Byte × Bool :=
  match forwarded s key c ord x with
  | some b => (b, false)
  | none =>
    let y := route s x
    match l1Hit s (coreOf key) a.attr (lineOf y) with
    | some l => (l.bytes.getD (y % 128) 0, l.pois.contains (y % 128 / 4))
    | none => (readByte s a.key x, poisoned s x)
/-- The value that a load access binds, little-endian, and whether it read poison. -/
def loadAcc (s : State) (key : Nat) (c : Crew) (ord : Nat) (a : Acc) : Nat × Bool :=
  let bs := (List.range a.size).map fun i => loadByte s key c ord a (a.pa + i)
  (leVal (bs.map (·.1)), bs.any (·.2))
/-- A load needs nothing of the directory: each byte comes from the crew's buffer, the store queue, or a copy in L1 (R216). -/
def servedInCore (s : State) (key : Nat) (c : Crew) (ord : Nat) (a : Acc) : Bool :=
  (List.range a.size).all fun i =>
    (forwarded s key c ord (a.pa + i)).isSome || (l1Hit s (coreOf key) a.attr (lineOf (route s (a.pa + i)))).isSome
/-- A load of a line that an engine of place m owns needs nothing of the directory, and finds no store that the engine's write follows, unless
nothing orders the load after the engine's issue: its crew has acquired nothing since (R213, R223). -/
def servedPast (s : State) (key : Nat) (c : Crew) (ord m : Nat) (a : Acc) : Bool :=
  (List.range a.size).all fun i =>
    let x := a.pa + i
    (bufByte s c ord x).isSome || (l1Hit s (coreOf key) a.attr (lineOf (route s x))).isSome && (queueByte s key ord x).isNone ||
      match queueFind s key ord x with
      | some (_, n, q) => decide (c.acqAt < m) && (owner s n x 1).map (·.2) != some (some key) || heldByEngine s n q { a with pa := x, size := 1, num := none }
      | none => false
/-- A load's access may be performed now. -/
def loadable (s : State) (n : Nat) (o : Op) (c : Crew) (a : Acc) : Bool :=
  orderMet s n o a && ownClear s n o a && match holder s n o a with
    | none => true
    | some m => servedPast s o.crew c (a.order n) m a
/-- The line of a load is clear of engines: it may come into L1 (R223). -/
def fillable (s : State) (a : Acc) : Bool := (owner s s.nextOp a.pa a.size).isNone
/-- An 8-byte load that could be performed as an engine takes its line may read one 4-byte word before the engine's write and the other after it
(R207, R223): the free value picks the word. -/
def raceLoads (s : State) (pa size : Nat) : State :=
  let mark := fun (n : Nat) (o : Op) (c : Crew) (a : Acc) =>
    let b := landing s o.team .load a
    let first := Config.readsNow s.clock (b.pa / 4)
    if a.size = 8 && a.got.isNone && a.half.isNone && !a.clip && lineMeet b.pa 8 pa size && first != Config.readsNow s.clock (b.pa / 4 + 1) &&
        reach s (funcOfTeam s o.team) .load a == .here b && loadable s n o c b then
      let w := if first then 0 else 1
      let v := loadAcc s o.crew c (a.order n) { b with pa := b.pa + 4 * w, size := 4 }
      { a with half := some (w, v.1, v.2) }
    else a
  { s with ops := s.ops.map fun p => match p.2.kind, s.crew? p.2.crew with
      | .load, some c => if p.2.done then p else (p.1, { p.2 with accs := p.2.accs.map (mark p.1 p.2 c) })
      | _, _ => p }
/-- A load that has read one word ahead reads the other as the engine's write is performed. -/
def settleHalves (s : State) : State :=
  let bind := fun (n : Nat) (o : Op) (c : Crew) (a : Acc) => match a.half with
    | none => a
    | some (w, v, p) =>
      let b := landing s o.team .load a
      if (owner s n b.pa 8).isSome then a
      else
        let r := loadAcc s o.crew c (a.order n) { b with pa := b.pa + 4 * (1 - w), size := 4 }
        { a with half := none, got := some (v * 2 ^ (32 * w) + r.1 * 2 ^ (32 * (1 - w)), p || r.2) }
  if s.ops.any fun p => p.2.accs.any fun a => a.half.isSome then
    { s with ops := s.ops.map fun p => match s.crew? p.2.crew with
        | some c => (p.1, { p.2 with accs := p.2.accs.map (bind p.1 p.2 c) })
        | none => p }
  else s

end Sys2Proof.Machine
end

