-- ==== Sys2Proof/Machine/Work.lean ====
section
/-! DEFINITION. Page walks, the ready queue, dependence counters, completion records, and the retirement and ending of teams and
entries (06 R160 to R166, 12 R337 to R353, 13 R364). -/
namespace Sys2Proof.Machine

/-- A leaf that a walk accepted (R161). -/
structure Leaf where
  pa : Nat
  size : Nat
  home : BitVec 2
  cls : BitVec 2
  sysatom : Bool
  key : Nat
  r : Bool
  w : Bool
  x : Bool
  entry : Nat
  deriving DecidableEq, Repr
/-- The outcome of a walk (R160 to R163, R166); `absent` carries the size of the absent span. -/
inductive Walk where
  | absent (size : Nat) | bad | leaf (l : Leaf)
  deriving DecidableEq, Repr

/-- The cores of a slice, rising (R422). -/
def sliceCores (s : State) (i : Nat) : List Nat :=
  ((s.slice i).cores.map fun p =>
    if p.2.getLsbD 63 then
      (List.range ((p.2.extractLsb' 8 5).toNat + 1 - (p.2.extractLsb' 0 5).toNat)).map fun k =>
        32 * p.1 + (p.2.extractLsb' 0 5).toNat + k
    else []).flatten.filter fun c => !(s.slice i).left.contains c
/-- The lowest die of a slice: its front end holds the slice's queue (R422, R339). -/
def sliceDie (s : State) (i : Nat) : Nat := match sliceCores s i with | [] => 0 | c :: _ => c / 32
/-- The front end of a slice's queue is being updated: what is for it is held (R479). -/
def frontHeld (s : State) (slice : Nat) : Bool := (Tbl.get? s.svc.updating (sliceDie s slice)).isSome
/-- The slice owns the channel set of an address (R423, R424). -/
def sliceHasAddr (s : State) (i pa : Nat) : Bool :=
  let m := (s.slice i).mem
  m != 0 && decide ((m.extractLsb' 0 8).toNat ≤ channelSet pa ∧ channelSet pa ≤ (m.extractLsb' 8 8).toNat)
/-- A key index is assigned to a function (R166, R467). -/
def keyAssigned (s : State) (key func : Nat) : Bool := (Tbl.getD s.sec.keys key {}).owner == some func

/-- The page that a leaf maps at a level whose pages have `size` bytes, if R161 to R163, R166 and R424 accept it. -/
def leafOf (s : State) (ctx : Ctx) (entry : Nat) (e : DWord) (size : Nat) : Walk :=
  let pfn := (e.extractLsb' 16 36).toNat * 65536
  let home := e.extractLsb' 7 2
  let key := (e.extractLsb' 56 7).toNat
  let frame := (e.extractLsb' 27 3).toNat
  let core := (e.extractLsb' 16 11).toNat
  let ok :=
    !e.getLsbD 63 && e.extractLsb' 52 4 == 0 && !e.getLsbD 6 && !e.getLsbD 1 &&
    (if home == 1 then
      size == 65536 && e.extractLsb' 30 22 == 0 && (sliceCores s ctx.slice).contains core && decide (frame < 4) &&
        decide (frame < (s.core core).pinned)
     else
      pfn % size == 0 &&
      (if inHbm pfn then keyAssigned s key ctx.func && sliceHasAddr s ctx.slice pfn
       else inPod pfn || (inHost pfn && (home == 0 || home == 3))))
  if ok then
    .leaf { pa := if home == 1 then frameAddr core frame 0 else pfn, size := size, home := home, cls := e.extractLsb' 9 2,
            sysatom := e.getLsbD 11, key := key, r := e.getLsbD 3, w := e.getLsbD 4, x := e.getLsbD 5, entry := entry }
  else .bad
/-- The levels of R160: shift, index mask, whether a leaf is allowed, whether it must be one, alignment of the next table. -/
def walkLevels : List (Nat × Nat × Bool × Bool × Nat) :=
  [(48, 256, false, false, 4096), (39, 512, false, false, 4096), (30, 512, true, false, 4096), (21, 512, true, false, 256),
   (16, 32, true, true, 256)]
/-- The walk from a table at a flat address. Table entries are read under key index 0 (log entry 8), and one read poisoned is a translation
error (log entry 91). -/
def walkFrom (s : State) (ctx : Ctx) (va : Nat) : List (Nat × Nat × Bool × Bool × Nat) → Nat → Walk
  | [], _ => .bad
  | (sh, n, leafOk, leafMust, align) :: rest, table =>
    let a := table + 8 * (va / 2 ^ sh % n)
    let e : DWord := BitVec.ofNat 64 (leVal (readBytes s 0 a 8))
    if anyPoison s a 8 then .bad
    else if !e.getLsbD 0 then .absent (2 ^ sh)
    else if e.getLsbD 2 then (if leafOk then leafOf s ctx a e (2 ^ sh) else .bad)
    else if leafMust then .bad
    else
      let next := (e.extractLsb' 8 44).toNat * 256
      if e.extractLsb' 52 12 == 0 && e.extractLsb' 3 5 == 0 && next % align == 0 then walkFrom s ctx va rest next else .bad
/-- The walk of a context's page tables for a virtual address (R160). -/
def walk (s : State) (ctx : Ctx) (va : Nat) : Walk := walkFrom s ctx va walkLevels ctx.root

/-- The number of teams of a launch record. -/
def LaunchRec.teams (r : LaunchRec) : Nat := r.gx * r.gy * r.gz
/-- Entries of a context's ready queue, its relaunches and reserved places (R339, R351). -/
def queueFull (s : State) (ctx : Nat) : Bool :=
  decide (Config.readyPlaces ≤
    (s.entries.filter fun p => p.2.ctx == ctx && p.2.st == .queued).length +
      (s.teams.filter fun p => p.2.ctx == ctx && p.2.relaunch.isSome).length + (match Tbl.get? s.ctxs ctx with | some x => x.reserved | none => 0))
/-- An entry joins the ready queue (R339). -/
def queueEntry (s : State) (e : Entry) : State :=
  { s with entries := Tbl.put s.entries s.nextId { e with arrival := s.nextId }, nextId := s.nextId + 1 }
/-- The context's task error log (R352). -/
def logTaskErr (s : State) (ctx : Nat) (e : TaskErr) : State := s.modCtx ctx fun x => { x with errlog := x.errlog ++ [e] }
/-- A message in a function's outbound mailbox raises MSI-X vector 0 (R449, R453). -/
def postMail (s : State) (func : Nat) (w : DWord) : State :=
  s.modFunc func fun f => { f with mailOut := f.mailOut ++ [w] }.signal 0

/-- A counter block as it is read (R350). -/
structure Block where
  count : Int
  res : Bool
  armed : Bool
  fired : Bool
  task : Nat
  deriving DecidableEq, Repr
def readBlock (s : State) (key pa : Nat) : Block :=
  let c : Word := BitVec.ofNat 32 (leVal (readBytes s key pa 4))
  let w : DWord := BitVec.ofNat 64 (leVal (readBytes s key (pa + 8) 8))
  { count := c.toInt, res := leVal (readBytes s key (pa + 4) 4) == 0 && w.extractLsb' 56 6 == 0,
    armed := w.getLsbD 62, fired := w.getLsbD 63, task := (w.extractLsb' 0 56).toNat }
def blockBytes (b : Block) : List Byte :=
  leBytes 4 (BitVec.ofInt 32 b.count).toNat ++ leBytes 4 0 ++
    leBytes 8 (b.task + (if b.armed then 2 ^ 62 else 0) + (if b.fired then 2 ^ 63 else 0))
/-- R350: a block that is due fires. The queued task is the copy that TSPAWN bound; a block without one is logged (R351). -/
def fireBlock (s : State) (ctx pa : Nat) (b : Block) : State × Block :=
  if b.count ≤ 0 ∧ b.armed = true ∧ b.fired = false then
    let b := { b with fired := true }
    match Tbl.get? s.bound (route s pa) with
    | none => (logTaskErr s ctx (.unbound pa), b)
    | some d =>
      let r := { d.tmpl with tindex := d.task.tindex, prio := d.task.prio, compl := d.task.compl, args := d.task.args }
      let s := queueEntry { s with bound := Tbl.del s.bound (route s pa) }
        { ctx := d.ctx, rec_ := r, addr := d.addr, succ := d.task.succ, task := true, parent := d.parent }
      (s.modCtx d.ctx fun x => { x with reserved := x.reserved - 1 }, b)
  else (s, b)
/-- A step of a Skillet on a counter block (R350): none when the block is poisoned or malformed. -/
def blockStep (s : State) (ctx : Nat) (core : Option Nat) (a : Acc) (f : Block → Block) : Option State :=
  if anyPoison s a.pa 16 then none
  else
    let b := readBlock s a.key a.pa
    if !b.res then none
    else
      let (s, b) := fireBlock s ctx a.pa (f b)
      some (performBytes s core none a.attr a.pa (blockBytes b) false (storeCause none))
/-- COUNT plus a delta, clamped (R353). -/
def clampCount (x : Int) : Int := if x < -(2 ^ 31) then -(2 ^ 31) else if 2 ^ 31 - 1 < x then 2 ^ 31 - 1 else x
def addCount (delta : Int) (b : Block) : Block := { b with count := clampCount (b.count + delta) }

/-- A virtual address of a context as an access through its page tables as they stand, or through ATS for host space (R482), or why there is
none. -/
def walkAcc (s : State) (ctx va size : Nat) (ld st : Bool) : Except ComplCause Acc :=
  match Tbl.get? s.ctxs ctx with
  | none => .error .absent
  | some x =>
    if placeOf va = .global then
      match walk s x va with
      | .leaf l =>
        let acc : Acc := { va := va, pa := l.pa + va % l.size, size := size, home := l.home, key := l.key, sysatom := l.sysatom, ctx := some ctx,
                           cls := l.cls }
        if (st && !l.w) || (ld && !l.r) then .error .permission
        else if inHost l.pa then
          let q := Config.atsAnswer s.clock ((l.pa + va % l.size) / 65536)
          if (st && q.1 / 2 % 2 == 0) || (ld && q.1 % 2 == 0) then .error .permission
          else .ok { acc with pa := 2 ^ 51 + (q.2 * 65536 + va % 65536) % 2 ^ 51, key := 0 }
        else .ok acc
      | .absent _ => .error .absent
      | .bad => .error .translation
    else .error .local_
/-- The least number from n on that a rising list does not hold. -/
def firstGap : List Nat → Nat → Nat
  | [], n => n
  | k :: t, n => if k = n then firstGap t (n + 1) else n
/-- The bytes of a completion record (R346). -/
def completionBytes (status : BitVec 16) (e : Entry) (detail : DWord) : List Byte :=
  leBytes 4 (2 ^ 31 + status.toNat) ++ leBytes 4 e.retired.length ++ leBytes 4 (firstGap e.retired 0) ++ leBytes 4 e.tasksDone ++
    leBytes 8 e.bytes ++ leBytes 8 detail.toNat
/-- The code of a cause, as the mailbox message gives it (log entry 88). -/
def ComplCause.code : ComplCause → Nat
  | .absent => 1 | .permission => 2 | .translation => 3 | .local_ => 4 | .refused n => 16 + n
/-- R482: a record that cannot be written is entered in the error log, and a message of two words names it in the mailbox. -/
def complFailed (s : State) (ctx compl tindex : Nat) (status : BitVec 16) (why : ComplCause) : State :=
  let s := logTaskErr s ctx (.completion compl status.toNat tindex why)
  let s := postMail s (funcOfCtx s ctx) (BitVec.ofNat 64 (compl % 2 ^ 56 + why.code * 2 ^ 56))
  postMail s (funcOfCtx s ctx) (BitVec.ofNat 64 (tindex % 2 ^ 32 * 2 ^ 32 + status.toNat))
/-- R346, R482: the completion record is written through the page tables, bytes 0 to 3 last. -/
def writeCompletion (s : State) (ctx compl tindex : Nat) (status : BitVec 16) (bs : List Byte) : State :=
  if compl = 0 then s
  else
    match walkAcc s ctx compl 32 false true with
    | .error why => complFailed s ctx compl tindex status why
    | .ok a =>
      match reach s (funcOfCtx s ctx) .store a with
      | .here a =>
        let s := clearCovered s [a]
        let s := performBytes s none none a.attr (a.pa + 4) (bs.drop 4) false (storeCause none)
        performBytes s none none a.attr a.pa (bs.take 4) false (storeCause none)
      | .answered (.refused n) => complFailed s ctx compl tindex status (.refused n)
      | .answered _ => s
      | .waits =>
        let r := (Config.podAnswer s.clock compl 32).1 % 7
        if r = 0 then s else complFailed s ctx compl tindex status (.refused r)
/-- R352: a successor's counter is lowered by one, as a TDEP would lower it. -/
def lowerSucc (s : State) (ctx va : Nat) : State :=
  match walkAcc s ctx va 16 true true with
  | .error _ => logTaskErr s ctx (.badSuccessor va)
  | .ok a =>
    if counterPage a then
      match blockStep s ctx none a (addCount (-1)) with
      | some s' => s'
      | none => logTaskErr s ctx (.badSuccessor va)
    else logTaskErr s ctx (.badSuccessor va)
/-- An engine owns a line that the end of an entry is to write: the write waits (R223). -/
def endOwned (s : State) (e : Entry) : Bool :=
  let owned := fun (va size : Nat) => match walkAcc s e.ctx va size false true with
    | .ok a => (owner s s.nextOp a.pa size).isSome
    | .error _ => false
  (e.rec_.compl != 0 && owned e.rec_.compl 32) || (e.task && e.succ.any fun v => owned v 16)

/-- The key index of a context's function. -/
def ctxKey (s : State) (ctx : Nat) : Nat := ((s.func (funcOfCtx s ctx)).key).getD 0
/-- What an access to a team's scratchpad carries: spilled to the save area it is under the context's key, and in no cache (R382). -/
def unitAttr (s : State) (t : Team) (a : Nat) : Attr := if inScratch a then {} else { home := 3, key := ctxKey s t.ctx }

/-- The keys of the wide barrier contexts: entry, handle and instance (R311). -/
def wideKey (entry handle inst : Nat) : Nat := entry * 2 ^ 20 + handle * 2 ^ 12 + inst
/-- The level of a wide handle under R335: 2 quad, 3 die, 4 module, 5 pod. -/
def wideLevel (r : LaunchRec) (handle : Nat) : Nat :=
  let k := handle - 128
  if k < r.wquad then 2 else if k < r.wquad + r.wdie then 3 else if k < r.wquad + r.wdie + r.wmod then 4 else 5
/-- The instance of a level that contains a core (R15, R26). -/
def instanceOf (level core : Nat) : Nat := match level with | 2 => core / 4 | 3 => core / 32 | _ => 0
/-- The wide context that a team's handle names. -/
def wideOf (s : State) (t : Team) (handle : Nat) : Nat :=
  match Tbl.get? s.entries t.entry with
  | some e => wideKey t.entry handle (instanceOf (wideLevel e.rec_ handle) t.core)
  | none => wideKey t.entry handle 0
/-- R314 on the barrier's own state. -/
def Barrier.next (b : Barrier) : Barrier :=
  let e := b.e - b.drops
  { b with e := e, arr := 0, drops := 0, phase := b.phase + 1, here := [],
           armed := b.armed && decide (e ≠ 0), dropped := if e = 0 then [] else b.dropped }
/-- R314 for a wide context: the phase completes when it is due, and a message leaves for each core whose crews wait. -/
def settleWide (s : State) (ctx : Nat) : State :=
  match Tbl.get? s.wide ctx with
  | none => s
  | some b =>
    if b.armed && b.arr == b.e then
      let handle := ctx / 2 ^ 12 % 256
      let entry := ctx / 2 ^ 20
      let cores := ((s.crews.filter fun p =>
        (match p.2.wait with | .barrier h _ => h == handle | _ => false) &&
        (match s.team? p.2.team with | some t => t.entry == entry && wideOf s t handle == ctx | none => false)).map
          fun p => coreOf p.1).eraseDups
      let func := match Tbl.get? s.entries entry with | some e => funcOfCtx s e.ctx | none => 0
      let die := match Tbl.get? s.entries entry with
        | some e => sliceDie s (match Tbl.get? s.ctxs e.ctx with | some x => x.slice | none => 0) | none => 0
      let s := noteTime (emitA s die 0x34 func none 0x20 (BitVec.ofNat 8 handle) b.phase 0
        ((Tbl.get? s.entries entry).map (·.ctx))) die
      { s with wide := Tbl.put s.wide ctx b.next, wideDone := s.wideDone ++ cores.map fun c => (ctx, c, b.phase, sendTime s die 0x34) }
    else s
/-- R319: a retiring team leaves a wide context. `m` is its member crews. -/
def Barrier.leave (b : Barrier) (members : List Nat) : Barrier :=
  let m := members.filter fun k => !b.dropped.contains k
  let here := (m.filter fun k => b.here.contains k).length
  let away := m.length - here
  let b := { b with here := b.here.filter fun k => !members.contains k
                    dropped := b.dropped.filter fun k => !members.contains k
                    pend := b.pend.filter fun p => !members.contains p.1 }
  if b.armed then { b with e := b.e - away, drops := b.drops + here }
  else { b with arr := b.arr + away, drops := b.drops + m.length }
def leaveWide (s : State) (t : Team) : State :=
  (List.range t.nwide).foldl (fun s i =>
    let k := wideOf s t (128 + i)
    match Tbl.get? s.wide k with
    | some b => settleWide { s with wide := Tbl.put s.wide k (b.leave t.crews) } k
    | none => s) s

/-- A stall of a crew ends or is interrupted: TRSTALL takes its cycles, which STALLEND is still to report, and STALLING falls with the
function's last stalled crew (R402, R410, R413). -/
def stallOver (s : State) (key : Nat) (c : Crew) : State × Crew :=
  match c.stalled with
  | none => (s, c)
  | some k =>
    let f := funcOfTeam s c.team
    let n := cycleOf s (coreOf key / 32) - k
    let c := { c with stalled := none, stallSum := c.stallSum + n }
    let s := s.modCrew key fun c => { c with stalled := none, stallSum := c.stallSum + n }
    let other := s.crews.any fun p => p.2.stalled.isSome && funcOfTeam s p.2.team == f
    (s.modFunc f fun x => { x with trace := { x.trace with
      stall := x.trace.stall + BitVec.ofNat 64 n, stat := if other then x.trace.stat else x.trace.stat &&& ~~~2#64 } }, c)
/-- The reservations of a core go back to the buffer when no team but one is left there whose function they are for and that is not halted
(R409). -/
def dropPool (s : State) (core tid : Nat) : State :=
  let runs := fun (t : Team) => (match t.halt with | .halted _ => false | _ => true) && funcOfCtx s t.ctx == (s.core core).grantee
  if (s.core core).granted = 0 ∨ s.teams.any (fun p => p.1 != tid && p.2.core == core && !p.2.retired && runs p.2) then s
  else s.modCore core fun k => { k with granted := 0 }
/-- A record on its way names a crew no more that is gone: a later crew of the slot does not wait for it (R418). -/
def leaveItem (keys : List Nat) (i : TraceItem) : TraceItem :=
  match i.crew with
  | some k => if keys.contains k then { i with crew := none } else i
  | none => i
/-- A team's crews and resources are given back; a member of a mirror group keeps its scratchpad until every member has retired
(R345, R191). -/
def removeTeam (s : State) (tid : Nat) : State :=
  match s.team? tid with
  | none => s
  | some t =>
    let s := leaveWide s t
    let s := (s.crews.filter fun p => p.2.team == tid && p.2.stalled.isSome).foldl (fun s p => (stallOver s p.1 p.2).1) s
    let s := { s with
      crews := s.crews.filter fun p => p.2.team != tid
      monitors := s.monitors.filter fun m => m.team != tid
      promoted := s.promoted.filter fun k => !t.crews.contains k }
    let s := { s with fabric := { s.fabric with items := s.fabric.items.map fun i => leaveItem t.crews i } }
    let s := dropPool s t.core tid
    let open_ := t.group.any fun g => g != tid && (match s.team? g with | some x => !x.retired | none => false)
    if open_ then
      s.setTeam tid { t with retired := true, crews := [], blocks := [], tiles := [], tilePois := [], sems := [], semWait := [],
                             bars := [], shapes := [], extents := [], ntile := 0, nsem := 0, ncbar := 0, nwide := 0 }
    else { s with teams := s.teams.filter fun p => p.1 != tid && !t.group.contains p.1 }
/-- The entry is complete: its record is written, a finished task lowers its successors (R352), its teams are removed (R364) and
its wide contexts are released (R344). -/
def completeEntry (s : State) (eid : Nat) (status : BitVec 16) (detail : DWord) : State :=
  match Tbl.get? s.entries eid with
  | none => s
  | some e =>
    let s := writeCompletion s e.ctx e.rec_.compl e.rec_.tindex status (completionBytes status e detail)
    let s := if e.task && status == 0 then e.succ.foldl (fun s v => lowerSucc s e.ctx v) s else s
    let s := match e.parent with
      | some p => if e.task && status == 0 then s.modEntry p fun x => { x with tasksDone := x.tasksDone + 1 } else s
      | none => s
    let s := (s.teams.filter fun p => p.2.entry == eid && !p.2.retired).foldl (fun s p => removeTeam s p.1) s
    { s with
      entries := Tbl.del s.entries eid
      teams := s.teams.filter fun p => p.2.entry != eid
      wide := s.wide.filter fun p => p.1 / 2 ^ 20 != eid
      wideMsgs := s.wideMsgs.filter fun m => m.ctx / 2 ^ 20 != eid
      wideDone := s.wideDone.filter fun m => m.1 / 2 ^ 20 != eid }
/-- The keys of the crews of an entry. -/
def crewsOfEntry (s : State) (eid : Nat) : List Nat :=
  (s.teams.filter fun p => p.2.entry == eid).flatMap fun p => p.2.crews
/-- An ending entry whose issued counted instructions have completed writes its record (R364), unless an engine owns a line of it; while its
front end is updated (R479) it is held, and its place noted. -/
def settleEntry (s : State) (eid : Nat) : State :=
  match Tbl.get? s.entries eid with
  | none => s
  | some e =>
    match e.st with
    | .ending status detail =>
      if endOwned s e || s.ops.any fun p => (crewsOfEntry s eid).contains p.2.crew && !p.2.done then s
      else if frontHeld s (match Tbl.get? s.ctxs e.ctx with | some x => x.slice | none => 0) then
        s.modEntry eid fun e => { e with due := some (e.due.getD s.clock) }
      else completeEntry s eid status detail
    | _ => s
/-- The entry ends with a status that its dispatch gives, with no crew to wait for (R344). -/
def failEntry (s : State) (eid : Nat) (status : BitVec 16) : State :=
  settleEntry (s.modEntry eid fun e => { e with st := .ending status 0 }) eid
/-- Entries whose end was held go on when they can. -/
def settleEntries (s : State) : State :=
  (s.entries.filter fun p => match p.2.st with | .ending _ _ => true | _ => false).foldl (fun s p => settleEntry s p.1) s
/-- R345: a team whose crews have all ended retires, and with the last team the entry completes; its completion is held while its front
end is updated (R479). -/
def retireTeam (s : State) (tid : Nat) : State :=
  match s.team? tid with
  | none => s
  | some t =>
    let s := removeTeam s tid
    let s := s.modEntry t.entry fun e => { e with retired := setAdd e.retired t.tidx }
    match Tbl.get? s.entries t.entry with
    | some e => if e.retired.length = e.rec_.teams then settleEntry (s.modEntry t.entry fun e => { e with st := .ending 0 0 }) t.entry else s
    | none => s
/-- The place in the ready queue that a TSPAWN under way has reserved is released (R351). -/
def dropSpawn (s : State) (key : Nat) : State :=
  match s.crew? key with
  | none => s
  | some c => if c.spawn.isNone then s
    else (s.setCrew key { c with spawn := none }).modCtx (match s.team? c.team with | some t => t.ctx | none => 0)
      fun x => { x with reserved := x.reserved - 1 }
/-- R364: an entry ends; its crews stop and nothing of it is placed any more. A later end of the same entry is discarded. -/
def endEntry (s : State) (eid : Nat) (status : BitVec 16) (detail : DWord) : State :=
  match Tbl.get? s.entries eid with
  | none => s
  | some e =>
    match e.st with
    | .ending _ _ => s
    | _ =>
      let ks := crewsOfEntry s eid
      let s := ks.foldl dropSpawn s
      let s := { s with
        entries := Tbl.put s.entries eid { e with st := .ending status detail }
        crews := s.crews.map fun p =>
          if ks.contains p.1 then (p.1, { p.2 with wait := .stopped, pending := none, buf := [], spec := none, region := none }) else p
        monitors := s.monitors.filter fun m => !ks.contains m.crew
        cores := Tbl.mapV s.cores fun c => { c with trivet := c.trivet.filter fun r => !(r.arrived.any fun a => ks.contains a.crew) } }
      settleEntry s eid
/-- A semaphore's count takes a signed change, clamped to 32 bits (R236, R241). -/
def semAdd (t : Team) (sem : Nat) (d : Int) : Team :=
  let v : Int := (Sparse.get t.sems sem).toNat + d
  { t with sems := Sparse.set t.sems sem (if v < 0 then 0 else if 0xFFFFFFFF < v then 0xFFFFFFFF else BitVec.ofInt 32 v) }
/-- The crew's count of a semaphore inside its open region (R236). -/
def Crew.noteSem (c : Crew) (sem : Nat) (d : Int) : Crew :=
  match c.region with
  | none => c
  | some r => { c with region := some { r with sems := Tbl.put r.sems sem (Tbl.getD r.sems sem 0 + d) } }
/-- The instructions of an aborted region are complete: its stores are discarded, and its semaphores lose what the region added (R236,
R359). -/
def settleAbort (s : State) (key : Nat) : State :=
  if s.ops.any fun p => p.2.crew == key && p.2.quiet && !p.2.done then s
  else match s.crew? key with
    | none => s
    | some c =>
      match c.region with
      | none => s
      | some r => (s.setCrew key { c with region := some { r with sems := [] }, buf := [] }).modTeam c.team fun t =>
          r.sems.foldl (fun t p => semAdd t p.1 (-p.2)) t
/-- An operation is complete, and an entry that waits for it may end. -/
def finishOp (s : State) (n : Nat) : State :=
  match Tbl.get? s.ops n with
  | none => s
  | some o =>
    let s := completeOp s n
    let s := if o.quiet then settleAbort s o.crew else s
    match s.team? o.team with
    | some t => settleEntry s t.entry
    | none => s

end Sys2Proof.Machine
end

