-- ==== Sys2Proof/Machine/Ops.lean ====
section
/-! DEFINITION. The shared operations of the instructions: regions and speculation, taking a trap and returning from one, held
faults, demand faults, and the issue of an instruction with its checks (02 R63, 04 R107, 12 R354 to R359, 13). -/
namespace Sys2Proof.Machine

/-- The code of a kind (R361). -/
def TrapKind.code : TrapKind → Nat
  | .illegal => 0x01 | .operand => 0x02 | .handle => 0x03 | .branchTarget => 0x04 | .fetch => 0x05 | .address => 0x06
  | .misaligned => 0x07 | .range => 0x08 | .permission => 0x09 | .demand => 0x0A | .extentOverflow => 0x0B | .shape => 0x0C
  | .poison => 0x0D | .mirror => 0x0E | .bin => 0x0F | .drainRefused => 0x10 | .remote => 0x11 | .systemAtomic => 0x12
  | .dependence => 0x13 | .gang => 0x14 | .overArrival => 0x15 | .barrierState => 0x16 | .deadlock => 0x17 | .software => 0x18

/-- What a fetch gives: the word, or the cause and DETAIL of an instruction-fetch fault (R361, R370). -/
inductive Fetched where
  | word (w : Word) | fails (cause : BitVec 8) (detail : DWord)
  deriving DecidableEq, Repr
/-- DETAIL of a refused fetch (R370). -/
def fetchDetail (reason pa : Nat) : DWord := BitVec.ofNat 64 (podWin pa * 2 ^ 18 + podPeer pa * 2 ^ 8 + reason)
/-- The fetch of the word at a program counter from the code part of range I (R170, R361); the answer of another module is free (log entry
11). -/
def fetch (s : State) (t : Team) (pc : Addr) : Fetched :=
  match t.extents.find? fun e => e.x && e.present && decide (e.vlo ≤ pc.toNat ∧ pc.toNat + 4 ≤ e.vhi) with
  | none => .fails 0 0
  | some e =>
    let a : Acc := { va := pc.toNat, pa := e.plo + (pc.toNat - e.vlo), key := e.key, home := e.home }
    match reach s (funcOfCtx s t.ctx) .load a with
    | .here b => if anyPoison s b.pa 4 then .fails 1 0 else .word (BitVec.ofNat 32 (leVal (readBytes s b.key b.pa 4)))
    | .answered (.refused n) => .fails 2 (fetchDetail n a.pa)
    | _ =>
      let q := Config.podAnswer s.clock a.pa 4
      if q.1 % 8 = 0 then .word (BitVec.ofNat 32 (leVal (q.2.take 4)))
      else if q.1 % 8 = 7 then .fails 1 0 else .fails 2 (fetchDetail (q.1 % 8) a.pa)
/-- The word at a program counter, for a trap record; zero where none is fetched. -/
def wordAt (s : State) (t : Team) (pc : Addr) : Word := match fetch s t pc with | .word w => w | .fails _ _ => 0

/-- Buffered stores are released as one instruction of class STC (R357, R481), in program order. -/
def releaseBuf (s : State) (key : Nat) (c : Crew) (pc : Addr) (word : Word) : State :=
  if c.buf.isEmpty then s
  else addOp s
    { crew := key, team := c.team, core := coreOf key, cls := some .store, kind := .release pc, accs := c.buf, pc := pc, word := word }
/-- `REGION #0` (R357): the open region closes, and its stores are released. -/
def closeRegion (s : State) (key : Nat) (pc : Addr) (word : Word) : State :=
  match s.crew? key with
  | none => s
  | some c =>
    match c.region with
    | none => s
    | some _ => releaseBuf (s.setCrew key { c with region := none, buf := [] }) key c pc word
/-- What a region or a speculation records (R324, R358). -/
def Crew.checkpoint (c : Crew) (pc : Addr) : Checkpoint :=
  { pc := pc, sregs := c.sregs, mode := c.mode, gang := c.gang, gangMarks := c.gangMarks, rndcnt := c.rndcnt }
/-- R359: the open region is aborted. The crew does not issue until the region's instructions are complete, its loads with the region's stores
before them; then the stores are discarded and its semaphores are adjusted (R236). -/
def abortRegion (s : State) (key : Nat) (why : BitVec 8) (sent : Nat := 0) : State :=
  match s.crew? key with
  | none => s
  | some c =>
    match c.region with
    | none => s
    | some r =>
      let s := emitCrewA s key 0x10 why (pcBits r.cp.pc) sent
      let s := s.setCrew key { c with
        pc := r.cp.pc, sregs := r.cp.sregs, mode := r.cp.mode, gang := r.cp.gang, rndcnt := r.cp.rndcnt, spare := none, fenceAt := none
        held := c.held.filter fun h => decide (h.op < r.first), region := some { r with first := s.nextOp } }
      settleAbort { s with ops := s.ops.map fun p =>
          if p.2.crew == key && decide (r.first ≤ p.1) then (p.1, { p.2 with quiet := true }) else p } key
/-- DETAIL of an entry that ends on a trap (R371). -/
def endDetail (code cause crew team : Nat) : DWord :=
  BitVec.ofNat 64 (code % 65536 * 2 ^ 48 + cause % 256 * 2 ^ 40 + crew % 32 * 2 ^ 32 + team % 2 ^ 32)
/-- The trap record (R368, R369). -/
def recordOf (c : Crew) (info : TrapInfo) (more : Bool) : TrapRec :=
  { w0 := BitVec.ofNat 64 (info.word.toNat * 2 ^ 32 + (if c.rclosed then 2 ^ 26 else 0) + (if info.held then 2 ^ 25 else 0) +
            (if more then 2 ^ 24 else 0) + info.cause.toNat * 256 + info.kind.code)
    w1 := info.resume.setWidth 64
    w2 := info.fault.setWidth 64
    w3 := info.addr
    w4 := info.mask
    w5 := info.detail
    w6 := c.mode
    w7 := c.getS 63 }
/-- The oldest of the faults gathered at a raising instruction (R366). -/
def oldestRaised (hs : List Held) : Option Held :=
  hs.foldl (fun r h => if h.raised then (match r with | some q => if h.op < q.op then some h else r | none => some h) else r) none
/-- A crew whose next record finds no reservation stalls for this step (R410): it goes on when n are there. -/
def stallCrew (s : State) (key : Nat) (c : Crew) (n : Nat := 0) : State :=
  let f := funcOfTeam s c.team
  let s := s.setCrew key { c with stalled := some (c.stalled.getD (cycleOf s (coreOf key / 32))), needs := n }
  s.modFunc f fun x =>
    let y := { x with trace := { x.trace with stat := x.trace.stat ||| 2 } }
    if x.trace.stat.getLsbD 1 then y else y.signal 2
/-- The reservations that a step of a crew takes, the STALLEND of its stall included (R410). -/
def stallNeeds (c : Crew) (s' : State) : Nat := s'.fabric.wanted + if c.stalled.isNone && c.stallSum == 0 then 1 else 0
/-- A step of a crew that would emit a stallable record for which no reservation is free is not made: the crew stalls (R410). -/
def orStall (s : State) (key : Nat) (c : Crew) (s' : State) : State :=
  if s'.fabric.starved then stallCrew s key c (stallNeeds c s') else s'
/-- A crew that goes on after a stall first emits STALLEND (R410). -/
def endStall (s : State) (key : Nat) (c : Crew) : State × Crew :=
  let (s, c) := stallOver s key c
  if c.stallSum = 0 then (s, c)
  else (emitS (s.modCrew key fun c => { c with stallSum := 0 }) key 0x06 0 (BitVec.ofNat 32 (min c.stallSum 0xFFFFFFFF)), { c with stallSum := 0 })
/-- A record of the crew's function waits for space on its core in lossless mode (R411). -/
def traceHeld (s : State) (key : Nat) (c : Crew) : Bool :=
  let f := funcOfTeam s c.team
  lossless s f && s.fabric.items.any fun i => i.die * 32 + i.src == coreOf key && i.func == f && !i.granted && i.own && decide (i.src < 32) &&
    decide (traceSpace s f = 0)
/-- Steps 3 and 4 of R363; without a reservation for the TRAP record, or while a record of its function waits on the core, the crew stalls (R410,
R411). -/
def takeTrap (s : State) (key : Nat) (c : Crew) (t : Team) (p : TrapInfo) : State :=
  let pick := if p.held then oldestRaised c.held else none
  let info := match pick with | some h => { h.info with resume := p.resume } | none => p
  let held := (match pick with | some h => c.held.filter (· != h) | none => c.held).map fun (h : Held) => { h with raised := false }
  let e := endStall s key c
  let s' := emitS e.1 key 0x03 (BitVec.ofNat 8 info.kind.code) (pcBits info.fault)
  if traceHeld s key c then stallCrew s key c
  else if s'.fabric.starved then { stallCrew s key c (stallNeeds c s') with fabric := s.fabric }
  else
    let c := { e.2 with held := held, trap := recordOf c info !held.isEmpty, rclosed := false, pending := none, wait := .none }
    if t.trapv = 0 then
      endEntry (s'.setCrew key c) t.entry (BitVec.ofNat 16 (0x80 + info.kind.code))
        (endDetail (if info.kind = .software then info.detail.toNat else 0) info.cause.toNat c.idx t.tidx)
    else s'.setCrew key { c with mode := 0, handler := true, pc := t.trapv }
/-- The crew waits at a barrier (R318): a trap at its next instruction is taken when the wait is over. -/
def Crew.inBarrier (c : Crew) : Bool := match c.wait with | .barrier _ _ => true | _ => false
/-- TAKING A TRAP (R363): once the class counters are zero the open region is closed, and once its stores are performed the
record is written and the handler entered. -/
def enterTrap (s : State) (key : Nat) : State :=
  match s.crew? key with
  | none => s
  | some c =>
    match c.pending, s.team? c.team with
    | some p, some t =>
      if c.inBarrier then s
      else if s.ops.any fun q => q.2.crew == key && (q.2.cls.isSome || q.2.quiet && !q.2.done) then s
      else if c.region.isSome then
        let s := closeRegion s key p.fault p.word
        let s := s.modCrew key fun c => { c with rclosed := true }
        if c.buf.isEmpty then (match s.crew? key with | some c => takeTrap s key c t p | none => s) else s
      else takeTrap s key c t p
    | _, _ => s
/-- The entry of a team is ending: a trap of its crews is discarded (R364). -/
def entryEnding (s : State) (t : Team) : Bool :=
  match Tbl.get? s.entries t.entry with
  | some e => (match e.st with | .ending _ _ => true | _ => false)
  | none => false
/-- A crew takes a trap or fault of precise or held nature (R363, R365): in handler state it is a double trap. It waits for no semaphore any
more (R242). -/
def setTrap (s : State) (key : Nat) (info : TrapInfo) : State :=
  match s.crew? key with
  | none => s
  | some c =>
    match s.team? c.team with
    | none => s
    | some t =>
      if entryEnding s t then s
      else if c.handler then endEntry s t.entry 0x00FF (endDetail 0 info.kind.code c.idx t.tidx)
      else
        let s := dropSpawn (s.modTeam c.team fun t => { t with semWait := t.semWait.filter fun p => p.2 != key }) key
        enterTrap (s.setCrew key { c with pending := some info, wait := .none, spare := none, fenceAt := none, spawn := none }) key

/-- A Trivet entry lists a crew of a team. -/
def listsCrew (team idx : Nat) (r : Rendezvous) : Bool := r.team == team && r.members.contains idx
/-- A mark of R275 joins a crew's marks: one for each member set. -/
def Crew.markGang (c : Crew) (cause : BitVec 8) (gang : DWord) : Crew :=
  { c with gangMarks := c.gangMarks.filter (fun m => gangSet m.2 != gangSet gang) ++ [(cause, gang)] }
/-- R274, R275: the selected entries of the Trivet fail with a cause: members that wait take gang faults in the order of their crew
indices, each of which fails the other entries that list it; members that have not arrived are marked, but for `skip`. -/
def failGangs : Nat → State → Nat → (Rendezvous → Bool) → Nat → Option Nat → State
  | 0, s, _, _, _, _ => s
  | fuel + 1, s, core, sel, cause, skip =>
    match (s.core core).trivet.find? sel with
    | none => s
    | some r =>
      let s := s.modCore core fun k => { k with trivet := k.trivet.filter (· != r) }
      let gang := match r.arrived with | a :: _ => a.gang | [] => 0
      let mark := fun (p : Nat × Crew) =>
        if listsCrew p.2.team p.2.idx r && some p.2.idx != skip && !(r.arrived.any fun a => a.crew == p.1) then
          (p.1, p.2.markGang (BitVec.ofNat 8 cause) gang) else p
      let s := { s with crews := s.crews.map mark }
      let arrived := sortKey (fun (a : Arrival) => match s.crew? a.crew with | some c => c.idx | none => 0) r.arrived
      let s := arrived.foldl (fun s a =>
        match s.crew? a.crew, teamOfCrew s a.crew with
        | some c, some t =>
          if c.wait = .trivet then
            setTrap (emitCrewA s a.crew 0x22 (BitVec.ofNat 8 cause) (a.gang.setWidth 32)) a.crew
              { kind := .gang, cause := BitVec.ofNat 8 cause, resume := c.pc, fault := c.pc, word := wordAt s t c.pc, detail := a.gang }
          else s
        | _, _ => s) s
      let s := arrived.foldl (fun s a =>
        match s.crew? a.crew with
        | some c => failGangs fuel s core (listsCrew c.team c.idx) 1 none
        | none => s) s
      failGangs fuel s core sel cause skip
/-- A crew takes a precise or held trap, and the Trivet entries that list it fail with cause 1 (R274). -/
def raise (s : State) (key : Nat) (info : TrapInfo) : State :=
  match s.crew? key with
  | none => s
  | some c =>
    if (match s.team? c.team with | some t => entryEnding s t | none => false) then s
    else failGangs 65 (setTrap s key info) (coreOf key) (listsCrew c.team c.idx) 1 none
/-- R122: when a crew of a team has ended and every other is blocked at a core barrier, each takes a barrier-deadlock trap at its
barrier instruction; one whose speculation has stopped is first put back. The arrivals that ARR has counted stay counted (log entry 128). -/
def checkDeadlock (s : State) (tid : Nat) : State :=
  match s.team? tid with
  | none => s
  | some t =>
    let alive := t.crews.filter fun k => match s.crew? k with | some c => c.wait != .ended | none => false
    let stuck := fun k => match s.crew? k with
      | some c => (match c.wait with | .barrier h _ => decide (h < 128) | _ => false) ||
          (match c.spec with | some sp => sp.stopped | none => false)
      | none => false
    if t.halt = .running ∧ t.crews.length ≠ alive.length ∧ alive.isEmpty = false ∧ alive.all stuck = true then
      alive.foldl (fun s k =>
        let s := rollback s k 6 0
        match s.crew? k with
        | some c =>
          (match c.wait with
           | .barrier h p => raise s k
               { kind := .deadlock, resume := c.pc - 4, fault := c.pc - 4, word := wordAt s t (c.pc - 4),
                 detail := BitVec.ofNat 64 (p.toNat * 2 ^ 32 + h) }
           | _ => s)
        | none => s) s
    else s

/-- Speculation stops before an instruction (R327): 1 an instruction, 2 capacity, 3 a trap or fault. -/
def stopSpec (s : State) (key : Nat) (why : BitVec 8) : State :=
  match s.crew? key with
  | none => s
  | some c =>
    match c.spec with
    | none => s
    | some sp =>
      let s := emitS s key 0x13 why (pcBits c.pc) true
      s.modCrew key fun c => { c with spec := some { sp with stopped := true }, spare := none }

/-- A speculating crew takes no trap: it stops before the instruction (R327, R331). -/
def trapOrStop (s : State) (key : Nat) (info : TrapInfo) : State :=
  match s.crew? key with
  | none => s
  | some c => if c.spec.isSome then stopSpec s key 3 else raise s key info
/-- A trap of an instruction at its own program counter. -/
def trapAt (s : State) (key : Nat) (c : Crew) (word : Word) (kind : TrapKind) (cause : BitVec 8 := 0) (addr mask detail : DWord := 0) :
    State :=
  trapOrStop s key { kind := kind, cause := cause, resume := c.pc, fault := c.pc, word := word, addr := addr, mask := mask, detail := detail }
/-- Held faults that meet R107 at an instruction are raised there, oldest first. -/
def raiseHeld (s : State) (key : Nat) (c : Crew) (sel : Held → Bool) : State :=
  let hs := c.held.map fun h => if sel h then { h with raised := true } else h
  match oldestRaised hs with
  | none => s
  | some h => if c.spec.isSome then stopSpec s key 3
    else raise (s.setCrew key { c with held := hs }) key { h.info with resume := c.pc }

/-- The leaf of a page names host space (R172). -/
def hostLeaf (s : State) (x : Ctx) (page : Nat) : Bool :=
  match walk s x (page * 65536) with
  | .leaf l => inHost l.pa
  | _ => false
/-- A page request that has not gone out goes out when it is among its context's 4096 and, for host space, a PRG index is free and
the function may ask (R387, R458). -/
def trySend (s : State) (ctx req : Nat) : State :=
  match Tbl.get? s.ctxs ctx with
  | none => s
  | some x =>
    match Tbl.get? x.reqs req with
    | none => s
    | some p =>
      if p.sent ∨ Config.maxPageReqs ≤ (x.reqs.filter fun q => decide (q.1 < req)).length then s
      else if !p.host then s.modCtx ctx fun x => { x with reqs := Tbl.put x.reqs req { p with sent := true } }
      else
        let f := s.func x.func
        if f.priStopped ∨ f.prgMax ≤ f.prg.length then s
        else match (List.range 512).find? fun i => !f.prg.contains i && !f.prgDead.contains i with
          | none => s
          | some i => (s.modCtx ctx fun x => { x with reqs := Tbl.put x.reqs req { p with sent := true, prg := some i } }).modFunc x.func
              fun f => { f with prg := setAdd f.prg i }
/-- The unsent requests of a function go out in the order they were raised (R458). -/
def sendReqs (s : State) (func : Nat) : State :=
  (sortKey (·.2) ((s.ctxs.filter fun p => p.2.func == func).flatMap fun p =>
    (p.2.reqs.filter fun q => !q.2.sent).map fun q => (p.1, q.1))).foldl (fun s p => trySend s p.1 p.2) s
/-- A page request of a context, for a team or for dispatch, shared with one that is outstanding for the page (R172, R387). -/
def requestPage (s : State) (ctx page : Nat) (need : Bool × Bool) (team : Option Nat) : State :=
  match Tbl.get? s.ctxs ctx with
  | none => s
  | some x =>
    match x.reqs.find? fun p => p.2.page == page with
    | some (n, p) => s.modCtx ctx fun x => { x with
        reqs := Tbl.put x.reqs n { p with read := p.read || need.1, write := p.write || need.2, teams := (team.toList ++ p.teams).eraseDups } }
    | none =>
      sendReqs ({ s with nextId := s.nextId + 1 }.modCtx ctx fun x => { x with
        reqs := Tbl.put x.reqs s.nextId { page := page, host := hostLeaf s x page, read := need.1, write := need.2, pasid := x.pasid, teams := team.toList } }) x.func
/-- The read and write need of the modes of the ranges that hold a page (R458). -/
def Team.pageNeed (t : Team) (page : Nat) : Bool × Bool :=
  let es := t.extents.filter fun e => decide (page * 65536 < e.vhi ∧ e.vlo < page * 65536 + 65536)
  (es.any (·.r), es.any (·.w))
/-- Page requests of a core, with their DEMAND records. -/
def requestPages (s : State) (core : Nat) (tid : Nat) (t : Team) (pages : List Nat) : State :=
  pages.foldl (fun s p =>
    emitA (requestPage s t.ctx p (t.pageNeed p) (some tid)) (core / 32) (core % 32) (funcOfCtx s t.ctx) none 0x60 0 (BitVec.ofNat 32 (p % 2 ^ 32)) 0 (some t.ctx)) s
/-- A demand fault (R177): inside an open region the crew goes back to the region's start and waits for the pages; otherwise it
is a precise trap, and the requests are raised all the same. -/
def demandFault (s : State) (key : Nat) (c : Crew) (t : Team) (info : TrapInfo) (pages : List Nat) : State :=
  if c.spec.isSome then stopSpec s key 3
  else
    let s := requestPages s (coreOf key) c.team t pages
    match c.region with
    | some r =>
      (abortRegion s key 1).modCrew key fun c =>
        { c with wait := .demand (pages.map fun p => (p, none)) { info with resume := r.cp.pc } }
    | none => raise s key info
/-- The pages of a check that lie in a hole. -/
def demandPages (t : Team) (c : Check) : List Nat :=
  ((List.range ((c.va + c.size - 1) / 65536 - c.va / 65536 + 1)).map fun i => c.va / 65536 + i).filter fun p =>
    (List.range c.size).any fun i => decide ((c.va + i) / 65536 = p) && (byteFaults t (c.access != 1) (c.access != 0) (c.va + i)).contains .demand
/-- The fault of R176 that an instruction's checks give is taken: kind, address, mask and access code. The pages of a demand fault come in
the order of their lanes (R389). -/
def takeKind (s : State) (key : Nat) (c : Crew) (t : Team) (word : Word) (cs : List Check) (f : TrapKind × Nat × DWord × Nat) : State :=
  let info : TrapInfo := { kind := f.1, resume := c.pc, fault := c.pc, word := word, addr := BitVec.ofNat 64 f.2.1, mask := f.2.2.1,
                           detail := BitVec.ofNat 64 f.2.2.2 }
  if f.1 = .demand then
    demandFault s key c t info
      ((sortKey Check.lane (cs.filter fun x => x.faults.contains .demand)).flatMap (demandPages t)).eraseDups
  else trapOrStop s key info
/-- The outcome of R176 for an instruction: the state after its fault, if it has one. -/
def takeAccess (s : State) (key : Nat) (c : Crew) (t : Team) (word : Word) (cs : List Check) : Option State :=
  (laneFault cs).map (takeKind s key c t word cs)

/-- What the checks at issue need of an instruction (R62, R63). -/
structure Need where
  /-- The word, for the trap record. -/
  word : Word
  /-- Checks 2, 3 and 4 pass. -/
  ok : Bool := true
  /-- Vector registers read and written (R42, R44, R107). -/
  reads : List Nat := []
  writes : List Nat := []
  /-- Handle fields, and whether each is held and valid (R51). -/
  handles : List (Nat × Bool) := []
  /-- The counter class (R50, R62). -/
  cls : Option Cls := none
  /-- The instruction waits at issue for another reason (R201). -/
  waits : Bool := false
  /-- The instruction stops speculation (R327); closes the open region (R356). -/
  stops : Bool := false
  closes : Bool := false
  /-- The lines that it is to reach (R22, log entry 109). -/
  lines : Nat := 0
  deriving DecidableEq, Repr

/-- The word of an instruction. -/
def wordOf (i : Instr) : Word := (encode i).getD 0
/-- The vector registers that an outstanding operation will write (R44). -/
def Op.regs (o : Op) : List Nat :=
  if o.done then [] else
    (match o.kind with
     | .binw b => [b.reg]
     | _ => []) ++ o.accs.flatMap fun a => match a.dst with
       | some d => if d.bits = 64 then [d.reg, d.reg + 1] else [d.reg]
       | none => []
/-- The core belongs to a slice; one that does not runs nothing (R39). -/
def coreOwned (s : State) (core : Nat) : Bool := s.slices.any fun p => (sliceCores s p.1).contains core
/-- The crew cannot issue (R39, R101): its core belongs to no slice, a trap is being taken, it waits, its team is halted, its speculation has stopped, or the
instructions of an aborted region are not complete (R359). -/
def blocked (s : State) (key : Nat) (c : Crew) (t : Team) : Bool :=
  !coreOwned s (coreOf key) || c.pending.isSome || c.wait != .none || t.halt != .running ||
  (match c.spec with | some sp => sp.stopped | none => false) ||
  s.ops.any fun p => p.2.crew == key && p.2.quiet && !p.2.done
/-- The lines outside the core's SRAM that accesses are to reach: each is one memory request (R22, log entry 109). -/
def lineCount (as : List Acc) : Nat :=
  ((as.filter fun a => a.st == .todo && !a.clip && !inScratch a.pa).map fun a => lineOf a.pa).eraseDups.length
/-- The memory requests of an operation that are outstanding; an engine has at most 256 line operations in flight (R22, R234). -/
def Op.requests (o : Op) : Nat :=
  match o.kind with
  | .copy _ ps => min 256 (lineCount (ps.flatMap fun p => p.src.toList ++ [p.dst]))
  | _ => lineCount o.accs
/-- A core has no room for k more of its 1024 outstanding memory requests (R22); one instruction alone always has. -/
def requestsFull (s : State) (core k : Nat) : Bool :=
  let u := (s.ops.filter fun p => p.2.core == core && !p.2.done).foldl (fun n p => n + p.2.requests) 0
  k != 0 && u != 0 && decide (1024 < u + k)
/-- The instruction waits at issue: for a register (R44), for a full class counter (R50, R481), for memory requests (R22), those of the stores that
it releases included. -/
def hazard (s : State) (key : Nat) (c : Crew) (n : Need) : Bool :=
  n.waits ||
  (s.ops.any fun p => p.2.crew == key && p.2.regs.any fun r => n.reads.contains r || n.writes.contains r) ||
  (match n.cls with | some k => decide (63 ≤ classCount s key k) | none => false) ||
  requestsFull s (coreOf key) (n.lines + if n.closes && c.region.isSome then lineCount c.buf else 0) ||
  (n.closes && c.region.isSome && !c.buf.isEmpty && decide (63 ≤ classCount s key .store + (if n.cls = some .store then 1 else 0)))
/-- R63: the first check that fails. -/
def firstFail (t : Team) (n : Need) : Option (TrapKind × DWord) :=
  if !n.ok then some (.illegal, 0)
  else if (n.reads ++ n.writes).any fun r => decide (t.nvreg ≤ r) then some (.operand, 0)
  else match n.handles.find? fun h => !h.2 with
    | some h => some (.handle, BitVec.ofNat 64 h.1)
    | none => none
/-- Register-file rows of a core that no crew holds, shadow rows included (R23, R324). -/
def freeRows (s : State) (core : Nat) : Nat :=
  Config.rowsPerCore -
    ((s.teams.filter fun p => p.2.core == core).foldl (fun n p => p.2.blocks.foldl (fun n b => n + b.2.2) n) 0 +
     (s.crews.filter fun p => coreOf p.1 == core).foldl (fun n p =>
       n + (match p.2.spec, s.team? p.2.team with | some sp, some t => sp.shadow.length * t.width / 16 | _, _ => 0)) 0)
/-- The first write to a register during speculation copies its old contents into shadow rows (R324); none when no rows are
free (R327). With no active lane nothing is written (R66). -/
def shadowRegs (s : State) (key : Nat) (t : Team) : List Nat → Crew → Option Crew
  | [], c => some c
  | r :: rs, c =>
    match c.spec with
    | none => some c
    | some sp =>
      if (Tbl.get? sp.shadow r).isSome || (c.actives t.width).isEmpty then shadowRegs s key t rs c
      else if freeRows s (coreOf key) < (sp.shadow.length + 1) * t.width / 16 - (match (s.crew? key).bind (·.spec) with
          | some q => q.shadow.length | none => 0) * t.width / 16 then none
      else shadowRegs s key t rs
        { c with spec := some { sp with shadow := Tbl.put sp.shadow r ((List.range t.width).map fun l => c.getV r l) } }
/-- CREWSTART is emitted, or the crew issues nothing until it can be (R410). -/
def startCrew (s : State) (key : Nat) (c : Crew) : State :=
  let (s1, c1) := endStall s key c
  let s2 := emitS s1 key 0x01 (BitVec.ofNat 8 c1.idx) (BitVec.ofNat 32 (match s.team? c.team with | some t => t.tidx | none => 0))
  if s2.fabric.starved then { stallCrew s key { c with started := false } (stallNeeds c s2) with fabric := s.fabric } else s2.setCrew key { c1 with started := true }
/-- A crew is placed: its CREWSTART is emitted now, or, while the core's pool is empty or a record waits there, at its first turn to issue. -/
def beginCrew (s : State) (key : Nat) (c : Crew) : State :=
  if ((s.core (coreOf key)).granted = 0 ∨ (s.core (coreOf key)).grantee ≠ funcOfTeam s c.team) ∧
      delivers s (funcOfTeam s c.team) (coreOf key / 32) 0x01 (BitVec.ofNat 8 c.idx) false (some c) = true ∨ traceHeld s key c = true then
    s.setCrew key { c with started := false }
  else startCrew s key c
/-- An instruction issues that has passed every wait and every check: its body acts. -/
def issueBody (s : State) (key : Nat) (c : Crew) (t : Team) (n : Need) (body : State → Crew → Team → State) : State :=
  match shadowRegs s key t n.writes c with
  | none => stopSpec s key 2
  | some c' => body s c' t
/-- What a crew does at an instruction that it can issue: it takes the trap of a failed check, raises a held fault (R107), stops speculation,
or acts. -/
def issueNow (s : State) (key : Nat) (c : Crew) (t : Team) (n : Need) (body : State → Crew → Team → State) : State :=
  match firstFail t n with
  | some (k, d) => trapAt s key c n.word k 0 0 0 d
  | none =>
    if c.held.any fun h => h.regs.any n.reads.contains then raiseHeld s key c fun h => h.regs.any n.reads.contains
    else if c.spec.isSome && n.stops then stopSpec s key 1
    else issueBody s key c t n body
/-- THE ISSUE OF AN INSTRUCTION by the crew that the current move chose (R63, R100, R101): it waits, or does what its instruction does,
unless a record that it would emit finds no reservation; after a stall it first emits STALLEND (R410). -/
def issue (s : State) (need : Crew → Team → Need) (body : State → Crew → Team → State) : Host.Outcome State Fault Refusal :=
  match s.crew? s.cur with
  | none => .fault .noCrew
  | some c =>
    match s.team? c.team with
    | none => .fault .noCrew
    | some t =>
      let n := need c t
      if blocked s s.cur c t then .next s
      else if traceHeld s s.cur c then .next (stallCrew s s.cur c)
      else if !c.started then .next (startCrew s s.cur c)
      else if hazard s s.cur c n then .next s
      else
        let (s1, c1) := endStall s s.cur c
        .next (orStall s s.cur c (issueNow s1 s.cur c1 t n body))
/-- A counted instruction that is complete at issue: it is counted once the older ones of its class are (R50, R66, R106). -/
def addDone (s : State) (key : Nat) (c : Crew) (cls : Cls) (kind : OpKind) (word : Word) : State :=
  completeOp (addOp s { crew := key, team := c.team, core := coreOf key, cls := some cls, kind := kind, pc := c.pc, word := word }) s.nextOp
/-- The instruction retires: the program counter advances, and the crew's count of issued instructions (R406). -/
def Crew.advance (c : Crew) : Crew := { c with pc := c.pc + 4, issued := c.issued + 1 }
/-- The crew of the current move retires its instruction with a new crew state. -/
def retire (s : State) (c : Crew) : State := s.setCrew s.cur c.advance
/-- An issued instruction that R406 samples emits ISSUE. -/
def emitIssue (s : State) (key : Nat) (c : Crew) (op : BitVec 8) : State :=
  if samples s key c op then emitS s key 0x50 op (pcBits c.pc) c.spec.isSome else s
/-- A crew whose instruction waited retires it in a step that is not its own move; it first reports a stall that it was in (R410). -/
def retireLate (s : State) (key : Nat) (c : Crew) (op : BitVec 8) : State :=
  let (s, c) := endStall s key c
  emitIssue (s.setCrew key { c with wait := .none }.advance) key c op
/-- Continue at a target. -/
def jump (s : State) (c : Crew) (pc : Addr) : State := s.setCrew s.cur { c with pc := pc, issued := c.issued + 1 }
/-- An event that its rule does not enable in this state. -/
def disabled : Host.Outcome State Fault Refusal := .fault .notEnabled

/-- THE RETURN FROM A TRAP (R374): MODE and s63 come back from the record, and the crew continues at the resume PC. -/
def leaveHandler (c : Crew) : Crew :=
  { { c with mode := c.trap.w6 }.setS 63 c.trap.w7 with handler := false, pc := c.trap.w1.setWidth 56, issued := c.issued + 1 }

end Sys2Proof.Machine
end

