-- ==== Sys2Proof/Machine/Vector.lean ====
section
/-! DEFINITION. The vector, special-function and rearrangement instructions (05_vector). They read and write the crew's registers
and its stochastic-rounding counter alone. -/
namespace Sys2Proof.Machine

/-- How element e of lane l of a crew's instruction is rounded: MODE.RND, SAT, FTZ, and the draw of R91 (R138). -/
def rndAt (c : Crew) (l e : Nat) : Rnd :=
  { rnd := rndOf c.mode, sat := mSat c.mode, ftz := mFtz c.mode, draw := drawOf c.rseed c.rndcnt c.idx l e }
/-- The stochastic-rounding counter advances for an instruction that consumes RND = 5 (R92). -/
def Crew.countRnd (c : Crew) (rounds : Bool) : Crew :=
  if rounds && rndOf c.mode == 5 then { c with rndcnt := c.rndcnt + 1 } else c
/-- Each active lane of a register is written with a value computed from the old registers (R136). -/
def Crew.mapLanes (c : Crew) (width d : Nat) (f : Nat → Word) : Crew := c.setLanes d ((c.actives width).map fun l => (l, f l))
/-- The vector registers of a unit of R135 at a field. -/
def unitRegs (mode : DWord) (r : VReg) : List Nat := if tyOf mode = 13 then [r.toNat, r.toNat + 1] else [r.toNat]
/-- A field may name a unit: even for pairs (R135). -/
def unitOk (mode : DWord) (r : VReg) : Bool := tyOf mode != 13 || VReg.even r
/-- The unit of a lane (R135), and writing it. -/
def Crew.getUnit (c : Crew) (r l : Nat) : DWord := if tyOf c.mode = 13 then c.getPair r l else (c.getV r l).setWidth 64
def Crew.setUnit (c : Crew) (r l : Nat) (x : DWord) : Crew :=
  if tyOf c.mode = 13 then c.setPair r l x else c.setV r l (x.setWidth 32)
/-- Each active lane's unit is written with a value computed from the old registers. -/
def Crew.mapUnits (c : Crew) (width d : Nat) (f : Nat → DWord) : Crew :=
  ((c.actives width).map fun l => (l, f l)).foldl (fun c p => c.setUnit d p.1 p.2) c
/-- `elem` of R135: the raw element of MODE.TYPE in a lane, as a float and as an integer. -/
def Crew.elem (c : Crew) (r l : Nat) : Nat := elemOf (tyOf c.mode) (mHalf c.mode) (c.getV r l)
def Crew.elemF (c : Crew) (r l : Nat) : Val := readF (fmtOf (tyOf c.mode)) (mFtz c.mode) (c.elem r l)
def Crew.elemI (c : Crew) (r l : Nat) : Int := readI (tyOf c.mode) (c.elem r l)
/-- `put` of R135, as the new lane. -/
def Crew.putLane (c : Crew) (r l x : Nat) : Word := withElem (tyOf c.mode) (mHalf c.mode) (c.getV r l) x

/-- Type lists of R134. -/
def arithTypes : List Nat := [0, 1, 2, 6, 7, 8, 9, 10, 11]
def shiftTypes : List Nat := [6, 7, 8, 9, 10, 11, 12]
/-- A lane-wise instruction: `ok` is its part of check 4, `rounds` says that it consumes RND (R134), and `f` computes a lane of
the destination from the crew's old registers. -/
def laneOp (i : Instr) (ok rounds : DWord → Bool) (reads : List Nat) (d : VReg) (f : Crew → Nat → Word) (s : State) :
    Host.Outcome State Fault Refusal :=
  issue s (fun c _ => { word := wordOf i, ok := i.wf && ok c.mode && (!rounds c.mode || rndOk c.mode), reads := reads,
                        writes := [d.toNat] })
    fun s c t => retire s ((c.mapLanes t.width d.toNat (f c)).countRnd (rounds c.mode))
/-- TYPE is floating. -/
def floats (m : DWord) : Bool := isFloat (tyOf m)

/-- The exact result of R139: 0 VADD, 1 VSUB, 2 VMUL, 3 VFMA. -/
def arithF (op rnd : Nat) (x y z : Val) : Val :=
  match op with
  | 0 => sumV rnd [x, y]
  | 1 => sumV rnd [x, y.neg]
  | 2 => mulV x y
  | _ => sumV rnd [mulV x y, z]
def arithI (op : Nat) (x y z : Int) : Int :=
  match op with
  | 0 => x + y
  | 1 => x - y
  | 2 => x * y
  | _ => x * y + z
/-- A lane of R139. -/
def arithLane (op : Nat) (d a b : VReg) (c : Crew) (l : Nat) : Word :=
  c.putLane d.toNat l
    (if floats c.mode then
      roundV (fmtOf (tyOf c.mode)) (rndAt c l 0) (arithF op (rndOf c.mode) (c.elemF a.toNat l) (c.elemF b.toNat l) (c.elemF d.toNat l))
     else narrowI (tyOf c.mode) (mSat c.mode) (arithI op (c.elemI a.toNat l) (c.elemI b.toNat l) (c.elemI d.toNat l)))
/-- The types of the lane arithmetic (R134). -/
def arithOk (m : DWord) : Bool := tyIn (tyOf m) arithTypes
/-- VADD (R139). -/
def execVadd (d a b : VReg) (s : State) : Host.Outcome State Fault Refusal :=
  laneOp (.vadd d a b) arithOk floats [a.toNat, b.toNat] d (arithLane 0 d a b) s
/-- VSUB (R139). -/
def execVsub (d a b : VReg) (s : State) : Host.Outcome State Fault Refusal :=
  laneOp (.vsub d a b) arithOk floats [a.toNat, b.toNat] d (arithLane 1 d a b) s
/-- VMUL (R139). -/
def execVmul (d a b : VReg) (s : State) : Host.Outcome State Fault Refusal :=
  laneOp (.vmul d a b) arithOk floats [a.toNat, b.toNat] d (arithLane 2 d a b) s
/-- VFMA (R139): the addend is the old vd. -/
def execVfma (d a b : VReg) (s : State) : Host.Outcome State Fault Refusal :=
  laneOp (.vfma d a b) arithOk floats [d.toNat, a.toNat, b.toNat] d (arithLane 3 d a b) s

/-- The code of a value that its format holds exactly. -/
def exactCode (t : Nat) (v : Val) : Nat := roundV (fmtOf t) { rnd := 0 } v
/-- A lane of VMIN or VMAX (R140). -/
def minMaxLane (mx : Bool) (d a b : VReg) (c : Crew) (l : Nat) : Word :=
  c.putLane d.toNat l
    (if floats c.mode then
      exactCode (tyOf c.mode) ((if mx then maxV else minV) (c.elemF a.toNat l) (c.elemF b.toNat l))
     else lowBits (tyOf c.mode) ((if mx then max else min) (c.elemI a.toNat l) (c.elemI b.toNat l)))
/-- An instruction of this chapter that never rounds. -/
def never (_ : DWord) : Bool := false
/-- VMIN (R140). -/
def execVmin (d a b : VReg) (s : State) : Host.Outcome State Fault Refusal :=
  laneOp (.vmin d a b) arithOk never [a.toNat, b.toNat] d (minMaxLane false d a b) s
/-- VMAX (R140). -/
def execVmax (d a b : VReg) (s : State) : Host.Outcome State Fault Refusal :=
  laneOp (.vmax d a b) arithOk never [a.toNat, b.toNat] d (minMaxLane true d a b) s

/-- An instruction on the units of R135: a lane of the destination's units from the old registers. -/
def unitOp (i : Instr) (fields : List VReg) (d : VReg) (f : Crew → Team → Nat → DWord) (s : State) :
    Host.Outcome State Fault Refusal :=
  issue s (fun c _ => { word := wordOf i, ok := i.wf && decide (tyOf c.mode ≤ 13) && fields.all (unitOk c.mode) && unitOk c.mode d,
                        reads := fields.flatMap (unitRegs c.mode), writes := unitRegs c.mode d })
    fun s c t => retire s (c.mapUnits t.width d.toNat (f c t))
/-- VAND (R141). -/
def execVand (d a b : VReg) (s : State) : Host.Outcome State Fault Refusal :=
  unitOp (.vand d a b) [a, b] d (fun c _ l => c.getUnit a.toNat l &&& c.getUnit b.toNat l) s
/-- VOR (R141). -/
def execVor (d a b : VReg) (s : State) : Host.Outcome State Fault Refusal :=
  unitOp (.vor d a b) [a, b] d (fun c _ l => c.getUnit a.toNat l ||| c.getUnit b.toNat l) s
/-- VXOR (R141). -/
def execVxor (d a b : VReg) (s : State) : Host.Outcome State Fault Refusal :=
  unitOp (.vxor d a b) [a, b] d (fun c _ l => c.getUnit a.toNat l ^^^ c.getUnit b.toNat l) s

/-- The types of the shifts (R134). -/
def shiftOk (m : DWord) : Bool := tyIn (tyOf m) shiftTypes
/-- A lane of VSHL (R142). -/
def shlLane (d a b : VReg) (c : Crew) (l : Nat) : Word :=
  let w := tyBits (tyOf c.mode)
  c.putLane d.toNat l (c.elem a.toNat l * 2 ^ (c.elem b.toNat l % w) % 2 ^ w)
/-- A lane of VSHR (R142). -/
def shrLane (d a b : VReg) (c : Crew) (l : Nat) : Word :=
  let w := tyBits (tyOf c.mode)
  c.putLane d.toNat l (lowBits (tyOf c.mode) (c.elemI a.toNat l / (2 ^ (c.elem b.toNat l % w) : Nat)))
/-- VSHL (R142). -/
def execVshl (d a b : VReg) (s : State) : Host.Outcome State Fault Refusal :=
  laneOp (.vshl d a b) shiftOk never [a.toNat, b.toNat] d (shlLane d a b) s
/-- VSHR (R142). -/
def execVshr (d a b : VReg) (s : State) : Host.Outcome State Fault Refusal :=
  laneOp (.vshr d a b) shiftOk never [a.toNat, b.toNat] d (shrLane d a b) s

/-- A compare (R143): the whole scalar is the mask of the active lanes for which the comparison holds. -/
def compareOp (i : Instr) (ok : DWord → Bool) (d : SReg) (a b : VReg) (cmp : Crew → Nat → Bool) (s : State) :
    Host.Outcome State Fault Refusal :=
  issue s (fun c _ => { word := wordOf i, ok := i.wf && ok c.mode, reads := [a.toNat, b.toNat] })
    fun s c t => retire s (c.setS d (lanesMask ((c.actives t.width).filter (cmp c))))
/-- VCEQ (R143). -/
def execVceq (d : SReg) (a b : VReg) (s : State) : Host.Outcome State Fault Refusal :=
  compareOp (.vceq d a b) (fun m => tyIn (tyOf m) (12 :: arithTypes)) d a b
    (fun c l => if floats c.mode then eqV (c.elemF a.toNat l) (c.elemF b.toNat l) else c.elem a.toNat l == c.elem b.toNat l) s
/-- VCLT (R143). -/
def execVclt (d : SReg) (a b : VReg) (s : State) : Host.Outcome State Fault Refusal :=
  compareOp (.vclt d a b) arithOk d a b
    (fun c l => if floats c.mode then ltV (c.elemF a.toNat l) (c.elemF b.toNat l) else decide (c.elemI a.toNat l < c.elemI b.toNat l)) s
/-- VCLE (R143). -/
def execVcle (d : SReg) (a b : VReg) (s : State) : Host.Outcome State Fault Refusal :=
  compareOp (.vcle d a b) arithOk d a b
    (fun c l => if floats c.mode then ltV (c.elemF a.toNat l) (c.elemF b.toNat l) || eqV (c.elemF a.toNat l) (c.elemF b.toNat l)
      else decide (c.elemI a.toNat l ≤ c.elemI b.toNat l)) s

/-- VMOV (R144). -/
def execVmov (d a : VReg) (s : State) : Host.Outcome State Fault Refusal :=
  unitOp (.vmov d a) [a] d (fun c _ l => c.getUnit a.toNat l) s
/-- VBCS (R145). -/
def execVbcs (d : VReg) (a : SReg) (s : State) : Host.Outcome State Fault Refusal :=
  unitOp (.vbcs d a) [] d (fun c _ _ => c.getS a) s
/-- VEXT (R146): not guarded; a lane index of W or more is an operand fault. -/
def execVext (d : SReg) (a : VReg) (b : SReg) (s : State) : Host.Outcome State Fault Refusal :=
  issue s (fun c _ => { word := wordOf (.vext d a b), ok := decide (tyOf c.mode ≤ 13) && unitOk c.mode a, reads := unitRegs c.mode a })
    fun s c t =>
      let k := (c.getS b).toNat
      if t.width ≤ k then trapAt s s.cur c (wordOf (.vext d a b)) .operand
      else retire s (c.setS d (c.getUnit a.toNat k))
/-- VLID (R147). -/
def execVlid (d : VReg) (s : State) : Host.Outcome State Fault Refusal :=
  laneOp (.vlid d) (fun _ => true) never [] d (fun _ l => BitVec.ofNat 32 l) s

/-- An element of one type converted to another (R85, R87, R80). -/
def convert (ty sty : Nat) (r : Rnd) (x : Nat) : Nat :=
  if isFloat ty then roundV (fmtOf ty) r (if isFloat sty then readF (fmtOf sty) r.ftz x else ofIntV (readI sty x))
  else if isFloat sty then toIntV ty r (readF (fmtOf sty) r.ftz x)
  else narrowI ty r.sat (readI sty x)
/-- TYPE or STYPE is floating. -/
def eitherFloats (m : DWord) : Bool := isFloat (tyOf m) || isFloat (styOf m)
/-- VCVT (R148). -/
def execVcvt (d a : VReg) (s : State) : Host.Outcome State Fault Refusal :=
  laneOp (.vcvt d a) (fun m => decide (tyOf m ≤ 11) && decide (styOf m ≤ 11)) eitherFloats [a.toNat] d
    (fun c l => c.putLane d.toNat l
      (convert (tyOf c.mode) (styOf c.mode) (rndAt c l 0) (elemOf (styOf c.mode) (mHalf c.mode) (c.getV a.toNat l)))) s

/-- A lane of a special function (R149, R96). -/
def specialLane (op : Nat) (d a : VReg) (c : Crew) (l : Nat) : Word :=
  c.putLane d.toNat l (specialV op (fmtOf (tyOf c.mode)) (rndAt c l 0) (c.elemF a.toNat l))
/-- The types of the special functions (R134); they always consume RND. -/
def specialOk (m : DWord) : Bool := decide (tyOf m ≤ 2)
def always (_ : DWord) : Bool := true
/-- VRCP (R149). -/
def execVrcp (d a : VReg) (s : State) : Host.Outcome State Fault Refusal :=
  laneOp (.vrcp d a) specialOk always [a.toNat] d (specialLane 0 d a) s
/-- VRSQ (R149). -/
def execVrsq (d a : VReg) (s : State) : Host.Outcome State Fault Refusal :=
  laneOp (.vrsq d a) specialOk always [a.toNat] d (specialLane 1 d a) s
/-- VEXP2 (R149). -/
def execVexp2 (d a : VReg) (s : State) : Host.Outcome State Fault Refusal :=
  laneOp (.vexp2 d a) specialOk always [a.toNat] d (specialLane 2 d a) s
/-- VLOG2 (R149). -/
def execVlog2 (d a : VReg) (s : State) : Host.Outcome State Fault Refusal :=
  laneOp (.vlog2 d a) specialOk always [a.toNat] d (specialLane 3 d a) s

/-- The element that VRED yields from the raw elements of the active lanes (R150). -/
def reduce (ty op : Nat) (r : Rnd) (xs : List Nat) : Nat :=
  let w := tyBits ty
  match op with
  | 0 =>
    if isFloat ty then
      (if xs.isEmpty then 0 else roundV (fmtOf ty) r (sumV r.rnd (xs.map (readF (fmtOf ty) r.ftz))))
    else narrowI ty r.sat (xs.foldl (fun a x => a + readI ty x) 0)
  | 1 =>
    if isFloat ty then
      (match xs.map (readF (fmtOf ty) r.ftz) with
       | [] => exactCode ty (.inf false)
       | v :: vs => exactCode ty (vs.foldl minV v))
    else lowBits ty ((xs.map (readI ty)).foldl min (intHi ty))
  | 2 =>
    if isFloat ty then
      (match xs.map (readF (fmtOf ty) r.ftz) with
       | [] => exactCode ty (.inf true)
       | v :: vs => exactCode ty (vs.foldl maxV v))
    else lowBits ty ((xs.map (readI ty)).foldl max (intLo ty))
  | 3 => xs.foldl (· &&& ·) (2 ^ w - 1)
  | 4 => xs.foldl (· ||| ·) 0
  | _ => xs.foldl (· ^^^ ·) 0
/-- An element widened to 64 bits (R150). -/
def widen (ty x : Nat) : DWord := if isSigned ty then BitVec.ofInt 64 (readI ty x) else BitVec.ofNat 64 x
/-- R134 for VRED. -/
def redOk (m : DWord) : Bool :=
  if (mRedop m).toNat ≤ 2 then tyIn (tyOf m) arithTypes else decide ((mRedop m).toNat ≤ 5) && tyIn (tyOf m) shiftTypes
def redRounds (m : DWord) : Bool := mRedop m == 0 && floats m
/-- VRED (R150). -/
def execVred (d : SReg) (a : VReg) (s : State) : Host.Outcome State Fault Refusal :=
  issue s (fun c _ => { word := wordOf (.vred d a), ok := redOk c.mode && (!redRounds c.mode || rndOk c.mode), reads := [a.toNat] })
    fun s c t =>
      let x := reduce (tyOf c.mode) (mRedop c.mode).toNat (rndAt c 0 0) ((c.actives t.width).map (c.elem a.toNat))
      retire s ((c.setS d (widen (tyOf c.mode) x)).countRnd (redRounds c.mode))

end Sys2Proof.Machine
end

