-- ==== Sys2Proof/Machine/Memory.lean ====
section
/-! DEFINITION. Loads, stores, shapes, fences and the region instructions (06 R187 to R205, 07 R221, 12 R354 to R360), with the
steps that carry them on. -/
namespace Sys2Proof.Machine

/-- R197: a type that LD and ST accept; the size of its access. -/
def memTypeOk (m : DWord) : Bool := decide (tyOf m ≤ 13) && tyOf m != 5
def memSize (m : DWord) : Nat := tyBits (tyOf m) / 8
/-- MODE.ORD is accepted, and MODE.SCOPE where it is consumed (R197). -/
def ordOk (m : DWord) (l : List Nat) : Bool := l.contains (mOrd m).toNat && (mOrd m == 0 || scopeOk m)
/-- The address operand of R196: an odd pair fails; the registers it names. -/
def awOk (m : DWord) (b : VReg) : Bool := !mAw m || VReg.even b
def addrRegs (m : DWord) (b : VReg) : List Nat := if mAw m then [b.toNat, b.toNat + 1] else [b.toNat]
/-- The lane addresses of the active lanes (R196). -/
def laneAddrs (c : Crew) (t : Team) (a : SReg) (b : VReg) : List (Nat × Nat) :=
  (c.actives t.width).map fun l => (l, (laneAddr c a b l).toNat)
/-- The checks of lane accesses of one size (R199). -/
def laneChecks (t : Team) (ld st local_ mirror : Bool) (align size : Nat) (as : List (Nat × Nat)) : List Check :=
  as.map fun p => { lane := p.1, va := p.2, size := size, access := if ld then (if st then 2 else 0) else 1,
                    faults := accessFaults t ld st local_ mirror align p.2 size }
/-- Where LD writes a lane (R197). -/
def ldDst (m : DWord) (d l : Nat) : Dst :=
  match tyBits (tyOf m) with
  | 16 => { reg := d, lane := l, lo := if mHalf m then 16 else 0, bits := 16, clear := false }
  | n => { reg := d, lane := l, lo := 0, bits := n, clear := true }
/-- What ST stores of a lane (R197). -/
def stData (c : Crew) (d l : Nat) : DWord :=
  if tyOf c.mode = 13 then c.getPair d l else BitVec.ofNat 64 (c.elem d l)
/-- The lane address lies in the mirror window. -/
def inMirror (va : Nat) : Bool := match placeOf va with | .mirror _ => true | _ => false

/-- The lines outside the scratchpad that accesses at virtual addresses reach (R22). -/
def vaLines (vs : List Nat) : Nat := ((vs.filter fun v => placeOf v == .global).map lineOf).eraseDups.length
/-- The lines that a speculating crew's load adds to its read set (R325). -/
def trackedLines (s : State) (c : Crew) (as : List Acc) : List Nat :=
  (as.filter fun a => !a.clip && !((List.range a.size).all fun i => (bufByte s c s.nextOp (a.pa + i)).isSome)).foldl
    (fun l a => setAdd l (lineOf (route s a.pa))) []
/-- A load of a speculating crew enters its read set; none beyond the limits of R325. -/
def trackLoads (s : State) (key : Nat) (c : Crew) (as : List Acc) : Option Crew :=
  match c.spec with
  | none => some c
  | some sp =>
    let reads := (trackedLines s c as).foldl setAdd sp.reads
    let others := (s.crews.filter fun p => coreOf p.1 == coreOf key && p.1 != key).foldl
      (fun n p => n + match p.2.spec with | some q => q.reads.length | none => 0) 0
    if Config.readCrew < reads.length ∨ Config.readCore < reads.length + others then none
    else some { c with spec := some { sp with reads := reads } }
/-- A line whose load stops speculation (R327). -/
def uncached (a : Acc) : Bool := !a.clip && (a.home == 3 || inHost a.pa || inPod a.pa)
/-- A load that has passed its checks issues. -/
def issueLoad (s : State) (c : Crew) (word : Word) (as : List Acc) : State :=
  if c.spec.isSome && as.any uncached then stopSpec s s.cur 1
  else match trackLoads s s.cur c as with
    | none => stopSpec s s.cur 2
    | some c => retire (addOp s
        { crew := s.cur, team := c.team, core := coreOf s.cur, cls := some .load, kind := .load, acq := mOrd c.mode == 1,
          scope := (mScope c.mode).toNat, accs := as, pc := c.pc, word := word }) c
/-- LD (R199). -/
def execLd (d : VReg) (a : SReg) (b : VReg) (s : State) : Host.Outcome State Fault Refusal :=
  let word := wordOf (.ld d a b)
  issue s (fun c t => { word := word, ok := memTypeOk c.mode && unitOk c.mode d && awOk c.mode b && ordOk c.mode [0, 1],
                        reads := addrRegs c.mode b, writes := unitRegs c.mode d, cls := some .load,
                        lines := vaLines ((laneAddrs c t a b).map (·.2)) })
    fun s c t =>
      let z := memSize c.mode
      let as := laneAddrs c t a b
      match takeAccess s s.cur c t word (laneChecks t true false true true z z as) with
      | some s => s
      | none =>
        if as.isEmpty then retire (addDone s s.cur c .load .load word) c
        else issueLoad s c word (as.map fun p => { mkAcc t true false p.1 0 p.2 z with dst := some (ldDst c.mode d.toNat p.1) })

/-- Where accesses of one instruction name one address, the last alone stores (R200, R202). -/
def keepLast : List Acc → List Acc
  | [] => []
  | a :: t => if t.any fun b => b.va == a.va then keepLast t else a :: keepLast t
/-- The stores of a box: through the mirror window in the order of R193, the others in that of R202. -/
def boxStores (as : List Acc) : List Acc :=
  keepLast (as.filter fun a => !inMirror a.va) ++ keepLast (sortKey Acc.lane (as.filter fun a => inMirror a.va))
/-- The lines that a crew's buffer holds. -/
def bufLines (as : List Acc) : Nat := (as.map fun a => lineOf a.pa).eraseDups.length
/-- A buffer entry is free for each line that stores need (R355). -/
def bufferRoom (s : State) (key : Nat) (c : Crew) (as : List Acc) : Bool :=
  let n := bufLines (c.buf ++ as)
  let others := (s.crews.filter fun p => coreOf p.1 == coreOf key && p.1 != key).foldl (fun n p => n + bufLines p.2.buf) 0
  decide (n ≤ Config.bufCrew ∧ n + others ≤ Config.bufCore)
/-- An ordinary store issues. -/
def plainStore (s : State) (c : Crew) (word : Word) (rel : Bool) (kind : OpKind) (as : List Acc) : State :=
  retire (addOp s
    { crew := s.cur, team := c.team, core := coreOf s.cur, cls := some .store, kind := kind, rel := rel,
      scope := (mScope c.mode).toNat, accs := as, pc := c.pc, word := word }) c
/-- A store that has passed its checks issues: through the mirror window (R192), into the buffer (R198, R106), or at once. -/
def issueStore (s : State) (c : Crew) (t : Team) (word : Word) (as : List Acc) : State :=
  let rel := mOrd c.mode == 2
  let mir := as.any fun a => inMirror a.va
  let closed := { c with region := none, buf := [] }
  if c.spec.isSome && mir then stopSpec s s.cur 1
  else if rel || mir then
    plainStore (closeRegion s s.cur c.pc word) closed word rel
      (if mir then .mirror (t.group.map fun g => (g, false)) 0 else .store) as
  else if c.region.isNone && c.spec.isNone then plainStore s c word false .store as
  else if bufferRoom s s.cur c as then
    let n := s.nextOp
    retire (addDone s s.cur c .store .store word) { c with buf := c.buf ++ as.map fun a => { a with num := some n } }
  else if c.spec.isSome then stopSpec s s.cur 2
  else if decide (62 ≤ classCount s s.cur .store) || requestsFull s (coreOf s.cur) (lineCount (c.buf ++ as)) then s
  else plainStore (emitS (closeRegion s s.cur c.pc word) s.cur 0x11 0 (pcBits c.pc)) closed word false .store as
/-- ST (R200). -/
def execSt (d : VReg) (a : SReg) (b : VReg) (s : State) : Host.Outcome State Fault Refusal :=
  let word := wordOf (.st d a b)
  issue s (fun c t =>
      let closes := mOrd c.mode == 2 || (laneAddrs c t a b).any fun p => inMirror p.2
      let act := !(c.actives t.width).isEmpty
      { word := word, ok := memTypeOk c.mode && unitOk c.mode d && awOk c.mode b && ordOk c.mode [0, 2],
        reads := unitRegs c.mode d ++ addrRegs c.mode b, cls := some .store, stops := mOrd c.mode == 2, closes := closes && act,
        lines := if closes || (c.region.isNone && c.spec.isNone) then vaLines ((laneAddrs c t a b).map (·.2)) else 0 })
    fun s c t =>
      let z := memSize c.mode
      let as := laneAddrs c t a b
      match takeAccess s s.cur c t word (laneChecks t false true true true z z as) with
      | some s => s
      | none =>
        if as.isEmpty then retire (addDone s s.cur c .store .store word) c
        else issueStore s c t word
          (keepLast (as.map fun p => { mkAcc t false true p.1 0 p.2 z with data := stData c d.toNat p.1 }))

/-- A SHAPE of the team is pending for a handle (R201). -/
def shapePending (s : State) (team : Nat) (h : Nat) : Bool :=
  s.ops.any fun p => p.2.team == team && !p.2.done && (match p.2.kind with | .shape k _ => k == h | _ => false)
/-- A fault of the crew is held against a SHAPE of a handle (R107). -/
def shapeHeld (c : Crew) (h : Nat) : Bool := c.held.any fun x => x.shape == some h
/-- A handle field for a shape: valid, or a held fault comes first (R201). -/
def shapeField (c : Crew) (t : Team) (h : Nat) : Nat × Bool := (h, (Tbl.get? t.shapes h).isSome || shapeHeld c h)
/-- The element size of a shape (R187). -/
def Shape.z (sh : Shape) : Nat := 2 ^ sh.esz
/-- Coordinates are in bounds (R189). -/
def Shape.inBounds (sh : Shape) (cs : List Int) : Bool :=
  (List.range sh.rank).all fun i => decide (0 ≤ cs.getD i 0 ∧ cs.getD i 0 < sh.size.getD i 0)
/-- The address of an element (R189, R190). -/
def Shape.addr (sh : Shape) (cs : List Int) : Nat :=
  let ns := cs.map Int.toNat
  let o := ns.getD 0 0 * sh.z + (List.range (sh.rank - 1)).foldl (fun n i => n + ns.getD (i + 1) 0 * sh.stride.getD i 0 * 16) 0
  sh.base + (if sh.perm = 0 then o else o ^^^ (ns.getD 1 0 % 2 ^ sh.perm * 16))
/-- The scalar register i places after one. -/
def sregAt (b : SReg) (i : Nat) : SReg := BitVec.ofNat 6 (b.toNat + i)
/-- The coordinates of element x of dimension 0 from s[b], in row j (R201). -/
def coords (c : Crew) (sh : Shape) (b : SReg) (x j : Nat) : List Int :=
  (List.range sh.rank).map fun i =>
    (c.getS (sregAt b i) + BitVec.ofNat 64 (if i = 0 then x else if i = 1 then j else 0)).toInt
/-- An element of a box: row, lane, place in the lane, address when in bounds. -/
structure BoxElem where
  row : Nat
  lane : Nat
  e : Nat
  va : Option Nat
  deriving DecidableEq, Repr
/-- The elements of the active lanes of a box (R201). -/
def boxElems (c : Crew) (t : Team) (sh : Shape) (b : SReg) : List BoxElem :=
  let k := 4 / sh.z
  (List.range (sh.boxr + 1)).flatMap fun j => (c.actives t.width).flatMap fun l => (List.range k).map fun e =>
    let cs := coords c sh b (l * k + e) j
    { row := j, lane := l, e := e, va := if sh.inBounds cs then some (sh.addr cs) else none }
/-- The checks of the elements of a box: none needs alignment (R201). -/
def boxChecks (t : Team) (ld st : Bool) (z : Nat) (es : List BoxElem) : List Check :=
  laneChecks t ld st true true 1 z (es.filterMap fun x => x.va.map fun va => (x.lane, va))
/-- The operand faults of LDT and STT after the checks of R63 (R201). -/
def boxOperandBad (t : Team) (sh : Shape) (d : VReg) (b : SReg) : Bool :=
  decide (16 < sh.boxr + 1 ∨ t.nvreg ≤ d.toNat + sh.boxr ∨ 63 < b.toNat + sh.rank - 1)
/-- The data registers of a box that the crew holds. -/
def boxRegs (t : Team) (d : VReg) (h : Nat) : List Nat :=
  match Tbl.get? t.shapes h with
  | some sh => d.toNat :: ((List.range sh.boxr).map fun i => d.toNat + i + 1).filter fun r => decide (r < t.nvreg)
  | none => [d.toNat]
/-- The addresses of a box's elements; none for an invalid shape. -/
def boxVas (c : Crew) (t : Team) (h : Nat) (b : SReg) : List Nat :=
  match Tbl.get? t.shapes h with
  | some sh => (boxElems c t sh b).filterMap (·.va)
  | none => []
/-- LDT (R201). -/
def execLdt (d : VReg) (h : BitVec 4) (b : SReg) (s : State) : Host.Outcome State Fault Refusal :=
  let word := wordOf (.ldt d h b)
  issue s (fun c t => { word := word, ok := ordOk c.mode [0, 1], writes := boxRegs t d h.toNat, handles := [shapeField c t h.toNat],
                        lines := vaLines (boxVas c t h.toNat b), cls := some .load, waits := shapePending s c.team h.toNat })
    fun s c t =>
      if shapeHeld c h.toNat then raiseHeld s s.cur c fun x => x.shape == some h.toNat
      else match Tbl.get? t.shapes h.toNat with
        | none => s
        | some sh =>
          if boxOperandBad t sh d b then trapAt s s.cur c word .operand
          else
            let es := boxElems c t sh b
            match takeAccess s s.cur c t word (boxChecks t true false sh.z es) with
            | some s => s
            | none =>
              if es.isEmpty then retire (addDone s s.cur c .load .load word) c
              else issueLoad s c word (es.map fun x =>
                let dst : Dst := { reg := d.toNat + x.row, lane := x.lane, lo := 8 * sh.z * x.e, bits := 8 * sh.z, clear := x.e == 0 }
                match x.va with
                | some va => { mkAcc t true false x.lane x.e va sh.z with dst := some dst }
                | none => { lane := x.lane, elem := x.e, size := sh.z, clip := true, dst := some dst })
/-- STT (R202). -/
def execStt (d : VReg) (h : BitVec 4) (b : SReg) (s : State) : Host.Outcome State Fault Refusal :=
  let word := wordOf (.stt d h b)
  issue s (fun c t =>
      let vs := boxVas c t h.toNat b
      let closes := (mOrd c.mode == 2 && !(c.actives t.width).isEmpty) || vs.any inMirror
      { word := word, ok := ordOk c.mode [0, 2], reads := boxRegs t d h.toNat, handles := [shapeField c t h.toNat],
        cls := some .store, waits := shapePending s c.team h.toNat, stops := mOrd c.mode == 2,
        closes := closes, lines := if closes || (c.region.isNone && c.spec.isNone) then vaLines vs else 0 })
    fun s c t =>
      if shapeHeld c h.toNat then raiseHeld s s.cur c fun x => x.shape == some h.toNat
      else match Tbl.get? t.shapes h.toNat with
        | none => s
        | some sh =>
          if boxOperandBad t sh d b then trapAt s s.cur c word .operand
          else
            let es := boxElems c t sh b
            match takeAccess s s.cur c t word (boxChecks t false true sh.z es) with
            | some s => s
            | none =>
              let as := boxStores (es.filterMap fun x => x.va.map fun va =>
                { mkAcc t false true x.lane x.e va sh.z with
                  data := ((c.getV (d.toNat + x.row) x.lane >>> (8 * sh.z * x.e)).setWidth 64) &&& (BitVec.allOnes 64 >>> (64 - 8 * sh.z)) })
              if !as.isEmpty then issueStore s c t word as
              else if mOrd c.mode == 2 && !es.isEmpty then
                retire (addDone (closeRegion s s.cur c.pc word) s.cur c .store .store word) { c with region := none, buf := [] }
              else retire (addDone s s.cur c .store .store word) c

/-- SHAPE (R203). -/
def execShape (d : BitVec 4) (a : SReg) (s : State) : Host.Outcome State Fault Refusal :=
  let word := wordOf (.shape d a)
  issue s (fun c _ => { word := word, cls := some .load, stops := true, lines := vaLines [(c.getS a).toNat] })
    fun s c t =>
      let va := (c.getS a).toNat
      match takeAccess s s.cur c t word (laneChecks t true false true false 64 64 [(0, va)]) with
      | some s => s
      | none => retire (addOp s
          { crew := s.cur, team := c.team, core := coreOf s.cur, cls := some .load, kind := .shape d.toNat va,
            accs := [mkAcc t true false 0 0 va 64], pc := c.pc, word := word }) c

/-- A fill has recalled a copy in some core's L1, or put a crew back. -/
def recalled (core : Nat) (old new : State) : Bool :=
  old.crews != new.crews || old.cores.any fun p => decide (p.2.inv.length < (new.core p.1).inv.length) || (p.1 != core && new.core p.1 != p.2)
/-- PREF brings a line into L1 or L2, unless that would need a recall (R204). -/
def prefetch (l : BitVec 1) (core : Nat) (s : State) (x : Acc) : State :=
  let s' := if l = 0 then fillL1 s core x.attr x.pa else touchL2 s x.attr (lineOf (route s x.pa))
  if recalled core s s' then s else s'
/-- PREF (R204): a hint. A lane that is not dropped has its line brought into the level named. -/
def execPref (l : BitVec 1) (a : SReg) (b : VReg) (s : State) : Host.Outcome State Fault Refusal :=
  issue s (fun c _ => { word := wordOf (.pref l a b), ok := awOk c.mode b, reads := addrRegs c.mode b })
    fun s c t =>
      let as := ((laneAddrs c t a b).filter fun p => placeOf p.2 == .global && (checkByte t true false p.2).isNone).map fun p =>
        mkAcc t true false p.1 0 p.2 1
      retire ((as.filter fun x => (owner s s.nextOp x.pa 1).isNone).foldl (prefetch l (coreOf s.cur)) s) c

/-- The first address at or above one that no extent of a list holds. -/
def coveredTo (es : List Extent) : Nat → Nat → Nat
  | 0, a => a
  | n + 1, a => match es.find? fun e => e.has a with | some e => coveredTo es n e.vhi | none => a
/-- FLUSH (R205). -/
def execFlush (a b : SReg) (s : State) : Host.Outcome State Fault Refusal :=
  let word := wordOf (.flush a b)
  issue s (fun _ _ => { word := word, cls := some .store, stops := true })
    fun s c t =>
      let lo := (c.getS a).toNat
      let n := (c.getS b).toNat
      let hi := lo + n
      if 2 ^ 32 < n then trapAt s s.cur c word .operand
      else if n = 0 then retire (addDone s s.cur c .store .store word) c
      else if 0xFFFF0000000000 < hi then trapAt s s.cur c word .address 0 (c.getS a) 1
      else
        let top := coveredTo t.extents t.extents.length lo
        if top < hi then trapAt s s.cur c word .range 0 (BitVec.ofNat 64 top) 1
        else
          let lo := lo / 128 * 128
          let hi := (hi + 127) / 128 * 128
          let spans := (t.extents.filter fun e => e.present && decide (e.vlo < hi ∧ lo < e.vhi)).map fun e =>
            (e.plo + (max lo e.vlo - e.vlo), min hi e.vhi - max lo e.vlo, e.home)
          retire (addOp s { crew := s.cur, team := c.team, core := coreOf s.cur, cls := some .store, kind := .flush spans, pc := c.pc,
                            word := word }) c

/-- FENCE (R221, R222). It waits at issue; at crew scope it completes at once. -/
def execFence (f : BitVec 3) (o : BitVec 2) (s : State) : Host.Outcome State Fault Refusal :=
  let i : Instr := .fence f o
  let acq := o.getLsbD 0
  let rel := o.getLsbD 1
  issue s (fun _ _ => { word := wordOf i, ok := i.wf, stops := rel, closes := rel })
    fun s c _ =>
      let s := if rel then closeRegion s s.cur c.pc (wordOf i) else s
      let c := if rel then { c with region := none, buf := [] } else c
      let wide := decide (2 ≤ f.toNat)
      let r := if rel then releaseStep s s.cur c.fenceAt acq wide else (true, none)
      if f = 0 ∨ ((!acq || acquireOver s s.cur) && r.1) = true then
        retire (if acq && wide then applyInvs s (coreOf s.cur) else s) { c with fenceAt := none, acqAt := if acq then s.nextOp else c.acqAt }
      else s.setCrew s.cur { c with fenceAt := r.2 }

/-- REGION #0 (R357, R360). -/
def execRegionClose (s : State) : Host.Outcome State Fault Refusal :=
  issue s (fun _ _ => { word := wordOf .regionClose, stops := true, closes := true })
    fun s c _ => retire (closeRegion s s.cur c.pc (wordOf .regionClose)) { c with region := none, buf := [] }
/-- REGION #1 (R357, R358). -/
def execRegionOpen (s : State) : Host.Outcome State Fault Refusal :=
  issue s (fun _ _ => { word := wordOf .regionOpen, stops := true, closes := true })
    fun s c _ =>
      let s := closeRegion s s.cur c.pc (wordOf .regionOpen)
      retire s { c with region := some { cp := c.checkpoint (c.pc + 4), first := s.nextOp, sems := [], opener := c.pc }, buf := [] }

/-- The value of a remote access whose answer has come: stores of the crew and its core that have not been performed lie over it (R198, R216). -/
def bindAnswer (s : State) (n : Nat) (o : Op) (c : Crew) (a : Acc) (bs : List Byte) (bad : Bool) : Nat × Bool :=
  let xs := (List.range a.size).map fun i => match forwarded s o.crew c (a.order n) (a.pa + i) with
    | some b => (b, false)
    | none => (bs.getD i 0, bad)
  (leVal (xs.map (·.1)), xs.any (·.2))
/-- An access as a load binds it: its value, zero when it is poisoned (R375), whether it is, and the reason of a refusal. None while it waits for
the pod. -/
def bindAcc (s : State) (n : Nat) (o : Op) (c : Crew) (a : Acc) : Option (Nat × Bool × Option Nat) :=
  let give := fun (x : Nat × Bool) => some (if x.2 then 0 else x.1, x.2, none)
  if a.clip then some (0, false, none)
  else match a.got with
    | some x => give x
    | none =>
      match reach s (funcOfTeam s o.team) .load a with
      | .waits => if servedInCore s o.crew c (a.order n) a then give (bindAnswer s n o c a [] false) else none
      | .answered (.data bs) => give (bindAnswer s n o c a bs false)
      | .answered (.poisoned bs) => give (bindAnswer s n o c a bs true)
      | .answered (.refused r) => some (0, false, some r)
      | .here b => give (loadAcc s o.crew c (a.order n) b)
/-- The vector registers that an operation's accesses write. -/
def Op.dstRegs (o : Op) : List Nat :=
  (o.accs.flatMap fun a => match a.dst with | some d => if d.bits = 64 then [d.reg, d.reg + 1] else [d.reg] | none => []).eraseDups
/-- Poison and refusals found by an operation are held against it (R107). `bad` is the poisoned accesses, `ref` the refused ones. -/
def holdBad (s : State) (n : Nat) (o : Op) (regs : List Nat) (bad : List Acc) (ref : List (Acc × Nat)) : State :=
  match s.crew? o.crew with
  | none => s
  | some c =>
    let s := match lowAcc bad with
      | some (a, m) => holdFault s n o regs none (poisonInfo c a.va m)
      | none => s
    match lowAcc (ref.map (·.1)) with
    | some (a, m) => holdFault s n o regs none
        (remoteInfo c (((ref.find? fun p => p.1 == a).map (·.2)).getD 0) a.pa a.va m)
    | none => s
/-- Access a of a read is bound, or may be performed now. -/
def bindable (s : State) (n : Nat) (o : Op) (c : Crew) (a : Acc) : Bool :=
  a.clip || a.got.isSome || (loadable s n o c (landing s o.team .load a) && (bindAcc s n o c a).isSome)
/-- The accesses of a load that can be performed together. -/
def loadReady (s : State) (n : Nat) (o : Op) (c : Crew) : Bool := o.accs.all (bindable s n o c)
/-- LOAD_DATA_RETURN (R105, R199, R201): every lane of a load is bound and written. An acquire at quad scope or wider applies the
invalidations that its core has received (R216). -/
def execLoadDataReturn (n : Nat) (s : State) : Host.Outcome State Fault Refusal :=
  match Tbl.get? s.ops n with
  | none => disabled
  | some o =>
    match s.crew? o.crew with
    | none => disabled
    | some c =>
      if o.kind = .load ∧ o.done = false ∧ loadReady s n o c = true then
        let got := o.accs.map fun a => (a, (bindAcc s n o c a).getD (0, false, none))
        let c' := got.foldl (fun c p => match p.1.dst with | some d => c.setDst d (BitVec.ofNat 64 p.2.1) | none => c) c
        let s := s.setCrew o.crew c'
        let s := (o.accs.filter fun a => !a.clip && fillable s a).foldl (fun s a => fillL1 s o.core a.attr a.pa) s
        let s := if o.acq then s.modCrew o.crew fun c => { c with acqAt := s.nextOp } else s
        let s := if o.acq && decide (2 ≤ o.scope) then applyInvs s o.core else s
        let s := holdBad s n o o.dstRegs ((got.filter fun p => p.2.2.1).map (·.1))
          (got.filterMap fun p => p.2.2.2.map fun r => (p.1, r))
        .next (finishOp s n)
      else disabled

/-- Access k of an operation takes a new status. -/
def setAcc (s : State) (n k : Nat) (f : Acc → Acc) : State := s.modOp n fun o => { o with accs := o.accs.modify k f }
/-- A store whose every access is done, and every delivery made, is complete, and its refusals are held. -/
def settleStore (s : State) (n : Nat) : State :=
  match Tbl.get? s.ops n with
  | none => s
  | some o =>
    if !o.performed then s
    else
      match o.kind, s.crew? o.crew with
      | .store, some _ =>
        let ref := o.accs.filterMap fun a => match a.st with | .refused r => some (a, r) | _ => none
        finishOp (holdBad s n o [] [] ref) n
      | .store, none => finishOp s n
      | .mirror _ failed, some c =>
        let bad := o.accs.filter fun a => inMirror a.va && a.resp.isSome
        let s := match bad with
          | [] => if failed = 0 then s else holdFault s n o [] none
              { kind := .mirror, resume := c.pc, fault := c.pc, detail := failed.setWidth 64 }
          | a :: r =>
            let low := r.foldl (fun m b => if b.va < m.va then b else m) a
            holdFault s n o [] none
              { kind := .mirror, resume := c.pc, fault := c.pc, addr := BitVec.ofNat 64 (low.va % 2 ^ 32),
                mask := lanesMask (bad.map (·.lane)).eraseDups, detail := failed.setWidth 64 }
        let ref := o.accs.filterMap fun a => match a.st with | .refused r => some (a, r) | _ => none
        finishOp (holdBad s n o [] [] ref) n
      | _, _ => s
/-- STORE_PERFORMED (R208): access k of a store reaches its point of coherence, after earlier ones of the operation to its bytes (R357), once
every other core that holds a copy of its line has acknowledged the invalidation. -/
def execStorePerformed (n k : Nat) (s : State) : Host.Outcome State Fault Refusal :=
  match Tbl.get? s.ops n with
  | none => disabled
  | some o =>
    match o.accs[k]? with
    | none => disabled
    | some a =>
      let at_ := landing s o.team .store a
      let first := (o.accs.take k).all fun b => b.st != .todo || inMirror b.va || !overlap at_ (landing s o.team .store b)
      if o.kind.isStore && !o.done && a.st == .todo && !inMirror a.va && first && performable s n o at_ then
        match reach s (funcOfTeam s o.team) .store a with
        | .waits => disabled
        | .answered (.refused x) => .next (settleStore (setAcc s n k fun a => { a with st := .refused x }) n)
        | .answered _ => .next (settleStore (setAcc s n k fun a => { a with st := .done }) n)
        | .here b =>
          if invAcked s (some o.core) (lineOf (route s b.pa)) then
            let s := performStore (setAcc s n k fun a => { a with st := .done }) (some o.core) (some o.crew) b
            let here := o.accs.filter fun c => (c.st == .done || c == a) && !inMirror c.va && granOf c.pa == granOf a.pa
            .next (settleStore (clearCovered s here) n)
          else disabled
      else disabled
/-- INVALIDATION_RECEIVE (R216): a core acknowledges the invalidation of a line of its L1. -/
def execInvalidationReceive (core line : Nat) (s : State) : Host.Outcome State Fault Refusal :=
  if (l1Line s core line).isSome && !(s.core core).inv.contains line then
    .next (s.modCore core fun k => { k with inv := k.inv ++ [line] })
  else disabled
/-- INVALIDATION_APPLY_TIMEOUT (R216): received invalidations are applied. -/
def execInvalidationApplyTimeout (core : Nat) (s : State) : Host.Outcome State Fault Refusal :=
  if (s.core core).inv.isEmpty then disabled else .next (applyInvs s core)

/-- The descriptor of R187 as a record, if it is valid (R188). -/
def readShape (bs : List Byte) : Option Shape :=
  let w : DWord := BitVec.ofNat 64 (fieldOf bs 0 8)
  let last := fieldOf bs 60 4
  let rank := (w.extractLsb' 56 3).toNat
  let esz := (w.extractLsb' 59 2).toNat
  let perm := (w.extractLsb' 61 2).toNat
  let base := (w.extractLsb' 0 56).toNat
  let size := (List.range 7).map fun i => fieldOf bs (8 + 4 * i) 4
  let stride := (List.range 6).map fun i => fieldOf bs (36 + 4 * i) 4
  let boxr := last % 256
  if !w.getLsbD 63 && rank != 0 && esz != 3 && last / 2 ^ 20 == 0 &&
      ((List.range 7).all fun i => if i < rank then size.getD i 0 != 0 else size.getD i 0 == 0) &&
      ((List.range 6).all fun i => i + 1 < rank || stride.getD i 0 == 0) &&
      base % 16 == 0 && (rank != 1 || boxr == 0) &&
      (perm == 0 || (base / 2 ^ 32 == 0xFFFF00 && base % 128 == 0 && decide (2 ≤ rank) && stride.getD 0 0 % 8 == 0)) then
    some { base := base, perm := perm, esz := esz, rank := rank, size := size.take rank, stride := stride.take (rank - 1),
           boxc := last / 256 % 4096, boxr := boxr }
  else none
/-- SHAPE_COMPLETE (R203): the record is written valid, or left invalid with a fault held. Two SHAPEs of one handle may complete in either
order (log entry 129). -/
def execShapeComplete (n : Nat) (s : State) : Host.Outcome State Fault Refusal :=
  match Tbl.get? s.ops n with
  | none => disabled
  | some o =>
    match o.kind, o.accs, s.crew? o.crew with
    | .shape h va, [a], some c =>
      if o.done = false ∧ bindable s n o c a = true then
        match bindAcc s n o c a with
        | none => disabled
        | some (v, p, r) =>
          let sh := if p || r.isSome then none else readShape (leBytes 64 v)
          let s := s.modTeam o.team fun t =>
            { t with shapes := match sh with | some x => Tbl.put t.shapes h x | none => Tbl.del t.shapes h }
          let s := if p then holdFault s n o [] (some h) (poisonInfo c va 0)
            else match r with
              | some x => holdFault s n o [] (some h) (remoteInfo c x a.pa va 1)
              | none => if sh.isSome then s else holdFault s n o [] (some h)
                  { kind := .shape, resume := c.pc, fault := c.pc, addr := BitVec.ofNat 64 va, detail := BitVec.ofNat 64 h }
          .next (finishOp (if fillable s a then fillL1 s o.core a.attr a.pa else s) n)
      else disabled
    | _, _, _ => disabled

/-- A line lies in a span. -/
def inSpan (line : Nat) (p : Nat × Nat × BitVec 2) : Bool := decide (p.1 < line * 128 + 128 ∧ line * 128 < p.1 + p.2.1)
/-- Every cached copy of the lines of a span is written back and invalidated: crews that track them are put back (R328). -/
def dropLines (s : State) (sel : Nat → Bool) : State :=
  let times := (s.l2.filter fun e => sel e.line).map fun e => (e.line, (recallTime s e.line).2)
  let s := { writeBack s sel with
    l2 := s.l2.filter fun e => !sel e.line
    cores := Tbl.mapV s.cores fun k => { k with l1 := k.l1.filter fun l => !sel l.1, inv := k.inv.filter fun l => !sel l } }
  let lines := ((s.crews.flatMap fun p => match p.2.spec with | some sp => sp.reads.filter sel | none => []).foldl setAdd [])
  lines.foldl (fun s l => rollbackLine s none l (fun _ => some 2) (Tbl.getD times l 0)) s
/-- The lines of a HOME that a FLUSH covers, as the accesses of now reach them. -/
def flushCovers (s : State) (spans : List (Nat × Nat × BitVec 2)) (h : BitVec 2) (l : Nat) : Bool :=
  spans.any fun p => p.2.2 == h && (inSpan l p || inSpan (lineOf (unroute s (l * 128))) p)
/-- FLUSH_COMPLETE (R205): older stores of the crew to its lines are performed, and no older engine owns one. -/
def execFlushComplete (n : Nat) (s : State) : Host.Outcome State Fault Refusal :=
  match Tbl.get? s.ops n with
  | none => disabled
  | some o =>
    match o.kind with
    | .flush spans =>
      let hit := fun (a : Acc) => let l := lineOf (route s a.pa); flushCovers s spans 0 l || flushCovers s spans 2 l
      if o.done = false ∧ (s.ops.all fun p => p.2.crew != o.crew || !decide (p.1 < n) || !p.2.kind.isStore || p.2.done ||
          p.2.accs.all fun a => a.st != .todo || !hit (landing s o.team .store a)) = true ∧
          (spans.all fun p => p.2.2 == 1 || p.2.2 == 3 || !ownedBefore s n p.1 p.2.1) = true then
        let s := dropLines s (flushCovers s spans 0)
        .next (finishOp (cleanLines s (flushCovers s spans 2)) n)
      else disabled
    | _ => disabled
/-- REGION_RELEASE_COMPLETE (R481): the stores released at a close or commit are performed. A refused one is held against the
release. -/
def execRegionReleaseComplete (n : Nat) (s : State) : Host.Outcome State Fault Refusal :=
  match Tbl.get? s.ops n with
  | none => disabled
  | some o =>
    match o.kind, s.crew? o.crew with
    | .release pc, some c =>
      if o.done = false ∧ o.performed = true then
        let ref := o.accs.filterMap fun a => match a.st with | .refused r => some (a, r) | _ => none
        let s := match ref with
          | [] => s
          | p :: t =>
            let low := t.foldl (fun m q => if q.1.va < m.1.va then q else m) p
            holdFault s n { o with pc := pc } [] none (remoteInfo c low.2 low.1.pa low.1.va 0)
        .next (finishOp s n)
      else disabled
    | _, _ => disabled

/-- A mirror delivery to a member fails whole: its core is fenced out, or its slice is under reset (R194). -/
def deliveryRefused (s : State) (t : Team) : Bool :=
  (s.core t.core).fenced || s.svc.fenced.contains (t.core / 32) ||
    (match Tbl.get? s.ctxs t.ctx with | some x => underReset s x.slice | none => false)
/-- Bytes of a delivery, into the scratchpad or into its spilled copy (R194, R381). -/
def deliverBytes (s : State) (t : Team) (o : Nat) (bs : List Byte) (sent : Nat) : State :=
  let pick := fun k => if coreOf k = t.core then some 3 else none
  let s := ((List.range bs.length).map fun i => lineOf (t.scratchFlat o + i)).eraseDups.foldl (fun s l => rollbackLine s none l pick sent) s
  performBytes s (some t.core) none (unitAttr s t (t.scratchFlat o)) (t.scratchFlat o) bs false pick
/-- A delivery of an operation to a team may be made: its order allows it, no engine owns its bytes there, at the source's own member the
stores before it are performed (R192, R193), and a release at quad scope or wider has drained what the source core's queue held (R216, R227). -/
def deliverable (s : State) (n : Nat) (o : Op) (own : Bool) (t : Team) (a : Acc) : Bool :=
  let b := { a with pa := t.scratchFlat (a.va % 2 ^ 32) }
  if own then performable s n o b
  else orderMet s n o b && !heldByEngine s n o b &&
    (!o.wideRel || match o.entered with | some e => queueDrained s o.core e | none => false)
/-- MIRROR_DELIVERY (R192 to R195): a delivery is performed at a member, in the order of the crew's mirror stores. The offsets in `bad`
meet an uncorrectable SRAM error: those bytes fail and are poisoned; one entry of the log and one record name the lowest offset of those that
fail (log entry 117). A release at quad scope or wider applies the invalidations that the member's core has received, since its acquire may be
at core scope (R227). -/
def execMirrorDelivery (n m : Nat) (bad : List Nat) (s : State) : Host.Outcome State Fault Refusal :=
  match Tbl.get? s.ops n with
  | none => disabled
  | some o =>
    match o.kind with
    | .mirror ms failed =>
      match ms[m]? with
      | some (tid, false) =>
        let older := s.ops.any fun p => p.2.crew == o.crew && decide (p.1 < n) &&
          (match p.2.kind with | .mirror qs _ => qs.any fun q => q.1 == tid && !q.2 | _ => false)
        match s.team? tid with
        | none => disabled
        | some t =>
          let as := o.accs.filter fun a => inMirror a.va
          if older || !(as.all (deliverable s n o (tid == o.team) t)) then disabled
          else
            let off := fun (a : Acc) => a.va % 2 ^ 32
            let whole := deliveryRefused s t
            let hit := fun (a : Acc) => whole || bad.any fun b => decide (off a ≤ b ∧ b < off a + a.size)
            let s := if o.wideRel && !whole then applyInvs s t.core else s
            let s := if whole then s else as.foldl (fun s a =>
              let bs := leBytes a.size a.data.toNat
              let s := match s.team? tid with | some t => deliverBytes s t (off a) bs (o.stamp + 1) | none => s
              (List.range a.size).foldl (fun s i =>
                if bad.contains (off a + i) then { s with poison := setAdd s.poison (granOf (t.scratchFlat (off a + i))) } else s) s) s
            let fails := as.filter hit
            let src := o.core
            let s := match fails with
              | [] => s
              | a :: r =>
                let low := r.foldl (fun x b => if off b < x then off b else x) (off a)
                let s := s.modCore t.core fun k => { k with mirrorLog := k.mirrorLog ++ [(src, low)] }
                emitA s (t.core / 32) (t.core % 32) (funcOfTeam s tid) none 0x33 0 (BitVec.ofNat 32 (src * 2 ^ 21 + low % 2 ^ 21)) (o.stamp + 1) (some t.ctx)
            let own := tid == o.team
            let s := s.modOp n fun o => { o with
              kind := .mirror (ms.set m (tid, true)) (if fails.isEmpty then failed else failed ||| (1#16 <<< m))
              accs := o.accs.map fun a => if inMirror a.va then
                { a with st := if own then .done else a.st, resp := if hit a then some (.refused 0) else a.resp } else a }
            .next (settleStore s n)
      | _ => disabled
    | _ => disabled

end Sys2Proof.Machine
end

