-- ==== Sys2Proof/Machine/Copy.lean ====
section
/-! DEFINITION. The per-core copy engine, semaphores and expert bins (08 R231 to R247), with the steps that carry them on. -/
namespace Sys2Proof.Machine

/-- A semaphore field of an instruction (R51). -/
def semField (t : Team) (h : BitVec 6) : Nat × Bool := (h.toNat, decide (h.toNat < t.nsem))
/-- A place where engine data comes from: the bytes, which of them are poisoned, and the reason of a refusal; none while it waits
for the pod. A source of none is zeros (R240). -/
def engineRead (s : State) (func size : Nat) (src : Option Acc) : Option (List Byte × List Bool × Option Nat) :=
  match src with
  | none => some (List.replicate size 0, [], none)
  | some a =>
    match reach s func .load a with
    | .waits => none
    | .answered (.data bs) => some (bs.take size, [], none)
    | .answered (.poisoned bs) => some (bs.take size, List.replicate size true, none)
    | .answered (.refused r) => some (List.replicate size 0, List.replicate size true, some r)
    | .here b => some (readBytes s b.key b.pa size, (List.range size).map fun i => poisoned s (b.pa + i), none)
/-- Bytes cut into runs that are poisoned or not: place of the first, bytes, poisoned. -/
def poisonRuns : Nat → List (Byte × Bool) → List (Nat × List Byte × Bool)
  | _, [] => []
  | o, (b, p) :: t =>
    match poisonRuns (o + 1) t with
    | (_, bs, q) :: r => if p == q then (o, b :: bs, p) :: r else (o, [b], p) :: (o + 1, bs, q) :: r
    | [] => [(o, [b], p)]
/-- Engine data reaches its destination; poisoned bytes poison their granules (R238), and monitors find them so (R306): they come first. The
reason of a refusal is returned, none for none; the outer none is a wait for the pod. -/
def engineWrite (s : State) (core : Option Nat) (func : Nat) (dst : Acc) (bs : List Byte) (bad : List Bool) :
    Option (State × Option Nat) :=
  match reach s func .store dst with
  | .waits => none
  | .answered (.refused r) => some (s, some r)
  | .answered _ => some (s, none)
  | .here b =>
    let pick := fun (_ : Nat) => if inScratch b.pa then some 4 else some 2
    if bad.any id then
      let runs := poisonRuns 0 ((List.range bs.length).map fun i => (bs.getD i 0, bad.getD i false))
      some ((runs.filter (·.2.2) ++ runs.filter (!·.2.2)).foldl (fun s r => performBytes s core none b.attr (b.pa + r.1) r.2.1 r.2.2 pick) s, none)
    else some (performBytes s core none b.attr b.pa bs false pick, none)
/-- What comes before an engine's access of operation n is done (R209, R223, R224): older engine operations on its lines, the crew's older
accesses to its bytes (for a source those that write), and stores to them that had entered the core's store queue. -/
def engineClear (s : State) (n : Nat) (o : Op) (write : Bool) (acc : Acc) : Bool :=
  let a := landing s o.team (if write then .store else .load) acc
  !ownedBefore s n a.pa a.size &&
  s.ops.all fun p =>
    p.2.core != o.core || p.2.done || !p.2.pendsOn s a fun b =>
      if p.2.crew == o.crew && decide (b.order p.1 < n) then write || !p.2.isRead
      else p.2.isStore && match p.2.entered with | some e => decide (e < n) | none => false
/-- The bytes of the entry's completion record count what engines write to global memory (R346). -/
def addBytes (s : State) (team n : Nat) : State :=
  match s.team? team with
  | some t => s.modEntry t.entry fun e => { e with bytes := e.bytes + n }
  | none => s
/-- A completion signal (R225): the semaphore takes one, the region's count too when the instruction was issued in it (R236), and
COPYDONE is emitted. -/
def signal (s : State) (n : Nat) (o : Op) (sem : Nat) : State :=
  let s := s.modTeam o.team fun t => semAdd t sem 1
  let s := s.modCrew o.crew fun c =>
    match c.region with
    | some r => if o.quiet || decide (r.first ≤ n) then c.noteSem sem 1 else c
    | none => c
  emitA s (o.core / 32) (o.core % 32) (funcOfTeam s o.team) none 0x30 (BitVec.ofNat 8 sem) (o.word >>> 24) 0 ((s.team? o.team).map (·.ctx))
/-- Buffered bytes that a copy into scratchpad covers are cleared (R235). -/
def clearBuf (buf dst : List Acc) : List Acc :=
  let hit := fun x => dst.any fun d => decide (d.pa ≤ x ∧ x < d.pa + d.size)
  buf.flatMap fun a =>
    if (List.range a.size).any fun i => hit (a.pa + i) then
      ((List.range a.size).filter fun i => !hit (a.pa + i)).map fun i =>
        { a with pa := a.pa + i, va := a.va + i, size := 1, data := a.data >>> (8 * i) &&& 0xFF }
    else [a]
/-- A copy that has passed its checks issues; `closes` says that it closes the region (R234). -/
def issueCopy (s : State) (c : Crew) (word : Word) (sem : Nat) (closes : Bool) (parts : List CopyPart) : State :=
  let dst := (parts.map (·.dst)).filter fun a => !a.clip
  let s := if closes then closeRegion s s.cur c.pc word else s
  let c := if closes then { c with region := none, buf := [] }
    else { c with buf := clearBuf c.buf (dst.filter fun a => inScratch a.pa) }
  let s := dst.foldl (fun s a => let b := landing s c.team .store a; raceLoads s b.pa b.size) (retire s c)
  let s := addOp s { crew := s.cur, team := c.team, core := coreOf s.cur, cls := some .copy, kind := .copy sem parts, pc := c.pc,
                     word := word, inRegion := c.region.isSome }
  dst.foldl (fun s a => let b := landing s c.team .store a; ownLines s (some (coreOf s.cur)) b.pa b.size) s

/-- The 64-bit addresses of the active lanes in a register pair (R239). -/
def pairAddrs (c : Crew) (t : Team) (r : VReg) : List (Nat × Nat) :=
  (c.actives t.width).map fun l => (l, (c.getPair r.toNat l).toNat)
/-- Where active lanes share destination bytes, the highest lane's remain: equal blocks of lower lanes are read and not written (R238, R239). -/
def keepLastPart : List CopyPart → List CopyPart
  | [] => []
  | a :: t => { a with dst := { a.dst with clip := t.any fun b => b.dst.va == a.dst.va } } :: keepLastPart t
/-- CPY4, CPY8 and CPY16 (R239). -/
def copyLanes (i : Instr) (z : Nat) (d : BitVec 6) (a b : VReg) (s : State) : Host.Outcome State Fault Refusal :=
  issue s (fun c t => { word := wordOf i, ok := i.wf, reads := [a.toNat, a.toNat + 1, b.toNat, b.toNat + 1], handles := [semField t d],
                        cls := some .copy, stops := true, closes := (pairAddrs c t a).any fun p => placeOf p.2 == .global,
                        lines := min 256 (vaLines ((pairAddrs c t a).map (·.2))) })
    fun s c t =>
      let ds := pairAddrs c t a
      let ss := pairAddrs c t b
      match takeAccess s s.cur c t (wordOf i) (laneChecks t true false true false z z ss ++ laneChecks t false true true false z z ds) with
      | some s => s
      | none =>
        if ds.isEmpty then retire (addDone s s.cur c .copy (.copy d.toNat []) (wordOf i)) c
        else issueCopy s c (wordOf i) d.toNat (ds.any fun p => placeOf p.2 == .global)
          (keepLastPart ((ss.zip ds).map fun p =>
            { row := p.1.1, src := some (mkAcc t true false p.1.1 0 p.1.2 z), dst := mkAcc t false true p.2.1 0 p.2.2 z }))
/-- CPY4 (R239). -/
def execCpy4 (d : BitVec 6) (a b : VReg) (s : State) : Host.Outcome State Fault Refusal := copyLanes (.cpy4 d a b) 4 d a b s
/-- CPY8 (R239). -/
def execCpy8 (d : BitVec 6) (a b : VReg) (s : State) : Host.Outcome State Fault Refusal := copyLanes (.cpy8 d a b) 8 d a b s
/-- CPY16 (R239). -/
def execCpy16 (d : BitVec 6) (a b : VReg) (s : State) : Host.Outcome State Fault Refusal := copyLanes (.cpy16 d a b) 16 d a b s

/-- One element of a CPYT box: its row, the shape side when in bounds, the dense side (R240). -/
structure TensorElem where
  row : Nat
  sh : Option Nat
  dense : Nat
  deriving DecidableEq, Repr
/-- The dense row pitch of R240. -/
def densePitch (sh : Shape) : Nat := ((sh.boxc + 1) * sh.z + 15) / 16 * 16
/-- The elements of a CPYT box in row-major order. -/
def tensorElems (c : Crew) (sh : Shape) (b : SReg) (dense : Nat) : List TensorElem :=
  (List.range (sh.boxr + 1)).flatMap fun j => (List.range (sh.boxc + 1)).map fun i =>
    let cs := coords c sh b i j
    { row := j, sh := if sh.inBounds cs then some (sh.addr cs) else none, dense := dense + j * densePitch sh + i * sh.z }
/-- The fault of a CPYT's checks: the dense span counts ahead of every element (R240). -/
def tensorFault (t : Team) (sh : Shape) (dense : Nat) (toShape : Bool) (es : List TensorElem) :
    Option (List Check × TrapKind × Nat × DWord × Nat) :=
  let rows := sh.boxr + 1
  let span := (rows - 1) * densePitch sh + (sh.boxc + 1) * sh.z
  let da := if toShape then 0 else 1
  let rowLen := (sh.boxc + 1) * sh.z
  let spanCs := (List.range span).map fun i =>
    { lane := i / densePitch sh, va := dense + i, size := 1, access := da,
      faults := accessFaults t toShape (!toShape) true false 1 (dense + i) 1 : Check }
  let elemCs := es.filterMap fun e => e.sh.map fun va =>
    { lane := e.row, va := va, size := sh.z, access := 1 - da, faults := accessFaults t (!toShape) toShape true false 1 va sh.z : Check }
  match firstKind ((spanCs ++ elemCs).filterMap fun c => firstKind c.faults) with
  | none => none
  | some k =>
    let ds := spanCs.filter fun c => c.faults.contains k
    let ss := elemCs.filter fun c => c.faults.contains k
    let mask := lanesMask ((((ds.filter fun c => decide ((c.va - dense) % densePitch sh < rowLen)) ++ ss).map (·.lane)).eraseDups)
    some (spanCs ++ elemCs, k, (((ds ++ ss).head?).map (·.va)).getD 0, mask, accessOf (ds ++ ss))
/-- CPYT (R240). A DENSE that is no multiple of 16 has no rows, and MASK is 0 (log entry 39). -/
def execCpyt (d : BitVec 6) (h : BitVec 4) (b : SReg) (s : State) : Host.Outcome State Fault Refusal :=
  let word := wordOf (.cpyt d h b)
  issue s (fun c t => { word := word, handles := [semField t d, shapeField c t h.toNat], cls := some .copy, stops := true,
                        closes := true, waits := shapePending s c.team h.toNat, lines := min 256 (vaLines (boxVas c t h.toNat b)) })
    fun s c t =>
      if shapeHeld c h.toNat then raiseHeld s s.cur c fun x => x.shape == some h.toNat
      else match Tbl.get? t.shapes h.toNat with
        | none => s
        | some sh =>
          let w := c.getS (sregAt b sh.rank)
          let dense := (w.extractLsb' 0 56).toNat
          let toShape := w.getLsbD 63
          if 63 < b.toNat + sh.rank ∨ w.extractLsb' 56 7 ≠ 0 then trapAt s s.cur c word .operand
          else if dense % 16 ≠ 0 then
            trapAt s s.cur c word .misaligned 0 (BitVec.ofNat 64 dense) 0 (if toShape then 0 else 1)
          else
            let es := tensorElems c sh b dense
            match tensorFault t sh dense toShape es with
            | some (cs, f) => takeKind s s.cur c t word cs f
            | none =>
              let global := if toShape then placeOf sh.base == .global else placeOf dense == .global
              issueCopy s c word d.toNat global (es.filterMap fun e =>
                let dn := mkAcc t toShape (!toShape) e.row 0 e.dense sh.z
                match e.sh with
                | some va =>
                  let el := mkAcc t (!toShape) toShape e.row 0 va sh.z
                  if toShape then some { row := e.row, src := some dn, dst := el } else some { row := e.row, src := some el, dst := dn }
                | none => if toShape then none else some { row := e.row, src := none, dst := dn })
/-- Every part of a copy can be read and written, and every older acquire of the crew is performed (R216). -/
def copyReady (s : State) (n : Nat) (o : Op) (parts : List CopyPart) : Bool :=
  let f := funcOfTeam s o.team
  orderOver s o.crew n false false false &&
  parts.all fun p => (p.dst.clip || (engineClear s n o true p.dst && reach s f .store p.dst != .waits)) &&
    (match p.src with
     | some a => engineClear s n o false a && reach s f .load a != .waits
     | none => true)
/-- The bytes that the copy engine reads in this step, ahead of a copy's completion: for each aligned 4-byte word the free value says so
(R224). -/
def readPart (s : State) (n : Nat) (o : Op) (p : CopyPart) : CopyPart :=
  match p.src with
  | none => p
  | some a =>
    let now := (List.range p.dst.size).filter fun i => Config.readsNow s.clock ((a.pa + i) / 4) && !p.seen.any fun x => x.1 == i
    if now.isEmpty || inPod a.pa || !orderOver s o.crew n false false false || !engineClear s n o false a then p
    else { p with seen := p.seen ++ now.map fun i => (i, readByte s a.key (a.pa + i), poisoned s (a.pa + i)) }
/-- What the writes of a copy came to: the parts whose source was poisoned, those refused, and the bytes written to global memory. -/
structure CopyDone where
  pois : List Acc := []
  refused : List (Acc × Nat) := []
  bytes : Nat := 0
  deriving DecidableEq, Repr
/-- The parts of a copy are written, but for those that a higher lane's replace. -/
def copyParts (func core : Nat) : List (CopyPart × List Byte × List Bool × Option Nat) → State × CopyDone → State × CopyDone
  | [], r => r
  | (p, bs, bad, ref) :: t, (s, k) =>
    let src := { p.src.getD p.dst with lane := p.row }
    let k := { k with pois := if ref.isNone && bad.any id then k.pois ++ [src] else k.pois
                      refused := match ref with | some r => k.refused ++ [(src, r)] | none => k.refused }
    if p.dst.clip then copyParts func core t (s, k)
    else match engineWrite s (some core) func p.dst bs bad with
      | none => copyParts func core t (s, k)
      | some (s, none) => copyParts func core t (s, { k with bytes := k.bytes + if inScratch p.dst.pa then 0 else p.dst.size })
      | some (s, some r) => copyParts func core t (s, { k with refused := k.refused ++ [({ p.dst with lane := p.row }, r)] })
/-- The bytes of a part as the engine has read them, ahead of its completion or now (R224). -/
def partBytes (s : State) (func : Nat) (p : CopyPart) : CopyPart × List Byte × List Bool × Option Nat :=
  let r := (engineRead s func p.dst.size p.src).getD ([], [], none)
  let at_ := fun (i : Nat) => match p.seen.find? fun x => x.1 == i with
    | some x => x.2
    | none => (r.1.getD i 0, r.2.1.getD i false)
  if p.seen.isEmpty then (p, r)
  else (p, (List.range p.dst.size).map fun i => (at_ i).1, (List.range p.dst.size).map fun i => (at_ i).2, r.2.2)
/-- The last part of a copy that writes a byte, with the place of the byte in it. -/
def writerOf (got : List (CopyPart × List Byte × List Bool × Option Nat)) (x : Nat) :
    Option ((CopyPart × List Byte × List Bool × Option Nat) × Nat) :=
  (got.reverse.find? fun q => !q.1.dst.clip && q.2.2.2.isNone && decide (q.1.dst.pa ≤ x ∧ x < q.1.dst.pa + q.1.dst.size)).map fun q => (q, x - q.1.dst.pa)
/-- A byte of a part, where the copy's own writes reach its source (R224, R239, R240): for each aligned 4-byte word the free value gives
what was there or what the copy writes there, which goes back through at most `fuel` parts. -/
def racedByte (s : State) (got : List (CopyPart × List Byte × List Bool × Option Nat)) :
    Nat → (CopyPart × List Byte × List Bool × Option Nat) → Nat → Byte × Bool
  | 0, q, i => (q.2.1.getD i 0, q.2.2.1.getD i false)
  | fuel + 1, q, i =>
    let old := (q.2.1.getD i 0, q.2.2.1.getD i false)
    match q.1.src with
    | some a =>
      if q.1.seen.any (fun x => x.1 == i) || inPod a.pa || q.2.2.2.isSome then old
      else match writerOf got (a.pa + i) with
        | some w => if Config.readsNew s.clock ((a.pa + i) / 4) then racedByte s got fuel w.1 w.2 else old
        | none => old
    | none => old
/-- What a copy reads, every part of it: the copy's own writes may come first where they reach its sources (R224). -/
def copyBytes (s : State) (func : Nat) (parts : List CopyPart) : List (CopyPart × List Byte × List Bool × Option Nat) :=
  let got := parts.map (partBytes s func)
  if parts.any fun p => match p.src with
      | some a => parts.any fun q => decide (a.pa < q.dst.pa + q.dst.size ∧ q.dst.pa < a.pa + p.dst.size)
      | none => false then
    got.map fun q =>
      let bs := (List.range q.1.dst.size).map (racedByte s got got.length q)
      (q.1, bs.map (·.1), bs.map (·.2), q.2.2.2)
  else got
/-- COPY_COMPLETE (R239, R240, R238): every block is read and written, and the semaphore is incremented. -/
def execCopyComplete (n : Nat) (s : State) : Host.Outcome State Fault Refusal :=
  match Tbl.get? s.ops n with
  | none => disabled
  | some o =>
    match o.kind with
    | .copy sem parts =>
      if o.done = false ∧ copyReady s n o parts = true then
        let f := funcOfTeam s o.team
        let got := copyBytes s f parts
        let s := (parts.filterMap (·.src)).foldl (fun s a => let b := landing s o.team .load a; touchL2 s b.attr (lineOf (route s b.pa))) s
        let s := clearCovered s (((parts.map (·.dst)).filter fun a => !a.clip).map (landing s o.team .store))
        let (s, k) := copyParts f o.core got (s, {})
        .next (finishOp (holdBad (signal (addBytes s o.team k.bytes) n o sem) n o [] k.pois k.refused) n)
      else disabled
    | _ => disabled

/-- SEMSET (R243): a release at core scope, made once the crew's older operations are performed there. -/
def execSemset (d : BitVec 6) (a : SReg) (s : State) : Host.Outcome State Fault Refusal :=
  let word := wordOf (.semset d a)
  issue s (fun _ t => { word := word, handles := [semField t d], stops := true, closes := true })
    fun s c _ =>
      if 0xFFFFFFFF < (c.getS a).toNat then trapAt s s.cur c word .operand
      else
        let s := closeRegion s s.cur c.pc word
        let c := { c with region := none, buf := [] }
        if orderOver s s.cur s.nextOp false true false then
          (retire s c).modTeam c.team fun t => { t with sems := Sparse.set t.sems d.toNat ((c.getS a).setWidth 32) }
        else s.setCrew s.cur c
/-- A crew takes k from a semaphore: its region counts it (R236). -/
def takeSem (s : State) (c : Crew) (sem k : Nat) : State :=
  (retire s { c.noteSem sem (-(k : Int)) with acqAt := s.nextOp }).modTeam c.team fun t =>
    { semAdd t sem (-(k : Int)) with semWait := t.semWait.filter fun p => p.2 != s.cur }
/-- SEMACQ (R242, R243): an acquire at core scope. Waiters are served in the order in which they first found the count short. -/
def execSemacq (d : BitVec 6) (a : SReg) (s : State) : Host.Outcome State Fault Refusal :=
  let word := wordOf (.semacq d a)
  issue s (fun _ t => { word := word, handles := [semField t d], stops := true })
    fun s c t =>
      let k := if a = 0 then 1 else (c.getS a).toNat
      let line := t.semWait.filter fun p => p.1 == d.toNat
      if 0xFFFFFFFF < k then trapAt s s.cur c word .operand
      else if k = 0 then retire s c
      else if !orderOver s s.cur s.nextOp true false false then s
      else if (match line with | [] => true | p :: _ => p.2 == s.cur) && decide (k ≤ (Sparse.get t.sems d.toNat).toNat) then
        takeSem s c d.toNat k
      else if line.any fun p => p.2 == s.cur then s
      else s.modTeam c.team fun t => { t with semWait := t.semWait ++ [(d.toNat, s.cur)] }
/-- SEMTRY (R244): one that takes a count is an acquire at core scope. -/
def execSemtry (d : SReg) (a : BitVec 6) (s : State) : Host.Outcome State Fault Refusal :=
  issue s (fun _ t => { word := wordOf (.semtry d a), handles := [semField t a], stops := true })
    fun s c t =>
      let v := Sparse.get t.sems a.toNat
      if v ≠ 0 ∧ (t.semWait.any fun p => p.1 == a.toNat) = false then
        if !orderOver s s.cur s.nextOp true false false then s else takeSem s (c.setS d (v.setWidth 64)) a.toNat 1
      else retire s (c.setS d 0)
/-- SEMRD (R244). -/
def execSemrd (d : SReg) (a : BitVec 6) (s : State) : Host.Outcome State Fault Refusal :=
  issue s (fun _ t => { word := wordOf (.semrd d a), handles := [semField t a] })
    fun s c t => retire s (c.setS d ((Sparse.get t.sems a.toNat).setWidth 64))

/-- The address of a bin descriptor (R245). -/
def binDesc (table i : Nat) : Nat := table + 64 + 32 * i
/-- The checks of BINW at issue (R246): the header for every active lane, then each lane's descriptor. -/
def binChecks (c : Crew) (t : Team) (a : VReg) (table : Nat) : List Check :=
  laneChecks t true false false false 64 64 ((c.actives t.width).map fun l => (l, table)) ++
  laneChecks t true true false false 1 32 ((c.actives t.width).map fun l => (l, binDesc table (c.getV a.toNat l).toNat))
/-- R246: a page that is not device memory of HOME 00 or 10 is an address fault, once its extent is found. -/
def binHomeChecks (t : Team) (cs : List Check) : List Check :=
  cs.map fun x => { x with faults := if counterPage (mkAcc t true (x.access != 0) 0 0 x.va 32) then [] else [.address] }
/-- BINW (R246, R247). -/
def execBinw (d a : VReg) (b : SReg) (s : State) : Host.Outcome State Fault Refusal :=
  let word := wordOf (.binw d a b)
  issue s (fun _ _ => { word := word, reads := [d.toNat, a.toNat], writes := [d.toNat], cls := some .copy, stops := true, closes := true })
    fun s c t =>
      let w := c.getS b
      let table := (w.extractLsb' 6 50).toNat * 64
      let sem := (w.extractLsb' 0 6).toNat
      if w.extractLsb' 56 8 ≠ 0 then trapAt s s.cur c word .operand
      else if t.nsem ≤ sem then trapAt s s.cur c word .handle 0 0 0 (BitVec.ofNat 64 sem)
      else
        let ls := c.actives t.width
        let cs := binChecks c t a table
        match takeAccess s s.cur c t word cs with
        | some s => s
        | none => match takeAccess s s.cur c t word (binHomeChecks t cs) with
          | some s => s
          | none =>
            let s := closeRegion s s.cur c.pc word
            let c := { c with region := none, buf := [] }
            if ls.isEmpty then retire (addDone s s.cur c .copy (.copy sem []) word) c
            else retire (addOp s
              { crew := s.cur, team := c.team, core := coreOf s.cur, cls := some .copy, pc := c.pc, word := word,
                kind := .binw { table := table, sem := sem, reg := d.toNat, redirect := [], res := [], bad := [], pois := [],
                                todo := ls.map fun l => (l, c.getV a.toNat l, c.getV d.toNat l) } }) c

/-- A bin descriptor as the engine reads it (R245). -/
structure Bin where
  base : Nat
  cap : Nat
  ovf : Nat
  count : Nat
  ovfcnt : Nat
  deriving DecidableEq, Repr
/-- The header's NBINS, if the header is valid; a descriptor, if it is valid (R246). -/
def readHeader (bs : List Byte) : Option Nat :=
  let n := fieldOf bs 0 4
  if n = 0 ∨ 4096 < n ∨ (bs.drop 4).any (· != 0) then none else some n
def readBin (nbins : Nat) (bs : List Byte) : Option Bin :=
  let b : Bin := { base := fieldOf bs 0 7, cap := fieldOf bs 8 4, ovf := fieldOf bs 12 2, count := fieldOf bs 16 4,
                   ovfcnt := fieldOf bs 20 4 }
  if fieldOf bs 7 1 ≠ 0 ∨ b.base % 4 ≠ 0 ∨ 2 ^ 31 ≤ b.cap ∨ nbins ≤ b.ovf ∨ fieldOf bs 14 2 ≠ 0 ∨ fieldOf bs 24 8 ≠ 0 then none else some b
/-- A count raised by one, saturated (R245). -/
def satInc (n : Nat) : Nat := min (n + 1) 0xFFFFFFFF
/-- An access of a BINW that passes its checks as the extents stand, in device memory of HOME 00 or 10. -/
def binAcc (t : Team) (st : Bool) (va size : Nat) : Option Acc :=
  let a := mkAcc t true st 0 0 va size
  if accessFaults t true st false false 1 va size = [] ∧ counterPage a = true then some a else none
/-- The outcome of the claims of some lanes on one bin: the bin, results, lanes that go on to the overflow bin, and the slots to put. -/
structure Claims where
  bin : Bin
  res : List (Nat × Word) := []
  redirect : List (Nat × Nat × Word) := []
  puts : List (Nat × Nat × Word) := []
  deriving DecidableEq, Repr
/-- One lane claims a slot (R246): `second` in phase 2. -/
def claimLane (second : Bool) (self : Nat) (k : Claims) (l : Nat) (tok : Word) : Claims :=
  let b := k.bin
  let j := b.count
  let b1 := { b with count := satInc j }
  if j < b.cap then
    { k with bin := b1, res := k.res ++ [(l, BitVec.ofNat 32 (if second then 2 ^ 31 + j else j))], puts := k.puts ++ [(l, b.base + 4 * j, tok)] }
  else
    let b2 := { b1 with ovfcnt := satInc b.ovfcnt }
    if second ∨ b.ovf = self then { k with bin := b2, res := k.res ++ [(l, 0xFFFFFFFF)] }
    else { k with bin := b2, redirect := k.redirect ++ [(l, b.ovf, tok)] }
/-- A token is put in its slot (R246): the lane whose slot address is refused, or the access of a token for another module. None while older
work on the slot comes first. -/
def putSlot (t : Team) (n : Nat) (o : Op) (s : State) (p : Nat × Nat × Word) : Option (State × List Nat × List Acc) :=
  let va := p.2.1
  if accessFaults t false true false false 4 va 4 ≠ [] then some (s, [p.1], [])
  else
    let a := { mkAcc t false true p.1 0 va 4 with data := p.2.2.setWidth 64 }
    if engineClear s n o true a then
      match reach s (funcOfTeam s o.team) .store a with
      | .here b => some (performBytes (ownLines s (some o.core) b.pa 4) (some o.core) none b.attr b.pa (leBytes 4 p.2.2.toNat) false fun _ => some 2, [], [])
      | _ => some (s, [], [a])
    else none
def putSlots (t : Team) (n : Nat) (o : Op) : List (Nat × Nat × Word) → State → Option (State × List Nat × List Acc)
  | [], s => some (s, [], [])
  | p :: ps, s =>
    match putSlot t n o s p with
    | none => none
    | some (s, bad, as) => (putSlots t n o ps s).map fun r => (r.1, bad ++ r.2.1, as ++ r.2.2)
/-- The counter of a bin, by its flat address. -/
def binPa (t : Team) (table i : Nat) : Nat := (mkAcc t true true 0 0 (binDesc table i) 32).pa
/-- The overflow bin of a bin, as its descriptor stands. -/
def binOvf (s : State) (t : Team) (table i : Nat) : Nat :=
  let d := mkAcc t true true 0 0 (binDesc table i) 32
  leVal (readBytes s d.key (d.pa + 12) 2)
/-- An older BINW of the core has, or may come to have, a claim to make on a counter (R247). -/
def olderBin (s : State) (n core pa : Nat) : Bool :=
  s.ops.any fun p => decide (p.1 < n) && p.2.core == core && !p.2.done &&
    match p.2.kind, s.team? p.2.team with
    | .binw b, some t =>
      (b.todo.any fun x => binPa t b.table x.2.1.toNat == pa || binPa t b.table (binOvf s t b.table x.2.1.toNat) == pa) ||
        b.redirect.any fun x => binPa t b.table x.2.1 == pa
    | _, _ => false
/-- The claims of a group of lanes on bin i (R246), with the accesses of tokens for other modules; `none` while older work comes first. A
descriptor is read only under a valid header that counts it (log entry 99). -/
def binGroup (s : State) (n : Nat) (o : Op) (t : Team) (b : BinOp) (second : Bool) (i : Nat) (lanes : List (Nat × Word)) :
    Option (State × BinOp × List Acc) :=
  let bads := lanes.map (·.1)
  let invalid := fun (pois : Option Nat) => { b with
    res := b.res ++ lanes.map (fun l => (l.1, 0xFFFFFFFE#32)), bad := b.bad ++ bads
    pois := match pois with | some a => b.pois ++ bads.map (fun l => (l, a)) | none => b.pois }
  let need := match binAcc t false b.table 64 with | some a => engineClear s n o false a | none => true
  if !need then none
  else match binAcc t false b.table 64, binAcc t true (binDesc b.table i) 32 with
    | some h, some d =>
      if !engineClear s n o true d || olderBin s n o.core d.pa then none
      else
        let hp := anyPoison s h.pa 64
        match if hp then none else readHeader (readBytes s h.key h.pa 64) with
        | none => some (s, invalid (if hp then some b.table else none), [])
        | some nb =>
          let dp := anyPoison s d.pa 32
          if nb ≤ i then some (s, invalid none, [])
          else match if dp then none else readBin nb (readBytes s d.key d.pa 32) with
            | none => some (s, invalid (if dp then some d.va else none), [])
            | some bin =>
              let k := lanes.foldl (fun k l => claimLane second i k l.1 l.2) { bin := bin }
              let s := performBytes s (some o.core) none d.attr (d.pa + 16)
                (leBytes 4 k.bin.count ++ leBytes 4 k.bin.ovfcnt) false (storeCause none)
              match putSlots t n o k.puts s with
              | none => none
              | some (s, refused, away) =>
                some (s, { b with
                  bytes := b.bytes + 4 * (k.puts.length - refused.length - away.length)
                  res := b.res ++ k.res.map fun r => if refused.contains r.1 then (r.1, 0xFFFFFFFD#32) else r
                  redirect := b.redirect ++ k.redirect, bad := b.bad ++ refused }, away)
    | _, _ => some (s, invalid none, [])
/-- BIN_CLAIM (R246, R247): the next claims of a BINW on one counter are applied as one step, in ascending lane order, once every older
acquire of the crew is performed (R216, R224); phase 2 follows phase 1. -/
def execBinClaim (n : Nat) (s : State) : Host.Outcome State Fault Refusal :=
  match Tbl.get? s.ops n with
  | none => disabled
  | some o =>
    match o.kind, s.team? o.team with
    | .binw b, some t =>
      let next := if !orderOver s o.crew n false false false then none else match b.todo, b.redirect with
        | x :: _, _ =>
          let now := b.todo.filter fun (y : Nat × Word × Word) => y.2.1 == x.2.1
          binGroup s n o t { b with todo := b.todo.filter fun (y : Nat × Word × Word) => y.2.1 != x.2.1 } false x.2.1.toNat (now.map fun (y : Nat × Word × Word) => (y.1, y.2.2))
        | [], _ =>
          let rd := sortKey (fun (p : Nat × Nat × Word) => p.1) b.redirect
          match rd with
          | x :: _ =>
            let now := rd.filter fun (y : Nat × Nat × Word) => y.2.1 == x.2.1
            binGroup s n o t { b with redirect := rd.filter fun (y : Nat × Nat × Word) => y.2.1 != x.2.1 } true x.2.1
              (now.map fun (y : Nat × Nat × Word) => (y.1, y.2.2))
          | [] => none
      match next with
      | some (s, b, as) => .next (s.modOp n fun o => { o with kind := .binw b, accs := o.accs ++ as })
      | none => disabled
    | _, _ => disabled
/-- BINW_COMPLETE (R246): once every put is performed the results are written back, the semaphore is incremented, and faults are held: the bin
fault first. -/
def execBinwComplete (n : Nat) (s : State) : Host.Outcome State Fault Refusal :=
  match Tbl.get? s.ops n with
  | none => disabled
  | some o =>
    match o.kind, s.crew? o.crew with
    | .binw b, some c =>
      let f := funcOfTeam s o.team
      if o.done = false ∧ b.todo = [] ∧ b.redirect = [] ∧ (o.accs.all fun a => reach s f .store a != .waits) = true then
        let refs := o.accs.filterMap fun a => match reach s f .store a with | .answered (.refused r) => some (a, r) | _ => none
        let s := addBytes s o.team (b.bytes + 4 * (o.accs.length - refs.length))
        let s := s.setCrew o.crew (c.setLanes b.reg b.res)
        let s := signal s n o b.sem
        let s := if b.bad.isEmpty then s else holdFault s n o [b.reg] none
          { kind := .bin, resume := c.pc, fault := c.pc, addr := BitVec.ofNat 64 b.table, mask := lanesMask b.bad.eraseDups }
        let pois := b.pois.map fun p => ({ lane := p.1, va := p.2 } : Acc)
        .next (finishOp (holdBad s n o [b.reg] pois refs) n)
      else disabled
    | _, _ => disabled

end Sys2Proof.Machine
end

