-- ==== Sys2Proof/Machine/Matrix.lean ====
section
/-! DEFINITION. The matrix instructions, the Trivet and the drains (09_matrix), with the steps that carry them on. -/
namespace Sys2Proof.Machine

/-- The output rows of MODE.MSHAPE (R45); a reserved code is refused by `mmOk` and the drains. -/
def mRows (m : DWord) : Nat := match (mShape m).toNat with | 0 => 32 | 1 => 16 | _ => 8
/-- The pairs of operand types of R260, and MSHAPE. -/
def mmOk (m : DWord) : Bool :=
  mShape m != 3 && ((tyIn (tyOf m) [1, 2] && tyIn (styOf m) [1, 2]) || (tyIn (tyOf m) [3, 4] && tyIn (styOf m) [3, 4]) ||
    (tyOf m == 5 && styOf m == 5))
/-- The block stride Q of A (R261), and the bytes that one block reads. -/
def blockBytes4 (f4 : Bool) (rows : Nat) : Nat := 64 * rows + (if f4 then 4 * rows else 0)
def blockStride (f4 : Bool) (rows : Nat) : Nat := 64 * rows + (if f4 then 64 * ((4 * rows + 63) / 64) else 0)
/-- The words of a B slice, and the registers that hold them (R263). -/
def sliceWords (f4 : Bool) : Nat := if f4 then 544 else 512
def sliceRegs (f4 : Bool) (width : Nat) : Nat := (sliceWords f4 + width - 1) / width
/-- The elements of a type in bytes (R83). -/
def elems (ty : Nat) (bs : List Byte) : List Nat :=
  if ty = 5 then bs.flatMap fun b => [b.toNat % 16, b.toNat / 16]
  else if tyBits ty = 8 then bs.map (·.toNat)
  else (List.range (bs.length / 2)).map fun i => (bs.getD (2 * i) 0).toNat + 256 * (bs.getD (2 * i + 1) 0).toNat
/-- The elements per group of R98. -/
def groupLen (ty : Nat) : Nat := if ty ≤ 2 then 8 else 32
/-- A group sum under the scales of R78: exact. -/
def scaled (p : Val) (ka kb : Nat) : Val :=
  if ka = 255 ∨ kb = 255 then .nan
  else match p with
    | .fin neg m => .fin neg (m * 2 ^ (ka + kb) / 2 ^ 254)
    | v => v
/-- One step of R98 for one element: the groups of a row of A and a column of B, in ascending order. -/
def accumulate (tyA tyB : Nat) (row col : List Byte) (sa sb : Word) (c : Word) : Word :=
  let ps := ((elems tyA row).zip (elems tyB col)).map fun p => mulV (readF (fmtOf tyA) false p.1) (readF (fmtOf tyB) false p.2)
  let n := groupLen tyA
  (List.range (ps.length / n)).foldl (fun c g =>
    let p := sumV 0 ((ps.drop (g * n)).take n)
    let p := if tyA = 5 then scaled p (sa.extractLsb' (8 * g) 8).toNat (sb.extractLsb' (8 * g) 8).toNat else p
    BitVec.ofNat 32 (roundV (fmtOf 0) { rnd := 0 } (sumV 0 [readF (fmtOf 0) false c.toNat, p]))) c
/-- c + x rounded once to f32 (R99, R286). -/
def addF32 (c x : Word) : Word :=
  BitVec.ofNat 32 (roundV (fmtOf 0) { rnd := 0 } (sumV 0 [readF (fmtOf 0) false c.toNat, readF (fmtOf 0) false x.toNat]))

/-- Element (i, j) of tile h is this cell of its team. -/
def tileCell (h i j : Nat) : Nat := 1024 * h + 32 * i + j
/-- A tile element as a step reads it: one that an error has destroyed has a free value (log entry 12). -/
def tileElem (s : State) (t : Team) (cell : Nat) : Word :=
  if t.tilePois.contains cell then BitVec.ofNat 32 (leVal ((List.range 4).map fun i => Config.destroyed s.clock (2 ^ 60 + 4 * cell + i)))
  else Sparse.get t.tiles cell
/-- The rows of a tile as a step reads them. -/
def tileRows (s : State) (t : Team) (h rows : Nat) : List (List Word) :=
  (List.range rows).map fun i => (List.range 32).map fun j => tileElem s t (tileCell h i j)
/-- The poisoned elements of the rows of a tile, as 32 i + j. -/
def tileBad (t : Team) (h rows : Nat) : List Nat :=
  (List.range (32 * rows)).filter fun k => t.tilePois.contains (tileCell h 0 k)
/-- Rows of a tile are written: an element written whole loses its poison (R375). -/
def writeRows (t : Team) (h : Nat) (rows : List (List Word)) : Team :=
  let cells := ((List.range rows.length).zip rows).flatMap fun p => ((List.range p.2.length).zip p.2).map fun q => (tileCell h p.1 q.1, q.2)
  { t with tiles := cells.foldl (fun m p => Sparse.set m p.1 p.2) t.tiles
           tilePois := t.tilePois.filter fun k => !(cells.any fun p => p.1 == k) }
/-- A tile of a team has a step that has issued and not yet written it (R266). -/
def tilePending (s : State) (team h : Nat) : Bool :=
  s.ops.any fun p => p.2.team == team && !p.2.done && (match p.2.kind with | .tile k _ => k == h | _ => false)
/-- A tile field of an instruction (R51). -/
def tileField (t : Team) (h : BitVec 6) : Nat × Bool := (h.toNat, decide (h.toNat < t.ntile))

/-- A scratchpad operand (R279 step 4): the fault it takes, for a load or a store, with ADDR the operand's and MASK bit 0 (log entry 39). -/
def scratchFault (t : Team) (va align span access : Nat) : Option (List Check × TrapKind × Nat × DWord × Nat) :=
  let fs : List TrapKind := match placeOf va with
    | .scratch o => (if va % align = 0 then [] else [.misaligned]) ++ (if o + span ≤ t.scratchBytes then [] else [.range])
    | _ => [.address]
  let cs : List Check := [{ lane := 0, va := va, size := span, access := access, faults := fs }]
  (laneFault cs).map fun f => (cs, f)
/-- 64-byte blocks of a scratchpad operand as accesses. -/
def scratchAccs (t : Team) (va n : Nat) : List Acc :=
  (List.range ((n + 63) / 64)).map fun i => mkAcc t true false 0 0 (va + 64 * i) (min 64 (n - 64 * i))
/-- Reads of the issuing crew, made at issue (R268), are allowed now. -/
def scratchReady (s : State) (key : Nat) (c : Crew) (as : List Acc) : Bool :=
  let o : Op := { crew := key, team := c.team, core := coreOf key, cls := none, kind := .load }
  as.all fun a => loadable s s.nextOp o c a
/-- One byte as a matrix instruction reads it: what it has read ahead, or what is there now (R268). -/
def operandByte (s : State) (key : Nat) (c : Crew) (a : Acc) (x : Nat) : Byte × Bool :=
  match c.seen.find? fun y => y.1 == c.issued && y.2.1 == x with
  | some y => y.2.2
  | none => loadByte s key c s.nextOp a x
/-- Bytes that the crew reads at issue, or has read ahead of it where a write raced with the step (R268, log entry 92); destroyed ones have free
values (log entry 12). -/
def scratchBytes (s : State) (key : Nat) (c : Crew) (as : List Acc) : List Byte :=
  as.flatMap fun a => (List.range a.size).map fun i =>
    let (b, bad) := operandByte s key c a (a.pa + i)
    if bad then Config.destroyed s.clock (a.pa + i) else b
/-- Bytes as words. -/
def wordsOf (bs : List Byte) (n : Nat) : List Word := (List.range n).map fun i => BitVec.ofNat 32 (fieldOf bs (4 * i) 4)
/-- Bytes cut into rows of 64, and the scale words after them (R261, R262). -/
def rowsOf (bs : List Byte) (n : Nat) : List (List Byte) := (List.range n).map fun i => (bs.drop (64 * i)).take 64
def scalesOf (f4 : Bool) (bs : List Byte) (n : Nat) : List Word := if f4 then wordsOf (bs.drop (64 * n)) n else []
/-- A B slice in a crew's registers (R263). -/
def bWord (c : Crew) (b width j q : Nat) : Word := c.getV (b + (j + 32 * q) / width) ((j + 32 * q) % width)
def bColumns (c : Crew) (b width : Nat) : List (List Byte) :=
  (List.range 32).map fun j => (List.range 16).flatMap fun q => leBytes 4 (bWord c b width j q).toNat
def bScales (f4 : Bool) (c : Crew) (b width : Nat) : List Word := if f4 then (List.range 32).map fun j => bWord c b width j 16 else []
/-- A matrix instruction takes effect: the crew's open region closes (R269). -/
def matrixClose (s : State) (c : Crew) (word : Word) : State × Crew :=
  (closeRegion s s.cur c.pc word, { c with region := none, buf := [] })
/-- A tile step of the crew of the current move issues. -/
def issueTile (s : State) (c : Crew) (word : Word) (h : Nat) (step : TileStep) : State :=
  let (s, c) := matrixClose s c word
  retire (addOp s { crew := s.cur, team := c.team, core := coreOf s.cur, cls := some .tile, kind := .tile h step, pc := c.pc, word := word }) c
/-- What a matrix instruction other than GANG needs. -/
def matrixNeed (s : State) (i : Instr) (ok : Bool) (d : BitVec 6) (c : Crew) (t : Team) : Need :=
  { word := wordOf i, ok := ok, handles := [tileField t d], cls := some .tile, stops := true, closes := true,
    waits := tilePending s c.team d.toNat }

/-- A GANG of a crew with a value fails the Trivet entries that wait for the crew with another (R274 cause 4). -/
def gangRewritten (s : State) (key : Nat) (c : Crew) (g : DWord) : State :=
  failGangs 65 s (coreOf key) (fun r => listsCrew c.team c.idx r && r.arrived.all fun x => x.gang != g) 4 (some c.idx)
/-- GANG (R278): the crew's marks are cleared (R275), and a value that differs fails entries that wait for the crew (R274 cause 4), for a crew
that speculates at its commit (log entry 93). -/
def execGang (a : SReg) (s : State) : Host.Outcome State Fault Refusal :=
  issue s (fun c _ => { word := wordOf (.gang a), ok := (c.getS a).extractLsb' 35 29 == 0 && (c.getS a).extractLsb' 30 2 == 0 })
    fun s c t =>
      let g := c.getS a
      let n := gangN g
      let ms := gangMembers g
      let bad := if n = 0 then decide (g ≠ 0)
        else n == 1 || n == 7 || ((List.range 6).any fun i => decide (n ≤ i) && gangAt g i != 0) ||
          ms.any (fun m => decide (t.crews.length ≤ m)) || decide (ms.eraseDups.length ≠ n) || !ms.contains c.idx
      let c' := { c with gang := g, gangMarks := [] }
      if bad then trapAt s s.cur c (wordOf (.gang a)) .operand
      else match c.spec with
        | some sp => retire s { c' with spec := some { sp with gangs := sp.gangs ++ [g] } }
        | none => gangRewritten (retire s c') s.cur c g

/-- The arrival record of a member (R273): what must agree. -/
def Arrival.agrees (a b : Arrival) : Bool :=
  a.gang == b.gang && a.tile == b.tile && mType a.mode == mType b.mode && mStype a.mode == mStype b.mode && mShape a.mode == mShape b.mode
/-- The A blocks of a member (R261). -/
def memberAccs (t : Team) (a : Arrival) : List (List Acc) :=
  let f4 := tyOf a.mode == 5
  (List.range (gangN a.gang)).map fun i =>
    scratchAccs t (a.addr.toNat + i * blockStride f4 (mRows a.mode)) (blockBytes4 f4 (mRows a.mode))
/-- Every member of a full entry can issue now: its A operand can be read, and no step is pending on a tile of the gang (R266, R268). -/
def gangReady (s : State) (t : Team) (as : List Arrival) : Bool :=
  as.all fun a => (match s.crew? a.crew with | some c => (memberAccs t a).all (scratchReady s a.crew c) | none => true) &&
    (List.range (gangN a.gang)).all fun p => match s.crew? a.crew with | some c => !tilePending s c.team (a.tile + p) | none => true
/-- Member p's arrival, by its place in the gang register. -/
def arrivalOf (s : State) (as : List Arrival) (g : DWord) (p : Nat) : Option Arrival :=
  as.find? fun a => match s.crew? a.crew with | some c => c.idx == gangAt g p | none => false
/-- The release of an entry (R273 step 4, R280): every member issues. -/
def releaseGang (s : State) (t : Team) (as : List Arrival) (g : DWord) : State :=
  let s0 := s
  (List.range (gangN g)).foldl (fun s p =>
    match arrivalOf s0 as g p with
    | none => s
    | some a =>
      match s.crew? a.crew, s0.crew? a.crew with
      | some c, some c0 =>
        let f4 := tyOf a.mode == 5
        let slices := ((List.range (gangN g)).zip (memberAccs t a)).filterMap fun q =>
          match arrivalOf s0 as g q.1 with
          | none => none
          | some b => match s0.crew? b.crew with
            | none => none
            | some cb =>
              let bs := scratchBytes s0 a.crew c0 q.2
              some { arow := rowsOf bs (mRows a.mode), ascale := scalesOf f4 bs (mRows a.mode),
                     bcol := bColumns cb b.reg t.width, bscale := bScales f4 cb b.reg t.width : MacSlice }
        let s := addOp s { crew := a.crew, team := c.team, core := coreOf a.crew, cls := some .tile,
                           kind := .tile (a.tile + p) (.mac (mRows a.mode) (mType a.mode) (mStype a.mode) slices), pc := c.pc,
                           word := wordAt s0 t c.pc }
        if a.crew = s0.cur then s.setCrew a.crew { c with wait := .none }.advance else retireLate s a.crew c 0x81
      | _, _ => s) s
/-- An arrival at the Trivet (R273). -/
def arriveGang (s : State) (c : Crew) (t : Team) (word : Word) (a : Arrival) : State :=
  let core := coreOf s.cur
  let set_ := gangSet a.gang
  let mine := fun (r : Rendezvous) => r.team == c.team && r.members == set_
  let here := match (s.core core).trivet.find? mine with | some r => r.arrived | none => []
  let all := here ++ [a]
  let ended := t.crews.any fun k => match s.crew? k with | some x => set_.contains x.idx && x.wait == .ended | none => false
  let cause := if ended then 2 else if here.all (·.agrees a) then 0 else 3
  let join := fun (s : State) => s.modCore core fun k =>
    { k with trivet := k.trivet.filter (fun r => !mine r) ++ [{ team := c.team, members := set_, arrived := all }] }
  if cause ≠ 0 then
    let (s, c) := matrixClose s c word
    failGangs 65 (join (s.setCrew s.cur { c with wait := .trivet })) core mine cause none
  else if all.length < set_.length then
    let (s, c) := matrixClose s c word
    join (s.setCrew s.cur { c with wait := .trivet })
  else if gangReady s t all then
    let (s, c) := matrixClose s c word
    let s := emitS (s.setCrew s.cur c) s.cur 0x21 (BitVec.ofNat 8 a.tile) (BitVec.ofNat 32 (gangN a.gang))
    let s := s.modCore core fun k => { k with trivet := k.trivet.filter fun r => !mine r }
    releaseGang s t all a.gang
  else s
/-- MMAG (R279, R280). -/
def execMmag (d : BitVec 6) (a : SReg) (b : VReg) (s : State) : Host.Outcome State Fault Refusal :=
  let word := wordOf (.mmag d a b)
  issue s (fun c t =>
      { word := word, ok := mmOk c.mode, handles := [tileField t d], cls := some .tile, stops := true, closes := true,
        reads := b.toNat :: ((List.range (sliceRegs (tyOf c.mode == 5) t.width)).map fun i => b.toNat + i).filter fun r => decide (r < t.nvreg) })
    fun s c t =>
      let f4 := tyOf c.mode == 5
      let n := gangN c.gang
      if n = 0 then trapAt s s.cur c word .operand
      else if t.ntile < d.toNat + n then trapAt s s.cur c word .handle 0 0 0 (d.setWidth 64)
      else if t.nvreg < b.toNat + sliceRegs f4 t.width then trapAt s s.cur c word .operand
      else match scratchFault t (c.getS a).toNat 64 (n * blockStride f4 (mRows c.mode)) 0 with
        | some (cs, f) => takeKind s s.cur c t word cs f
        | none =>
          match c.gangMarks.find? fun m => gangSet m.2 == gangSet c.gang with
          | some m => trapAt (s.setCrew s.cur { c with gangMarks := c.gangMarks.filter (· != m) }) s.cur c word .gang m.1 0 0 c.gang
          | none => arriveGang s c t word { crew := s.cur, gang := c.gang, tile := d.toNat, mode := c.mode, reg := b.toNat, addr := c.getS a }

/-- MMAS (R281). A fault of A is taken before B is looked at (log entry 132). -/
def execMmas (d : BitVec 6) (a b : SReg) (s : State) : Host.Outcome State Fault Refusal :=
  let word := wordOf (.mmas d a b)
  issue s (fun c t => matrixNeed s (.mmas d a b) (mmOk c.mode) d c t) fun s c t =>
    let f4 := tyOf c.mode == 5
    let rows := mRows c.mode
    let va := (c.getS a).toNat
    let vb := (c.getS b).toNat
    match scratchFault t va 64 (blockBytes4 f4 rows) 0 with
    | some (cs, f) => takeKind s s.cur c t word cs f
    | none =>
      match scratchFault t vb 64 (blockBytes4 f4 32) 0 with
      | some (cs, f) => takeKind s s.cur c t word cs f
      | none =>
        let as := scratchAccs t va (blockBytes4 f4 rows)
        let bs := scratchAccs t vb (blockBytes4 f4 32)
        if scratchReady s s.cur c (as ++ bs) then
          let x := scratchBytes s s.cur c as
          let y := scratchBytes s s.cur c bs
          issueTile s c word d.toNat (.mac rows (mType c.mode) (mStype c.mode)
            [{ arow := rowsOf x rows, ascale := scalesOf f4 x rows, bcol := rowsOf y 32, bscale := scalesOf f4 y 32 }])
        else s
/-- TILEZ (R282). -/
def execTilez (d : BitVec 6) (s : State) : Host.Outcome State Fault Refusal :=
  issue s (fun c t => matrixNeed s (.tilez d) true d c t) fun s c _ => issueTile s c (wordOf (.tilez d)) d.toNat .zero
/-- TLD (R282, R84). -/
def execTld (d : BitVec 6) (a : SReg) (s : State) : Host.Outcome State Fault Refusal :=
  let word := wordOf (.tld d a)
  issue s (fun c t => matrixNeed s (.tld d a) true d c t) fun s c t =>
    match scratchFault t (c.getS a).toNat 128 4096 0 with
    | some (cs, f) => takeKind s s.cur c t word cs f
    | none =>
      let as := scratchAccs t (c.getS a).toNat 4096
      if scratchReady s s.cur c as then issueTile s c word d.toNat (.load (wordsOf (scratchBytes s s.cur c as) 1024)) else s

/-- A row of a tile converted to MODE.TYPE, as bytes (R83, R284). -/
def drainRow (c : Crew) (i : Nat) (row : List Word) : List Byte :=
  let ty := tyOf c.mode
  let codes := ((List.range row.length).zip row).map fun p => if ty = 0 then p.2.toNat else convert ty 0 (rndAt c i p.1) p.2.toNat
  if ty = 5 then (List.range (codes.length / 2)).map fun k => BitVec.ofNat 8 (codes.getD (2 * k) 0 + 16 * codes.getD (2 * k + 1) 0)
  else codes.flatMap fun x => leBytes (tyBits ty / 8) x
/-- The bytes of a row of a drain. -/
def drainLen (m : DWord) : Nat := 4 * tyBits (tyOf m)
/-- The fields that a drain consumes (R284). -/
def drainOk (m : DWord) : Bool := mShape m != 3 && isFloat (tyOf m) && (tyOf m == 0 || rndOk m)
/-- A drain that has passed its checks issues (R266, R283): the tile is read, and the destination owned (R223). -/
def issueDrain (s : State) (c : Crew) (t : Team) (word : Word) (h va pitch : Nat) : State :=
  let rows := mRows c.mode
  let as := ((List.range rows).zip (tileRows s t h rows)).flatMap fun p =>
    let bs := drainRow c p.1 p.2
    (List.range (bs.length / 8)).map fun k =>
      { mkAcc t false true p.1 k (va + p.1 * pitch + 8 * k) 8 with data := BitVec.ofNat 64 (fieldOf bs (8 * k) 8) }
  let (s, c) := matrixClose s c word
  let s := as.foldl (fun s a => let b := landing s c.team .store a; raceLoads s b.pa b.size) s
  let s := addOp s { crew := s.cur, team := c.team, core := coreOf s.cur, cls := some .tile, kind := .drain h (tileBad t h rows),
                     accs := as, pc := c.pc, word := word }
  as.foldl (fun s a => let b := landing s c.team .store a; ownLines s (some (coreOf s.cur)) b.pa b.size) (retire s (c.countRnd (tyOf c.mode != 0)))
/-- TDRN (R283). -/
def execTdrn (d : BitVec 6) (a : SReg) (s : State) : Host.Outcome State Fault Refusal :=
  let word := wordOf (.tdrn d a)
  issue s (fun c t => matrixNeed s (.tdrn d a) (drainOk c.mode) d c t) fun s c t =>
    match scratchFault t (c.getS a).toNat 16 (mRows c.mode * drainLen c.mode) 1 with
    | some (cs, f) => takeKind s s.cur c t word cs f
    | none => issueDrain s c t word d.toNat (c.getS a).toNat (drainLen c.mode)
/-- TDRM (R283). -/
def execTdrm (d : BitVec 6) (a b : SReg) (s : State) : Host.Outcome State Fault Refusal :=
  let word := wordOf (.tdrm d a b)
  issue s (fun c t => { matrixNeed s (.tdrm d a b) (drainOk c.mode) d c t with
      lines := vaLines ((List.range (mRows c.mode)).map fun i => (c.getS a).toNat + i * (c.getS b).toNat) }) fun s c t =>
    let pitch := (c.getS b).toNat
    let va := (c.getS a).toNat
    if pitch % 16 ≠ 0 ∨ pitch < drainLen c.mode ∨ 2 ^ 32 ≤ pitch then trapAt s s.cur c word .operand
    else match takeAccess s s.cur c t word (laneChecks t false true false false 16 (drainLen c.mode)
        ((List.range (mRows c.mode)).map fun i => (i, va + i * pitch))) with
      | some s => s
      | none => issueDrain s c t word d.toNat va pitch

/-- TDRP (R285, R286). -/
def execTdrp (d : BitVec 6) (a : SReg) (s : State) : Host.Outcome State Fault Refusal :=
  let word := wordOf (.tdrp d a)
  issue s (fun c t => matrixNeed s (.tdrp d a) (mShape c.mode != 3) d c t) fun s c t =>
    let w := c.getS a
    let find := w.getLsbD 31
    let teams := match Tbl.get? s.entries t.entry with | some e => e.rec_.teams | none => 0
    if teams ≤ (w.extractLsb' 32 32).toNat ∨ w.getLsbD 30 = true ∨ w.extractLsb' 22 2 ≠ 0 ∨ w.extractLsb' 11 5 ≠ 0 ∨
        (find = true ∧ w.extractLsb' 0 11 ≠ 0) then trapAt s s.cur c word .operand
    else
      let rows := mRows c.mode
      let x : DrainAdd :=
        { pteam := (w.extractLsb' 32 32).toNat, find := find, psem := (w.extractLsb' 24 6).toNat, ptile := (w.extractLsb' 16 6).toNat,
          pcore := (w.extractLsb' 0 11).toNat, rows := tileRows s t d.toNat rows, pois := tileBad t d.toNat rows, verdict := none }
      let (s, c) := matrixClose s c word
      let s := addOp s { crew := s.cur, team := c.team, core := coreOf s.cur, cls := some .tile, kind := .drainAdd x, pc := c.pc, word := word }
      emitS (retire s c) s.cur 0x31 (d.setWidth 8) (w.extractLsb' 0 32)

/-- What a step makes of element (i, j) of its tile, whose old value is c. -/
def TileStep.elem (st : TileStep) (i j : Nat) (c : Word) : Word :=
  match st with
  | .zero => 0
  | .load ws => ws.getD (32 * i + j) 0
  | .mac rows tyA tyB slices =>
    if i < rows then slices.foldl (fun c x =>
      accumulate tyA.toNat tyB.toNat (x.arow.getD i []) (x.bcol.getD j []) (x.ascale.getD i 0) (x.bscale.getD j 0) c) c
    else c
/-- The rows that a step writes. -/
def TileStep.rows : TileStep → Nat
  | .mac rows _ _ _ => rows
  | _ => 32
/-- TILE_STEP_COMPLETE (R266, R280 to R282): the tile is written. -/
def execTileStepComplete (n : Nat) (s : State) : Host.Outcome State Fault Refusal :=
  match Tbl.get? s.ops n with
  | none => disabled
  | some o =>
    match o.kind, s.team? o.team with
    | .tile h st, some t =>
      if o.done then disabled
      else
        let rows := (List.range st.rows).map fun i => (List.range 32).map fun j => st.elem i j (tileElem s t (tileCell h i j))
        .next (finishOp (s.setTeam o.team (writeRows t h rows)) n)
    | _, _ => disabled
/-- The rows that hold poisoned elements, as a mask (R370). -/
def rowMask (pois : List Nat) : DWord := lanesMask (pois.map (· / 32)).eraseDups
/-- The bytes of a drain that poisoned elements cover (R284): element k of the tile, in the accesses of its row. -/
def drainPoison (o : Op) (pois : List Nat) : List Nat :=
  pois.flatMap fun k =>
    let row := o.accs.filter fun a => a.lane == k / 32
    let len := 8 * row.length
    let lo := k % 32 * len / 32
    let hi := (k % 32 * len + len + 31) / 32
    (List.range (hi - lo)).filterMap fun i => (row.find? fun a => a.elem == (lo + i) / 8).map fun a => a.pa + (lo + i) % 8
/-- DRAIN_COMPLETE (R283, R284): the destination bytes are written, poisoned where the tile was. -/
def execDrainComplete (n : Nat) (s : State) : Host.Outcome State Fault Refusal :=
  match Tbl.get? s.ops n with
  | none => disabled
  | some o =>
    match o.kind, s.crew? o.crew with
    | .drain _ pois, some c =>
      let f := funcOfTeam s o.team
      if o.done = false ∧ orderOver s o.crew n false false false = true ∧
          (o.accs.all fun a => engineClear s n o true a && reach s f .store a != .waits) = true then
        let (s, refs) := o.accs.foldl (fun (r : State × List (Acc × Nat)) a =>
          match engineWrite r.1 (some o.core) f a (leBytes a.size a.data.toNat)
              ((List.range a.size).map fun i => (drainPoison o pois).contains (a.pa + i)) with
          | some (s, some x) => (s, r.2 ++ [(a, x)])
          | some (s, none) => (s, r.2)
          | none => r) (clearCovered s (o.accs.map (landing s o.team .store)), [])
        let s := addBytes s o.team ((o.accs.filter fun a => !inScratch a.pa && !refs.any fun r => r.1 == a).foldl (fun x a => x + a.size) 0)
        let s := if pois.isEmpty then s else holdFault s n o [] none (poisonInfo c 0 (rowMask pois))
        .next (finishOp (holdBad s n o [] [] refs) n)
      else disabled
    | _, _ => disabled

/-- The team that a drain-add names, if it is accepted; else the reason of R286: 4 counts first (R480), then 1, 2 and 3 (log entry 119). -/
def drainTarget (s : State) (o : Op) (d : DrainAdd) : Except Nat (Nat × Team) :=
  match s.team? o.team with
  | none => .error 1
  | some t0 =>
    if !d.find && ((s.core d.pcore).fenced || s.svc.fenced.contains (d.pcore / 32)) then .error 4
    else match s.teams.find? fun p => p.2.entry == t0.entry && p.2.tidx == d.pteam && !p.2.retired && (d.find || p.2.core == d.pcore) with
    | none => .error 1
    | some (tid, t) =>
      if deliveryRefused s t then .error 4 else if t.ntile ≤ d.ptile then .error 2 else if t.nsem ≤ d.psem then .error 3 else .ok (tid, t)
/-- DRAIN_ADD_RECEIVE (R266, R270, R286): the drain-add is applied as one tile step and the semaphore incremented, or it is refused; older
acquires of the issuer are performed by then (R216). -/
def execDrainAddReceive (n : Nat) (s : State) : Host.Outcome State Fault Refusal :=
  match Tbl.get? s.ops n with
  | none => disabled
  | some o =>
    match o.kind with
    | .drainAdd d =>
      if o.done || d.verdict.isSome || !orderOver s o.crew n false false false then disabled
      else match drainTarget s o d with
        | .error r => .next (s.modOp n fun o => { o with kind := .drainAdd { d with verdict := some r } })
        | .ok (tid, t) =>
          if tilePending s tid d.ptile then disabled
          else
            let rows := ((List.range d.rows.length).zip d.rows).map fun p => ((List.range 32).zip p.2).map fun q =>
              addF32 (tileElem s t (tileCell d.ptile p.1 q.1)) q.2
            let t' := writeRows t d.ptile rows
            let t' := { t' with tilePois := d.pois.foldl (fun l k => setAdd l (tileCell d.ptile 0 k)) t'.tilePois }
            let s := s.setTeam tid (semAdd t' d.psem 1)
            let s := (t.crews.filter fun k => match s.crew? k with | some c => c.spec.isSome | none => false).foldl
              (fun s k => rollback s k 5 0 (o.stamp + 1)) s
            let s := applyInvs s t.core
            let s := emitA s (t.core / 32) (t.core % 32) (funcOfTeam s tid) none 0x32 (BitVec.ofNat 8 d.ptile)
              (BitVec.ofNat 32 (o.core * 2 ^ 21 + d.psem * 2 ^ 15)) (o.stamp + 1) (some t.ctx)
            .next (s.modOp n fun o => { o with kind := .drainAdd { d with verdict := some 0 } })
    | _ => disabled
/-- The peer word of R285 that a drain-add carries. -/
def DrainAdd.word (d : DrainAdd) : DWord :=
  BitVec.ofNat 64 (d.pteam * 2 ^ 32 + (if d.find then 2 ^ 31 else 0) + d.psem * 2 ^ 24 + d.ptile * 2 ^ 16 + d.pcore)
/-- DRAIN_ADD_ACK (R286): TDRP completes for TLC; a refusal is held against it, and poison that it carried (R284). -/
def execDrainAddAck (n : Nat) (s : State) : Host.Outcome State Fault Refusal :=
  match Tbl.get? s.ops n with
  | none => disabled
  | some o =>
    match o.kind, s.crew? o.crew with
    | .drainAdd d, some c =>
      (match d.verdict with
       | none => disabled
       | some r =>
         if o.done then disabled
         else
           let s := if d.pois.isEmpty then s else holdFault s n o [] none (poisonInfo c 0 (rowMask d.pois))
           let s := if r = 0 then s else holdFault s n o [] none
             { kind := .drainRefused, cause := BitVec.ofNat 8 r, resume := c.pc, fault := c.pc, detail := d.word }
           .next (finishOp s n))
    | _, _ => disabled

end Sys2Proof.Machine
end

