-- ==== Sys2Proof/Machine/Atomic.lean ====
section
/-! DEFINITION. Atomic instructions and condition monitors (10_atomics), with the steps that carry them on. -/
namespace Sys2Proof.Machine

/-- The types that an atomic accepts (R290). -/
def atomicTypes (op : AtomicOp) : List Nat :=
  match op with
  | .add => [6, 7, 0, 13]
  | .min | .max => [6, 7, 0]
  | .and | .or | .xor => [6, 7, 12, 13]
  | .xch | .cas => [0, 6, 7, 12, 13]
/-- The access size of an atomic or a WAITC. -/
def atomicSize (ty : Nat) : Nat := if ty = 13 then 8 else 4
/-- The operation f of R292 on a location of z bytes: V and x as unsigned numbers. -/
def atomicF (op : AtomicOp) (ty : Nat) (v x : Nat) : Nat :=
  match op with
  | .add => if ty = 0 then (addF32 (BitVec.ofNat 32 v) (BitVec.ofNat 32 x)).toNat else (v + x) % 2 ^ (8 * atomicSize ty)
  | .min => if ty = 0 then exactCode 0 (minV (readF (fmtOf 0) false v) (readF (fmtOf 0) false x))
            else lowBits ty (min (readI ty v) (readI ty x))
  | .max => if ty = 0 then exactCode 0 (maxV (readF (fmtOf 0) false v) (readF (fmtOf 0) false x))
            else lowBits ty (max (readI ty v) (readI ty x))
  | .and => v &&& x
  | .or => v ||| x
  | .xor => v ^^^ x
  | .xch | .cas => x
/-- The lanes of one step in ascending order (R292, R294): old values, the last value, and whether it is written. -/
def atomicFold (op : AtomicOp) (ty : Nat) : List (DWord × DWord) → Nat → List Nat × Nat × Bool
  | [], v => ([], v, op != .cas)
  | (x, cmp) :: t, v =>
    let hit := op != .cas || v == cmp.toNat
    let v' := if hit then atomicF op ty v x.toNat else v
    let (olds, w, wr) := atomicFold op ty t v'
    (v :: olds, w, wr || hit)

/-- The registers of field d of an atomic (R290). -/
def atomicRegs (op : AtomicOp) (m : DWord) (d : VReg) : List Nat :=
  let n := (if tyOf m = 13 then 2 else 1) * (if op = .cas then 2 else 1)
  (List.range n).map fun i => d.toNat + i
/-- The alignment of field d at check 4 (R290). -/
def atomicFieldOk (op : AtomicOp) (m : DWord) (d : VReg) : Bool :=
  tyOf m != 13 || (if op = .cas then d.toNat % 4 == 0 else VReg.even d)
/-- The PCIe AtomicOp that an instruction and type have (R298). -/
def hasAtomicOp (op : AtomicOp) (ty : Nat) : Bool :=
  match op with
  | .add => ty != 0
  | .xch | .cas => true
  | _ => false
/-- The team as an atomic's checks see it: range I gives no permission (R291). -/
def noImage (t : Team) : Team := { t with extents := t.extents.map fun e => if e.range = 8 then { e with r := false, w := false } else e }
/-- The checks of R291. -/
def atomicChecks (op : AtomicOp) (m : DWord) (t : Team) (as : List (Nat × Nat)) : List Check :=
  let z := atomicSize (tyOf m)
  (laneChecks (noImage t) true true false false z z as).map fun c =>
    let a := mkAcc t true true c.lane 0 c.va z
    if c.faults.isEmpty && inHost a.pa && a.sysatom && !hasAtomicOp op (tyOf m) then { c with faults := [.systemAtomic] } else c
/-- One lane of an atomic as an access: its operand, compare value and destination. -/
def atomicAcc (op : AtomicOp) (c : Crew) (t : Team) (d : VReg) (l va : Nat) : Acc :=
  let wide := tyOf c.mode == 13
  let rd := fun r => if wide then c.getPair r l else (c.getV r l).setWidth 64
  let second := d.toNat + (if wide then 2 else 1)
  { mkAcc t true true l 0 va (atomicSize (tyOf c.mode)) with
    data := if op = .cas then rd second else rd d.toNat
    cmp := if op = .cas then rd d.toNat else 0
    dst := some { reg := d.toNat, lane := l, lo := 0, bits := if wide then 64 else 32, clear := true } }
/-- AADD to ACAS (R290, R291). -/
def atomicOp (i : Instr) (op : AtomicOp) (d : VReg) (a : SReg) (b : VReg) (s : State) : Host.Outcome State Fault Refusal :=
  let word := wordOf i
  issue s (fun c t =>
      let act := !(c.actives t.width).isEmpty
      { word := word, cls := some .load, stops := act, closes := act, lines := vaLines ((laneAddrs c t a b).map (·.2)),
        ok := i.wf && tyIn (tyOf c.mode) (atomicTypes op) && atomicFieldOk op c.mode d && awOk c.mode b && ordOk c.mode [0, 1, 2, 3]
        reads := atomicRegs op c.mode d ++ addrRegs c.mode b, writes := unitRegs c.mode d })
    fun s c t =>
      let as := laneAddrs c t a b
      match takeAccess s s.cur c (noImage t) word (atomicChecks op c.mode t as) with
      | some s => s
      | none =>
        if as.isEmpty then retire (addDone s s.cur c .load (.atomic op (mType c.mode) d.toNat) word) c
        else
          let s := closeRegion s s.cur c.pc word
          let c := { c with region := none, buf := [] }
          retire (addOp s
            { crew := s.cur, team := c.team, core := coreOf s.cur, cls := some .load, kind := .atomic op (mType c.mode) d.toNat,
              acq := (mOrd c.mode).getLsbD 0, rel := (mOrd c.mode).getLsbD 1, scope := (mScope c.mode).toNat,
              accs := as.map fun p => atomicAcc op c t d p.1 p.2, pc := c.pc, word := word }) c
/-- AADD (R292). -/
def execAadd (d : VReg) (a : SReg) (b : VReg) (s : State) : Host.Outcome State Fault Refusal := atomicOp (.aadd d a b) .add d a b s
/-- AMIN (R292). -/
def execAmin (d : VReg) (a : SReg) (b : VReg) (s : State) : Host.Outcome State Fault Refusal := atomicOp (.amin d a b) .min d a b s
/-- AMAX (R292). -/
def execAmax (d : VReg) (a : SReg) (b : VReg) (s : State) : Host.Outcome State Fault Refusal := atomicOp (.amax d a b) .max d a b s
/-- AAND (R292). -/
def execAand (d : VReg) (a : SReg) (b : VReg) (s : State) : Host.Outcome State Fault Refusal := atomicOp (.aand d a b) .and d a b s
/-- AOR (R292). -/
def execAor (d : VReg) (a : SReg) (b : VReg) (s : State) : Host.Outcome State Fault Refusal := atomicOp (.aor d a b) .or d a b s
/-- AXOR (R292). -/
def execAxor (d : VReg) (a : SReg) (b : VReg) (s : State) : Host.Outcome State Fault Refusal := atomicOp (.axor d a b) .xor d a b s
/-- AXCH (R292). -/
def execAxch (d : VReg) (a : SReg) (b : VReg) (s : State) : Host.Outcome State Fault Refusal := atomicOp (.axch d a b) .xch d a b s
/-- ACAS (R294). -/
def execAcas (d : VReg) (a : SReg) (b : VReg) (s : State) : Host.Outcome State Fault Refusal := atomicOp (.acas d a b) .cas d a b s

/-- What a step makes of a location that holds v: the old values of the lanes, and the write (R292 to R294). -/
def writeAtomic (s : State) (core : Option Nat) (op : AtomicOp) (ty : Nat) (a : Acc) (xs : List (DWord × DWord)) (v : Nat) : State × List Nat :=
  let (olds, v, wr) := atomicFold op ty xs v
  (if wr then performBytes s core none a.attr a.pa (leBytes a.size v) false (storeCause none) else s, olds)
/-- One step at an execution point of this module (R289, R292 to R295): old values of the lanes, or none for a poisoned location. The
core is the one whose crew issued the atomic; its own copy of the line goes (R216). -/
def applyAtomic (s : State) (core : Option Nat) (op : AtomicOp) (ty : Nat) (a : Acc) (xs : List (DWord × DWord)) :
    State × Option (List Nat) :=
  let s := match core with | some k => dropOwnLine s k (lineOf (route s a.pa)) | none => s
  if anyPoison s a.pa a.size then (s, none)
  else
    let r := writeAtomic s core op ty a xs (leVal (readBytes s a.key a.pa a.size))
    (r.1, some r.2)
/-- A function may send AtomicOps (R459): the PF's AtomicOp Requester Enable on the link that carries the request. -/
def atomicEnabled (s : State) (func : Nat) : Bool := s.sec.atomicLinks.contains (linkOf s func)
/-- The results of a step are kept with its accesses until they return: the old value, or the reason of a refusal, 0 for poison. -/
def setOlds (ks : List Nat) (olds : Option (List Nat)) (reason : Nat) (accs : List Acc) : List Acc :=
  (ks.zip (List.range ks.length)).foldl (fun as p =>
    as.modify p.1 fun a => match olds with
      | some l => { a with data := BitVec.ofNat 64 (l.getD p.2 0), st := .done }
      | none => { a with data := 0, st := .refused reason }) accs
/-- The value that another module has answered for an access. -/
def Acc.answer (a : Acc) : Nat := match a.resp with | some (.data bs) => leVal (bs.take a.size) | _ => 0
/-- An atomic at quad scope or wider that acquires applies the invalidations that its core has received (R216). -/
def acquireInvs (s : State) (o : Op) : State :=
  let s := if o.acq then s.modCrew o.crew fun c => { c with acqAt := s.nextOp } else s
  if o.acq && decide (2 ≤ o.scope) then applyInvs s o.core else s
/-- On uncached host memory without SYSATOM a step is a PCIe read and then a PCIe write (R229, R287). -/
def Acc.twoPart (a : Acc) : Bool := inHost a.pa && !a.sysatom && a.home == 3
/-- ATOMIC_STEP (R289, R293): the lanes of an atomic that name one location act as one step; a lane that goes to the host as an
AtomicOp acts alone (R293, R298). -/
def execAtomicStep (n addr : Nat) (s : State) : Host.Outcome State Fault Refusal :=
  match Tbl.get? s.ops n with
  | none => disabled
  | some o =>
    match o.kind with
    | .atomic op ty _ =>
      let all := (List.range o.accs.length).filter fun k => match o.accs[k]? with | some a => a.st == .todo && a.pa == addr | none => false
      match all with
      | [] => disabled
      | k0 :: _ =>
        match o.accs[k0]? with
        | none => disabled
        | some a =>
          if o.done || !(a.got.isSome || performable s n o (landing s o.team .atomic a)) then disabled
          else
            let f := funcOfTeam s o.team
            let host := inHost a.pa && a.sysatom
            let ks := if host then [k0] else all
            let xs := ks.filterMap fun k => o.accs[k]?.map fun b => (b.data, b.cmp)
            let put := fun (s : State) (olds : Option (List Nat)) (r : Nat) =>
              (.next (acquireInvs (s.modOp n fun o => { o with accs := setOlds ks olds r o.accs }) o) : Host.Outcome State Fault Refusal)
            if host && (!atomicEnabled s f || a.resp.isSome) then put s none 0
            else match reach s f .atomic a with
              | .waits => disabled
              | .answered (.refused r) => put s none r
              | .answered (.poisoned _) => put s none 0
              | .answered (.data _) => put s (some (ks.map fun k => ((o.accs[k]?.map Acc.answer).getD 0))) 0
              | .here b =>
                if b.twoPart then
                  match a.got with
                  | none =>
                    let x := (leVal (readBytes s b.key b.pa b.size), anyPoison s b.pa b.size)
                    .next (s.modOp n fun o => { o with accs := ks.foldl (fun as k => as.modify k fun a => { a with got := some x }) o.accs })
                  | some (v, bad) =>
                    if bad then put s none 0
                    else
                      let r := writeAtomic s (some o.core) op ty.toNat b xs v
                      put r.1 (some r.2) 0
                else
                  let r := applyAtomic s (some o.core) op ty.toNat b xs
                  put r.1 r.2 0
    | _ => disabled
/-- ATOMIC_RESULT_RETURN (R291, R295): the old values are written, and faults are held. -/
def execAtomicResultReturn (n : Nat) (s : State) : Host.Outcome State Fault Refusal :=
  match Tbl.get? s.ops n with
  | none => disabled
  | some o =>
    match o.kind, s.crew? o.crew with
    | .atomic _ _ _, some c =>
      if o.done = false ∧ (o.accs.all fun a => a.st != .todo) = true then
        let s := s.setCrew o.crew (o.accs.foldl (fun c a => match a.dst with | some d => c.setDst d a.data | none => c) c)
        let s := holdBad s n o o.dstRegs (o.accs.filter fun a => a.st == .refused 0)
          (o.accs.filterMap fun a => match a.st with | .refused (r + 1) => some (a, r + 1) | _ => none)
        .next (finishOp s n)
      else disabled
    | _, _ => disabled

/-- The read of a WAITC (R306), an acquire or not: none while older work comes first. A module that does not hold the location answers freely
(log entry 11). -/
def waitRead (s : State) (key team : Nat) (acq : Bool) (a : Acc) : Option (Except Nat (Nat × Bool)) :=
  let o : Op := { crew := key, team := team, core := coreOf key, cls := none, kind := .atomic .add 0 0, acq := acq }
  if !performable s s.nextOp o (landing s team .load a) then none
  else match reach s (funcOfTeam s team) .load a with
    | .here b => some (.ok (leVal (readBytes s b.key b.pa a.size), anyPoison s b.pa a.size))
    | .answered (.data bs) => some (.ok (leVal bs, false))
    | .answered (.poisoned _) => some (.ok (0, true))
    | .answered (.refused r) => some (.error r)
    | .waits =>
      let q := Config.podAnswer s.clock a.pa a.size
      if q.1 % 8 = 0 then some (.ok (leVal (q.2.take a.size), false))
      else if q.1 % 8 = 7 then some (.ok (0, true)) else some (.error (q.1 % 8))
/-- The segment of a location has a free monitor entry (R307). -/
def monitorFree (s : State) (team pa : Nat) : Bool :=
  let seg := segmentOf s team pa
  decide ((s.monitors.filter fun m => !m.polled && segmentOf s m.team m.acc.pa == seg).length < Config.monitorsPerSegment)
/-- A WAITC's condition holds, or is read: the core's copy of the line is no older than the read (R209), and an acquire at quad scope or wider
applies the invalidations that the core has received (R306, R216). -/
def invsOf (s : State) (key : Nat) (c : Crew) (pa : Nat) : State :=
  let s := dropStale s (coreOf key) (lineOf (route s pa))
  if mOrd c.mode = 1 ∧ 2 ≤ (mScope c.mode).toNat then applyInvs s (coreOf key) else s
/-- What a read of a WAITC's location leads to: a trap, `go` when the condition holds, else `wait`. -/
def onRead (s : State) (key : Nat) (c : Crew) (word : Word) (a : Acc) (cond : BitVec 3) (y : Nat) (r : Except Nat (Nat × Bool))
    (go wait : State) : State :=
  match r with
  | .error r => trapAt s key c word .remote (BitVec.ofNat 8 r) (BitVec.ofNat 64 a.va) 1
      (BitVec.ofNat 64 (podWin a.pa * 2 ^ 10 + podPeer a.pa))
  | .ok (x, bad) => if bad then trapAt s key c word .poison 0 (BitVec.ofNat 64 a.va) 1 else if condHolds cond a.size x y then go else wait
/-- The crew's last acquire is a WAITC that ends now, if MODE.ORD says so (R212). -/
def Crew.acquired (c : Crew) (s : State) : Crew := if mOrd c.mode = 1 then { c with acqAt := s.nextOp } else c
/-- A WAITC that has waited ends: it has been counted, and its ISSUE record emitted, when it issued (R406). -/
def endWaitc (s : State) (key : Nat) : State := s.modCrew key fun c => { c.acquired s with wait := .none, pc := c.pc + 4 }
/-- WAITC (R305 to R307). -/
def execWaitc (cond : BitVec 3) (a b : SReg) (s : State) : Host.Outcome State Fault Refusal :=
  let i : Instr := .waitc cond a b
  let word := wordOf i
  issue s (fun c _ =>
      { word := word, ok := i.wf && tyIn (tyOf c.mode) [6, 7, 12, 13] && ordOk c.mode [0, 1], stops := true, closes := true })
    fun s c t =>
      let z := atomicSize (tyOf c.mode)
      let va := (c.getS a).toNat
      match takeAccess s s.cur c t word (laneChecks t true false false false z z [(0, va)]) with
      | some s => s
      | none =>
        let s := closeRegion s s.cur c.pc word
        let c := { c with region := none, buf := [] }
        let acc := mkAcc t true false 0 0 va z
        let y := (c.getS b).toNat % 2 ^ (8 * z)
        let at_ := (landing s c.team .load acc).pa
        match waitRead s s.cur c.team (mOrd c.mode == 1) acc with
        | none => s.setCrew s.cur c
        | some r => onRead s s.cur c word acc cond y r (retire (invsOf s s.cur c at_) (c.acquired s))
            { (dropStale s (coreOf s.cur) (lineOf (route s at_))).setCrew s.cur { c with wait := .monitor, issued := c.issued + 1 } with
              monitors := s.monitors ++ [{ crew := s.cur, team := c.team, acc := acc, cond := cond, value := BitVec.ofNat 64 y,
                                           acq := mOrd c.mode == 1, scope := (mScope c.mode).toNat, start := s.time.master,
                                           polled := !(counterPage acc && monitorFree s c.team acc.pa) }] }
/-- MONITOR_WAKE (R306, R307): the wake reaches the crew, whose WAITC ends, with a precise poison fault where the word was poisoned. -/
def execMonitorWake (crew : Nat) (s : State) : Host.Outcome State Fault Refusal :=
  match s.crew? crew, teamOfCrew s crew with
  | some c, some t =>
    let word := wordAt s t c.pc
    let va := (c.getS (word.extractLsb' 8 6)).toNat
    let pa := (landing s c.team .load (mkAcc t true false 0 0 va 1)).pa
    (match c.wait with
     | .woken (some _) sent => .next (endWaitc (heard (invsOf s crew c pa) (coreOf crew) sent) crew)
     | .woken none sent => .next (trapAt (heard s (coreOf crew) sent) crew c word .poison 0 (BitVec.ofNat 64 va) 1)
     | _ => disabled)
  | _, _ => disabled
/-- WAITC_POLL (R307): a WAITC served by polling repeats its read. -/
def execWaitcPoll (crew : Nat) (s : State) : Host.Outcome State Fault Refusal :=
  match s.crew? crew, s.monitors.find? fun m => m.crew == crew && m.polled && !m.relaunch with
  | some c, some m =>
    (match waitRead s crew m.team m.acq m.acc, c.wait with
     | some r, .monitor =>
       let word := match s.team? m.team with | some t => wordAt s t c.pc | none => 0
       let s' := { s with monitors := s.monitors.filter (· != m) }
       let pa := (landing s m.team .load m.acc).pa
       .next (onRead s' crew c word m.acc m.cond m.value.toNat r (endWaitc (invsOf s' crew c pa) crew) s)
     | _, _ => disabled)
  | _, _ => disabled
/-- RELAUNCH_POLL (R308): the front end polls the entries of a halted team that no monitor serves; one that holds queues the team. -/
def execRelaunchPoll (team : Nat) (s : State) : Host.Outcome State Fault Refusal :=
  let ms := s.monitors.filter fun m => m.team == team && m.relaunch && m.polled
  let held := match s.team? team with
    | some t => (match Tbl.get? s.ctxs t.ctx with | some x => frontHeld s x.slice | none => false)
    | none => false
  if ms.isEmpty || held then disabled
  else
    let hit := ms.any fun m => match waitRead s m.crew m.team m.acq m.acc with
      | some (.ok (x, false)) => condHolds m.cond m.acc.size x m.value.toNat
      | _ => false
    if hit then .next (queueRelaunch s team) else .next s

end Sys2Proof.Machine
end

