-- ==== Sys2Proof/Machine/Barriers.lean ====
section
/-! DEFINITION. Barriers and speculative arrival (11_barriers), with the messages of the wide barriers. -/
namespace Sys2Proof.Machine

/-- The four arrivals (R322, R323). -/
inductive ArriveOp where
  | bar | bars | bara | bard
  deriving DecidableEq, Repr
/-- BAR and BARS wait. -/
def ArriveOp.waits : ArriveOp → Bool
  | .bar | .bars => true
  | _ => false

/-- A barrier field (R51): core handles below 128, wide handles from 128 on. -/
def barField (t : Team) (d : BitVec 8) : Nat × Bool :=
  (d.toNat, if d.toNat < 128 then decide (d.toNat < t.ncbar) else decide (d.toNat - 128 < t.nwide))
/-- The barrier that a handle of a team names. -/
def barrierOf (s : State) (t : Team) (d : Nat) : Barrier :=
  if d < 128 then Tbl.getD t.bars d {} else Tbl.getD s.wide (wideOf s t d) {}
/-- The barrier of a handle takes a new state. -/
def setBarrier (s : State) (tid : Nat) (t : Team) (d : Nat) (b : Barrier) : State :=
  if d < 128 then s.modTeam tid fun t => { t with bars := Tbl.put t.bars d b } else { s with wide := Tbl.put s.wide (wideOf s t d) b }
/-- A message of a crew to a wide context has not reached it. -/
def inFlight (s : State) (key d : Nat) : Bool := s.wideMsgs.any fun m => m.crew == key && m.handle == d
/-- The crew has left the barrier by BARD: DROPPED is set, or its drop is on its way to the wide context (R312). -/
def hasDropped (s : State) (key d : Nat) (b : Barrier) : Bool :=
  b.dropped.contains key || s.wideMsgs.any fun m => m.crew == key && m.handle == d && m.what == .drop
/-- The crew has arrived by BARA in the phase that it recorded, which is open (R316). -/
def pendOpen (s : State) (key d : Nat) (b : Barrier) : Bool :=
  match Tbl.get? b.pend key with
  | some p => p == b.phase || inFlight s key d
  | none => false
/-- DETAIL of the barrier faults (R370). -/
def barDetail (d : Nat) (phase : Word) : DWord := BitVec.ofNat 64 (phase.toNat * 2 ^ 32 + d % 256)

/-- A crew speculates past a phase of a core barrier. -/
def specOn (d : Nat) (phase : Word) (c : Crew) : Bool := match c.spec with | some sp => sp.handle == d && sp.phase == phase | none => false
/-- R330: the crews that speculate past a phase commit. Every read set is cleared before any buffered store is released; a release counts for
STC though 63 may be outstanding (log entry 118). What their GANGs do to the Trivet entries comes about now (log entry 93). -/
def commitPhase (s : State) (tid d : Nat) (phase : Word) : State :=
  let cs := s.crews.filter fun p => p.2.team == tid && specOn d phase p.2
  let s := cs.foldl (fun s p =>
    let reads := match p.2.spec with | some sp => sp.reads.length | none => 0
    let s := emitCrewA s p.1 0x14 (BitVec.ofNat 8 d) (BitVec.ofNat 32 (reads * 65536 + bufLines p.2.buf))
    s.modCrew p.1 fun c => { c with spec := none, buf := [], acqAt := s.nextOp }) s
  let s := cs.foldl (fun s p =>
    let pc := match p.2.spec with | some sp => sp.bars | none => 0
    let word := match s.team? tid with | some t => wordAt s t pc | none => 0
    releaseBuf s p.1 p.2 pc word) s
  cs.foldl (fun s p => match p.2.spec with
    | some sp => sp.gangs.foldl (fun s g => gangRewritten s p.1 p.2 g) s
    | none => s) s
/-- R314 for a core barrier: a due phase completes, its waiters go on, and speculating crews commit. -/
def settleCore (s : State) (tid d : Nat) : State :=
  match s.team? tid with
  | none => s
  | some t =>
    let b := Tbl.getD t.bars d {}
    if b.armed && b.arr == b.e then
      let s := emitA s (t.core / 32) (t.core % 32) (funcOfTeam s tid) none 0x20 (BitVec.ofNat 8 d) b.phase 0 (some t.ctx)
      let s := setBarrier s tid t d b.next
      let wake := fun (p : Nat × Crew) =>
        if p.2.team == tid && p.2.wait == .barrier d b.phase then (p.1, { p.2 with wait := .none, acqAt := s.nextOp }) else p
      commitPhase { s with crews := s.crews.map wake } tid d b.phase
    else s
/-- The crew of the current move retires its BAR or BARS and waits for a phase; a BARS speculates instead, but for a crew that was rolled
back in it (R322 to R324). -/
def enterWait (s : State) (c : Crew) (op : ArriveOp) (d : Nat) (phase : Word) : State :=
  if op = .bars ∧ c.rolled ≠ some (d, phase) then
    let s := emitS (s.setCrew s.cur c) s.cur 0x12 (BitVec.ofNat 8 d) phase
    retire s { c with spec := some { cp := c.checkpoint (c.pc + 4), handle := d, phase := phase, shadow := [], reads := [],
                                     first := s.nextOp, stopped := false, bars := c.pc } }
  else retire s { c with wait := .barrier d phase }
/-- The end of a wait is an acquire at the barrier's scope (R317); at core scope it applies no invalidation (R216). -/
def endWait (s : State) (core d : Nat) : State := if d < 128 then s else applyInvs s core
/-- An arrival whose release is over is counted (R322), or sent to the wide context (R312). -/
def countArrival (s : State) (c : Crew) (t : Team) (op : ArriveOp) (d : Nat) (b : Barrier) : State :=
  let key := s.cur
  let b := { b with pend := if op = .bara then Tbl.put b.pend key b.phase else b.pend
                    dropped := if op = .bard ∧ d < 128 then setAdd b.dropped key else b.dropped }
  if 128 ≤ d then
    let s := setBarrier s c.team t d b
    let what : WideWhat := match op with | .bar | .bars => .arrive | .bara => .arriveSplit | .bard => .drop
    let s := { s with wideMsgs := s.wideMsgs ++ [{ ctx := wideOf s t d, crew := key, handle := d, what := what }] }
    if op.waits then enterWait s c op d b.phase else retire s c
  else
    let b := { b with e := if b.armed then b.e else t.crews.length, armed := true, arr := b.arr + 1,
                      drops := b.drops + (if op = .bard then 1 else 0) }
    let due := b.arr == b.e
    let s := setBarrier s c.team t d b
    settleCore (if !op.waits then retire s c else if due then retire s { c with acqAt := s.nextOp } else enterWait s c op d b.phase) c.team d
/-- BAR, BARS, BARA and BARD (R320, R322, R323). -/
def arrive (i : Instr) (op : ArriveOp) (h : BitVec 8) (s : State) : Host.Outcome State Fault Refusal :=
  let d := h.toNat
  issue s (fun _ t => { word := wordOf i, stops := true, closes := true,
                        handles := [(d, (barField t h).2 && (op != .bars || decide (d < 128)))] })
    fun s c t =>
      let b := barrierOf s t d
      let close := fun (s : State) => closeRegion s s.cur c.pc (wordOf i)
      let c' := { c with region := none, buf := [] }
      let b' := { b with pend := Tbl.del b.pend s.cur }
      if op.waits && (Tbl.get? b.pend s.cur).isSome && !orderOver s s.cur s.nextOp true false false then s
      else if pendOpen s s.cur d b then
        if op.waits then
          let p := (Tbl.get? b.pend s.cur).getD b.phase
          enterWait (setBarrier (close s) c.team t d b') c' op d p
        else trapAt s s.cur c (wordOf i) .overArrival 0 0 0 (barDetail d b.phase)
      else if (Tbl.get? b.pend s.cur).isSome && op.waits then
        retire (endWait (setBarrier (close s) c.team t d b') (coreOf s.cur) d) { c' with acqAt := s.nextOp }
      else if hasDropped s s.cur d b then trapAt s s.cur c (wordOf i) .overArrival 0 0 0 (barDetail d b.phase)
      else
        let s := close s
        let r := releaseStep s s.cur c.fenceAt op.waits (decide (128 ≤ d))
        if r.1 then countArrival s { c' with fenceAt := none } t op d b' else s.setCrew s.cur { c' with fenceAt := r.2 }
/-- BAR (R322). -/
def execBar (d : BitVec 8) (s : State) : Host.Outcome State Fault Refusal := arrive (.bar d) .bar d s
/-- BARS (R323). -/
def execBars (d : BitVec 8) (s : State) : Host.Outcome State Fault Refusal := arrive (.bars d) .bars d s
/-- BARA (R322). -/
def execBara (d : BitVec 8) (s : State) : Host.Outcome State Fault Refusal := arrive (.bara d) .bara d s
/-- BARD (R322). -/
def execBard (d : BitVec 8) (s : State) : Host.Outcome State Fault Refusal := arrive (.bard d) .bard d s

/-- R321 on a barrier's own state: the armed barrier, or none for a barrier-state fault. -/
def Barrier.arm (b : Barrier) (k : Nat) : Option Barrier :=
  if !b.armed then (if k < b.arr then none else some { b with e := k, armed := true })
  else if b.arr = 0 then some { b with e := k }
  else if k ≠ b.e then none
  else some b
/-- BARI (R321). At a wide context the crew waits for its outcome. -/
def execBari (d : BitVec 8) (a : SReg) (s : State) : Host.Outcome State Fault Refusal :=
  let word := wordOf (.bari d a)
  issue s (fun _ t => { word := word, handles := [barField t d], stops := true, closes := true })
    fun s c t =>
      let k := (c.getS a).toNat
      let h := d.toNat
      let limit := if h < 128 then t.crews.length else 2 ^ 24 - 1
      if k = 0 ∨ limit < k then trapAt s s.cur c word .operand
      else if 128 ≤ h then
        { s.setCrew s.cur { c with wait := .bari h } with
          wideMsgs := s.wideMsgs ++ [{ ctx := wideOf s t h, crew := s.cur, handle := h, what := .arm (BitVec.ofNat 64 k) }] }
      else
        let b := Tbl.getD t.bars h {}
        match b.arm k with
        | none => trapAt s s.cur c word .barrierState 0 0 0 (barDetail h b.phase)
        | some b' =>
          let s := closeRegion s s.cur c.pc word
          settleCore (retire (setBarrier s c.team t h b') { c with region := none, buf := [] }) c.team h

/-- A crew whose BARI has been applied retires it; for want of a reservation for its record it stalls, and the effect stays (R413). -/
def retireArmed (s : State) (key : Nat) : Host.Outcome State Fault Refusal :=
  match s.crew? key with
  | some c => if c.wait = .armed then .next (orStall s key c (retireLate s key c 0x99)) else disabled
  | none => disabled
/-- WIDE_BARRIER_ARRIVAL (R312, R319): the oldest message of a crew to a wide context is applied there. Messages of several crews
reach it in any order. A crew that has stalled with its BARI applied goes on by a further move. -/
def execWideBarrierArrival (ctx crew : Nat) (s : State) : Host.Outcome State Fault Refusal :=
  match s.wideMsgs.find? fun m => m.ctx == ctx && m.crew == crew with
  | none => retireArmed s crew
  | some m =>
    let s := { s with wideMsgs := s.wideMsgs.erase m }
    let b := Tbl.getD s.wide ctx {}
    let put := fun (s : State) (b : Barrier) => settleWide { s with wide := Tbl.put s.wide ctx b } ctx
    let counted := { b with arr := b.arr + 1, here := setAdd b.here m.crew }
    let waits := fun (s : State) => s.modCrew m.crew fun c =>
      match c.wait with
      | .barrier h _ => if h = m.handle then { c with wait := .barrier h b.phase } else c
      | _ => c
    match m.what with
    | .arrive => .next (put (waits s) counted)
    | .arriveSplit => .next (put (waits s)
        { counted with pend := if (Tbl.get? b.pend m.crew).isSome then Tbl.put b.pend m.crew b.phase else b.pend })
    | .drop => .next (put s { counted with drops := b.drops + 1, dropped := setAdd b.dropped m.crew })
    | .arm k =>
      match s.crew? m.crew with
      | none => disabled
      | some c =>
        let word := match s.team? c.team with | some t => wordAt s t c.pc | none => 0
        match b.arm k.toNat with
        | none => .next (trapAt (s.setCrew m.crew { c with wait := .none }) m.crew { c with wait := .none } word .barrierState 0 0 0
            (barDetail m.handle b.phase))
        | some b' =>
          let s := closeRegion s m.crew c.pc word
          let s := put (s.setCrew m.crew { c with region := none, buf := [], wait := .armed }) b'
          retireArmed s m.crew
/-- WIDE_BARRIER_COMPLETION (R317): the completion of a phase reaches a core, and its crews' waits for that phase end. -/
def execWideBarrierCompletion (ctx core : Nat) (s : State) : Host.Outcome State Fault Refusal :=
  match s.wideDone.find? fun m => m.1 == ctx && m.2.1 == core with
  | none => disabled
  | some m =>
    let h := ctx / 2 ^ 12 % 256
    let mine := fun (p : Nat × Crew) => coreOf p.1 == core && p.2.wait == .barrier h m.2.2.1 && !inFlight s p.1 h &&
      (match s.team? p.2.team with | some t => wideOf s t h == ctx | none => false)
    let wake := fun (p : Nat × Crew) => if mine p then (p.1, { p.2 with wait := .none, acqAt := s.nextOp }) else p
    .next (applyInvs (heard { s with wideDone := s.wideDone.erase m, crews := s.crews.map wake } core m.2.2.2) core)

end Sys2Proof.Machine
end

