-- ==== Sys2Proof/Machine/Bulk.lean ====
section
/-! DEFINITION. BULK and the bulk engines (08 R248 to R258). -/
namespace Sys2Proof.Machine

/-- A read that an instruction makes at its issue: none while older work of the crew, or an engine, comes first; else the bytes and
whether one is poisoned, or the reason of a refusal. Another module's answer is free (log entry 11). -/
def readNow (s : State) (key : Nat) (c : Crew) (a : Acc) : Option (Except Nat (List Byte × Bool)) :=
  let o : Op := { crew := key, team := c.team, core := coreOf key, cls := none, kind := .load }
  if !loadable s s.nextOp o c (landing s c.team .load a) then none
  else match reach s (funcOfTeam s c.team) .load a with
    | .here b =>
      let (v, p) := loadAcc s key c s.nextOp b
      some (.ok (leBytes a.size v, p))
    | .answered (.data bs) => some (.ok (bs, false))
    | .answered (.poisoned bs) => some (.ok (bs, true))
    | .answered (.refused r) => some (.error r)
    | .waits =>
      let q := Config.podAnswer s.clock a.pa a.size
      if q.1 % 8 = 0 then some (.ok ((q.2 ++ List.replicate a.size 0).take a.size, false))
      else if q.1 % 8 = 7 then some (.ok (q.2, true)) else some (.error (q.1 % 8))
/-- The outcome of such a read by the crew of the current move: it waits, takes a poison or remote-permission trap, or goes on with
the bytes. -/
def withRead (s : State) (c : Crew) (word : Word) (a : Acc) (k : List Byte → State) : State :=
  match readNow s s.cur c a with
  | none => s
  | some (.error r) => trapAt s s.cur c word .remote (BitVec.ofNat 8 r) (BitVec.ofNat 64 a.va) 1
      (BitVec.ofNat 64 (podWin a.pa * 2 ^ 10 + podPeer a.pa))
  | some (.ok (bs, bad)) => if bad then trapAt s s.cur c word .poison 0 (BitVec.ofNat 64 a.va) 1 else k bs

/-- Fields of a command record (R252 to R258). -/
def cmdOp (r : List Byte) : Nat := fieldOf r 3 1
def cmdTag (r : List Byte) : Nat := fieldOf r 0 2
def cmdLen (r : List Byte) : Nat := fieldOf r 4 4
def cmdCompl (r : List Byte) : Nat := fieldOf r 8 7
def cmdSrc (r : List Byte) : Nat := fieldOf r 16 7
def cmdDst (r : List Byte) : Nat := fieldOf r 24 7
def cmdAad (r : List Byte) : Nat := fieldOf r 56 4
def cmdTagAddr (r : List Byte) : Nat := fieldOf r 48 7
def cmdGroup (r : List Byte) : Nat := fieldOf r 32 2
def cmdCop (r : List Byte) : Nat := fieldOf r 34 1
def cmdSeq (r : List Byte) : Nat := fieldOf r 36 4
def cmdRoot (r : List Byte) : Nat := fieldOf r 40 4
/-- The type of a collective's or a scan's elements, and its size. -/
def cmdType (r : List Byte) : Nat := fieldOf r (if cmdOp r = 3 then 35 else 36) 1 / 16
def cmdZ (r : List Byte) : Nat := tyBits (cmdType r) / 8
def cmdMaxOut (r : List Byte) : Nat := fieldOf r 40 4
/-- The group of a collective, and the rank of a die in it (R256). -/
def groupOf (s : State) (func : Nat) (r : List Byte) : Option Group := Tbl.get? (s.func func).groups (cmdGroup r)
def rankOf (g : Group) (die : Nat) : Option Nat :=
  if g.members.contains (.die die) then some (g.members.idxOf (.die die)) else none
/-- The die of a member on this module. -/
def Member.die? (m : Member) : Option Nat := match m with | .die d => some d | .remote _ => none
/-- A member can be reached: one of another module through a station of the routing table, which the group's number picks (R473). -/
def memberUp (s : State) (func group : Nat) (m : Member) : Bool :=
  match m with
  | .die _ => true
  | .remote k => (stationFor s func k group).isSome
/-- Every byte is zero. -/
def allZero (bs : List Byte) : Bool := bs.all (· == 0)
/-- A record is malformed (R250 step 3, R252 to R258). `n` is the number of members of a collective's group, none for a group that is not
bound: what depends on it is then not judged, and the command ends with code 0x21 (R253). A ROOT that is no rank is malformed (log entry 131). -/
def cmdBad (r : List Byte) (n : Option Nat) : Bool :=
  let len := cmdLen r
  let tyOk := [0, 1, 2, 6, 7].contains (cmdType r)
  fieldOf r 2 1 != 0 || fieldOf r 15 1 != 0 || fieldOf r 23 1 != 0 || fieldOf r 31 1 != 0 || cmdCompl r % 16 != 0 ||
  (match cmdOp r with
   | 1 => decide (0x4000000 < len) || !allZero (r.drop 32)
   | 2 => decide (2 ^ 20 < len) || decide (63 < fieldOf r 44 2) || fieldOf r 46 2 != 0 || fieldOf r 55 1 != 0 || cmdTagAddr r % 16 != 0 ||
       decide (65536 < cmdAad r) || !allZero (r.drop 60)
   | 3 => decide (63 < cmdGroup r) || decide (3 < cmdCop r) || !tyOk || decide (2 < fieldOf r 35 1 % 16) || len == 0 ||
       decide (0x4000000 / cmdZ r < len) || !allZero (r.drop 44) || (cmdCop r != 3 && cmdRoot r != 0) ||
       (match n with | some n => (cmdCop r == 3 && decide (n ≤ cmdRoot r)) || (cmdCop r == 1 && len % n != 0) | none => false)
   | 4 => !tyOk || fieldOf r 36 1 % 16 != 0 || fieldOf r 37 3 != 0 || !allZero (r.drop 44) || len == 0 ||
       decide (0x10000000 / cmdZ r < len)
   | _ => true)
/-- A span that a record names: which one (0 COMPL, 1 SRC, 2 DST, 3 TAGADDR), its address and length, whether it is stored to. -/
structure Span where
  what : Nat
  va : Nat
  len : Nat
  st : Bool
  deriving DecidableEq, Repr
/-- The spans of a record (R252 to R258), without the empty ones (log entry 100); those of a group that is not bound are as for one member. -/
def cmdSpans (r : List Byte) (g : Option Group) (die : Nat) : List Span :=
  let len := cmdLen r
  let n := match g with | some g => max 1 g.members.length | none => 1
  let src := fun k => (⟨1, cmdSrc r, k, false⟩ : Span)
  let dst := fun k => (⟨2, cmdDst r, k, true⟩ : Span)
  let body := match cmdOp r with
    | 1 => [src len, dst len]
    | 2 => [src (cmdAad r + len), dst len, ⟨3, cmdTagAddr r, 16, false⟩]
    | 3 =>
      let z := cmdZ r
      (match cmdCop r with
       | 0 => [src (len * z), dst (len * z)]
       | 1 => [src (len * z), dst (len / n * z)]
       | 2 => [src (len * z), dst (n * len * z)]
       | _ => [src (if (g.bind fun g => rankOf g die) = some (cmdRoot r) then len * z else 0), dst (len * z)])
    | 4 => [src (len * cmdZ r), dst (cmdMaxOut r * 8)]
    | _ => []
  ((if cmdCompl r = 0 then [] else [⟨0, cmdCompl r, 16, true⟩]) ++ body).filter fun p => p.len != 0
/-- The check of a span: it must be global (R250 step 2). Of several that fail with one kind ADDR names the first in the order COMPL, SRC, DST,
TAGADDR, by its first byte (log entry 130). -/
def spanCheck (t : Team) (p : Span) : Check :=
  { lane := 0, va := p.va, size := p.len, access := if p.st then 1 else 0,
    faults := accessFaults t (!p.st) p.st false false 1 p.va p.len }
/-- The physical runs of a span through the team's extents. -/
def runsFrom (t : Team) (st : Bool) : Nat → Nat → Nat → List Run
  | 0, _, _ => []
  | n + 1, va, len =>
    if len = 0 then [] else
    match extentFor t (!st) st va with
    | none => []
    | some e =>
      let k := min len (e.vhi - va)
      { pa := e.plo + (va - e.vlo), len := k, home := e.home, key := e.key, cls := e.cls } :: runsFrom t st n (va + k) (len - k)
/-- Runs that follow each other in one page kind are one run. -/
def mergeRuns : List Run → List Run
  | [] => []
  | r :: t =>
    match mergeRuns t with
    | q :: u => if r.pa + r.len = q.pa ∧ r.home = q.home ∧ r.key = q.key ∧ r.cls = q.cls then { r with len := r.len + q.len } :: u else r :: q :: u
    | [] => [r]
def spanRuns (t : Team) (ps : List Span) (what : Nat) : List Run :=
  (ps.filter fun p => p.what == what).flatMap fun p => mergeRuns (runsFrom t p.st (t.extents.length + 1) p.va p.len)
/-- The queue set of a command: 0 copy/crypto, 1 collective (R248). -/
def cmdSet (r : List Byte) : Nat := if cmdOp r = 3 then 1 else 0
/-- The commands that wait in a virtual queue, in submission order. -/
def waitingCmds (s : State) (die set func : Nat) : List (Nat × Cmd) :=
  s.bulk.cmds.filter fun p => p.2.die == die && p.2.func == func && cmdSet p.2.rec_ == set && p.2.running.isNone && p.2.ending.isNone
/-- The status of a well-checked record and its queueing (R250 steps 3 and 4). -/
def queueCmd (s : State) (c : Crew) (t : Team) (word : Word) (d : SReg) (r : List Byte) (spans : List Span) (n : Option Nat) : State :=
  let func := funcOfCtx s t.ctx
  let die := coreOf s.cur / 32
  let src := spanRuns t spans 1
  let dst := spanRuns t spans 2
  let compl := spanRuns t spans 0
  let tag := spanRuns t spans 3
  if cmdBad r n then retire s (c.setS d 2)
  else if 16 < src.length + dst.length + compl.length + tag.length then retire s (c.setS d 3)
  else if 64 ≤ (waitingCmds s die (cmdSet r) func).length then retire s (c.setS d 1)
  else
    let s := closeRegion s s.cur c.pc word
    let s := retire s ({ c with region := none, buf := [] }.setS d 0)
    let cmd : Cmd := { func := func, ctx := t.ctx, die := die, core := coreOf s.cur, entry := some t.entry, rec_ := r, src := src,
                       dst := dst, compl := compl, tag := tag, stamp := sendTime s die (coreOf s.cur % 32), issuer := some (c.team, c.idx, s.nextOp) }
    { noteTime s die with bulk := { s.bulk with cmds := Tbl.put s.bulk.cmds s.nextId cmd }, nextId := s.nextId + 1 }
/-- BULK (R250). Its own faults, which no lane has, give MASK bit 0 (log entry 39). -/
def execBulk (d a : SReg) (s : State) : Host.Outcome State Fault Refusal :=
  let word := wordOf (.bulk d a)
  issue s (fun _ _ => { word := word, stops := true, closes := true })
    fun s c t =>
      let va := (c.getS a).toNat
      match takeAccess s s.cur c t word (laneChecks t true false true false 64 64 [(0, va)]) with
      | some s => s
      | none => withRead s c word (mkAcc t true false 0 0 va 64) fun r =>
          let g := if cmdOp r = 3 then groupOf s (funcOfCtx s t.ctx) r else none
          let spans := cmdSpans r g (coreOf s.cur / 32)
          match takeAccess s s.cur c t word (spans.map (spanCheck t)) with
          | some s => s
          | none => queueCmd s c t word d r spans (g.map fun g => max 1 g.members.length)

/-- The parts of a run within lines. -/
def linePieces (pa len : Nat) : List (Nat × Nat) :=
  if len = 0 then [] else
    (List.range ((pa + len - 1) / 128 - pa / 128 + 1)).map fun i =>
      let lo := max pa ((pa / 128 + i) * 128)
      (lo, min (pa + len) ((pa / 128 + i + 1) * 128) - lo)
/-- An access of a bulk engine to a part of a run. -/
def Run.acc (r : Run) (ctx : Option Nat) (p : Nat × Nat) : Acc :=
  { pa := p.1, size := p.2, home := r.home, key := r.key, cls := r.cls, ctx := ctx }
/-- A bulk engine reads a run: bytes, and which are poisoned (R238, R304). -/
def readRun (s : State) (func : Nat) (r : Run) : List (Byte × Bool) :=
  (linePieces r.pa r.len).flatMap fun p =>
    match engineRead s func p.2 (some (r.acc none p)) with
    | some (bs, bad, _) => (List.range p.2).map fun i => (bs.getD i 0, bad.getD i false)
    | none =>
      let q := Config.podAnswer s.clock p.1 p.2
      (List.range p.2).map fun i => if q.1 % 7 = 0 then (q.2.getD i 0, false) else (0, true)
def readRuns (s : State) (func : Nat) (rs : List Run) : List (Byte × Bool) := rs.flatMap (readRun s func)
/-- The lines of runs have been used in L2. -/
def touchRuns (s : State) (ctx : Option Nat) (rs : List Run) : State :=
  rs.foldl (fun s r => (linePieces r.pa r.len).foldl (fun s p => touchL2 s (r.acc ctx p).attr (lineOf (route s p.1))) s) s
/-- A bulk engine writes bytes over runs, in order. -/
def writePieces (func : Nat) (ctx : Option Nat) (r : Run) : List (Nat × Nat) → List (Byte × Bool) → State → State
  | [], _, s => s
  | p :: ps, bs, s =>
    let now := bs.take p.2
    let s := match engineWrite s none func (r.acc ctx p) (now.map (·.1)) (now.map (·.2)) with
      | some (s, _) => s
      | none => s
    writePieces func ctx r ps (bs.drop p.2) s
def writeRuns (func : Nat) (ctx : Option Nat) : List Run → List (Byte × Bool) → State → State
  | [], _, s => s
  | r :: rs, bs, s =>
    if bs.isEmpty then s
    else
      let k := min r.len bs.length
      writeRuns func ctx rs (bs.drop k) (writePieces func ctx r (linePieces r.pa k) (bs.take k) s)
/-- The functions that have a command waiting in a queue set, rising (R249). -/
def waitingFuncs (s : State) (die set : Nat) : List Nat := (List.range 128).filter fun f => !(waitingCmds s die set f).isEmpty
/-- The weight of a function in a queue set. -/
def bulkWeight (s : State) (set f : Nat) : Nat := if set = 0 then (s.func f).wCopy else (s.func f).wColl
/-- One step of the deficit arbiter (R249): the function served and the new deficits. -/
def arbiter (s : State) (die set : Nat) : Nat → Option Nat → Tbl Int → Option (Nat × Tbl Int)
  | 0, _, _ => none
  | n + 1, last, ds =>
    let fs := waitingFuncs s die set
    let next := match last with
      | none => fs.head?
      | some l => match fs.find? fun f => decide (l < f) with | some f => some f | none => fs.head?
    match next with
    | none => none
    | some q =>
      if bulkWeight s set q = 0 ∧ (fs.any fun f => bulkWeight s set f != 0) = true then arbiter s die set n (some q) ds
      else
        let k := (die * 2 + set) * 128 + q
        let d := Tbl.getD ds k 0 + max (bulkWeight s set q) 1 * 4096
        let ds := Tbl.put ds k d
        if 0 < d then some (q, ds) else arbiter s die set n (some q) ds
/-- As many steps of the arbiter as can pass before a deficit is positive: each round raises those that it serves by 4096 or more. -/
def arbiterFuel (s : State) (die set : Nat) : Nat :=
  let fs := waitingFuncs s die set
  (fs.length + 1) * (fs.foldl (fun n f => max n ((Tbl.getD s.bulk.deficit ((die * 2 + set) * 128 + f) 0).natAbs / 4096)) 0 + 3)
/-- The SRC of a bulk engine in trace records (R392). -/
def engineSrc (e : Nat) : Nat := 0x30 + e
/-- An engine other than that of place m owns a line of runs. -/
def runsOwned (s : State) (m : Nat) (func : Nat) (rs : List Run) : Bool :=
  rs.any fun r => (runSpans s func r).any fun q => (owner s m q.1 q.2).isSome
/-- The end of a command (R249, R253): its bytes are charged, its completion record is written, BULKDONE is emitted. -/
def finishCmd (s : State) (id code count charged : Nat) : State :=
  match Tbl.get? s.bulk.cmds id with
  | none => s
  | some c =>
    let tag := cmdTag c.rec_
    let settle := fun (a : Admission) => match a.st with
      | .loading slot n => if n = id then { a with st := .loaded slot code } else a
      | _ => a
    let s := { s with bulk := { s.bulk with cmds := Tbl.del s.bulk.cmds id }, admissions := Tbl.mapV s.admissions settle }
    let bytes := (leBytes 4 (2 ^ 31 + code) ++ leBytes 2 tag ++ leBytes 2 0 ++ leBytes 8 count).map fun b => (b, false)
    let s := match c.compl with
      | [] => s
      | r :: _ => writeRuns c.func (some c.ctx) [r] (bytes.take 4)
          (writeRuns c.func (some c.ctx) [{ r with pa := r.pa + 4, len := r.len - 4 }] (bytes.drop 4) s)
    let s := match c.entry with
      | some e => if cmdOp c.rec_ ≤ 2 then s.modEntry e fun x => { x with bytes := x.bytes + count } else s
      | none => s
    let set := cmdSet c.rec_
    let k := (c.die * 2 + set) * 128 + c.func
    let d : Int := Tbl.getD s.bulk.deficit k 0 - (charged : Int)
    let ds := Tbl.put s.bulk.deficit k (if (waitingCmds s c.die set c.func).isEmpty then 0 else d)
    let s := { s with bulk := { s.bulk with deficit := ds } }
    emitA s c.die (match c.running with | some (e, _) => engineSrc e | none => engineSrc (2 * set)) c.func none 0x35
      (BitVec.ofNat 8 (cmdOp c.rec_)) (BitVec.ofNat 32 (code * 65536 + tag)) 0 (some c.ctx)
/-- A command is over: it ends, or waits for the engine that owns the line of its completion record (R223). -/
def endCmd (s : State) (id code count charged : Nat) : State :=
  match Tbl.get? s.bulk.cmds id with
  | none => s
  | some c =>
    if runsOwned s (match c.running with | some (_, m) => m | none => s.nextOp) c.func c.compl then
      { s with bulk := { s.bulk with cmds := Tbl.put s.bulk.cmds id { c with ending := some (code, count, charged) } } }
    else finishCmd s id code count charged
/-- Commands that waited to end do so when they can. -/
def settleCmds (s : State) : State :=
  s.bulk.cmds.foldl (fun s p => match p.2.ending with
    | some (code, count, charged) => endCmd s p.1 code count charged
    | none => s) s
/-- BULK_START (R249): a free engine of a die starts the entry that its arbiter picks, and owns its destination lines (R223). A
collective of a group that is not bound, or whose members leave the die out, ends at once (R253). -/
def execBulkStart (die engine func : Nat) (s : State) : Host.Outcome State Fault Refusal :=
  let set := if engine = 2 then 1 else 0
  let busy := (s.bulk.cmds.filter fun p => p.2.die == die && (match p.2.running with | some (e, _) => e == engine | none => false)).length
  if 2 < engine ∨ (if engine = 2 then 16 else 1) ≤ busy then disabled
  else match arbiter s die set (arbiterFuel s die set) (Tbl.get? s.bulk.last (die * 2 + set)) s.bulk.deficit, waitingCmds s die set func with
    | some (q, ds), (id, c) :: _ =>
      if q ≠ func then disabled
      else
        let s := (c.dst.flatMap (runSpans s func)).foldl (fun s r => raceLoads s r.1 r.2) s
        let s := { s with
          bulk := { s.bulk with deficit := ds, last := Tbl.put s.bulk.last (die * 2 + set) func,
                                cmds := Tbl.put s.bulk.cmds id { c with running := some (engine, s.nextOp) } }
          nextOp := s.nextOp + 1 }
        let spans := c.dst.flatMap (runSpans s func)
        let s := spans.foldl (fun s r => ownLines s none r.1 r.2) s
        let s := emitA s die (engineSrc engine) func none 0x34 (BitVec.ofNat 8 (cmdOp c.rec_)) (BitVec.ofNat 32 (cmdTag c.rec_)) (c.stamp + 1) (some c.ctx)
        if engine = 2 ∧ ((groupOf s func c.rec_).bind fun g => rankOf g die) = none then .next (endCmd s id 0x21 0 ((c.src.map (·.len)).foldl (· + ·) 0)) else .next s
    | _, _ => disabled
/-- A running command of an operation whose lines older engines have left (R223). -/
def runningCmd (s : State) (id op : Nat) : Option Cmd :=
  match Tbl.get? s.bulk.cmds id with
  | none => none
  | some c =>
    match c.running with
    | none => none
    | some (_, m) =>
      if cmdOp c.rec_ = op ∧ c.ending = none ∧ ((c.src ++ c.dst ++ c.tag).flatMap (runSpans s c.func)).all (fun r => !ownedBefore s m r.1 r.2) = true then some c
      else none
/-- The bytes of a command's runs, with those that it read earlier (R224). -/
def readCmd (s : State) (c : Cmd) (rs : List Run) : List (Byte × Bool) :=
  if c.seen.isEmpty then readRuns s c.func rs
  else ((rs.flatMap fun r => (List.range r.len).map (r.pa + ·)).zip (readRuns s c.func rs)).map fun p =>
    match c.seen.find? fun x => x.1 == p.1 with
    | some x => x.2
    | none => p.2
/-- The place in a command's destination of the byte at a flat address. -/
def dstPlace : List Run → Nat → Option Nat
  | [], _ => none
  | r :: rs, x => if r.pa ≤ x ∧ x < r.pa + r.len then some (x - r.pa) else (dstPlace rs x).map (r.len + ·)
/-- Byte i of a copy whose destination reaches its source (R254, R224): for each aligned 4-byte word the free value gives what was there or
what the copy writes there. -/
def racedCopy (s : State) (c : Cmd) (addrs : List Nat) (bs : List (Byte × Bool)) : Nat → Nat → Byte × Bool
  | 0, i => bs.getD i (0, false)
  | fuel + 1, i =>
    let x := addrs.getD i 0
    match dstPlace c.dst x with
    | some j =>
      if Config.readsNew s.clock (x / 4) && !c.seen.any fun y => y.1 == x then racedCopy s c addrs bs fuel j else bs.getD i (0, false)
    | none => bs.getD i (0, false)
/-- The bytes that a copy command moves (R254). -/
def moved (s : State) (c : Cmd) : List (Byte × Bool) :=
  let bs := readCmd s c c.src
  if c.src.any fun r => c.dst.any fun d => decide (0 < r.len ∧ r.pa < d.pa + d.len ∧ d.pa < r.pa + r.len) then
    let addrs := c.src.flatMap fun r => (List.range r.len).map (r.pa + ·)
    (List.range bs.length).map fun i => racedCopy s c addrs bs bs.length i
  else bs
/-- BULK_COPY_DONE (R254, R253). -/
def execBulkCopyDone (cmd : Nat) (s : State) : Host.Outcome State Fault Refusal :=
  match runningCmd s cmd 1 with
  | none => disabled
  | some c =>
    let bs := moved s c
    .next (endCmd (writeRuns c.func (some c.ctx) c.dst bs (touchRuns s (some c.ctx) c.src)) cmd (if bs.any (·.2) then 0x30 else 0) (cmdLen c.rec_) (cmdLen c.rec_))
/-- The bytes of a bulk key. -/
def keyBytes (k : BitVec 256) : List Byte := (List.range 32).map fun i => k.extractLsb' (8 * i) 8
/-- BULK_DECRYPT_DONE (R255): plaintext on a match of the tag, zeros on a mismatch, poison where the tag cannot be judged. -/
def execBulkDecryptDone (cmd : Nat) (s : State) : Host.Outcome State Fault Refusal :=
  match runningCmd s cmd 2 with
  | none => disabled
  | some c =>
    let key := Tbl.getD (s.func c.func).bulkKeys (fieldOf c.rec_ 44 2) 0
    let len := cmdLen c.rec_
    if key = 0 then .next (endCmd s cmd 0x11 0 0)
    else
      let src := readCmd s c c.src
      let tag := readCmd s c c.tag
      if (src ++ tag).any (·.2) then
        .next (endCmd (writeRuns c.func (some c.ctx) c.dst (List.replicate len (0, true)) s) cmd 0x30 len len)
      else
        let bs := src.map (·.1)
        let r := gcmDecrypt (keyBytes key) ((c.rec_.drop 32).take 12) (bs.take (cmdAad c.rec_)) (bs.drop (cmdAad c.rec_))
        if r.2 = tag.map (·.1) then .next (endCmd (writeRuns c.func (some c.ctx) c.dst (r.1.map fun b => (b, false)) s) cmd 0 len len)
        else .next (endCmd (writeRuns c.func (some c.ctx) c.dst (List.replicate len (0, false)) s) cmd 0x10 len len)

/-- Elements of bytes: the value of each, and whether it is poisoned. -/
def elemsOf (z n : Nat) (bs : List (Byte × Bool)) : List (Nat × Bool) :=
  (List.range n).map fun i =>
    let e := (bs.drop (z * i)).take z
    (leVal (e.map (·.1)), e.any (·.2))
/-- The element is greater than the threshold (R258, R94). -/
def above (ty x th : Nat) : Bool :=
  if isFloat ty then ltV (readF (fmtOf ty) false th) (readF (fmtOf ty) false x) else decide (readI ty th < readI ty x)
/-- SCAN_DONE (R258): the dirty copies of the span are written back first. -/
def execScanDone (cmd : Nat) (s : State) : Host.Outcome State Fault Refusal :=
  match runningCmd s cmd 4 with
  | none => disabled
  | some c =>
    let ty := cmdType c.rec_
    let n := cmdLen c.rec_
    if c.src.any fun r => !(inHbm r.pa && (r.home == 0 || r.home == 2)) then .next (endCmd s cmd 0x40 0 0)
    else
      let s := cleanLines s fun l => c.src.any fun r =>
        decide (lineOf r.pa ≤ lineOf (unroute s (l * 128)) ∧ lineOf (unroute s (l * 128)) ≤ lineOf (r.pa + r.len - 1))
      let es := elemsOf (cmdZ c.rec_) n (readCmd s c c.src)
      let th := fieldOf c.rec_ 32 4 % 2 ^ tyBits ty
      let hits := (es.mapIdx fun i e => (i, e)).filter fun p => above ty p.2.1 th
      let out := (hits.take (cmdMaxOut c.rec_)).flatMap fun p => (leBytes 4 p.1 ++ leBytes 4 p.2.1).map fun b => (b, p.2.2)
      let code := if cmdMaxOut c.rec_ < hits.length then 0x01 else if es.any (·.2) then 0x30 else 0
      .next (endCmd (writeRuns c.func (some c.ctx) c.dst out s) cmd code hits.length (n * cmdZ c.rec_))

/-- The running collective command of a die for a group and sequence number. -/
def memberCmd (s : State) (func group : Nat) (seq : Word) (die : Nat) : Option (Nat × Cmd) :=
  s.bulk.cmds.find? fun p => p.2.die == die && p.2.func == func && p.2.running.isSome && p.2.ending.isNone && cmdOp p.2.rec_ == 3 &&
    cmdGroup p.2.rec_ == group && cmdSeq p.2.rec_ == seq.toNat
/-- The members of a group on this module, with their ranks and commands; none while one has not come. -/
def localMembers (s : State) (func group : Nat) (seq : Word) (g : Group) : Option (List (Nat × Nat × Cmd)) :=
  let here := (g.members.mapIdx fun i m => (i, m)).filterMap fun p => p.2.die?.map fun die => (p.1, memberCmd s func group seq die)
  if here.all fun p => p.2.isSome then some (here.filterMap fun p => p.2.map fun q => (p.1, q.1, q.2)) else none
/-- COP, TYPE, REDOP, LEN and ROOT of a command, which members must agree on (R257). -/
def collKey (c : Cmd) : Nat × Nat × Nat × Nat := (cmdCop c.rec_, fieldOf c.rec_ 35 1, cmdLen c.rec_, cmdRoot c.rec_)
/-- COLLECTIVE_MATCH (R257): every member has come. `agree` says that the members on other modules agree; one that no station reaches does not
come (R473). -/
def execCollectiveMatch (func group : Nat) (seq : Word) (agree : Bool) (s : State) : Host.Outcome State Fault Refusal :=
  match Tbl.get? (s.func func).groups group with
  | none => disabled
  | some g =>
    match localMembers s func group seq g with
    | some ((r0, id0, c0) :: ms) =>
      if s.bulk.matched.contains (func, group, seq) ∨ (agree = false ∧ (g.members.all fun m => m.die?.isSome) = true) ∨
          g.members.all (memberUp s func group) = false then disabled
      else if agree && ms.all fun m => collKey m.2.2 == collKey c0 then
        .next { s with bulk := { s.bulk with matched := s.bulk.matched ++ [(func, group, seq)] } }
      else .next (((r0, id0, c0) :: ms).foldl (fun s m => endCmd s m.2.1 0x20 0 ((m.2.2.src.map (·.len)).foldl (· + ·) 0)) s)
    | _ => disabled
/-- One element of a reduction over the members' elements, in rank order (R257). -/
def reduceColl (ty redop : Nat) (xs : List Nat) : Nat :=
  let ex := fun x => exactCode 0 (readF (fmtOf ty) false x)
  let fv := readF (fmtOf 0) false
  match xs with
  | [] => 0
  | x :: t =>
    if isFloat ty then
      let acc := t.foldl (fun a y => match redop with
        | 0 => roundV (fmtOf 0) { rnd := 0 } (sumV 0 [fv a, fv (ex y)])
        | 1 => exactCode 0 (minV (fv a) (fv (ex y)))
        | _ => exactCode 0 (maxV (fv a) (fv (ex y)))) (ex x)
      roundV (fmtOf ty) { rnd := 0 } (fv acc)
    else
      t.foldl (fun a y => match redop with
        | 0 => (a + y) % 2 ^ 32
        | 1 => lowBits ty (min (readI ty a) (readI ty y))
        | _ => lowBits ty (max (readI ty a) (readI ty y))) x
/-- The bytes of an element. -/
def elemBytes (z : Nat) (e : Nat × Bool) : List (Byte × Bool) := (leBytes z e.1).map fun b => (b, e.2)
/-- COLLECTIVE_DONE (R256, R257): the members' data is reduced or gathered. `remote` brings the SRC of members on other modules, each byte
poisoned or not (R238). -/
def execCollectiveDone (func group : Nat) (seq : Word) (remote : List (Nat × List (Byte × Bool))) (s : State) :
    Host.Outcome State Fault Refusal :=
  match Tbl.get? (s.func func).groups group with
  | none => disabled
  | some g =>
    match localMembers s func group seq g with
    | some ((r0, id0, c0) :: ms) =>
      let all_ := (r0, id0, c0) :: ms
      let cop := cmdCop c0.rec_
      let ty := cmdType c0.rec_
      let z := cmdZ c0.rec_
      let len := cmdLen c0.rec_
      let root := cmdRoot c0.rec_
      let need := fun (q : Nat) => cop != 3 || q == root
      let data := (g.members.mapIdx fun i m => (i, m)).map fun p =>
        if need p.1 then
          match p.2 with
          | .die die => (memberCmd s func group seq die).map fun q => readCmd s q.2 q.2.src
          | .remote _ => (remote.find? fun x => x.1 == p.1 && x.2.length == len * z).map (·.2)
        else some []
      if !s.bulk.matched.contains (func, group, seq) || data.any Option.isNone || !g.members.all (memberUp s func group) || all_.any fun m => (runningCmd s m.2.1 3).isNone then disabled
      else
        let xs := (data.filterMap id).map fun bs => elemsOf z (if bs.isEmpty then 0 else len) bs
        let red := if cop ≤ 1 then (List.range len).map fun k =>
            (reduceColl ty (fieldOf c0.rec_ 35 1 % 16) (xs.map fun x => (x.getD k (0, false)).1), xs.any fun x => (x.getD k (0, false)).2)
          else []
        let out := fun (rank : Nat) => match cop with
          | 0 => red
          | 1 => (red.drop (rank * (len / g.members.length))).take (len / g.members.length)
          | 2 => xs.flatten
          | _ => xs.getD root []
        let s := { s with bulk := { s.bulk with matched := s.bulk.matched.filter (· != (func, group, seq)) } }
        .next (all_.foldl (fun s m =>
          let es := out m.1
          let s := writeRuns func (some m.2.2.ctx) m.2.2.dst (es.flatMap (elemBytes z)) s
          endCmd s m.2.1 (if es.any (·.2) then 0x30 else 0) es.length ((m.2.2.src.map (·.len)).foldl (· + ·) 0)) s)
    | _ => disabled

end Sys2Proof.Machine
end

