-- ==== Sys2Proof/Machine/Records.lean ====
section
/-! DEFINITION. Launch and task records, LAUNCH, TSPAWN and TDEP (12 R334 to R337, R347 to R353). -/
namespace Sys2Proof.Machine

/-- Range i of a launch record (R334). -/
def rangeOf (r : List Byte) (i : Nat) : RangeDecl :=
  let b7 := fieldOf r (135 + 16 * i) 1
  { idx := i, base := fieldOf r (128 + 16 * i) 7, len := fieldOf r (136 + 16 * i) 8, r := b7 % 2 == 1, w := b7 / 2 % 2 == 1,
    demand := b7 / 4 % 2 == 1 }
/-- The fields of a launch record (R334); its unused ranges are left out. -/
def launchOf (r : List Byte) : LaunchRec :=
  { entry := fieldOf r 0 7, trapv := fieldOf r 8 7, image := fieldOf r 16 7, ilen := fieldOf r 24 4, dataoff := fieldOf r 28 4
    gx := fieldOf r 32 2, gy := fieldOf r 34 2, gz := fieldOf r 36 2, teamsz := fieldOf r 38 1, width := fieldOf r 39 1
    vregs := fieldOf r 40 1, scratch := fieldOf r 41 1, tiles := fieldOf r 42 1, sems := fieldOf r 43 1, cbars := fieldOf r 44 1
    wquad := fieldOf r 45 1, wdie := fieldOf r 46 1, wmod := fieldOf r 47 1, wpod := fieldOf r 48 1, prio := fieldOf r 49 1 % 8
    mirror := fieldOf r 50 1, monthr := fieldOf r 52 2, rseed := BitVec.ofNat 64 (fieldOf r 56 8), compl := fieldOf r 64 7
    tindex := fieldOf r 72 4, args := (List.range 4).map fun i => BitVec.ofNat 64 (fieldOf r (80 + 8 * i) 8)
    ranges := ((List.range 8).map (rangeOf r)).filter fun d => d.r || d.w }
/-- A byte of the code part. -/
def LaunchRec.inCode (r : LaunchRec) (a : Nat) : Bool := a % 4 == 0 && decide (r.image ≤ a ∧ a < r.image + r.dataoff)
/-- The limits of the fields of a launch record (R334, R337). -/
def LaunchRec.ok (r : LaunchRec) : Bool :=
  r.inCode r.entry && (r.trapv == 0 || r.inCode r.trapv) && r.image != 0 && r.image % 128 == 0 && decide (4 ≤ r.ilen ∧ r.ilen ≤ 2 ^ 30) &&
  r.dataoff % 4 == 0 && decide (r.dataoff ≤ r.ilen) && (r.dataoff == r.ilen || r.dataoff % 128 == 0) &&
  decide (1 ≤ r.gx ∧ 1 ≤ r.gy ∧ 1 ≤ r.gz) && decide (1 ≤ r.teamsz ∧ r.teamsz ≤ 32) && [16, 32, 64].contains r.width &&
  decide (1 ≤ r.vregs ∧ r.vregs ≤ 16) && decide (r.scratch ≤ 11 ∧ r.tiles ≤ 64 ∧ r.sems ≤ 64 ∧ r.cbars ≤ 128) &&
  decide (r.wquad + r.wdie + r.wmod + r.wpod ≤ 128) && (r.mirror == 0 || decide (2 ≤ r.mirror ∧ r.mirror ≤ 16)) &&
  r.compl % 32 == 0 && (r.mirror == 0 || r.teams % r.mirror == 0) && r.ranges.all fun d => decide (1 ≤ d.len ∧ d.len ≤ 2 ^ 56)
/-- A launch record of 256 bytes is well-formed (R337). -/
def launchOk (r : List Byte) : Bool :=
  fieldOf r 7 1 == 1 && fieldOf r 15 1 == 0 && fieldOf r 23 1 == 0 && decide (fieldOf r 49 1 < 8) && fieldOf r 51 1 == 0 &&
  fieldOf r 54 2 == 0 && fieldOf r 71 1 == 0 && fieldOf r 76 4 == 0 && allZero ((r.drop 112).take 16) &&
  ((List.range 8).all fun i => decide (fieldOf r (135 + 16 * i) 1 < 8) &&
    (fieldOf r (135 + 16 * i) 1 % 4 != 0 || allZero ((r.drop (128 + 16 * i)).take 16))) &&
  (launchOf r).ok
/-- The fields of a task record (R349). -/
def taskOf (r : List Byte) : TaskRec :=
  { lrec := fieldOf r 0 7, cnt := fieldOf r 8 7, tindex := fieldOf r 16 4, prio := fieldOf r 20 1 % 8, compl := fieldOf r 24 7
    args := (List.range 4).map fun i => BitVec.ofNat 64 (fieldOf r (32 + 8 * i) 8)
    succ := (List.range (min 8 (fieldOf r 21 1))).map fun i => fieldOf r (64 + 8 * i) 7 }
/-- A task record of 128 bytes is well-formed (R349, R351). -/
def taskOk (r : List Byte) : Bool :=
  fieldOf r 7 1 == 2 && fieldOf r 15 1 == 0 && fieldOf r 0 7 % 256 == 0 && fieldOf r 8 7 % 16 == 0 && decide (fieldOf r 20 1 < 8) &&
  decide (fieldOf r 21 1 ≤ 8) && fieldOf r 22 2 == 0 && fieldOf r 31 1 == 0 && fieldOf r 24 7 % 32 == 0 &&
  (List.range 8).all fun i =>
    if i < fieldOf r 21 1 then fieldOf r (71 + 8 * i) 1 == 0 && fieldOf r (64 + 8 * i) 7 % 16 == 0
    else fieldOf r (64 + 8 * i) 8 == 0

/-- LAUNCH (R347). The queued grid is held back until the operations that the LAUNCH releases are performed. While the front end of the queue
is updated it takes no new entry, and the LAUNCH waits (R479). -/
def execLaunch (d a : SReg) (s : State) : Host.Outcome State Fault Refusal :=
  let word := wordOf (.launch d a)
  issue s (fun _ _ => { word := word, stops := true, closes := true }) fun s c t =>
    let va := (c.getS a).toNat
    match takeAccess s s.cur c t word (laneChecks t true false true false 256 256 [(0, va)]) with
    | some s => s
    | none => withRead s c word (mkAcc t true false 0 0 va 256) fun r =>
        if launchOk r = false then retire s (c.setS d 2)
        else if frontHeld s (match Tbl.get? s.ctxs t.ctx with | some x => x.slice | none => 0) then s
        else if queueFull s t.ctx then retire s (c.setS d 1)
        else
          let s := closeRegion s s.cur c.pc word
          let s := queueEntry s { ctx := t.ctx, rec_ := launchOf r, addr := va, after := some (s.cur, s.nextOp) }
          retire s ({ c with region := none, buf := [] }.setS d 0)

/-- A field of a task record that TSPAWN checks: its check, and whether it must name a counter page (R351). -/
def taskChecks (t : Team) (k : TaskRec) : List (Check × Bool) :=
  let mk := fun (ld st : Bool) (va size : Nat) => laneChecks t ld st true false 1 size [(0, va)]
  (mk true false k.lrec 256).map (·, false) ++ (mk true true k.cnt 16).map (·, true) ++
    (k.succ.flatMap fun v => (mk true true v 16).map (·, true)) ++
    (if k.compl = 0 then [] else (mk false true k.compl 32).map (·, false))
/-- The first field that fails (R351): its fault is taken, a counter outside counter pages being an address fault. -/
def taskFault (s : State) (c : Crew) (t : Team) (word : Word) : List (Check × Bool) → Option State
  | [] => none
  | (k, cnt) :: r =>
    match takeAccess s s.cur c t word [k] with
    | some s => some s
    | none =>
      if cnt && !counterPage (mkAcc t true true 0 0 k.va 16) then
        some (takeKind s s.cur c t word [] (.address, k.va, 1, 2))
      else taskFault s c t word r
/-- Step 4 of TSPAWN (R351): the status, and the state after it. -/
def bindTask (s : State) (t : Team) (va : Nat) (k : TaskRec) (tmpl : LaunchRec) : State × DWord :=
  let a := mkAcc t true true 0 0 k.cnt 16
  if anyPoison s a.pa 16 then (s, 5)
  else
    let b := readBlock s a.key a.pa
    if !b.res then (s, 5)
    else if b.armed then (s, 4)
    else
      let bind : Bound := { ctx := t.ctx, task := k, tmpl := tmpl, addr := va, parent := some t.entry }
      match blockStep { s with bound := Tbl.put s.bound (route s a.pa) bind } t.ctx (some (coreOf s.cur)) a
          fun b => { b with armed := true, task := va } with
      | some s2 => (s2, if b.count ≤ 0 ∧ b.fired = false then 1 else 0)
      | none => (s, 5)
/-- TSPAWN from its step 4 on (R351): once what it releases is performed the counter's Skillet acts, and a place that the task does not
take is released. -/
def finishSpawn (s : State) (c : Crew) (t : Team) (d : SReg) (va : Nat) (k : TaskRec) (tmpl : LaunchRec) : State :=
  let (ended, at_) := releaseStep s s.cur c.fenceAt false true
  if ended && (owner s s.nextOp (mkAcc t true true 0 0 k.cnt 16).pa 16).isNone then
    let (s, st) := bindTask s t va k tmpl
    let s := if st.toNat < 2 then s else s.modCtx t.ctx fun x => { x with reserved := x.reserved - 1 }
    retire s ({ c with fenceAt := none, spawn := none }.setS d st)
  else s.setCrew s.cur { c with fenceAt := at_, spawn := some (va, k, tmpl) }
/-- TSPAWN (R351): the records are read, a place is reserved and the region closed, and then the release part is waited for. -/
def execTspawn (d a : SReg) (s : State) : Host.Outcome State Fault Refusal :=
  let word := wordOf (.tspawn d a)
  issue s (fun _ _ => { word := word, stops := true, closes := true }) fun s c t =>
    match c.spawn with
    | some (va, k, tmpl) => finishSpawn s c t d va k tmpl
    | none =>
      let va := (c.getS a).toNat
      match takeAccess s s.cur c t word (laneChecks t true false true false 128 128 [(0, va)]) with
      | some s => s
      | none => withRead s c word (mkAcc t true false 0 0 va 128) fun r =>
          let k := taskOf r
          match taskFault s c t word (taskChecks t k) with
          | some s => s
          | none => withRead s c word (mkAcc t true false 0 0 k.lrec 256) fun q =>
              if !(taskOk r && launchOk q) then retire s (c.setS d 3)
              else if queueFull s t.ctx then retire s (c.setS d 2)
              else finishSpawn ((closeRegion s s.cur c.pc word).modCtx t.ctx fun x => { x with reserved := x.reserved + 1 })
                { c with region := none, buf := [] } t d va k (launchOf q)

/-- TDEP (R353). -/
def execTdep (a b : SReg) (s : State) : Host.Outcome State Fault Refusal :=
  let word := wordOf (.tdep a b)
  issue s (fun c _ => { word := word, cls := some .load, stops := true, closes := true, lines := vaLines [(c.getS a).toNat] }) fun s c t =>
    let va := (c.getS a).toNat
    let delta := (c.getS b).toInt
    if delta < -(2 ^ 31) ∨ 2 ^ 31 - 1 < delta then trapAt s s.cur c word .operand
    else match takeAccess s s.cur c t word (laneChecks t true true false false 16 16 [(0, va)]) with
      | some s => s
      | none =>
        let x := mkAcc t true true 0 0 va 16
        if !counterPage x then takeKind s s.cur c t word [] (.address, va, 1, 2)
        else
          let s := closeRegion s s.cur c.pc word
          let c := { c with region := none, buf := [] }
          let s := addOp s { crew := s.cur, team := c.team, core := coreOf s.cur, cls := some .load, kind := .tdep delta, accs := [x],
                             pc := c.pc, word := word, acq := true, rel := true, scope := 4 }
          retire s c
/-- TDEP_STEP (R353, R350): the Skillet applies the step. -/
def execTdepStep (op : Nat) (s : State) : Host.Outcome State Fault Refusal :=
  match Tbl.get? s.ops op with
  | none => disabled
  | some o =>
    match o.kind, o.accs with
    | .tdep delta, x :: _ =>
      if o.done || !performable s op o x then disabled
      else
        let ctx := match s.team? o.team with | some t => t.ctx | none => 0
        let info : TrapInfo := { kind := .dependence, resume := o.pc, fault := o.pc, addr := BitVec.ofNat 64 x.va }
        let s := if anyPoison s x.pa 16 then holdFault s op o [] none { info with kind := .poison, mask := 1 }
          else if !(readBlock s x.key x.pa).res then holdFault s op o [] none info
          else match blockStep s ctx (some o.core) x (addCount delta) with
            | some s => s
            | none => s
        .next (finishOp (applyInvs (s.modCrew o.crew fun c => { c with acqAt := s.nextOp }) o.core) op)
    | _, _ => disabled

end Sys2Proof.Machine
end

