-- ==== Sys2Proof/Machine/Save.lean ====
section
/-! DEFINITION. The save areas in device memory: the places and bytes of spilled units, and the saved fault table (13 R380 to R388). The
layout is the model's (log entry 89). -/
namespace Sys2Proof.Machine

/-- The bytes of the part of a core, of which the rows come first, then the scratchpad units, the tiles, the crew slots and the team
contexts (R382). -/
def savePart : Nat := 1572864
def saveUnits : Nat := 524288
def saveTiles : Nat := 1245184
def saveSlots : Nat := 1507328
def saveCtxs : Nat := 1548288
/-- The part of a core in a context's save area (R382). -/
def saveBase (s : State) (ctx core : Nat) : Option Nat :=
  match Tbl.get? s.ctxs ctx with
  | none => none
  | some x => match x.save, (sliceCores s x.slice).findIdx? (· == core) with
    | some b, some r => some (b + r * savePart)
    | _, _ => none
/-- The saved fault table of a context (R382, R387). -/
def faultTable (s : State) (x : Ctx) : Option Nat := x.save.map fun b => b + (sliceCores s x.slice).length * savePart
/-- How memory is accessed in a save area: under the context's own key, and in no cache (R382). -/
def saveAttr (s : State) (ctx : Nat) : Attr := { home := 3, key := ctxKey s ctx }

/-- The bytes of a crew's register rows, of its slot, of a tile, and of a team context (R380). -/
def rowBytes (t : Team) (c : Crew) : List Byte :=
  (List.range (t.nvreg * t.width)).flatMap fun i => leBytes 4 (c.getV (i / t.width) (i % t.width)).toNat
def slotBytes (c : Crew) : List Byte :=
  let r := c.trap
  leBytes 8 c.pc.toNat ++ ((List.range 63).flatMap fun i => leBytes 8 (Sparse.get c.sregs (i + 1)).toNat) ++
  leBytes 8 c.mode.toNat ++ leBytes 8 c.gang.toNat ++ leBytes 8 c.rseed.toNat ++ leBytes 4 c.rndcnt.toNat ++
  leBytes 4 (if c.handler then 1 else 0) ++ ([r.w0, r.w1, r.w2, r.w3, r.w4, r.w5, r.w6, r.w7].flatMap fun w => leBytes 8 w.toNat) ++
  leBytes 4 (c.cmask.toNat + if c.gate then 65536 else 0)
def tileBytes (t : Team) (i : Nat) : List Byte := (List.range 1024).flatMap fun j => leBytes 4 (Sparse.get t.tiles (1024 * i + j)).toNat
def ctxBytes (t : Team) : List Byte :=
  ((List.range 64).flatMap fun i => leBytes 4 (Sparse.get t.sems i).toNat) ++
  (List.range 128).flatMap fun h =>
    let b := Tbl.getD t.bars h {}
    leBytes 4 (b.e % 64 + (if b.armed then 128 else 0) + b.arr % 64 * 256 + b.drops % 64 * 65536) ++ leBytes 4 b.phase.toNat
/-- The word of n bytes at offset o of a list, wide w. -/
def savedWord (w : Nat) (bs : List Byte) (o n : Nat) : BitVec w := BitVec.ofNat w (fieldOf bs o n)
/-- What the bytes hold comes back. -/
def takeRows (t : Team) (bs : List Byte) (c : Crew) : Crew :=
  (List.range (t.nvreg * t.width)).foldl (fun c i => c.setV (i / t.width) (i % t.width) (savedWord 32 bs (4 * i) 4)) c
def takeSlot (bs : List Byte) (c : Crew) : Crew :=
  let w := fun (i : Nat) => savedWord 64 bs (544 + 8 * i) 8
  { c with
    pc := savedWord 56 bs 0 8
    sregs := (List.range 63).foldl (fun r i => Sparse.set r (i + 1) (savedWord 64 bs (8 + 8 * i) 8)) []
    mode := savedWord 64 bs 512 8, gang := savedWord 64 bs 520 8, rseed := savedWord 64 bs 528 8, rndcnt := savedWord 32 bs 536 4
    handler := fieldOf bs 540 4 == 1, cmask := savedWord 16 bs 608 2, gate := fieldOf bs 610 1 == 1
    trap := { w0 := w 0, w1 := w 1, w2 := w 2, w3 := w 3, w4 := w 4, w5 := w 5, w6 := w 6, w7 := w 7 } }
def takeTile (i : Nat) (bs : List Byte) (t : Team) : Team :=
  { t with tiles := (List.range 1024).foldl (fun r j => Sparse.set r (1024 * i + j) (savedWord 32 bs (4 * j) 4)) t.tiles }
def takeCtx (bs : List Byte) (t : Team) : Team :=
  let bar := fun (h : Nat) (b : Barrier) =>
    let v := fieldOf bs (256 + 8 * h) 4
    { b with e := v % 64, armed := v / 128 % 2 == 1, arr := v / 256 % 64, drops := v / 65536 % 64, phase := savedWord 32 bs (260 + 8 * h) 4 }
  { t with
    sems := (List.range 64).foldl (fun r i => Sparse.set r i (savedWord 32 bs (4 * i) 4)) t.sems
    bars := t.bars.map fun p => (p.1, bar p.1 p.2) }

/-- Spilled register rows: crews' indices in the team, with the flat address and bytes. -/
def Team.rowLen (t : Team) : Nat := 4 * t.nvreg * t.width
/-- The crew of an index in a team. -/
def crewAt (s : State) (t : Team) (idx : Nat) : Option Nat :=
  t.crews.find? fun k => match s.crew? k with | some c => c.idx == idx | none => false
/-- The spans of a context's save area that spilled units take. -/
def savedSpans (s : State) (ctx : Nat) : List (Nat × Nat) :=
  (s.teams.filter fun p => p.2.ctx == ctx).flatMap fun p =>
    let t := p.2
    (t.rowsOut.map fun q => (q.2, t.rowLen)) ++ (t.tilesOut.map fun q => (q.2, 4096)) ++ (t.ctxOut.toList.map fun a => (a, 1536)) ++
    ((t.units.filter fun u => decide (2 ^ 20 ≤ u)).map fun u => (unitAddr t.core u 0, Config.unitBytes)) ++
    (t.crews.filterMap fun k => (s.crew? k).bind (·.saved)).map fun a => (a, 640)
/-- The lowest free place among `count` of `step` bytes from an offset of a core's part, for `len` bytes. -/
def freePlace (s : State) (ctx core off step count len : Nat) : Option Nat :=
  let used := savedSpans s ctx
  (saveBase s ctx core).bind fun b =>
    ((List.range count).map fun i => b + off + i * step).find? fun a =>
      decide (a + len ≤ b + off + count * step) && used.all fun u => decide (a + len ≤ u.1 ∨ u.1 + u.2 ≤ a)
def rowPlace (s : State) (ctx core len : Nat) : Option Nat := freePlace s ctx core 0 64 8192 len
def unitPlace (s : State) (ctx core : Nat) : Option Nat := freePlace s ctx core saveUnits Config.unitBytes 11 Config.unitBytes
def tilePlace (s : State) (ctx core : Nat) : Option Nat := freePlace s ctx core saveTiles 4096 64 4096
def slotPlace (s : State) (ctx core : Nat) : Option Nat := freePlace s ctx core saveSlots 640 64 640
def ctxPlace (s : State) (ctx core : Nat) : Option Nat := freePlace s ctx core saveCtxs 1536 16 1536

/-- What the machine holds spilled but for scratchpad units, which are memory itself: context, flat address, bytes. -/
def spilled (s : State) : List (Nat × Nat × List Byte) :=
  s.teams.flatMap fun p =>
    let t := p.2
    (t.rowsOut.filterMap fun q => ((crewAt s t q.1).bind s.crew?).map fun c => (t.ctx, q.2, rowBytes t c)) ++
    (t.tilesOut.map fun q => (t.ctx, q.2, tileBytes t q.1)) ++ (t.ctxOut.toList.map fun a => (t.ctx, a, ctxBytes t)) ++
    t.crews.filterMap fun k => (s.crew? k).bind fun c => c.saved.map fun a => (t.ctx, a, slotBytes c)
/-- Bytes of a save area that differ from what was there are written. -/
def syncBytes (p : Attr) : Nat → List Byte → List Byte → State → State
  | _, _, [], s => s
  | a, [], new, s => performBytes s none none p a new false (storeCause none)
  | a, b :: old, c :: new, s =>
    syncBytes p (a + 1) old new (if b = c then s else performBytes s none none p a [c] false (storeCause none))
/-- At the end of a step the save areas take what the step spilled, and what it wrote to units that were spilled already (R380, R381): a
write is applied to the copy that holds the unit. -/
def syncSpill (old new : State) : State :=
  let was := spilled old
  (spilled new).foldl (fun s q =>
    syncBytes (saveAttr s q.1) q.2.1 (match was.find? fun w => w.2.1 == q.2.1 with | some w => w.2.2 | none => []) q.2.2 s) new
/-- The bytes of a spilled unit, as memory holds them now (R382), and whether one is poisoned. -/
def savedBytes (s : State) (ctx a n : Nat) : List Byte := readBytes s (ctxKey s ctx) a n
/-- The crew whose state in a save area cannot be read back (R377); an element of a tile carries its poison. -/
def savedBad (s : State) (t : Team) : Option Nat :=
  let bad := fun (a n : Nat) => anyPoison s a n
  match t.rowsOut.find? fun q => bad q.2 t.rowLen with
  | some q => some q.1
  | none =>
    match t.crews.findSome? fun k => (s.crew? k).bind fun c => c.saved.bind fun a => if bad a 640 then some c.idx else none with
    | some i => some i
    | none => t.ctxOut.bind fun a => if bad a 1536 then some 0 else none

/-- The 16-byte entry of a posted reply (R387). -/
def faultEntry (ctx : Nat) (f : FaultReply) : List Byte :=
  leBytes 8 (2 ^ 63 + f.page % 2 ^ 40 * 65536 + f.status.toNat) ++ leBytes 8 (ctx % 65536 * 2 ^ 32 + f.req % 2 ^ 32)
/-- A reply is posted to the saved fault table of a halted context (R388). -/
def postFault (s : State) (ctx : Nat) (f : FaultReply) : State :=
  match Tbl.get? s.ctxs ctx with
  | none => s
  | some x =>
    let place := (faultTable s x).bind fun b =>
      ((List.range Config.maxPageReqs).map fun i => b + 16 * i).find? fun a => !x.faults.any fun g => g.place == some a
    let f := { f with place := place }
    let s := s.modCtx ctx fun x => { x with faults := x.faults ++ [f] }
    match place with
    | some a => performBytes s none none (saveAttr s ctx) a (faultEntry ctx f) false (storeCause none)
    | none => s
/-- The page and status of a posted entry, as the table holds them; none when its V is clear. -/
def postedFault (s : State) (ctx : Nat) (f : FaultReply) : Option (Nat × BitVec 8) :=
  match f.place with
  | none => some (f.page, f.status)
  | some a =>
    let w : DWord := BitVec.ofNat 64 (leVal (savedBytes s ctx a 8))
    if w.getLsbD 63 then some ((w.extractLsb' 16 40).toNat, w.extractLsb' 0 8) else none
/-- The entry is cleared. -/
def clearFault (s : State) (ctx : Nat) (f : FaultReply) : State :=
  match f.place with
  | some a => performBytes s none none (saveAttr s ctx) a (List.replicate 16 0) false (storeCause none)
  | none => s

end Sys2Proof.Machine
end

