-- ==== Sys2Proof/Machine/Translate.lean ====
section
/-! DEFINITION. Translation at dispatch, the rebuilding of extents, and the replies to page requests and ATS requests (06 R167 to R174,
13 R387 to R389, 16 R456 to R458). -/
namespace Sys2Proof.Machine

/-- What the translation of an entry's ranges has given so far: extents, the last first; absent pages of resident ranges;
translations to ask of the ATS agent; leaf entries met, with the range's mode; the status of the first failure (R344 step 5). -/
structure Xlat where
  exts : List Extent := []
  absent : List Nat := []
  ask : List Nat := []
  leaves : List (Nat × Bool × Bool) := []
  err : Option (BitVec 16) := none
  deriving DecidableEq, Repr

/-- Two runs of pages that R169 makes one. -/
def Extent.joins (a b : Extent) : Bool :=
  a.vhi == b.vlo && a.range == b.range && a.present == b.present && a.x == b.x &&
  (!a.present || (a.home != 1 && a.plo + (a.vhi - a.vlo) == b.plo && a.home == b.home && a.cls == b.cls && a.sysatom == b.sysatom &&
    a.key == b.key && a.lr == b.lr && a.lw == b.lw))
/-- A run of pages follows: it joins the last extent or is a new one; beyond `lim` extents the translation fails (R170). -/
def Xlat.add (lim : Nat) (x : Xlat) (e : Extent) : Xlat :=
  match x.exts with
  | q :: r =>
    if q.joins e then { x with exts := { q with vhi := e.vhi } :: r }
    else if lim ≤ x.exts.length then { x with err := some 0x0004 } else { x with exts := e :: q :: r }
  | [] => if lim = 0 then { x with err := some 0x0004 } else { x with exts := [e] }
/-- The extent of bytes lo to hi of a range that a leaf maps, lo lying in the page of base `base`. -/
def Leaf.extent (l : Leaf) (e : Extent) (base lo hi : Nat) : Extent :=
  { e with vlo := lo, vhi := hi, plo := l.pa + (lo - base), home := l.home, cls := l.cls, sysatom := l.sysatom, key := l.key,
           present := true, lr := l.r, lw := l.w }
/-- The walk of a range from `va` on in ascending address order (R169, R171, R456). Absent runs count as extents from the first (log
entry 95). `e` is the extent that names the range and its
mode; `ok` says whether a leaf's permissions serve bytes lo to hi; absent pages are listed unless the range is a demand range. -/
def xlatFrom (s : State) (x : Ctx) (e : Extent) (demand : Bool) (ok : Nat → Nat → Leaf → Bool) (lim stop : Nat) :
    Nat → Nat → Xlat → Xlat
  | 0, _, r => r
  | n + 1, va, r =>
    if stop ≤ va ∨ r.err.isSome = true then r
    else
      let miss := fun (hi : Nat) =>
        { r.add lim { e with vlo := va, vhi := hi } with
          absent := if demand then r.absent
            else r.absent ++ (List.range (min (Config.maxPageReqs - r.absent.length) ((hi - 1) / 65536 + 1 - va / 65536))).map
              fun i => va / 65536 + i }
      match walk s x va with
      | .bad => { r with err := some 0x0003 }
      | .absent sz =>
        let hi := min stop (va - va % sz + sz)
        xlatFrom s x e demand ok lim stop n hi (miss hi)
      | .leaf l =>
        if inHost l.pa then
          let hi := min stop (va - va % 65536 + 65536)
          let pg := (l.pa + va % l.size - 2 ^ 51) / 65536
          match Tbl.get? x.ats pg with
          | none => xlatFrom s x e demand ok lim stop n hi { r with ask := r.ask ++ [pg] }
          | some none => xlatFrom s x e demand ok lim stop n hi { r with ask := r.ask ++ [pg] }
          | some (some .refused) => { r with err := some 0x0003 }
          | some (some (.success rd wr pa _)) =>
            if !rd && !wr then xlatFrom s x e demand ok lim stop n hi (miss hi)
            else
              let l := { l with pa := 2 ^ 51 + (pa / 65536 * 65536) % 2 ^ 51, r := l.r && rd, w := l.w && wr }
              if ok va hi l then
                xlatFrom s x e demand ok lim stop n hi
                  { r.add lim (l.extent e (va - va % 65536) va hi) with leaves := r.leaves ++ [(l.entry, e.r, e.w)] }
              else { r with err := some 0x0003 }
        else
          let hi := min stop (va - va % l.size + l.size)
          if ok va hi l then
            xlatFrom s x e demand ok lim stop n hi
              { r.add lim (l.extent e (va - va % l.size) va hi) with leaves := r.leaves ++ [(l.entry, e.r, e.w)] }
          else { r with err := some 0x0003 }
/-- A declared range (R169 to R172); a leaf counts once (R167). -/
def xlatRange (s : State) (x : Ctx) (r : Xlat) (d : RangeDecl) : Xlat :=
  let q := xlatFrom s x { range := d.idx, vlo := 0, vhi := 0, r := d.r, w := d.w } d.demand (fun _ _ l => (!d.r || l.r) && (!d.w || l.w))
    Config.maxExtents (d.base + d.len) (d.len / 65536 + 2) d.base { r with leaves := [] }
  { q with leaves := r.leaves ++ q.leaves.eraseDups }
/-- The code part of an image extent, and its data part (R336). -/
def splitCode (cut : Nat) (e : Extent) : List Extent :=
  if e.vhi ≤ cut then [{ e with x := true }]
  else if cut ≤ e.vlo then [e]
  else [{ e with vhi := cut, x := true }, { e with vlo := cut, plo := e.plo + (cut - e.vlo) }]
/-- The image as range I (R170, R336): at most 4 extents before its code and data are told apart. -/
def xlatImage (s : State) (x : Ctx) (q : LaunchRec) (r : Xlat) : Xlat × List Extent :=
  let cut := q.image + q.dataoff
  let i := xlatFrom s x { range := 8, vlo := 0, vhi := 0, r := true } false
    (fun lo hi l => (decide (cut ≤ lo) || l.x) && (decide (hi ≤ cut) || l.r)) 4 (q.image + q.ilen) (q.ilen / 65536 + 2) q.image
    { r with exts := [] }
  ({ i with exts := r.exts, leaves := r.leaves }, i.exts.reverse.flatMap (splitCode cut))
/-- A heat field after one more use, or one sweep (R167, R168): bits lo+1 and lo of a leaf entry. -/
def heatUp (lo : Nat) (e : DWord) : DWord := if e.extractLsb' lo 2 = 3 then e else e + BitVec.ofNat 64 (2 ^ lo)
def heatDown (lo : Nat) (e : DWord) : DWord := if e.extractLsb' lo 2 = 0 then e else e - BitVec.ofNat 64 (2 ^ lo)
/-- A leaf entry is changed as one step at its home segment. -/
def changeLeaf (s : State) (a : Nat) (f : DWord → DWord) : State :=
  let e : DWord := BitVec.ofNat 64 (leVal (readBytes s 0 a 8))
  if f e = e then s else performBytes s none none {} a (leBytes 8 (f e).toNat) false (storeCause none)
/-- R167 for the leaves of declared ranges that a dispatch has translated, once for each leaf and range (log entry 94). -/
def heatLeaves (s : State) (ls : List (Nat × Bool × Bool)) : State :=
  ls.foldl (fun s l => changeLeaf s l.1 fun e =>
    let e := if l.2.1 then heatUp 12 e else e
    if l.2.2 then heatUp 14 e else e) s

/-- The pages of an extent. -/
def Extent.pages (e : Extent) : List Nat := (List.range ((e.vhi - 1) / 65536 + 1 - e.vlo / 65536)).map fun i => e.vlo / 65536 + i
/-- The untranslated page of host space that the leaf of a page names. -/
def untranslated (s : State) (x : Ctx) (page : Nat) : Option Nat :=
  match walk s x (page * 65536) with
  | .leaf l => if inHost l.pa then some ((l.pa + page * 65536 % l.size - 2 ^ 51) / 65536) else none
  | _ => none
/-- The context notes from which untranslated pages the host-space pages of new extents come (R457). -/
def notePages (s : State) (ctx : Nat) (es : List Extent) : State :=
  let ps := (es.filter fun e => e.present && inHost e.plo).flatMap (·.pages)
  s.modCtx ctx fun x => { x with pages := ps.foldl (fun t p => match untranslated s x p with | some u => Tbl.put t p u | none => t) x.pages }

/-- What a page is when extents are rebuilt (R172). -/
inductive PageNow where
  | hole | bad | leaf (l : Leaf)
  deriving DecidableEq, Repr
/-- The page as its leaf stands; host space is asked of the ATS agent, whose answer is free (log entry 11): bit 3 says that it comes on the
selective stream that a TDI in RUN is bound to (R463). -/
def pageNow (s : State) (x : Ctx) (page : Nat) : PageNow :=
  match walk s x (page * 65536) with
  | .absent _ => .hole
  | .bad => .bad
  | .leaf l =>
    let l := { l with pa := l.pa + page * 65536 % l.size, size := 65536 }
    if inHost l.pa then
      let q := Config.atsAnswer s.clock ((l.pa - 2 ^ 51) / 65536)
      if q.1 / 4 % 2 = 1 ∨ ((s.func x.func).tdi = .run ∧ q.1 / 8 % 2 = 0) then .bad
      else if q.1 % 4 = 0 then .hole
      else .leaf { l with pa := 2 ^ 51 + (q.2 * 65536) % 2 ^ 51, r := l.r && q.1 % 2 == 1, w := l.w && q.1 / 2 % 2 == 1 }
    else .leaf l
/-- A leaf serves the mode of an extent (R171), the image's code needing X (R336). -/
def Extent.servedBy (e : Extent) (l : Leaf) : Bool :=
  if e.range = 8 then (if e.x then l.x else l.r) else (!e.r || l.r) && (!e.w || l.w)
/-- An extent cut to bytes lo to hi. -/
def Extent.cut (e : Extent) (lo hi : Nat) : List Extent :=
  let a := max e.vlo lo
  let b := min e.vhi hi
  if a < b then [{ e with vlo := a, vhi := b, plo := if e.present then e.plo + (a - e.vlo) else 0 }] else []
/-- Neighbours that R169 makes one extent are joined. -/
def joinExtents : List Extent → List Extent
  | [] => []
  | e :: r =>
    match joinExtents r with
    | f :: t => if e.joins f then { e with vhi := f.vhi } :: t else e :: f :: t
    | [] => [e]
/-- Bytes `va` to `stop` of a hole, rebuilt from the tables as they stand (R172): what no leaf serves stays a hole. -/
def fillFrom (s : State) (x : Ctx) (e : Extent) (stop : Nat) : Nat → Nat → List Extent
  | 0, _ => []
  | n + 1, va =>
    if stop ≤ va then []
    else
      let hole := fun (hi : Nat) => { e with vlo := va, vhi := hi } :: fillFrom s x e stop n hi
      let map := fun (l : Leaf) (base hi : Nat) =>
        (if e.servedBy l then l.extent e base va hi else { e with vlo := va, vhi := hi }) :: fillFrom s x e stop n hi
      let page := min stop (va - va % 65536 + 65536)
      match walk s x va with
      | .bad => hole page
      | .absent sz => hole (min stop (va - va % sz + sz))
      | .leaf l =>
        if inHost l.pa then
          match pageNow s x (va / 65536) with
          | .leaf l => map l (va - va % 65536) page
          | _ => hole page
        else map l (va - va % l.size) (min stop (va - va % l.size + l.size))
/-- The extents of a range are rebuilt (R172): its holes are, since a page that is present has kept its leaf (R174, log entry 126). -/
def fillHole (s : State) (x : Ctx) (e : Extent) : List Extent :=
  if e.present then [e] else fillFrom s x e e.vhi ((e.vhi - e.vlo) / 65536 + 2) e.vlo
/-- The rebuild meets a translation error for an extent of the team (R172). -/
def pageBad (t : Team) (page : Nat) (now : PageNow) : Bool :=
  match now with
  | .hole => false
  | .bad => true
  | .leaf l => t.extents.any fun e => !e.present && decide (page * 65536 < e.vhi ∧ e.vlo < page * 65536 + 65536) && !e.servedBy l
/-- The extents of a table are too many (R170). -/
def overflows (es : List Extent) : Bool := decide (Config.maxExtents < (es.filter fun e => e.range != 8).length)
/-- R174: each crew of a team takes an extent-overflow trap at its resume PC; Trivet entries that list them then fail, whose waiting members
have had their own trap. One that speculates is first rolled back (R331, log entry 14), and one that waits at a barrier takes it when the wait
is over (R318). -/
def overflowTeam (s : State) (t : Team) : State :=
  let trap := fun (s : State) (k : Nat) =>
    let s := rollback s k 6 0
    match s.crew? k with
    | some c =>
        let info : TrapInfo := { kind := .extentOverflow, resume := c.pc, fault := c.pc, word := wordAt s t c.pc }
        if entryEnding s t || c.wait == .ended then s
        else if c.inBarrier && !c.handler then s.setCrew k { c with pending := some info }
        else setTrap s k info
    | none => s
  let fail := fun (s : State) (k : Nat) =>
    match s.crew? k with
    | some c => if c.pending.isSome || c.handler then failGangs 65 s (coreOf k) (listsCrew c.team c.idx) 1 none else s
    | none => s
  t.crews.foldl fail (t.crews.foldl trap s)
/-- A crew that waits for pages goes on, or takes the demand fault of R389, once every one of its pages has its reply. -/
def settleDemand (s : State) (key : Nat) : State :=
  match s.crew? key with
  | none => s
  | some c =>
    match c.wait with
    | .demand ps info =>
      if ps.any fun p => p.2.isNone then s
      else match ps.find? fun p => p.2 != some 0 with
        | some (_, some k) => raise (s.setCrew key { c with wait := .none }) key { info with cause := k }
        | _ => s.setCrew key { c with wait := .none }
    | _ => s
/-- The crews of a team note the reply for a page: status, or cause 3 where the rebuild met a translation error (R389). -/
def notePage (s : State) (t : Team) (page : Nat) (code : BitVec 8) : State :=
  t.crews.foldl (fun s k =>
    settleDemand (s.modCrew k fun c =>
      match c.wait with
      | .demand ps info => { c with wait := .demand (ps.map fun p => if p.1 = page then (p.1, some code) else p) info }
      | _ => c) k) s
/-- A reply is applied to one team: the ranges that hold the page are rebuilt (R172, R389). What the core records from then on follows the
time at which the reply was sent (R398). -/
def applyToTeam (s : State) (x : Ctx) (page : Nat) (status : BitVec 8) (sent tid : Nat) : State :=
  match s.team? tid with
  | none => s
  | some t =>
    let s := heard s t.core sent
    if status ≠ 0 then notePage s t page status
    else
      let now := pageNow s x page
      let has := (t.extents.filter fun e => decide (page * 65536 < e.vhi ∧ e.vlo < page * 65536 + 65536)).map (·.range)
      let es := joinExtents (t.extents.flatMap fun e => if has.contains e.range then fillHole s x e else [e])
      if overflows es then overflowTeam s t
      else
        let holes := t.extents.filter fun e => !e.present && has.contains e.range
        let new := es.flatMap fun e => holes.flatMap fun h => if e.range = h.range then e.cut h.vlo h.vhi else []
        notePage (notePages (s.setTeam tid { t with extents := es }) t.ctx new) t page (if pageBad t page now then 3 else 0)
/-- A reply is applied (R172): to the teams that wait on the page, in the order of their linear indices (R364), and to entries that have
asked for it at dispatch. -/
def applyReply (s : State) (ctx page : Nat) (status : BitVec 8) (teams : List Nat) (sent : Nat) : State :=
  match Tbl.get? s.ctxs ctx with
  | none => s
  | some x =>
    let note := fun (e : Entry) =>
      if e.ctx == ctx && e.asked.contains page then { e with asked := setDel e.asked page, refused := e.refused || status != 0 } else e
    let s := { (s.modCtx ctx fun x => { x with ats := [] }) with entries := Tbl.mapV s.entries note }
    let wake := fun (q : QSlot) =>
      if q.func == x.func && q.page == some page && (match Tbl.get? (s.func q.func).queues q.queue with | some k => k.ctx == ctx | none => false)
      then { q with page := none, failed := status != 0 } else q
    let s := s.modSlice x.slice fun sl => { sl with slots := Tbl.mapV sl.slots wake }
    let index := fun (t : Nat) => match s.team? t with | some t => t.tidx | none => 0
    (sortKey index teams).foldl (fun s t => applyToTeam s x page status sent t) s
/-- The context is halted (R388): its function is switched out, or every team that it has is halted. -/
def ctxHalted (s : State) (ctx : Nat) : Bool :=
  match Tbl.get? s.ctxs ctx with
  | none => false
  | some x =>
    (match (s.slice x.slice).running with | some f => f != x.func | none => false) ||
    (let ts := s.teams.filter fun p => p.2.ctx == ctx && !p.2.retired
     !ts.isEmpty && ts.all fun p => match p.2.halt with | .halted _ => true | _ => false)
/-- A request is over: its place and its PRG index are free, and waiting requests go out. -/
def endRequest (s : State) (ctx req : Nat) (keepIndex : Bool) : State :=
  match Tbl.get? s.ctxs ctx with
  | none => s
  | some x =>
    match Tbl.get? x.reqs req with
    | none => s
    | some p =>
      let s := s.modCtx ctx fun x => { x with reqs := Tbl.del x.reqs req }
      let s := match p.prg with
        | some i => s.modFunc x.func fun f => { f with prg := setDel f.prg i, prgDead := if keepIndex then setAdd f.prgDead i else f.prgDead }
        | none => s
      sendReqs s x.func
/-- The reply to a request (R388): applied at once, or posted while the context is halted. `sent` is the time of its message, plus one
(R398). -/
def takeReply (s : State) (ctx req : Nat) (status : BitVec 8) (keepIndex : Bool) (sent : Nat := 0) : State :=
  match (Tbl.get? s.ctxs ctx).bind fun x => Tbl.get? x.reqs req with
  | none => s
  | some p =>
    let s := endRequest s ctx req keepIndex
    let cls := match (Tbl.get? s.ctxs ctx).map fun x => pageNow s x p.page with
      | some (.leaf l) => if status = 0 then l.cls else 0
      | _ => 0
    let die := sliceDie s (match Tbl.get? s.ctxs ctx with | some x => x.slice | none => 0)
    let s := emitA s die 0x34 (funcOfCtx s ctx) none 0x61
      (cls ++ 0#4 ++ status.extractLsb' 0 2) (BitVec.ofNat 32 (p.page % 2 ^ 32)) sent (some ctx)
    if ctxHalted s ctx then
      postFault s ctx { req := req, page := p.page, status := status, teams := p.teams }
    else applyReply (noteTime s die) ctx p.page status p.teams (sendTime s die 0x34)
/-- An update of the front end holds a reply to a request (R479). -/
def replyHeld (s : State) (ctx req : Nat) : Bool := s.svc.replies.any fun r => r.ctx == ctx && r.req == req
/-- A reply is taken; after a Response Failure the function asks no more (R458). -/
def takeHeld (s : State) (r : HeldReply) : State :=
  let s := if r.halt then s.modFunc (funcOfCtx s r.ctx) fun f => { f with priStopped := true } else s
  takeReply s r.ctx r.req r.status r.keep r.sent
/-- A reply has come: it is taken, or held while the front end of its slice is updated (R479). -/
def replyCame (s : State) (x : Ctx) (r : HeldReply) : State :=
  if frontHeld s x.slice then { s with svc := { s.svc with replies := s.svc.replies ++ [r] } } else takeHeld s r
/-- PAGE_REQUEST_REPLY (R388): from the S-mode scheduler. One for a context that has been torn down is discarded. -/
def execPageRequestReply (ctx req : Nat) (status : BitVec 8) (s : State) : Host.Outcome State Fault Refusal :=
  match Tbl.get? s.ctxs ctx with
  | none => .next s
  | some x =>
    match Tbl.get? x.reqs req with
    | some p =>
      if p.sent ∧ p.host = false ∧ status.toNat ≤ 1 ∧ replyHeld s ctx req = false then
        .next (replyCame s x { ctx := ctx, req := req, status := status, keep := false, halt := false, clock := s.clock, sent := 0 })
      else disabled
    | none => disabled
/-- PRG_RESPONSE (R458): matched to its request by function, index and PASID; one that comes after the time-out is discarded,
and one for a context that has been torn down frees its index. -/
def execPrgResponse (func : Nat) (index : Nat × BitVec 20) (code : PrgCode) (s : State) : Host.Outcome State Fault Refusal :=
  match (s.ctxs.flatMap fun p => p.2.reqs.map fun q => (p.1, p.2, q)).find? fun p =>
      p.2.1.func == func && p.2.2.2.prg == some index.1 && p.2.2.2.pasid == index.2 with
  | some (ctx, x, n, _) =>
    if replyHeld s ctx n then disabled
    else
      let die := Config.linkDie (linkOf s func)
      .next (replyCame (noteTime s die) x { ctx := ctx, req := n, status := if code = .success then 0 else 1, keep := false,
                                            halt := code == .responseFailure, clock := s.clock, sent := sendTime s die 0x34 + 1 })
  | none =>
    if s.ctxs.any fun p => p.2.func == func && p.2.reqs.any fun q => q.2.prg == some index.1 then .next s
    else .next (sendReqs (s.modFunc func fun f => { f with prg := setDel f.prg index.1 }) func)
/-- PAGE_REQUEST_TIMEOUT (R458): STATUS 2; a PRG index stays unusable. -/
def execPageRequestTimeout (ctx req : Nat) (s : State) : Host.Outcome State Fault Refusal :=
  match Tbl.get? s.ctxs ctx with
  | none => disabled
  | some x =>
    match Tbl.get? x.reqs req with
    | some p =>
      if p.sent && !replyHeld s ctx req then
        .next (replyCame s x { ctx := ctx, req := req, status := 2, keep := true, halt := false, clock := s.clock, sent := 0 })
      else disabled
    | none => disabled
/-- PRG_INDEX_REUSE_TIMEOUT (R458): twice the time-out has passed, and the index may be allocated again. -/
def execPrgIndexReuseTimeout (func index : Nat) (s : State) : Host.Outcome State Fault Refusal :=
  if (s.func func).prgDead.contains index then
    .next (sendReqs (s.modFunc func fun f => { f with prgDead := setDel f.prgDead index }) func)
  else disabled
/-- PRI_RESET (R458). -/
def execPriReset (func : Nat) (s : State) : Host.Outcome State Fault Refusal :=
  .next (sendReqs (s.modFunc func fun f => { f with prgDead := [], priStopped := false }) func)
/-- The answer to a translation asked at dispatch (R456). -/
def answerAts (s : State) (ctx page : Nat) (res : AtsResult) : Option State :=
  match (Tbl.get? s.ctxs ctx).bind fun x => Tbl.get? x.ats page with
  | some none => some (s.modCtx ctx fun x => { x with ats := Tbl.put x.ats page (some res) })
  | _ => none
/-- A translation may be used: for a TDI in RUN it has come on the bound stream (R463). -/
def atsUsable (s : State) (ctx : Nat) (res : AtsResult) : Bool :=
  match res with
  | .refused => true
  | .success _ _ _ stream => let f := s.func (funcOfCtx s ctx); f.tdi != .run || stream == f.stream
/-- ATS_TRANSLATION_COMPLETION (R456): a translation that may not be used is discarded (log entry 116). -/
def execAtsTranslationCompletion (ctx page : Nat) (res : AtsResult) (s : State) : Host.Outcome State Fault Refusal :=
  match answerAts s ctx page res with
  | some s' => .next (if atsUsable s ctx res then s' else s)
  | none => disabled
/-- ATS_TRANSLATION_TIMEOUT (R456): a translation error. -/
def execAtsTranslationTimeout (ctx page : Nat) (s : State) : Host.Outcome State Fault Refusal :=
  match answerAts s ctx page .refused with
  | some s => .next s
  | none => disabled
/-- The posted replies of a context are applied in the order they were posted, and cleared (R388). -/
def applyPosted (s : State) (ctx : Nat) : State :=
  match Tbl.get? s.ctxs ctx with
  | none => s
  | some x =>
    let die := sliceDie s x.slice
    x.faults.foldl (fun s f =>
      let s' := clearFault s ctx f
      match postedFault s ctx f with
      | some (page, status) => applyReply (noteTime s' die) ctx page status f.teams (sendTime s' die 0x34)
      | none => s') (s.modCtx ctx fun x => { x with faults := [] })

end Sys2Proof.Machine
end

