-- ==== Sys2Proof/Machine/Dispatcher.lean ====
section
/-! DEFINITION. The ready queue's head, the steps before dispatch, the placing of teams and mirror groups, the spilling of what an
incoming team claims of a halted one, the compactor and the heat sweeper (12 R338 to R344, 13 R380 to R384, 06 R168, 15 R447). -/
namespace Sys2Proof.Machine

/-- The operations that a LAUNCH released are performed, so that its grid is on the queue (R347). -/
def Entry.arrived (s : State) (e : Entry) : Bool :=
  match e.after with
  | none => true
  | some (key, n) => orderOver s key n false true true && queueDrained s (coreOf key) n
/-- The order of R339: priority falling, TINDEX rising, relaunches first, arrival. -/
def headKey (prio tindex relaunch arrival : Nat) : Nat := (((7 - prio) * 2 ^ 32 + tindex) * 2 + (1 - relaunch)) * 2 ^ 64 + arrival
/-- The entries of a context's ready queue that have arrived, with their keys of order. -/
def readyEntries (s : State) (ctx : Nat) : List (Nat × Nat) :=
  (s.entries.filter fun p => p.2.ctx == ctx && p.2.st == .queued && p.2.arrived s).map fun p =>
    (headKey p.2.rec_.prio p.2.rec_.tindex 0 p.2.arrival, p.1)
/-- The least key of a list of keys with values. -/
def least : List (Nat × Nat) → Option (Nat × Nat)
  | [] => none
  | x :: t => match least t with | some y => if y.1 < x.1 then some y else some x | none => some x
/-- The team's halt is complete. -/
def Team.isHalted (t : Team) : Bool := match t.halt with | .halted _ => true | _ => false
/-- The keys of the context's halted teams that a relaunch has queued (R308). -/
def relaunchKeys (s : State) (ctx : Nat) : List (Nat × Nat) :=
  s.teams.filterMap fun p => p.2.relaunch.bind fun n =>
    if p.2.ctx == ctx && p.2.isHalted then
      some (headKey p.2.prio (match Tbl.get? s.entries p.2.entry with | some e => e.rec_.tindex | none => 0) 1 n, p.1)
    else none
/-- The slice is being merged into another, and its contexts are halted (R429). -/
def merging (s : State) (i : Nat) : Bool := (s.slice i).stat.extractLsb' 4 4 == 4
/-- The dispatcher serves a context when no other function runs on its slice (R385, R436) and the slice is not under reset. -/
def serves (s : State) (x : Ctx) : Bool :=
  !underReset s x.slice && !frontHeld s x.slice && !merging s x.slice && (s.func x.func).enabled &&
    match (s.slice x.slice).running with | some f => f == x.func | none => true
/-- What the dispatcher serves next of a context's ready queue (R339): an entry, or the relaunch of a team. -/
inductive Head where
  | entry (id : Nat) (e : Entry) | relaunch (team : Nat) | empty
  deriving DecidableEq, Repr
def headOf (s : State) (ctx : Nat) : Head :=
  let entry := fun (e : Nat) => match Tbl.get? s.entries e with | some v => Head.entry e v | none => .empty
  match least (readyEntries s ctx), least (relaunchKeys s ctx) with
  | some (_, e), none => entry e
  | some (k, e), some (j, t) => if j < k then .relaunch t else entry e
  | none, some (_, t) => .relaunch t
  | none, none => .empty
/-- The head entry of a context that is served; none while a relaunch comes first. -/
def headEntry (s : State) (ctx : Nat) : Option (Nat × Entry) :=
  match Tbl.get? s.ctxs ctx, headOf s ctx with
  | some x, .entry id e => if serves s x then some (id, e) else none
  | _, _ => none

/-- A core is out of service. -/
def coreDown (s : State) (core : Nat) : Bool := (s.core core).fenced || s.svc.fenced.contains (core / 32)
/-- A core could hold one team with nothing else resident and under its current carve (R344). -/
def couldHold (s : State) (r : LaunchRec) (core : Nat) : Bool :=
  !coreDown s core && decide (r.teamsz * (r.vregs * r.width) ≤ Config.rowsPerCore) && decide (r.scratch ≤ (s.core core).pool)
/-- The cores of a slice on a die that satisfy a test. -/
def coresOnDie (cs : List Nat) (d : Nat) : List Nat := cs.filter fun c => c / 32 == d
/-- The wide levels of a record, with their counts (R335), what the network holds at an instance (R28), and the slice's share. -/
def wideNeeds (sl : Slice) (r : LaunchRec) : List (Nat × Nat × Nat × Nat) :=
  [(2, r.wquad, 64, sl.wide.1), (3, r.wdie, 128, sl.wide.2.1), (4, r.wmod, 256, sl.wide.2.2.1), (5, r.wpod, 256, sl.wide.2.2.2)].filter
    fun p => p.2.1 != 0
/-- The claimed contexts of a level at an instance: of one slice, or of all. -/
def claimedAt (s : State) (level inst : Nat) (slice : Option Nat) : Nat :=
  (s.wide.filter fun p =>
    p.1 % 2 ^ 12 == inst &&
    match Tbl.get? s.entries (p.1 / 2 ^ 20) with
    | some e => wideLevel e.rec_ (p.1 / 2 ^ 12 % 256) == level &&
        (match slice with
         | none => true
         | some i => (match Tbl.get? s.ctxs e.ctx with | some x => x.slice == i | none => false))
    | none => false).length
/-- The contexts to claim for a record; none when a level has too few (R344 step 4). -/
def wideClaims (s : State) (eid slice : Nat) (r : LaunchRec) : Option (List Nat) :=
  let cs := sliceCores s slice
  let ok := (wideNeeds (s.slice slice) r).all fun p =>
    (cs.map (instanceOf p.1)).eraseDups.all fun i =>
      decide (claimedAt s p.1 i (some slice) + p.2.1 ≤ p.2.2.2) && decide (claimedAt s p.1 i none + p.2.1 ≤ p.2.2.1)
  if ok then
    some ((List.range (r.wquad + r.wdie + r.wmod + r.wpod)).flatMap fun k =>
      (cs.map (instanceOf (wideLevel r (128 + k)))).eraseDups.map fun i => wideKey eid (128 + k) i)
  else none
/-- Steps 1 to 3 of R344: the status of the first that fails. -/
def earlyStatus (s : State) (x : Ctx) (r : LaunchRec) : Option (BitVec 16) :=
  let top := 2 ^ 56 - 2 ^ 40
  let cs := (sliceCores s x.slice).filter (couldHold s r)
  if !r.ok then some 0x0001
  else if decide (top < r.image + r.ilen) || r.ranges.any fun d => decide (top < d.base + d.len) then some 0x0002
  else if cs.isEmpty then some 0x0006
  else if r.mirror ≠ 0 ∧ ((List.range Config.dies).any fun d => decide (r.mirror ≤ (coresOnDie cs d).length)) = false then some 0x0008
  else none
/-- A function that begins to run has the replies that were posted meanwhile (R436). -/
def applyAllPosted (s : State) (slice func : Nat) : State :=
  (s.ctxs.filter fun p => p.2.slice == slice && p.2.func == func).foldl (fun s p => applyPosted s p.1) s
/-- A function runs on a slice; one that did not run begins a quantum (R436). -/
def runFunc (s : State) (slice func : Nat) : State :=
  if (s.slice slice).running = some func then s
  else applyAllPosted (s.modSlice slice fun sl => { sl with running := some func, since := s.time.master }) slice func
/-- Step 5 of R344 for an entry that has passed the others: it fails, asks for translations or pages, waits for them, or is ready. -/
def translateEntry (s : State) (eid : Nat) (e : Entry) (x : Ctx) : Host.Outcome State Fault Refusal :=
  let (r, img) := xlatImage s x e.rec_ (e.rec_.ranges.foldl (xlatRange s x) {})
  let new := r.ask.filter fun p => (Tbl.get? x.ats p).isNone
  if !new.isEmpty then .next (s.modCtx e.ctx fun x => { x with ats := new.foldl (fun t p => Tbl.put t p none) x.ats })
  else if !r.ask.isEmpty then disabled
  else match r.err with
    | some st => .next ((failEntry (heatLeaves s r.leaves) eid st).modCtx e.ctx fun x => { x with ats := [] })
    | none =>
      if !r.absent.isEmpty then
        let here := fun (p : Nat) => e.rec_.ranges.filter fun d => decide (d.base / 65536 ≤ p ∧ p ≤ (d.base + d.len - 1) / 65536)
        .next ((r.absent.foldl (fun s p => requestPage s e.ctx p ((here p).any (·.r), (here p).any (·.w)) none) s).modEntry eid fun e => { e with asked := r.absent.eraseDups })
      else
        let s := heatLeaves s r.leaves
        let s := notePages (s.modEntry eid fun e => { e with extents := r.exts.reverse ++ img, ready := true }) e.ctx (r.exts ++ img)
        .next (runFunc (s.modCtx e.ctx fun x => { x with ats := [] }) x.slice x.func)
/-- DISPATCH_ENTRY (R344): the steps before the first team of the head entry. -/
def execDispatchEntry (ctx : Nat) (s : State) : Host.Outcome State Fault Refusal :=
  match headEntry s ctx, Tbl.get? s.ctxs ctx with
  | some (eid, e), some x =>
    if e.ready then disabled
    else if e.refused then
      let r := e.rec_.ranges.foldl (xlatRange s x) {}
      .next ((failEntry (heatLeaves s r.leaves) eid 0x0009).modCtx e.ctx fun x => { x with ats := [] })
    else if !e.asked.isEmpty then disabled
    else if e.claimed then translateEntry s eid e x
    else match earlyStatus s x e.rec_ with
      | some st => .next (failEntry s eid st)
      | none =>
        match wideClaims s eid x.slice e.rec_ with
        | none => .next (failEntry s eid 0x0005)
        | some ks =>
          .next ({ s with wide := ks.foldl (fun w k => Tbl.put w k {}) s.wide }.modEntry eid fun e => { e with claimed := true })
  | _, _ => disabled

/-- The free blocks of a register file: maximal aligned power-of-two blocks that meet no used block (R342). -/
def freeBlocks (used : List (Nat × Nat)) : Nat → Nat → Nat → List (Nat × Nat)
  | 0, _, _ => []
  | n + 1, a, z =>
    if used.all fun u => decide (u.1 + u.2 ≤ a ∨ a + z ≤ u.1) then [(a, z)]
    else freeBlocks used n a (z / 2) ++ freeBlocks used n (a + z / 2) (z / 2)
/-- The binary parts of a number of rows, greatest first. -/
def rowParts (rows : Nat) : List Nat := ((List.range 14).reverse.map (2 ^ ·)).filter fun z => decide (16 ≤ z) && rows / z % 2 == 1
/-- The buddy allocator (R342): each part takes the smallest free block that holds it, at the lowest address. -/
def allocParts : List Nat → List (Nat × Nat) → Option (List (Nat × Nat))
  | [], _ => some []
  | z :: zs, used =>
    let fs := (freeBlocks used 10 0 Config.rowsPerCore).filter fun b => decide (z ≤ b.2)
    match least (fs.map fun b => (b.2 * Config.rowsPerCore + b.1, b.1)) with
    | none => none
    | some (_, a) => (allocParts zs ((a, z) :: used)).map ((a, z) :: ·)
/-- The blocks of n crews of so many rows. -/
def allocCrews (rows : Nat) : Nat → List (Nat × Nat) → Option (List (List (Nat × Nat)))
  | 0, _ => some []
  | n + 1, used =>
    match allocParts (rowParts rows) used with
    | none => none
    | some b => (allocCrews rows n (b ++ used)).map (b :: ·)
/-- The teams that hold something on a core. -/
def teamsOn (s : State) (core : Nat) : List (Nat × Team) := s.teams.filter fun p => p.2.core == core
/-- The register blocks in use on a core. -/
def usedBlocks (s : State) (core : Nat) : List (Nat × Nat) := (teamsOn s core).flatMap fun p => p.2.blocks.map (·.2)
/-- The free units of the scratchpad pool, rising, without those that a carve change is taking (R180). -/
def freeUnits (s : State) (core : Nat) : List Nat :=
  below (min (s.core core).pool ((s.core core).sramcfg.extractLsb' 0 4).toNat) fun u => !(teamsOn s core).any fun p => p.2.units.contains u
/-- The free slots of a core. -/
def freeSlots (s : State) (core : Nat) : List Nat := below 64 fun i => (s.crew? (64 * core + i)).isNone
/-- What a team still holds of the tiles, the team contexts, the semaphores and the core barriers of its core. -/
def heldOn (s : State) (core : Nat) (f : Team → Nat) : Nat := (teamsOn s core).foldl (fun n p => n + f p.2) 0
def Team.tilesIn (t : Team) : Nat := t.ntile - t.tilesOut.length
def Team.ctxIn (t : Team) : Nat := if t.retired || t.ctxOut.isSome then 0 else 1
def Team.semsIn (t : Team) : Nat := if t.ctxOut.isSome then 0 else t.nsem
def Team.cbarsIn (t : Team) : Nat := if t.ctxOut.isSome then 0 else t.ncbar
/-- A team of a record fits a core as it stands (R340), but for its register rows. -/
def fitsBut (s : State) (r : LaunchRec) (core : Nat) : Bool :=
  !coreDown s core && decide (r.teamsz ≤ (freeSlots s core).length) && decide (r.scratch ≤ (freeUnits s core).length) &&
  decide (heldOn s core Team.tilesIn + r.tiles ≤ 64) && decide (heldOn s core Team.semsIn + r.sems ≤ 64) &&
  decide (heldOn s core Team.cbarsIn + r.cbars ≤ 128) && decide (heldOn s core Team.ctxIn < 16)
/-- A team of a record fits a core as it stands. -/
def fits (s : State) (r : LaunchRec) (core : Nat) : Bool :=
  fitsBut s r core && decide (r.teamsz * (r.vregs * r.width) ≤ freeRows s core) &&
    (allocCrews (r.vregs * r.width) r.teamsz (usedBlocks s core)).isSome

/-- Crews and what waits for them take a new key: a slot is spilled, or a crew is reloaded into a slot (R380, R383). -/
def renameCrew (s : State) (old new : Nat) : State :=
  match s.crew? old with
  | none => s
  | some c =>
    let k := fun (x : Nat) => if x = old then new else x
    let kp := fun (p : Nat × Word) => (k p.1, p.2)
    let kq := fun (p : Nat × Nat) => (k p.1, p.2)
    let ks := fun (q : Nat × Nat) => (q.1, k q.2)
    let bar := fun (b : Barrier) => { b with dropped := b.dropped.map k, pend := (b.pend.map kp).foldl (fun t p => Tbl.put t p.1 p.2) [],
                                             here := b.here.map k }
    let item := fun (i : TraceItem) => { i with crew := i.crew.map k }
    let msg := fun (m : WideMsg) => { m with crew := k m.crew }
    let mon := fun (m : Monitor) => { m with crew := k m.crew }
    let s := { s with
      crews := Tbl.put (Tbl.del s.crews old) new c
      ops := Tbl.mapV s.ops fun o => { o with crew := k o.crew }
      entries := Tbl.mapV s.entries fun e => { e with after := e.after.map kq }
      wide := Tbl.mapV s.wide bar
      wideMsgs := s.wideMsgs.map msg
      monitors := s.monitors.map mon
      fabric := { s.fabric with items := s.fabric.items.map item }
      promoted := s.promoted.filter (· != old) }
    s.modTeam c.team fun t => { t with
      crews := t.crews.map k, ended := t.ended.map k, semWait := t.semWait.map ks, bars := Tbl.mapV t.bars bar }
/-- An address of one unit of a core as the same place of another. -/
def moveAddr (src dst a : Nat) : Nat := if src ≤ a ∧ a < src + Config.unitBytes then a - src + dst else a
/-- A scratchpad unit moves whole with everything that names its bytes (R380, R381): to the save area in device memory, or back. -/
def moveUnit (s : State) (tid i new : Nat) : State :=
  match s.team? tid with
  | none => s
  | some t =>
    let n := Config.unitBytes
    let src := unitAddr t.core (t.units.getD i 0) 0
    let dst := unitAddr t.core new 0
    let p := unitAttr s t src
    let q := unitAttr s t dst
    let bad := if s.poison.isEmpty then [] else ((List.range (n / 4)).map (4 * ·)).filter fun o => poisoned s (src + o)
    let acc := fun (a : Acc) => if src ≤ a.pa ∧ a.pa < src + n then { a with pa := a.pa - src + dst, home := q.home, key := q.key } else a
    let kind := fun (k : OpKind) => match k with
      | .copy sem ps => .copy sem (ps.map fun p => { p with src := p.src.map acc, dst := acc p.dst })
      | k => k
    let s := performBytes s none none q dst (readBytes s p.key src n) false (storeCause none)
    let s := bad.foldl (fun s o => poisonBytes s ((List.range 4).map fun i => dst + o + i)) s
    let gone := fun (a : Nat) => inScratch src && decide (src ≤ a ∧ a < src + n)
    { s with
      mem := s.mem.filter fun c => !gone c.1
      poison := s.poison.filter fun a => !gone a
      ops := Tbl.mapV s.ops fun o => if o.team = tid then { o with accs := o.accs.map acc, kind := kind o.kind } else o
      crews := Tbl.mapV s.crews fun c => if c.team = tid then { c with buf := c.buf.map acc } else c
      teams := Tbl.put s.teams tid { t with units := t.units.set i new } }
/-- The halted teams of a core whose units an incoming team may claim (R380), oldest first. -/
def haltedOn (s : State) (core : Nat) : List (Nat × Team) :=
  (teamsOn s core).filter fun p => p.2.isHalted
/-- The next claim among the halted teams of a core: what `pick` names of a team, and its place in the save area of the team's context. -/
def nextClaim (s : State) (core : Nat) (pick : Nat → Team → Option Nat) (place : Team → Option Nat) : Option (Nat × Team × Nat × Nat) :=
  (haltedOn s core).findSome? fun p => (pick p.1 p.2).bind fun x => (place p.2).map fun a => (p.1, p.2, x, a)
/-- Slots are claimed until enough are free. -/
def claimSlots (n : Nat) (core : Nat) : Nat → State → State
  | 0, s => s
  | fuel + 1, s =>
    if n ≤ (freeSlots s core).length then s
    else match nextClaim s core (fun _ t => t.crews.find? fun k => decide (k < 2 ^ 17)) (fun t => slotPlace s t.ctx core) with
      | some (_, _, k, a) =>
        let new := 2 ^ 17 * (s.nextId + 1) + k
        claimSlots n core fuel ((renameCrew { s with nextId := s.nextId + 1 } k new).modCrew new fun c => { c with saved := some a })
      | none => s
/-- Scratchpad units are claimed. -/
def claimUnits (n : Nat) (core : Nat) : Nat → State → State
  | 0, s => s
  | fuel + 1, s =>
    if n ≤ (freeUnits s core).length then s
    else
      let cut := min (s.core core).pool ((s.core core).sramcfg.extractLsb' 0 4).toNat
      match nextClaim s core (fun _ t => t.units.findIdx? fun u => decide (u < cut)) (fun t => unitPlace s t.ctx core) with
      | some (tid, _, i, a) => claimUnits n core fuel (moveUnit s tid i (2 ^ 20 + a / Config.unitBytes))
      | none => s
/-- Tiles are claimed, once no step on them is outstanding. -/
def claimTiles (n : Nat) (core : Nat) : Nat → State → State
  | 0, s => s
  | fuel + 1, s =>
    if heldOn s core Team.tilesIn + n ≤ 64 then s
    else
      let idle := fun (tid : Nat) (t : Team) => if s.ops.any fun q => q.2.team == tid && q.2.cls == some .tile && !q.2.done then none
        else (List.range t.ntile).find? fun i => (Tbl.get? t.tilesOut i).isNone
      match nextClaim s core idle (fun t => tilePlace s t.ctx core) with
      | some (tid, t, i, a) => claimTiles n core fuel (s.setTeam tid { t with tilesOut := Tbl.put t.tilesOut i a })
      | none => s
/-- Team contexts are claimed, with their semaphores and core barriers. -/
def claimCtxs (r : LaunchRec) (core : Nat) : Nat → State → State
  | 0, s => s
  | fuel + 1, s =>
    if heldOn s core Team.semsIn + r.sems ≤ 64 ∧ heldOn s core Team.cbarsIn + r.cbars ≤ 128 ∧ heldOn s core Team.ctxIn < 16 then s
    else match nextClaim s core (fun _ t => if t.ctxIn = 1 then some 0 else none) (fun t => ctxPlace s t.ctx core) with
      | some (tid, t, _, a) => claimCtxs r core fuel (s.setTeam tid { t with ctxOut := some a })
      | none => s
/-- Register blocks are claimed, one crew's at a time. -/
def claimRows (r : LaunchRec) (core : Nat) : Nat → State → State
  | 0, s => s
  | fuel + 1, s =>
    if r.teamsz * (r.vregs * r.width) ≤ freeRows s core ∧ (allocCrews (r.vregs * r.width) r.teamsz (usedBlocks s core)).isSome = true then s
    else match nextClaim s core (fun _ t => (t.blocks.head?).map (·.1)) (fun t => rowPlace s t.ctx core t.rowLen) with
      | some (tid, t, i, a) =>
        claimRows r core fuel (s.setTeam tid { t with blocks := t.blocks.filter (fun b => b.1 != i), rowsOut := Tbl.put t.rowsOut i a })
      | none => s
/-- The units of halted teams that a team of a record claims on a core are spilled (R380). -/
def claimOn (s : State) (r : LaunchRec) (core : Nat) : State :=
  let s := claimSlots r.teamsz core 64 s
  let s := claimUnits r.scratch core 12 s
  let s := claimTiles r.tiles core 64 s
  claimRows r core 64 (claimCtxs r core 16 s)
/-- The lowest free place of a block below its own, if there is one. -/
def lowerPlace (used : List (Nat × Nat)) (b : Nat × Nat) : Option Nat :=
  ((List.range (b.1 / b.2)).map (· * b.2)).find? fun a => used.all fun u => decide (a + b.2 ≤ u.1 ∨ u.1 + u.2 ≤ a)
/-- The blocks of one crew of a team move to the lowest free space (R343). -/
def lowerCrew (s : State) (tid : Nat) (t : Team) (idx : Nat) : State :=
  let top := sortKey (fun b => Config.rowsPerCore - b.2.1) (t.blocks.filter fun b => b.1 == idx)
  top.foldl (fun s b =>
    match lowerPlace (usedBlocks s t.core) b.2 with
    | some a => s.modTeam tid fun t => { t with blocks := t.blocks.map fun q => if q == b then (b.1, a, b.2.2) else q }
    | none => s) s
/-- The crews of running teams of a core, those of the highest addresses first: team and index. -/
def highCrews (s : State) (core : Nat) : List (Nat × Nat) :=
  let bs := ((teamsOn s core).filter fun p => p.2.halt == .running).flatMap fun p => p.2.blocks.map fun b => (p.1, b.1, b.2.1)
  ((sortKey (fun b => Config.rowsPerCore - b.2.2) bs).map fun b => (b.1, b.2.1)).eraseDups
/-- The compactor's next move on a core (R343): the crew of the highest addresses that can move lower, and the state after it. Rows of halted
teams stay. -/
def compactStep (s : State) (core : Nat) : Option (Nat × Nat × State) :=
  (highCrews s core).findSome? fun c =>
    match s.team? c.1 with
    | some t => let s' := lowerCrew s c.1 t c.2
                if s'.teams = s.teams then none else some (c.1, c.2, s')
    | none => none
/-- Compaction makes a core serve a purpose after some moves. -/
def packs (ok : State → Bool) (core : Nat) : Nat → State → Bool
  | 0, s => ok s
  | fuel + 1, s => ok s || match compactStep s core with | some (_, _, s') => packs ok core fuel s' | none => false
/-- Compaction would make a team of a record fit a core (R340, R343). -/
def fitsPacked (s : State) (r : LaunchRec) (core : Nat) : Bool :=
  fitsBut s r core && decide (r.teamsz * (r.vregs * r.width) ≤ freeRows s core) && packs (fun s => fits s r core) core 1024 s

/-- The slot of a team's next crew (R341): in the quadrant with the most free slots, the lowest such slot. -/
def nextSlot (free : List Nat) : Option Nat :=
  let count := fun (q : Nat) => (free.filter fun i => i / 16 == q).length
  let q := (List.range 4).foldl (fun b q => if count b < count q then q else b) 0
  free.find? fun i => i / 16 == q
def takeSlots : Nat → List Nat → List Nat
  | 0, _ => []
  | n + 1, free => match nextSlot free with | some i => i :: takeSlots n (setDel free i) | none => []
/-- The scalar registers of a starting crew (R338). -/
def seeded (e : Entry) (tidx : Nat) : Sparse 64 :=
  let l := (e.rec_.args.take 4).mapIdx (fun i v => (56 + i, v)) ++ [(60, BitVec.ofNat 64 e.addr), (61, BitVec.ofNat 64 tidx)]
  l.foldl (fun r p => Sparse.set r p.1 p.2) []
/-- A team of an entry is placed on a core that it fits, and its crews start (R338, R340, R341). -/
def placeOn (s : State) (eid : Nat) (e : Entry) (core : Nat) (group : List Nat) : State :=
  let r := e.rec_
  let tid := s.nextId
  let slots := takeSlots r.teamsz (freeSlots s core)
  let keys := slots.map fun i => 64 * core + i
  let blocks := match allocCrews (r.vregs * r.width) r.teamsz (usedBlocks s core) with
    | some bs => (bs.mapIdx fun i b => b.map fun x => (i, x.1, x.2)).flatten
    | none => []
  let t : Team := { entry := eid, ctx := e.ctx, tidx := e.next, core := core, crews := keys, units := (freeUnits s core).take r.scratch,
                    blocks := blocks, width := r.width, nvreg := 16 * r.vregs, nsem := r.sems, ntile := r.tiles, ncbar := r.cbars,
                    nwide := r.wquad + r.wdie + r.wmod + r.wpod, ranges := r.ranges, extents := e.extents,
                    trapv := BitVec.ofNat 56 r.trapv, prio := r.prio, monthr := r.monthr, group := group }
  let s := { s with nextId := s.nextId + 1, teams := Tbl.put s.teams tid t }
  let s := (keys.mapIdx fun i k => (i, k)).foldl (fun s p =>
    s.setCrew p.2 { team := tid, idx := p.1, pc := BitVec.ofNat 56 r.entry, sregs := seeded e e.next, rseed := r.rseed }) s
  let s := s.modEntry eid fun e => { e with next := e.next + 1, st := if e.next + 1 = r.teams then .active else e.st }
  let s := keys.foldl (fun s k => match s.crew? k with | some c => beginCrew s k c | none => s) s
  applyInvs s core
/-- The cores of a slice that take teams, in the order of R340: ascending after the cursor, wrapping round. -/
def coreOrder (s : State) (slice : Nat) : List Nat :=
  let sl := s.slice slice
  let cs := (sliceCores s slice).filter fun c => !sl.leaving.contains (.core c)
  match sl.cursor with
  | none => cs
  | some k => (cs.filter fun c => decide (k < c)) ++ cs.filter fun c => decide (c ≤ k)
/-- The compactor's budget of a die is not zero (R447). -/
def mayCompact (s : State) (core : Nat) : Bool := (budgetOf s (core / 32)).1.extractLsb' 16 16 != 0
/-- The head entry is ready for placing. -/
def placing (s : State) (ctx : Nat) : Option (Nat × Entry × Nat) :=
  match headEntry s ctx, Tbl.get? s.ctxs ctx with
  | some (eid, e), some x => if e.ready then some (eid, e, x.slice) else none
  | _, _ => none
/-- The dispatcher chooses a core for compaction, for a context's head entry or a team that resumes. -/
def chooseCore (s : State) (sl core ctx : Nat) (team : Option Nat) (entry : Nat) : Host.Outcome State Fault Refusal :=
  if (s.slice sl).compact = some (core, ctx, team, entry) then disabled
  else .next (s.modSlice sl fun x => { x with compact := some (core, ctx, team, entry) })
/-- PLACE_TEAM (R340): on the first core that the team fits, as it stands or by claiming units of halted teams; else a core is chosen
for compaction. -/
def execPlaceTeam (ctx : Nat) (s : State) : Host.Outcome State Fault Refusal :=
  match placing s ctx with
  | none => disabled
  | some (eid, e, sl) =>
    if e.rec_.mirror ≠ 0 then disabled
    else
      let order := coreOrder s sl
      let put := fun (s : State) (c : Nat) =>
        Host.Outcome.next ((placeOn s eid e c []).modSlice sl fun x => { x with cursor := some c, compact := none })
      match order.find? (fits s e.rec_) with
      | some c => put s c
      | none =>
        match order.find? fun c => fits (claimOn s e.rec_ c) e.rec_ c with
        | some c => put (claimOn s e.rec_ c) c
        | none =>
          match order.find? fun c => mayCompact s c && fitsPacked s e.rec_ c with
          | some c => chooseCore s sl c ctx none eid
          | none => disabled
/-- The cores of a die for a mirror group: the lowest so many that satisfy a test. -/
def groupCores (s : State) (slice g : Nat) (ok : Nat → Bool) : Option (List Nat) :=
  let cs := (sliceCores s slice).filter fun c => !(s.slice slice).leaving.contains (.core c)
  let d0 := match (s.slice slice).cursor with | some c => c / 32 | none => (cs.getLastD 0) / 32
  let dies := ((List.range Config.dies).filter fun d => decide (d0 ≤ d)) ++ (List.range Config.dies).filter fun d => decide (d < d0)
  let pick := fun (d : Nat) => ((coresOnDie cs d).filter ok).take g
  (dies.find? fun d => (pick d).length == g).map pick
/-- The members of a mirror group are placed on their cores (R341, R191). -/
def placeGroup (s : State) (eid sl : Nat) (cs : List Nat) : State :=
  let ids := (List.range cs.length).map fun i => s.nextId + i
  let s := cs.foldl (fun s c => match Tbl.get? s.entries eid with | some e => placeOn s eid e c ids | none => s) s
  s.modSlice sl fun x => { x with cursor := cs.getLast?, compact := none }
/-- PLACE_MIRROR_GROUP (R341). -/
def execPlaceMirrorGroup (ctx : Nat) (s : State) : Host.Outcome State Fault Refusal :=
  match placing s ctx with
  | none => disabled
  | some (eid, e, sl) =>
    let g := e.rec_.mirror
    if g = 0 then disabled
    else match groupCores s sl g (fits s e.rec_) with
      | some cs => .next (placeGroup s eid sl cs)
      | none =>
        match groupCores s sl g (fun c => fits (claimOn s e.rec_ c) e.rec_ c) with
        | some cs => .next (placeGroup (cs.foldl (fun s c => claimOn s e.rec_ c) s) eid sl cs)
        | none =>
          match groupCores s sl g (fun c => fits s e.rec_ c || mayCompact s c && fitsPacked s e.rec_ c) with
          | some cs =>
            match cs.find? fun c => !fits s e.rec_ c with
            | some c => chooseCore s sl c ctx none eid
            | none => disabled
          | none => disabled
/-- Its crews have register blocks again, if there is room. -/
def reloadRows (s : State) (tid : Nat) (t : Team) : Option State :=
  let rows := t.nvreg * t.width / 16
  match allocCrews rows t.rowsOut.length (usedBlocks s t.core) with
  | none => none
  | some bs =>
    let new := ((t.rowsOut.zip bs).map fun p => p.2.map fun b => (p.1.1, b.1, b.2)).flatten
    if freeRows s t.core < t.rowsOut.length * rows then none
    else
      let back := fun (s : State) (q : Nat × Nat) => match crewAt s t q.1 with
        | some k => s.modCrew k (takeRows t (savedBytes s t.ctx q.2 t.rowLen))
        | none => s
      some ((t.rowsOut.foldl back s).modTeam tid fun t => { t with blocks := t.blocks ++ new, rowsOut := [] })
/-- What has chosen a core for compaction still waits for it: the head entry of a context to fit, or a halted team for its rows (R343,
R383). -/
def waitsFor (s : State) (c : Nat × Nat × Option Nat × Nat) : Bool :=
  match c.2.2.1 with
  | some tid => (match s.team? tid with | some t => t.isHalted && (reloadRows s tid t).isNone | none => false)
  | none => (match placing s c.2.1 with | some (id, e, _) => id == c.2.2.2 && !fits s e.rec_ c.1 | none => false)
/-- COMPACTOR_MOVE (R343, R447): on the core that the dispatcher has chosen, until the blocks that are waited for are free, the blocks of the
crew of the highest addresses move to the lowest free space, within the budget of the period. -/
def execCompactorMove (core crew : Nat) (s : State) : Host.Outcome State Fault Refusal :=
  match s.crew? crew, compactStep s core with
  | some c, some (tid, idx, s') =>
    let rows := match s.team? tid with | some t => t.nvreg * t.width / 16 | none => 0
    let wanted := s.slices.any fun p => match p.2.compact with | some q => q.1 == core && waitsFor s q | none => false
    if !wanted || c.team != tid || c.idx != idx ||
        decide (((budgetOf s (core / 32)).1.extractLsb' 16 16).toNat < spentOf s 2 core + rows) then disabled
    else .next (spend s' 2 core rows)
  | _, _ => disabled

/-- The leaves of a context's tables: flat addresses of entries that are present leaves, with the size of what each maps. -/
def spansFrom (s : State) : List (Nat × Nat × Bool × Bool × Nat) → Nat → List (Nat × Nat)
  | [], _ => []
  | (sh, n, leafOk, leafMust, _) :: rest, table =>
    (List.range n).flatMap fun i =>
      let a := table + 8 * i
      let e := tableWord s a
      if !e.getLsbD 0 || anyPoison s a 8 then []
      else if e.getLsbD 2 then (if leafOk then [(a, 2 ^ sh)] else [])
      else if leafMust then []
      else spansFrom s rest ((e.extractLsb' 8 44).toNat * 256)
def leavesFrom (s : State) (levels : List (Nat × Nat × Bool × Bool × Nat)) (table : Nat) : List Nat := (spansFrom s levels table).map (·.1)
/-- HEAT_SWEEP (R168, R447): the front end of the slice's lowest die lowers the heat of each leaf by one; what it visits beyond the
period's budget it leaves to the next period. -/
def execHeatSweep (ctx : Nat) (s : State) : Host.Outcome State Fault Refusal :=
  match Tbl.get? s.ctxs ctx with
  | none => disabled
  | some x =>
    let die := sliceDie s x.slice
    let left := ((budgetOf s die).2.extractLsb' 16 16).toNat - spentOf s 4 die
    let ls := (leavesFrom s walkLevels x.root).drop x.swept
    let now := ls.take left
    if left = 0 then disabled
    else
      let s := now.foldl (fun s a => changeLeaf s a fun e => heatDown 14 (heatDown 12 e)) s
      let s := s.modCtx ctx fun x => { x with swept := if now.length < ls.length then x.swept + now.length else 0 }
      .next (spend s 4 die now.length)

end Sys2Proof.Machine
end

