-- ==== Sys2Proof/Machine/Halt.lean ====
section
/-! DEFINITION. Halting and resuming teams, translation invalidations, world switches and the teardown of a context (13 R378 to
R386, 06 R174, 10 R308, R309, 12 R348, 15 R436, 16 R457). -/
namespace Sys2Proof.Machine

/-- The codes of a halt in the HALT and RESUME records, and in REGABORT (R394). -/
def HaltWhy.code : HaltWhy → BitVec 8
  | .preempt => 1 | .invalidation => 2 | .threshold => 3
def Team.haltCode (t : Team) : BitVec 8 := match t.halt with | .halting w => w.code | .halted w => w.code | .running => 0
/-- A crew that takes a trap and has not come to step 4 of R363 does so before it halts (R367); one that stalls there for trace space
counts as stopped (R413, log entry 50), and one that waits at a barrier is in the state of R318. -/
def Crew.trapping (c : Crew) : Bool :=
  c.pending.isSome && c.stalled.isNone && !c.inBarrier && c.wait != .ended && c.wait != .stopped
/-- The front end of a context's slice sends a command; its time, plus one (R398). -/
def frontSend (s : State) (ctx : Nat) : State × Nat :=
  let die := sliceDie s (match Tbl.get? s.ctxs ctx with | some x => x.slice | none => 0)
  (noteTime s die, sendTime s die 0x34 + 1)
/-- A crew stops at an instruction boundary (R378 steps 1 and 2): its region is aborted, its speculation rolled back, a wait in an
instruction that issues again is left, and a barrier wait or a wait for pages is kept. A stall for trace space ends (R413). -/
def haltCrew (s : State) (key : Nat) (why : HaltWhy) (sent : Nat) : State :=
  match s.crew? key with
  | none => s
  | some c =>
    if c.wait = .ended ∨ c.wait = .stopped ∨ c.trapping = true then s
    else
      let s := if c.pending.isSome then s else rollback (abortRegion s key (why.code + 1) sent) key 6 0 sent
      let s := s.modCrew key fun c => { c with
        spare := none
        fenceAt := none
        wait := match c.wait with
          | .barrier h p => .barrier h p
          | .demand ps i => .demand ps i
          | .armed => .armed
          | _ => .none }
      match s.crew? key with
      | some c => emitCrewA (stallOver s key c).1 key 0x04 why.code (pcBits c.pc) sent
      | none => s
/-- A halt of a team begins (R378): crews stop, Trivet entries are dissolved (R276), monitors are removed or, on a threshold, become
relaunch entries (R308, R309), and a BARI that waits is withdrawn to issue again. -/
def haltTeam (s : State) (tid : Nat) (why : HaltWhy) : State :=
  match s.team? tid with
  | none => s
  | some t =>
    if t.halt ≠ .running then
      (if why = .preempt then s.modTeam tid fun t => { t with halt := match t.halt with
        | .halting .invalidation => .halting .preempt
        | .halted .invalidation => .halted .preempt
        | h => h } else s)
    else
      let isArm := fun (m : WideMsg) => match m.what with | .arm _ => t.crews.contains m.crew | _ => false
      let toRelaunch := fun (m : Monitor) => if m.team = tid then { m with relaunch := true } else m
      let ms := if why = HaltWhy.threshold then s.monitors.map toRelaunch
        else s.monitors.filter fun m => !(m.team == tid && !m.relaunch)
      let (s, sent) := frontSend s t.ctx
      let s := { s with
        monitors := ms
        wideMsgs := s.wideMsgs.filter fun m => !isArm m }
      let s := s.modCore t.core fun k => { k with trivet := k.trivet.filter fun r => r.team != tid }
      let s := s.modTeam tid fun t => { t with halt := .halting why, haltSent := sent, semWait := [] }
      t.crews.foldl (fun s k => haltCrew s k why sent) s
/-- Every crew of the team has stopped, and step 1 of every abort is done (R378 step 3, R367). -/
def haltDone (s : State) (t : Team) : Bool :=
  (t.crews.all fun k => match s.crew? k with | some c => !c.trapping | none => true) &&
  !s.ops.any fun p => t.crews.contains p.2.crew && p.2.quiet && !p.2.done

/-- The crews of a team have slots again, if there are enough free ones (R383). -/
def reloadSlots (s : State) (t : Team) : Option State :=
  let out := t.crews.filter fun k => decide (2 ^ 17 ≤ k)
  let slots := takeSlots out.length (freeSlots s t.core)
  if slots.length < out.length then none
  else some ((out.zip slots).foldl (fun s p =>
    let back := fun (c : Crew) => match c.saved with | some a => { takeSlot (savedBytes s t.ctx a 640) c with saved := none } | none => c
    renameCrew (s.modCrew p.1 back) p.1 (64 * t.core + p.2)) s)
/-- Its scratchpad units are on the core again. -/
def reloadUnits (tid : Nat) : Nat → State → Option State
  | 0, s => some s
  | fuel + 1, s =>
    match s.team? tid with
    | none => none
    | some t =>
      match t.units.findIdx? fun u => decide (2 ^ 20 ≤ u), freeUnits s t.core with
      | none, _ => some s
      | some i, u :: _ => reloadUnits tid fuel (moveUnit s tid i u)
      | some _, [] => none
/-- Its tiles and its team context are on the core again; an element that memory holds poisoned is poisoned (R375). -/
def reloadParts (s : State) (tid : Nat) (t : Team) : State :=
  let tile := fun (t : Team) (q : Nat × Nat) =>
    let t := takeTile q.1 (savedBytes s t.ctx q.2 4096) t
    { t with tilePois := ((List.range 1024).filter fun j => anyPoison s (q.2 + 4 * j) 4).foldl (fun l j => setAdd l (1024 * q.1 + j)) t.tilePois }
  let t := t.tilesOut.foldl tile t
  let t := match t.ctxOut with | some a => takeCtx (savedBytes s t.ctx a 1536) t | none => t
  s.setTeam tid { t with tilesOut := [], ctxOut := none }
/-- Every spilled unit of a team is back (R383 step 2); none while there is no room. -/
def reloadTeam (s : State) (tid : Nat) : Option State :=
  match s.team? tid with
  | none => none
  | some t =>
    let room := decide (heldOn s t.core Team.tilesIn + t.tilesOut.length ≤ 64) &&
      (t.ctxOut.isNone || (decide (heldOn s t.core Team.semsIn + t.nsem ≤ 64) && decide (heldOn s t.core Team.cbarsIn + t.ncbar ≤ 128) &&
        decide (heldOn s t.core Team.ctxIn < 16)))
    if !room then none
    else do
      let s ← reloadSlots (reloadParts s tid t) t
      let s ← reloadUnits tid 12 s
      let t ← s.team? tid
      reloadRows s tid t
/-- A halted team goes on (R383): units are reloaded, posted replies applied, and its crews issue again. State that cannot be read back from
the save area ends the entry (R377). -/
def resumeTeam (s : State) (tid : Nat) : Option State :=
  match s.team? tid with
  | none => none
  | some t =>
    if !t.isHalted then none
    else match savedBad s t with
    | some i => some (endEntry s t.entry 0x00FE (endDetail 0 3 i t.tidx))
    | none =>
      match reloadTeam s tid with
      | none => none
      | some s =>
        let s := { s with monitors := s.monitors.filter fun m => m.team != tid }
        let s := applyPosted s t.ctx
        let (s, sent) := frontSend (s.modTeam tid fun t => { t with halt := .running, relaunch := none }) t.ctx
        let keys := match s.team? tid with | some t => t.crews | none => []
        let s := keys.foldl (fun s k =>
          match s.crew? k with
          | some c => if c.wait = .ended ∨ c.wait = .stopped then s else emitCrewA s k 0x05 t.haltCode (pcBits c.pc) sent
          | none => s) s
        let s := match Tbl.get? s.ctxs t.ctx with
          | some x => runFunc s x.slice x.func
          | none => s
        some (checkDeadlock s tid)
/-- Reservations left in the pools of a slice's cores go back to the buffer (R409). -/
def returnPools (s : State) (slice : Nat) : State :=
  let cs := sliceCores s slice
  cs.foldl (fun s c => s.modCore c fun k => { k with granted := 0 }) s
/-- The teams of a function's contexts on a slice. -/
def teamsOfFunc (s : State) (slice func : Nat) : List (Nat × Team) :=
  s.teams.filter fun p => !p.2.retired &&
    match Tbl.get? s.ctxs p.2.ctx with | some x => x.slice == slice && x.func == func | none => false
/-- A world switch whose halts are complete brings in the next function, and resumes its teams (R385). -/
def finishSwitch (s : State) (slice : Nat) : State :=
  match (s.slice slice).switching, (s.slice slice).running with
  | some g, some f =>
    if (teamsOfFunc s slice f).all (·.2.isHalted) then
      let s := returnPools s slice
      let s := applyAllPosted (s.modSlice slice fun sl => { sl with running := some g, switching := none, since := s.time.master }) slice g
      (teamsOfFunc s slice g).foldl (fun s p =>
        if p.2.halt = .halted .preempt then (match resumeTeam s p.1 with | some s' => s' | none => s) else s) s
    else s
  | _, _ => s
/-- HALT_REQUEST (R378): for pre-emption. -/
def execHaltRequest (team : Nat) (s : State) : Host.Outcome State Fault Refusal :=
  match s.team? team with
  | some t => if t.retired then disabled else .next (haltTeam s team .preempt)
  | none => disabled
/-- HALT_COMPLETE (R378 step 3). A relaunch that was due joins the ready queue now (R309). -/
def execHaltComplete (team : Nat) (s : State) : Host.Outcome State Fault Refusal :=
  match s.team? team with
  | none => disabled
  | some t =>
    match t.halt with
    | .halting w =>
      if haltDone s t then
        let s := s.modTeam team fun t => { t with halt := .halted w, relaunch := if t.due then some s.nextId else t.relaunch, due := false }
        let s := { s with nextId := s.nextId + 1, svc := { s.svc with events := s.svc.events ++ [(5, team, 0, 0)] } }
        let s := dropPool s t.core team
        .next (match Tbl.get? s.ctxs t.ctx with | some x => finishSwitch s x.slice | none => s)
      else disabled
    | _ => disabled
/-- RESUME (R383): firmware asks for it, or, of a team that a relaunch has queued, the relaunch is what the dispatcher serves next (R339).
Where rows are lacking the core is chosen for compaction. -/
def execResume (team : Nat) (s : State) : Host.Outcome State Fault Refusal :=
  match s.team? team with
  | none => disabled
  | some t =>
    match Tbl.get? s.ctxs t.ctx with
    | none => disabled
    | some x =>
      if !serves s x || (t.halt == .halted .invalidation && s.invals.any fun p => p.2.teams.contains team) ||
          (t.relaunch.isSome && headOf s t.ctx != .relaunch team) then disabled
      else match resumeTeam s team with
        | some s => .next s
        | none =>
          if t.isHalted && mayCompact s t.core && packs (fun s => (reloadRows s team t).isSome) t.core 1024 s then
            chooseCore s x.slice t.core t.ctx (some team) t.entry
          else disabled
/-- MONITOR_THRESHOLD_HALT (R308): a WAITC of the crew has waited longer than the launch's threshold. -/
def execMonitorThresholdHalt (crew : Nat) (s : State) : Host.Outcome State Fault Refusal :=
  match s.crew? crew with
  | none => disabled
  | some c =>
    match s.team? c.team, s.monitors.find? fun m => m.crew == crew && !m.relaunch with
    | some t, some m =>
      if t.monthr ≠ 0 ∧ t.halt = .running ∧ t.monthr * 16000 < s.time.master - m.start then
        let s := emitA s (sliceDie s (match Tbl.get? s.ctxs t.ctx with | some x => x.slice | none => 0)) 0x34 (funcOfTeam s c.team) none 0x24 0 (BitVec.ofNat 32 t.tidx) 0 (some t.ctx)
        .next (haltTeam s c.team .threshold)
      else disabled
    | _, _ => disabled
/-- A function bound to the slice has work (R436): a ready entry, a mapped slot with entries to fetch, or a halted team that can
resume. -/
def hasWork (s : State) (slice func : Nat) : Bool :=
  (s.ctxs.any fun p => p.2.slice == slice && p.2.func == func && !(readyEntries s p.1).isEmpty) ||
  ((s.slice slice).slots.any fun p => p.2.func == func &&
    match Tbl.get? (s.func func).queues p.2.queue with | some q => q.head != q.tail | none => false) ||
  (teamsOfFunc s slice func).any fun p => p.2.halt == .halted .preempt || (p.2.relaunch.isSome && p.2.isHalted)
/-- QUANTUM_EXPIRY (R436): at the end of the running function's quantum the slice switches to the next bound function that has work, once no
halt is in progress; with no other function waiting, the function runs a new quantum. -/
def execQuantumExpiry (slice : Nat) (s : State) : Host.Outcome State Fault Refusal :=
  let sl := s.slice slice
  if sl.switching.isSome || merging s slice then disabled
  else
    let bound := (s.funcs.filter fun p => p.2.slice == slice && p.2.enabled).map (·.1)
    match sl.running with
    | none =>
      match bound.find? (hasWork s slice) with
      | some g => .next (runFunc s slice g)
      | none => .next s
    | some f =>
      if s.time.master < sl.since + (s.func f).quantum * 16000 then disabled
      else if (teamsOfFunc s slice f).any fun p => match p.2.halt with | .halting _ => true | _ => false then disabled
      else match ((bound.filter fun g => decide (f < g)) ++ bound.filter fun g => decide (g < f)).find? (hasWork s slice) with
        | none => .next (s.modSlice slice fun x => { x with since := s.time.master })
        | some g =>
          let s := s.modSlice slice fun x => { x with switching := some g }
          .next (finishSwitch ((teamsOfFunc s slice f).foldl (fun s p => haltTeam s p.1 .preempt) s) slice)

/-- The physical spans of an extent under virtual spans. -/
def physOf (spans : List (Nat × Nat)) (e : Extent) : List (Nat × Nat) :=
  if e.present then spans.flatMap fun v => (e.cut v.1 (v.1 + v.2)).map fun m => (m.plo, m.vhi - m.vlo) else []
/-- An extent with virtual spans made holes. -/
def punch (spans : List (Nat × Nat)) (e : Extent) : List Extent :=
  spans.foldl (fun es v => es.flatMap fun e =>
    if e.present then
      e.cut 0 v.1 ++ ((e.cut v.1 (v.1 + v.2)).map fun m => { m with present := false, plo := 0, home := 0, cls := 0, sysatom := false,
                                                                     key := 0, lr := false, lw := false }) ++ e.cut (v.1 + v.2) (2 ^ 56)
    else [e]) [e]
/-- Two physical spans meet. -/
def meets (a b : Nat × Nat) : Bool := decide (a.1 < b.1 + b.2 ∧ b.1 < a.1 + a.2)
/-- A command has a span of its record in virtual spans of its context (R251). -/
def Cmd.covers (s : State) (c : Cmd) (spans : List (Nat × Nat)) : Bool :=
  (cmdSpans c.rec_ (groupOf s c.func c.rec_) c.die).any fun p => spans.any (meets (p.va, p.len))
/-- An ATS invalidation is over once no part of it is left: its Invalidate Completion is sent (R457). -/
def ackInval (s : State) (ats : Option (Nat × Nat)) : State :=
  match ats with
  | some q => if s.invals.any fun p => p.2.ats == some q then s else { s with sec := { s.sec with invDone := s.sec.invDone ++ [q] } }
  | none => s
/-- A translation invalidation begins (R174, R251): the context's commands that have not started and cover the pages end with code
0x50, entries not wholly placed see holes, and the teams that hold the pages halt. -/
def startInval (s : State) (ctx : Nat) (spans : List (Nat × Nat)) (ats : Option (Nat × Nat)) : State :=
  let covers := fun (es : List Extent) => es.any fun e => !(physOf spans e).isEmpty
  let ts := s.teams.filter fun p => p.2.ctx == ctx && !p.2.retired && covers p.2.extents
  let phys := ts.flatMap (fun p => p.2.extents.flatMap (physOf spans)) ++
    (s.entries.filter fun p => p.2.ctx == ctx).flatMap fun p => p.2.extents.flatMap (physOf spans)
  let ends := (s.bulk.cmds.filter fun p => p.2.ctx == ctx && p.2.running.isNone && p.2.covers s spans).map (·.1)
  let s := ends.foldl (fun s id => endCmd s id 0x50 0 0) s
  let hole := fun (e : Entry) => if e.ctx = ctx then { e with extents := joinExtents (e.extents.flatMap (punch spans)) } else e
  let s := { s with entries := Tbl.mapV s.entries hole }
  if ts.isEmpty && !s.bulk.cmds.any fun p => p.2.ctx == ctx && p.2.covers s spans then s
  else
    let s := { s with invals := Tbl.put s.invals s.nextId { ctx := ctx, spans := spans, phys := phys, teams := ts.map (·.1), ats := ats }
                      nextId := s.nextId + 1 }
    ts.foldl (fun s p => haltTeam s p.1 .invalidation) s
/-- UNMAP_INVALIDATION (R174): of a span of virtual addresses, in whole pages. -/
def execUnmapInvalidation (ctx lo len : Nat) (s : State) : Host.Outcome State Fault Refusal :=
  if (Tbl.get? s.ctxs ctx).isNone then disabled
  else
    let a := lo / 65536 * 65536
    let b := (lo + len + 65535) / 65536 * 65536
    .next (startInval s ctx [(a, b - a)] none)
/-- The pages of a context's extents, or of the spans of its commands, that come from host space within untranslated addresses lo to
lo + len - 1. -/
def hostPages (s : State) (x : Ctx) (lo len : Nat) (es : List Extent) : List Nat :=
  (es.filter fun e => e.present && inHost e.plo).flatMap fun e => e.pages.filter fun p =>
    match Tbl.get? x.pages p <|> untranslated s x p with
    | some u => decide (u * 65536 < lo + len ∧ lo < u * 65536 + 65536)
    | none => false
/-- The invalidation of one context for an ATS request. -/
def invalHost (s : State) (ctx lo len : Nat) (ats : Nat × Nat) : State :=
  match Tbl.get? s.ctxs ctx with
  | none => s
  | some x =>
    let es := (s.teams.filter fun p => p.2.ctx == ctx).flatMap (·.2.extents) ++ (s.entries.filter fun p => p.2.ctx == ctx).flatMap (·.2.extents) ++
      (s.bulk.cmds.filter fun p => p.2.ctx == ctx).flatMap fun p =>
        (cmdSpans p.2.rec_ (groupOf s p.2.func p.2.rec_) p.2.die).map fun q =>
          { range := 0, vlo := q.va, vhi := q.va + q.len, plo := 2 ^ 51, present := true }
    startInval s ctx ((hostPages s x lo len es).eraseDups.map fun p => (p * 65536, 65536)) (some ats)
/-- ATS_INVALIDATE_REQUEST (R457): for the function and PASID of a context, hence for every context that has both; at most 32 are outstanding on
a link. -/
def execAtsInvalidateRequest (link ctx lo len : Nat) (s : State) : Host.Outcome State Fault Refusal :=
  match Tbl.get? s.ctxs ctx with
  | none => disabled
  | some x =>
    let open_ := (s.invals.filterMap fun p => p.2.ats.bind fun q => if q.1 = link then some q.2 else none).eraseDups
    if 2 ≤ link ∨ 32 ≤ open_.length ∨ (x.func ≠ 0 ∧ linkOf s x.func ≠ link) then disabled
    else
      let n := s.sec.invReqs
      let all := (s.ctxs.filter fun p => p.2.func == x.func && p.2.pasid == x.pasid).map (·.1)
      let s := { s with sec := { s.sec with invReqs := n + 1 } }
      .next (ackInval (all.foldl (fun s c => invalHost s c lo len (link, n)) s) (some (link, n)))
/-- An operation of a team still has an access to make in the spans. -/
def opInSpans (o : Op) (ps : List (Nat × Nat)) : Bool :=
  !o.done &&
    ((o.accs.any fun a => a.st == .todo && ps.any (meets (a.pa, a.size))) ||
     (match o.kind with
      | .copy _ qs => qs.any fun q => ps.any (fun x => meets (q.dst.pa, q.dst.size) x || (match q.src with | some a => meets (a.pa, a.size) x | none => false))
      | .flush fs => fs.any fun f => ps.any (meets (f.1, f.2.1))
      | .binw _ | .drain _ _ | .shape _ _ => true
      | _ => false))
/-- The spans become holes in a team's extents; where that needs too many extents, each extent that they touch becomes one hole
(log entry 14). -/
def punchTeam (s : State) (spans : List (Nat × Nat)) (tid : Nat) : State :=
  match s.team? tid with
  | none => s
  | some t =>
    let es := joinExtents (t.extents.flatMap (punch spans))
    if overflows es then
      let whole := joinExtents (t.extents.flatMap fun e => if (physOf spans e).isEmpty then [e] else punch [(0, 2 ^ 56)] e)
      overflowTeam (s.setTeam tid { t with extents := whole }) t
    else s.setTeam tid { t with extents := es }
/-- INVALIDATION_COMPLETE (R174 steps 2 to 4): with every access to the old pages done the spans are holes, and the teams that the
invalidation halted resume. -/
def execInvalidationComplete (id : Nat) (s : State) : Host.Outcome State Fault Refusal :=
  match Tbl.get? s.invals id with
  | none => disabled
  | some v =>
    let ts := v.teams.filter fun t => (s.team? t).isSome
    let still := ts.any fun t => match s.team? t with | some x => !x.isHalted | none => false
    if still || (s.ops.any fun p => ts.contains p.2.team && opInSpans p.2 v.phys) ||
        s.bulk.cmds.any fun p => p.2.ctx == v.ctx && p.2.covers s v.spans then disabled
    else
      let s := ackInval (ts.foldl (fun s t => punchTeam s v.spans t) { s with invals := Tbl.del s.invals id }) v.ats
      .next (ts.foldl (fun s t =>
        match s.team? t with
        | some x => if x.halt = .halted .invalidation ∧ (s.invals.any fun p => p.2.teams.contains t) = false then
            (match resumeTeam s t with | some s' => s' | none => s) else s
        | none => s) s)

/-- Some bytes of what a stopped engine operation would have written are written, as the free value says (R386). -/
def halfWrite (s : State) (core : Option Nat) (dst : Acc) (bs : List Byte) (bad : List Bool) : State :=
  (List.range bs.length).foldl (fun s i =>
    if inPod dst.pa || !Config.halfDone s.clock (dst.pa + i) then s
    else
      let s := performBytes s core none dst.attr (dst.pa + i) [bs.getD i 0] false fun _ => if inScratch dst.pa then some 4 else some 2
      if bad.getD i false then poisonBytes s [dst.pa + i] else s) s
/-- A CPY, CPYT or drain that a teardown stops (R386). A BINW has written what it has claimed. -/
def stopOp (s : State) (o : Op) : State :=
  if o.done then s
  else
    let f := funcOfTeam s o.team
    match o.kind with
    | .copy _ parts =>
      (copyBytes s f parts).foldl (fun s q =>
        match q.1.src with
        | some a => if reach s f .load a = .waits ∨ q.2.2.2.isSome = true then s else halfWrite s (some o.core) q.1.dst q.2.1 q.2.2.1
        | none => halfWrite s (some o.core) q.1.dst q.2.1 q.2.2.1) s
    | .drain _ pois => o.accs.foldl (fun s a => halfWrite s (some o.core) a (leBytes a.size a.data.toNat)
        ((List.range a.size).map fun i => (drainPoison o pois).contains (a.pa + i))) s
    | _ => s
/-- A running copy command that a teardown stops (R251, R386). -/
def stopCmd (s : State) (c : Cmd) : State :=
  if c.running.isSome && cmdOp c.rec_ == 1 then
    let place := c.dst.flatMap fun r => (List.range r.len).map fun i => { pa := r.pa + i, home := r.home, key := r.key, cls := r.cls, ctx := some c.ctx : Acc }
    (place.zip (moved s c)).foldl (fun s p => halfWrite s none p.1 [p.2.1] [p.2.2]) s
  else s
/-- A context is torn down (R386). What is in flight goes on where `lost` does not say that it is dropped (R437, R438). The number of a function's
PRG indices does not fall with its context: each stays allocated until its response (R458). -/
def teardownCtx (s : State) (ctx : Nat) (lost : Bool := false) : State :=
  match Tbl.get? s.ctxs ctx with
  | none => s
  | some x =>
    let ts := (s.teams.filter fun p => p.2.ctx == ctx).map (·.1)
    let keep := fun (o : Op) => match o.kind with
      | .store | .release _ | .atomic _ _ _ | .tdep _ => !lost
      | _ => false
    let away := fun (o : Op) => if ts.contains o.team then { o with crew := 2 ^ 17 * (s.nextId + 1) + o.crew % 2 ^ 17, quiet := true } else o
    let leave := fun (c : Core) => { c with trivet := c.trivet.filter fun r => !ts.contains r.team }
    let s := (s.ops.filter fun p => ts.contains p.2.team).foldl (fun s p => stopOp s p.2) s
    let s := (s.bulk.cmds.filter fun p => p.2.ctx == ctx).foldl (fun s p => stopCmd s p.2) s
    let s := { s with
      nextId := s.nextId + 1
      ops := Tbl.mapV (s.ops.filter fun p => !ts.contains p.2.team || (keep p.2 && !p.2.done)) away
      cores := Tbl.mapV s.cores leave
      bulk := { s.bulk with cmds := s.bulk.cmds.filter fun p => p.2.ctx != ctx }
      fabric := { s.fabric with items := s.fabric.items.filter fun i => i.ctx != some ctx }
      invals := s.invals.filter fun p => p.2.ctx != ctx
      admissions := s.admissions.filter fun p => p.2.ctx != ctx }
    let s := (s.entries.filter fun p => p.2.ctx == ctx).foldl (fun s p => completeEntry s p.1 0x0007 0) s
    let s := (s.bound.filter fun p => p.2.ctx == ctx).foldl (fun s p =>
      let e : Entry := { ctx := ctx, rec_ := { p.2.tmpl with compl := p.2.task.compl, tindex := p.2.task.tindex }, addr := p.2.addr }
      writeCompletion s ctx p.2.task.compl p.2.task.tindex 0x0007 (completionBytes 0x0007 e 0)) s
    { s with bound := s.bound.filter (fun p => p.2.ctx != ctx), ctxs := Tbl.del s.ctxs ctx }
/-- CONTEXT_TEARDOWN (R386, R348). -/
def execContextTeardown (ctx : Nat) (s : State) : Host.Outcome State Fault Refusal :=
  if (Tbl.get? s.ctxs ctx).isSome then .next (teardownCtx s ctx) else disabled

end Sys2Proof.Machine
end

