-- ==== Sys2Proof/Machine/Trace.lean ====
section
/-! DEFINITION. The trace instructions, the collectors, the trace registers and the time master (14 R396 to R419, 16 R460). -/
namespace Sys2Proof.Machine

/-- MARK (R416, R417). -/
def execMark (d : BitVec 8) (a : SReg) (s : State) : Host.Outcome State Fault Refusal :=
  issue s (fun _ _ => { word := wordOf (.mark d a), stops := true }) fun s c _ =>
    retire (emitS s s.cur 0x40 d ((c.getS a).setWidth 32)) c
/-- TRCTL #0 (R418): the crew's gate. -/
def execTrctlGate (a : SReg) (s : State) : Host.Outcome State Fault Refusal :=
  issue s (fun _ _ => { word := wordOf (.trctlGate a), stops := true }) fun s c _ =>
    let v := c.getS a
    if v.extractLsb' 1 63 ≠ 0 then trapAt s s.cur c (wordOf (.trctlGate a)) .operand else retire s { c with gate := v.getLsbD 0 }
/-- TRCTL #1 (R418): the crew's class mask. -/
def execTrctlMask (a : SReg) (s : State) : Host.Outcome State Fault Refusal :=
  issue s (fun _ _ => { word := wordOf (.trctlMask a), stops := true }) fun s c _ =>
    let v := c.getS a
    if v.extractLsb' 16 48 ≠ 0 then trapAt s s.cur c (wordOf (.trctlMask a)) .operand else retire s { c with cmask := v.setWidth 16 }
/-- TRCTL #2 (R418): waits until the crew's earlier records are written. -/
def execTrctlDrain (a : SReg) (s : State) : Host.Outcome State Fault Refusal :=
  issue s (fun _ _ => { word := wordOf (.trctlDrain a), stops := true }) fun s c _ =>
    if c.getS a ≠ 0 then trapAt s s.cur c (wordOf (.trctlDrain a)) .operand
    else if s.fabric.items.any fun i => i.own && i.crew == some s.cur then s
    else retire s c
/-- TRCTL #3 (R418). -/
def execTrctlAnchor (a : SReg) (s : State) : Host.Outcome State Fault Refusal :=
  issue s (fun _ _ => { word := wordOf (.trctlAnchor a), stops := true }) fun s c _ =>
    let v := c.getS a
    if v.extractLsb' 8 56 ≠ 0 then trapAt s s.cur c (wordOf (.trctlAnchor a)) .operand
    else retire (emitS s s.cur 0x41 (v.setWidth 8) (BitVec.ofNat 32 (dieTime s (coreOf s.cur / 32) / 2 ^ 32))) c

/-- The base of a trace buffer (R402). -/
def traceBase (t : TraceRegs) : Nat := (t.buf.extractLsb' 12 40).toNat * 4096
/-- TRBUF is valid (R403). -/
def traceBufOk (s : State) (func : Nat) : Bool :=
  let t := (s.func func).trace
  let n := 4096 * 2 ^ (t.buf.extractLsb' 60 4).toNat
  let b := traceBase t
  b % n == 0 &&
    (inHost b || (inHbm b && inHbm (b + n - 1) && keyAssigned s (t.buf.extractLsb' 52 7).toNat func && sliceHasAddr s (s.func func).slice b &&
      sliceHasAddr s (s.func func).slice (b + n - 1)))
/-- TRSTAT.ACTIVE follows EN and TRBUF (R402). -/
def fixActive (s : State) (func : Nat) : State :=
  let t := (s.func func).trace
  let on := t.cfg.getLsbD 0 && traceBufOk s func
  if t.stat.getLsbD 0 = on then s
  else s.modFunc func fun f => { f with trace := { f.trace with stat := if on then f.trace.stat ||| 1 else f.trace.stat &&& ~~~1#64 } }
/-- ACTIVE of every function, after a step that may have changed keys or slices (R403). -/
def settleActive (s : State) : State := s.funcs.foldl (fun s p => fixActive s p.1) s
/-- The two words of a record (R391). -/
def recordBytes (i : TraceItem) (seq : BitVec 8) : List Byte :=
  leBytes 8 (i.stamp % 2 ^ 44 * 2 ^ 20 + i.die % 64 * 2 ^ 14 + i.slot % 64 * 2 ^ 8 + seq.toNat) ++
  leBytes 8 (i.event.toNat * 2 ^ 56 + i.arg.toNat * 2 ^ 48 + (if i.spec then 2 ^ 47 else 0) + i.func % 128 * 2 ^ 40 + i.src % 64 * 2 ^ 34 +
    i.payload.toNat)
/-- A record is written at the next position of a buffer, and a delivered MARK of id 0xF4 to 0xF7 signals its vector (R405, R453). -/
def writeRecord (s : State) (func : Nat) (i : TraceItem) (seq : BitVec 8) : State :=
  let t := (s.func func).trace
  let key := if inHost (traceBase t) then 0 else (t.buf.extractLsb' 52 7).toNat
  let a := traceBase t + 16 * (t.wp.toNat % 2 ^ ((t.buf.extractLsb' 60 4).toNat + 8))
  let s := spend (performBytes s none none { home := 3, key := key } a (recordBytes i seq) false (storeCause none)) 3 i.die 1
  s.modFunc func fun f =>
    let f := { f with trace := { f.trace with wp := f.trace.wp + 1 } }
    if i.event = 0x40 ∧ 0xF4 ≤ i.arg.toNat ∧ i.arg.toNat ≤ 0xF7 ∧ i.func = func then f.signal (i.arg.toNat - 0xF0) else f
/-- A collector gives its next sequence number (R400). -/
def nextSeq (s : State) (die : Nat) : State × BitVec 8 :=
  let q := Tbl.getD s.fabric.seq die 0
  ({ s with fabric := { s.fabric with seq := Tbl.put s.fabric.seq die (q + 1) } }, q)
/-- The drops of a record's source that OVERRUN is to report in a function's buffer before it: there is space for both (R415). -/
def overrunDue (s : State) (func : Nat) (i : TraceItem) (reserved : Bool) : Bool :=
  decide (0 < Tbl.getD s.fabric.drops ((func * 64 + i.die) * 64 + i.src) 0 ∧ (if reserved then 1 else 2) ≤ traceSpace s func)
/-- OVERRUN is written, and the source's count cleared. -/
def writeOverrun (s : State) (func : Nat) (i : TraceItem) : State :=
  let k := (func * 64 + i.die) * 64 + i.src
  let (s, q) := nextSeq s i.die
  let t := sendTime s i.die 0x3F
  let o : TraceItem := { i with src := 0x3F, event := 0xF1, arg := BitVec.ofNat 8 i.src, payload := BitVec.ofNat 32 (Tbl.getD s.fabric.drops k 0),
                                slot := 0, spec := false, func := func, crew := none, stamp := t }
  let s := noteTime s i.die
  writeRecord { s with fabric := { s.fabric with drops := Tbl.del s.fabric.drops k, last := Tbl.put s.fabric.last (i.die * 64 + 0x3F) t } } func o q
/-- A function whose TDI is in ERROR issues no requests, so that nothing reaches its buffer in host space (R464). -/
def muted (s : State) (func : Nat) : Bool := (s.func func).tdi == .error && inHost (traceBase (s.func func).trace)
/-- The record goes to its function's buffer. -/
def ownDue (s : State) (i : TraceItem) : Bool := i.own && (s.func i.func).trace.stat.getLsbD 0 && !muted s i.func
/-- A copy goes to the PF's buffer under SHARE, as long as that is active (R407). A record of the collector itself is not copied (log entry
15). -/
def copyDue (s : State) (i : TraceItem) : Bool := shared s i.func && decide (i.event.toNat < 0xF0) && (s.func 0).trace.stat.getLsbD 0
def copyFits (s : State) (i : TraceItem) : Bool := copyDue s i && decide (0 < traceSpace s 0)
/-- The functions whose buffers take an OVERRUN before the record. -/
def overruns (s : State) (i : TraceItem) : List Nat :=
  (if ownDue s i && overrunDue s i.func i i.granted then [i.func] else []) ++ (if copyFits s i && overrunDue s 0 i false then [0] else [])
/-- The positions that an acceptance writes, each of which counts against the budget (R405). -/
def writesOf (s : State) (i : TraceItem) : Nat :=
  (overruns s i).length + (if ownDue s i then 1 else 0) + (if copyFits s i then 1 else 0)
/-- The record is accepted: what its source has dropped is reported, and it is numbered, written to its function's buffer, and copied to
the PF's (R405, R407, R415). -/
def acceptRecord (s : State) (i : TraceItem) : State :=
  let own := ownDue s i
  let copy := copyFits s i
  let lost := copyDue s i && !copy
  let s := (overruns s i).foldl (fun s f => writeOverrun s f i) s
  let s := { s with fabric := { s.fabric with items := s.fabric.items.erase i } }
  let s := if lost then dropRecord s 0 i.die i.src else s
  if own || copy then
    let (s, q) := nextSeq s i.die
    let s := if own then writeRecord s i.func i q else s
    if copy then writeRecord s 0 i q else s
  else s
/-- A record without a reservation waits for space in its function's buffer (R411). -/
def heldItem (s : State) (i : TraceItem) : Bool :=
  !i.granted && i.own && (s.func i.func).trace.stat.getLsbD 0 && decide (traceSpace s i.func = 0)
/-- An EPOCH that goes before a record of its die stamped at a time waits for acceptance (R399): each that its buffer can take, and one that waits
for space if the record is for its buffer, since it holds up no other function's (R413, log entry 83). -/
def epochFirst (s : State) (die t : Nat) (funcs : List Nat) : Bool :=
  decide (Tbl.getD s.fabric.epochs die 0 < t / 2 ^ 40) ||
  s.fabric.items.any fun j => j.die == die && (funcs.contains j.func || !heldItem s j) && j.event == 0xF0 && decide (j.stamp ≤ t)
/-- The record of a source that its collector accepts next: in emission order (R400), but that one which waits for space holds up no other
function's (R413, log entry 83), and that an EPOCH goes before the records of its die that are stamped at or after it (R399). -/
def acceptable (s : State) (die src : Nat) : Option TraceItem :=
  let mine := s.fabric.items.filter fun i => i.die == die && i.src == src
  mine.find? fun i =>
    !heldItem s i && (i.event == 0xF0 || (mine.takeWhile (· != i)).all fun j => j.func != i.func && heldItem s j) &&
    (i.event == 0xF0 || (!epochFirst s die i.stamp (i.func :: if copyFits s i then [0] else []) &&
      ((overruns s i).isEmpty || !epochFirst s die (sendTime s die 0x3F) (overruns s i))))
/-- TRACE_ACCEPT (R405), within the trace-drain budget of the period (R447). -/
def execTraceAccept (die src : Nat) (s : State) : Host.Outcome State Fault Refusal :=
  match acceptable s die src with
  | some i => if spentOf s 3 die + writesOf s i ≤ ((budgetOf s die).1.extractLsb' 0 16).toNat then .next (acceptRecord s i) else disabled
  | none => disabled
/-- TRACE_RESERVATION_REFILL (R409): the pool of a core is topped up to 8 as far as the buffer has space; what another function left unused
has gone back. -/
def execTraceReservationRefill (core : Nat) (s : State) : Host.Outcome State Fault Refusal :=
  match coreFunc s core with
  | none => disabled
  | some f =>
    let s := s.modCore core fun k => if k.grantee = f then k else { k with granted := 0, grantee := f }
    let n := min (8 - (s.core core).granted) (traceSpace s f)
    if n = 0 ∨ (s.func f).trace.stat.getLsbD 0 = false then disabled
    else .next (s.modCore core fun k => { k with granted := k.granted + n })
/-- An F record of a die's collector for one function's buffer, which the function's filter delivers (R404, R412). -/
def emitF (s : State) (die func : Nat) (event arg : BitVec 8) (payload : Word) (stamp : Nat) : State :=
  if !delivers s func die event arg false none then s
  else if (s.fabric.items.filter fun i => i.die == die && i.src == 0x3F && i.own).length < 64 then
    let last := Tbl.getD s.fabric.last (die * 64 + 0x3F) 0
    let t := if event = 0xF0 then stamp else max stamp last
    { s with fabric := { s.fabric with last := Tbl.put s.fabric.last (die * 64 + 0x3F) (max t last), items := s.fabric.items ++
      [{ die := die, src := 0x3F, func := func, event := event, arg := arg, payload := payload, slot := 0, spec := false, stamp := t,
         granted := false }] } }
  else dropRecord s func die 0x3F
/-- The functions whose buffers are enabled. -/
def enabledFuncs (s : State) : List Nat := (s.funcs.filter fun p => p.2.trace.cfg.getLsbD 0).map (·.1)
/-- The next crossing of a multiple of 2^40 by a die's time base, at which the record is stamped, for the buffers that are enabled (R399). -/
def crossEpoch (s : State) (die : Nat) : State :=
  let k := Tbl.getD s.fabric.epochs die 0 + 1
  let s := noteTime s die
  let s := { s with fabric := { s.fabric with epochs := Tbl.put s.fabric.epochs die k } }
  (enabledFuncs s).foldl (fun s f => emitF s die f 0xF0 0 (BitVec.ofNat 32 (k * 2 ^ 8)) (k * 2 ^ 40)) s
/-- A die's time base has crossed a multiple of 2^40 for which no EPOCH has been emitted. -/
def epochDue (s : State) (die : Nat) : Bool := decide (Tbl.getD s.fabric.epochs die 0 + 1 ≤ dieTime s die / 2 ^ 40)
/-- EPOCH (R399). -/
def execEpoch (die : Nat) (s : State) : Host.Outcome State Fault Refusal :=
  if epochDue s die ∧ die < Config.dies then .next (crossEpoch s die) else disabled
/-- Every crossing so far has its EPOCH, before the buffers that are enabled change. -/
def crossAll (s : State) : State :=
  (List.range Config.dies).foldl (fun s d =>
    (List.range (dieTime s d / 2 ^ 40 - Tbl.getD s.fabric.epochs d 0)).foldl (fun s _ => crossEpoch s d) s) s
/-- The function's stalls end with EN: its crews go on without a record (R413). -/
def releaseStalls (s : State) (func : Nat) : State :=
  (s.crews.filter fun p => (p.2.stalled.isSome || p.2.stallSum != 0) && funcOfTeam s p.2.team == func).foldl (fun s p =>
    (stallOver s p.1 p.2).1.modCrew p.1 fun c => { c with started := true, stallSum := 0 }) s
/-- What a write of TRCFG makes of FORCED (R402, R413): bit 63 of the row's value says that firmware sets it with this write, to bit 62; the
register has neither bit (log entry 112). -/
def forcedBy (value : DWord) : Option Bool := if value.getLsbD 63 then some (value.getLsbD 62) else none
/-- TRCFG_WRITE (R402, R399, R413): an EN that rises makes every collector emit EPOCH to this buffer; one that falls releases the stalled
crews. -/
def execTrcfgWrite (func : Nat) (value : DWord) (s : State) : Host.Outcome State Fault Refusal :=
  let old := (s.func func).trace.cfg
  let force := fun (v : DWord) => match forcedBy value with
    | some true => v ||| 16
    | some false => v &&& ~~~16#64
    | none => v
  let s := if value.getLsbD 0 == old.getLsbD 0 then s else crossAll s
  let s := s.modFunc func fun f => { f with trace := { f.trace with cfg := value &&& 7, stat := force f.trace.stat } }
  let s := fixActive s func
  if value.getLsbD 0 && !old.getLsbD 0 then
    .next ((List.range Config.dies).foldl (fun s d =>
      let t := dieTime s d
      emitF (noteTime s d) d func 0xF0 0 (BitVec.ofNat 32 (t / 2 ^ 32)) t) s)
  else if !value.getLsbD 0 then .next (releaseStalls s func)
  else .next s
/-- The function's TDI is locked (R462). -/
def tdiLocked (s : State) (func : Nat) : Bool := (s.func func).tdi == .locked || (s.func func).tdi == .run
/-- A register write that a locked TDI refuses sets SLSTAT.ERR of the function's slice (R462). -/
def lockedError (s : State) (func : Nat) : State := s.modSlice (s.func func).slice fun sl => { sl with stat := sl.stat ||| 0x100 }
/-- TRBUF_WRITE (R402): firmware's, while EN is 0; any other is refused. -/
def execTrbufWrite (func : Nat) (value : DWord) (firmware : Bool) (s : State) : Host.Outcome State Fault Refusal :=
  let t := (s.func func).trace
  if !firmware || t.cfg.getLsbD 0 then .next (s.modFunc func fun f => { f with trace := { f.trace with stat := f.trace.stat ||| 4 } })
  else if tdiLocked s func then .next (lockedError s func)
  else .next (fixActive (s.modFunc func fun f => { f with trace := { f.trace with buf := value &&& 0xF7FFFFFFFFFFF000 } }) func)
/-- TRRP_WRITE (R402): a write below TRRP or above TRWP is refused. -/
def execTrrpWrite (func : Nat) (value : DWord) (s : State) : Host.Outcome State Fault Refusal :=
  let t := (s.func func).trace
  if value.toNat < t.rp.toNat ∨ t.wp.toNat < value.toNat then
    .next (s.modFunc func fun f => { f with trace := { f.trace with stat := f.trace.stat ||| 8 } })
  else .next (s.modFunc func fun f => { f with trace := { f.trace with rp := value } })

/-- STATE of TIMESTAT changes: every collector emits TIMELOCK to each enabled buffer (R396). -/
def setTimeState (s : State) (st : BitVec 2) : State :=
  if s.time.timestat.extractLsb' 62 2 = st then s
  else
    let s := { s with time := { s.time with timestat := (s.time.timestat &&& ~~~(3#64 <<< 62)) ||| (st.setWidth 64 <<< 62) } }
    (List.range Config.dies).foldl (fun s d =>
      let t := dieTime s d
      (enabledFuncs s).foldl (fun s f => emitF s d f 0xF2 (st.setWidth 8) (s.time.timestat.setWidth 32) t) (noteTime s d)) s
/-- A measured offset of the time base from the reference: locked within 800 units, else acquiring (R396). -/
def measure (s : State) (offset : BitVec 32) : State :=
  let s := { s with time := { s.time with timestat := (s.time.timestat &&& ~~~0xFFFFFFFF#64) ||| offset.setWidth 64, measured := true } }
  setTimeState s (if -800 ≤ offset.toInt ∧ offset.toInt ≤ 800 then 2 else 1)
/-- The die of the time master (R396). -/
def masterDie (s : State) : Nat := Config.linkDie s.time.link
/-- PPS_EDGE (R396): the time base of the master's die is captured. -/
def execPpsEdge (offset : BitVec 32) (s : State) : Host.Outcome State Fault Refusal :=
  let s := noteTime s (masterDie s)
  .next (measure { s with time := { s.time with ppscap := BitVec.ofNat 64 (dieTime s (masterDie s)), timestat := s.time.timestat ||| (1#64 <<< 32) } }
    offset)
/-- PTM_EXCHANGE (R460). -/
def execPtmExchange (offset : BitVec 32) (s : State) : Host.Outcome State Fault Refusal := .next (measure s offset)
/-- PTM_FAILURE_TIMEOUT (R460). -/
def execPtmFailureTimeout (s : State) : Host.Outcome State Fault Refusal := .next (setTimeState s 3)
/-- PPS_LOSS_TIMEOUT (R396): no edge has come for 2 s. -/
def execPpsLossTimeout (s : State) : Host.Outcome State Fault Refusal :=
  if s.time.timestat.getLsbD 32 = true ∧ s.time.ppscap.toNat + 32000000000 ≤ dieTime s (masterDie s) then
    .next { s with time := { s.time with timestat := s.time.timestat &&& ~~~(1#64 <<< 32) } }
  else disabled
/-- TIME_FORWARD_STEP (R396): one step removes a measured lag of more than 1 ms. -/
def execTimeForwardStep (units : Nat) (s : State) : Host.Outcome State Fault Refusal :=
  let lag := -(s.time.timestat.setWidth 32).toInt
  if s.time.measured = true ∧ 16000000 < lag ∧ (units : Int) = lag then
    .next { s with time := { s.time with master := s.time.master + units, measured := false } }
  else disabled
/-- TBEPOCH_WRITE (R396): refused while some function has trace enabled. -/
def execTbepochWrite (value : DWord) (s : State) : Host.Outcome State Fault Refusal :=
  if (enabledFuncs s).isEmpty then .next { s with time := { s.time with tbepoch := value &&& 0xFFFFFFFFFFFF } }
  else .next { s with time := { s.time with timestat := s.time.timestat ||| (1#64 <<< 33) } }

end Sys2Proof.Machine
end

