-- ==== Sys2Proof/Machine/Carve.lean ====
section
/-! DEFINITION. The SRAM carve of a core and the activity budgets (06 R178 to R180, 15 R447). -/
namespace Sys2Proof.Machine

/-- SPOOL and PINF of SRAMCFG (R178). -/
def spoolOf (v : DWord) : Nat := (v.extractLsb' 0 4).toNat
def pinfOf (v : DWord) : Nat := (v.extractLsb' 4 2).toNat
/-- CARVESTAT with a number of dirty lines and a state (R179). -/
def carveWord (dirty state : Nat) : DWord := BitVec.ofNat 64 (dirty % 65536 * 2 ^ 32 + state % 16)
def carveDirty (v : DWord) : Nat := (v.extractLsb' 32 16).toNat
/-- The lines in the L1 ways of a core that a carve change takes (R180). -/
def takenLines (s : State) (core : Nat) : List (Nat × L1Line) :=
  (s.core core).l1.filter fun (e : Nat × L1Line) => decide ((s.core core).fillWays ≤ e.2.way)
def takenDirty (s : State) (core : Nat) : List Nat := ((takenLines s core).filter fun (e : Nat × L1Line) => e.2.dirty).map (·.1)
/-- CARVESTAT as the carve change stands: 1 while dirty lines are left, and 2 until the change is complete, be it for teams that hold units or for
CARVE_COMPLETE alone (log entry 120). -/
def carveNow (s : State) (core : Nat) : DWord :=
  let k := s.core core
  let n := (takenDirty s core).length
  carveWord n (if 0 < n then 1 else if spoolOf k.sramcfg = k.pool ∧ pinfOf k.sramcfg = k.pinned then 0 else 2)
def fixCarve (s : State) (core : Nat) : State := s.modCore core fun k => { k with carvestat := carveNow s core }
/-- SRAMCFG_WRITE (R178, R180): a write that would leave L1 no unit is not taken; another sets the target: units that it takes from L1 take no
fill, their clean lines are dropped, and their dirty ones are to be written back first. -/
def execSramcfgWrite (core : Nat) (value : DWord) (s : State) : Host.Outcome State Fault Refusal :=
  let v := value &&& 0x3F
  if 11 < spoolOf v + pinfOf v then
    .next (s.modCore core fun k => { k with carvestat := (k.carvestat &&& ~~~0xF#64) ||| 3 })
  else
    let s := s.modCore core fun k => { k with sramcfg := v }
    let s := ((takenLines s core).filter fun (e : Nat × L1Line) => !e.2.dirty).foldl (fun s e => dropOwnLine s core e.1) s
    .next (fixCarve s core)
/-- CARVE_WRITEBACK (R180): n of the dirty lines are written back and dropped, within the carve budget of the period. -/
def execCarveWriteback (core n : Nat) (s : State) : Host.Outcome State Fault Refusal :=
  let ls := (takenDirty s core).take n
  if n = 0 ∨ ls.length < n ∨ ((budgetOf s (core / 32)).2.extractLsb' 0 16).toNat < spentOf s 5 core + n then disabled
  else .next (fixCarve (spend (ls.foldl (fun s l => dropOwnLine (cleanLines s (· == l)) core l) s) 5 core n) core)
/-- One more than the highest scratchpad unit that a team holds on a core. -/
def heldTop (s : State) (core : Nat) : Nat :=
  (teamsOn s core).foldl (fun m p => p.2.units.foldl (fun m u => if u < 12 then max m (u + 1) else m) m) 0
/-- CARVE_COMPLETE (R180): units join their new use: those of the pool that no team holds are released from the highest down, those of
L1 are taken once DIRTY is zero; the frames have what is then neither L1's nor the pool's. Pinned frames are given up at once (log entry 98). -/
def execCarveComplete (core : Nat) (s : State) : Host.Outcome State Fault Refusal :=
  let k := s.core core
  let sp := spoolOf k.sramcfg
  let pf := pinfOf k.sramcfg
  if !(takenDirty s core).isEmpty then disabled
  else
    let pool := if sp < k.pool then max sp (min k.pool (heldTop s core)) else sp
    let pinned := min pf (12 - k.fillWays - pool)
    if pool = k.pool ∧ pinned = k.pinned then disabled
    else
      let s := (takenLines s core).foldl (fun s e => dropOwnLine s core e.1) s
      .next (fixCarve (s.modCore core fun k => { k with pool := pool, pinned := pinned }) core)
/-- The die of the place that an activity's budget is for. -/
def budgetDie (activity place : Nat) : Nat :=
  match activity with | 0 => place / 16 | 2 => place / 32 | 5 => place / 32 | 6 => place / 16 | _ => place
/-- ACTIVITY_BUDGET_PERIOD (R447): after 10 µs of the master's time; nothing is carried over. -/
def execActivityBudgetPeriod (die : Nat) (s : State) : Host.Outcome State Fault Refusal :=
  if s.time.master < Tbl.getD s.svc.periods die 0 + 160000 then disabled
  else .next { s with svc := { s.svc with
    spent := s.svc.spent.filter fun p => budgetDie (p.1 / 65536) (p.1 % 65536) != die, periods := Tbl.put s.svc.periods die s.time.master } }
/-- The channel of an HBM address, and the offset in it (R424). -/
def channelOf (pa : Nat) : Nat :=
  let b := pa % 0x180000000 / 8192
  4 * channelSet pa + (b % 4 ^^^ b / 4 % 4)
def channelOffset (pa : Nat) : Nat :=
  let o := pa % 0x180000000
  o / 8192 / 4 * 8192 + o % 8192
/-- SCRUB_SECTOR (R375): an uncorrectable error is found and poisons the granule; scrub finds one in HBM within its budget of the channel, and a
read finds one at any time. -/
def execScrubSector (place : PoisonPlace) (s : State) : Host.Outcome State Fault Refusal :=
  match place with
  | .flat a =>
    let ch := channelOf a
    if inHbm a then
      if spentOf s 0 ch < ((budgetOf s (ch / 16)).1.extractLsb' 48 16).toNat then .next (spend { s with poison := setAdd s.poison (granOf a) } 0 ch 1)
      else disabled
    else .next { s with poison := setAdd s.poison (granOf a) }
  | .read a => .next { s with poison := setAdd s.poison (granOf a) }
  | .l1Word core line word =>
    if (l1Line s core line).isSome && decide (word < 32) then
      .next (s.modCore core fun k => { k with l1 := Tbl.upd k.l1 line fun e => { e with pois := setAdd e.pois word } })
    else disabled
  | .tile team tile elem =>
    match s.team? team with
    | some t => if tile < t.ntile ∧ elem < 1024 then .next (s.setTeam team { t with tilePois := setAdd t.tilePois (1024 * tile + elem) })
                else disabled
    | none => disabled

end Sys2Proof.Machine
end

