-- ==== Sys2Proof/Machine/Scalar.lean ====
section
/-! DEFINITION. The scalar instructions (04 R123 to R128): they read and write scalar registers alone. -/
namespace Sys2Proof.Machine

/-- An instruction that needs only the checks of its fields. -/
def plain (i : Instr) (_ : Crew) (_ : Team) : Need := { word := wordOf i, ok := i.wf }
/-- An instruction whose whole effect is one scalar result. -/
def scalarOp (i : Instr) (d : SReg) (v : Crew → DWord) (s : State) : Host.Outcome State Fault Refusal :=
  issue s (plain i) fun s c _ => retire s (c.setS d (v c))

/-- SLI (R124). -/
def execSli (d : SReg) (i : BitVec 16) (s : State) : Host.Outcome State Fault Refusal :=
  scalarOp (.sli d i) d (fun _ => i.signExtend 64) s
/-- SLIS (R124). -/
def execSlis (d : SReg) (i : BitVec 16) (s : State) : Host.Outcome State Fault Refusal :=
  scalarOp (.slis d i) d (fun c => (c.getS d <<< 16) + i.setWidth 64) s
/-- SADD (R125). -/
def execSadd (d a b : SReg) (s : State) : Host.Outcome State Fault Refusal :=
  scalarOp (.sadd d a b) d (fun c => c.getS a + c.getS b) s
/-- SADDI (R126). -/
def execSaddi (d a : SReg) (i : BitVec 8) (s : State) : Host.Outcome State Fault Refusal :=
  scalarOp (.saddi d a i) d (fun c => c.getS a + i.signExtend 64) s
/-- SSUB (R125). -/
def execSsub (d a b : SReg) (s : State) : Host.Outcome State Fault Refusal :=
  scalarOp (.ssub d a b) d (fun c => c.getS a - c.getS b) s
/-- SMUL (R125). -/
def execSmul (d a b : SReg) (s : State) : Host.Outcome State Fault Refusal :=
  scalarOp (.smul d a b) d (fun c => c.getS a * c.getS b) s
/-- The quotient of signed values, rounded towards zero (R127). -/
def divSigned (x y : DWord) : DWord :=
  if y = 0 then BitVec.allOnes 64 else BitVec.ofInt 64 (Int.tdiv x.toInt y.toInt)
/-- The quotient of unsigned values (R127). -/
def divUnsigned (x y : DWord) : DWord := if y = 0 then BitVec.allOnes 64 else BitVec.ofNat 64 (x.toNat / y.toNat)
/-- SDIVS (R127). -/
def execSdivs (d a b : SReg) (s : State) : Host.Outcome State Fault Refusal :=
  scalarOp (.sdivs d a b) d (fun c => divSigned (c.getS a) (c.getS b)) s
/-- SDIVN (R127). -/
def execSdivn (d a b : SReg) (s : State) : Host.Outcome State Fault Refusal :=
  scalarOp (.sdivn d a b) d (fun c => divUnsigned (c.getS a) (c.getS b)) s
/-- SAND (R125). -/
def execSand (d a b : SReg) (s : State) : Host.Outcome State Fault Refusal :=
  scalarOp (.sand d a b) d (fun c => c.getS a &&& c.getS b) s
/-- SOR (R125). -/
def execSor (d a b : SReg) (s : State) : Host.Outcome State Fault Refusal :=
  scalarOp (.sor d a b) d (fun c => c.getS a ||| c.getS b) s
/-- SXOR (R125). -/
def execSxor (d a b : SReg) (s : State) : Host.Outcome State Fault Refusal :=
  scalarOp (.sxor d a b) d (fun c => c.getS a ^^^ c.getS b) s
/-- The amount of a shift: bits [5:0] (R125). -/
def shiftAmount (y : DWord) : Nat := (y.extractLsb' 0 6).toNat
/-- SSHL (R125). -/
def execSshl (d a b : SReg) (s : State) : Host.Outcome State Fault Refusal :=
  scalarOp (.sshl d a b) d (fun c => c.getS a <<< shiftAmount (c.getS b)) s
/-- SSHR (R125). -/
def execSshr (d a b : SReg) (s : State) : Host.Outcome State Fault Refusal :=
  scalarOp (.sshr d a b) d (fun c => c.getS a >>> shiftAmount (c.getS b)) s
/-- SSRA (R125). -/
def execSsra (d a b : SReg) (s : State) : Host.Outcome State Fault Refusal :=
  scalarOp (.ssra d a b) d (fun c => (c.getS a).sshiftRight (shiftAmount (c.getS b))) s
/-- SSLT (R125). -/
def execSslt (d a b : SReg) (s : State) : Host.Outcome State Fault Refusal :=
  scalarOp (.sslt d a b) d (fun c => if (c.getS a).toInt < (c.getS b).toInt then 1 else 0) s
/-- The number of set bits (R128). -/
def popCount (x : DWord) : Nat := ((List.range 64).filter fun i => x.getLsbD i).length
/-- The number of zero bits above the highest set bit (R128). -/
def leadingZeros (x : DWord) : Nat := if x = 0 then 64 else 63 - x.toNat.log2
/-- SCNT (R128). -/
def execScnt (d a : SReg) (s : State) : Host.Outcome State Fault Refusal :=
  scalarOp (.scnt d a) d (fun c => BitVec.ofNat 64 (popCount (c.getS a))) s
/-- SCLZ (R128). -/
def execSclz (d a : SReg) (s : State) : Host.Outcome State Fault Refusal :=
  scalarOp (.sclz d a) d (fun c => BitVec.ofNat 64 (leadingZeros (c.getS a))) s

end Sys2Proof.Machine
end

