-- ==== Sys2Proof/Machine/Control.lean ====
section
/-! DEFINITION. Crew control (04 R103 to R122): branches, MODE, waiting for class counters, special registers, the end of a
crew; and the issue of what is not an instruction (R68, R112). -/
namespace Sys2Proof.Machine

/-- NOP (R113). -/
def execNop (s : State) : Host.Outcome State Fault Refusal := issue s (plain .nop) fun s c _ => retire s c

/-- R112: a target inside the address space. -/
def targetOk (t : Int) : Bool := decide (0 ≤ t ∧ t < 2 ^ 56)
/-- A control transfer to a target computed exactly (R112); `link` writes s63. -/
def branchTo (s : State) (c : Crew) (word : Word) (t : Int) (aligned link : Bool) : State :=
  if targetOk t && (!aligned || t % 4 == 0) then
    jump s (if link then c.setS 63 ((c.pc + 4).setWidth 64) else c) (BitVec.ofInt 56 t)
  else trapAt s s.cur c word .branchTarget 0 (BitVec.ofInt 64 t)
/-- The target of a branch by a word displacement (R60). -/
def relTarget (c : Crew) (disp : Int) : Int := c.pc.toNat + 4 * disp
/-- BR (R114). -/
def execBr (i : BitVec 24) (s : State) : Host.Outcome State Fault Refusal :=
  issue s (plain (.br i)) fun s c _ => branchTo s c (wordOf (.br i)) (relTarget c i.toInt) false false
/-- CALL (R114). -/
def execCall (i : BitVec 24) (s : State) : Host.Outcome State Fault Refusal :=
  issue s (plain (.call i)) fun s c _ => branchTo s c (wordOf (.call i)) (relTarget c i.toInt) false true
/-- BRZ (R115). -/
def execBrz (d : SReg) (i : BitVec 16) (s : State) : Host.Outcome State Fault Refusal :=
  issue s (plain (.brz d i)) fun s c _ =>
    if c.getS d = 0 then branchTo s c (wordOf (.brz d i)) (relTarget c i.toInt) false false else retire s c
/-- BRNZ (R115). -/
def execBrnz (d : SReg) (i : BitVec 16) (s : State) : Host.Outcome State Fault Refusal :=
  issue s (plain (.brnz d i)) fun s c _ =>
    if c.getS d ≠ 0 then branchTo s c (wordOf (.brnz d i)) (relTarget c i.toInt) false false else retire s c
/-- RET (R116). -/
def execRet (s : State) : Host.Outcome State Fault Refusal :=
  issue s (plain .ret) fun s c _ => branchTo s c (wordOf .ret) (c.getS 63).toNat true false
/-- JR (R116). -/
def execJr (a : SReg) (s : State) : Host.Outcome State Fault Refusal :=
  issue s (plain (.jr a)) fun s c _ => branchTo s c (wordOf (.jr a)) (c.getS a).toNat true false
/-- BLKZ (R104). -/
def execBlkz (d : SReg) (n : BitVec 16) (s : State) : Host.Outcome State Fault Refusal :=
  issue s (plain (.blkz d n)) fun s c t =>
    if maskOf t.width (c.getS d) = 0 then branchTo s c (wordOf (.blkz d n)) (c.pc.toNat + 4 + 4 * n.toNat) false false
    else retire s c

/-- R117: a MODE write that sets no reserved bit (R63 check 3). -/
def modeOk (q : BitVec 2) (i : BitVec 16) : Bool :=
  if 2 ≤ q.toNat then i == 0 else if q = 1 then !i.getLsbD 15 else true
/-- A quarter of MODE is replaced (R117). -/
def setQuarter (m : DWord) (q : BitVec 2) (i : BitVec 16) : DWord :=
  (m &&& ~~~(0xFFFF#64 <<< (16 * q.toNat))) ||| (i.setWidth 64 <<< (16 * q.toNat))
/-- MODE (R117, R119). -/
def execMode (q : BitVec 2) (i : BitVec 16) (s : State) : Host.Outcome State Fault Refusal :=
  issue s (fun _ _ => { word := wordOf (.mode q i), ok := modeOk q i }) fun s c _ =>
    retire s { c with mode := setQuarter c.mode q i }
/-- MODER (R118, R119). -/
def execModer (d a : SReg) (s : State) : Host.Outcome State Fault Refusal :=
  issue s (fun c _ => { word := wordOf (.moder d a), ok := a == 0 || (c.getS a).extractLsb' 31 33 == 0 }) fun s c _ =>
    retire s ({ c with mode := if a = 0 then c.mode else c.getS a }.setS d c.mode)

/-- The outstanding operations of a class that a wait with a threshold does not cover (R108): the youngest. -/
def youngest (s : State) (key : Nat) (cls : Cls) (t : Nat) : List Nat := (((opsOf s key (some cls)).map (·.1)).reverse).take t
/-- The thresholds of a wait by class (R110). -/
def thresholdOf (l st c t : Nat) : Cls → Nat
  | .load => l | .store => st | .copy => c | .tile => t
/-- A wait covers the operation that a held fault names (R108): a threshold of 63 covers nothing (R110). -/
def waitCovers (th : Cls → Nat) (spare : List Nat) (h : Held) : Bool :=
  match h.cls with
  | some k => decide (th k < 63) && !spare.contains h.op
  | none => false
/-- The wait of R110: what it covers is fixed when it issues (R108). Nothing happens until the counters are low enough; then faults held
against covered instructions are raised, or the wait retires. -/
def waitBody (th : Cls → Nat) (s : State) (c : Crew) (_ : Team) : State :=
  let k := s.cur
  let spare := c.spare.getD ([Cls.load, .store, .copy, .tile].flatMap fun q => youngest s k q (th q))
  if [Cls.load, .store, .copy, .tile].all fun q => decide (classCount s k q ≤ th q) then
    if c.held.any (waitCovers th spare) then raiseHeld s k c (waitCovers th spare) else retire s { c with spare := none }
  else s.setCrew k { c with spare := some spare }
/-- WAIT (R108, R110). -/
def execWait (l st c t : BitVec 6) (s : State) : Host.Outcome State Fault Refusal :=
  issue s (plain (.wait l st c t)) (waitBody (thresholdOf l.toNat st.toNat c.toNat t.toNat))
/-- WAITR (R111). -/
def execWaitr (a : SReg) (k : BitVec 2) (s : State) : Host.Outcome State Fault Refusal :=
  issue s (plain (.waitr a k)) fun s c t =>
    let th := min (c.getS a).toNat 63
    let pick := fun n => if k.toNat = n then th else 63
    waitBody (thresholdOf (pick 0) (pick 1) (pick 2) (pick 3)) s c t

/-- END (R121, R122): the region closes, the counters drain, held faults are raised, and the crew is ended. With the last crew
the team retires. -/
def execEndCrew (s : State) : Host.Outcome State Fault Refusal :=
  issue s (fun _ _ => { word := wordOf .endCrew, stops := true, closes := true }) fun s c t =>
    let k := s.cur
    let s := closeRegion s k c.pc (wordOf .endCrew)
    if (s.ops.any fun p => p.2.crew == k && p.2.cls.isSome) || s.wideMsgs.any fun m => m.crew == k then s
    else match s.crew? k with
      | none => s
      | some c =>
        if !c.held.isEmpty then raiseHeld s k c fun _ => true
        else
          let s := emitIssue (emitS s k 0x02 (BitVec.ofNat 8 c.idx) (BitVec.ofNat 32 t.tidx)) k c 0x0D
          let s := s.setCrew k { c with wait := .ended, handler := false, gangMarks := [], issued := c.issued + 1 }
          let s := s.modTeam c.team fun t => { t with ended := setAdd t.ended k }
          let s := failGangs 65 s (coreOf k) (listsCrew c.team c.idx) 2 none
          match s.team? c.team with
          | some t => if t.crews.all t.ended.contains then retireTeam s c.team else checkDeadlock s c.team
          | none => s

/-- The special registers of R48; none for an index that is not listed. -/
def readSpecial (s : State) (k : Nat) (c : Crew) (t : Team) (i : Nat) : Option DWord :=
  let e : LaunchRec := match Tbl.get? s.entries t.entry with | some e => e.rec_ | none => {}
  let x := t.tidx % e.gx
  let y := t.tidx / e.gx % e.gy
  let z := t.tidx / e.gx / e.gy
  let cnt := fun q => min (classCount s k q) 63
  match i with
  | 0x00 => some (BitVec.ofNat 64 t.width)
  | 0x01 => some (BitVec.ofNat 64 (slotOf k * 256 + c.idx))
  | 0x02 => some (BitVec.ofNat 64 (z * 2 ^ 32 + y * 2 ^ 16 + x))
  | 0x03 => some (BitVec.ofNat 64 (e.gz * 2 ^ 32 + e.gy * 2 ^ 16 + e.gx))
  | 0x04 => some (BitVec.ofNat 64 t.crews.length)
  | 0x05 => some (BitVec.ofNat 64 (coreOf k))
  | 0x06 => some (BitVec.ofNat 64 (dieTime s (coreOf k / 32)))
  | 0x07 => some (BitVec.ofNat 64 (cycleOf s (coreOf k / 32)))
  | 0x08 => match Tbl.get? s.ctxs t.ctx with
    | some q => some (BitVec.ofNat 64 (t.ctx % 65536 * 65536 + q.func * 256 + q.slice))
    | none => some 0
  | 0x09 => some c.rseed
  | 0x0A => some (c.rndcnt.setWidth 64)
  | 0x0B => some (BitVec.ofNat 64 (cnt .tile * 2 ^ 24 + cnt .copy * 2 ^ 16 + cnt .store * 2 ^ 8 + cnt .load))
  | 0x0C => some c.gang
  | 0x0D => some (s.svc.modid.setWidth 64)
  | 0x10 => some c.trap.w0
  | 0x11 => some c.trap.w1
  | 0x12 => some c.trap.w2
  | 0x13 => some c.trap.w3
  | 0x14 => some c.trap.w4
  | 0x15 => some c.trap.w5
  | 0x16 => some c.trap.w6
  | 0x17 => some c.trap.w7
  | _ => none
/-- An index that R48 lists. -/
def specialListed (i : Nat) : Bool := decide (i ≤ 0x0D) || decide (0x10 ≤ i ∧ i ≤ 0x17)
/-- SREAD (R120, R49). -/
def execSread (d : SReg) (i : BitVec 8) (s : State) : Host.Outcome State Fault Refusal :=
  issue s (fun _ _ => { word := wordOf (.sread d i), ok := specialListed i.toNat }) fun s c t =>
    let s := if i = 6 then noteTime s (coreOf s.cur / 32) else s
    retire s (c.setS d ((readSpecial s s.cur c t i.toNat).getD 0))

/-- ILLEGAL_INSTRUCTION_WORD (R68): the crew of the current move issues a word that is not an instruction. -/
def execIllegalInstructionWord (w : Word) (s : State) : Host.Outcome State Fault Refusal :=
  issue s (fun _ _ => { word := w, ok := false }) fun s _ _ => s
/-- INSTRUCTION_FETCH_FAULT (R112, R361, R370): the crew of the current move cannot fetch its next instruction, for the cause that the fetch
gives. -/
def execInstructionFetchFault (cause : BitVec 8) (addr : Addr) (detail : DWord) (s : State) : Host.Outcome State Fault Refusal :=
  match s.crew? s.cur, teamOfCrew s s.cur with
  | some c, some t =>
    if addr = c.pc ∧ fetch s t c.pc = .fails cause detail then
      issue s (fun _ _ => { word := 0 }) fun s c _ => trapAt s s.cur c 0 .fetch cause (c.pc.setWidth 64) 0 detail
    else disabled
  | _, _ => disabled
/-- ISSUE_STARVATION_PROMOTE (R101): a crew that has been ready for 64 cycles is chosen next of its priority. -/
def execIssueStarvationPromote (crew : Nat) (s : State) : Host.Outcome State Fault Refusal :=
  match s.crew? crew with
  | some c => if 64 ≤ c.ready then .next { s with promoted := setAdd s.promoted crew } else disabled
  | none => disabled

end Sys2Proof.Machine
end

