-- ==== Sys2Proof/Machine/Slices.lean ====
section
/-! DEFINITION. Slices: creation, growth, shrinking, merging, splitting and reset; the error state of a TDI (15 R420 to R430, R437,
R438, 16 R462, R464). -/
namespace Sys2Proof.Machine

/-- The key of an index is destroyed: its lines are written back and invalidated first (R469). -/
def zeroKey (s : State) (index : Nat) (owner : Option Nat) : State :=
  let s := dropKey s index
  let k := Tbl.getD s.sec.keys index {}
  { s with sec := { s.sec with keys := Tbl.put s.sec.keys index { owner := owner, gen := k.gen + 1 } } }
/-- The contexts of a function are torn down. -/
def teardownFunc (s : State) (func : Nat) : State :=
  (s.ctxs.filter fun p => p.2.func == func).foldl (fun s p => teardownCtx s p.1) s
/-- A function issues no request any more (R464): what its crews' operations have not yet sent to host space or another module is dropped. -/
def muteFunc (s : State) (func : Nat) : State :=
  { s with ops := s.ops.filterMap fun p =>
      if funcOfTeam s p.2.team = func then
        let left := p.2.accs.filter fun a => a.st != .todo || !(inHost a.pa || inPod a.pa)
        if left.isEmpty && !p.2.accs.isEmpty then none else some (p.1, { p.2 with accs := left })
      else some p }
/-- The steps of R464: contexts torn down, bulk keys and memory key zeroised. The function keeps its index, whose key a function-level reset
generates anew (R454, log entry 5). -/
def clearTdi (s : State) (func : Nat) : State :=
  let s := teardownFunc (muteFunc s func) func
  let s := s.modFunc func fun f => { f with bulkKeys := [] }
  match (s.func func).key with
  | some k => zeroKey s k (some func)
  | none => s
/-- A TDI enters ERROR (R464, R453). -/
def tdiError (s : State) (func : Nat) : State :=
  (clearTdi s func).modFunc func fun f => { f with tdi := .error }.signal 3
/-- The functions bound to a slice whose TDI is locked. -/
def lockedFuncs (s : State) (slice : Nat) : List Nat :=
  ((s.funcs.filter fun p => p.2.slice == slice).map (·.1)).filter (tdiLocked s)

/-- A queue's descriptor changes (R431). -/
def modQueue (s : State) (func queue : Nat) (g : Queue → Queue) : State :=
  s.modFunc func fun f => { f with queues := Tbl.upd f.queues queue g }
/-- A queue leaves its slot. -/
def unmapSlot (s : State) (slice slot : Nat) : State :=
  match Tbl.get? (s.slice slice).slots slot with
  | none => s
  | some m =>
    let s := s.modSlice slice fun x => { x with slots := Tbl.del x.slots slot }
    let s := modQueue s m.func m.queue fun q => { q with slot := none }
    match Tbl.get? (s.func m.func).queues m.queue with
    | some q => if q.head ≠ q.tail then s.modFunc m.func fun f => { f with pendingNotify := setAdd f.pendingNotify m.queue } else s
    | none => s

/-- Core ranges as die, lowest and highest position. -/
abbrev Ranges := List (Nat × Nat × Nat)
/-- The core ids of ranges (R422). -/
def coresOf (rs : Ranges) : List Nat := rs.flatMap fun r => (List.range (r.2.2 + 1 - r.2.1)).map fun i => 32 * r.1 + r.2.1 + i
def rangesOk (rs : Ranges) : Bool :=
  rs.all (fun r => decide (r.1 < 64 ∧ r.2.1 ≤ r.2.2 ∧ r.2.2 < 32)) && (rs.map (·.1)).eraseDups.length == rs.length
/-- SLCORE of a range (R422). -/
def slcore (r : Nat × Nat × Nat) : Nat × DWord := (r.1, BitVec.ofNat 64 (2 ^ 63 + r.2.2 * 256 + r.2.1))
/-- The SLCORE registers of a slice that comes to ranges: that of a die which it leaves keeps BASE and LIMIT, with V clear (log entry 127). -/
def slcores (old : Tbl DWord) (rs : Ranges) : Tbl DWord :=
  rs.foldl (fun t r => Tbl.put t r.1 (slcore r).2) (Tbl.mapV old fun v => v &&& 0x7FFFFFFFFFFFFFFF)
/-- The ranges that SLCORE registers give (R422). -/
def rangesOf (cs : Tbl DWord) : Ranges :=
  (cs.filter fun p => p.2.getLsbD 63).map fun p => (p.1, (p.2.extractLsb' 0 5).toNat, (p.2.extractLsb' 8 5).toNat)
def rangesIn (x : Slice) : Ranges := rangesOf x.cores
/-- The fields of SLMEM (R423). -/
def wgOf (m : DWord) : BitVec 16 := m.extractLsb' 48 16
def pinOf (m : DWord) : BitVec 16 := m.extractLsb' 32 16
def chBase (m : DWord) : Nat := (m.extractLsb' 0 8).toNat
def chLim (m : DWord) : Nat := (m.extractLsb' 8 8).toNat
/-- SLMEM keeps its own limits (R421, R423): pinned ways among the slice's, one left unpinned, a range of channel sets. -/
def memOk (m : DWord) : Bool :=
  (pinOf m &&& ~~~wgOf m) == 0 && (wgOf m &&& ~~~pinOf m) != 0 && decide (chBase m ≤ chLim m) && m.extractLsb' 16 6 == 0
/-- A slice exists: it has cores. -/
def sliceUsed (s : State) (i : Nat) : Bool := (s.slice i).cores.any fun p => p.2.getLsbD 63
/-- The cores that a slice has or is to have, and the SLMEMs (R420, R429). -/
def claimedCores (s : State) (j : Nat) : List Nat :=
  let x := s.slice j
  sliceCores s j ++ x.left ++ (match x.target with | some (cs, _) => coresOf (rangesOf cs) | none => [])
def claimedMems (s : State) (j : Nat) : List DWord :=
  (s.slice j).mem :: (match (s.slice j).target with | some (_, m) => [m] | none => [])
/-- The way-groups and channel sets of an SLMEM belong to no other slice, and no set of them is retired (R420, R421). -/
def memFree (s : State) (i : Nat) (m : DWord) : Bool :=
  ((List.range (chLim m + 1 - chBase m)).all fun k => !s.svc.retiredSets.contains (chBase m + k)) &&
  (List.range 16).all fun j => j == i || (claimedMems s j).all fun o =>
    o == 0 || ((wgOf o &&& wgOf m) == 0 && (decide (chLim o < chBase m) || decide (chLim m < chBase o)))
/-- Another slice has none of the cores, way-groups and channel sets; none of them is out of service (R420, R421). -/
def partsFree (s : State) (i : Nat) (rs : Ranges) (m : DWord) : Bool :=
  (coresOf rs).all (fun c => !coreDown s c) && memFree s i m &&
  (List.range 16).all fun j => j == i || !((claimedCores s j).any (coresOf rs).contains)
/-- A write that R420 refuses. -/
def sliceRefuse (s : State) (i : Nat) : State := s.modSlice i fun x => { x with stat := x.stat ||| 0x100 }
/-- SLSTAT for an operation under way (R428), ERR kept. -/
def statWord (old : DWord) (pending op state : Nat) : DWord := (old &&& 0x100) ||| BitVec.ofNat 64 (pending % 65536 * 2 ^ 32 + op * 16 + state)
/-- The slice has an operation under way. -/
def sliceBusy (s : State) (i : Nat) : Bool := (s.slice i).stat.extractLsb' 0 8 != 0
/-- How many bits of a mask are set. -/
def bitsSet (m : BitVec 16) : Nat := (below 16 m.getLsbD).length
/-- A resource of the capability table (R427) by its RES code; what the spec leaves open of it is free (log entry 85). -/
def capResource (s : State) (res : Nat) : CapRec :=
  let sum := fun (l : List Nat) => l.foldl (· + ·) 0
  let per := fun (f : Nat → Nat) => (List.range 16).map f
  let free := Config.capResource (s.svc.capGen + 1) res
  let wide := fun (level total : Nat) (f : Nat × Nat × Nat × Nat → Nat) =>
    let o := per fun i => f (s.slice i).wide * ((sliceCores s i).map (instanceOf level)).eraseDups.length
    CapRec.resource (3 + level) total (total - sum o) o
  match res with
  | 1 =>
    let owned := fun (d : Nat) => sum (per fun i => (coresOnDie (sliceCores s i) d).length)
    .resource 1 2048 (sum ((List.range Config.dies).map fun d => if s.svc.fenced.contains d then 0 else 32 - owned d))
      (per fun i => (sliceCores s i).length)
  | 2 => let o := per fun i => bitsSet (wgOf (s.slice i).mem); .resource 2 16 (16 - sum o) o
  | 3 => .resource 3 free.1 free.2.1 (per fun i => bitsSet (pinOf (s.slice i).mem))
  | 4 =>
    let o := per fun i => let m := (s.slice i).mem; if m = 0 then 0 else chLim m + 1 - chBase m
    let n := 256 - s.svc.retiredSets.length
    .resource 4 n (n - sum o) o
  | 5 => wide 2 32768 (·.1)
  | 6 => wide 3 8192 (·.2.1)
  | 7 => wide 4 256 (·.2.2.1)
  | 8 => wide 5 256 (·.2.2.2)
  | 9 => let o := per fun i => if sliceUsed s i then 64 else 0; .resource 9 1024 (1024 - sum o) o
  | 10 =>
    let o := per fun i => (s.sec.keys.filter fun p => match p.2.owner with | some f => (s.func f).slice == i | none => false).length
    .resource 10 128 (128 - sum o) o
  | 11 => let o := per fun i => sum ((s.funcs.filter fun p => p.2.slice == i).map (·.2.groups.length)); .resource 11 8192 (8192 - sum o) o
  | 12 => let o := per fun i => sum ((s.funcs.filter fun p => p.2.slice == i).map (·.2.bulkKeys.length)); .resource 12 8192 (8192 - sum o) o
  | 13 => .resource 13 512 512 (per fun _ => 0)
  | n => .resource n free.1 free.2.1 (per fun i => free.2.2.getD i 0)
/-- The records of the capability table (R427). -/
def capRecords (s : State) : List CapRec :=
  ((List.range 13).map fun n => capResource s (n + 1)) ++
  (((List.range 16).filter (sliceUsed s)).map fun i =>
    let x := s.slice i
    CapRec.slice i ((s.funcs.filter fun p => p.2.slice == i).map (·.1)) x.mem x.fab x.cores) ++
  (s.funcs.map fun p =>
    CapRec.func p.1 p.2.slice p.2.hbmDepth p.2.hbmRate p.2.wCopy p.2.wColl p.2.quantum
      ((s.slice p.2.slice).slots.filter fun m => m.2.func == p.1).length) ++
  [.budgets ((List.range Config.dies).map (budgetOf s))]
/-- The capability table is published anew: each change raises GEN by one (R427). -/
def capChange (s : State) : State := { s with svc := { s.svc with capGen := s.svc.capGen + 1, cap := capRecords s } }
/-- The wide barrier contexts of a level at an instance (R28). -/
def wideTotal (level : Nat) : Nat := match level with | 2 => 64 | 3 => 128 | _ => 256
def wideOfLevel (w : Nat × Nat × Nat × Nat) (level : Nat) : Nat :=
  match level with | 2 => w.1 | 3 => w.2.1 | 4 => w.2.2.1 | _ => w.2.2.2
/-- The contexts of a level that a slice with such cores can have (R28): at each of its instances, what the other slices there leave. -/
def wideFree (s : State) (i : Nat) (cs : List Nat) (level : Nat) : Nat :=
  let others := (List.range 16).filter (· != i)
  let used := fun (inst : Nat) => (others.filter fun j => (sliceCores s j).any fun c => instanceOf level c == inst).foldl
    (fun n j => n + wideOfLevel (s.slice j).wide level) 0
  wideTotal level - ((cs.map (instanceOf level)).eraseDups.map used).foldl max 0
/-- Firmware assigns wide barrier contexts out of so many of each level (R28, log entry 97). -/
def assignWide (s : State) (free : Nat → Nat) : Nat × Nat × Nat × Nat :=
  let n := fun (level : Nat) => min (free level) (Config.wideShare s.clock level)
  (n 2, n 3, n 4, n 5)
/-- What a slice keeps of its contexts as its cores change: no context belongs to two slices (R420). -/
def fitWide (s : State) (i : Nat) (cs : List Nat) (w : Nat × Nat × Nat × Nat) : Nat × Nat × Nat × Nat :=
  let n := fun (level : Nat) => min (wideOfLevel w level) (wideFree s i cs level)
  (n 2, n 3, n 4, n 5)
/-- The lines that way-groups hold, and the dirty ones among them (R183, R429). -/
def groupLines (s : State) (gs : List Nat) : List L2Line := s.l2.filter fun e => gs.contains (e.way / 2)
def groupDirty (s : State) (gs : List Nat) : List L2Line := (groupLines s gs).filter fun e => dirtyLine s e.line
/-- Dirty lines of way-groups are written back as far as the carve budget of each segment goes (R183, R447). -/
def drainGroups (s : State) (gs : List Nat) : State :=
  (groupDirty s gs).foldl (fun s e =>
    if spentOf s 6 e.seg < ((budgetOf s (e.seg / 16)).2.extractLsb' 0 16).toNat then spend (cleanLines s (· == e.line)) 6 e.seg 1 else s) s
/-- Way-groups without a dirty line give up their lines. -/
def emptyGroups (s : State) (gs : List Nat) : State := (groupLines s gs).foldl (fun s e => evictL2 s e.line) s
/-- L2CSTAT of a slice as its way-groups stand (R183). -/
def fixL2c (s : State) (i : Nat) : State :=
  let n := (groupDirty s (s.slice i).closedGroups).length
  s.modSlice i fun x => { x with l2cstat := carveWord (min n 65535) (if 0 < n then 1 else 0) }
/-- The pinning of way-groups changes (R183): they take no fill until their dirty lines are written back, and their clean lines are dropped. -/
def takeGroups (s : State) (i : Nat) (gs : List Nat) : State :=
  let s := ((groupLines s gs).filter fun e => !dirtyLine s e.line).foldl (fun s e => evictL2 s e.line) s
  let left := gs.filter fun g => !(groupDirty s [g]).isEmpty
  fixL2c (s.modSlice i fun x => { x with taken := (x.taken.filter fun g => !gs.contains g) ++ left }) i
/-- SLICE_CREATE (R429). -/
def execSliceCreate (i : Nat) (cores : List (Nat × Nat × Nat)) (mem : DWord) (s : State) : Host.Outcome State Fault Refusal :=
  if 16 ≤ i then disabled
  else if sliceUsed s i || sliceBusy s i || !rangesOk cores || cores.isEmpty || !memOk mem || !partsFree s i cores mem || !(lockedFuncs s i).isEmpty then
    .next (sliceRefuse s i)
  else .next (capChange (s.modSlice i fun x => { x with
    cores := slcores x.cores cores, mem := mem, left := [], leaving := [], cursor := none, wide := assignWide s (wideFree s i (coresOf cores)) }))
/-- SLICE_GROW (R429, R183): the ranges and SLMEM given are those after the growth. -/
def execSliceGrow (i : Nat) (cores : List (Nat × Nat × Nat)) (mem : DWord) (s : State) : Host.Outcome State Fault Refusal :=
  if 16 ≤ i then disabled
  else
    let old := (s.slice i).mem
    let covers := (sliceCores s i).all (coresOf cores).contains && (wgOf old &&& ~~~wgOf mem) == 0 && mem.extractLsb' 22 10 == old.extractLsb' 22 10 &&
      decide (chBase mem ≤ chBase old ∧ chLim old ≤ chLim mem)
    if !sliceUsed s i || sliceBusy s i || !covers || !rangesOk cores || !memOk mem || !partsFree s i cores mem || !(lockedFuncs s i).isEmpty then
      .next (sliceRefuse s i)
    else
      let pins := (List.range 16).filter fun g => (wgOf old).getLsbD g && (pinOf mem).getLsbD g != (pinOf old).getLsbD g
      .next (capChange (takeGroups (s.modSlice i fun x => { x with
        cores := slcores x.cores cores, mem := mem, wide := fitWide s i (coresOf cores) x.wide }) i pins))
/-- The parts that a slice loses when it comes down to ranges and an SLMEM. -/
def lostParts (s : State) (i : Nat) (rs : Ranges) (m : DWord) : List SlicePart :=
  let old := (s.slice i).mem
  ((sliceCores s i).filter fun c => !(coresOf rs).contains c).map .core ++
  ((List.range 16).filter fun g => (wgOf old).getLsbD g && !(wgOf m).getLsbD g).map .wayGroup ++
  (((List.range (chLim old + 1 - chBase old)).map (chBase old + ·)).filter fun k => decide (k < chBase m ∨ chLim m < k)).map .channelSet
/-- STATE while parts are leaving (R428). -/
def leavingState (ps : List SlicePart) : Nat :=
  if ps.any fun p => match p with | .wayGroup _ => true | _ => false then 1
  else if ps.any fun p => match p with | .core _ => true | _ => false then 2
  else if ps.isEmpty then 0 else 3
/-- A shrink begins (R429): parts are to leave, and the slice is then what the SLCORE registers and the SLMEM given say. -/
def startShrink (s : State) (i op : Nat) (cs : Tbl DWord) (m : DWord) (split : Option Nat) : State :=
  let ps := lostParts s i (rangesOf cs) m
  fixL2c (s.modSlice i fun x => { x with
    leaving := ps, target := some (cs, m), splitTo := split, stat := statWord x.stat ps.length op (leavingState ps) }) i
/-- A smaller composition of a slice. -/
def shrinkOk (s : State) (i : Nat) (rs : Ranges) (m : DWord) : Bool :=
  let old := (s.slice i).mem
  sliceUsed s i && !sliceBusy s i && rangesOk rs && !rs.isEmpty && (coresOf rs).all (sliceCores s i).contains && memOk m &&
  (wgOf m &&& ~~~wgOf old) == 0 && decide (chBase old ≤ chBase m ∧ chLim m ≤ chLim old) && m.extractLsb' 22 10 == old.extractLsb' 22 10 &&
  (lockedFuncs s i).isEmpty
/-- The end of a shrink or split, when no part is left to leave. -/
def endShrink (s : State) (i : Nat) : State :=
  let x := s.slice i
  if !x.leaving.isEmpty then s
  else
    let s := match x.target with
      | some (cs, m) =>
        let pins := (List.range 16).filter fun g => (wgOf m).getLsbD g && (pinOf m).getLsbD g != (pinOf x.mem).getLsbD g
        takeGroups (s.modSlice i fun x => { x with
          cores := cs, mem := m, left := [], target := none, wide := fitWide s i (coresOf (rangesOf cs)) x.wide }) i pins
      | none => s
    let s := match x.splitTo with
      | some j =>
        (match (s.slice j).target with
         | some (cs, m) =>
           let w := assignWide s (wideOfLevel x.wide)
           let s := s.modSlice j fun y => { y with cores := cs, mem := m, left := [], leaving := [], target := none, cursor := none,
                                                   stat := statWord y.stat 0 0 0, wide := w }
           s.modSlice i fun x => { x with
             wide := (x.wide.1 - w.1, x.wide.2.1 - w.2.1, x.wide.2.2.1 - w.2.2.1, x.wide.2.2.2 - w.2.2.2) }
         | none => s)
      | none => s
    capChange (fixL2c (s.modSlice i fun x => { x with splitTo := none, stat := statWord x.stat 0 0 0 }) i)
/-- SLICE_SHRINK (R429). -/
def execSliceShrink (i : Nat) (cores : List (Nat × Nat × Nat)) (mem : DWord) (s : State) : Host.Outcome State Fault Refusal :=
  if 16 ≤ i then disabled
  else if shrinkOk s i cores mem then .next (endShrink (startShrink s i 3 (slcores (s.slice i).cores cores) mem none) i)
  else .next (sliceRefuse s i)
/-- SLICE_SPLIT (R429): slice b is formed of cores and of the parts that memB names, which a gives up; a keeps the rest. The ranges
that a keeps lie beside those of b on each die. -/
def execSliceSplit (a b : Nat) (cores : List (Nat × Nat × Nat)) (memA memB : DWord) (s : State) : Host.Outcome State Fault Refusal :=
  if 16 ≤ a ∨ 16 ≤ b ∨ a = b then disabled
  else
    let keep := ((s.slice a).cores.map fun p =>
      let cs := (sliceCores s a).filter fun c => c / 32 == p.1 && !(coresOf cores).contains c
      match cs with
      | [] => none
      | c :: _ => some (p.1, c % 32, (cs.getLastD c) % 32)).filterMap id
    let old := (s.slice a).mem
    let within := (coresOf cores).all (sliceCores s a).contains && (wgOf memB &&& ~~~wgOf old) == 0 && (wgOf memA &&& wgOf memB) == 0 &&
      decide (chBase old ≤ chBase memB ∧ chLim memB ≤ chLim old) && (decide (chLim memA < chBase memB) || decide (chLim memB < chBase memA)) &&
      rangesOk cores && !cores.isEmpty && memOk memB && !sliceUsed s b && !sliceBusy s b && (lockedFuncs s b).isEmpty &&
      (coresOf keep).all fun c => !(coresOf cores).contains c
    if within && shrinkOk s a keep memA then
      let s := s.modSlice b fun y => { y with target := some (slcores y.cores cores, memB), stat := statWord y.stat 0 5 2 }
      .next (endShrink (startShrink s a 5 (slcores (s.slice a).cores keep) memA (some b)) a)
    else .next (sliceRefuse s a)
/-- A leaf of a context names a channel set. -/
def setMapped (s : State) (slice k : Nat) : Bool :=
  s.ctxs.any fun p => p.2.slice == slice && (leavesFrom s walkLevels p.2.root).any fun a =>
    let e := tableWord s a
    let pa := (e.extractLsb' 16 36).toNat * 65536
    e.extractLsb' 7 2 != 1 && inHbm pa && channelSet pa == k
/-- SLICE_RELEASE_PROGRESS (R429, R183): a core that holds no team, a way-group whose dirty lines are written back, or a channel set that no
leaf maps leaves the slice; a way-group whose pinning changes joins its new use. -/
def execSliceReleaseProgress (i : Nat) (part : SlicePart) (s : State) : Host.Outcome State Fault Refusal :=
  let x := s.slice i
  let drain := fun (g : Nat) (done : State → State) =>
    let s' := fixL2c (drainGroups s [g]) i
    if (groupDirty s' [g]).isEmpty then Host.Outcome.next (fixL2c (done (emptyGroups s' [g])) i) else if s' = s then disabled else .next s'
  let leave := fun (s : State) =>
    let rest := x.leaving.filter (· != part)
    endShrink (s.modSlice i fun x => { x with
      leaving := rest, stat := statWord x.stat rest.length (x.stat.extractLsb' 4 4).toNat (leavingState rest) }) i
  match part with
  | .core c =>
    if x.leaving.contains part && (teamsOn s c).isEmpty then .next (leave (s.modSlice i fun x => { x with left := setAdd x.left c })) else disabled
  | .channelSet k => if x.leaving.contains part && !setMapped s i k then .next (leave s) else disabled
  | .wayGroup g =>
    if x.leaving.contains part then drain g leave
    else if x.taken.contains g then drain g fun s => s.modSlice i fun x => { x with taken := setDel x.taken g }
    else disabled
/-- Two ranges of one die as one; none when they do not touch. -/
def joinRanges (a b : Ranges) : Option Ranges :=
  let dies := ((a ++ b).map (·.1)).eraseDups
  let one := fun (d : Nat) =>
    match (a ++ b).filter fun r => r.1 == d with
    | [r] => some r
    | [r, q] => if r.2.2 + 1 = q.2.1 then some (d, r.2.1, q.2.2) else if q.2.2 + 1 = r.2.1 then some (d, q.2.1, r.2.2) else none
    | _ => none
  if dies.all fun d => (one d).isSome then some (dies.filterMap one) else none
/-- The parts of a slice (R421). -/
def partCount (s : State) (i : Nat) : Nat :=
  let m := (s.slice i).mem
  (sliceCores s i).length + bitsSet (wgOf m) + (if m = 0 then 0 else chLim m + 1 - chBase m)
/-- The end of a merge: b's parts, functions, contexts and admissions are a's, its queues have no slot, and what its registers hold beside the
parts stays (R425, R428). Cores of b that a fence takes go on leaving (R480). -/
def joinSlices (s : State) (a b : Nat) (rs : Ranges) (lo hi : Nat) : State :=
  let x := s.slice a
  let y := s.slice b
  let mem := (x.mem &&& 0x00000000FFC00000) ||| BitVec.ofNat 64 ((wgOf x.mem ||| wgOf y.mem).toNat * 2 ^ 48 +
    (pinOf x.mem ||| pinOf y.mem).toNat * 2 ^ 32 + hi * 256 + lo)
  let s := y.slots.foldl (fun s p => unmapSlot s b p.1) s
  let moveF := fun (f : Func) => if f.slice = b then { f with slice := a } else f
  let moveC := fun (c : Ctx) => if c.slice = b then { c with slice := a } else c
  let moveA := fun (d : Admission) => if d.slice = b then { d with slice := a } else d
  let s := { s with
    funcs := Tbl.mapV s.funcs moveF
    ctxs := Tbl.mapV s.ctxs moveC
    admissions := Tbl.mapV s.admissions moveA
    slices := Tbl.put s.slices b { cores := slcores y.cores [], fab := y.fab, stat := y.stat &&& 0x100 } }
  let wide := fitWide s a (coresOf rs) (x.wide.1 + y.wide.1, x.wide.2.1 + y.wide.2.1, x.wide.2.2.1 + y.wide.2.2.1, x.wide.2.2.2 + y.wide.2.2.2)
  let s := s.modSlice a fun x => { x with cores := slcores x.cores rs, mem := mem, wide := wide }
  if y.leaving.isEmpty then s
  else startShrink s a 3 (slcores (s.slice a).cores (rs.filter fun r => !s.svc.fenced.contains r.1)) mem none
/-- SLICE_MERGE (R429): b's contexts are halted and its way-groups written back first; then b's parts and functions pass to a, which keeps its colour, and the
contexts go on under a. A locked TDI of either slice enters ERROR (R462). -/
def execSliceMerge (a b : Nat) (s : State) : Host.Outcome State Fault Refusal :=
  if 16 ≤ a ∨ 16 ≤ b ∨ a = b then disabled
  else
    let x := s.slice a
    let y := s.slice b
    let ch := if chLim x.mem + 1 = chBase y.mem then some (chBase x.mem, chLim y.mem)
      else if chLim y.mem + 1 = chBase x.mem then some (chBase y.mem, chLim x.mem) else none
    let going := y.stat.extractLsb' 4 4 == 4
    let groups := (List.range 16).filter fun g => (wgOf y.mem).getLsbD g
    let parts := partCount s b
    match joinRanges (rangesIn x) (rangesIn y), ch with
    | some rs, some (lo, hi) =>
      if going && sliceBusy s a then disabled
      else if !sliceUsed s a || !sliceUsed s b || sliceBusy s a || (sliceBusy s b && !going) then .next (sliceRefuse s a)
      else
        let ts := s.teams.filter fun p => !p.2.retired && (match Tbl.get? s.ctxs p.2.ctx with | some c => c.slice == b | none => false)
        if !ts.all (·.2.isHalted) then
          if going then disabled
          else .next (ts.foldl (fun s p => haltTeam s p.1 .preempt) (s.modSlice b fun y => { y with stat := statWord y.stat parts 4 2 }))
        else if !(groupDirty s groups).isEmpty then
          let s' := drainGroups (s.modSlice b fun y => { y with stat := statWord y.stat parts 4 1, taken := groups }) groups
          if s' = s then disabled else .next (fixL2c s' b)
        else
          let s := (lockedFuncs s a ++ lockedFuncs s b).foldl tdiError (emptyGroups s groups)
          let s := endShrink (joinSlices s a b rs lo hi) a
          .next (capChange (ts.foldl (fun s p =>
            let ok := match Tbl.get? s.ctxs p.2.ctx with | some c => serves s c | none => false
            if ok && p.2.halt == .halted .preempt then (match resumeTeam s p.1 with | some s' => s' | none => s) else s) s))
    | _, _ => .next (sliceRefuse s a)
/-- The flat addresses of the completion records that a teardown of a context writes. -/
def complAddrs (s : State) (ctx : Nat) : List Nat :=
  ((s.entries.filter fun p => p.2.ctx == ctx).map (·.2.rec_.compl) ++ (s.bound.filter fun p => p.2.ctx == ctx).map (·.2.task.compl)).filterMap
    fun v => if v = 0 then none else match walkAcc s ctx v 32 false true with | .ok a => some a.pa | .error _ => none
/-- SLICE_RESET (R437, R438): a write of SLRST. The first move does the six steps, during which the slice refuses what others send it; the
second ends the reset. What the slice's crews have in flight is dropped, and dirty lines lose what HBM or host memory does not hold, but for the
completion records. -/
def execSliceReset (i : Nat) (s : State) : Host.Outcome State Fault Refusal :=
  if 16 ≤ i ∨ sliceUsed s i = false then disabled
  else if (s.slice i).stat.extractLsb' 4 4 = 6 then
    .next (s.modSlice i fun x => { x with stat := statWord x.stat x.leaving.length (if x.leaving.isEmpty then 0 else 3) (leavingState x.leaving) })
  else
    let cs := (s.ctxs.filter fun p => p.2.slice == i).map (·.1)
    let recs := cs.flatMap (complAddrs s)
    let locked := lockedFuncs s i
    let s := cs.foldl (fun s c => teardownCtx s c true) s
    let s := locked.foldl tdiError s
    let s := writeBack s fun l => recs.any fun r => decide (lineOf r = l)
    let groups := (List.range 16).filter fun g => (wgOf (s.slice i).mem).getLsbD g
    let held := fun (l : Nat) => sliceHasAddr s i (l * 128) || (s.l2.any fun e => e.line == l && groups.contains (e.way / 2)) ||
      (sliceCores s i).any fun c => (l1Line s c l).isSome
    let lost := s.undo.filter fun p => held (lineOf p.1)
    let s := { s with undo := s.undo.filter fun p => !held (lineOf p.1), mem := lost.foldl (fun m p => Sparse.set (w := 8) m p.1 p.2) s.mem
                      l2 := s.l2.filter fun e => !(groups.contains (e.way / 2) || sliceHasAddr s i (e.line * 128)) }
    let s := (sliceCores s i).foldl (fun s c => s.modCore c fun k => { k with l1 := [], inv := [], trivet := [] }) s
    .next (s.modSlice i fun x => { x with stat := statWord x.stat 0 6 4, running := none, switching := none, compact := none })

end Sys2Proof.Machine
end

