-- ==== Sys2Proof/Machine/Queues.lean ====
section
/-! DEFINITION. Queues and their slots, and adapter admission (12 R337, 15 R430 to R435, R444 to R446). -/
namespace Sys2Proof.Machine

/-- A QERR bit is set; one that rises signals MSI-X vector 1 (R431, R453). -/
def setQerr (s : State) (func queue bit : Nat) : State :=
  match Tbl.get? (s.func func).queues queue with
  | none => s
  | some q =>
    let s := modQueue s func queue fun q => { q with qerr := q.qerr ||| BitVec.ofNat 32 (2 ^ bit) }
    if q.qerr.getLsbD bit then s else s.modFunc func fun f => f.signal 1
/-- Firmware receives an event. -/
def tellFirmware (s : State) (code func queue value : Nat) : State :=
  { s with svc := { s.svc with events := s.svc.events ++ [(code, func, queue, value)] } }
/-- QUEUE_NOTIFY (R432, R434). -/
def execQueueNotify (func queue : Nat) (value : DWord) (s : State) : Host.Outcome State Fault Refusal :=
  let tail : BitVec 16 := value.setWidth 16
  match Tbl.get? (s.func func).queues queue with
  | none => .next (tellFirmware s 1 func queue tail.toNat)
  | some q =>
    if 2 ^ q.log2n < (tail - q.head).toNat then .next (setQerr s func queue 0)
    else if tail = q.tail then .next s
    else
      let s := modQueue s func queue fun q => { q with tail := tail }
      if q.slot.isSome then .next s
      else
        let s := tellFirmware (s.modFunc func fun f => { f with pendingNotify := setAdd f.pendingNotify queue }) 2 func queue tail.toNat
        let slots := (s.slice (s.func func).slice).slots
        let allNp := slots.length == 64 && slots.all fun p =>
          match Tbl.get? (s.func p.2.func).queues p.2.queue with | some q => q.np | none => false
        .next (if allNp then tellFirmware s 3 func queue 0 else s)
/-- QUEUE_MAP (R434, R435): the scheduler maps a queue to a slot of its function's slice; a queue without NP that holds the slot is
unmapped. Slot 64 is none: the scheduler unmaps the queue, which has no NP. -/
def execQueueMap (func queue slot : Nat) (s : State) : Host.Outcome State Fault Refusal :=
  let sl := (s.func func).slice
  match Tbl.get? (s.func func).queues queue with
  | none => disabled
  | some q =>
    let held := match Tbl.get? (s.slice sl).slots slot with
      | some m => (match Tbl.get? (s.func m.func).queues m.queue with | some q => q.np | none => false)
      | none => false
    if slot = 64 then
      match q.slot with
      | some k => if q.np then disabled else .next (unmapSlot s sl k)
      | none => disabled
    else if q.slot.isSome || held || decide (64 < slot) || !(s.func func).enabled then disabled
    else
      let s := unmapSlot s sl slot
      let s := s.modSlice sl fun x => { x with slots := Tbl.put x.slots slot { func := func, queue := queue, since := s.time.master } }
      let s := modQueue s func queue fun q => { q with slot := some slot }
      .next (s.modFunc func fun f => { f with pendingNotify := setDel f.pendingNotify queue })
/-- NP_QUEUE_RECLAIM (R435): after RUNMAX µs. -/
def execNpQueueReclaim (slice slot : Nat) (s : State) : Host.Outcome State Fault Refusal :=
  match Tbl.get? (s.slice slice).slots slot with
  | none => disabled
  | some m =>
    match Tbl.get? (s.func m.func).queues m.queue with
    | none => disabled
    | some q =>
      if q.np ∧ m.since + q.runmax * 16000 ≤ s.time.master then .next (tellFirmware (unmapSlot s slice slot) 4 m.func m.queue 0)
      else disabled

/-- What a read through a context's tables gives. -/
inductive TableRead where
  | bytes (bs : List Byte) | absent (page : Nat) | fails
  deriving DecidableEq, Repr
/-- A read of n bytes within a page through a context's page tables (R433, R446). -/
def tableRead (s : State) (ctx va n : Nat) : TableRead :=
  match Tbl.get? s.ctxs ctx with
  | none => .fails
  | some x =>
    if placeOf va ≠ .global then .fails
    else match pageNow s x (va / 65536) with
      | .hole => .absent (va / 65536)
      | .bad => .fails
      | .leaf _ =>
        match walkAcc s ctx va n true false with
        | .error _ => .fails
        | .ok a =>
          match reach s x.func .load a with
          | .here b => if anyPoison s b.pa n then .fails else .bytes (readBytes s b.key b.pa n)
          | .answered (.data bs) => .bytes bs
          | .answered _ => .fails
          | .waits =>
            let q := Config.podAnswer s.clock a.pa n
            if q.1 % 7 = 0 then .bytes ((q.2 ++ List.replicate n 0).take n) else .fails
/-- HEAD advances past a fetched entry. -/
def advanceHead (s : State) (func queue : Nat) : State := modQueue s func queue fun q => { q with head := q.head + 1 }
/-- COMPL of a malformed host queue entry is usable (R337). -/
def complUsable (r : List Byte) : Bool := fieldOf r 71 1 == 0 && fieldOf r 64 7 != 0 && fieldOf r 64 7 % 32 == 0
/-- An admission entry is well-formed (R445), but for TABLE, which R446 checks. -/
def admissionOk (r : List Byte) : Bool :=
  let n := fieldOf r 24 2
  fieldOf r 8 8 != 0 && decide (fieldOf r 8 8 < 2 ^ 63) && decide (1 ≤ n ∧ n ≤ 4096 ∧ fieldOf r 26 2 < n) && decide (fieldOf r 28 1 ≤ 1) && fieldOf r 29 3 == 0 && allZero ((r.drop 40).take 24) &&
  allZero (r.drop 128) && (fieldOf r 67 1 == 1 || fieldOf r 67 1 == 2)
/-- An entry of a ring as its slot takes it (R433, R337, R445). -/
def takeRing (s : State) (slice func queue : Nat) (q : Queue) (va : Nat) (r : List Byte) : State :=
  if fieldOf r 7 1 = 1 then
    if launchOk r then
      if queueFull s q.ctx then s
      else advanceHead (queueEntry s { ctx := q.ctx, rec_ := launchOf r, addr := va }) func queue
    else
      let s := if complUsable r then
          writeCompletion s q.ctx (fieldOf r 64 7) (fieldOf r 72 4) 0x0001 (completionBytes 0x0001 { ctx := q.ctx, rec_ := launchOf r, addr := va } 0)
        else setQerr s func queue 1
      advanceHead s func queue
  else if fieldOf r 7 1 = 3 ∧ admissionOk r = true ∧ (fieldOf r 16 8 % 8 ≠ 0 ∨ 2 ^ 56 ≤ fieldOf r 16 8) then
    advanceHead (setQerr s func queue 2) func queue
  else if fieldOf r 7 1 = 3 ∧ admissionOk r = true then
    let a : Admission := { slice := slice, ctx := q.ctx, queue := queue, lrec := fieldOf r 0 7, adapter := BitVec.ofNat 64 (fieldOf r 8 8),
                           table := fieldOf r 16 8, nslots := fieldOf r 24 2, pref := fieldOf r 26 2, policy := fieldOf r 28 1,
                           stride := fieldOf r 32 8, record := (r.drop 64).take 64 }
    advanceHead { s with admissions := Tbl.put s.admissions s.nextId a, nextId := s.nextId + 1 } func queue
  else advanceHead (setQerr s func queue 1) func queue
/-- A slot has an entry to fetch and waits for no page. -/
def slotDue (s : State) (m : QSlot) : Bool :=
  m.page.isNone && match Tbl.get? (s.func m.func).queues m.queue with | some q => q.head != q.tail | none => false
/-- QUEUE_SLOT_FETCH (R433): the slots of a slice take turns, one entry each. -/
def execQueueSlotFetch (slice slot : Nat) (s : State) : Host.Outcome State Fault Refusal :=
  let x := s.slice slice
  let due := (x.slots.filter fun p => slotDue s p.2).map (·.1)
  let next := match due.find? fun i => decide (x.turn ≤ i) with | some i => some i | none => due.head?
  match Tbl.get? x.slots slot with
  | none => disabled
  | some m =>
    match Tbl.get? (s.func m.func).queues m.queue with
    | none => disabled
    | some q =>
      if next ≠ some slot ∨ underReset s slice = true ∨ frontHeld s slice = true then disabled
      else
        let s := s.modSlice slice fun x => { x with turn := slot + 1 }
        let va := q.ring + 256 * (q.head.toNat % 2 ^ q.log2n)
        if m.failed then
          let s := s.modSlice slice fun x => { x with slots := Tbl.upd x.slots slot fun m => { m with failed := false } }
          .next (advanceHead (setQerr s m.func m.queue 1) m.func m.queue)
        else match tableRead s q.ctx va 256 with
          | .bytes r => .next (takeRing s slice m.func m.queue q va r)
          | .fails => .next (advanceHead (setQerr s m.func m.queue 1) m.func m.queue)
          | .absent p =>
            .next (requestPage (s.modSlice slice fun x => { x with slots := Tbl.upd x.slots slot fun m => { m with page := some p } })
              q.ctx p (true, false) none)

/-- An owner word of a slot table as an access (R444): in device memory of HOME 00 or 10. -/
def ownerAcc (s : State) (a : Admission) (i : Nat) : Option Acc :=
  match walkAcc s a.ctx (a.table + 8 * i) 8 true true with
  | .ok c => if counterPage c then some c else none
  | .error _ => none
def ownerWord (s : State) (c : Acc) : DWord := BitVec.ofNat 64 (leVal (readBytes s c.key c.pa 8))
def setOwner (s : State) (c : Acc) (v : DWord) : State := performBytes s none none c.attr c.pa (leBytes 8 v.toNat) false (storeCause none)
/-- The slots in the order that an admission tries them (R446). -/
def slotOrder (a : Admission) : List Nat :=
  a.pref :: (if a.policy = 0 then (List.range (a.nslots - 1)).map fun i => (a.pref + 1 + i) % a.nslots else [])
/-- An admission fails: QERR bit 2 is set, and it queues nothing (R446). -/
def failAdmission (s : State) (id : Nat) (a : Admission) : State :=
  setQerr { s with admissions := Tbl.del s.admissions id } (funcOfCtx s a.ctx) a.queue 2
/-- The slot of a failed admission is free again. -/
def freeOwner (s : State) (a : Admission) (i : Nat) : State :=
  match ownerAcc s a i with | some c => setOwner s c 0 | none => s
/-- The launch record of an admission is queued with the slot in ARG3 (R446); none while the ready queue is full, or the front
end takes no new entry (R479). -/
def queueAdmitted (s : State) (id : Nat) (a : Admission) (i : Nat) (mine : Bool) : Option State :=
  match tableRead s a.ctx a.lrec 256 with
  | .bytes r =>
    if a.lrec % 256 = 0 ∧ launchOk r = true then
      if queueFull s a.ctx || frontHeld s a.slice then none
      else
        let q := launchOf r
        some (queueEntry { s with admissions := Tbl.del s.admissions id }
          { ctx := a.ctx, rec_ := { q with args := q.args.take 3 ++ [BitVec.ofNat 64 i] }, addr := a.lrec })
    else some (failAdmission (if mine then freeOwner s a i else s) id a)
  | _ => some (failAdmission (if mine then freeOwner s a i else s) id a)
/-- The runs of a span through a context's page tables; none when it cannot be resolved. -/
def tableRuns (s : State) (x : Ctx) (st : Bool) : Nat → Nat → Nat → Option (List Run)
  | 0, _, len => if len = 0 then some [] else none
  | n + 1, va, len =>
    if len = 0 then some []
    else match pageNow s x (va / 65536) with
      | .leaf l =>
        if placeOf va ≠ .global ∨ (if st then l.w else l.r) = false then none
        else
          let k := min len (65536 - va % 65536)
          (tableRuns s x st n (va + k) (len - k)).map ({ pa := l.pa + va % 65536, len := k, home := l.home, key := l.key, cls := l.cls } :: ·)
      | _ => none
/-- The prefetch of an admission into a slot as a BULK command (R445, R446, R250); none when its record fails a check. -/
def prefetchCmd (s : State) (a : Admission) (i : Nat) : Option Cmd :=
  match Tbl.get? s.ctxs a.ctx with
  | none => none
  | some x =>
    let die := sliceDie s a.slice
    let r := a.record.take 24 ++ leBytes 8 ((fieldOf a.record 24 8 + i * a.stride) % 2 ^ 64) ++ a.record.drop 32
    let spans := cmdSpans r none die
    let runs := fun (what : Nat) => (spans.filter fun p => p.what == what).foldr (fun p acc =>
      match acc, tableRuns s x p.st (p.len / 65536 + 2) p.va p.len with
      | some l, some rs => some (mergeRuns rs ++ l)
      | _, _ => none) (some [])
    match runs 0, runs 1, runs 2, runs 3 with
    | some c, some sr, some ds, some tg =>
      if cmdBad r (some 1) || decide (16 < (c ++ sr ++ ds ++ tg).length) || fieldOf r 31 1 != 0 then none
      else some { func := x.func, ctx := a.ctx, die := die, core := 32 * die, entry := none, rec_ := r, src := sr, dst := ds, compl := c, tag := tg,
                  stamp := sendTime s die 0x34 }
    | _, _, _, _ => none
/-- What an admission finds as it goes through the owner words: a slot that it may claim, one that is ready, one that is loading. -/
inductive Found where
  | claim (i : Nat) | ready (i : Nat) | loading (i : Nat) | none | fails
  deriving DecidableEq, Repr
def findSlot (s : State) (a : Admission) : List Nat → Found
  | [] => .none
  | i :: t =>
    match ownerAcc s a i with
    | none => .fails
    | some c =>
      let w := ownerWord s c
      if anyPoison s c.pa 8 then .fails
      else if w = 0 then .claim i
      else if w.setWidth 63 = a.adapter.setWidth 63 then (if w.getLsbD 63 then .loading i else .ready i)
      else findSlot s a t
/-- An engine owns a line of the table's owner words: the admission waits for it (R223, R446). -/
def tableOwned (s : State) (a : Admission) : Bool :=
  (slotOrder a).any fun i => match ownerAcc s a i with | some c => (owner s s.nextOp c.pa 8).isSome | none => false
/-- The bulk queue of the die has a place for a prefetch (R248), and it takes it. -/
def fetchRoom (s : State) (c : Cmd) : Bool := decide ((waitingCmds s c.die 0 c.func).length < 64)
def submitFetch (s : State) (c : Cmd) : State :=
  { noteTime s c.die with bulk := { s.bulk with cmds := Tbl.put s.bulk.cmds s.nextId c }, nextId := s.nextId + 1 }
/-- ADAPTER_ADMISSION (R446): the next part of an admission: a claim with its prefetch, the end of its prefetch, or the end of a wait
for a slot that another is loading. -/
def execAdapterAdmission (id : Nat) (s : State) : Host.Outcome State Fault Refusal :=
  match Tbl.get? s.admissions id with
  | none => disabled
  | some a =>
    if tableOwned s a then disabled else
    let set := fun (s : State) (st : AdmitSt) => { s with admissions := Tbl.put s.admissions id { a with st := st } }
    let queued := fun (i : Nat) (mine : Bool) => match queueAdmitted s id a i mine with
      | some s => Host.Outcome.next s
      | none => disabled
    match a.st with
    | .trying =>
      (match findSlot s a (slotOrder a) with
       | .fails => .next (failAdmission s id a)
       | .none => .next (set s .held)
       | .ready i => queued i false
       | .loading i => .next (set s (.waiting i))
       | .claim i =>
         match prefetchCmd s a i, ownerAcc s a i with
         | some c, some w =>
           let s := setOwner s w (a.adapter ||| (1#64 <<< 63))
           if fetchRoom s c then .next (set (submitFetch s c) (.loading i s.nextId)) else .next (set s (.claimed i))
         | _, _ => .next (failAdmission s id a))
    | .claimed i =>
      (match prefetchCmd s a i with
       | some c => if fetchRoom s c then .next (set (submitFetch s c) (.loading i s.nextId)) else disabled
       | none => .next (failAdmission (freeOwner s a i) id a))
    | .loading _ _ => disabled
    | .loaded i code =>
      if code ≠ 0 then .next (failAdmission (freeOwner s a i) id a)
      else match ownerAcc s a i with
        | some w =>
          (match queueAdmitted (setOwner s w a.adapter) id a i true with
           | some s => .next s
           | none => if ownerWord s w = a.adapter then disabled else .next (setOwner s w a.adapter))
        | none => .next (failAdmission s id a)
    | .waiting i =>
      (match ownerAcc s a i with
       | none => .next (failAdmission s id a)
       | some w =>
         if (ownerWord s w).getLsbD 63 then disabled else queued i false)
    | .held => disabled
/-- ADMISSION_RETRY (R446): a held admission starts again once a write has freed or filled a slot for it, in arrival order. -/
def execAdmissionRetry (id : Nat) (s : State) : Host.Outcome State Fault Refusal :=
  let may := fun (a : Admission) => a.st == .held && findSlot s a (slotOrder a) != .none
  match Tbl.get? s.admissions id with
  | none => disabled
  | some a =>
    let older := s.admissions.any fun p => decide (p.1 < id) && p.2.ctx == a.ctx && p.2.table == a.table && may p.2
    if !may a || older then disabled
    else .next { s with admissions := Tbl.put s.admissions id { a with st := .trying } }

end Sys2Proof.Machine
end

