-- ==== Sys2Proof/Machine/Migrate.lean ====
section
/-! DEFINITION. Live migration (15 R439 to R443). -/
namespace Sys2Proof.Machine

/-- Page sizes by PSIZE (R439). -/
def psizeBytes (p : Nat) : Nat := match p with | 0 => 65536 | 1 => 0x200000 | _ => 0x40000000
/-- The record of one 64 KiB part in a move report (R443). -/
def moveRecord (src dst : Nat) (pois : List Nat) (status : Nat) : List Byte :=
  let bits := pois.foldl (fun n i => if n / 2 ^ i % 2 = 1 then n else n + 2 ^ i) 0
  leBytes 8 src ++ leBytes 8 dst ++ leBytes 2 pois.length ++ leBytes 1 status ++ leBytes 13 0 ++ leBytes 64 bits
/-- The move report: one record for each 64 KiB of the page. -/
def moveReport (f : Forward) (status : Nat → List Nat → Nat) : List Byte :=
  (List.range (f.size / 65536)).flatMap fun p =>
    let lines := (f.pois.filter fun l => l / 512 == p).map (· % 512)
    moveRecord (f.src + 65536 * p) (f.dst + 65536 * p) lines (status p lines)
/-- MIGRATION_COMMAND (R439): a command that is malformed, overlaps, or finds no free entry is refused: its report says so. -/
def execMigrationCommand (die src dst psize func report : Nat) (s : State) : Host.Outcome State Fault Refusal :=
  let n := psizeBytes psize
  let f : Forward := { src := src, dst := dst, size := n, func := func, report := report }
  let free := (List.range 1024).find? fun i => (Tbl.get? s.forwards (1024 * die + i)).isNone
  let ok := decide (psize ≤ 2) && src % n == 0 && dst % n == 0 && inHbm src && inHbm (dst + n - 1) && sliceHasAddr s (s.func func).slice dst &&
    sliceHasAddr s (s.func func).slice (dst + n - 1) && decide (src + n ≤ dst ∨ dst + n ≤ src)
  if Config.dies ≤ die ∨ report % 32 ≠ 0 then disabled
  else match ok, free with
    | true, some i => .next { s with forwards := Tbl.put s.forwards (1024 * die + i) f }
    | _, _ => .next (performBytes s none none {} report (moveReport f fun _ _ => 2) false (storeCause none))
/-- One line goes from source to destination with its key and its poison; no cache holds either any more, what is registered at the source
line is registered at the destination, and the monitors there are evaluated (R307, R440, R442). -/
def copyLine (s : State) (key : Nat) (f : Forward) : State :=
  let a := f.src + 128 * f.copied
  let b := f.dst + 128 * f.copied
  let s := evictL2 (evictL2 (ownLines s none a 128) (lineOf a)) (lineOf b)
  let s := (List.range 4).foldl (fun s i =>
    let k := match Tbl.get? s.secKey (a / 32 + i) with | some (k, _) => k | none => 0
    let bs := (List.range 32).map fun j => Sparse.get (w := 8) s.mem (a + 32 * i + j)
    let s := putBytes k false s (b + 32 * i) bs (s.poison.contains (a + 32 * i))
    match Tbl.get? s.secKey (a / 32 + i) with
    | some kg => { s with secKey := Tbl.put s.secKey (b / 32 + i) kg }
    | none => { s with secKey := Tbl.del s.secKey (b / 32 + i) }) s
  let bad := (List.range 4).any fun i => s.poison.contains (a + 32 * i)
  let mon := fun (m : Monitor) => if lineOf m.acc.pa = lineOf a then { m with acc := { m.acc with pa := m.acc.pa - a + b } } else m
  let inLine := s.bound.filter fun p => lineOf p.1 == lineOf a
  let move := fun (t : Tbl Bound) (p : Nat × Bound) => Tbl.put t (p.1 - a + b) p.2
  let s := { s with
    monitors := s.monitors.map mon
    bound := inLine.foldl move (s.bound.filter fun p => lineOf p.1 != lineOf a) }
  let f := { f with copied := f.copied + 1, pois := if bad then f.pois ++ [f.copied] else f.pois }
  evalMonitors { s with forwards := Tbl.put s.forwards key f } (lineOf b)
/-- MIGRATION_LINE_COPY (R440), within the migration budget of the period (R447). A write of the destination may fail: then no further line is
copied, and accesses to the lines not copied stay at the source (R443, log entry 55). -/
def execMigrationLineCopy (die entry : Nat) (s : State) : Host.Outcome State Fault Refusal :=
  let key := 1024 * die + entry
  match Tbl.get? s.forwards key with
  | none => disabled
  | some f =>
    let a := f.src + 128 * f.copied
    if f.done || f.failed || decide (f.size ≤ 128 * f.copied) || decide (((budgetOf s die).1.extractLsb' 32 16).toNat ≤ spentOf s 1 die) ||
        ownedBefore s s.nextOp a 128 || ownedBefore s s.nextOp (f.dst + 128 * f.copied) 128 then disabled
    else if Config.moveFails s.clock (lineOf f.dst + f.copied) then .next (spend { s with forwards := Tbl.put s.forwards key { f with failed := true } } 1 die 1)
    else .next (spend (copyLine s key f) 1 die 1)
/-- The class of a page of a function (R164). -/
def classOf (s : State) (func pa : Nat) : BitVec 2 :=
  let hits := (s.ctxs.filter fun p => p.2.func == func).flatMap fun p =>
    ((leavesFrom s walkLevels p.2.root).map (tableWord s)).filter fun e => (e.extractLsb' 16 36).toNat * 65536 == pa
  match hits with | e :: _ => e.extractLsb' 9 2 | [] => 0
/-- MIGRATION_DONE (R443): the report is written and MIGRATE is emitted; the entry goes on forwarding (R441). -/
def execMigrationDone (die entry : Nat) (s : State) : Host.Outcome State Fault Refusal :=
  let key := 1024 * die + entry
  match Tbl.get? s.forwards key with
  | none => disabled
  | some f =>
    if f.done = true ∨ (f.failed = false ∧ f.size ≠ 128 * f.copied) then disabled
    else
      let s := { s with forwards := Tbl.put s.forwards key { f with done := true } }
      let s := performBytes s none none {} f.report (moveReport f fun p l => if f.copied < 512 * (p + 1) then 3 else if l.isEmpty then 0 else 1) false (storeCause none)
      .next (emitA s die 0x33 f.func none 0x36 ((classOf s f.func f.src).setWidth 8) (BitVec.ofNat 32 (f.src / 65536 % 2 ^ 32)))
/-- FORWARDING_ENTRY_RETIRE (R441). -/
def execForwardingEntryRetire (die entry : Nat) (s : State) : Host.Outcome State Fault Refusal :=
  match Tbl.get? s.forwards (1024 * die + entry) with
  | some f => if f.done then .next { s with forwards := Tbl.del s.forwards (1024 * die + entry) } else disabled
  | none => disabled

end Sys2Proof.Machine
end

