-- ==== Sys2Proof/Machine/Rearrange.lean ====
section
/-! DEFINITION. Rearrangement and packing (05 R151 to R156). -/
namespace Sys2Proof.Machine

/-- The lanes of a selection mask, rising (R151). -/
def selected (width : Nat) (m : DWord) : List Nat := below width m.getLsbD
/-- VCMPR (R151): lane j receives the j-th selected lane. -/
def execVcmpr (d a : VReg) (b : SReg) (s : State) : Host.Outcome State Fault Refusal :=
  unitOp (.vcmpr d a b) [a] d (fun c t l =>
    match (selected t.width (c.getS b))[l]? with
    | some p => c.getUnit a.toNat p
    | none => 0) s
/-- VEXPD (R151): the j-th selected lane receives lane j. -/
def execVexpd (d a : VReg) (b : SReg) (s : State) : Host.Outcome State Fault Refusal :=
  unitOp (.vexpd d a b) [a] d (fun c t l =>
    if (selected t.width (c.getS b)).contains l then c.getUnit a.toNat ((selected t.width (c.getS b)).idxOf l) else 0) s
/-- VSLUP (R152). -/
def execVslup (d a : VReg) (b : SReg) (s : State) : Host.Outcome State Fault Refusal :=
  unitOp (.vslup d a b) [a] d (fun c _ l =>
    if (c.getS b).toNat ≤ l then c.getUnit a.toNat (l - (c.getS b).toNat) else 0) s
/-- VSLDN (R152). -/
def execVsldn (d a : VReg) (b : SReg) (s : State) : Host.Outcome State Fault Refusal :=
  unitOp (.vsldn d a b) [a] d (fun c t l =>
    if l + (c.getS b).toNat < t.width then c.getUnit a.toNat (l + (c.getS b).toNat) else 0) s
/-- VPERM (R153). -/
def execVperm (d a b : VReg) (s : State) : Host.Outcome State Fault Refusal :=
  issue s (fun _ _ => { word := wordOf (.vperm d a b), reads := [a.toNat, b.toNat], writes := [d.toNat] })
    fun s c t => retire s (c.mapLanes t.width d.toNat fun l =>
      let x := (c.getV b.toNat l).toNat
      if x < t.width then c.getV a.toNat x else 0)

/-- A packed element: copied when STYPE = TYPE, else converted (R154, R155). -/
def packElem (c : Crew) (l e r : Nat) : Nat :=
  if styOf c.mode = tyOf c.mode then elemOf (tyOf c.mode) (mHalf c.mode) (c.getV r l)
  else convert (tyOf c.mode) (styOf c.mode) (rndAt c l e) (elemOf (styOf c.mode) (mHalf c.mode) (c.getV r l))
/-- R134 for the packing instructions. -/
def packOk (types : List Nat) (m : DWord) : Bool := tyIn (tyOf m) types && (tyIn (styOf m) [0, 6, 7] || styOf m == tyOf m)
def packRounds (m : DWord) : Bool := styOf m != tyOf m && eitherFloats m
/-- VPK2 (R154). -/
def execVpk2 (d a b : VReg) (s : State) : Host.Outcome State Fault Refusal :=
  laneOp (.vpk2 d a b) (packOk [1, 2, 8, 9]) packRounds [a.toNat, b.toNat] d
    (fun c l => BitVec.ofNat 16 (packElem c l 1 b.toNat) ++ BitVec.ofNat 16 (packElem c l 0 a.toNat)) s
/-- A lane of VPK4 (R155). -/
def pk4Lane (d a b : VReg) (c : Crew) (l : Nat) : Word :=
  let h := if mHalf c.mode then 1 else 0
  let src := [a.toNat, a.toNat + 1, b.toNat, b.toNat + 1]
  if tyOf c.mode = 5 then
    let x := (List.range 4).foldl (fun n i => n + packElem c l (4 * h + i) (src.getD i 0) % 16 * 16 ^ i) 0
    if mHalf c.mode then BitVec.ofNat 16 x ++ (c.getV d.toNat l).extractLsb' 0 16
    else (c.getV d.toNat l).extractLsb' 16 16 ++ BitVec.ofNat 16 x
  else BitVec.ofNat 32 ((List.range 4).foldl (fun n i => n + packElem c l i (src.getD i 0) % 256 * 256 ^ i) 0)
/-- VPK4 (R155). -/
def execVpk4 (d a b : VReg) (s : State) : Host.Outcome State Fault Refusal :=
  laneOp (.vpk4 d a b) (packOk [3, 4, 5, 10, 11]) packRounds [a.toNat, a.toNat + 1, b.toNat, b.toNat + 1] d (pk4Lane d a b) s
/-- The types of VUPK (R134). -/
def upkTypes : List Nat := [1, 2, 3, 4, 5, 8, 9, 10, 11]
/-- VUPK (R156). -/
def execVupk (d a : VReg) (e : BitVec 3) (s : State) : Host.Outcome State Fault Refusal :=
  laneOp (.vupk d a e) (fun m => tyIn (tyOf m) upkTypes && decide (e.toNat * tyBits (tyOf m) < 32)) never [a.toNat] d
    (fun c l =>
      let ty := tyOf c.mode
      let x := (c.getV a.toNat l).toNat / 2 ^ (e.toNat * tyBits ty) % 2 ^ tyBits ty
      BitVec.ofNat 32
        (if isFloat ty then exactCode 0 (readF (fmtOf ty) (mFtz c.mode) x)
         else lowBits 6 (readI ty x))) s

end Sys2Proof.Machine
end

