-- ==== Sys2Proof/Machine/Requests.lean ====
section
/-! DEFINITION. Requests from other modules of the pod and from the host, and the answers to this module's own (10 R288, R299 to R304, 07
R228, 13 R376). -/
namespace Sys2Proof.Machine

/-- An answer leaves the module: 0 or the reason of a refusal (7 is Unsupported Request), data, and whether it is poisoned. -/
def answer (s : State) (status : Nat) (data : List Byte) (ep : Bool) : State :=
  { s with sec := { s.sec with replies := s.sec.replies ++ [(status, data, ep)] } }
/-- Bytes are written to a place that no engine owns and whose other copies have been recalled (R208, R223). A device atomic on uncached host
memory that is under way holds up no access of the host (R229). -/
def openFor (s : State) (pa n : Nat) (write : Bool) : Bool :=
  (engineOwners s pa n).isEmpty &&
    (!write || (List.range (lineOf (pa + n - 1) - lineOf pa + 1)).all fun i => invAcked s none (lineOf (route s ((lineOf pa + i) * 128))))
/-- What a pod request asks of a window. -/
def podKind : PodOp → PodKind
  | .load => .load
  | .store _ => .store
  | .atomic _ _ _ => .atomic
/-- POD_REQUEST_RECEIVE (R302 to R304): checks 3 to 6, and then the access is performed at its place on this module. -/
def execPodRequestReceive (req : PodReq) (s : State) : Host.Outcome State Fault Refusal :=
  match podTarget s req.rfunc req.src req.win req.off req.size (podKind req.op) with
  | .error r => .next (answer s r [] false)
  | .ok (pa, key, _) =>
    let at_ : Acc := { pa := pa, size := req.size, key := key, slice := some (s.func req.rfunc).slice }
    if !openFor s pa req.size ((podKind req.op) != .load) then disabled
    else match req.op with
      | .load => .next (answer s 0 (readBytes s key pa req.size) (anyPoison s pa req.size))
      | .store data => .next (answer (performBytes s none none at_.attr pa ((data ++ List.replicate req.size 0).take req.size) false (storeCause none)) 0 [] false)
      | .atomic op ty xs =>
        let (s, olds) := applyAtomic s none op ty.toNat at_ xs
        match olds with
        | some l => .next (answer s 0 (l.flatMap (leBytes req.size)) false)
        | none => .next (answer s 0 (List.replicate (req.size * xs.length) 0) true)
/-- The answer to access k of an operation: accesses by number; for a copy, number 2i is the source of block i and 2i + 1 its
destination. The lanes of an atomic that name one address share one request, whose answer holds their old values in turn (R303). -/
def putAnswer (o : Op) (k : Nat) (res : PodResult) : Op :=
  let set := fun (a : Acc) => { a with resp := some res }
  match o.kind with
  | .copy sem ps => { o with kind := .copy sem (ps.modify (k / 2) fun p =>
      if k % 2 = 0 then { p with src := p.src.map set } else { p with dst := set p.dst }) }
  | .atomic _ _ _ =>
    match o.accs[k]? with
    | none => o
    | some a =>
      let ks := (List.range o.accs.length).filter fun j => match o.accs[j]? with
        | some b => b.pa == a.pa && (b.st == .todo) && (j == k || !inHost a.pa) | none => false
      let part := fun (i : Nat) => match res with
        | .data bs => PodResult.data ((bs.drop (i * a.size)).take a.size)
        | .poisoned bs => .poisoned ((bs.drop (i * a.size)).take a.size)
        | .refused r => .refused r
      { o with accs := (ks.zip (List.range ks.length)).foldl (fun as p => as.modify p.1 fun b => { b with resp := some (part p.2) }) o.accs }
  | _ => { o with accs := o.accs.modify k set }
/-- The access that an answer is for. -/
def askedAcc (o : Op) (k : Nat) : Option Acc :=
  match o.kind with
  | .copy _ ps => match ps[k / 2]? with
    | some p => if k % 2 = 0 then p.src else some p.dst
    | none => none
  | _ => o.accs[k]?
/-- An access waits for another module, or for the host to answer an AtomicOp. -/
def awaited (s : State) (o : Op) (a : Acc) : Bool :=
  let f := funcOfTeam s o.team
  !o.done && a.st == .todo && a.resp.isNone && !a.clip &&
    ((inHost a.pa && a.sysatom && match o.kind with | .atomic _ _ _ => true | _ => false) ||
     (inPod a.pa && match podIssuer s f a.pa with | .ok (m, _, _) => m != s.svc.modid.toNat | .error _ => false))
/-- POD_RESPONSE (R304): the answer of another module, or the host's refusal of an AtomicOp (R295). -/
def execPodResponse (n k : Nat) (res : PodResult) (s : State) : Host.Outcome State Fault Refusal :=
  match Tbl.get? s.ops n with
  | none => disabled
  | some o =>
    match askedAcc o k with
    | none => disabled
    | some a =>
      let ok := match res with | .refused r => inHost a.pa || decide (1 ≤ r ∧ r ≤ 6) | _ => !inHost a.pa
      if awaited s o a && ok then .next (s.modOp n fun o => putAnswer o k res) else disabled
/-- POD_RESPONSE_TIMEOUT (R302): reason 2; a later answer is discarded. -/
def execPodResponseTimeout (n k : Nat) (s : State) : Host.Outcome State Fault Refusal :=
  match Tbl.get? s.ops n with
  | none => disabled
  | some o =>
    match askedAcc o k with
    | some a => if awaited s o a && inPod a.pa then .next (s.modOp n fun o => putAnswer o k (.refused 2)) else disabled
    | none => disabled

/-- The valid leaves and windows that hold an address of device HBM: what they give its lines, and SYSATOM (R164, R301). -/
def mappingsOf (s : State) (pa : Nat) : List (Attr × Bool) :=
  (s.ctxs.flatMap fun p => (spansFrom s walkLevels p.2.root).filterMap fun a =>
    match leafOf s p.2 a.1 (tableWord s a.1) a.2 with
    | .leaf l => if l.pa ≤ pa ∧ pa < l.pa + l.size then
        some ({ home := l.home, key := l.key, cls := l.cls, slice := some p.2.slice }, l.sysatom) else none
    | _ => none) ++
  s.funcs.flatMap fun p => match p.2.winBase with
    | none => []
    | some b => (List.range 65536).filterMap fun i =>
      match windowAt s b i with
      | some w => if w.base ≤ pa ∧ pa < w.base + w.size then some ({ key := w.key, slice := some p.2.slice }, w.sysatom) else none
      | none => none
/-- What the host's accesses to an address carry: what a page or window that holds it gives, else HOME 00 and key index 0. -/
def hostAttr (s : State) (pa : Nat) : Attr := match mappingsOf s pa with | (p, _) :: _ => p | [] => {}
/-- HOST_ATOMICOP (R288). -/
def execHostAtomicop (pa : Nat) (kind : HostAtomic) (size : Nat) (operand compare : DWord) (s : State) : Host.Outcome State Fault Refusal :=
  if size ≠ 0 ∧ pa % size ≠ 0 then .next s
  else if (size ≠ 4 ∧ size ≠ 8) ∨ inHbm pa = false then .next (answer s 7 [] false)
  else match mappingsOf s pa with
    | [] => .next (answer s 7 [] false)
    | (p, sa) :: _ =>
      if !sa then .next (answer s 7 [] false)
      else if !openFor s pa size true then disabled
      else
        let op : AtomicOp := match kind with | .fetchAdd => .add | .swap => .xch | .cas => .cas
        let (s, olds) := applyAtomic s none op (if size = 8 then 13 else 7) { pa := pa, size := size, key := p.key, home := p.home, cls := p.cls, slice := p.slice } [(operand, compare)]
        match olds with
        | some l => .next (answer s 0 (l.flatMap (leBytes size)) false)
        | none => .next (answer s 0 (List.replicate size 0) true)
/-- HOST_MEMORY_WRITE (R228): the writes arrive in PCIe order. One to host memory is the host's own. -/
def execHostMemoryWrite (pa : Nat) (data : List Byte) (s : State) : Host.Outcome State Fault Refusal :=
  let n := data.length
  if n = 0 then .next s
  else if (inHbm pa && inHbm (pa + n - 1)) || (inHost pa && inHost (pa + n - 1)) then
    if openFor s pa n true then
      .next (performBytes s none none (if inHbm pa then hostAttr s pa else { home := 3 }) pa data false (storeCause none))
    else disabled
  else .next (answer s 7 [] false)
/-- HOST_MEMORY_READ (R376): the completion carries EP when the data is poisoned. -/
def execHostMemoryRead (pa n : Nat) (s : State) : Host.Outcome State Fault Refusal :=
  if n ≠ 0 ∧ inHbm pa = true ∧ inHbm (pa + n - 1) = true then
    if openFor s pa n false then .next (answer s 0 (readBytes s (hostAttr s pa).key pa n) (anyPoison s pa n)) else disabled
  else .next (answer s 7 [] false)

end Sys2Proof.Machine
end

