-- ==== Sys2Proof/Machine/Security.lean ====
section
/-! DEFINITION. Memory keys, function-level reset, link encryption, device interfaces and attestation (16 R454, R461 to R470). -/
namespace Sys2Proof.Machine

/-- KEYSTAT.ERR is set: the write changes no key (R468). -/
def keyRefuse (s : State) : State := { s with sec := { s.sec with keystat := s.sec.keystat ||| 4 } }
/-- A write for a function whose TDI is locked is refused, and SLSTAT.ERR is set as well (R462). -/
def keyLocked (s : State) (func : Nat) : State := lockedError (keyRefuse s) func
/-- STATE of KEYSTAT while a key operation is under way (R468), and once it is over. -/
def keyState (s : State) (op : Option KeyOp) : State :=
  let st : DWord := match op with | some (.assign _ _) => 1 | some (.retire _) => 2 | none => 0
  { s with sec := { s.sec with keyOp := op, keystat := (s.sec.keystat &&& 4) ||| st } }
/-- KEY_ASSIGN (R467, R468). The first move is the write: it is refused, or generating begins. The second gives the new key's index to the
VF. A second index for one VF is refused (R467), and so is a write while an operation is under way (log entry 124). -/
def execKeyAssign (index func : Nat) (s : State) : Host.Outcome State Fault Refusal :=
  let k := Tbl.getD s.sec.keys index {}
  match s.sec.keyOp with
  | some op =>
    if op = .assign index func then
      let s := { s with sec := { s.sec with keys := Tbl.put s.sec.keys index { owner := some func, gen := k.gen + 1 } } }
      .next (keyState (s.modFunc func fun f => { f with key := some index }) none)
    else .next (keyRefuse s)
  | none =>
    if tdiLocked s func then .next (keyLocked s func)
    else if index = 0 ∨ 128 ≤ index ∨ func = 0 ∨ (Tbl.get? s.funcs func).isNone = true ∨ k.owner.isSome = true ∨ (s.func func).key.isSome = true then
      .next (keyRefuse s)
    else .next (keyState s (some (.assign index func)))
/-- KEY_RETIRE (R468, R469). The first move is the write: it is refused, or writing back begins. With the second the dirty lines of the index are
written back, every line of it is invalidated, and the key is zeroised. -/
def execKeyRetire (index : Nat) (s : State) : Host.Outcome State Fault Refusal :=
  match s.sec.keyOp, (Tbl.getD s.sec.keys index {}).owner with
  | some op, some func =>
    if op = .retire index then .next (keyState ((zeroKey s index none).modFunc func fun f => { f with key := none }) none)
    else .next (keyRefuse s)
  | some _, none => .next (keyRefuse s)
  | none, none => .next (keyRefuse s)
  | none, some func =>
    if tdiLocked s func then .next (keyLocked s func)
    else if index = 0 then .next (keyRefuse s)
    else .next (keyState s (some (.retire index)))

/-- A function's queues leave their slots and its pending-notify bitmap is cleared (R454). -/
def dropQueues (s : State) (func : Nat) : State :=
  let ms := s.slices.flatMap fun p => (p.2.slots.filter fun m => m.2.func == func).map fun m => (p.1, m.1)
  (ms.foldl (fun s m => unmapSlot s m.1 m.2) s).modFunc func fun f => { f with pendingNotify := [] }
/-- The steps of R454 for one function. In RUN its TDI enters ERROR (R464); one that was not unlocked gets a new key under its index. -/
def resetFunc (s : State) (func : Nat) : State :=
  let f := s.func func
  let s := if f.tdi = .run then tdiError s func else teardownFunc s func
  let s := releaseStalls (dropQueues s func) func
  let s := s.modFunc func fun f => { f with trace := {}, bulkKeys := [] }
  match f.key with
  | none => s
  | some k => if f.tdi = .unlocked then s else (zeroKey s k (some func)).modFunc func fun f => { f with key := some k }
/-- FUNCTION_LEVEL_RESET (R454): one of the PF resets every VF as well. -/
def execFunctionLevelReset (func : Nat) (s : State) : Host.Outcome State Fault Refusal :=
  if (Tbl.get? s.funcs func).isNone then disabled
  else if func = 0 then .next (s.funcs.foldl (fun s p => resetFunc s p.1) s)
  else .next (resetFunc s func)

/-- A secured SPDM session is up (R465). -/
def secured (s : State) : Bool := s.sec.session.isSome && s.sec.finished
/-- IDE_KM_KEY_PROGRAM (R461): the key sets of a stream are loaded and it is enabled, in a secured session. Number 0 is the link stream. -/
def execIdeKmKeyProgram (link stream : Nat) (s : State) : Host.Outcome State Fault Refusal :=
  if secured s && decide (link < 2 ∧ stream ≤ 16) then
    .next { s with sec := { s.sec with streams := (link, stream) :: s.sec.streams.filter (· != (link, stream)) } }
  else disabled
/-- IDE_INTEGRITY_FAILURE (R461): the TLP is dropped, the stream is insecure, and the TDIs bound to it enter ERROR. -/
def execIdeIntegrityFailure (link stream : Nat) (s : State) : Host.Outcome State Fault Refusal :=
  let hit := (s.funcs.filter fun p => p.2.stream == some stream && p.2.tdi != .unlocked && linkOf s p.1 == link).map (·.1)
  .next (hit.foldl tdiError { s with sec := { s.sec with streams := s.sec.streams.filter (· != (link, stream)) } })
/-- A VF that exists: a TDI (R462). -/
def isTdi (s : State) (vf : Nat) : Bool := vf != 0 && (Tbl.get? s.funcs vf).isSome
/-- LOCK_INTERFACE_REQUEST (R462): legal when unlocked (R464). The session that asks is the requester. -/
def execLockInterfaceRequest (vf stream : Nat) (s : State) : Host.Outcome State Fault Refusal :=
  if !isTdi s vf then disabled
  else if (s.func vf).tdi = .unlocked then
    .next (s.modFunc vf fun f => { f with tdi := .locked, stream := some stream, requester := s.sec.session })
  else .next (tdiError s vf)
/-- START_INTERFACE_REQUEST (R462): from CONFIG_LOCKED to RUN; it is illegal in another state (R464). -/
def execStartInterfaceRequest (vf : Nat) (s : State) : Host.Outcome State Fault Refusal :=
  if !isTdi s vf then disabled
  else if (s.func vf).tdi = .locked then .next (s.modFunc vf fun f => { f with tdi := .run })
  else .next (tdiError s vf)
/-- STOP_INTERFACE_REQUEST (R464): any state to CONFIG_UNLOCKED. -/
def execStopInterfaceRequest (vf : Nat) (s : State) : Host.Outcome State Fault Refusal :=
  if !isTdi s vf then disabled
  else .next ((clearTdi s vf).modFunc vf fun f => { f with tdi := .unlocked, stream := none, requester := none })
/-- The BAR0 ranges of a VF: offset, size, and whether the range is TEE-only (R449, R463). -/
def barRanges : List (Nat × Nat × Bool) :=
  [(0, 0x8000, false), (0x8000, 0x1000, false), (0x9000, 0x1000, true), (0xA000, 0x4000, false), (0xE000, 0x1000, false)]
/-- DEVICE_INTERFACE_REPORT (R463). It is illegal for a TDI that is not locked (R464). -/
def execDeviceInterfaceReport (vf : Nat) (s : State) : Host.Outcome State Fault Refusal :=
  if !isTdi s vf then disabled
  else if tdiLocked s vf then .next { s with sec := { s.sec with reports := s.sec.reports ++ [(vf, barRanges)] } }
  else .next (tdiError s vf)

/-- The responder sends a message: what signs it, or what it advertises. -/
def respond (s : State) (code : SpdmCode) (slot : Nat) (body : List Byte) (algs : List SignAlg := []) : State :=
  { s with sec := { s.sec with outbox := s.sec.outbox ++ [{ code := code, slot := slot, algs := algs, body := body }] } }
/-- How a certificate slot signs (R465). -/
def slotAlg (slot : Nat) : SignAlg := if slot = 0 then .rsaPss3072Sha384Salt48 else .slhDsaSha2_192s
def spdmError (s : State) : State := respond s .error 0 []
/-- A slot that the responder can sign with: it holds two, and none when the identity was not regenerated (R465, R475). -/
def slotOk (s : State) (slot : Nat) : Bool := s.svc.identity && decide (slot < 2)
/-- GET_VERSION (R465): 1.2 and 1.3. -/
def execGetVersion (s : State) : Host.Outcome State Fault Refusal := .next (respond s .version 0 [0x12, 0x13])
/-- GET_CAPABILITIES (R465). -/
def execGetCapabilities (s : State) : Host.Outcome State Fault Refusal := .next (respond s .capabilities 0 (Config.attest 1 0 []))
/-- NEGOTIATE_ALGORITHMS (R465): SHA-384, secp384r1 and AES-256-GCM, each offered as a bit of the requester's masks; RSA-3072 with PSS is
answered as the base algorithm, and SLH-DSA through ExtAsym (log entry 30). -/
def execNegotiateAlgorithms (hash kex aead : Nat) (s : State) : Host.Outcome State Fault Refusal :=
  if hash / 2 % 2 = 1 ∧ kex / 16 % 2 = 1 ∧ aead / 2 % 2 = 1 then
    .next (respond { s with sec := { s.sec with negotiated := true } } .algorithms 0 [2, 16, 2, 8, 1] [slotAlg 0, slotAlg 1])
  else .next (spdmError s)
/-- GET_DIGESTS (R465): of both slots' chains. -/
def execGetDigests (s : State) : Host.Outcome State Fault Refusal :=
  .next (if slotOk s 0 then respond s .digests 0 (Config.attest 2 0 [] ++ Config.attest 2 1 []) else spdmError s)
/-- GET_CERTIFICATE (R465). -/
def execGetCertificate (slot : Nat) (s : State) : Host.Outcome State Fault Refusal :=
  .next (if slotOk s slot then respond s .certificate slot (Config.attest 3 slot []) else spdmError s)
/-- CHALLENGE (R465): signed with the slot that the request names. -/
def execChallenge (slot : Nat) (nonce : List Byte) (s : State) : Host.Outcome State Fault Refusal :=
  .next (if slotOk s slot then respond s .challengeAuth slot (Config.attest 4 slot nonce) [slotAlg slot] else spdmError s)
/-- What a manifest sets, as bytes to be measured (R466, R476). -/
def manifestBytes (m : Manifest) : List Byte :=
  leBytes 2 m.modid.toNat ++
  (m.slices.flatMap fun p => leBytes 1 p.1 ++ (p.2.1.flatMap fun r => leBytes 1 r.1 ++ leBytes 1 r.2.1 ++ leBytes 1 r.2.2) ++ leBytes 8 p.2.2.toNat) ++
  (m.funcs.flatMap fun p => leBytes 1 p.1 ++ leBytes 1 p.2.1 ++ leBytes 1 p.2.2) ++
  (m.budgets.flatMap fun b => leBytes 1 b.1 ++ leBytes 8 b.2.1.toNat ++ leBytes 8 b.2.2.toNat) ++ leBytes 8 m.svn ++ leBytes 8 m.rollback
/-- The security version numbers: of the manifest and its rollback record, and of each die's front-end firmware. -/
def svnBytes (s : State) : List Byte :=
  leBytes 8 (match s.svc.manifest with | some m => m.svn | none => 0) ++ leBytes 8 s.svc.svn ++
  s.svc.fw.flatMap fun p => leBytes 1 p.1 ++ leBytes 8 p.2
/-- The locked configuration of a TDI (R462). -/
def lockedBytes (s : State) (func : Nat) : List Byte :=
  let f := s.func func
  let x := s.slice f.slice
  leBytes 1 func ++ leBytes 1 (linkOf s func) ++ leBytes 1 f.slice ++ leBytes 8 x.mem.toNat ++
  (x.cores.flatMap fun p => leBytes 1 p.1 ++ leBytes 8 p.2.toNat) ++ leBytes 2 (f.key.getD 0) ++ leBytes 8 f.trace.buf.toNat ++
  leBytes 1 f.wCopy ++ leBytes 1 f.wColl
/-- A measurement record (R466), of what its index names, so that both slots give the same; index 7 is zero unless a TDI is locked. -/
def measurement (s : State) (index : Nat) : List Byte :=
  let locked := (s.funcs.map (·.1)).filter (tdiLocked s)
  match index with
  | 0xF0 => leBytes 8 s.sec.generation
  | 5 => Config.attest 5 5 (match s.svc.manifest with | some m => manifestBytes m | none => [])
  | 6 => Config.attest 5 6 (svnBytes s)
  | 7 => if locked.isEmpty then List.replicate 48 0 else Config.attest 5 7 (locked.flatMap (lockedBytes s))
  | i => Config.attest 5 i (Tbl.getD s.svc.images i [])
/-- The indices of R466. -/
def measureIndices : List Nat := [1, 2, 3, 4, 5, 6, 7, 0xF0]
/-- GET_MEASUREMENTS (R466): one record, or all for index 0xFF, signed with the slot. -/
def execGetMeasurements (slot index : Nat) (nonce : List Byte) (s : State) : Host.Outcome State Fault Refusal :=
  if slotOk s slot && (index == 0xFF || measureIndices.contains index) then
    let rs := (measureIndices.filter fun i => index == 0xFF || i == index).flatMap (measurement s)
    .next (respond s .measurements slot (rs ++ Config.attest 6 slot (nonce ++ rs)) [slotAlg slot])
  else .next (spdmError s)
/-- KEY_EXCHANGE (R465): signed with the slot that the request names. It opens a session. -/
def execKeyExchange (slot : Nat) (nonce : List Byte) (s : State) : Host.Outcome State Fault Refusal :=
  if slotOk s slot && s.sec.negotiated && s.sec.session.isNone then
    let n := s.sec.sessions
    .next (respond { s with sec := { s.sec with session := some n, sessions := n + 1, finished := false } } .keyExchangeRsp slot (Config.attest 7 slot nonce) [slotAlg slot])
  else .next (spdmError s)
/-- FINISH (R465): the session is secured. -/
def execFinish (s : State) : Host.Outcome State Fault Refusal :=
  if s.sec.session.isSome && !s.sec.finished then
    .next (respond { s with sec := { s.sec with finished := true } } .finishRsp 0 [])
  else .next (spdmError s)
/-- END_SESSION (R465). -/
def execEndSession (s : State) : Host.Outcome State Fault Refusal :=
  if secured s then .next (respond { s with sec := { s.sec with session := none, finished := false } } .endSessionAck 0 [])
  else .next (spdmError s)
/-- A slot of a function's bulk key table is loaded; a zero key empties it (R470). -/
def loadSlot (s : State) (func slot : Nat) (key : BitVec 256) : State :=
  s.modFunc func fun f => { f with bulkKeys := if key = 0 then Tbl.del f.bulkKeys slot else Tbl.put f.bulkKeys slot key }
/-- KEY_LOAD (R470): in a secured session whose requester the function's TDI is locked to; or, for a TDI in CONFIG_UNLOCKED, by firmware
through the mailbox. -/
def execKeyLoad (func : Nat) (path : KeyPath) (key : BitVec 256) (s : State) : Host.Outcome State Fault Refusal :=
  match path with
  | .session slot =>
    if secured s && tdiLocked s func && (s.func func).requester == s.sec.session && decide (slot < 64) then
      .next (respond (loadSlot s func slot key) .vendorRsp 0 [])
    else .next (spdmError s)
  | .mailbox slot =>
    if (Tbl.get? s.funcs func).isSome && (s.func func).tdi == .unlocked && decide (slot < 64) then .next (loadSlot s func slot key) else disabled

end Sys2Proof.Machine
end

