-- ==== Sys2Proof/Machine/Registers.lean ====
section
/-! DEFINITION. Writes that reach the BARs: the mailbox, the table port and the registers (15 R420 to R428, 16 R448 to R452, R463, R468). -/
namespace Sys2Proof.Machine

/-- Bytes of a function's mailbox: 2 KiB inbound, 2 KiB outbound (R449). -/
def putMailbox (s : State) (func o : Nat) (bs : List Byte) : State :=
  s.modFunc func fun f => { f with
    mailbox := (bs.zip (List.range bs.length)).foldl (fun m p => Sparse.set (w := 8) m (o + p.2) p.1) f.mailbox }
/-- A doorbell rings: firmware hears the inbound one, MSI-X vector 0 signals the outbound one (R449, R453). -/
def ring (s : State) (func : Nat) (inbound : Bool) (value : DWord) : State :=
  if inbound then s.modFunc func fun f => { f with mailIn := f.mailIn ++ [value] } else postMail s func value
/-- MAILBOX_DOORBELL (R449): the last word of each half. -/
def execMailboxDoorbell (func : Nat) (inbound : Bool) (value : DWord) (s : State) : Host.Outcome State Fault Refusal :=
  if (Tbl.get? s.funcs func).isNone then disabled
  else .next (ring (putMailbox s func (if inbound then 0x7FC else 0xFFC) (leBytes 4 value.toNat)) func inbound value)

/-- Firmware has enabled a register group of the expert window (R420, R450). -/
def groupOn (s : State) (g : Nat) : Bool := s.sec.groups.contains g
/-- The fields of TBLSEL (R451). -/
def selTable (s : State) : Nat := (s.sec.tblsel.extractLsb' 62 2).toNat
def selFunc (s : State) : Nat := (s.sec.tblsel.extractLsb' 49 7).toNat
def selIndex (s : State) : Nat := (s.sec.tblsel.extractLsb' 0 16).toNat
/-- A TBLGO that is refused writes nothing and sets ERR. -/
def tblRefuse (s : State) : State := { s with sec := { s.sec with tblsel := s.sec.tblsel ||| (1#64 <<< 61) } }
/-- For a function whose TDI is locked SLSTAT.ERR is set as well (R462). -/
def tblLocked (s : State) (func : Nat) : State := lockedError (tblRefuse s) func
/-- A TBLGO on a table with a base, if the selected entry may be written: its bytes are written in one step. -/
def tblWrite (s : State) (base : Option Nat) (ok : Bool) (o : Nat) (bs : List Byte) : Host.Outcome State Fault Refusal :=
  if !groupOn s 5 then .next s
  else match base with
    | none => .next (tblRefuse s)
    | some b =>
      if tdiLocked s (selFunc s) then .next (tblLocked s (selFunc s))
      else if ok then .next (performBytes s none none {} (b + o) bs false (storeCause none)) else .next (tblRefuse s)
/-- TBLGO_PEER (R300, R451). -/
def execTblgoPeer (s : State) : Host.Outcome State Fault Refusal :=
  if selTable s ≠ 0 then disabled
  else tblWrite s (s.func (selFunc s)).peerBase (decide (selIndex s ≤ 1023)) (8 * selIndex s) (leBytes 8 s.sec.tbldat0.toNat)
/-- TBLGO_WINDOW (R301, R451). -/
def execTblgoWindow (s : State) : Host.Outcome State Fault Refusal :=
  if selTable s ≠ 1 then disabled
  else tblWrite s (s.func (selFunc s)).winBase true (16 * selIndex s) (leBytes 8 s.sec.tbldat0.toNat ++ leBytes 8 s.sec.tbldat1.toNat)
/-- TBLGO_ROUTING (R451, R472). -/
def execTblgoRouting (s : State) : Host.Outcome State Fault Refusal :=
  if selTable s ≠ 2 then disabled
  else tblWrite s (s.func (selFunc s)).routeBase (decide (selIndex s ≤ 1023)) (8 * selIndex s) (leBytes 8 s.sec.tbldat0.toNat)
/-- A write of TBLGO writes the entry of the table that TBLSEL names. -/
def tblGo (s : State) : Host.Outcome State Fault Refusal :=
  match selTable s with
  | 0 => execTblgoPeer s
  | 1 => execTblgoWindow s
  | 2 => execTblgoRouting s
  | _ => .next (tblRefuse s)

/-- A write of SLCORE[i] of a die (R422): cores that it adds are the slice's at once, cores that it takes leave as in a shrink (R429). -/
def writeSlcore (s : State) (die i : Nat) (value : DWord) : State :=
  let v := value &&& 0x8000000000001F1F
  let r := (die, (v.extractLsb' 0 5).toNat, (v.extractLsb' 8 5).toNat)
  let cs := Tbl.put (s.slice i).cores die v
  let rs := rangesOf cs
  let new := if v.getLsbD 63 then coresOf [r] else []
  let taken := (List.range 16).any fun j => j != i && (claimedCores s j).any new.contains
  if sliceBusy s i || !(lockedFuncs s i).isEmpty || decide (r.2.2 < r.2.1) || new.any (coreDown s) || taken ||
      (rs.isEmpty && sliceUsed s i) then sliceRefuse s i
  else if (lostParts s i rs (s.slice i).mem).isEmpty then
    capChange (s.modSlice i fun x => { x with cores := cs, wide := fitWide s i (coresOf rs) x.wide })
  else endShrink (startShrink s i 3 cs (s.slice i).mem none) i
/-- A write of SLMEM[i] (R423). -/
def writeSlmem (s : State) (i : Nat) (value : DWord) : State :=
  let m := value &&& 0xFFFFFFFFFFC0FFFF
  if sliceBusy s i || !(lockedFuncs s i).isEmpty || !memOk m || !memFree s i m then sliceRefuse s i
  else if (s.slice i).mem == 0 || (lostParts s i (rangesIn (s.slice i)) m).isEmpty then
    let pins := (List.range 16).filter fun g => (wgOf m).getLsbD g && (pinOf m).getLsbD g != (pinOf (s.slice i).mem).getLsbD g
    capChange (takeGroups (s.modSlice i fun x => { x with mem := m }) i pins)
  else endShrink (startShrink s i 3 (s.slice i).cores m none) i
/-- A write of SLFAB[i] (R425). -/
def writeSlfab (s : State) (i : Nat) (value : DWord) : State :=
  let v := value &&& 0xFFFF0000FFFF00FF
  let rate := (v.extractLsb' 16 16).toNat
  let cred := (v.extractLsb' 0 8).toNat
  if v.extractLsb' 48 16 == 0 || rate == 0 || decide (1024 < rate) || cred == 0 || decide (32 < cred) || !(lockedFuncs s i).isEmpty then sliceRefuse s i
  else capChange (s.modSlice i fun x => { x with fab := v })
/-- A write of one half of FLINK (R448, R450): the link of each of its VFs without a context; a VF that does not exist yet keeps its bit. -/
def writeFlink (s : State) (half : Nat) (value : DWord) : State :=
  let mine := (List.range 64).filterMap fun i => if half = 0 ∧ i = 0 then none else some (64 * half + i)
  let bit := fun (f : Nat) => value.getLsbD (f % 64)
  match mine.find? fun f => tdiLocked s f && s.sec.flink.contains f != bit f with
  | some f => lockedError s f
  | none =>
    let free := mine.filter fun f => !s.ctxs.any fun p => p.2.func == f
    { s with sec := { s.sec with flink := free.foldl (fun l f => if bit f then setAdd l f else setDel l f) s.sec.flink } }
/-- A write of KEYCTL (R468). -/
def writeKeyctl (s : State) (v : DWord) : Host.Outcome State Fault Refusal :=
  let op := (v.extractLsb' 0 2).toNat
  if v.extractLsb' 23 41 ≠ 0 ∨ v.extractLsb' 9 7 ≠ 0 ∨ op = 3 ∨ (op ≠ 0 ∧ s.sec.keyOp.isSome = true) then .next (keyRefuse s)
  else if op = 1 then execKeyAssign (v.extractLsb' 2 7).toNat (v.extractLsb' 16 7).toNat s
  else if op = 2 then execKeyRetire (v.extractLsb' 2 7).toNat s
  else .next s
/-- A write of TBLSEL (R451). -/
def writeTblsel (s : State) (v : DWord) : State :=
  let err := s.sec.tblsel &&& (1#64 <<< 61) &&& ~~~v
  { s with sec := { s.sec with tblsel := (v &&& 0xC0FE00000000FFFF) ||| err } }
/-- A write in the expert window at an offset from its base (R450). A group that is not enabled ignores it. -/
def writeExpert (s : State) (x : Nat) (v : DWord) : Host.Outcome State Fault Refusal :=
  let i := x % 0x80 / 8
  if x < 0x2000 then .next (if groupOn s 0 then writeSlcore s (x / 0x80) i v else s)
  else if x < 0x2080 then .next (if groupOn s 0 then writeSlmem s i v else s)
  else if x < 0x2100 then .next (if groupOn s 0 then writeSlfab s i v else s)
  else if x < 0x2180 then .next (if groupOn s 0 && v.getLsbD 8 then s.modSlice i fun y => { y with stat := y.stat &&& ~~~0x100#64 } else s)
  else if x < 0x2200 then
    if groupOn s 0 && v.getLsbD 0 && sliceUsed s i && (s.slice i).stat.extractLsb' 4 4 != 6 then execSliceReset i s else .next s
  else if 0x4000 ≤ x ∧ x < 0x4400 then
    let d := (x - 0x4000) / 16
    let b := budgetOf s d
    let b := if x % 16 = 0 then (v, b.2) else (b.1, v &&& 0xFFFFFFFF)
    .next (if groupOn s 1 then { s with svc := { s.svc with budgets := Tbl.put s.svc.budgets d b } } else s)
  else if x = 0x5000 then if groupOn s 2 then writeKeyctl s v else .next s
  else if x = 0x5008 then .next (if groupOn s 2 && v.getLsbD 2 then { s with sec := { s.sec with keystat := s.sec.keystat &&& ~~~4#64 } } else s)
  else if x = 0x5010 ∨ x = 0x5018 then .next (if groupOn s 3 then writeFlink s ((x - 0x5010) / 8) v else s)
  else if x = 0x5020 then .next (if groupOn s 4 && v.getLsbD 33 then { s with time := { s.time with timestat := s.time.timestat &&& ~~~(1#64 <<< 33) } } else s)
  else if x = 0x5028 then if groupOn s 4 then execTbepochWrite v s else .next s
  else if x = 0x5040 then .next (if groupOn s 5 then writeTblsel s v else s)
  else if x = 0x5048 then .next (if groupOn s 5 then { s with sec := { s.sec with tbldat0 := v } } else s)
  else if x = 0x5050 then .next (if groupOn s 5 then { s with sec := { s.sec with tbldat1 := v } } else s)
  else if x = 0x5058 then if groupOn s 5 then tblGo s else .next s
  else if 0x6000 ≤ x ∧ x < 0xA000 then if groupOn s 6 then execSramcfgWrite ((x - 0x6000) / 8) v s else .next s
  else .next s
/-- A write in the trace register page (R402). -/
def writeTrace (s : State) (func o : Nat) (v : DWord) : Host.Outcome State Fault Refusal :=
  let set := fun (g : TraceRegs → TraceRegs) => (.next (s.modFunc func fun f => { f with trace := g f.trace }) : Host.Outcome State Fault Refusal)
  match o with
  | 0x00 => execTrcfgWrite func (v &&& 7) s
  | 0x08 => execTrbufWrite func v false s
  | 0x18 => execTrrpWrite func v s
  | 0x20 => set fun t => { t with filt := v &&& 0xFFFFFFFF8F000000 }
  | 0x28 => set fun t => { t with dies := v }
  | 0x30 => set fun t => { t with stat := t.stat &&& ~~~(v &&& 0xC) }
  | _ => .next s
/-- Whether a request reaches a function's BAR0 (R448, R449, R463): the function is live on the link, the offset is in its BAR, and in RUN
the mailbox is reached on the bound stream alone. -/
def barReached (s : State) (link func off : Nat) (stream : Option Nat) : Bool :=
  match Tbl.get? s.funcs func with
  | none => false
  | some f =>
    let mail := decide (0x9000 ≤ off ∧ off < 0xA000)
    decide (link < 2) && (func == 0 || (linkOf s func == link && f.enabled)) && decide (off < if func = 0 then 0x1000000 else 0x100000) &&
    (f.tdi != .run || (if mail then stream.isSome && stream == f.stream else decide (off < 0xF000)))
/-- A write of the MSI-X table (R449, log entry 123): a pending vector whose mask falls sends its message. -/
def writeMsix (s : State) (func i : Nat) (v : DWord) : State :=
  s.modFunc func fun f =>
    let f := { f with msixTab := Tbl.put f.msixTab i (if i % 2 = 1 then v &&& 0x1FFFFFFFF else v &&& ~~~3#64) }
    if i % 2 = 1 ∧ v.getLsbD 32 = false ∧ f.msixPend.contains (i / 2) = true then
      let f := { f with msixPend := setDel f.msixPend (i / 2) }
      f.signal (i / 2)
    else f
/-- A configuration write, at 2^32 and above (log entry 125): Device Control 2 of the PF on a link has AtomicOp Requester Enable in bit 6 (R459), and
the function's page-request capability its allocation (R458). Until bring-up is over it completes with Configuration Request Retry Status,
which is 8 here (R474). -/
def writeConfig (s : State) (link func o : Nat) (v : DWord) : State :=
  if 2 ≤ link ∨ (Tbl.get? s.funcs func).isNone = true then answer s 7 [] false
  else if s.svc.ready = false ∧ s.svc.recovery = false then answer s 8 [] false
  else if o = 0x28 ∧ func = 0 then
    { s with sec := { s.sec with atomicLinks := if v.getLsbD 6 then setAdd s.sec.atomicLinks link else setDel s.sec.atomicLinks link } }
  else if o = 0x10C then sendReqs (s.modFunc func fun f => { f with prgMax := v.toNat % 2 ^ 32 }) func
  else s
/-- REGISTER_WRITE (R452). A request that reaches no BAR completes as Unsupported Request; in recovery the PF's mailbox alone is there
(R474). Offsets from 2^32 on stand for configuration space. -/
def execRegisterWrite (link func off size : Nat) (value : DWord) (stream : Option Nat) (s : State) : Host.Outcome State Fault Refusal :=
  let mail := decide (0x9000 ≤ off ∧ off < 0xA000)
  if 2 ^ 32 ≤ off then .next (writeConfig s link func (off - 2 ^ 32) value)
  else if !barReached s link func off stream then .next (answer s 7 [] false)
  else if s.svc.recovery && !(func == 0 && mail) then .next s
  else if mail then
    if (size = 1 ∨ size = 2 ∨ size = 4 ∨ size = 8) ∧ off % size = 0 then
      let o := off - 0x9000
      let s := putMailbox s func o (leBytes size value.toNat)
      .next (if o ≤ 0x7FC ∧ 0x7FC < o + size then ring s func true value else if o ≤ 0xFFC ∧ 0xFFC < o + size then ring s func false value else s)
    else .next s
  else if off % 8 = 0 ∧ (size = 8 ∨ size = 4) then
    let v := if size = 4 then value &&& 0xFFFFFFFF else value
    if off < 0x8000 then execQueueNotify func (off / 8) v s
    else if off < 0x9000 then writeTrace s func (off - 0x8000) v
    else if 0xE000 ≤ off ∧ off < 0xE080 then .next (writeMsix s func ((off - 0xE000) / 8) v)
    else if 0x100000 ≤ off then writeExpert s (off - 0x100000) v
    else .next s
  else .next s

end Sys2Proof.Machine
end

