-- ==== Sys2Proof/Machine/Service.lean ====
section
/-! DEFINITION. Bring-up, power and service (17_module, 16 R471, R473). -/
namespace Sys2Proof.Machine

/-- A die is fenced (R480): its cores begin to leave their slices, as in a shrink. -/
def fenceDie (s : State) (die : Nat) : State :=
  if s.svc.fenced.contains die then s
  else
    let s := { s with svc := { s.svc with fenced := setAdd s.svc.fenced die } }
    (List.range 16).foldl (fun s i =>
      let off := fun (cs : Tbl DWord) => slcores cs ((rangesOf cs).filter (·.1 != die))
      let s := s.modSlice i fun x => { x with target := x.target.map fun p => (off p.1, p.2) }
      let here := (sliceCores s i).filter fun c => c / 32 == die
      if here.isEmpty then s
      else
        let x := s.slice i
        let rest := off x.cores
        if sliceBusy s i then
          let parts := x.leaving ++ (here.map SlicePart.core).filter fun p => !x.leaving.contains p
          let aim := x.target.getD (rest, x.mem)
          s.modSlice i fun x => { x with leaving := parts, target := some aim, stat := statWord x.stat parts.length (x.stat.extractLsb' 4 4).toNat
                                                                                         (x.stat.extractLsb' 0 4).toNat }
        else endShrink (startShrink s i 3 rest x.mem none) i) s
/-- DIE_FENCE (R480). -/
def execDieFence (die : Nat) (s : State) : Host.Outcome State Fault Refusal :=
  if Config.dies ≤ die then disabled else .next (fenceDie s die)

/-- A slice of a manifest is created of the dies that are in service (R480); none when it cannot be (R429, R474 step 6). -/
def makeSlice (s : Option State) (p : Nat × Ranges × DWord) : Option State :=
  match s with
  | none => none
  | some s =>
    let rs := p.2.1.filter fun r => !s.svc.fenced.contains r.1
    if decide (p.1 < 16) && !sliceUsed s p.1 && rangesOk p.2.1 && !rs.isEmpty && memOk p.2.2 && partsFree s p.1 rs p.2.2 then
      some (s.modSlice p.1 fun x => { x with cores := slcores x.cores rs, mem := p.2.2, wide := assignWide s (wideFree s p.1 (coresOf rs)) })
    else none
/-- A manifest's slices, functions and budgets are set up, and it is the active one (R474 step 6, R476); none when that fails. A manifest that
changes raises the generation record (R466). -/
def applyManifest (s : State) (m : Manifest) : Option State :=
  match m.slices.foldl makeSlice (some s) with
  | none => none
  | some s =>
    if m.funcs.all fun p => decide (p.1 < 128 ∧ p.2.1 < 16 ∧ p.2.2 < 2) then
      let s := m.funcs.foldl (fun s p => s.modFunc p.1 fun f => { f with slice := p.2.1 }) s
      let on1 := (m.funcs.filter fun p => p.1 != 0 && p.2.2 == 1).map (·.1)
      let b := m.budgets.foldl (fun t q => if q.1 < Config.dies then Tbl.put t q.1 q.2 else t) s.svc.budgets
      let g := if s.svc.manifest = some m then s.sec.generation else s.sec.generation + 1
      some (capChange { s with svc := { s.svc with modid := m.modid, budgets := b, svn := m.rollback, manifest := some m },
                               sec := { s.sec with generation := g, flink := on1 } })
    else none
/-- Every key index is generated fresh (R474 step 5, R467): index 0 is the PF's. -/
def freshKeys (keys : Tbl KeySlot) : Tbl KeySlot :=
  (List.range 128).map fun i => (i, { owner := if i = 0 then some 0 else none, gen := (Tbl.getD keys i {}).gen + 1 })
/-- The module as it starts again (R474): memory outside it and what the HBM channels hold stay as they were, and so do the generation record, the
rollback number and the channel sets that are retired for good (R480); SRAM holds zeros and no poison, every key is new, and the PF is there. -/
def started (s : State) (puf : Bool) : State :=
  { State.reset with
    mem := (s.undo.foldl (fun m p => Sparse.set (w := 8) m p.1 p.2) s.mem).filter fun p => decide (p.1 < 2 ^ 52)
    poison := s.poison.filter fun a => decide (a < 2 ^ 52)
    secKey := s.secKey
    sec := { keys := freshKeys s.sec.keys, generation := s.sec.generation }
    svc := { identity := puf, recovery := true, retiredSets := s.svc.retiredSets, svn := s.svc.svn, manifest := s.svc.manifest }
    schedule := s.schedule, clock := s.clock, nextOp := s.nextOp, nextId := s.nextId }
/-- The dies of a pair have a link: they are in one row or one column of the grid (R14, R31). -/
def linked (a b : Nat) : Bool := decide (a < Config.dies ∧ b < Config.dies ∧ a ≠ b ∧ (a / 8 = b / 8 ∨ a % 8 = b % 8))
/-- A part that fails bring-up leaves service (R474, R480); one that is not there changes nothing. -/
def failPart (s : State) (p : BringupFail) : State :=
  match p with
  | .die d => if d < Config.dies then fenceDie s d else s
  | .channelSet k => if k < 256 then { s with svc := { s.svc with retiredSets := setAdd s.svc.retiredSets k } } else s
  | .lane a b =>
    let k := 64 * min a b + max a b
    if linked a b then { s with svc := { s.svc with lanes := Tbl.put s.svc.lanes k (min 2 (Tbl.getD s.svc.lanes k 0 + 1)) } } else s
/-- The manifest and every image are verified, and none is older than the rollback record says (R476). -/
def bootOk (s : State) (boot : Boot) (m : Manifest) : Bool :=
  decide (s.svc.svn ≤ m.svn ∧ m.rollback ≤ m.svn) && boot.images.all fun i => i.verified && decide (s.svc.svn ≤ i.svn)
/-- POWER_ON_SEQUENCE (R474 to R476). Parts that fail leave service before slices are made. A manifest or an image that is refused, slices that
cannot be created, or an identity that is not regenerated, leave the module in recovery; otherwise the time master starts locking. -/
def execPowerOnSequence (failed : List BringupFail) (boot : Boot) (manifest : Option Manifest) (s : State) : Host.Outcome State Fault Refusal :=
  let base := failed.foldl failPart (started s boot.puf)
  let base := { base with svc := { base.svc with images := boot.images.foldl (fun t i => Tbl.put t i.index (Tbl.getD t i.index [] ++ i.bytes)) [] } }
  match manifest with
  | none => .next base
  | some m =>
    if boot.puf && bootOk base boot m then
      match applyManifest base m with
      | some s => .next { s with svc := { s.svc with recovery := false, ready := true }, time := { s.time with timestat := 1#64 <<< 62 } }
      | none => .next base
    else .next base

/-- A die's arithmetic clock is at a new step, 0 for 1.10 GHz to 11 for 0.55 GHz; firmware is told (R478). -/
def setClock (s : State) (die step : Nat) : State :=
  if Tbl.getD s.svc.clockStep die 0 = step then s
  else tellFirmware { s with svc := { s.svc with clockStep := Tbl.put s.svc.clockStep die step } } 6 die 0 step
/-- GOVERNOR_EVALUATE (R478): every 10 µs. -/
def execGovernorEvaluate (lower raise : List Nat) (s : State) : Host.Outcome State Fault Refusal :=
  if s.time.master < s.svc.governed + 160000 ∨ (lower.isEmpty = false ∧ raise.isEmpty = false) ∨
      ((lower ++ raise).all fun d => decide (d < Config.dies)) = false then disabled
  else
    let s := { s with svc := { s.svc with governed := s.time.master } }
    let s := lower.foldl (fun s d => setClock s d (min 11 (Tbl.getD s.svc.clockStep d 0 + 1))) s
    .next (raise.foldl (fun s d => setClock s d (Tbl.getD s.svc.clockStep d 0 - 1)) s)
/-- GOVERNOR_FAST_STEP (R478): one step down per microsecond. -/
def execGovernorFastStep (die : Nat) (s : State) : Host.Outcome State Fault Refusal :=
  let due := match Tbl.get? s.svc.fast die with | some t => decide (t + 16000 ≤ s.time.master) | none => true
  if !due || decide (Config.dies ≤ die) then disabled
  else .next (setClock { s with svc := { s.svc with fast := Tbl.put s.svc.fast die s.time.master } } die
    (min 11 (Tbl.getD s.svc.clockStep die 0 + 1)))
/-- What an update of the front end held is applied in the order in which it came (R479): replies to page requests, and ends of entries. -/
def applyHeld (s : State) : State :=
  let rs := s.svc.replies.map fun r => (r.clock, (Sum.inl r : HeldReply ⊕ Nat))
  let es := s.entries.map fun p => (p.2.due.getD s.clock, (Sum.inr p.1 : HeldReply ⊕ Nat))
  (sortKey (fun (p : Nat × (HeldReply ⊕ Nat)) => p.1) (rs ++ es)).foldl
    (fun s p => match p.2 with | .inl r => takeHeld s r | .inr e => settleEntry s e) { s with svc := { s.svc with replies := [] } }
/-- FIRMWARE_UPDATE (R479): one die at a time. The first move verifies the image and begins the update, the second ends it: what was held is
applied then. An image that is not verified, or is too old, is refused (R476). -/
def execFirmwareUpdate (die svn : Nat) (verified : Bool) (s : State) : Host.Outcome State Fault Refusal :=
  match Tbl.get? s.svc.updating die with
  | some v => .next (applyHeld { s with
      svc := { s.svc with updating := [], fw := Tbl.put s.svc.fw die v }
      sec := { s.sec with generation := s.sec.generation + 1 } })
  | none =>
    if !s.svc.updating.isEmpty || decide (Config.dies ≤ die) then disabled
    else if verified = false ∨ svn < s.svc.svn then .next s
    else .next { s with svc := { s.svc with updating := [(die, svn)] } }
/-- D2D_LANE_RETIRE (R480): the spare takes the place of the first lane; a second halves the link's rate. -/
def execD2dLaneRetire (a b : Nat) (s : State) : Host.Outcome State Fault Refusal :=
  let k := 64 * min a b + max a b
  if !linked a b || decide (2 ≤ Tbl.getD s.svc.lanes k 0) then disabled
  else .next { s with svc := { s.svc with lanes := Tbl.put s.svc.lanes k (Tbl.getD s.svc.lanes k 0 + 1) } }
/-- A station changes (R471). -/
def modStation (s : State) (i : Nat) (g : Station → Station) : State :=
  { s with svc := { s.svc with stations := Tbl.put s.svc.stations i (g (Tbl.getD s.svc.stations i {})) } }
/-- UALINK_LANE_RETIRE (R471, R480): a station runs on 4, then 2, then 1 lanes; one without a lane is down. -/
def execUalinkLaneRetire (station : Nat) (s : State) : Host.Outcome State Fault Refusal :=
  if 18 ≤ station ∨ (Tbl.getD s.svc.stations station {}).lanes = 0 then disabled
  else .next (modStation s station fun x => { x with lanes := x.lanes / 2, up := x.up && decide (1 < x.lanes) })
/-- UALINK_STATION_DOWN (R473). -/
def execUalinkStationDown (station : Nat) (s : State) : Host.Outcome State Fault Refusal :=
  if 18 ≤ station then disabled else .next (modStation s station fun x => { x with up := false, keyed := false })
/-- UALINK_STATION_UP (R471, R473): a station comes up; firmware has loaded its keys or has not. -/
def execUalinkStationUp (station : Nat × Bool) (s : State) : Host.Outcome State Fault Refusal :=
  if 18 ≤ station.1 ∨ (Tbl.getD s.svc.stations station.1 {}).lanes = 0 then disabled
  else .next (modStation s station.1 fun x => { x with up := true, keyed := station.2 })
/-- HBM_CHANNEL_RETIRE (R480): a channel set that no slice holds is marked retired and never assigned again. -/
def execHbmChannelRetire (set : Nat) (s : State) : Host.Outcome State Fault Refusal :=
  let held := (List.range 16).any fun i => (s.slice i).mem != 0 && decide (chBase (s.slice i).mem ≤ set ∧ set ≤ chLim (s.slice i).mem)
  if 256 ≤ set || held then disabled
  else .next (capChange { s with svc := { s.svc with retiredSets := setAdd s.svc.retiredSets set } })

end Sys2Proof.Machine
end

