-- ==== Sys2Proof/Machine/Trap.lean ====
section
/-! DEFINITION. TRAP, SWRITE and TRET, the entry of a trap that has waited, and state errors (13 R363, R372 to R377). -/
namespace Sys2Proof.Machine

/-- TRAP (R372): a precise software trap that resumes after the TRAP. -/
def execTrap (i : BitVec 24) (s : State) : Host.Outcome State Fault Refusal :=
  issue s (fun _ _ => { word := wordOf (.trap i), stops := true }) fun s c _ =>
    raise s s.cur { kind := .software, resume := c.pc + 4, fault := c.pc, word := wordOf (.trap i), detail := i.setWidth 64 }
/-- SWRITE (R373, R49). -/
def execSwrite (i : BitVec 8) (a : SReg) (s : State) : Host.Outcome State Fault Refusal :=
  issue s (fun c _ => { word := wordOf (.swrite i a), ok := i == 0x09 || (i == 0x11 && c.handler), stops := true, closes := true })
    fun s c _ =>
      let s := closeRegion s s.cur c.pc (wordOf (.swrite i a))
      let c := { c with region := none, buf := [] }
      if i = 0x09 then retire s { c with rseed := c.getS a, rndcnt := 0 }
      else retire s { c with trap := { c.trap with w1 := c.getS a } }
/-- TRET (R374). -/
def execTret (s : State) : Host.Outcome State Fault Refusal :=
  issue s (fun _ _ => { word := wordOf .tret, stops := true, closes := true }) fun s c _ =>
    if !c.handler then trapAt s s.cur c (wordOf .tret) .illegal 2
    else
      let s := closeRegion s s.cur c.pc (wordOf .tret)
      let c := { c with region := none, buf := [] }
      if c.trap.w1.toNat < 2 ^ 56 ∧ c.trap.w1.toNat % 4 = 0 then s.setCrew s.cur (leaveHandler c)
      else trapAt s s.cur c (wordOf .tret) .branchTarget 0 c.trap.w1
/-- The HALT record of a crew that stops when it has come to step 4 of R363, or stalls there (R367, R394). -/
def haltRecord (s : State) (crew : Nat) (why : HaltWhy) : State :=
  match s.crew? crew with
  | some c =>
    if c.trapping || c.wait == .stopped then s else emitCrewA s crew 0x04 why.code (pcBits c.pc)
      (match s.team? c.team with | some t => t.haltSent | none => 0)
  | none => s
/-- TRAP_ENTRY (R363): a trap whose older instructions have now completed is entered. A halt waits for it (R367). -/
def execTrapEntry (crew : Nat) (s : State) : Host.Outcome State Fault Refusal :=
  match s.crew? crew with
  | none => disabled
  | some c =>
    match c.pending, s.team? c.team with
    | some _, some t =>
      (match t.halt with
       | .running => .next (enterTrap s crew)
       | .halting why => if c.trapping then .next (haltRecord (enterTrap s crew) crew why) else disabled
       | .halted _ => disabled)
    | _, _ => disabled
/-- UNCORRECTABLE_STATE_ERROR (R377): the entry ends, whatever the trap vector holds. The cause is 1 for the register file, 2 for scalar state,
3 for the save area (R371). -/
def execUncorrectableStateError (crew : Nat) (cause : BitVec 8) (s : State) : Host.Outcome State Fault Refusal :=
  match s.crew? crew with
  | some c =>
    match s.team? c.team with
    | some t => if 1 ≤ cause.toNat ∧ cause.toNat ≤ 3 then .next (endEntry s t.entry 0x00FE (endDetail 0 cause.toNat c.idx t.tidx)) else disabled
    | none => disabled
  | none => disabled

end Sys2Proof.Machine
end

