-- ==== Sys2Proof/Machine/Dispatch.lean ====
section
/-! DEFINITION. One arm for each row of the opcode table: a direct call of its meaning. -/
namespace Sys2Proof.Machine

def exec (i : Instr) (s : State) : Host.Outcome State Fault Refusal :=
  match i with
  | .nop => Sys2Proof.Machine.execNop s
  | .br n => Sys2Proof.Machine.execBr n s
  | .brz d n => Sys2Proof.Machine.execBrz d n s
  | .brnz d n => Sys2Proof.Machine.execBrnz d n s
  | .call n => Sys2Proof.Machine.execCall n s
  | .ret => Sys2Proof.Machine.execRet s
  | .jr a => Sys2Proof.Machine.execJr a s
  | .blkz d n => Sys2Proof.Machine.execBlkz d n s
  | .mode q n => Sys2Proof.Machine.execMode q n s
  | .moder d a => Sys2Proof.Machine.execModer d a s
  | .wait l h c t => Sys2Proof.Machine.execWait l h c t s
  | .waitr a k => Sys2Proof.Machine.execWaitr a k s
  | .endCrew => Sys2Proof.Machine.execEndCrew s
  | .sread d n => Sys2Proof.Machine.execSread d n s
  | .sli d n => Sys2Proof.Machine.execSli d n s
  | .slis d n => Sys2Proof.Machine.execSlis d n s
  | .sadd d a b => Sys2Proof.Machine.execSadd d a b s
  | .saddi d a n => Sys2Proof.Machine.execSaddi d a n s
  | .ssub d a b => Sys2Proof.Machine.execSsub d a b s
  | .smul d a b => Sys2Proof.Machine.execSmul d a b s
  | .sdivs d a b => Sys2Proof.Machine.execSdivs d a b s
  | .sdivn d a b => Sys2Proof.Machine.execSdivn d a b s
  | .sand d a b => Sys2Proof.Machine.execSand d a b s
  | .sor d a b => Sys2Proof.Machine.execSor d a b s
  | .sxor d a b => Sys2Proof.Machine.execSxor d a b s
  | .sshl d a b => Sys2Proof.Machine.execSshl d a b s
  | .sshr d a b => Sys2Proof.Machine.execSshr d a b s
  | .ssra d a b => Sys2Proof.Machine.execSsra d a b s
  | .sslt d a b => Sys2Proof.Machine.execSslt d a b s
  | .scnt d a => Sys2Proof.Machine.execScnt d a s
  | .sclz d a => Sys2Proof.Machine.execSclz d a s
  | .vadd d a b => Sys2Proof.Machine.execVadd d a b s
  | .vsub d a b => Sys2Proof.Machine.execVsub d a b s
  | .vmul d a b => Sys2Proof.Machine.execVmul d a b s
  | .vfma d a b => Sys2Proof.Machine.execVfma d a b s
  | .vmin d a b => Sys2Proof.Machine.execVmin d a b s
  | .vmax d a b => Sys2Proof.Machine.execVmax d a b s
  | .vand d a b => Sys2Proof.Machine.execVand d a b s
  | .vor d a b => Sys2Proof.Machine.execVor d a b s
  | .vxor d a b => Sys2Proof.Machine.execVxor d a b s
  | .vshl d a b => Sys2Proof.Machine.execVshl d a b s
  | .vshr d a b => Sys2Proof.Machine.execVshr d a b s
  | .vceq d a b => Sys2Proof.Machine.execVceq d a b s
  | .vclt d a b => Sys2Proof.Machine.execVclt d a b s
  | .vcle d a b => Sys2Proof.Machine.execVcle d a b s
  | .vmov d a => Sys2Proof.Machine.execVmov d a s
  | .vbcs d a => Sys2Proof.Machine.execVbcs d a s
  | .vext d a b => Sys2Proof.Machine.execVext d a b s
  | .vlid d => Sys2Proof.Machine.execVlid d s
  | .vcvt d a => Sys2Proof.Machine.execVcvt d a s
  | .vrcp d a => Sys2Proof.Machine.execVrcp d a s
  | .vrsq d a => Sys2Proof.Machine.execVrsq d a s
  | .vexp2 d a => Sys2Proof.Machine.execVexp2 d a s
  | .vlog2 d a => Sys2Proof.Machine.execVlog2 d a s
  | .vred d a => Sys2Proof.Machine.execVred d a s
  | .vcmpr d a b => Sys2Proof.Machine.execVcmpr d a b s
  | .vexpd d a b => Sys2Proof.Machine.execVexpd d a b s
  | .vslup d a b => Sys2Proof.Machine.execVslup d a b s
  | .vsldn d a b => Sys2Proof.Machine.execVsldn d a b s
  | .vperm d a b => Sys2Proof.Machine.execVperm d a b s
  | .vpk2 d a b => Sys2Proof.Machine.execVpk2 d a b s
  | .vpk4 d a b => Sys2Proof.Machine.execVpk4 d a b s
  | .vupk d a e => Sys2Proof.Machine.execVupk d a e s
  | .ld d a b => Sys2Proof.Machine.execLd d a b s
  | .st d a b => Sys2Proof.Machine.execSt d a b s
  | .ldt d h b => Sys2Proof.Machine.execLdt d h b s
  | .stt d h b => Sys2Proof.Machine.execStt d h b s
  | .shape d a => Sys2Proof.Machine.execShape d a s
  | .fence h o => Sys2Proof.Machine.execFence h o s
  | .pref l a b => Sys2Proof.Machine.execPref l a b s
  | .flush a b => Sys2Proof.Machine.execFlush a b s
  | .cpy4 d a b => Sys2Proof.Machine.execCpy4 d a b s
  | .cpy8 d a b => Sys2Proof.Machine.execCpy8 d a b s
  | .cpy16 d a b => Sys2Proof.Machine.execCpy16 d a b s
  | .cpyt d h b => Sys2Proof.Machine.execCpyt d h b s
  | .binw d a b => Sys2Proof.Machine.execBinw d a b s
  | .bulk d a => Sys2Proof.Machine.execBulk d a s
  | .semset d a => Sys2Proof.Machine.execSemset d a s
  | .semacq d a => Sys2Proof.Machine.execSemacq d a s
  | .semtry d a => Sys2Proof.Machine.execSemtry d a s
  | .semrd d a => Sys2Proof.Machine.execSemrd d a s
  | .gang a => Sys2Proof.Machine.execGang a s
  | .mmag d a b => Sys2Proof.Machine.execMmag d a b s
  | .mmas d a b => Sys2Proof.Machine.execMmas d a b s
  | .tilez d => Sys2Proof.Machine.execTilez d s
  | .tld d a => Sys2Proof.Machine.execTld d a s
  | .tdrn d a => Sys2Proof.Machine.execTdrn d a s
  | .tdrm d a b => Sys2Proof.Machine.execTdrm d a b s
  | .tdrp d a => Sys2Proof.Machine.execTdrp d a s
  | .aadd d a b => Sys2Proof.Machine.execAadd d a b s
  | .amin d a b => Sys2Proof.Machine.execAmin d a b s
  | .amax d a b => Sys2Proof.Machine.execAmax d a b s
  | .aand d a b => Sys2Proof.Machine.execAand d a b s
  | .aor d a b => Sys2Proof.Machine.execAor d a b s
  | .axor d a b => Sys2Proof.Machine.execAxor d a b s
  | .axch d a b => Sys2Proof.Machine.execAxch d a b s
  | .acas d a b => Sys2Proof.Machine.execAcas d a b s
  | .waitc c a b => Sys2Proof.Machine.execWaitc c a b s
  | .bari d a => Sys2Proof.Machine.execBari d a s
  | .bar d => Sys2Proof.Machine.execBar d s
  | .bars d => Sys2Proof.Machine.execBars d s
  | .bara d => Sys2Proof.Machine.execBara d s
  | .bard d => Sys2Proof.Machine.execBard d s
  | .launch d a => Sys2Proof.Machine.execLaunch d a s
  | .tspawn d a => Sys2Proof.Machine.execTspawn d a s
  | .tdep a b => Sys2Proof.Machine.execTdep a b s
  | .regionClose => Sys2Proof.Machine.execRegionClose s
  | .regionOpen => Sys2Proof.Machine.execRegionOpen s
  | .mark d a => Sys2Proof.Machine.execMark d a s
  | .trctlGate a => Sys2Proof.Machine.execTrctlGate a s
  | .trctlMask a => Sys2Proof.Machine.execTrctlMask a s
  | .trctlDrain a => Sys2Proof.Machine.execTrctlDrain a s
  | .trctlAnchor a => Sys2Proof.Machine.execTrctlAnchor a s
  | .trap n => Sys2Proof.Machine.execTrap n s
  | .swrite n a => Sys2Proof.Machine.execSwrite n a s
  | .tret => Sys2Proof.Machine.execTret s
  | .issueStarvationPromote crew => Sys2Proof.Machine.execIssueStarvationPromote crew s
  | .instructionFetchFault cause addr detail => Sys2Proof.Machine.execInstructionFetchFault cause addr detail s
  | .loadDataReturn op => Sys2Proof.Machine.execLoadDataReturn op s
  | .storePerformed op k => Sys2Proof.Machine.execStorePerformed op k s
  | .invalidationReceive core line => Sys2Proof.Machine.execInvalidationReceive core line s
  | .invalidationApplyTimeout core => Sys2Proof.Machine.execInvalidationApplyTimeout core s
  | .atomicStep op addr => Sys2Proof.Machine.execAtomicStep op addr s
  | .atomicResultReturn op => Sys2Proof.Machine.execAtomicResultReturn op s
  | .shapeComplete op => Sys2Proof.Machine.execShapeComplete op s
  | .tdepStep op => Sys2Proof.Machine.execTdepStep op s
  | .flushComplete op => Sys2Proof.Machine.execFlushComplete op s
  | .copyComplete op => Sys2Proof.Machine.execCopyComplete op s
  | .binClaim op => Sys2Proof.Machine.execBinClaim op s
  | .binwComplete op => Sys2Proof.Machine.execBinwComplete op s
  | .mirrorDelivery op member bad => Sys2Proof.Machine.execMirrorDelivery op member bad s
  | .bulkStart die engine func => Sys2Proof.Machine.execBulkStart die engine func s
  | .bulkCopyDone cmd => Sys2Proof.Machine.execBulkCopyDone cmd s
  | .bulkDecryptDone cmd => Sys2Proof.Machine.execBulkDecryptDone cmd s
  | .collectiveMatch func group seq agree => Sys2Proof.Machine.execCollectiveMatch func group seq agree s
  | .collectiveDone func group seq remote => Sys2Proof.Machine.execCollectiveDone func group seq remote s
  | .scanDone cmd => Sys2Proof.Machine.execScanDone cmd s
  | .tileStepComplete op => Sys2Proof.Machine.execTileStepComplete op s
  | .drainComplete op => Sys2Proof.Machine.execDrainComplete op s
  | .drainAddReceive op => Sys2Proof.Machine.execDrainAddReceive op s
  | .drainAddAck op => Sys2Proof.Machine.execDrainAddAck op s
  | .monitorWake crew => Sys2Proof.Machine.execMonitorWake crew s
  | .waitcPoll crew => Sys2Proof.Machine.execWaitcPoll crew s
  | .monitorThresholdHalt crew => Sys2Proof.Machine.execMonitorThresholdHalt crew s
  | .relaunchPoll team => Sys2Proof.Machine.execRelaunchPoll team s
  | .wideBarrierArrival ctx crew => Sys2Proof.Machine.execWideBarrierArrival ctx crew s
  | .wideBarrierCompletion ctx core => Sys2Proof.Machine.execWideBarrierCompletion ctx core s
  | .regionReleaseComplete op => Sys2Proof.Machine.execRegionReleaseComplete op s
  | .dispatchEntry ctx => Sys2Proof.Machine.execDispatchEntry ctx s
  | .placeTeam ctx => Sys2Proof.Machine.execPlaceTeam ctx s
  | .placeMirrorGroup ctx => Sys2Proof.Machine.execPlaceMirrorGroup ctx s
  | .compactorMove core crew => Sys2Proof.Machine.execCompactorMove core crew s
  | .heatSweep ctx => Sys2Proof.Machine.execHeatSweep ctx s
  | .pageRequestReply ctx req status => Sys2Proof.Machine.execPageRequestReply ctx req status s
  | .prgResponse func index code => Sys2Proof.Machine.execPrgResponse func index code s
  | .pageRequestTimeout ctx req => Sys2Proof.Machine.execPageRequestTimeout ctx req s
  | .prgIndexReuseTimeout func index => Sys2Proof.Machine.execPrgIndexReuseTimeout func index s
  | .atsTranslationCompletion ctx page res => Sys2Proof.Machine.execAtsTranslationCompletion ctx page res s
  | .atsTranslationTimeout ctx page => Sys2Proof.Machine.execAtsTranslationTimeout ctx page s
  | .atsInvalidateRequest link ctx lo len => Sys2Proof.Machine.execAtsInvalidateRequest link ctx lo len s
  | .unmapInvalidation ctx lo len => Sys2Proof.Machine.execUnmapInvalidation ctx lo len s
  | .invalidationComplete id => Sys2Proof.Machine.execInvalidationComplete id s
  | .haltRequest team => Sys2Proof.Machine.execHaltRequest team s
  | .haltComplete team => Sys2Proof.Machine.execHaltComplete team s
  | .resume team => Sys2Proof.Machine.execResume team s
  | .quantumExpiry slice => Sys2Proof.Machine.execQuantumExpiry slice s
  | .contextTeardown ctx => Sys2Proof.Machine.execContextTeardown ctx s
  | .trapEntry crew => Sys2Proof.Machine.execTrapEntry crew s
  | .uncorrectableStateError crew cause => Sys2Proof.Machine.execUncorrectableStateError crew cause s
  | .scrubSector place => Sys2Proof.Machine.execScrubSector place s
  | .activityBudgetPeriod die => Sys2Proof.Machine.execActivityBudgetPeriod die s
  | .carveWriteback core n => Sys2Proof.Machine.execCarveWriteback core n s
  | .carveComplete core => Sys2Proof.Machine.execCarveComplete core s
  | .sramcfgWrite core value => Sys2Proof.Machine.execSramcfgWrite core value s
  | .traceReservationRefill core => Sys2Proof.Machine.execTraceReservationRefill core s
  | .traceAccept die src => Sys2Proof.Machine.execTraceAccept die src s
  | .epoch die => Sys2Proof.Machine.execEpoch die s
  | .trcfgWrite func value => Sys2Proof.Machine.execTrcfgWrite func value s
  | .trbufWrite func value firmware => Sys2Proof.Machine.execTrbufWrite func value firmware s
  | .trrpWrite func value => Sys2Proof.Machine.execTrrpWrite func value s
  | .ppsEdge offset => Sys2Proof.Machine.execPpsEdge offset s
  | .ptmExchange offset => Sys2Proof.Machine.execPtmExchange offset s
  | .ptmFailureTimeout => Sys2Proof.Machine.execPtmFailureTimeout s
  | .timeForwardStep units => Sys2Proof.Machine.execTimeForwardStep units s
  | .tbepochWrite value => Sys2Proof.Machine.execTbepochWrite value s
  | .sliceCreate h cores mem => Sys2Proof.Machine.execSliceCreate h cores mem s
  | .sliceGrow h cores mem => Sys2Proof.Machine.execSliceGrow h cores mem s
  | .sliceShrink h cores mem => Sys2Proof.Machine.execSliceShrink h cores mem s
  | .sliceMerge a b => Sys2Proof.Machine.execSliceMerge a b s
  | .sliceSplit a b cores memA memB => Sys2Proof.Machine.execSliceSplit a b cores memA memB s
  | .sliceReleaseProgress h part => Sys2Proof.Machine.execSliceReleaseProgress h part s
  | .sliceReset h => Sys2Proof.Machine.execSliceReset h s
  | .queueNotify func queue value => Sys2Proof.Machine.execQueueNotify func queue value s
  | .queueMap func queue slot => Sys2Proof.Machine.execQueueMap func queue slot s
  | .queueSlotFetch slice slot => Sys2Proof.Machine.execQueueSlotFetch slice slot s
  | .npQueueReclaim slice slot => Sys2Proof.Machine.execNpQueueReclaim slice slot s
  | .adapterAdmission id => Sys2Proof.Machine.execAdapterAdmission id s
  | .admissionRetry id => Sys2Proof.Machine.execAdmissionRetry id s
  | .migrationCommand die src dst psize func report => Sys2Proof.Machine.execMigrationCommand die src dst psize func report s
  | .migrationLineCopy die entry => Sys2Proof.Machine.execMigrationLineCopy die entry s
  | .migrationDone die entry => Sys2Proof.Machine.execMigrationDone die entry s
  | .forwardingEntryRetire die entry => Sys2Proof.Machine.execForwardingEntryRetire die entry s
  | .podRequestReceive req => Sys2Proof.Machine.execPodRequestReceive req s
  | .podResponseTimeout op k => Sys2Proof.Machine.execPodResponseTimeout op k s
  | .podResponse op k res => Sys2Proof.Machine.execPodResponse op k res s
  | .hostAtomicop pa kind size operand compare => Sys2Proof.Machine.execHostAtomicop pa kind size operand compare s
  | .hostMemoryWrite pa data => Sys2Proof.Machine.execHostMemoryWrite pa data s
  | .hostMemoryRead pa n => Sys2Proof.Machine.execHostMemoryRead pa n s
  | .mailboxDoorbell func inbound value => Sys2Proof.Machine.execMailboxDoorbell func inbound value s
  | .registerWrite link func off size value stream => Sys2Proof.Machine.execRegisterWrite link func off size value stream s
  | .tblgoPeer => Sys2Proof.Machine.execTblgoPeer s
  | .tblgoWindow => Sys2Proof.Machine.execTblgoWindow s
  | .tblgoRouting => Sys2Proof.Machine.execTblgoRouting s
  | .keyAssign index func => Sys2Proof.Machine.execKeyAssign index func s
  | .keyRetire index => Sys2Proof.Machine.execKeyRetire index s
  | .functionLevelReset func => Sys2Proof.Machine.execFunctionLevelReset func s
  | .ideKmKeyProgram link stream => Sys2Proof.Machine.execIdeKmKeyProgram link stream s
  | .ideIntegrityFailure link stream => Sys2Proof.Machine.execIdeIntegrityFailure link stream s
  | .lockInterfaceRequest vf stream => Sys2Proof.Machine.execLockInterfaceRequest vf stream s
  | .stopInterfaceRequest vf => Sys2Proof.Machine.execStopInterfaceRequest vf s
  | .deviceInterfaceReport vf => Sys2Proof.Machine.execDeviceInterfaceReport vf s
  | .getVersion => Sys2Proof.Machine.execGetVersion s
  | .getCapabilities => Sys2Proof.Machine.execGetCapabilities s
  | .negotiateAlgorithms hash kex aead => Sys2Proof.Machine.execNegotiateAlgorithms hash kex aead s
  | .getDigests => Sys2Proof.Machine.execGetDigests s
  | .getCertificate slot => Sys2Proof.Machine.execGetCertificate slot s
  | .challenge slot nonce => Sys2Proof.Machine.execChallenge slot nonce s
  | .getMeasurements slot index nonce => Sys2Proof.Machine.execGetMeasurements slot index nonce s
  | .keyExchange slot nonce => Sys2Proof.Machine.execKeyExchange slot nonce s
  | .finish => Sys2Proof.Machine.execFinish s
  | .endSession => Sys2Proof.Machine.execEndSession s
  | .keyLoad func slot key => Sys2Proof.Machine.execKeyLoad func slot key s
  | .powerOnSequence failed boot manifest => Sys2Proof.Machine.execPowerOnSequence failed boot manifest s
  | .governorEvaluate lower raise => Sys2Proof.Machine.execGovernorEvaluate lower raise s
  | .governorFastStep die => Sys2Proof.Machine.execGovernorFastStep die s
  | .firmwareUpdate die svn verified => Sys2Proof.Machine.execFirmwareUpdate die svn verified s
  | .d2dLaneRetire a b => Sys2Proof.Machine.execD2dLaneRetire a b s
  | .ualinkLaneRetire station => Sys2Proof.Machine.execUalinkLaneRetire station s
  | .hbmChannelRetire set => Sys2Proof.Machine.execHbmChannelRetire set s
  | .dieFence die => Sys2Proof.Machine.execDieFence die s
  | .illegalInstructionWord w => Sys2Proof.Machine.execIllegalInstructionWord w s
  | .ppsLossTimeout => Sys2Proof.Machine.execPpsLossTimeout s
  | .priReset func => Sys2Proof.Machine.execPriReset func s
  | .startInterfaceRequest vf => Sys2Proof.Machine.execStartInterfaceRequest vf s
  | .ualinkStationDown station => Sys2Proof.Machine.execUalinkStationDown station s
  | .ualinkStationUp station => Sys2Proof.Machine.execUalinkStationUp station s

end Sys2Proof.Machine
end

