-- ==== Sys2Proof/Machine/Fetch.lean ====
section
/-! DEFINITION. Fetching an instruction, the sampling of ISSUE records, the passing of time, and the moves that the machine makes
when the schedule names none. -/
namespace Sys2Proof.Machine

/-- The instruction that a crew is to issue: the decoded one, or the step of R68 or R112. -/
def nextInstr (s : State) (t : Team) (pc : Addr) : Instr :=
  match fetch s t pc with
  | .fails cause detail => .instructionFetchFault cause pc detail
  | .word w =>
    match decodeBytes (bytesOfWord w) with
    | .ok (i, _) => i
    | .error _ => .illegalInstructionWord w
/-- R406: the sampled instruction emits ISSUE once it has issued; an END has emitted its own. -/
def sampled (s' : State) (key : Nat) (c : Crew) (op : BitVec 8) : State :=
  match s'.crew? key with
  | some c' => if c'.issued = c.issued + 1 ∧ c'.wait ≠ .ended then emitIssue s' key c op else s'
  | none => s'
/-- What a crew does when its turn comes: the instruction at its program counter is executed, unless a record that it would emit finds no
reservation (R410). -/
def crewMove (s : State) (key : Nat) : Host.Outcome State Fault Refusal :=
  let s := { s with cur := key }
  match s.crew? key with
  | none => .fault .noCrew
  | some c =>
    match s.team? c.team with
    | none => .fault .noCrew
    | some t =>
      match exec (nextInstr s t c.pc) s with
      | .next s' => .next (orStall s key c (sampled s' key c (opcodeOf (wordOf (nextInstr s t c.pc)))))
      | r => r
/-- The opcodes of the control slot (R100). -/
def controlOp (op : BitVec 8) : Bool :=
  decide (0x01 ≤ op.toNat ∧ op.toNat ≤ 0x0E) || decide (0x10 ≤ op.toNat ∧ op.toNat ≤ 0x20) || decide (0xC0 ≤ op.toNat ∧ op.toNat ≤ 0xC2)
/-- A crew's next instruction takes the control slot of its quadrant; any other takes the unit slot (R100). -/
def inControl (s : State) (c : Crew) : Bool :=
  match (s.team? c.team).map fun t => nextInstr s t c.pc with
  | some (.instructionFetchFault _ _ _) => true
  | some (.illegalInstructionWord w) => controlOp (opcodeOf w)
  | some i => controlOp (opcodeOf (wordOf i))
  | none => false
/-- A crew is ready for its slot (R101): at its turn it would issue, and not merely wait, stall, or note what it waits for; and no unit that it
needs is busy (R102, R130, log entry 4). -/
def crewReady (s : State) (key : Nat) : Bool :=
  !Config.unitBusy s.clock key && match s.crew? key, crewMove s key with
  | some c, .next s' =>
    (match s'.crew? key with
     | some d => { d with stalled := c.stalled, needs := c.needs, stallSum := c.stallSum, started := c.started, fenceAt := c.fenceAt, spare := c.spare, spawn := c.spawn } != c
     | none => true)
  | _, _ => false
/-- R101 among the crews: launch priority, then a crew that has been ready for 64 cycles, the age of the team, the crew index. -/
def crewBefore (s : State) (a b : Nat × Crew) : Bool :=
  let pr := fun (p : Nat × Crew) => match s.team? p.2.team with | some t => t.prio | none => 0
  let up := fun (p : Nat × Crew) => s.promoted.contains p.1 || decide (64 ≤ p.2.ready)
  if pr a != pr b then decide (pr b < pr a)
  else if up a != up b then up a
  else if a.2.team != b.2.team then decide (a.2.team < b.2.team) else decide (a.2.idx < b.2.idx)
/-- The crew is the one that its quadrant's slot takes (R100, R101): no ready crew comes before it. -/
def chosen (s : State) (key : Nat) (c : Crew) : Bool :=
  !s.crews.any fun p => p.1 != key && coreOf p.1 == coreOf key && slotOf p.1 / 16 == slotOf key / 16 && inControl s p.2 == inControl s c &&
    crewBefore s p (key, c) && crewReady s p.1
/-- A crew's move: it issues if its slot takes it (R101). -/
def runCrew (s : State) (key : Nat) : Host.Outcome State Fault Refusal :=
  match s.crew? key with
  | none => .fault .noCrew
  | some c => if chosen s key c then crewMove { s with promoted := setDel s.promoted key } key else .next s
/-- A step without a word: what a crew issues is no such step (R100). -/
def isEvent (i : Instr) : Bool :=
  match i with
  | .illegalInstructionWord _ => false
  | .instructionFetchFault _ _ _ => false
  | i => (encode i).isNone

/-- Every crew of a lossless function on a core where one of its records waits for space counts as stalled; a stall ends with its cause, though
the crew waits for something else (R410, R411, R413). -/
def settleStalls (s : State) : State :=
  s.crews.foldl (fun s p =>
    match s.crew? p.1 with
    | none => s
    | some c =>
      let f := funcOfTeam s c.team
      let out := c.wait == .ended || c.wait == .stopped || (match s.team? c.team with | some t => t.halt != .running | none => true)
      let pool := decide (max 1 c.needs ≤ (s.core (coreOf p.1)).granted) && (s.core (coreOf p.1)).grantee == f
      if !out && traceHeld s p.1 c then (if c.stalled.isSome then s else stallCrew s p.1 c)
      else if c.stalled.isSome && (out || c.wait != .none || pool || !lossless s f) then (stallOver s p.1 c).1
      else s) s
/-- CARVESTAT and L2CSTAT follow the lines that a change of way-groups or of a core's SRAM has still to write back (R180, R183). -/
def settleStats (s : State) : State :=
  let s := s.cores.foldl (fun s p => if p.2.carvestat &&& 0xF = 1 ∨ p.2.carvestat &&& 0xF = 2 then fixCarve s p.1 else s) s
  s.slices.foldl (fun s p => if p.2.l2cstat = 0 then s else fixL2c s p.1) s
/-- After a move, a team of which a crew has ended and whose other crews are all blocked at core barriers takes its traps (R122). -/
def settleTeams (s : State) : State :=
  (s.teams.filter fun p => !p.2.ended.isEmpty && !p.2.retired).foldl (fun s p => checkDeadlock s p.1) s
/-- What follows a move by itself: deadlocks, ends of entries that were held, stores that may enter their queues, and the registers and save
areas that follow the state. -/
def settle (old new : State) : State :=
  syncSpill old (settleStats (settleStalls (settleActive (enterStores (settleEntries (settleCmds (settleTeams (settleHalves new))))))))
/-- A move. -/
def runMove (s : State) (m : Move) : Host.Outcome State Fault Refusal :=
  match (match m with | .crew k => runCrew s k | .event i => if isEvent i then exec i s else disabled) with
  | .next s' => .next (settle s s')
  | r => r
/-- The reads of an operation that are performed in this step although it completes later: the free value picks them among those that may
be performed (R208, R214, R224; log entries 19 and 20). -/
def readAhead (s : State) (n : Nat) (o : Op) : Op :=
  if o.done then o
  else match o.kind, s.crew? o.crew with
    | .load, some c =>
      let bind := fun (a : Acc) =>
        if Config.readsNow s.clock (a.pa / 4) && a.got.isNone && !a.clip && loadable s n o c a then
          match bindAcc s n o c a with
          | some (v, p, none) => { a with got := some (v, p) }
          | _ => a
        else a
      { o with accs := o.accs.map bind }
    | .copy sem parts, _ => { o with kind := .copy sem (parts.map (readPart s n o)) }
    | _, _ => o
/-- The scratchpad operand of the matrix instruction that a crew is to issue (R261, R268). -/
def operandAccs (s : State) (t : Team) (c : Crew) : List Acc :=
  let f4 := tyOf c.mode == 5
  let rows := mRows c.mode
  (match nextInstr s t c.pc with
   | .mmas _ a b => scratchAccs t (c.getS a).toNat (blockBytes4 f4 rows) ++ scratchAccs t (c.getS b).toNat (blockBytes4 f4 32)
   | .tld _ a => scratchAccs t (c.getS a).toNat 4096
   | .mmag _ a _ => scratchAccs t (c.getS a).toNat (gangN c.gang * blockStride f4 rows)
   | _ => []).filter fun a => inScratch a.pa
/-- A write of another crew to a scratchpad byte is under way, and nothing orders it before what a crew reads now: the place of an engine's,
or a store (R213, R268). -/
def racesAt (s : State) (key : Nat) (c : Crew) (x : Nat) : Bool :=
  s.ops.any fun p => p.2.crew != key && !p.2.done &&
    ((decide (c.acqAt < p.1) && (engineDst p.2).any fun a => decide (a.pa ≤ x ∧ x < a.pa + a.size)) ||
      (p.2.isStore && p.2.accs.any fun a => a.st == .todo && (inMirror a.va || decide (a.pa ≤ x ∧ x < a.pa + a.size))))
/-- Operand words of a matrix instruction that are read in this step, before it issues: where a write races, the free value picks them (R268,
log entry 92). -/
def readOperands (s : State) (key : Nat) (c : Crew) : Crew :=
  match s.team? c.team with
  | some t =>
    if t.halt != .running || c.pending.isSome || c.spec.isSome || !(c.wait == .none || c.wait == .trivet) then c
    else
      let o : Op := { crew := key, team := c.team, core := coreOf key, cls := none, kind := .load }
      let old := c.seen.filter fun y => y.1 == c.issued
      let now := (operandAccs s t c).flatMap fun a => ((List.range a.size).map (a.pa + ·)).filterMap fun x =>
        if racesAt s key c x && !(old.any fun y => y.2.1 == x) && Config.readsNow s.clock (x / 4) && orderMet s s.nextOp o a &&
            ownClear s s.nextOp o { a with pa := x, size := 1 } then some (c.issued, x, loadByte s key c s.nextOp a x) else none
      if now.isEmpty then c else { c with seen := old ++ now }
  | none => c
/-- How far the dies' cycles are behind after n cycles at full clock (R478): step k of the clock is 22 - k times 50 MHz. -/
def lagAfter (s : State) (n : Nat) : Tbl Nat :=
  s.svc.clockStep.foldl (fun l p => if p.2 = 0 then l else Tbl.put l p.1 (Tbl.getD l p.1 0 + p.2 * n)) s.time.lag
/-- Time passes (R36, R48; log entry 4), and some outstanding reads and operand reads are performed. -/
def tick (s : State) : State :=
  let n := 1 + Config.extraCycles s.clock
  { s with
    clock := s.clock + 1
    ops := s.ops.map fun p => (p.1, readAhead s p.1 p.2)
    crews := if s.ops.isEmpty then s.crews else s.crews.map fun p => (p.1, readOperands s p.1 p.2)
    time := { s.time with master := s.time.master + Config.timeUnits s.clock, cycle := s.time.cycle + n, lag := lagAfter s n }
    fabric := { s.fabric with starved := false, wanted := 0 } }

/-- The events that carry an outstanding operation on, oldest work first. -/
def opMoves (n : Nat) (o : Op) : List Move :=
  if o.done then [] else
  let ix := (List.range o.accs.length).filter fun k => match o.accs[k]? with | some a => a.st == .todo | none => false
  match o.kind with
  | .load => [.event (.loadDataReturn n)]
  | .store => ix.map fun k => .event (.storePerformed n k)
  | .release _ => ix.map (fun k => .event (.storePerformed n k)) ++ [.event (.regionReleaseComplete n)]
  | .mirror ms _ => (List.range ms.length).map fun k => .event (.mirrorDelivery n k [])
  | .atomic _ _ _ => (o.accs.map fun a => .event (.atomicStep n a.pa)) ++ [.event (.atomicResultReturn n)]
  | .shape _ _ => [.event (.shapeComplete n)]
  | .tdep _ => [.event (.tdepStep n)]
  | .flush _ => [.event (.flushComplete n)]
  | .copy _ _ => [.event (.copyComplete n)]
  | .binw _ => [.event (.binClaim n), .event (.binwComplete n)]
  | .tile _ _ => [.event (.tileStepComplete n)]
  | .drain _ _ => [.event (.drainComplete n)]
  | .drainAdd _ => [.event (.drainAddReceive n), .event (.drainAddAck n)]
/-- The copies in a core's L1 whose invalidation a waiting access of another core needs (R208). -/
def toRecall (s : State) (core : Nat) : List Nat :=
  ((s.core core).l1.map (·.1)).filter fun l => !(s.core core).inv.contains l && s.ops.any fun p =>
    p.2.core != core && !p.2.done && p.2.accs.any fun a => a.st == .todo && lineOf (route s (landing s p.2.team p.2.kind.podKind a).pa) == l
/-- Insertion in the order of R101. -/
def insertCrew (s : State) (p : Nat × Crew) : List (Nat × Crew) → List (Nat × Crew)
  | [] => [p]
  | q :: t => if crewBefore s p q then p :: q :: t else q :: insertCrew s p t
/-- The moves that the machine tries in order when the schedule names none (log entry 2): invalidations arrive, outstanding
operations go on, messages are delivered, traps are entered, crews issue, and the front ends work. -/
def defaultMoves (s : State) : List Move :=
  (s.cores.map fun c => .event (.traceReservationRefill c.1)) ++
  (s.cores.flatMap fun c => (toRecall s c.1).map fun l => .event (.invalidationReceive c.1 l)) ++
  (s.ops.flatMap fun p => opMoves p.1 p.2) ++
  (s.wideMsgs.map fun m => .event (.wideBarrierArrival m.ctx m.crew)) ++
  (s.wideDone.map fun m => .event (.wideBarrierCompletion m.1 m.2.1)) ++
  ((s.crews.filter fun p => p.2.wait == .armed).map fun p => .event (.wideBarrierArrival 0 p.1)) ++
  ((s.crews.filter fun p => p.2.pending.isSome).map fun p => .event (.trapEntry p.1)) ++
  ((s.crews.filter fun p => match p.2.wait with | .woken _ _ => true | _ => false).map fun p => .event (.monitorWake p.1)) ++
  ((s.monitors.filter fun m => m.polled && !m.relaunch).map fun m => .event (.waitcPoll m.crew)) ++
  ((s.monitors.filter fun m => !m.relaunch).map fun m => .event (.monitorThresholdHalt m.crew)) ++
  (s.fabric.items.map fun i => .event (.traceAccept i.die i.src)) ++
  (s.teams.flatMap fun p => match p.2.halt with
    | .halting _ => [.event (.haltComplete p.1)]
    | .halted _ => .event (.relaunchPoll p.1) :: (if p.2.relaunch.isSome then [.event (.resume p.1)] else [])
    | .running => []) ++
  (s.invals.map fun p => .event (.invalidationComplete p.1)) ++
  ((s.crews.filter fun p => decide (64 ≤ p.2.ready) && !s.promoted.contains p.1).map fun p => .event (.issueStarvationPromote p.1)) ++
  ((s.crews.foldr (fun p l => insertCrew s p l) []).map fun p => .crew p.1) ++
  (s.ctxs.flatMap fun x => [.event (.dispatchEntry x.1), .event (.placeTeam x.1), .event (.placeMirrorGroup x.1)]) ++
  (s.bulk.cmds.flatMap fun c => match c.2.running with
    | none => (List.range 3).map fun e => .event (.bulkStart c.2.die e c.2.func)
    | some _ => [.event (.bulkCopyDone c.1), .event (.bulkDecryptDone c.1), .event (.scanDone c.1)]) ++
  (s.slices.flatMap fun p => (p.2.slots.map fun q => .event (.queueSlotFetch p.1 q.1)) ++
    (match p.2.compact with | some c => (crewsOn s c.1).map fun k => .event (.compactorMove c.1 k) | none => []) ++
    ((p.2.leaving ++ p.2.taken.map SlicePart.wayGroup).map fun x => .event (.sliceReleaseProgress p.1 x))) ++
  (s.admissions.flatMap fun p => [.event (.adapterAdmission p.1), .event (.admissionRetry p.1)]) ++
  (s.forwards.flatMap fun p => [.event (.migrationLineCopy (p.1 / 1024) (p.1 % 1024)), .event (.migrationDone (p.1 / 1024) (p.1 % 1024))]) ++
  (s.cores.flatMap fun p => [.event (.carveWriteback p.1 (takenDirty s p.1).length), .event (.carveComplete p.1)])
/-- The cycles for which each crew has been ready for its slot without being chosen (R101); one that was chosen in this move, issued, was not
ready, or is stalled (R410) starts again. -/
def ageReady (cycles : Nat) (m : Option Move) (old new : State) : State :=
  { new with crews := new.crews.map fun p =>
      match old.crew? p.1 with
      | some c =>
        let waits := !(m == some (.crew p.1) && chosen old p.1 c) && c.issued == p.2.issued && p.2.stalled.isNone && crewReady old p.1
        (p.1, { p.2 with ready := if waits then p.2.ready + cycles else 0 })
      | none => p }
/-- The first move of a list that changes the state, and what it leads to. -/
def firstMove (s : State) : List Move → Option (Move × State)
  | [] => none
  | m :: t =>
    match runMove s m with
    | .next s' => if s' = s then firstMove s t else some (m, s')
    | _ => firstMove s t

end Sys2Proof.Machine
end

