-- ==== Sys2Proof/Machine/Step.lean ====
section
/-! DEFINITION. One step of the machine, and the placing of an instruction where the next step fetches it. -/
namespace Sys2Proof.Machine

/-- One step: time passes, and the schedule's first move is made. With an empty schedule the machine makes the first of its own
moves that changes the state, or waits. -/
def step (s : State) : Host.Outcome State Fault Refusal :=
  let n := 1 + Config.extraCycles s.clock
  let s := tick s
  match s.schedule with
  | m :: rest =>
    (match runMove { s with schedule := rest } m with
     | .next s' => .next (ageReady n (some m) s s')
     | r => r)
  | [] =>
    let r := firstMove s (defaultMoves s)
    .next (ageReady n (r.map (·.1)) s ((r.map (·.2)).getD s))

/-- Where `withFetchWord` places the instruction: the image of a launch record at this virtual and physical address. -/
def fetchBase : Nat := 0x10000
/-- A program of one instruction as the loader and the dispatcher leave it (log entry 9): a resident team of one crew of width 32
on slot 0 of core 0, in a slice that owns this core and every way-group and channel, all its handles held, the word at its program counter, and the schedule naming that crew. -/
def State.withFetchWord (s : State) (nbits w : Nat) : State :=
  let word : Word := BitVec.ofNat 32 (w % 2 ^ nbits)
  let s := putList false s fetchBase (bytesOfWord word)
  { s with
    slices := Tbl.put s.slices 0 { cores := [(0, 1#64 <<< 63)], mem := 0xFFFF00000000FF00, wide := (64, 128, 256, 256) }
    ctxs := Tbl.put s.ctxs 0 { func := 0, slice := 0 }
    entries := Tbl.put s.entries 0
      { ctx := 0, rec_ := { entry := fetchBase, image := fetchBase, ilen := 65536, dataoff := 65536, vregs := 16, scratch := 1, tiles := 64,
                            sems := 64, cbars := 128, wmod := 128 }, addr := 0, st := .active, next := 1 }
    teams := Tbl.put s.teams 0
      { entry := 0, ctx := 0, tidx := 0, core := 0, crews := [0], units := [0], width := 32, nvreg := 256, nsem := 64, ntile := 64,
        ncbar := 128, nwide := 128,
        shapes := (List.range 16).map fun h => (h, { base := 0xFFFF0000000000, perm := 0, esz := 2, rank := 1, size := [16],
                                                     stride := [], boxc := 0, boxr := 0 })
        extents := [{ range := 8, vlo := fetchBase, vhi := fetchBase + 65536, plo := fetchBase, r := true, x := true, present := true }] }
    crews := Tbl.put s.crews 0 { team := 0, pc := BitVec.ofNat 56 fetchBase }
    schedule := .crew 0 :: s.schedule
    nextId := max s.nextId 1 }

end Sys2Proof.Machine
end

