-- ==== Sys2Proof/Machine/Views.lean ====
section
/-! DEFINITION. What the parts of a BAR read as: the registers, the mailbox and the capability table (15 R420, R427, 16 R449 to R452, R464,
17 R474). No row of the opcode table reads them; statements say by them what a write leaves. -/
namespace Sys2Proof.Machine

/-- The functions of a list as a mask. -/
def funcMask (fs : List Nat) : Nat := fs.foldl (fun n f => if n / 2 ^ f % 2 = 1 then n else n + 2 ^ f) 0
/-- TYPE and value of a record as a function sees it (R427): the PF sees all, a VF its own slice's columns, and zeros for the others. -/
def capValue (s : State) (viewer : Nat) (r : CapRec) : Nat × List Byte :=
  let own := fun (i : Nat) => viewer == 0 || (s.func viewer).slice == i
  let mask := fun (i : Nat) (bs : List Byte) => if own i then bs else List.replicate bs.length 0
  match r with
  | .resource res total free owned =>
    (0x10, leBytes 2 res ++ leBytes 2 0 ++ leBytes 4 total ++ leBytes 4 free ++
      (List.range 16).flatMap fun i => leBytes 4 (if own i then owned.getD i 0 else 0))
  | .slice i funcs mem fab cores =>
    (0x20, mask i (leBytes 2 i ++ leBytes 2 0 ++ leBytes 16 (funcMask funcs) ++ leBytes 8 mem.toNat ++ leBytes 8 fab.toNat ++
      (List.range Config.dies).flatMap fun d =>
        let v : DWord := Tbl.getD cores d 0
        leBytes 2 ((v.extractLsb' 0 13).toNat + if v.getLsbD 63 then 0x8000 else 0)))
  | .func f slice depth rate wCopy wColl quantum slots =>
    (0x30, mask slice (leBytes 2 f ++ leBytes 2 slice ++ leBytes 4 depth ++ leBytes 4 rate ++ leBytes 1 wCopy ++ leBytes 1 wColl ++
      leBytes 4 quantum ++ leBytes 2 slots))
  | .budgets bs => (0x40, bs.flatMap fun b => leBytes 8 b.1.toNat ++ leBytes 8 b.2.toNat)
/-- TYPE, LEN and value of a record (R427). -/
def capRecBytes (r : Nat × List Byte) : List Byte := leBytes 2 r.1 ++ leBytes 2 r.2.length ++ r.2
/-- The capability table as a function reads it (R427): header, records, and the end record. -/
def capBytes (s : State) (viewer : Nat) : List Byte :=
  let body := (s.svc.cap.flatMap fun r => capRecBytes (capValue s viewer r)) ++ capRecBytes (0, [])
  leBytes 2 1 ++ leBytes 2 s.svc.cap.length ++ leBytes 4 (16 + body.length) ++ leBytes 8 s.svc.capGen ++ body

/-- A register of the trace page (R402). -/
def readTrace (s : State) (func o : Nat) : DWord :=
  let t := (s.func func).trace
  match o with
  | 0x00 => t.cfg
  | 0x08 => t.buf
  | 0x10 => t.wp
  | 0x18 => t.rp
  | 0x20 => t.filt
  | 0x28 => t.dies
  | 0x30 => t.stat
  | 0x38 => t.stall
  | 0x40 => t.drop
  | _ => 0
/-- A register of the expert window at an offset from its base (R450): one of a group that is not enabled, and one that can only be written,
reads as zero. -/
def readExpert (s : State) (x : Nat) : DWord :=
  let i := x % 0x80 / 8
  let group := fun (g : Nat) (v : DWord) => if groupOn s g then v else 0
  let flink := fun (half : Nat) => BitVec.ofNat 64 (funcMask ((s.sec.flink.filter fun f => f / 64 == half).map (· % 64)))
  if x < 0x2000 then group 0 (Tbl.getD (match (s.slice i).target with | some (cs, _) => cs | none => (s.slice i).cores) (x / 0x80) 0)
  else if x < 0x2080 then group 0 (match (s.slice i).target with | some (_, m) => m | none => (s.slice i).mem)
  else if x < 0x2100 then group 0 (s.slice i).fab
  else if x < 0x2180 then group 0 (s.slice i).stat
  else if 0x4000 ≤ x ∧ x < 0x4400 then
    let b := budgetOf s ((x - 0x4000) / 16)
    group 1 (if x % 16 = 0 then b.1 else b.2)
  else if x = 0x5008 then group 2 s.sec.keystat
  else if x = 0x5010 ∨ x = 0x5018 then group 3 (flink ((x - 0x5010) / 8))
  else if x = 0x5020 then group 4 s.time.timestat
  else if x = 0x5028 then group 4 s.time.tbepoch
  else if x = 0x5030 then group 4 s.time.ppscap
  else if x = 0x5040 then group 5 s.sec.tblsel
  else if x = 0x5048 then group 5 s.sec.tbldat0
  else if x = 0x5050 then group 5 s.sec.tbldat1
  else if 0x6000 ≤ x ∧ x < 0xA000 then group 6 (s.core ((x - 0x6000) / 8)).sramcfg
  else if 0xA000 ≤ x ∧ x < 0xE000 then group 6 (s.core ((x - 0xA000) / 8)).carvestat
  else 0
/-- The eight bytes at an aligned offset of BAR0 (R449, R452). The notify page can only be written, and offsets that name no register read as
zero, as does all of it for a TDI in ERROR (R464) and all but the mailbox in recovery (R474). -/
def readWord (s : State) (func off : Nat) : DWord :=
  let f := s.func func
  let mail := decide (0x9000 ≤ off ∧ off < 0xA000)
  if f.tdi = .error ∨ (s.svc.recovery = true ∧ mail = false) then 0
  else if mail then BitVec.ofNat 64 (leVal ((List.range 8).map fun i => Sparse.get (w := 8) f.mailbox (off - 0x9000 + i)))
  else if off < 0x8000 then 0
  else if off < 0x9000 then readTrace s func (off - 0x8000)
  else if off < 0xA000 then 0
  else if off < 0xE000 then BitVec.ofNat 64 (leVal (((capBytes s func).drop (off - 0xA000)).take 8))
  else if off < 0xE080 then f.msixWord ((off - 0xE000) / 8)
  else if off = 0xE800 then BitVec.ofNat 64 (funcMask f.msixPend)
  else if 0x100000 ≤ off then readExpert s (off - 0x100000)
  else 0
/-- What a request of a function in host space carries (R448, R455, R463): one that a context causes its PASID, one of a TDI in RUN the T bit and
the stream it is bound to. -/
def hostHeader (s : State) (func : Nat) (ctx : Option Nat) (translated : Bool) : LinkHeader :=
  let f := s.func func
  { link := linkOf s func, requester := func, pasid := (ctx.bind (Tbl.get? s.ctxs)).map (·.pasid), translated := translated,
    stream := if f.tdi = .run then f.stream else none }
/-- The request that an outstanding access of a team makes in host space; its address is translated. -/
def accHeader (s : State) (team : Nat) (a : Acc) : Option LinkHeader :=
  if inHost a.pa && a.st == .todo then some (hostHeader s (funcOfTeam s team) ((s.team? team).map (·.ctx)) true) else none
/-- The PRI Page Request Message of a page request that has gone out (R458): its header, PRG index, and read and write need. -/
def pageMessage (s : State) (ctx : Nat) (p : PageReq) : Option (LinkHeader × Nat × Bool × Bool) :=
  p.prg.map fun i => ({ hostHeader s (funcOfCtx s ctx) none false with pasid := some p.pasid }, i, p.read, p.write)
/-- The ATS Translation Requests of a context that wait for their completions (R456). -/
def atsMessages (s : State) (ctx : Nat) : List (LinkHeader × Nat) :=
  match Tbl.get? s.ctxs ctx with
  | some x => (x.ats.filter fun p => p.2.isNone).map fun p => (hostHeader s x.func (some ctx) false, p.1)
  | none => []
/-- The station that a pod window access of a function leaves and returns through (R473). -/
def accStation (s : State) (func : Nat) (a : Acc) : Option Nat :=
  match podIssuer s func a.pa with
  | .ok (m, _, _) => if m = s.svc.modid.toNat then none else stationFor s func m (a.pa / 128 % 512)
  | .error _ => none
/-- A read of n bytes of BAR0 (R448, R452, R463); none completes as Unsupported Request. -/
def readBar (s : State) (link func off n : Nat) (stream : Option Nat) : Option (List Byte) :=
  if barReached s link func off stream then
    some ((List.range n).map fun i => ((readWord s func ((off + i) / 8 * 8)).extractLsb' (8 * ((off + i) % 8)) 8))
  else none

end Sys2Proof.Machine
end

