-- ==== Sys2Proof/Machine/Needs.lean ====
section
/-! DEFINITION. What the checks at issue need of each instruction, as one table (02 R62, R63): Sys2Proof/Laws/Issue.lean shows that every
meaning issues with it. -/
namespace Sys2Proof.Machine

/-- The needs of an instruction that a crew of a team is to issue. A step without a word has none. -/
def needOf (s : State) (i : Instr) (c : Crew) (t : Team) : Need :=
  match i with
  | .nop => plain (.nop) c t
  | .br i => plain (.br i) c t
  | .brz d i => plain (.brz d i) c t
  | .brnz d i => plain (.brnz d i) c t
  | .call i => plain (.call i) c t
  | .ret => plain (.ret) c t
  | .jr a => plain (.jr a) c t
  | .blkz d n => plain (.blkz d n) c t
  | .mode q i => { word := wordOf (.mode q i), ok := modeOk q i }
  | .moder d a => { word := wordOf (.moder d a), ok := a == 0 || (c.getS a).extractLsb' 31 33 == 0 }
  | .wait l h k r => plain (.wait l h k r) c t
  | .waitr a k => plain (.waitr a k) c t
  | .endCrew => { word := wordOf (.endCrew), stops := true, closes := true }
  | .sread d i => { word := wordOf (.sread d i), ok := specialListed i.toNat }
  | .sli d i => plain (.sli d i) c t
  | .slis d i => plain (.slis d i) c t
  | .sadd d a b => plain (.sadd d a b) c t
  | .saddi d a i => plain (.saddi d a i) c t
  | .ssub d a b => plain (.ssub d a b) c t
  | .smul d a b => plain (.smul d a b) c t
  | .sdivs d a b => plain (.sdivs d a b) c t
  | .sdivn d a b => plain (.sdivn d a b) c t
  | .sand d a b => plain (.sand d a b) c t
  | .sor d a b => plain (.sor d a b) c t
  | .sxor d a b => plain (.sxor d a b) c t
  | .sshl d a b => plain (.sshl d a b) c t
  | .sshr d a b => plain (.sshr d a b) c t
  | .ssra d a b => plain (.ssra d a b) c t
  | .sslt d a b => plain (.sslt d a b) c t
  | .scnt d a => plain (.scnt d a) c t
  | .sclz d a => plain (.sclz d a) c t
  | .vadd d a b =>
      { word := wordOf (.vadd d a b), ok := (Instr.vadd d a b).wf && arithOk c.mode && (!floats c.mode || rndOk c.mode),
        reads := [a.toNat, b.toNat], writes := [d.toNat] }
  | .vsub d a b =>
      { word := wordOf (.vsub d a b), ok := (Instr.vsub d a b).wf && arithOk c.mode && (!floats c.mode || rndOk c.mode),
        reads := [a.toNat, b.toNat], writes := [d.toNat] }
  | .vmul d a b =>
      { word := wordOf (.vmul d a b), ok := (Instr.vmul d a b).wf && arithOk c.mode && (!floats c.mode || rndOk c.mode),
        reads := [a.toNat, b.toNat], writes := [d.toNat] }
  | .vfma d a b =>
      { word := wordOf (.vfma d a b), ok := (Instr.vfma d a b).wf && arithOk c.mode && (!floats c.mode || rndOk c.mode),
        reads := [d.toNat, a.toNat, b.toNat], writes := [d.toNat] }
  | .vmin d a b =>
      { word := wordOf (.vmin d a b), ok := (Instr.vmin d a b).wf && arithOk c.mode && (!false || rndOk c.mode), reads := [a.toNat,
        b.toNat], writes := [d.toNat] }
  | .vmax d a b =>
      { word := wordOf (.vmax d a b), ok := (Instr.vmax d a b).wf && arithOk c.mode && (!false || rndOk c.mode), reads := [a.toNat,
        b.toNat], writes := [d.toNat] }
  | .vand d a b =>
      { word := wordOf (.vand d a b), ok := (Instr.vand d a b).wf && decide (tyOf c.mode ≤ 13) && ([a,
        b] : List VReg).all (unitOk c.mode) && unitOk c.mode d, reads := ([a, b] : List VReg).flatMap (unitRegs c.mode),
        writes := unitRegs c.mode d }
  | .vor d a b =>
      { word := wordOf (.vor d a b), ok := (Instr.vor d a b).wf && decide (tyOf c.mode ≤ 13) && ([a,
        b] : List VReg).all (unitOk c.mode) && unitOk c.mode d, reads := ([a, b] : List VReg).flatMap (unitRegs c.mode),
        writes := unitRegs c.mode d }
  | .vxor d a b =>
      { word := wordOf (.vxor d a b), ok := (Instr.vxor d a b).wf && decide (tyOf c.mode ≤ 13) && ([a,
        b] : List VReg).all (unitOk c.mode) && unitOk c.mode d, reads := ([a, b] : List VReg).flatMap (unitRegs c.mode),
        writes := unitRegs c.mode d }
  | .vshl d a b =>
      { word := wordOf (.vshl d a b), ok := (Instr.vshl d a b).wf && shiftOk c.mode && (!false || rndOk c.mode), reads := [a.toNat,
        b.toNat], writes := [d.toNat] }
  | .vshr d a b =>
      { word := wordOf (.vshr d a b), ok := (Instr.vshr d a b).wf && shiftOk c.mode && (!false || rndOk c.mode), reads := [a.toNat,
        b.toNat], writes := [d.toNat] }
  | .vceq d a b =>
      { word := wordOf (.vceq d a b), ok := (Instr.vceq d a b).wf && tyIn (tyOf c.mode) (12 :: arithTypes), reads := [a.toNat, b.toNat] }
  | .vclt d a b => { word := wordOf (.vclt d a b), ok := (Instr.vclt d a b).wf && arithOk c.mode, reads := [a.toNat, b.toNat] }
  | .vcle d a b => { word := wordOf (.vcle d a b), ok := (Instr.vcle d a b).wf && arithOk c.mode, reads := [a.toNat, b.toNat] }
  | .vmov d a =>
      { word := wordOf (.vmov d a),
        ok := (Instr.vmov d a).wf && decide (tyOf c.mode ≤ 13) && ([a] : List VReg).all (unitOk c.mode) && unitOk c.mode d,
        reads := ([a] : List VReg).flatMap (unitRegs c.mode), writes := unitRegs c.mode d }
  | .vbcs d a =>
      { word := wordOf (.vbcs d a),
        ok := (Instr.vbcs d a).wf && decide (tyOf c.mode ≤ 13) && ([] : List VReg).all (unitOk c.mode) && unitOk c.mode d,
        reads := ([] : List VReg).flatMap (unitRegs c.mode), writes := unitRegs c.mode d }
  | .vext d a b => { word := wordOf (.vext d a b), ok := decide (tyOf c.mode ≤ 13) && unitOk c.mode a, reads := unitRegs c.mode a }
  | .vlid d => { word := wordOf (.vlid d), ok := (Instr.vlid d).wf && true && (!false || rndOk c.mode), reads := [], writes := [d.toNat] }
  | .vcvt d a =>
      { word := wordOf (.vcvt d a),
        ok := (Instr.vcvt d a).wf && (decide (tyOf c.mode ≤ 11) && decide (styOf c.mode ≤ 11)) && (!eitherFloats c.mode || rndOk c.mode),
        reads := [a.toNat], writes := [d.toNat] }
  | .vrcp d a =>
      { word := wordOf (.vrcp d a), ok := (Instr.vrcp d a).wf && specialOk c.mode && (!true || rndOk c.mode), reads := [a.toNat],
        writes := [d.toNat] }
  | .vrsq d a =>
      { word := wordOf (.vrsq d a), ok := (Instr.vrsq d a).wf && specialOk c.mode && (!true || rndOk c.mode), reads := [a.toNat],
        writes := [d.toNat] }
  | .vexp2 d a =>
      { word := wordOf (.vexp2 d a), ok := (Instr.vexp2 d a).wf && specialOk c.mode && (!true || rndOk c.mode), reads := [a.toNat],
        writes := [d.toNat] }
  | .vlog2 d a =>
      { word := wordOf (.vlog2 d a), ok := (Instr.vlog2 d a).wf && specialOk c.mode && (!true || rndOk c.mode), reads := [a.toNat],
        writes := [d.toNat] }
  | .vred d a => { word := wordOf (.vred d a), ok := redOk c.mode && (!redRounds c.mode || rndOk c.mode), reads := [a.toNat] }
  | .vcmpr d a b =>
      { word := wordOf (.vcmpr d a b),
        ok := (Instr.vcmpr d a b).wf && decide (tyOf c.mode ≤ 13) && ([a] : List VReg).all (unitOk c.mode) && unitOk c.mode d,
        reads := ([a] : List VReg).flatMap (unitRegs c.mode), writes := unitRegs c.mode d }
  | .vexpd d a b =>
      { word := wordOf (.vexpd d a b),
        ok := (Instr.vexpd d a b).wf && decide (tyOf c.mode ≤ 13) && ([a] : List VReg).all (unitOk c.mode) && unitOk c.mode d,
        reads := ([a] : List VReg).flatMap (unitRegs c.mode), writes := unitRegs c.mode d }
  | .vslup d a b =>
      { word := wordOf (.vslup d a b),
        ok := (Instr.vslup d a b).wf && decide (tyOf c.mode ≤ 13) && ([a] : List VReg).all (unitOk c.mode) && unitOk c.mode d,
        reads := ([a] : List VReg).flatMap (unitRegs c.mode), writes := unitRegs c.mode d }
  | .vsldn d a b =>
      { word := wordOf (.vsldn d a b),
        ok := (Instr.vsldn d a b).wf && decide (tyOf c.mode ≤ 13) && ([a] : List VReg).all (unitOk c.mode) && unitOk c.mode d,
        reads := ([a] : List VReg).flatMap (unitRegs c.mode), writes := unitRegs c.mode d }
  | .vperm d a b => { word := wordOf (.vperm d a b), reads := [a.toNat, b.toNat], writes := [d.toNat] }
  | .vpk2 d a b =>
      { word := wordOf (.vpk2 d a b), ok := (Instr.vpk2 d a b).wf && packOk [1, 2, 8, 9] c.mode && (!packRounds c.mode || rndOk c.mode),
        reads := [a.toNat, b.toNat], writes := [d.toNat] }
  | .vpk4 d a b =>
      { word := wordOf (.vpk4 d a b), ok := (Instr.vpk4 d a b).wf && packOk [3, 4, 5, 10,
        11] c.mode && (!packRounds c.mode || rndOk c.mode), reads := [a.toNat, a.toNat + 1, b.toNat, b.toNat + 1], writes := [d.toNat] }
  | .vupk d a e =>
      { word := wordOf (.vupk d a e),
        ok := (Instr.vupk d a e).wf && (tyIn (tyOf c.mode) upkTypes && decide (e.toNat * tyBits (tyOf c.mode) < 32)) && (!false || rndOk c.mode), reads := [a.toNat], writes := [d.toNat] }
  | .ld d a b =>
      { word := wordOf (.ld d a b), ok := memTypeOk c.mode && unitOk c.mode d && awOk c.mode b && ordOk c.mode [0, 1],
        reads := addrRegs c.mode b, writes := unitRegs c.mode d, cls := some .load, lines := vaLines ((laneAddrs c t a b).map (·.2)) }
  | .st d a b =>
      let closes := mOrd c.mode == 2 || (laneAddrs c t a b).any fun p => inMirror p.2
      { word := wordOf (.st d a b), ok := memTypeOk c.mode && unitOk c.mode d && awOk c.mode b && ordOk c.mode [0, 2],
        reads := unitRegs c.mode d ++ addrRegs c.mode b, cls := some .store, stops := mOrd c.mode == 2,
        closes := closes && !(c.actives t.width).isEmpty,
        lines := if closes || (c.region.isNone && c.spec.isNone) then vaLines ((laneAddrs c t a b).map (·.2)) else 0 }
  | .ldt d h b =>
      { word := wordOf (.ldt d h b), ok := ordOk c.mode [0, 1], writes := boxRegs t d h.toNat, handles := [shapeField c t h.toNat],
        cls := some .load, waits := shapePending s c.team h.toNat, lines := vaLines (boxVas c t h.toNat b) }
  | .stt d h b =>
      let vs := boxVas c t h.toNat b
      let closes := (mOrd c.mode == 2 && !(c.actives t.width).isEmpty) || vs.any inMirror
      { word := wordOf (.stt d h b), ok := ordOk c.mode [0, 2], reads := boxRegs t d h.toNat, handles := [shapeField c t h.toNat],
        cls := some .store, waits := shapePending s c.team h.toNat, stops := mOrd c.mode == 2, closes := closes,
        lines := if closes || (c.region.isNone && c.spec.isNone) then vaLines vs else 0 }
  | .shape d a => { word := wordOf (.shape d a), cls := some .load, stops := true, lines := vaLines [(c.getS a).toNat] }
  | .fence h o => { word := wordOf (.fence h o), ok := (Instr.fence h o).wf, stops := o.getLsbD 1, closes := o.getLsbD 1 }
  | .pref l a b => { word := wordOf (.pref l a b), ok := awOk c.mode b, reads := addrRegs c.mode b }
  | .flush a b => { word := wordOf (.flush a b), cls := some .store, stops := true }
  | .cpy4 d a b =>
      { word := wordOf (.cpy4 d a b), ok := (Instr.cpy4 d a b).wf, reads := [a.toNat, a.toNat + 1, b.toNat, b.toNat + 1],
        handles := [semField t d], cls := some .copy, stops := true, closes := (pairAddrs c t a).any fun p => placeOf p.2 == .global,
        lines := min 256 (vaLines ((pairAddrs c t a).map (·.2))) }
  | .cpy8 d a b =>
      { word := wordOf (.cpy8 d a b), ok := (Instr.cpy8 d a b).wf, reads := [a.toNat, a.toNat + 1, b.toNat, b.toNat + 1],
        handles := [semField t d], cls := some .copy, stops := true, closes := (pairAddrs c t a).any fun p => placeOf p.2 == .global,
        lines := min 256 (vaLines ((pairAddrs c t a).map (·.2))) }
  | .cpy16 d a b =>
      { word := wordOf (.cpy16 d a b), ok := (Instr.cpy16 d a b).wf, reads := [a.toNat, a.toNat + 1, b.toNat, b.toNat + 1],
        handles := [semField t d], cls := some .copy, stops := true, closes := (pairAddrs c t a).any fun p => placeOf p.2 == .global,
        lines := min 256 (vaLines ((pairAddrs c t a).map (·.2))) }
  | .cpyt d h b =>
      { word := wordOf (.cpyt d h b), handles := [semField t d, shapeField c t h.toNat], cls := some .copy, stops := true,
        closes := true, waits := shapePending s c.team h.toNat, lines := min 256 (vaLines (boxVas c t h.toNat b)) }
  | .binw d a b =>
      { word := wordOf (.binw d a b), reads := [d.toNat, a.toNat], writes := [d.toNat], cls := some .copy, stops := true, closes := true }
  | .bulk d a => { word := wordOf (.bulk d a), stops := true, closes := true }
  | .semset d a => { word := wordOf (.semset d a), handles := [semField t d], stops := true, closes := true }
  | .semacq d a => { word := wordOf (.semacq d a), handles := [semField t d], stops := true }
  | .semtry d a => { word := wordOf (.semtry d a), handles := [semField t a], stops := true }
  | .semrd d a => { word := wordOf (.semrd d a), handles := [semField t a] }
  | .gang a => { word := wordOf (.gang a), ok := (c.getS a).extractLsb' 35 29 == 0 && (c.getS a).extractLsb' 30 2 == 0 }
  | .mmag d a b =>
      { word := wordOf (.mmag d a b), ok := mmOk c.mode, handles := [tileField t d], cls := some .tile, stops := true, closes := true,
        reads := b.toNat :: ((List.range (sliceRegs (tyOf c.mode == 5) t.width)).map fun i => b.toNat + i).filter fun r => decide (r < t.nvreg) }
  | .mmas d a b => matrixNeed s (.mmas d a b) (mmOk c.mode) d c t
  | .tilez d => matrixNeed s (.tilez d) true d c t
  | .tld d a => matrixNeed s (.tld d a) true d c t
  | .tdrn d a => matrixNeed s (.tdrn d a) (drainOk c.mode) d c t
  | .tdrm d a b => { matrixNeed s (.tdrm d a b) (drainOk c.mode) d c t with
      lines := vaLines ((List.range (mRows c.mode)).map fun i => (c.getS a).toNat + i * (c.getS b).toNat) }
  | .tdrp d a => matrixNeed s (.tdrp d a) (mShape c.mode != 3) d c t
  | .aadd d a b =>
      { word := wordOf (.aadd d a b), cls := some .load, stops := !(c.actives t.width).isEmpty, closes := !(c.actives t.width).isEmpty,
        lines := vaLines ((laneAddrs c t a b).map (·.2)),
        ok := (Instr.aadd d a b).wf && tyIn (tyOf c.mode) (atomicTypes .add) && atomicFieldOk .add c.mode d && awOk c.mode b && ordOk c.mode [0, 1, 2, 3], reads := atomicRegs .add c.mode d ++ addrRegs c.mode b, writes := unitRegs c.mode d }
  | .amin d a b =>
      { word := wordOf (.amin d a b), cls := some .load, stops := !(c.actives t.width).isEmpty, closes := !(c.actives t.width).isEmpty,
        lines := vaLines ((laneAddrs c t a b).map (·.2)),
        ok := (Instr.amin d a b).wf && tyIn (tyOf c.mode) (atomicTypes .min) && atomicFieldOk .min c.mode d && awOk c.mode b && ordOk c.mode [0, 1, 2, 3], reads := atomicRegs .min c.mode d ++ addrRegs c.mode b, writes := unitRegs c.mode d }
  | .amax d a b =>
      { word := wordOf (.amax d a b), cls := some .load, stops := !(c.actives t.width).isEmpty, closes := !(c.actives t.width).isEmpty,
        lines := vaLines ((laneAddrs c t a b).map (·.2)),
        ok := (Instr.amax d a b).wf && tyIn (tyOf c.mode) (atomicTypes .max) && atomicFieldOk .max c.mode d && awOk c.mode b && ordOk c.mode [0, 1, 2, 3], reads := atomicRegs .max c.mode d ++ addrRegs c.mode b, writes := unitRegs c.mode d }
  | .aand d a b =>
      { word := wordOf (.aand d a b), cls := some .load, stops := !(c.actives t.width).isEmpty, closes := !(c.actives t.width).isEmpty,
        lines := vaLines ((laneAddrs c t a b).map (·.2)),
        ok := (Instr.aand d a b).wf && tyIn (tyOf c.mode) (atomicTypes .and) && atomicFieldOk .and c.mode d && awOk c.mode b && ordOk c.mode [0, 1, 2, 3], reads := atomicRegs .and c.mode d ++ addrRegs c.mode b, writes := unitRegs c.mode d }
  | .aor d a b =>
      { word := wordOf (.aor d a b), cls := some .load, stops := !(c.actives t.width).isEmpty, closes := !(c.actives t.width).isEmpty,
        lines := vaLines ((laneAddrs c t a b).map (·.2)),
        ok := (Instr.aor d a b).wf && tyIn (tyOf c.mode) (atomicTypes .or) && atomicFieldOk .or c.mode d && awOk c.mode b && ordOk c.mode [0, 1, 2, 3], reads := atomicRegs .or c.mode d ++ addrRegs c.mode b, writes := unitRegs c.mode d }
  | .axor d a b =>
      { word := wordOf (.axor d a b), cls := some .load, stops := !(c.actives t.width).isEmpty, closes := !(c.actives t.width).isEmpty,
        lines := vaLines ((laneAddrs c t a b).map (·.2)),
        ok := (Instr.axor d a b).wf && tyIn (tyOf c.mode) (atomicTypes .xor) && atomicFieldOk .xor c.mode d && awOk c.mode b && ordOk c.mode [0, 1, 2, 3], reads := atomicRegs .xor c.mode d ++ addrRegs c.mode b, writes := unitRegs c.mode d }
  | .axch d a b =>
      { word := wordOf (.axch d a b), cls := some .load, stops := !(c.actives t.width).isEmpty, closes := !(c.actives t.width).isEmpty,
        lines := vaLines ((laneAddrs c t a b).map (·.2)),
        ok := (Instr.axch d a b).wf && tyIn (tyOf c.mode) (atomicTypes .xch) && atomicFieldOk .xch c.mode d && awOk c.mode b && ordOk c.mode [0, 1, 2, 3], reads := atomicRegs .xch c.mode d ++ addrRegs c.mode b, writes := unitRegs c.mode d }
  | .acas d a b =>
      { word := wordOf (.acas d a b), cls := some .load, stops := !(c.actives t.width).isEmpty, closes := !(c.actives t.width).isEmpty,
        lines := vaLines ((laneAddrs c t a b).map (·.2)),
        ok := (Instr.acas d a b).wf && tyIn (tyOf c.mode) (atomicTypes .cas) && atomicFieldOk .cas c.mode d && awOk c.mode b && ordOk c.mode [0, 1, 2, 3], reads := atomicRegs .cas c.mode d ++ addrRegs c.mode b, writes := unitRegs c.mode d }
  | .waitc c' a b =>
      { word := wordOf (.waitc c' a b), ok := (Instr.waitc c' a b).wf && tyIn (tyOf c.mode) [6, 7, 12, 13] && ordOk c.mode [0, 1],
        stops := true, closes := true }
  | .bari d a => { word := wordOf (.bari d a), handles := [barField t d], stops := true, closes := true }
  | .bar d =>
      { word := wordOf (.bar d), stops := true, closes := true, handles := [(d.toNat,
        (barField t d).2 && (ArriveOp.bar != .bars || decide (d.toNat < 128)))] }
  | .bars d =>
      { word := wordOf (.bars d), stops := true, closes := true, handles := [(d.toNat,
        (barField t d).2 && (ArriveOp.bars != .bars || decide (d.toNat < 128)))] }
  | .bara d =>
      { word := wordOf (.bara d), stops := true, closes := true, handles := [(d.toNat,
        (barField t d).2 && (ArriveOp.bara != .bars || decide (d.toNat < 128)))] }
  | .bard d =>
      { word := wordOf (.bard d), stops := true, closes := true, handles := [(d.toNat,
        (barField t d).2 && (ArriveOp.bard != .bars || decide (d.toNat < 128)))] }
  | .launch d a => { word := wordOf (.launch d a), stops := true, closes := true }
  | .tspawn d a => { word := wordOf (.tspawn d a), stops := true, closes := true }
  | .tdep a b => { word := wordOf (.tdep a b), cls := some .load, stops := true, closes := true, lines := vaLines [(c.getS a).toNat] }
  | .regionClose => { word := wordOf (.regionClose), stops := true, closes := true }
  | .regionOpen => { word := wordOf (.regionOpen), stops := true, closes := true }
  | .mark d a => { word := wordOf (.mark d a), stops := true }
  | .trctlGate a => { word := wordOf (.trctlGate a), stops := true }
  | .trctlMask a => { word := wordOf (.trctlMask a), stops := true }
  | .trctlDrain a => { word := wordOf (.trctlDrain a), stops := true }
  | .trctlAnchor a => { word := wordOf (.trctlAnchor a), stops := true }
  | .trap i => { word := wordOf (.trap i), stops := true }
  | .swrite i a => { word := wordOf (.swrite i a), ok := i == 0x09 || (i == 0x11 && c.handler), stops := true, closes := true }
  | .tret => { word := wordOf (.tret), stops := true, closes := true }
  | .issueStarvationPromote _ => { word := 0 }
  | .instructionFetchFault _ _ _ => { word := 0 }
  | .loadDataReturn _ => { word := 0 }
  | .storePerformed _ _ => { word := 0 }
  | .invalidationReceive _ _ => { word := 0 }
  | .invalidationApplyTimeout _ => { word := 0 }
  | .atomicStep _ _ => { word := 0 }
  | .atomicResultReturn _ => { word := 0 }
  | .shapeComplete _ => { word := 0 }
  | .tdepStep _ => { word := 0 }
  | .flushComplete _ => { word := 0 }
  | .copyComplete _ => { word := 0 }
  | .binClaim _ => { word := 0 }
  | .binwComplete _ => { word := 0 }
  | .mirrorDelivery _ _ _ => { word := 0 }
  | .bulkStart _ _ _ => { word := 0 }
  | .bulkCopyDone _ => { word := 0 }
  | .bulkDecryptDone _ => { word := 0 }
  | .collectiveMatch _ _ _ _ => { word := 0 }
  | .collectiveDone _ _ _ _ => { word := 0 }
  | .scanDone _ => { word := 0 }
  | .tileStepComplete _ => { word := 0 }
  | .drainComplete _ => { word := 0 }
  | .drainAddReceive _ => { word := 0 }
  | .drainAddAck _ => { word := 0 }
  | .monitorWake _ => { word := 0 }
  | .waitcPoll _ => { word := 0 }
  | .monitorThresholdHalt _ => { word := 0 }
  | .relaunchPoll _ => { word := 0 }
  | .wideBarrierArrival _ _ => { word := 0 }
  | .wideBarrierCompletion _ _ => { word := 0 }
  | .regionReleaseComplete _ => { word := 0 }
  | .dispatchEntry _ => { word := 0 }
  | .placeTeam _ => { word := 0 }
  | .placeMirrorGroup _ => { word := 0 }
  | .compactorMove _ _ => { word := 0 }
  | .heatSweep _ => { word := 0 }
  | .pageRequestReply _ _ _ => { word := 0 }
  | .prgResponse _ _ _ => { word := 0 }
  | .pageRequestTimeout _ _ => { word := 0 }
  | .prgIndexReuseTimeout _ _ => { word := 0 }
  | .atsTranslationCompletion _ _ _ => { word := 0 }
  | .atsTranslationTimeout _ _ => { word := 0 }
  | .atsInvalidateRequest _ _ _ _ => { word := 0 }
  | .unmapInvalidation _ _ _ => { word := 0 }
  | .invalidationComplete _ => { word := 0 }
  | .haltRequest _ => { word := 0 }
  | .haltComplete _ => { word := 0 }
  | .resume _ => { word := 0 }
  | .quantumExpiry _ => { word := 0 }
  | .contextTeardown _ => { word := 0 }
  | .trapEntry _ => { word := 0 }
  | .uncorrectableStateError _ _ => { word := 0 }
  | .scrubSector _ => { word := 0 }
  | .activityBudgetPeriod _ => { word := 0 }
  | .carveWriteback _ _ => { word := 0 }
  | .carveComplete _ => { word := 0 }
  | .sramcfgWrite _ _ => { word := 0 }
  | .traceReservationRefill _ => { word := 0 }
  | .traceAccept _ _ => { word := 0 }
  | .epoch _ => { word := 0 }
  | .trcfgWrite _ _ => { word := 0 }
  | .trbufWrite _ _ _ => { word := 0 }
  | .trrpWrite _ _ => { word := 0 }
  | .ppsEdge _ => { word := 0 }
  | .ptmExchange _ => { word := 0 }
  | .ptmFailureTimeout => { word := 0 }
  | .timeForwardStep _ => { word := 0 }
  | .tbepochWrite _ => { word := 0 }
  | .sliceCreate _ _ _ => { word := 0 }
  | .sliceGrow _ _ _ => { word := 0 }
  | .sliceShrink _ _ _ => { word := 0 }
  | .sliceMerge _ _ => { word := 0 }
  | .sliceSplit _ _ _ _ _ => { word := 0 }
  | .sliceReleaseProgress _ _ => { word := 0 }
  | .sliceReset _ => { word := 0 }
  | .queueNotify _ _ _ => { word := 0 }
  | .queueMap _ _ _ => { word := 0 }
  | .queueSlotFetch _ _ => { word := 0 }
  | .npQueueReclaim _ _ => { word := 0 }
  | .adapterAdmission _ => { word := 0 }
  | .admissionRetry _ => { word := 0 }
  | .migrationCommand _ _ _ _ _ _ => { word := 0 }
  | .migrationLineCopy _ _ => { word := 0 }
  | .migrationDone _ _ => { word := 0 }
  | .forwardingEntryRetire _ _ => { word := 0 }
  | .podRequestReceive _ => { word := 0 }
  | .podResponseTimeout _ _ => { word := 0 }
  | .podResponse _ _ _ => { word := 0 }
  | .hostAtomicop _ _ _ _ _ => { word := 0 }
  | .hostMemoryWrite _ _ => { word := 0 }
  | .hostMemoryRead _ _ => { word := 0 }
  | .mailboxDoorbell _ _ _ => { word := 0 }
  | .registerWrite _ _ _ _ _ _ => { word := 0 }
  | .tblgoPeer => { word := 0 }
  | .tblgoWindow => { word := 0 }
  | .tblgoRouting => { word := 0 }
  | .keyAssign _ _ => { word := 0 }
  | .keyRetire _ => { word := 0 }
  | .functionLevelReset _ => { word := 0 }
  | .ideKmKeyProgram _ _ => { word := 0 }
  | .ideIntegrityFailure _ _ => { word := 0 }
  | .lockInterfaceRequest _ _ => { word := 0 }
  | .stopInterfaceRequest _ => { word := 0 }
  | .deviceInterfaceReport _ => { word := 0 }
  | .getVersion => { word := 0 }
  | .getCapabilities => { word := 0 }
  | .negotiateAlgorithms _ _ _ => { word := 0 }
  | .getDigests => { word := 0 }
  | .getCertificate _ => { word := 0 }
  | .challenge _ _ => { word := 0 }
  | .getMeasurements _ _ _ => { word := 0 }
  | .keyExchange _ _ => { word := 0 }
  | .finish => { word := 0 }
  | .endSession => { word := 0 }
  | .keyLoad _ _ _ => { word := 0 }
  | .powerOnSequence _ _ _ => { word := 0 }
  | .governorEvaluate _ _ => { word := 0 }
  | .governorFastStep _ => { word := 0 }
  | .firmwareUpdate _ _ _ => { word := 0 }
  | .d2dLaneRetire _ _ => { word := 0 }
  | .ualinkLaneRetire _ => { word := 0 }
  | .hbmChannelRetire _ => { word := 0 }
  | .dieFence _ => { word := 0 }
  | .illegalInstructionWord w => { word := w, ok := false }
  | .ppsLossTimeout => { word := 0 }
  | .priReset _ => { word := 0 }
  | .startInterfaceRequest _ => { word := 0 }
  | .ualinkStationDown _ => { word := 0 }
  | .ualinkStationUp _ => { word := 0 }

/-- The crew of the current move passes every wait and every check of R63, R100, R101, R107, R324 and R410 for an instruction with these
needs: the state and the crew on which the instruction acts, and its team. The state is the given one but for a STALLEND record, and the
crew but for its shadow registers. -/
def mayIssue (s : State) (need : Crew → Team → Need) : Option (State × Crew × Team) :=
  match s.crew? s.cur with
  | none => none
  | some c =>
    match s.team? c.team with
    | none => none
    | some t =>
      let n := need c t
      if blocked s s.cur c t || !c.started || traceHeld s s.cur c || hazard s s.cur c n || (firstFail t n).isSome ||
          (c.held.any fun h => h.regs.any n.reads.contains) || (c.spec.isSome && n.stops) then none
      else
        let (s1, c1) := endStall s s.cur c
        match shadowRegs s1 s.cur t n.writes c1 with
        | none => none
        | some c' => if s1.fabric.starved then none else some (s1, c', t)
/-- `mayIssue` for an instruction. -/
def ready (s : State) (i : Instr) : Option (State × Crew × Team) := mayIssue s (needOf s i)

end Sys2Proof.Machine
end

