-- ==== Sys2Proof/Safety.lean ====
section
/-! DEFINITION. What counts as a safe run, in the terms of the claims: the invariant of the memory's form, runs of the machine, and what an
instruction leaves alone. -/
namespace Sys2Proof.Machine

/-- The memory is in canonical form. -/
def Inv (s : State) : Prop := Memory.wf s.mem = true
/-- A step takes one state to the next. -/
def Steps (s s' : State) : Prop := step s = .next s'
/-- A state that some number of steps reaches. -/
inductive Runs : State → State → Prop where
  | here (s : State) : Runs s s
  | more (s s' s'' : State) : Runs s s' → Steps s' s'' → Runs s s''
/-- No step of a run from here is refused. -/
def Safe (s : State) : Prop := ∀ s' r, Runs s s' → step s' ≠ .refused r

/-- Nothing changes but the crew of the current move. -/
def OnlyCrew (s t : State) : Prop := ∃ c, t = s.setCrew s.cur c
/-- A crew keeps everything but vector registers, scalar registers, its stochastic-rounding counter and its program counter. -/
def SameControl (c d : Crew) : Prop :=
  d = { c with pc := d.pc, sregs := d.sregs, vregs := d.vregs, rndcnt := d.rndcnt, issued := d.issued }
/-- Every byte of memory reads as before, under every key. -/
def SameBytes (s t : State) : Prop := ∀ key a, readByte t key a = readByte s key a
/-- Every byte outside n bytes from a flat address reads as before, under every key. -/
def SameBytesBut (s t : State) (a n : Nat) : Prop := ∀ key x, x < a ∨ a + n ≤ x → readByte t key x = readByte s key x

/-- What an instruction does whenever the crew of the current move may issue it (`ready`) and a condition on state and operands holds: the
next state is `f` of the state in which it acts, the crew and its team. -/
def DoesWhen (i : Instr) (p : State → Crew → Team → Prop) (f : State → Crew → Team → State) : Prop :=
  ∀ s s1 c t, ready s i = some (s1, c, t) → p s1 c t → exec i s = .next (f s1 c t)
/-- What an instruction does whenever the crew of the current move may issue it. -/
def Does (i : Instr) (f : State → Crew → Team → State) : Prop :=
  ∀ s s1 c t, ready s i = some (s1, c, t) → exec i s = .next (f s1 c t)
/-- An instruction that may issue, under a condition, gives a next state in which `q` holds. -/
def Gives (i : Instr) (p : State → Crew → Team → Prop) (q : State → Crew → Team → State → Prop) : Prop :=
  ∀ s s1 c t, ready s i = some (s1, c, t) → p s1 c t → ∃ s', exec i s = .next s' ∧ q s1 c t s'
/-- Each active lane of a vector register takes a value and nothing else changes: the other lanes, the other registers, the scalar registers,
MODE and every other part of the state; the stochastic-rounding counter advances when `rounds` says that RND is consumed (R92). -/
def LaneResults (i : Instr) (d : VReg) (rounds : DWord → Bool) (f : Crew → Team → Nat → Word) : Prop :=
  Gives i (fun _ _ t => t.width ≤ 64) fun s c t s' => ∃ c', s' = retire s c' ∧
    (∀ r l, l < 64 → c'.getV r l = if r = d.toNat ∧ c.isActive t.width l = true then f c t l else c.getV r l) ∧
    c' = { c with vregs := c'.vregs, rndcnt := if rounds c.mode && rndOf c.mode == 5 then c.rndcnt + 1 else c.rndcnt }
/-- Each active lane's unit (R135) takes a value and nothing else changes. -/
def UnitResults (i : Instr) (d : VReg) (f : Crew → Team → Nat → DWord) : Prop :=
  Gives i (fun _ _ t => t.width ≤ 64) fun s c t s' => ∃ c', s' = retire s c' ∧
    (∀ l, l < 64 → c.isActive t.width l = true →
      c'.getUnit d.toNat l = if tyOf c.mode = 13 then f c t l else ((f c t l).setWidth 32).setWidth 64) ∧
    (∀ r l, l < 64 → (c.isActive t.width l = false ∨ r ∉ unitRegs c.mode d) → c'.getV r l = c.getV r l) ∧
    c' = { c with vregs := c'.vregs }
/-- Under a condition, an instruction of a crew that does not speculate takes a precise trap at its own program counter (R361, R363). -/
def TrapsWhen (i : Instr) (p : State → Crew → Team → Prop) (kind : TrapKind) (addr detail : Crew → DWord := fun _ => 0) : Prop :=
  DoesWhen i (fun s c t => s.crew? s.cur = some c ∧ c.spec = none ∧ p s c t) fun s c _ => raise s s.cur
    { kind := kind, resume := c.pc, fault := c.pc, word := wordOf i, addr := addr c, detail := detail c }
/-- The crew of the current move is on its slot, outside regions and speculation, with nothing buffered and no release under way. -/
def Outside (s : State) (c : Crew) : Prop :=
  s.crew? s.cur = some c ∧ c.region = none ∧ c.spec = none ∧ c.buf = [] ∧ c.fenceAt = none
/-- Every outstanding operation is performed and every bulk command has started: a release waits for nothing (R216, R225). -/
def Settled (s : State) : Prop := (∀ p ∈ s.ops, p.2.performed = true) ∧ ∀ p ∈ s.bulk.cmds, p.2.running.isSome = true
/-- A record that the crew of the current move emits finds a reservation, or is not delivered because its function is not traced. -/
def Recorded (s : State) (c : Crew) : Prop :=
  (0 < (s.core (coreOf s.cur)).granted ∧ (s.core (coreOf s.cur)).grantee = funcOfTeam s c.team) ∨ (s.func (funcOfTeam s c.team)).trace.cfg.getLsbD 0 = false
/-- An event takes place, and the next state is as said. -/
def Yields (i : Instr) (s : State) (q : State → Prop) : Prop := ∃ s', exec i s = .next s' ∧ q s'

end Sys2Proof.Machine
end

