-- ==== Sys2Proof/Certificates/Slice0/Obligations.lean ====
section
/-! DEFINITION. The statements for the provers: what the rules of the spec say each instruction and each event does. -/
open Sys2Proof Sys2Proof.Machine

/-- The registers that the spec gives a reset value hold it after reset: each function's trace registers (R402), each slice's SLFAB (R425),
the time registers (R396), and ACTBUD0 and ACTBUD1 of every die (R447); and nothing is resident. -/
def Obligations.ResetRegisters : Prop :=
  core.reset = State.reset ∧
  (∀ f, (State.reset.func f).trace =
    { cfg := 0, buf := 0, wp := 0, rp := 0, filt := 0x0000FF0000000000, dies := 0xFFFFFFFFFFFFFFFF, stat := 0, stall := 0, drop := 0 }) ∧
  (∀ i, (State.reset.slice i).fab = 0x0400000004000008) ∧
  (∀ d, budgetOf State.reset d = (0x0100100008004000, 0x0000000010000400)) ∧
  State.reset.time.timestat = 0 ∧ State.reset.time.tbepoch = 0 ∧ State.reset.time.ppscap = 0 ∧
  State.reset.crews = [] ∧ State.reset.teams = [] ∧ State.reset.entries = [] ∧ State.reset.ops = []

/-- After reset the memory is in canonical form, and every byte of it reads as zero under every key: the model's choice (log entry 1). -/
def Obligations.ResetMemoryCanonical : Prop := Machine.Inv State.reset ∧ ∀ key a, readByte State.reset key a = 0

/-- Every step of the machine keeps the memory in canonical form, whatever instruction or event it is. -/
def Obligations.StepKeepsMemoryCanonical : Prop := ∀ s s', Machine.Inv s → step s = .next s' → Machine.Inv s'

/-- Every well-formed instruction that has a word is what its word decodes to. -/
def Obligations.DecodeOfEncode : Prop := ∀ i w, i.WellFormed → encode i = some w → decode w = .ok i

/-- A word that decodes is the word of the instruction it decodes to, and that instruction is well formed: no two words are one
instruction, and no bit of a word is ignored. -/
def Obligations.EncodeOfDecode : Prop := ∀ w i, decode w = .ok i → encode i = some w ∧ i.WellFormed

/-- Words written out from the encodings of R58 to R62 decode to their instructions, and their bytes are in little-endian order (R4). -/
def Obligations.WordsDecode : Prop :=
  decode 0x12030405 = .ok (.sadd 3 4 5) ∧ decode 0x02FFFFFF = .ok (.br 0xFFFFFF) ∧ decode 0x1007FFFE = .ok (.sli 7 0xFFFE) ∧
  decode 0x33012A03 = .ok (.vfma 1 42 3) ∧ decode 0x600A0B0C = .ok (.ld 10 11 12) ∧ decode 0x65060300 = .ok (.fence 6 3) ∧
  decode 0x0B041083 = .ok (.wait 1 1 2 3) ∧ decode 0x71050204 = .ok (.cpy8 5 2 4) ∧ decode 0x97040506 = .ok (.acas 4 5 6) ∧
  decode 0xA3010000 = .ok .regionOpen ∧ decode 0xB1020700 = .ok (.trctlDrain 7) ∧ decode 0xC0000123 = .ok (.trap 0x123) ∧
  decodeBytes [0x05, 0x04, 0x03, 0x12] = .ok (.sadd 3 4 5, [])

/-- A word whose opcode position is unassigned, or that sets a zero field, a scalar field above 63, a code above its limit or an odd pair,
is rejected by the name of the reason (R41, R43, R59, R61). -/
def Obligations.ReservedWordsRejected : Prop :=
  (∀ w, (opcodeOf w).toNat ∉ [1, 2, 3, 4, 5, 6, 7, 8, 9, 10, 11, 12, 13, 14] ++ (List.range 17).map (16 + ·) ++ (List.range 24).map (48 + ·) ++
      (List.range 8).map (80 + ·) ++ (List.range 8).map (96 + ·) ++ (List.range 10).map (112 + ·) ++ (List.range 8).map (128 + ·) ++
      (List.range 14).map (144 + ·) ++ [160, 161, 162, 163, 176, 177, 192, 193, 194] → decode w = .error .unassigned) ∧
  (∀ d a b, d ≠ 0 ∨ a ≠ 0 ∨ b ≠ 0 → decode (w3 0x01 d a b) = .error .zeroField) ∧
  (∀ d a b : BitVec 8, 64 ≤ d.toNat ∨ 64 ≤ a.toNat ∨ 64 ≤ b.toNat → decode (w3 0x12 d a b) = .error .scalarField) ∧
  (∀ (d a b : BitVec 8), a.getLsbD 0 = true ∨ b.getLsbD 0 = true → decode (w3 0x56 d a b) = .error .group) ∧
  (∀ (d a b : BitVec 8), 64 ≤ d.toNat → decode (w3 0x70 d a b) = .error .handleField) ∧
  (∀ (d a : BitVec 8), 6 < d.toNat → decode (w3 0x65 d a 0) = .error .codeField)

/-- When the schedule names a crew that its slot takes (R100, R101), a step is `exec` of the instruction at the crew's program counter, in the
state in which time has passed, with the reads that it performs ahead, and the crew is the current one; the step then adds the ISSUE record of a
sampled instruction (R406), a stall for want of a reservation (R410), and what follows every move by itself. That instruction is the one that the
fetched word decodes to, the step of R68 for a word that is none, or that of R112 when the word cannot be fetched. A crew that its slot does not
take does nothing in its turn. -/
def Obligations.StepRunsDecodedInstruction : Prop :=
  (∀ s k rest c t, s.schedule = .crew k :: rest →
    let s1 := { tick s with schedule := rest }
    let s2 := { s1 with cur := k, promoted := setDel s1.promoted k }
    let after := fun (s' : State) => Host.Outcome.next (ageReady (1 + Config.extraCycles s.clock) (some (.crew k)) (tick s) (settle s1 s'))
    s1.crew? k = some c → s1.team? c.team = some t →
    ∀ i, i = nextInstr s2 t c.pc →
      step s = if chosen s1 k c then (match exec i s2 with
          | .next s' => after (orStall s2 k c (sampled s' k c (opcodeOf (wordOf i))))
          | r => r)
        else after s1) ∧
  (∀ s t pc w i, fetch s t pc = .word w → decodeBytes (bytesOfWord w) = .ok (i, []) → nextInstr s t pc = i) ∧
  (∀ s t pc w e, fetch s t pc = .word w → decodeBytes (bytesOfWord w) = .error e → nextInstr s t pc = .illegalInstructionWord w) ∧
  (∀ s t pc cause detail, fetch s t pc = .fails cause detail → nextInstr s t pc = .instructionFetchFault cause pc detail)

/-- No instruction and no event is refused: nothing in the model is left without a meaning. -/
def Obligations.NothingRefused : Prop :=
  (∀ i s r, exec i s ≠ .refused r) ∧ ∀ s r, step s ≠ .refused r

/-- An instruction with a word never ends a run: with a crew and its team present, every one answers a next state, whatever the state. -/
def Obligations.CrewInstructionsAnswer : Prop :=
  ∀ i s c t, (encode i).isSome = true → s.crew? s.cur = some c → s.team? c.team = some t → ∃ s', exec i s = .next s'

/-- When a crew may issue: its core belongs to a slice, it is started, waits for nothing, has no pending trap, no speculation, no held fault, no
stall, no outstanding operation and no open region, its team runs, its core has no record waiting for trace space, and the instruction passes
the checks of R63. The instruction then acts in the very state that the crew finds. -/
def Obligations.ReadyWhenUnhindered : Prop :=
  ∀ s i c t, s.crew? s.cur = some c → s.team? c.team = some t → coreOwned s (coreOf s.cur) = true → c.started = true → c.wait = .none →
    c.pending = none → c.spec = none → c.held = [] → c.stalled = none → c.stallSum = 0 → c.region = none → t.halt = .running → s.ops = [] →
    s.fabric.items = [] → s.fabric.starved = false → (needOf s i c t).waits = false → firstFail t (needOf s i c t) = none →
    ready s i = some (s, c, t)

/-- R63: an instruction that fails a check has no effect but its precise trap, whose kind is that of the first check that fails: illegal
for checks 2 to 4, operand for a register field, handle for a handle field. A crew that speculates stops instead (R331), one that was stalled first reports it, and one whose record
finds no reservation stalls (R410). -/
def Obligations.FailedCheckTraps : Prop :=
  ∀ s i c t, (encode i).isSome = true → s.crew? s.cur = some c → s.team? c.team = some t → blocked s s.cur c t = false → c.started = true →
    traceHeld s s.cur c = false → hazard s s.cur c (needOf s i c t) = false →
    let n := needOf s i c t
    let trap := fun (k : TrapKind) (d : DWord) => exec i s = .next (orStall s s.cur c (trapOrStop (endStall s s.cur c).1 s.cur
      { kind := k, resume := c.pc, fault := c.pc, word := n.word, detail := d }))
    (n.ok = false → trap .illegal 0) ∧
    (n.ok = true → (∃ r, r ∈ n.reads ++ n.writes ∧ t.nvreg ≤ r) → trap .operand 0) ∧
    (n.ok = true → (∀ r, r ∈ n.reads ++ n.writes → r < t.nvreg) → ∀ h, n.handles.find? (fun h => !h.2) = some h →
      trap .handle (BitVec.ofNat 64 h.1))

/-- s0 reads as zero, and a write to it is discarded; any other register then reads as what was written, and the rest as before (R41). -/
def Obligations.ZeroRegister : Prop :=
  (∀ c : Crew, c.getS 0 = 0) ∧ (∀ (c : Crew) v, c.setS 0 v = c) ∧
  (∀ (c : Crew) r v, r ≠ 0 → (c.setS r v).getS r = v) ∧ (∀ (c : Crew) r q v, q ≠ r → (c.setS r v).getS q = c.getS q) ∧
  ∀ x : BitVec 8, 64 ≤ x.toNat → pSreg x = .error .scalarField

/-- SLI, SLIS (R124), the two-operand scalar instructions (R125) and SADDI (R126): the scalar register takes the result, the program counter moves to the next word, and
nothing else changes. -/
def Obligations.ScalarArithmetic : Prop :=
  (∀ d i, Does (.sli d i) fun s c _ => retire s (c.setS d (i.signExtend 64))) ∧
  (∀ d i, Does (.slis d i) fun s c _ => retire s (c.setS d ((c.getS d <<< 16) + i.setWidth 64))) ∧
  (∀ d a b, Does (.sadd d a b) fun s c _ => retire s (c.setS d (BitVec.ofNat 64 ((c.getS a).toNat + (c.getS b).toNat)))) ∧
  (∀ d a b, Does (.ssub d a b) fun s c _ => retire s (c.setS d (c.getS a - c.getS b))) ∧
  (∀ d a b, Does (.smul d a b) fun s c _ => retire s (c.setS d (BitVec.ofNat 64 ((c.getS a).toNat * (c.getS b).toNat)))) ∧
  (∀ d a b, Does (.sand d a b) fun s c _ => retire s (c.setS d (c.getS a &&& c.getS b))) ∧
  (∀ d a b, Does (.sor d a b) fun s c _ => retire s (c.setS d (c.getS a ||| c.getS b))) ∧
  (∀ d a b, Does (.sxor d a b) fun s c _ => retire s (c.setS d (c.getS a ^^^ c.getS b))) ∧
  (∀ d a b, Does (.sshl d a b) fun s c _ => retire s (c.setS d (c.getS a <<< ((c.getS b).toNat % 64)))) ∧
  (∀ d a b, Does (.sshr d a b) fun s c _ => retire s (c.setS d (c.getS a >>> ((c.getS b).toNat % 64)))) ∧
  (∀ d a b, Does (.ssra d a b) fun s c _ => retire s (c.setS d ((c.getS a).sshiftRight ((c.getS b).toNat % 64)))) ∧
  (∀ d a b, Does (.sslt d a b) fun s c _ => retire s (c.setS d (if (c.getS a).toInt < (c.getS b).toInt then 1 else 0))) ∧
  (∀ d a i, Does (.saddi d a i) fun s c _ => retire s (c.setS d (c.getS a + i.signExtend 64)))

/-- SDIVS and SDIVN (R127): the quotient rounded towards zero, with the defined results of division by zero and of signed overflow. SCNT and
SCLZ (R128): the number of set bits, and the number k with the highest set bit at 63 - k, 64 for zero. -/
def Obligations.ScalarDivisionsAndCounts : Prop :=
  (∀ d a b, Gives (.sdivs d a b) (fun _ _ _ => True) fun s c _ s' => ∃ q : DWord, s' = retire s (c.setS d q) ∧
    (c.getS b = 0 → q = -1) ∧ (c.getS a = BitVec.intMin 64 → c.getS b = -1 → q = BitVec.intMin 64) ∧
    (c.getS b ≠ 0 → (c.getS a = BitVec.intMin 64 → c.getS b ≠ -1) → q.toInt = (c.getS a).toInt.tdiv (c.getS b).toInt)) ∧
  (∀ d a b, Gives (.sdivn d a b) (fun _ _ _ => True) fun s c _ s' => ∃ q : DWord, s' = retire s (c.setS d q) ∧
    (c.getS b = 0 → q = -1) ∧ (c.getS b ≠ 0 → q.toNat = (c.getS a).toNat / (c.getS b).toNat)) ∧
  (∀ d a, Gives (.scnt d a) (fun _ _ _ => True) fun s c _ s' => ∃ n : Nat, s' = retire s (c.setS d (BitVec.ofNat 64 n)) ∧
    n = ((List.range 64).map fun k => ((c.getS a).getLsbD k).toNat).sum) ∧
  (∀ d a, Gives (.sclz d a) (fun _ _ _ => True) fun s c _ s' => ∃ n : Nat, s' = retire s (c.setS d (BitVec.ofNat 64 n)) ∧ n ≤ 64 ∧
    (c.getS a = 0 → n = 64) ∧ (c.getS a ≠ 0 → n < 64 ∧ (c.getS a).getLsbD (63 - n) = true) ∧
    ∀ k, k < 64 → 63 < k + n → (c.getS a).getLsbD k = false)

/-- NOP (R113), and the control transfers when they transfer: BR and CALL (R114), BRZ and BRNZ (R115), RET and JR (R116) and BLKZ (R104)
continue at the target computed exactly when it lies in the address space, and is word-aligned where it comes from a register (R112); a
branch whose condition does not hold goes on with the next word. -/
def Obligations.ControlTransfers : Prop :=
  (Does .nop fun s c _ => retire s c) ∧
  (∀ i, DoesWhen (.br i) (fun _ c _ => targetOk (c.pc.toNat + 4 * i.toInt) = true) fun s c _ =>
    jump s c (BitVec.ofInt 56 (c.pc.toNat + 4 * i.toInt))) ∧
  (∀ i, DoesWhen (.call i) (fun _ c _ => targetOk (c.pc.toNat + 4 * i.toInt) = true) fun s c _ =>
    jump s (c.setS 63 ((c.pc + 4).setWidth 64)) (BitVec.ofInt 56 (c.pc.toNat + 4 * i.toInt))) ∧
  (∀ d i, DoesWhen (.brz d i) (fun _ c _ => c.getS d = 0 → targetOk (c.pc.toNat + 4 * i.toInt) = true) fun s c _ =>
    if c.getS d = 0 then jump s c (BitVec.ofInt 56 (c.pc.toNat + 4 * i.toInt)) else retire s c) ∧
  (∀ d i, DoesWhen (.brnz d i) (fun _ c _ => c.getS d ≠ 0 → targetOk (c.pc.toNat + 4 * i.toInt) = true) fun s c _ =>
    if c.getS d ≠ 0 then jump s c (BitVec.ofInt 56 (c.pc.toNat + 4 * i.toInt)) else retire s c) ∧
  (DoesWhen .ret (fun _ c _ => (c.getS 63).toNat < 2 ^ 56 ∧ (c.getS 63).toNat % 4 = 0) fun s c _ =>
    jump s c ((c.getS 63).setWidth 56)) ∧
  (∀ a, DoesWhen (.jr a) (fun _ c _ => (c.getS a).toNat < 2 ^ 56 ∧ (c.getS a).toNat % 4 = 0) fun s c _ =>
    jump s c ((c.getS a).setWidth 56)) ∧
  (∀ d n, DoesWhen (.blkz d n) (fun _ c t => maskOf t.width (c.getS d) = 0 → c.pc.toNat + 4 + 4 * n.toNat < 2 ^ 56) fun s c t =>
    if maskOf t.width (c.getS d) = 0 then jump s c (BitVec.ofNat 56 (c.pc.toNat + 4 + 4 * n.toNat)) else retire s c)

/-- R112: a control transfer whose target is not in the address space, or not word-aligned, takes a precise branch-target trap whose
ADDR is the target. -/
def Obligations.BadTargetsTrap : Prop :=
  (∀ i, TrapsWhen (.br i) (fun _ c _ => targetOk (c.pc.toNat + 4 * i.toInt) = false) .branchTarget
    fun c => BitVec.ofInt 64 (c.pc.toNat + 4 * i.toInt)) ∧
  (∀ i, TrapsWhen (.call i) (fun _ c _ => targetOk (c.pc.toNat + 4 * i.toInt) = false) .branchTarget
    fun c => BitVec.ofInt 64 (c.pc.toNat + 4 * i.toInt)) ∧
  (∀ d i, TrapsWhen (.brz d i) (fun _ c _ => c.getS d = 0 ∧ targetOk (c.pc.toNat + 4 * i.toInt) = false) .branchTarget
    fun c => BitVec.ofInt 64 (c.pc.toNat + 4 * i.toInt)) ∧
  (∀ d i, TrapsWhen (.brnz d i) (fun _ c _ => c.getS d ≠ 0 ∧ targetOk (c.pc.toNat + 4 * i.toInt) = false) .branchTarget
    fun c => BitVec.ofInt 64 (c.pc.toNat + 4 * i.toInt)) ∧
  (∀ a, TrapsWhen (.jr a) (fun _ c _ => 2 ^ 56 ≤ (c.getS a).toNat ∨ (c.getS a).toNat % 4 ≠ 0) .branchTarget fun c => c.getS a) ∧
  TrapsWhen .ret (fun _ c _ => 2 ^ 56 ≤ (c.getS 63).toNat ∨ (c.getS 63).toNat % 4 ≠ 0) .branchTarget (fun c => c.getS 63) ∧
  ∀ d n, TrapsWhen (.blkz d n) (fun _ c t => maskOf t.width (c.getS d) = 0 ∧ 2 ^ 56 ≤ c.pc.toNat + 4 + 4 * n.toNat) .branchTarget
    fun c => BitVec.ofNat 64 (c.pc.toNat + 4 + 4 * n.toNat)

/-- MODE replaces one quarter of MODE and leaves the other bits (R117); MODER exchanges MODE with a scalar register, and with s0 as the
source only reads it (R118). SREAD reads a special register (R120, R48). -/
def Obligations.ModeAndSpecialRegisters : Prop :=
  (∀ q i, Gives (.mode q i) (fun _ _ _ => True) fun s c _ s' => ∃ m : DWord, s' = retire s { c with mode := m } ∧
    ∀ k, k < 64 → m.getLsbD k = if k / 16 = q.toNat then i.getLsbD (k % 16) else c.mode.getLsbD k) ∧
  (∀ d a, a ≠ 0 → Does (.moder d a) fun s c _ => retire s ({ c with mode := c.getS a }.setS d c.mode)) ∧
  (∀ d, Does (.moder d 0) fun s c _ => retire s (c.setS d c.mode)) ∧
  (∀ d i, Gives (.sread d i) (fun _ _ _ => True) fun s c t s' => ∃ s1 v, s' = retire s1 (c.setS d v) ∧
    (i ≠ 0x06 → s1 = s) ∧ (i = 0x06 → s1 = noteTime s (coreOf s.cur / 32) ∧ v.toNat = dieTime s1 (coreOf s.cur / 32) % 2 ^ 64) ∧
    (i = 0x00 → v = BitVec.ofNat 64 t.width) ∧ (i = 0x01 → v = BitVec.ofNat 64 (slotOf s.cur * 256 + c.idx)) ∧
    (i = 0x04 → v = BitVec.ofNat 64 t.crews.length) ∧ (i = 0x05 → v = BitVec.ofNat 64 (coreOf s.cur)) ∧
    (i = 0x07 → v = BitVec.ofNat 64 s.time.cycle) ∧ (i = 0x09 → v = c.rseed) ∧ (i = 0x0A → v = c.rndcnt.setWidth 64) ∧
    (i = 0x02 → ∀ e, Tbl.get? s.entries t.entry = some e → v = BitVec.ofNat 64
      (t.tidx / e.rec_.gx / e.rec_.gy * 2 ^ 32 + t.tidx / e.rec_.gx % e.rec_.gy * 2 ^ 16 + t.tidx % e.rec_.gx)) ∧
    (i = 0x03 → ∀ e, Tbl.get? s.entries t.entry = some e → v = BitVec.ofNat 64 (e.rec_.gz * 2 ^ 32 + e.rec_.gy * 2 ^ 16 + e.rec_.gx)) ∧
    (i = 0x08 → ∀ x, Tbl.get? s.ctxs t.ctx = some x → v = BitVec.ofNat 64 (t.ctx % 65536 * 65536 + x.func * 256 + x.slice)) ∧
    (i = 0x0B → v = BitVec.ofNat 64 (min (classCount s s.cur .tile) 63 * 2 ^ 24 + min (classCount s s.cur .copy) 63 * 2 ^ 16 +
      min (classCount s s.cur .store) 63 * 2 ^ 8 + min (classCount s s.cur .load) 63)) ∧
    (i = 0x0C → v = c.gang) ∧ (i = 0x0D → v = s.svc.modid.setWidth 64) ∧
    (i = 0x10 → v = c.trap.w0) ∧ (i = 0x11 → v = c.trap.w1) ∧ (i = 0x12 → v = c.trap.w2) ∧ (i = 0x13 → v = c.trap.w3) ∧
    (i = 0x14 → v = c.trap.w4) ∧ (i = 0x15 → v = c.trap.w5) ∧ (i = 0x16 → v = c.trap.w6) ∧ (i = 0x17 → v = c.trap.w7))

/-- WAIT and WAITR (R108, R110, R111): once each counter is at or below its threshold, a wait that covers no held fault retires, and one that
covers some raises them (R107); until then it notes what it does not cover, the youngest operations of each class up to its threshold when it
issued, and issues again. END (R121): while a counted instruction is outstanding nothing happens; with none, and no held fault, the crew is ended
and its team has it among the ended crews, and the team retires with its last crew. -/
def Obligations.WaitsAndEnd : Prop :=
  let waits := fun (i : Instr) (th : Crew → Cls → Nat) =>
    let spare := fun (s : State) (c : Crew) => c.spare.getD ([Cls.load, .store, .copy, .tile].flatMap fun q => youngest s s.cur q (th c q))
    DoesWhen i (fun s c _ => (∀ q, classCount s s.cur q ≤ th c q) ∧ ∀ h ∈ c.held, waitCovers (th c) (spare s c) h = false)
      (fun s c _ => retire s { c with spare := none }) ∧
    DoesWhen i (fun s c _ => s.crew? s.cur = some c ∧ c.spec = none ∧ (∀ q, classCount s s.cur q ≤ th c q) ∧
        ∃ h ∈ c.held, waitCovers (th c) (spare s c) h = true)
      (fun s c _ => raiseHeld s s.cur c (waitCovers (th c) (spare s c))) ∧
    DoesWhen i (fun s c _ => ∃ q, th c q < classCount s s.cur q) fun s c _ => s.setCrew s.cur { c with spare := some (spare s c) }
  (∀ l st k q, waits (.wait l st k q) fun _ x => match x with | .load => l.toNat | .store => st.toNat | .copy => k.toNat | .tile => q.toNat) ∧
  (∀ a k, waits (.waitr a k) fun c x =>
    if x = (match k.toNat with | 0 => Cls.load | 1 => .store | 2 => .copy | _ => .tile) then min (c.getS a).toNat 63 else 63) ∧
  (DoesWhen .endCrew (fun s c _ => c.region = none ∧ s.crew? s.cur = some c ∧ ∃ p ∈ s.ops, p.2.crew = s.cur ∧ p.2.cls.isSome = true)
    fun s _ _ => s) ∧
  let ends := fun (s : State) (c : Crew) (t : Team) => c.held = [] ∧ c.region = none ∧ (∀ p ∈ s.ops, p.2.crew ≠ s.cur) ∧ s.wideMsgs = [] ∧
    (∀ ev arg spec, delivers s (funcOfTeam s c.team) (coreOf s.cur / 32) ev arg spec (some c) = false) ∧
    (s.core (coreOf s.cur)).trivet = [] ∧ s.crew? s.cur = some c ∧ s.team? c.team = some t
  let ended := fun (s : State) (c : Crew) (t : Team) =>
    (s.setCrew s.cur { c with wait := .ended, handler := false, gangMarks := [], issued := c.issued + 1 }).setTeam c.team
      { t with ended := setAdd t.ended s.cur }
  (DoesWhen .endCrew (fun s c t => ends s c t ∧ ∃ k ∈ t.crews, k ≠ s.cur ∧ k ∉ t.ended ∧ ∃ x, s.crew? k = some x ∧ x.wait = .none ∧ x.spec = none)
    ended) ∧
  Gives .endCrew (fun s c t => ends s c t ∧ ∀ k ∈ t.crews, k = s.cur ∨ k ∈ t.ended) fun s c t s' => s' = retireTeam (ended s c t) c.team

/-- VADD, VSUB, VMUL and VFMA (R139), VMIN and VMAX (R140), VSHL and VSHR (R142) and VLID (R147): each active lane takes the result for its
elements, computed exactly and then rounded (R85) or narrowed (R80); nothing else changes. -/
def Obligations.VectorArithmetic : Prop :=
  (∀ d a b, LaneResults (.vadd d a b) d floats fun c _ l => c.putLane d.toNat l (if floats c.mode then
    roundV (fmtOf (tyOf c.mode)) (rndAt c l 0) (sumV (rndOf c.mode) [c.elemF a.toNat l, c.elemF b.toNat l])
    else narrowI (tyOf c.mode) (mSat c.mode) (c.elemI a.toNat l + c.elemI b.toNat l))) ∧
  (∀ d a b, LaneResults (.vsub d a b) d floats fun c _ l => c.putLane d.toNat l (if floats c.mode then
    roundV (fmtOf (tyOf c.mode)) (rndAt c l 0) (sumV (rndOf c.mode) [c.elemF a.toNat l, (c.elemF b.toNat l).neg])
    else narrowI (tyOf c.mode) (mSat c.mode) (c.elemI a.toNat l - c.elemI b.toNat l))) ∧
  (∀ d a b, LaneResults (.vmul d a b) d floats fun c _ l => c.putLane d.toNat l (if floats c.mode then
    roundV (fmtOf (tyOf c.mode)) (rndAt c l 0) (mulV (c.elemF a.toNat l) (c.elemF b.toNat l))
    else narrowI (tyOf c.mode) (mSat c.mode) (c.elemI a.toNat l * c.elemI b.toNat l))) ∧
  (∀ d a b, LaneResults (.vfma d a b) d floats fun c _ l => c.putLane d.toNat l (if floats c.mode then
    roundV (fmtOf (tyOf c.mode)) (rndAt c l 0) (sumV (rndOf c.mode) [mulV (c.elemF a.toNat l) (c.elemF b.toNat l), c.elemF d.toNat l])
    else narrowI (tyOf c.mode) (mSat c.mode) (c.elemI a.toNat l * c.elemI b.toNat l + c.elemI d.toNat l))) ∧
  (∀ d a b, LaneResults (.vmin d a b) d (fun _ => false) fun c _ l => c.putLane d.toNat l (if floats c.mode then
    exactCode (tyOf c.mode) (minV (c.elemF a.toNat l) (c.elemF b.toNat l))
    else lowBits (tyOf c.mode) (min (c.elemI a.toNat l) (c.elemI b.toNat l)))) ∧
  (∀ d a b, LaneResults (.vmax d a b) d (fun _ => false) fun c _ l => c.putLane d.toNat l (if floats c.mode then
    exactCode (tyOf c.mode) (maxV (c.elemF a.toNat l) (c.elemF b.toNat l))
    else lowBits (tyOf c.mode) (max (c.elemI a.toNat l) (c.elemI b.toNat l)))) ∧
  (∀ d a b, LaneResults (.vshl d a b) d (fun _ => false) fun c _ l => c.putLane d.toNat l
    (c.elem a.toNat l * 2 ^ (c.elem b.toNat l % tyBits (tyOf c.mode)) % 2 ^ tyBits (tyOf c.mode))) ∧
  (∀ d a b, LaneResults (.vshr d a b) d (fun _ => false) fun c _ l => c.putLane d.toNat l
    (lowBits (tyOf c.mode) (c.elemI a.toNat l / (2 ^ (c.elem b.toNat l % tyBits (tyOf c.mode)) : Nat)))) ∧
  (∀ d, LaneResults (.vlid d) d (fun _ => false) fun _ _ l => BitVec.ofNat 32 l)

/-- The instructions on whole units: VAND, VOR and VXOR (R141), VMOV (R144), VBCS (R145), VSLUP and VSLDN (R152): each active lane's unit
takes the result, and nothing else changes. -/
def Obligations.VectorUnits : Prop :=
  (∀ d a b, UnitResults (.vand d a b) d fun c _ l => c.getUnit a.toNat l &&& c.getUnit b.toNat l) ∧
  (∀ d a b, UnitResults (.vor d a b) d fun c _ l => c.getUnit a.toNat l ||| c.getUnit b.toNat l) ∧
  (∀ d a b, UnitResults (.vxor d a b) d fun c _ l => c.getUnit a.toNat l ^^^ c.getUnit b.toNat l) ∧
  (∀ d a, UnitResults (.vmov d a) d fun c _ l => c.getUnit a.toNat l) ∧
  (∀ d a, UnitResults (.vbcs d a) d fun c _ _ => c.getS a) ∧
  (∀ d a b, UnitResults (.vslup d a b) d fun c _ l =>
    if (c.getS b).toNat ≤ l then c.getUnit a.toNat (l - (c.getS b).toNat) else 0) ∧
  (∀ d a b, UnitResults (.vsldn d a b) d fun c t l =>
    if l + (c.getS b).toNat < t.width then c.getUnit a.toNat (l + (c.getS b).toNat) else 0)

/-- VCMPR and VEXPD (R151): with the selection mask s[b], the j-th lane of VCMPR takes the unit of the j-th selected lane, and the j-th selected
lane of VEXPD takes the unit of lane j; a lane that no selected lane reaches takes zero. VPERM (R153): a lane takes the lane whose number v[b]
holds, or zero. Lanes that are not active, other registers and all else keep what they held. -/
def Obligations.VectorSelection : Prop :=
  (∀ d a b, UnitResults (.vcmpr d a b) d fun c t l =>
    match ((List.range t.width).filter fun p => (c.getS b).getLsbD p)[l]? with
    | some p => c.getUnit a.toNat p
    | none => 0) ∧
  (∀ d a b, UnitResults (.vexpd d a b) d fun c _ l =>
    if (c.getS b).getLsbD l then c.getUnit a.toNat ((List.range l).filter fun p => (c.getS b).getLsbD p).length else 0) ∧
  (∀ d a b, LaneResults (.vperm d a b) d (fun _ => false) fun c t l =>
    if (c.getV b.toNat l).toNat < t.width then c.getV a.toNat (c.getV b.toNat l).toNat else 0)

/-- VCEQ, VCLT and VCLE (R143): bit l of the scalar is set exactly when lane l is active and the comparison holds of its elements. VEXT
(R146): the scalar takes the unit of the lane that s[b] names, and a lane number of W or more is a precise operand trap. VRED (R150): the
scalar takes the reduction of the elements of the active lanes, widened to 64 bits, or the empty value of the operation when no lane is active; a
floating minimum or maximum is an operand that is no NaN and that no other passes, or the canonical NaN when every operand is one. -/
def Obligations.VectorToScalar : Prop :=
  (∀ d a b, Gives (.vceq d a b) (fun _ _ t => t.width ≤ 64) fun s c t s' => ∃ m : DWord, s' = retire s (c.setS d m) ∧
    ∀ l, l < 64 → m.getLsbD l = (c.isActive t.width l &&
      if floats c.mode then eqV (c.elemF a.toNat l) (c.elemF b.toNat l) else c.elem a.toNat l == c.elem b.toNat l)) ∧
  (∀ d a b, Gives (.vclt d a b) (fun _ _ t => t.width ≤ 64) fun s c t s' => ∃ m : DWord, s' = retire s (c.setS d m) ∧
    ∀ l, l < 64 → m.getLsbD l = (c.isActive t.width l &&
      if floats c.mode then ltV (c.elemF a.toNat l) (c.elemF b.toNat l) else decide (c.elemI a.toNat l < c.elemI b.toNat l))) ∧
  (∀ d a b, Gives (.vcle d a b) (fun _ _ t => t.width ≤ 64) fun s c t s' => ∃ m : DWord, s' = retire s (c.setS d m) ∧
    ∀ l, l < 64 → m.getLsbD l = (c.isActive t.width l &&
      if floats c.mode then ltV (c.elemF a.toNat l) (c.elemF b.toNat l) || eqV (c.elemF a.toNat l) (c.elemF b.toNat l)
      else decide (c.elemI a.toNat l ≤ c.elemI b.toNat l))) ∧
  (∀ d a b, DoesWhen (.vext d a b) (fun _ c t => (c.getS b).toNat < t.width) fun s c _ =>
    retire s (c.setS d (c.getUnit a.toNat (c.getS b).toNat))) ∧
  (∀ d a b, TrapsWhen (.vext d a b) (fun _ c t => t.width ≤ (c.getS b).toNat) .operand) ∧
  (∀ d a, Gives (.vred d a) (fun _ _ _ => True) fun s c t s' => ∃ (x : Nat) (c' : Crew), s' = retire s c' ∧
    c' = { c.setS d (if isSigned (tyOf c.mode) then BitVec.ofInt 64 (readI (tyOf c.mode) x) else BitVec.ofNat 64 x) with
      rndcnt := if mRedop c.mode = 0 ∧ floats c.mode = true ∧ rndOf c.mode = 5 then c.rndcnt + 1 else c.rndcnt } ∧
    let xs := (c.actives t.width).map (c.elem a.toNat)
    (mRedop c.mode = 0 → floats c.mode = true → xs ≠ [] → x = roundV (fmtOf (tyOf c.mode)) (rndAt c 0 0)
      (sumV (rndOf c.mode) (xs.map (readF (fmtOf (tyOf c.mode)) (mFtz c.mode))))) ∧
    (mRedop c.mode = 0 → floats c.mode = false → x = narrowI (tyOf c.mode) (mSat c.mode) ((xs.map (readI (tyOf c.mode))).sum)) ∧
    (mRedop c.mode = 1 → floats c.mode = false → xs ≠ [] → x < 2 ^ tyBits (tyOf c.mode) ∧
      readI (tyOf c.mode) x ∈ xs.map (readI (tyOf c.mode)) ∧ ∀ y ∈ xs, readI (tyOf c.mode) x ≤ readI (tyOf c.mode) y) ∧
    (mRedop c.mode = 2 → floats c.mode = false → xs ≠ [] → x < 2 ^ tyBits (tyOf c.mode) ∧
      readI (tyOf c.mode) x ∈ xs.map (readI (tyOf c.mode)) ∧ ∀ y ∈ xs, readI (tyOf c.mode) y ≤ readI (tyOf c.mode) x) ∧
    (let vs := xs.map (readF (fmtOf (tyOf c.mode)) (mFtz c.mode))
     floats c.mode = true → mRedop c.mode = 1 ∨ mRedop c.mode = 2 →
      ((∃ v ∈ vs, v ≠ .nan) → ∃ v ∈ vs, v ≠ .nan ∧ x = exactCode (tyOf c.mode) v ∧
        ∀ y ∈ vs, y ≠ .nan → (if mRedop c.mode = 1 then belowV y v else belowV v y) = false) ∧
      (xs ≠ [] → (∀ v ∈ vs, v = .nan) → x = (fmtOf (tyOf c.mode)).nan)) ∧
    (xs = [] → x = match (mRedop c.mode).toNat, floats c.mode with
      | 1, true => [0x7F800000, 0x7C00, 0x7F80].getD (tyOf c.mode) 0
      | 1, false => lowBits (tyOf c.mode) (intHi (tyOf c.mode))
      | 2, true => [0xFF800000, 0xFC00, 0xFF80].getD (tyOf c.mode) 0
      | 2, false => lowBits (tyOf c.mode) (intLo (tyOf c.mode))
      | 3, _ => 2 ^ tyBits (tyOf c.mode) - 1
      | _, _ => 0) ∧
    (mRedop c.mode = 3 → x < 2 ^ tyBits (tyOf c.mode) ∧ ∀ k, k < tyBits (tyOf c.mode) → x.testBit k = xs.all (·.testBit k)) ∧
    (mRedop c.mode = 4 → ∀ k, x.testBit k = xs.any (·.testBit k)) ∧
    (mRedop c.mode = 5 → ∀ k, x.testBit k = xs.foldl (fun p y => p ^^ y.testBit k) false))

/-- VCVT (R148) and the packing instructions VPK2, VPK4 and VUPK (R154 to R156): each active lane takes the converted elements; nothing else
changes. -/
def Obligations.VectorConversions : Prop :=
  (∀ d a, LaneResults (.vcvt d a) d (fun m => isFloat (tyOf m) || isFloat (styOf m)) fun c _ l => c.putLane d.toNat l
    (convert (tyOf c.mode) (styOf c.mode) (rndAt c l 0) (elemOf (styOf c.mode) (mHalf c.mode) (c.getV a.toNat l)))) ∧
  (∀ d a b, LaneResults (.vpk2 d a b) d (fun m => styOf m != tyOf m && (isFloat (tyOf m) || isFloat (styOf m))) fun c _ l =>
    BitVec.ofNat 16 (packElem c l 1 b.toNat) ++ BitVec.ofNat 16 (packElem c l 0 a.toNat)) ∧
  (∀ d a b, LaneResults (.vpk4 d a b) d (fun m => styOf m != tyOf m && (isFloat (tyOf m) || isFloat (styOf m))) (fun c _ l => pk4Lane d a b c l)) ∧
  (∀ d a b, ∀ (c : Crew) l k, tyOf c.mode ≠ 5 → k < 4 → (pk4Lane d a b c l).toNat / 256 ^ k % 256 =
    packElem c l k ([a.toNat, a.toNat + 1, b.toNat, b.toNat + 1].getD k 0) % 256) ∧
  (∀ d a e, LaneResults (.vupk d a e) d (fun _ => false) fun c _ l => BitVec.ofNat 32
    (let x := (c.getV a.toNat l).toNat / 2 ^ (e.toNat * tyBits (tyOf c.mode)) % 2 ^ tyBits (tyOf c.mode)
     if isFloat (tyOf c.mode) then exactCode 0 (readF (fmtOf (tyOf c.mode)) (mFtz c.mode) x) else lowBits 6 (readI (tyOf c.mode) x)))

/-- VRCP, VRSQ, VEXP2 and VLOG2 (R149, R96): each active lane takes the function of its element as the format of TYPE rounds it, and nothing
else changes. The function of a NaN is a NaN, and the operands that R96 lists have the results that it lists: zeros, infinities, finite operands
below zero, and one. -/
def Obligations.VectorSpecialFunctions : Prop :=
  let special := fun (i : Instr) (op : Nat) (d a : VReg) => LaneResults i d (fun _ => true) fun c _ l =>
    c.putLane d.toNat l (specialV op (fmtOf (tyOf c.mode)) (rndAt c l 0) (c.elemF a.toNat l))
  (∀ d a, special (.vrcp d a) 0 d a ∧ special (.vrsq d a) 1 d a ∧ special (.vexp2 d a) 2 d a ∧ special (.vlog2 d a) 3 d a) ∧
  (∀ op f r, op < 4 → specialV op f r .nan = f.nan) ∧
  ∀ (f : Fmt) (r : Rnd) (m : Nat),
    let inf := fun (neg : Bool) => roundV f r (.inf neg)
    (∀ neg, specialV 0 f r (.fin neg 0) = inf neg ∧ specialV 0 f r (.inf neg) = roundV f r (.fin neg 0)) ∧
    (∀ neg, specialV 1 f r (.fin neg 0) = inf neg) ∧ specialV 1 f r (.inf false) = 0 ∧ specialV 1 f r (.inf true) = f.nan ∧
    (m ≠ 0 → specialV 1 f r (.fin true m) = f.nan) ∧
    specialV 2 f r (.inf false) = inf false ∧ specialV 2 f r (.inf true) = 0 ∧
    (∀ neg, specialV 3 f r (.fin neg 0) = inf true) ∧ specialV 3 f r (.inf false) = inf false ∧ specialV 3 f r (.inf true) = f.nan ∧
    (m ≠ 0 → specialV 3 f r (.fin true m) = f.nan) ∧
    ∀ t, t ≤ 2 →
      let one := [0x3F800000, 0x3C00, 0x3F80].getD t 0
      let two := [0x40000000, 0x4000, 0x4000].getD t 0
      let at_ := fun (op : Nat) => specialV op (fmtOf t) r (readF (fmtOf t) r.ftz one)
      at_ 0 = one ∧ at_ 1 = one ∧ at_ 2 = two ∧ at_ 3 = 0 ∧ ∀ neg, specialV 2 (fmtOf t) r (.fin neg 0) = one

/-- R80: narrowing an exact integer to a type keeps its low bits, or with SAT gives the value of the type's range that is nearest to it. -/
def Obligations.NarrowingIsExact : Prop :=
  ∀ t v, isInt t = true → narrowI t false v < 2 ^ tyBits t ∧ narrowI t true v < 2 ^ tyBits t ∧
    (readI t (narrowI t false v) - v) % (2 ^ tyBits t : Nat) = 0 ∧
    (intLo t ≤ v → v ≤ intHi t → readI t (narrowI t true v) = v) ∧
    (v < intLo t → readI t (narrowI t true v) = intLo t) ∧ (intHi t < v → readI t (narrowI t true v) = intHi t)

/-- R75, R85: a code that is no NaN, read and rounded again to its own format, is that code, whatever the rounding mode: rounding is exact on
what a format can hold. -/
def Obligations.RoundingIsExactOnCodes : Prop :=
  ∀ t x r ftz draw, t ≤ 5 → x < 2 ^ (fmtOf t).bits → readF (fmtOf t) false x ≠ .nan →
    roundV (fmtOf t) { rnd := r, ftz := ftz, draw := draw } (readF (fmtOf t) false x) = x

/-- LD and LDT (R197, R199, R201): when no access of an active lane meets a fault, the load issues: an operation of class LDC with one access
for each lane or element and the crew goes on. A crew that speculates enters the lines in its read set (R325), and stops before a load of uncached
memory or beyond the read set's limits (R327). With no active lane it is counted at once (R66). -/
def Obligations.LoadsIssue : Prop :=
  let op := fun (s : State) (c : Crew) (word : Word) (as : List Acc) =>
    retire (addOp s { crew := s.cur, team := c.team, core := coreOf s.cur, cls := some .load, kind := .load, acq := mOrd c.mode == 1,
                      scope := (mScope c.mode).toNat, accs := as, pc := c.pc, word := word }) c
  (∀ d a b, DoesWhen (.ld d a b) (fun _ c t => c.spec = none ∧ c.actives t.width ≠ [] ∧ ∀ l ∈ c.actives t.width,
      accessFaults t true false true true (memSize c.mode) (laneAddr c a b l).toNat (memSize c.mode) = [])
    fun s c t => op s c (wordOf (.ld d a b)) ((c.actives t.width).map fun l =>
      { mkAcc t true false l 0 (laneAddr c a b l).toNat (memSize c.mode) with dst := some (ldDst c.mode d.toNat l) })) ∧
  (∀ d a b as c1, DoesWhen (.ld d a b) (fun s c t => c.spec ≠ none ∧ c.actives t.width ≠ [] ∧
      (∀ l ∈ c.actives t.width, accessFaults t true false true true (memSize c.mode) (laneAddr c a b l).toNat (memSize c.mode) = []) ∧
      (as = (c.actives t.width).map fun l =>
        { mkAcc t true false l 0 (laneAddr c a b l).toNat (memSize c.mode) with dst := some (ldDst c.mode d.toNat l) }) ∧
      (∀ x ∈ as, uncached x = false) ∧ trackLoads s s.cur c as = some c1)
    fun s _ _ => op s c1 (wordOf (.ld d a b)) as) ∧
  (∀ (s : State) key (c c1 : Crew) as sp, c.spec = some sp → trackLoads s key c as = some c1 →
    c1 = { c with spec := some { sp with reads := (trackedLines s c as).foldl setAdd sp.reads } } ∧
    ((trackedLines s c as).foldl setAdd sp.reads).length ≤ Config.readCrew) ∧
  (∀ d a b, DoesWhen (.ld d a b) (fun _ c t => c.actives t.width = []) fun s c _ =>
    retire (addDone s s.cur c .load .load (wordOf (.ld d a b))) c) ∧
  (∀ d h b sh, DoesWhen (.ldt d h b) (fun _ c t => shapeHeld c h.toNat = false ∧ Tbl.get? t.shapes h.toNat = some sh ∧
      sh.boxr + 1 ≤ 16 ∧ d.toNat + sh.boxr < t.nvreg ∧ b.toNat + sh.rank - 1 ≤ 63 ∧ boxElems c t sh b = []) fun s c _ =>
    retire (addDone s s.cur c .load .load (wordOf (.ldt d h b))) c) ∧
  (∀ d h b sh, DoesWhen (.ldt d h b) (fun _ c t => c.spec = none ∧ shapeHeld c h.toNat = false ∧ Tbl.get? t.shapes h.toNat = some sh ∧
      sh.boxr + 1 ≤ 16 ∧ d.toNat + sh.boxr < t.nvreg ∧ b.toNat + sh.rank - 1 ≤ 63 ∧ boxElems c t sh b ≠ [] ∧
      ∀ x ∈ boxElems c t sh b, ∀ va, x.va = some va → accessFaults t true false true true 1 va sh.z = [])
    fun s c t => op s c (wordOf (.ldt d h b)) ((boxElems c t sh b).map fun x =>
      let dst : Dst := { reg := d.toNat + x.row, lane := x.lane, lo := 8 * sh.z * x.e, bits := 8 * sh.z, clear := x.e == 0 }
      match x.va with
      | some va => { mkAcc t true false x.lane x.e va sh.z with dst := some dst }
      | none => { lane := x.lane, elem := x.e, size := sh.z, clip := true, dst := some dst }))

/-- ST and STT (R197, R200, R202): when no access of an active lane meets a fault, the store issues with the bytes that its last lane gives
each address: outside a region as an operation of class STC, as a release or through the mirror window once the region is closed (R192,
R218), and inside a region into the crew's buffer, counted at once (R198, R106). A store that the buffer of an open region has no room for
closes the region first (R355), when the counter and the core's requests take both. One that stores nothing is counted at once, and as a release with active lanes it closes the region. -/
def Obligations.StoresIssue : Prop :=
  let closed := fun (c : Crew) => { c with region := none, buf := [] }
  let issues := fun (i : Instr) (p : State → Crew → Team → Prop) (accs : Crew → Team → List Acc) (lanes : Crew → Team → Prop) =>
    let plain := fun (c : Crew) (t : Team) => accs c t ≠ [] ∧ mOrd c.mode ≠ 2 ∧ ∀ a ∈ accs c t, inMirror a.va = false
    let op := fun (s : State) (c : Crew) (t : Team) (rel : Bool) (kind : OpKind) =>
      retire (addOp s { crew := s.cur, team := c.team, core := coreOf s.cur, cls := some .store, kind := kind, rel := rel,
                        scope := (mScope c.mode).toNat, accs := accs c t, pc := c.pc, word := wordOf i }) c
    DoesWhen i (fun s c t => p s c t ∧ plain c t ∧ c.region = none ∧ c.spec = none) (fun s c t => op s c t false .store) ∧
    DoesWhen i (fun s c t => p s c t ∧ accs c t ≠ [] ∧ c.spec = none ∧ (mOrd c.mode = 2 ∨ ∃ a ∈ accs c t, inMirror a.va = true))
      (fun s c t => op (closeRegion s s.cur c.pc (wordOf i)) (closed c) t (mOrd c.mode == 2)
        (if (accs c t).any fun a => inMirror a.va then .mirror (t.group.map fun g => (g, false)) 0 else .store)) ∧
    DoesWhen i (fun s c t => p s c t ∧ plain c t ∧ (c.region ≠ none ∨ c.spec ≠ none) ∧ bufferRoom s s.cur c (accs c t) = true)
      (fun s c t => retire (addDone s s.cur c .store .store (wordOf i))
        { c with buf := c.buf ++ (accs c t).map fun a => { a with num := some s.nextOp } }) ∧
    DoesWhen i (fun s c t => p s c t ∧ plain c t ∧ c.region ≠ none ∧ c.spec = none ∧ bufferRoom s s.cur c (accs c t) = false ∧
        classCount s s.cur .store < 62 ∧ requestsFull s (coreOf s.cur) (lineCount (c.buf ++ accs c t)) = false ∧ s.crew? s.cur = some c ∧
        Recorded s c)
      (fun s c t => op (emitS (closeRegion s s.cur c.pc (wordOf i)) s.cur 0x11 0 (pcBits c.pc)) (closed c) t false .store) ∧
    DoesWhen i (fun s c t => p s c t ∧ accs c t = [] ∧ (mOrd c.mode ≠ 2 ∨ ¬ lanes c t))
      (fun s c _ => retire (addDone s s.cur c .store .store (wordOf i)) c) ∧
    DoesWhen i (fun s c t => p s c t ∧ accs c t = [] ∧ mOrd c.mode = 2 ∧ lanes c t)
      (fun s c _ => retire (addDone (closeRegion s s.cur c.pc (wordOf i)) s.cur c .store .store (wordOf i)) (closed c))
  (∀ d a b, issues (.st d a b)
    (fun _ c t => ∀ l ∈ c.actives t.width, accessFaults t false true true true (memSize c.mode) (laneAddr c a b l).toNat (memSize c.mode) = [])
    (fun c t => keepLast ((c.actives t.width).map fun l =>
      { mkAcc t false true l 0 (laneAddr c a b l).toNat (memSize c.mode) with data := stData c d.toNat l }))
    (fun c t => c.actives t.width ≠ [])) ∧
  (∀ d h b sh, issues (.stt d h b)
    (fun _ c t => shapeHeld c h.toNat = false ∧ Tbl.get? t.shapes h.toNat = some sh ∧ sh.boxr + 1 ≤ 16 ∧ d.toNat + sh.boxr < t.nvreg ∧
      b.toNat + sh.rank - 1 ≤ 63 ∧ ∀ x ∈ boxElems c t sh b, ∀ va, x.va = some va → accessFaults t false true true true 1 va sh.z = [])
    (fun c t =>
      let as := (boxElems c t sh b).filterMap fun x => x.va.map fun va =>
        { mkAcc t false true x.lane x.e va sh.z with
          data := ((c.getV (d.toNat + x.row) x.lane >>> (8 * sh.z * x.e)).setWidth 64) &&& (BitVec.allOnes 64 >>> (64 - 8 * sh.z)) }
      keepLast (as.filter fun a => !inMirror a.va) ++ keepLast (sortKey Acc.lane (as.filter fun a => inMirror a.va)))
    (fun c t => boxElems c t sh b ≠ []))

/-- R176, R370: an instruction whose accesses meet faults other than demand faults takes a precise trap of the kind that R176 takes first,
with the address of its lowest lane, the mask of its lanes and the access code: LD, ST, SHAPE, the copies and the atomics. -/
def Obligations.AccessFaultsTrap : Prop :=
  (∀ cs k va m x, laneFault cs = some (k, va, m, x) →
    (∃ q ∈ cs, k ∈ q.faults ∧ q.va = va ∧ ∀ r ∈ cs, k ∈ r.faults → q.lane ≤ r.lane) ∧ (∀ q ∈ cs, ∀ j ∈ q.faults, k.rank ≤ j.rank) ∧
    (∀ l, l < 64 → (m.getLsbD l = true ↔ ∃ q ∈ cs, k ∈ q.faults ∧ q.lane = l)) ∧
    ((∀ q ∈ cs, k ∈ q.faults → q.access = x) ∨ x = 2)) ∧
  let faults := fun (i : Instr) (cs : Crew → Team → List Check) => ∀ f, DoesWhen i
    (fun s c t => s.crew? s.cur = some c ∧ c.spec = none ∧ laneFault (cs c t) = some f ∧ f.1 ≠ .demand)
    fun s c _ => raise s s.cur { kind := f.1, resume := c.pc, fault := c.pc, word := wordOf i, addr := BitVec.ofNat 64 f.2.1, mask := f.2.2.1,
                                 detail := BitVec.ofNat 64 f.2.2.2 }
  (∀ d a b, faults (.ld d a b) fun c t => laneChecks t true false true true (memSize c.mode) (memSize c.mode) (laneAddrs c t a b)) ∧
  (∀ d a b, faults (.st d a b) fun c t => laneChecks t false true true true (memSize c.mode) (memSize c.mode) (laneAddrs c t a b)) ∧
  (∀ d a, faults (.shape d a) fun c t => laneChecks t true false true false 64 64 [(0, (c.getS a).toNat)]) ∧
  (∀ d a b, faults (.cpy8 d a b) fun c t => laneChecks t true false true false 8 8 (pairAddrs c t b) ++
    laneChecks t false true true false 8 8 (pairAddrs c t a)) ∧
  (∀ d a b, faults (.aadd d a b) fun c t => atomicChecks .add c.mode t (laneAddrs c t a b)) ∧
  (∀ d a b, faults (.acas d a b) fun c t => atomicChecks .cas c.mode t (laneAddrs c t a b))

/-- SHAPE (R203) issues. PREF (R204) is a hint: no byte, crew, team or operation changes but the crew's program counter. FLUSH (R205) issues with
the parts of its range in the team's extents, is counted at once for a length of 0, and takes an operand trap for one above 2^32. FENCE (R221,
R222) at crew scope completes at once, at any other once every outstanding operation is performed and every bulk command has started, and an
acquire at quad scope or wider then applies the invalidations that the core has received; while an older load of the crew is not performed, an acquire, a release or both wait.
REGION closes the open region and opens one (R357, R358). -/
def Obligations.ShapesFencesRegions : Prop :=
  (∀ d a, DoesWhen (.shape d a) (fun _ c t => accessFaults t true false true false 64 (c.getS a).toNat 64 = []) fun s c t =>
    retire (addOp s { crew := s.cur, team := c.team, core := coreOf s.cur, cls := some .load, kind := .shape d.toNat (c.getS a).toNat,
                      accs := [mkAcc t true false 0 0 (c.getS a).toNat 64], pc := c.pc, word := wordOf (.shape d a) }) c) ∧
  (∀ l a b, Gives (.pref l a b) (fun _ _ _ => True) fun s c _ s' => ∃ s1, s' = retire s1 c ∧ SameBytes s s1 ∧ s1.crews = s.crews ∧
    s1.teams = s.teams ∧ s1.ops = s.ops ∧ s1.poison = s.poison ∧ s1.wide = s.wide ∧ s1.entries = s.entries) ∧
  (∀ l a b, DoesWhen (.pref l a b) (fun _ c t => ∀ k ∈ c.actives t.width, placeOf (laneAddr c a b k).toNat ≠ .global ∨
      checkByte t true false (laneAddr c a b k).toNat ≠ none) fun s c _ => retire s c) ∧
  (∀ a b, DoesWhen (.flush a b) (fun _ c _ => c.getS b = 0) fun s c _ =>
    retire (addDone s s.cur c .store .store (wordOf (.flush a b))) c) ∧
  (∀ a b, TrapsWhen (.flush a b) (fun _ c _ => 2 ^ 32 < (c.getS b).toNat) .operand) ∧
  (∀ a b, Gives (.flush a b) (fun _ c t => c.getS b ≠ 0 ∧ (c.getS b).toNat ≤ 2 ^ 32 ∧ (c.getS a).toNat + (c.getS b).toNat ≤ 0xFFFF0000000000 ∧
      (c.getS a).toNat + (c.getS b).toNat ≤ coveredTo t.extents t.extents.length (c.getS a).toNat) fun s c t s' =>
    ∃ spans, s' = retire (addOp s { crew := s.cur, team := c.team, core := coreOf s.cur, cls := some .store, kind := .flush spans, pc := c.pc,
                                    word := wordOf (.flush a b) }) c ∧
      ∀ x, (c.getS a).toNat ≤ x → x < (c.getS a).toNat + (c.getS b).toNat → ∀ e ∈ t.extents, e.present = true → e.has x = true →
        ∃ p ∈ spans, p.1 ≤ e.plo + (x - e.vlo) ∧ e.plo + (x - e.vlo) < p.1 + p.2.1 ∧ p.2.2 = e.home) ∧
  (∀ f o, DoesWhen (.fence f o) (fun s c _ => Outside s c ∧ (f = 0 ∨ Settled s)) fun s c _ =>
    retire (if o.getLsbD 0 = true ∧ 2 ≤ f.toNat then applyInvs s (coreOf s.cur) else s)
      { c with acqAt := if o.getLsbD 0 then s.nextOp else c.acqAt }) ∧
  (∀ f o, f ≠ 0 → o ≠ 0 → DoesWhen (.fence f o) (fun s c _ => Outside s c ∧
      ∃ p ∈ s.ops, p.1 < s.nextOp ∧ p.2.crew = s.cur ∧ p.2.kind = .load ∧ p.2.performed = false) fun s c _ => s.setCrew s.cur c) ∧
  Does .regionClose (fun s c _ => retire (closeRegion s s.cur c.pc (wordOf .regionClose)) { c with region := none, buf := [] }) ∧
  Does .regionOpen (fun s c _ =>
    let s := closeRegion s s.cur c.pc (wordOf .regionOpen)
    retire s { c with buf := [], region := some {
      opener := c.pc, first := s.nextOp, sems := [],
      cp := { pc := c.pc + 4, sregs := c.sregs, mode := c.mode, gang := c.gang, gangMarks := c.gangMarks, rndcnt := c.rndcnt } } }) ∧
  (∀ (s : State) k c pc w, s.crew? k = some c → c.region = none → closeRegion s k pc w = s) ∧
  (∀ (s : State) k c pc w, s.crew? k = some c → c.region ≠ none → c.buf ≠ [] → ∃ o, Tbl.get? (closeRegion s k pc w).ops s.nextOp = some o ∧
    o.crew = k ∧ o.cls = some .store ∧ o.kind = .release pc ∧ o.accs = c.buf)

/-- CPY4, CPY8 and CPY16 (R239): when no block meets a fault, the copy issues with one block for each active lane, of which the highest lane's
is written where several share a destination, takes its destination lines (R223), as which an 8-byte load may have read one of its words (R207), and closes the region when a destination is global (R234);
with no active lane it is counted at once. CPYT (R240): likewise for the elements of a box. -/
def Obligations.CopiesIssue : Prop :=
  let out := fun (i : Instr) (s : State) (c : Crew) (sem : Nat) (global : Bool) (parts : List CopyPart) =>
    let dst := (parts.map (·.dst)).filter fun a => !a.clip
    let s1 := if global then closeRegion s s.cur c.pc (wordOf i) else s
    let c1 := if global then { c with region := none, buf := [] } else { c with buf := clearBuf c.buf (dst.filter fun a => inScratch a.pa) }
    let at_ := fun (f : State → Nat → Nat → State) (s : State) => dst.foldl (fun s a => let b := landing s c.team .store a; f s b.pa b.size) s
    at_ (fun s pa z => ownLines s (some (coreOf s.cur)) pa z)
      (addOp (at_ raceLoads (retire s1 c1)) {
        crew := s.cur, team := c.team, core := coreOf s.cur, cls := some .copy, kind := .copy sem parts, pc := c.pc,
        word := wordOf i, inRegion := c1.region.isSome })
  let lanes := fun (i : Instr) (z : Nat) (d : BitVec 6) (a b : VReg) => DoesWhen i
    (fun _ c t => c.actives t.width ≠ [] ∧ ∀ l ∈ c.actives t.width, accessFaults t true false true false z (c.getPair b.toNat l).toNat z = [] ∧
      accessFaults t false true true false z (c.getPair a.toNat l).toNat z = [])
    fun s c t => out i s c d.toNat ((c.actives t.width).any fun l => placeOf (c.getPair a.toNat l).toNat == .global)
      (keepLastPart ((c.actives t.width).map fun l => { row := l, src := some (mkAcc t true false l 0 (c.getPair b.toNat l).toNat z),
                                                         dst := mkAcc t false true l 0 (c.getPair a.toNat l).toNat z }))
  (∀ d a b, lanes (.cpy4 d a b) 4 d a b ∧ lanes (.cpy8 d a b) 8 d a b ∧ lanes (.cpy16 d a b) 16 d a b) ∧
  (∀ (d : BitVec 6) a b, ∀ i ∈ [Instr.cpy4 d a b, .cpy8 d a b, .cpy16 d a b], DoesWhen i (fun _ c t => c.actives t.width = []) fun s c _ =>
    retire (addDone s s.cur c .copy (.copy d.toNat []) (wordOf i)) c) ∧
  (∀ d h b sh, DoesWhen (.cpyt d h b) (fun _ c t =>
      let w := c.getS (sregAt b sh.rank)
      shapeHeld c h.toNat = false ∧ Tbl.get? t.shapes h.toNat = some sh ∧ b.toNat + sh.rank ≤ 63 ∧ w.extractLsb' 56 7 = 0 ∧
      (w.extractLsb' 0 56).toNat % 16 = 0 ∧
      tensorFault t sh (w.extractLsb' 0 56).toNat (w.getLsbD 63) (tensorElems c sh b (w.extractLsb' 0 56).toNat) = none)
    fun s c t =>
      let w := c.getS (sregAt b sh.rank)
      let dense := (w.extractLsb' 0 56).toNat
      let es := tensorElems c sh b dense
      out (.cpyt d h b) s c d.toNat (if w.getLsbD 63 then placeOf sh.base == .global else placeOf dense == .global)
        (if w.getLsbD 63 then es.filterMap fun e => e.sh.map fun va =>
            { row := e.row, src := some (mkAcc t true false e.row 0 e.dense sh.z), dst := mkAcc t false true e.row 0 va sh.z }
         else es.map fun e => { row := e.row, src := e.sh.map fun va => mkAcc t true false e.row 0 va sh.z,
                                dst := mkAcc t false true e.row 0 e.dense sh.z }))

/-- SEMSET (R243) sets the count once the crew's older operations are performed; SEMACQ (R242) takes its count when that is there and nobody
waits before it, takes nothing for a count of zero, and otherwise joins the line and stays in it; while an older acquire of the crew is not
performed it waits (R216). SEMTRY and SEMRD (R244) do not wait: SEMTRY takes one and gives the count that it found, or gives zero when there is
none or a crew waits. -/
def Obligations.Semaphores : Prop :=
  let count := fun (t : Team) (d : BitVec 6) => (Sparse.get t.sems d.toNat).toNat
  let free := fun (s : State) => ∀ p ∈ s.ops, p.2.crew = s.cur → p.2.performed = true ∨ (p.2.acq = false ∧ p.2.rel = false)
  let taken := fun (i : Instr) (d : BitVec 6) (p : State → Crew → Team → Prop) (k : Crew → Nat) (f : Crew → Team → Crew) => Gives i
    (fun s c t => s.team? c.team = some t ∧ free s ∧ p s c t) fun s c t s' =>
      ∃ t', s' = (retire s { (f c t).noteSem d.toNat (-(k c : Int)) with acqAt := s.nextOp }).setTeam c.team t' ∧
        t' = { t with sems := t'.sems, semWait := t.semWait.filter fun x => x.2 != s.cur } ∧
        count t' d + k c = count t d ∧ ∀ j, j ≠ d.toNat → Sparse.get t'.sems j = Sparse.get t.sems j
  let need := fun (a : SReg) (c : Crew) => if a = 0 then 1 else (c.getS a).toNat
  (∀ d a, DoesWhen (.semset d a) (fun s c t => Outside s c ∧ s.team? c.team = some t ∧ Settled s ∧
      (c.getS a).toNat < 2 ^ 32) fun s c t => (retire s c).setTeam c.team { t with sems := Sparse.set t.sems d.toNat ((c.getS a).setWidth 32) }) ∧
  (∀ d a, TrapsWhen (.semset d a) (fun _ c _ => 2 ^ 32 ≤ (c.getS a).toNat) .operand) ∧
  (∀ d a, TrapsWhen (.semacq d a) (fun _ c _ => 2 ^ 32 ≤ need a c) .operand) ∧
  (∀ d a, taken (.semacq d a) d (fun s c t => (match t.semWait.find? fun x => x.1 == d.toNat with | none => True | some x => x.2 = s.cur) ∧
    0 < need a c ∧ need a c ≤ count t d) (need a) (fun c _ => c)) ∧
  (∀ d a, DoesWhen (.semacq d a) (fun _ c _ => need a c = 0) fun s c _ => retire s c) ∧
  (∀ d a, DoesWhen (.semacq d a) (fun s c t => s.team? c.team = some t ∧ free s ∧ (∀ x ∈ t.semWait, x.1 = d.toNat → x.2 ≠ s.cur) ∧
      0 < need a c ∧ need a c < 2 ^ 32 ∧ (count t d < need a c ∨ ∃ x ∈ t.semWait, x.1 = d.toNat))
    fun s c t => s.setTeam c.team { t with semWait := t.semWait ++ [(d.toNat, s.cur)] }) ∧
  (∀ d a, DoesWhen (.semacq d a) (fun s c t => 0 < need a c ∧ need a c < 2 ^ 32 ∧
      ((∃ p ∈ s.ops, p.1 < s.nextOp ∧ p.2.crew = s.cur ∧ p.2.acq = true ∧ p.2.performed = false) ∨
        (count t d < need a c ∧ ∃ x ∈ t.semWait, x.1 = d.toNat ∧ x.2 = s.cur))) fun s _ _ => s) ∧
  (∀ d a, taken (.semtry d a) a (fun _ _ t => (∀ x ∈ t.semWait, x.1 ≠ a.toNat) ∧ count t a ≠ 0) (fun _ => 1)
    fun c t => c.setS d ((Sparse.get t.sems a.toNat).setWidth 64)) ∧
  (∀ d a, DoesWhen (.semtry d a) (fun _ _ t => count t a = 0 ∨ ∃ x ∈ t.semWait, x.1 = a.toNat) fun s c _ => retire s (c.setS d 0)) ∧
  (∀ d a, Does (.semrd d a) fun s c t => retire s (c.setS d ((Sparse.get t.sems a.toNat).setWidth 64)))

/-- BINW (R246): when header and descriptors can be accessed, its lanes wait in the engine with their bins and tokens; with no active lane it is
counted at once. BULK (R250): a record that can be read and whose spans can be accessed is queued, or its status says that it is malformed (2),
takes more than 16 runs (3) or finds its queue full (1). -/
def Obligations.BinsAndBulk : Prop :=
  let closed := fun (c : Crew) => { c with region := none, buf := [] }
  let fine := fun (c : Crew) (t : Team) (b : SReg) => (c.getS b).extractLsb' 56 8 = 0 ∧ ((c.getS b).extractLsb' 0 6).toNat < t.nsem
  (∀ d a b, DoesWhen (.binw d a b) (fun _ c t =>
      let table := ((c.getS b).extractLsb' 6 50).toNat * 64
      fine c t b ∧ c.actives t.width ≠ [] ∧
      ∀ k ∈ binChecks c t a table, k.faults = [] ∧ counterPage (mkAcc t true (k.access != 0) 0 0 k.va 32) = true)
    fun s c t => retire (addOp (closeRegion s s.cur c.pc (wordOf (.binw d a b)))
      { crew := s.cur, team := c.team, core := coreOf s.cur, cls := some .copy, pc := c.pc, word := wordOf (.binw d a b),
        kind := .binw { table := ((c.getS b).extractLsb' 6 50).toNat * 64, sem := ((c.getS b).extractLsb' 0 6).toNat, reg := d.toNat,
                        redirect := [], res := [], bad := [], pois := [],
                        todo := (c.actives t.width).map fun l => (l, c.getV a.toNat l, c.getV d.toNat l) } })
      (closed c)) ∧
  (∀ d a b, DoesWhen (.binw d a b) (fun _ c t => fine c t b ∧ c.actives t.width = []) fun s c _ =>
    retire (addDone (closeRegion s s.cur c.pc (wordOf (.binw d a b))) s.cur (closed c) .copy (.copy ((c.getS b).extractLsb' 0 6).toNat [])
      (wordOf (.binw d a b))) (closed c)) ∧
  (∀ d a r bad g, Gives (.bulk d a) (fun s c t =>
      accessFaults t true false true false 64 (c.getS a).toNat 64 = [] ∧
      readNow s s.cur c (mkAcc t true false 0 0 (c.getS a).toNat 64) = some (.ok (r, bad)) ∧ bad = false ∧
      (g = if cmdOp r = 3 then groupOf s (funcOfCtx s t.ctx) r else none) ∧
      ∀ p ∈ cmdSpans r g (coreOf s.cur / 32), accessFaults t (!p.st) p.st false false 1 p.va p.len = [])
    fun s c t s' =>
      let die := coreOf s.cur / 32
      let runs := fun (k : Nat) => spanRuns t (cmdSpans r g die) k
      let func := funcOfCtx s t.ctx
      if cmdBad r (g.map fun g => max 1 g.members.length) = true then s' = retire s (c.setS d 2)
      else if 16 < (runs 1).length + (runs 2).length + (runs 0).length + (runs 3).length then s' = retire s (c.setS d 3)
      else if 64 ≤ (waitingCmds s die (cmdSet r) func).length then s' = retire s (c.setS d 1)
      else c.region = none → s.crew? s.cur = some c → s' = { noteTime (retire s ({ c with buf := [] }.setS d 0)) die with
        nextId := s.nextId + 1,
        bulk := { s.bulk with cmds := Tbl.put s.bulk.cmds s.nextId {
            func := func, ctx := t.ctx, die := die, core := coreOf s.cur, entry := some t.entry, rec_ := r, src := runs 1,
            dst := runs 2, compl := runs 0, tag := runs 3, stamp := sendTime s die (coreOf s.cur % 32),
            issuer := some (c.team, c.idx, s.nextOp) } } }) ∧
  (∀ d a, DoesWhen (.bulk d a) (fun s c t => s.crew? s.cur = some c ∧ c.spec = none ∧
      accessFaults t true false true false 64 (c.getS a).toNat 64 = [] ∧
      ∃ r, readNow s s.cur c (mkAcc t true false 0 0 (c.getS a).toNat 64) = some (.ok (r, true)))
    fun s c _ => raise s s.cur { kind := .poison, resume := c.pc, fault := c.pc, word := wordOf (.bulk d a), addr := c.getS a, mask := 1 })

/-- The matrix instructions issue their tile steps, whose operands are read at issue (R266, R268, R269): TILEZ, TLD (R282), MMAS (R281), TDRN
and TDRM (R283, R284), TDRP (R285). -/
def Obligations.MatrixStepsIssue : Prop :=
  let closed := fun (c : Crew) => { c with region := none, buf := [] }
  let step := fun (i : Instr) (d : BitVec 6) (s : State) (c : Crew) (st : TileStep) =>
    retire (addOp (closeRegion s s.cur c.pc (wordOf i)) {
      crew := s.cur, team := c.team, core := coreOf s.cur, cls := some .tile,
      kind := .tile d.toNat st, pc := c.pc, word := wordOf i }) (closed c)
  let drain := fun (i : Instr) (d : BitVec 6) (s : State) (c : Crew) (t : Team) (va pitch : Nat) =>
    let as := ((List.range (mRows c.mode)).zip (tileRows s t d.toNat (mRows c.mode))).flatMap fun p =>
      (List.range ((drainRow c p.1 p.2).length / 8)).map fun k =>
        { mkAcc t false true p.1 k (va + p.1 * pitch + 8 * k) 8 with data := BitVec.ofNat 64 (fieldOf (drainRow c p.1 p.2) (8 * k) 8) }
    let at_ := fun (f : State → Nat → Nat → State) (s : State) => as.foldl (fun s a => let b := landing s c.team .store a; f s b.pa b.size) s
    at_ (fun s pa z => ownLines s (some (coreOf s.cur)) pa z)
      (retire (addOp (at_ raceLoads (closeRegion s s.cur c.pc (wordOf i))) {
        crew := s.cur, team := c.team, core := coreOf s.cur, cls := some .tile,
        kind := .drain d.toNat (tileBad t d.toNat (mRows c.mode)), accs := as, pc := c.pc, word := wordOf i })
        ((closed c).countRnd (tyOf c.mode != 0)))
  (∀ d, Does (.tilez d) fun s c _ => step (.tilez d) d s c .zero) ∧
  (∀ d a, DoesWhen (.tld d a) (fun s c t => scratchFault t (c.getS a).toNat 128 4096 0 = none ∧
      scratchReady s s.cur c (scratchAccs t (c.getS a).toNat 4096) = true) fun s c t =>
    step (.tld d a) d s c (.load (wordsOf (scratchBytes s s.cur c (scratchAccs t (c.getS a).toNat 4096)) 1024))) ∧
  (∀ d a b, DoesWhen (.mmas d a b) (fun s c t =>
      let f4 := tyOf c.mode == 5
      scratchFault t (c.getS a).toNat 64 (blockBytes4 f4 (mRows c.mode)) 0 = none ∧ scratchFault t (c.getS b).toNat 64 (blockBytes4 f4 32) 0 = none ∧
      scratchReady s s.cur c (scratchAccs t (c.getS a).toNat (blockBytes4 f4 (mRows c.mode)) ++
        scratchAccs t (c.getS b).toNat (blockBytes4 f4 32)) = true) fun s c t =>
    let f4 := tyOf c.mode == 5
    let x := scratchBytes s s.cur c (scratchAccs t (c.getS a).toNat (blockBytes4 f4 (mRows c.mode)))
    let y := scratchBytes s s.cur c (scratchAccs t (c.getS b).toNat (blockBytes4 f4 32))
    step (.mmas d a b) d s c (.mac (mRows c.mode) (mType c.mode) (mStype c.mode)
      [{ arow := rowsOf x (mRows c.mode), ascale := scalesOf f4 x (mRows c.mode), bcol := rowsOf y 32, bscale := scalesOf f4 y 32 }])) ∧
  (∀ d a, DoesWhen (.tdrn d a) (fun _ c t => scratchFault t (c.getS a).toNat 16 (mRows c.mode * drainLen c.mode) 1 = none) fun s c t =>
    drain (.tdrn d a) d s c t (c.getS a).toNat (drainLen c.mode)) ∧
  (∀ d a b, DoesWhen (.tdrm d a b) (fun _ c t => (c.getS b).toNat % 16 = 0 ∧ drainLen c.mode ≤ (c.getS b).toNat ∧ (c.getS b).toNat < 2 ^ 32 ∧
      ∀ i, i < mRows c.mode → accessFaults t false true false false 16 ((c.getS a).toNat + i * (c.getS b).toNat) (drainLen c.mode) = [])
    fun s c t => drain (.tdrm d a b) d s c t (c.getS a).toNat (c.getS b).toNat) ∧
  (∀ d a, DoesWhen (.tdrp d a) (fun s c t =>
      let w := c.getS a
      Outside s c ∧ Recorded s c ∧ (∃ e, Tbl.get? s.entries t.entry = some e ∧ (w.extractLsb' 32 32).toNat < e.rec_.teams) ∧
      w.getLsbD 30 = false ∧ w.extractLsb' 22 2 = 0 ∧ w.extractLsb' 11 5 = 0 ∧ (w.getLsbD 31 = true → w.extractLsb' 0 11 = 0)) fun s c t =>
    let w := c.getS a
    emitS (retire (addOp s {
        crew := s.cur, team := c.team, core := coreOf s.cur, cls := some .tile, pc := c.pc, word := wordOf (.tdrp d a),
        kind := .drainAdd {
          pteam := (w.extractLsb' 32 32).toNat, find := w.getLsbD 31, psem := (w.extractLsb' 24 6).toNat,
          ptile := (w.extractLsb' 16 6).toNat, pcore := (w.extractLsb' 0 11).toNat, rows := tileRows s t d.toNat (mRows c.mode),
          pois := tileBad t d.toNat (mRows c.mode), verdict := none } }) c) s.cur 0x31 (d.setWidth 8) (w.extractLsb' 0 32))

/-- GANG (R278): a well-formed value becomes the crew's gang register and clears its marks (R275), and another is a precise operand trap; entries
of the Trivet that wait for the crew with another value fail (R274), for a crew that speculates at its commit (log entry 93). An MMAG on a marked member set takes its gang fault (R275). MMAG (R273, R280): a member that
is not the last waits at the Trivet with its arrival record; when the last member arrives and every operand can be read, the entry is
released: a step of class TLC issues for each tile of the gang. -/
def Obligations.GangInstructions : Prop :=
  let fine := fun (c : Crew) (t : Team) (g : DWord) => g = 0 ∨ (2 ≤ gangN g ∧ gangN g ≤ 6 ∧ (∀ i, gangN g ≤ i → i < 6 → gangAt g i = 0) ∧
    (∀ m ∈ gangMembers g, m < t.crews.length) ∧ (gangMembers g).Nodup ∧ c.idx ∈ gangMembers g)
  let waitsFor := fun (c : Crew) (g : DWord) (r : Rendezvous) => listsCrew c.team c.idx r && r.arrived.all fun x => x.gang != g
  (∀ a, DoesWhen (.gang a) (fun s c t => (∀ r ∈ (s.core (coreOf s.cur)).trivet, waitsFor c (c.getS a) r = false) ∧ fine c t (c.getS a) ∧ c.spec = none) fun s c _ =>
    retire s { c with gang := c.getS a, gangMarks := [] }) ∧
  (∀ a, DoesWhen (.gang a) (fun s c t => (∃ r ∈ (s.core (coreOf s.cur)).trivet, waitsFor c (c.getS a) r = true) ∧ fine c t (c.getS a) ∧
      c.spec = none) fun s c _ =>
    failGangs 65 (retire s { c with gang := c.getS a, gangMarks := [] }) (coreOf s.cur) (waitsFor c (c.getS a)) 4 (some c.idx)) ∧
  (∀ a sp, DoesWhen (.gang a) (fun _ c t => fine c t (c.getS a) ∧ c.spec = some sp) fun s c _ =>
    retire s { c with gang := c.getS a, gangMarks := [], spec := some { sp with gangs := sp.gangs ++ [c.getS a] } }) ∧
  (∀ a, TrapsWhen (.gang a) (fun _ c t => ¬ fine c t (c.getS a)) .operand) ∧
  let arrival := fun (s : State) (c : Crew) (d : BitVec 6) (a : SReg) (b : VReg) =>
    ({ crew := s.cur, gang := c.gang, tile := d.toNat, mode := c.mode, reg := b.toNat, addr := c.getS a } : Arrival)
  let may := fun (s : State) (c : Crew) (t : Team) (d : BitVec 6) (a : SReg) (b : VReg) (here : List Arrival) =>
    Outside s c ∧ 2 ≤ gangN c.gang ∧ d.toNat + gangN c.gang ≤ t.ntile ∧ b.toNat + sliceRegs (tyOf c.mode == 5) t.width ≤ t.nvreg ∧
    scratchFault t (c.getS a).toNat 64 (gangN c.gang * blockStride (tyOf c.mode == 5) (mRows c.mode)) 0 = none ∧ (∀ m ∈ c.gangMarks, gangSet m.2 ≠ gangSet c.gang) ∧
    (match (s.core (coreOf s.cur)).trivet.find? fun r => r.team == c.team && r.members == gangSet c.gang with
     | some r => r.arrived = here | none => here = []) ∧
    (∀ k ∈ t.crews, ∀ x, s.crew? k = some x → x.idx ∈ gangSet c.gang → x.wait ≠ .ended) ∧
    ∀ x ∈ here, x.agrees (arrival s c d a b) = true
  (∀ d a b m, DoesWhen (.mmag d a b) (fun s c t => s.crew? s.cur = some c ∧ c.spec = none ∧ 2 ≤ gangN c.gang ∧
      d.toNat + gangN c.gang ≤ t.ntile ∧ b.toNat + sliceRegs (tyOf c.mode == 5) t.width ≤ t.nvreg ∧
      scratchFault t (c.getS a).toNat 64 (gangN c.gang * blockStride (tyOf c.mode == 5) (mRows c.mode)) 0 = none ∧
      (c.gangMarks.find? fun m => gangSet m.2 == gangSet c.gang) = some m) fun s c _ =>
    raise (s.setCrew s.cur { c with gangMarks := c.gangMarks.filter (· != m) }) s.cur
      { kind := .gang, cause := m.1, resume := c.pc, fault := c.pc, word := wordOf (.mmag d a b), detail := c.gang }) ∧
  (∀ d a b here, DoesWhen (.mmag d a b) (fun s c t => may s c t d a b here ∧ here.length + 1 < (gangSet c.gang).length) fun s c _ =>
    (s.setCrew s.cur { c with wait := .trivet }).modCore (coreOf s.cur) fun k => { k with
      trivet := k.trivet.filter (fun r => !(r.team == c.team && r.members == gangSet c.gang)) ++
        [{ team := c.team, members := gangSet c.gang, arrived := here ++ [arrival s c d a b] }] }) ∧
  (∀ d a b here, Gives (.mmag d a b) (fun s c t => may s c t d a b here ∧ (gangSet c.gang).length ≤ here.length + 1 ∧
      (s.func (funcOfTeam s c.team)).trace.cfg.getLsbD 0 = false ∧ gangReady s t (here ++ [arrival s c d a b]) = true ∧
      (∀ x ∈ here, x.crew ≠ s.cur ∧ ∃ y, s.crew? x.crew = some y ∧ y.team = c.team) ∧
      ∀ p, p < gangN c.gang → (arrivalOf s (here ++ [arrival s c d a b]) c.gang p).isSome = true) fun s c t s' =>
    s' = releaseGang ((s.setCrew s.cur c).modCore (coreOf s.cur) fun k => { k with trivet := k.trivet.filter fun r =>
      !(r.team == c.team && r.members == gangSet c.gang) }) t (here ++ [arrival s c d a b]) c.gang ∧ s'.nextOp = s.nextOp + gangN c.gang)

/-- The atomic instructions (R290, R291): when no access of an active lane meets a fault, the crew's open region closes and an operation of
class LDC issues with the operand, compare value and destination of each lane, ordered as MODE.ORD says; with no active lane it is counted at
once (R66). -/
def Obligations.AtomicsIssue : Prop :=
  let issues := fun (i : Instr) (op : AtomicOp) (d : VReg) (a : SReg) (b : VReg) =>
    DoesWhen i (fun _ c t => c.actives t.width = []) (fun s c _ =>
      retire (addDone s s.cur c .load (.atomic op (mType c.mode) d.toNat) (wordOf i)) c) ∧
    DoesWhen i (fun _ c t => c.actives t.width ≠ [] ∧ ∀ k ∈ atomicChecks op c.mode t (laneAddrs c t a b), k.faults = []) fun s c t =>
    retire (addOp (closeRegion s s.cur c.pc (wordOf i))
      { crew := s.cur, team := c.team, core := coreOf s.cur, cls := some .load, kind := .atomic op (mType c.mode) d.toNat,
        acq := (mOrd c.mode).getLsbD 0, rel := (mOrd c.mode).getLsbD 1, scope := (mScope c.mode).toNat,
        accs := (c.actives t.width).map fun l => atomicAcc op c t d l (laneAddr c a b l).toNat, pc := c.pc, word := wordOf i })
      { c with region := none, buf := [] }
  ∀ d a b, issues (.aadd d a b) .add d a b ∧ issues (.amin d a b) .min d a b ∧ issues (.amax d a b) .max d a b ∧
    issues (.aand d a b) .and d a b ∧ issues (.aor d a b) .or d a b ∧ issues (.axor d a b) .xor d a b ∧
    issues (.axch d a b) .xch d a b ∧ issues (.acas d a b) .cas d a b

/-- WAITC (R306, R307): when its condition holds of the value read it retires, an acquire as MODE.ORD and MODE.SCOPE say; when it does not,
it has issued and the crew waits on a monitor. A poisoned location is a precise poison trap, a refused one a precise remote-permission trap; while older work of
the crew comes first it waits at issue. -/
def Obligations.ConditionWaits : Prop :=
  let value := fun (c : Crew) (b : SReg) => (c.getS b).toNat % 2 ^ (8 * atomicSize (tyOf c.mode))
  let acc := fun (c : Crew) (t : Team) (a : SReg) => mkAcc t true false 0 0 (c.getS a).toNat (atomicSize (tyOf c.mode))
  let line := fun (s : State) (c : Crew) (t : Team) (a : SReg) => lineOf (route s (landing s c.team .load (acc c t a)).pa)
  let reads := fun (s : State) (c : Crew) (t : Team) (a : SReg) (r : Option (Except Nat (Nat × Bool))) =>
    accessFaults t true false false false (atomicSize (tyOf c.mode)) (c.getS a).toNat (atomicSize (tyOf c.mode)) = [] ∧
    waitRead s s.cur c.team (mOrd c.mode == 1) (acc c t a) = r
  (∀ k a b x, DoesWhen (.waitc k a b) (fun s c t => Outside s c ∧ reads s c t a (some (.ok (x, false))) ∧
      condHolds k (atomicSize (tyOf c.mode)) x (value c b) = true) fun s c t =>
    let s1 := dropStale s (coreOf s.cur) (line s c t a)
    retire (if mOrd c.mode = 1 ∧ 2 ≤ (mScope c.mode).toNat then applyInvs s1 (coreOf s.cur) else s1) (c.acquired s)) ∧
  (∀ k a b x, DoesWhen (.waitc k a b) (fun s c t => Outside s c ∧ reads s c t a (some (.ok (x, false))) ∧
      condHolds k (atomicSize (tyOf c.mode)) x (value c b) = false) fun s c t =>
    { (dropStale s (coreOf s.cur) (line s c t a)).setCrew s.cur { c with wait := .monitor, issued := c.issued + 1 } with
      monitors := s.monitors ++ [{
        crew := s.cur, team := c.team, acc := acc c t a, cond := k, value := BitVec.ofNat 64 (value c b),
        acq := mOrd c.mode == 1, scope := (mScope c.mode).toNat, start := s.time.master,
        polled := !(counterPage (acc c t a) && monitorFree s c.team (acc c t a).pa) }] }) ∧
  (∀ k a b x, DoesWhen (.waitc k a b) (fun s c t => Outside s c ∧ reads s c t a (some (.ok (x, true)))) fun s c _ =>
    raise s s.cur { kind := .poison, resume := c.pc, fault := c.pc, word := wordOf (.waitc k a b), addr := c.getS a, mask := 1 }) ∧
  (∀ k a b r, DoesWhen (.waitc k a b) (fun s c t => Outside s c ∧ reads s c t a (some (.error r))) fun s c t =>
    raise s s.cur { kind := .remote, cause := BitVec.ofNat 8 r, resume := c.pc, fault := c.pc, word := wordOf (.waitc k a b), addr := c.getS a,
                    mask := 1, detail := BitVec.ofNat 64 (podWin (acc c t a).pa * 2 ^ 10 + podPeer (acc c t a).pa) }) ∧
  (∀ k a b, DoesWhen (.waitc k a b) (fun s c t => Outside s c ∧ reads s c t a none) fun s c _ => s.setCrew s.cur c) ∧
  (∀ k : BitVec 3, k.toNat < 6 → ∀ x y : BitVec 32, condHolds k 4 x.toNat y.toNat = true ↔ (match k.toNat with
    | 0 => x = y | 1 => x ≠ y | 2 => x.toInt < y.toInt | 3 => y.toInt ≤ x.toInt | 4 => x.toNat < y.toNat | _ => y.toNat ≤ x.toNat))

/-- BAR, BARS, BARA and BARD at a core barrier (R320, R322, R323): once older operations are performed and bulk commands started the arrival is counted, on an
unarmed barrier armed for every crew of the team; BARA records the phase it arrived in and BARD drops the crew; BAR waits for the phase, BARS
speculates past it from a checkpoint, and the arrival that makes the phase due completes it. A BAR after a BARA waits for the phase that the BARA
arrived in, and goes on at once when that is over. At a wide context the arrival is a message, and BAR waits (R312). BARI arms a barrier, changes
the count of one where nobody has arrived, and takes a barrier-state trap where somebody has and the count differs (R321). -/
def Obligations.BarrierArrivals : Prop :=
  let counted := fun (s : State) (_ : Crew) (t : Team) (d : BitVec 8) (op : ArriveOp) =>
    let b := Tbl.getD t.bars d.toNat {}
    { b with
      e := if b.armed then b.e else t.crews.length, armed := true, arr := b.arr + 1, drops := b.drops + (if op = .bard then 1 else 0),
      pend := if op = .bara then Tbl.put (Tbl.del b.pend s.cur) s.cur b.phase else Tbl.del b.pend s.cur,
      dropped := if op = .bard then setAdd b.dropped s.cur else b.dropped }
  let free := fun (s : State) (c : Crew) (t : Team) (d : BitVec 8) => Outside s c ∧ s.team? c.team = some t ∧ Settled s ∧
    ∀ m ∈ s.wideMsgs, m.crew = s.cur → m.handle ≠ d.toNat
  let may := fun (s : State) (c : Crew) (t : Team) (d : BitVec 8) => free s c t d ∧ d.toNat < 128 ∧
    Tbl.get? (Tbl.getD t.bars d.toNat {}).pend s.cur = none ∧ s.cur ∉ (Tbl.getD t.bars d.toNat {}).dropped
  let put := fun (s : State) (c : Crew) (t : Team) (d : BitVec 8) (op : ArriveOp) =>
    s.setTeam c.team { t with bars := Tbl.put t.bars d.toNat (counted s c t d op) }
  let due := fun (s : State) (c : Crew) (t : Team) (d : BitVec 8) (op : ArriveOp) => (counted s c t d op).arr = (counted s c t d op).e
  (∀ d, DoesWhen (.bar d) (fun s c t => may s c t d ∧ ¬ due s c t d .bar) fun s c t =>
    retire (put s c t d .bar) { c with wait := .barrier d.toNat (Tbl.getD t.bars d.toNat {}).phase }) ∧
  (∀ d, DoesWhen (.bars d) (fun s c t => may s c t d ∧ ¬ due s c t d .bars ∧ Recorded s c ∧
      c.rolled ≠ some (d.toNat, (Tbl.getD t.bars d.toNat {}).phase)) fun s c t =>
    retire (emitS ((put s c t d .bars).setCrew s.cur c) s.cur 0x12 d (Tbl.getD t.bars d.toNat {}).phase)
      { c with spec := some {
          handle := d.toNat, phase := (Tbl.getD t.bars d.toNat {}).phase, shadow := [], reads := [], first := s.nextOp, stopped := false,
          bars := c.pc, cp := { pc := c.pc + 4, sregs := c.sregs, mode := c.mode, gang := c.gang, gangMarks := c.gangMarks, rndcnt := c.rndcnt } } }) ∧
  (∀ d, DoesWhen (.bara d) (fun s c t => may s c t d ∧ ¬ due s c t d .bara) fun s c t => retire (put s c t d .bara) c) ∧
  (∀ d, DoesWhen (.bard d) (fun s c t => may s c t d ∧ ¬ due s c t d .bard) fun s c t => retire (put s c t d .bard) c) ∧
  (∀ d, ∀ x ∈ [(Instr.bar d, ArriveOp.bar), (.bars d, .bars), (.bara d, .bara), (.bard d, .bard)],
    DoesWhen x.1 (fun s c t => may s c t d ∧ due s c t d x.2) (fun s c t =>
      settleCore (retire (put s c t d x.2) (if x.2.waits then { c with acqAt := s.nextOp } else c)) c.team d.toNat) ∧
    DoesWhen x.1 (fun s c t => s.crew? s.cur = some c ∧ c.spec = none ∧ d.toNat < 128 ∧
      Tbl.get? (Tbl.getD t.bars d.toNat {}).pend s.cur = none ∧ s.cur ∈ (Tbl.getD t.bars d.toNat {}).dropped) fun s c t =>
      raise s s.cur { kind := .overArrival, resume := c.pc, fault := c.pc, word := wordOf x.1,
                      detail := BitVec.ofNat 64 ((Tbl.getD t.bars d.toNat {}).phase.toNat * 2 ^ 32 + d.toNat) }) ∧
  (∀ d p, DoesWhen (.bar d) (fun s c t => free s c t d ∧ d.toNat < 128 ∧ Tbl.get? (Tbl.getD t.bars d.toNat {}).pend s.cur = some p) fun s c t =>
    let b := Tbl.getD t.bars d.toNat {}
    retire (s.setTeam c.team { t with bars := Tbl.put t.bars d.toNat { b with pend := Tbl.del b.pend s.cur } })
      (if p = b.phase then { c with wait := .barrier d.toNat p } else { c with acqAt := s.nextOp })) ∧
  (∀ d, ∀ x ∈ [(Instr.bar d, ArriveOp.bar, WideWhat.arrive), (.bara d, .bara, .arriveSplit), (.bard d, .bard, .drop)],
    DoesWhen x.1 (fun s c t => free s c t d ∧ 128 ≤ d.toNat ∧ Tbl.get? (Tbl.getD s.wide (wideOf s t d.toNat) {}).pend s.cur = none ∧
      s.cur ∉ (Tbl.getD s.wide (wideOf s t d.toNat) {}).dropped) fun s c t =>
      let b := Tbl.getD s.wide (wideOf s t d.toNat) {}
      retire { s with
        wide := Tbl.put s.wide (wideOf s t d.toNat)
          { b with pend := if x.2.1 = .bara then Tbl.put (Tbl.del b.pend s.cur) s.cur b.phase else Tbl.del b.pend s.cur },
        wideMsgs := s.wideMsgs ++ [{ ctx := wideOf s t d.toNat, crew := s.cur, handle := d.toNat, what := x.2.2 }] }
        (if x.2.1 = .bar then { c with wait := .barrier d.toNat b.phase } else c)) ∧
  (∀ d a, DoesWhen (.bari d a) (fun s c t => Outside s c ∧ s.team? c.team = some t ∧ d.toNat < 128 ∧ 0 < (c.getS a).toNat ∧
      (c.getS a).toNat ≤ t.crews.length ∧
      if (Tbl.getD t.bars d.toNat {}).armed then (Tbl.getD t.bars d.toNat {}).arr = 0 ∨ (Tbl.getD t.bars d.toNat {}).e = (c.getS a).toNat
      else (Tbl.getD t.bars d.toNat {}).arr ≤ (c.getS a).toNat)
    fun s c t =>
      let b := Tbl.getD t.bars d.toNat {}
      settleCore (retire (s.setTeam c.team { t with bars := Tbl.put t.bars d.toNat { b with e := (c.getS a).toNat, armed := true } }) c)
        c.team d.toNat) ∧
  (∀ d a, DoesWhen (.bari d a) (fun s c t => Outside s c ∧ d.toNat < 128 ∧ 0 < (c.getS a).toNat ∧
      (c.getS a).toNat ≤ t.crews.length ∧
      if (Tbl.getD t.bars d.toNat {}).armed then (Tbl.getD t.bars d.toNat {}).arr ≠ 0 ∧ (Tbl.getD t.bars d.toNat {}).e ≠ (c.getS a).toNat
      else (c.getS a).toNat < (Tbl.getD t.bars d.toNat {}).arr)
    fun s c t => raise s s.cur { kind := .barrierState, resume := c.pc, fault := c.pc, word := wordOf (.bari d a),
                                 detail := BitVec.ofNat 64 ((Tbl.getD t.bars d.toNat {}).phase.toNat * 2 ^ 32 + d.toNat) }) ∧
  (∀ d a, DoesWhen (.bari d a) (fun s c _ => Outside s c ∧ 128 ≤ d.toNat ∧ 0 < (c.getS a).toNat ∧ (c.getS a).toNat < 2 ^ 24) fun s c t =>
    { s.setCrew s.cur { c with wait := .bari d.toNat } with
      wideMsgs := s.wideMsgs ++ [{ ctx := wideOf s t d.toNat, crew := s.cur, handle := d.toNat, what := .arm (c.getS a) }] }) ∧
  (∀ d a, TrapsWhen (.bari d a) (fun _ c t => c.getS a = 0 ∨ (if d.toNat < 128 then t.crews.length else 2 ^ 24 - 1) < (c.getS a).toNat) .operand)

/-- R314: when a phase of a core barrier is due, the next phase begins: the expected count loses the drops, nobody has arrived, and the crews
that waited for the phase go on (no crew that commits here has executed GANG in speculation, whose effect on the Trivet could stop one); the barrier
stays as it is while the phase is not due. -/
def Obligations.BarrierPhases : Prop :=
  (∀ (s : State) tid t d, s.team? tid = some t → (Tbl.getD t.bars d {}).armed = true →
    (Tbl.getD t.bars d {}).arr = (Tbl.getD t.bars d {}).e → d < 128 → (∀ p ∈ s.crews, ∀ sp, p.2.spec = some sp → sp.gangs = []) →
    let b := Tbl.getD t.bars d {}
    ∃ t' b', (settleCore s tid d).team? tid = some t' ∧ Tbl.get? t'.bars d = some b' ∧ b'.e = b.e - b.drops ∧ b'.arr = 0 ∧ b'.drops = 0 ∧
      b'.phase = b.phase + 1 ∧ (b'.armed = true ↔ b.e - b.drops ≠ 0) ∧
      ∀ k c, s.crew? k = some c → c.team = tid → c.spec = none → c.wait = .barrier d b.phase → ∃ c', (settleCore s tid d).crew? k = some c' ∧ c'.wait = .none) ∧
  ∀ (s : State) tid t d, s.team? tid = some t →
    ((Tbl.getD t.bars d {}).armed = false ∨ (Tbl.getD t.bars d {}).arr ≠ (Tbl.getD t.bars d {}).e) → settleCore s tid d = s

/-- LAUNCH (R347): a record that can be read is queued with status 0, refused as malformed with 2, or with 1 while the ready queue is full;
it waits while the front end of the queue is updated (R479).
TSPAWN (R351) reads its records, reserves a place and closes the open region; it then waits for what it releases, and goes on without reading
again; then it binds its task, and a place that the task does not take is released. A counter that is poisoned or malformed gives 5, one that is
armed 4. TDEP (R353) issues an ordered operation on its counter. -/
def Obligations.WorkInstructions : Prop :=
  let reads := fun (s : State) (c : Crew) (t : Team) (va n : Nat) (r : List Byte) =>
    accessFaults t true false true false n va n = [] ∧ readNow s s.cur c (mkAcc t true false 0 0 va n) = some (.ok (r, false))
  let begins := fun (a : SReg) (r q : List Byte) (s : State) (c : Crew) (t : Team) => Outside s c ∧ c.spawn = none ∧ reads s c t (c.getS a).toNat 128 r ∧
    (∀ k ∈ taskChecks t (taskOf r), k.1.faults = [] ∧ (k.2 = true → counterPage (mkAcc t true true 0 0 k.1.va 16) = true)) ∧
    readNow s s.cur c (mkAcc t true false 0 0 (taskOf r).lrec 256) = some (.ok (q, false))
  let binds := fun (d : SReg) (s : State) (c : Crew) (t : Team) (va : Nat) (k : TaskRec) (q : LaunchRec) =>
    let r := bindTask s t va k q
    retire (if r.2.toNat < 2 then r.1 else r.1.modCtx t.ctx fun x => { x with reserved := x.reserved - 1 }) ({ c with spawn := none }.setS d r.2)
  let settled := fun (s : State) (t : Team) (k : TaskRec) => Settled s ∧
    owner s s.nextOp (mkAcc t true true 0 0 k.cnt 16).pa 16 = none
  (∀ d a r, DoesWhen (.launch d a) (fun s c t => Outside s c ∧ reads s c t (c.getS a).toNat 256 r) fun s c t =>
    if launchOk r = false then retire s (c.setS d 2)
    else if frontHeld s (match Tbl.get? s.ctxs t.ctx with | some x => x.slice | none => 0) = true then s
    else if queueFull s t.ctx = true then retire s (c.setS d 1)
    else retire { s with
      entries := Tbl.put s.entries s.nextId { ctx := t.ctx, rec_ := launchOf r, addr := (c.getS a).toNat, after := some (s.cur, s.nextOp),
                                              arrival := s.nextId },
      nextId := s.nextId + 1 } (c.setS d 0)) ∧
  (∀ d a r q, DoesWhen (.tspawn d a) (fun s c t => begins a r q s c t ∧ ((taskOk r && launchOk q) = true → queueFull s t.ctx = false → settled s t (taskOf r)))
    fun s c t =>
      if (taskOk r && launchOk q) = false then retire s (c.setS d 3)
      else if queueFull s t.ctx = true then retire s (c.setS d 2)
      else binds d (s.modCtx t.ctx fun x => { x with reserved := x.reserved + 1 }) c t (c.getS a).toNat (taskOf r) (launchOf q)) ∧
  (∀ d a r q, DoesWhen (.tspawn d a) (fun s c t => begins a r q s c t ∧ (taskOk r && launchOk q) = true ∧ queueFull s t.ctx = false ∧
      ∃ p ∈ s.ops, p.2.crew = s.cur ∧ p.1 < s.nextOp ∧ p.2.performed = false ∧ p.2.kind.isEngine = false) fun s c t =>
    (s.modCtx t.ctx fun x => { x with reserved := x.reserved + 1 }).setCrew s.cur
      { c with spawn := some ((c.getS a).toNat, taskOf r, launchOf q) }) ∧
  (∀ d a va k q, DoesWhen (.tspawn d a) (fun s c t => c.spawn = some (va, k, q) ∧ c.fenceAt = none ∧ settled s t k) fun s c t =>
    binds d s c t va k q) ∧
  (∀ (s : State) t va k q, let a := mkAcc t true true 0 0 k.cnt 16
    ((anyPoison s a.pa 16 = true ∨ (readBlock s a.key a.pa).res = false) → bindTask s t va k q = (s, 5)) ∧
    (anyPoison s a.pa 16 = false → (readBlock s a.key a.pa).res = true → (readBlock s a.key a.pa).armed = true → bindTask s t va k q = (s, 4)) ∧
    (anyPoison s a.pa 16 = false → (readBlock s a.key a.pa).res = true → (readBlock s a.key a.pa).armed = false →
      (bindTask s t va k q).2 = if (readBlock s a.key a.pa).count ≤ 0 ∧ (readBlock s a.key a.pa).fired = false then 1 else 0)) ∧
  (∀ a b, DoesWhen (.tdep a b) (fun _ c t => -(2 ^ 31) ≤ (c.getS b).toInt ∧ (c.getS b).toInt ≤ 2 ^ 31 - 1 ∧
      accessFaults t true true false false 16 (c.getS a).toNat 16 = [] ∧
      counterPage (mkAcc t true true 0 0 (c.getS a).toNat 16) = true) fun s c t =>
    retire (addOp (closeRegion s s.cur c.pc (wordOf (.tdep a b)))
      { crew := s.cur, team := c.team, core := coreOf s.cur, cls := some .load, kind := .tdep (c.getS b).toInt,
        accs := [mkAcc t true true 0 0 (c.getS a).toNat 16], pc := c.pc, word := wordOf (.tdep a b), acq := true, rel := true, scope := 4 })
      { c with region := none, buf := [] })

/-- The trace instructions (R416 to R418): MARK and the anchor emit their records and go on; the gate and the class mask of the crew take
their new values; a drain retires once no record of the crew is on its way, and waits until then. An operand with other bits set is a precise
operand trap. -/
def Obligations.TraceInstructions : Prop :=
  (∀ d a, DoesWhen (.mark d a) (fun s c _ => s.crew? s.cur = some c ∧ Recorded s c) fun s c _ =>
    retire (emitS s s.cur 0x40 d ((c.getS a).setWidth 32)) c) ∧
  (∀ a, DoesWhen (.trctlGate a) (fun _ c _ => (c.getS a).toNat < 2) fun s c _ => retire s { c with gate := (c.getS a).getLsbD 0 }) ∧
  (∀ a, DoesWhen (.trctlMask a) (fun _ c _ => (c.getS a).toNat < 2 ^ 16) fun s c _ => retire s { c with cmask := (c.getS a).setWidth 16 }) ∧
  (∀ a, DoesWhen (.trctlDrain a) (fun s c _ => c.getS a = 0 ∧ ∀ i ∈ s.fabric.items, i.own = true → i.crew ≠ some s.cur) fun s c _ => retire s c) ∧
  (∀ a, DoesWhen (.trctlDrain a) (fun s c _ => c.getS a = 0 ∧ ∃ i ∈ s.fabric.items, i.own = true ∧ i.crew = some s.cur) fun s _ _ => s) ∧
  (∀ a, DoesWhen (.trctlAnchor a) (fun s c _ => s.crew? s.cur = some c ∧ Recorded s c ∧ (c.getS a).toNat < 256) fun s c _ =>
    retire (emitS s s.cur 0x41 ((c.getS a).setWidth 8) (BitVec.ofNat 32 (dieTime s (coreOf s.cur / 32) / 2 ^ 32))) c) ∧
  (∀ a, TrapsWhen (.trctlGate a) (fun _ c _ => 2 ≤ (c.getS a).toNat) .operand) ∧
  (∀ a, TrapsWhen (.trctlMask a) (fun _ c _ => 2 ^ 16 ≤ (c.getS a).toNat) .operand) ∧
  (∀ a, TrapsWhen (.trctlDrain a) (fun _ c _ => c.getS a ≠ 0) .operand) ∧
  (∀ a, TrapsWhen (.trctlAnchor a) (fun _ c _ => 256 ≤ (c.getS a).toNat) .operand)

/-- A trap is taken (R363, R369): in a crew that is not in its handler, with no region open, nothing counted outstanding and no fault held, whose
team has a trap vector and whose entry is not ending, the trap record receives the word, kind and cause, the resume and fault program counters, address, mask, detail, MODE and
s63; then MODE is 0, the crew is in handler state and its program counter is the trap vector, and it waits for no semaphore any more (R242). -/
def Obligations.TakingATrap : Prop :=
  ∀ (s : State) k (c : Crew) (t : Team) (info : TrapInfo), s.crew? k = some c → s.team? c.team = some t → c.handler = false → c.region = none →
    c.held = [] → c.stalled = none → c.stallSum = 0 → c.spawn = none → entryEnding s t = false → info.held = false → (∀ p ∈ s.ops, p.2.crew = k → p.2.cls = none ∧ (p.2.quiet = true → p.2.done = true)) → traceHeld s k c = false →
    t.trapv ≠ 0 →
    (s.core (coreOf k)).trivet = [] → s.fabric.starved = false →
    (s.func (funcOfTeam s c.team)).trace.cfg.getLsbD 0 = false →
    ∃ c', raise s k info = (s.setTeam c.team { t with semWait := t.semWait.filter fun p => p.2 != k }).setCrew k c' ∧ c'.mode = 0 ∧ c'.handler = true ∧ c'.pc = t.trapv ∧ c'.pending = none ∧ c'.wait = .none ∧
      c'.sregs = c.sregs ∧ c'.vregs = c.vregs ∧ c'.gang = c.gang ∧ c'.rseed = c.rseed ∧ c'.rndcnt = c.rndcnt ∧
      c'.trap.w0 = BitVec.ofNat 64 (info.word.toNat * 2 ^ 32 + (if c.rclosed then 2 ^ 26 else 0) + info.cause.toNat * 256 + info.kind.code) ∧
      c'.trap.w1 = info.resume.setWidth 64 ∧ c'.trap.w2 = info.fault.setWidth 64 ∧ c'.trap.w3 = info.addr ∧ c'.trap.w4 = info.mask ∧
      c'.trap.w5 = info.detail ∧ c'.trap.w6 = c.mode ∧ c'.trap.w7 = c.getS 63

/-- TRAP (R372) takes a software trap that resumes after it, its immediate in DETAIL. A trap in handler state is a double trap: it ends the
entry with status 0x00FF (R365), unless the entry is ending already (R364). TRET (R374) restores MODE and s63 from the record and continues at its resume program counter; outside handler
state it is an illegal-instruction trap, and a resume program counter that is not an instruction address is a branch-target trap. SWRITE (R373)
seeds stochastic rounding, or sets the resume program counter. -/
def Obligations.TrapInstructions : Prop :=
  (∀ i, Does (.trap i) fun s c _ => raise s s.cur
    { kind := .software, resume := c.pc + 4, fault := c.pc, word := wordOf (.trap i), detail := i.setWidth 64 }) ∧
  (∀ (s : State) k (c : Crew) (t : Team) info, s.crew? k = some c → s.team? c.team = some t → entryEnding s t = false → c.handler = true →
    setTrap s k info = endEntry s t.entry 0x00FF (endDetail 0 info.kind.code c.idx t.tidx)) ∧
  (DoesWhen .tret (fun s c _ => Outside s c ∧ c.handler = true ∧ c.trap.w1.toNat < 2 ^ 56 ∧ c.trap.w1.toNat % 4 = 0) fun s c _ =>
    s.setCrew s.cur { { c with mode := c.trap.w6 }.setS 63 c.trap.w7 with
      handler := false, pc := c.trap.w1.setWidth 56, issued := c.issued + 1 }) ∧
  (DoesWhen .tret (fun s c _ => s.crew? s.cur = some c ∧ c.spec = none ∧ c.handler = false) fun s c _ => raise s s.cur
    { kind := .illegal, cause := 2, resume := c.pc, fault := c.pc, word := wordOf .tret }) ∧
  (TrapsWhen .tret (fun s c _ => Outside s c ∧ c.handler = true ∧ (2 ^ 56 ≤ c.trap.w1.toNat ∨ c.trap.w1.toNat % 4 ≠ 0)) .branchTarget
    fun c => c.trap.w1) ∧
  (∀ a, DoesWhen (.swrite 0x09 a) (fun s c _ => Outside s c) fun s c _ => retire s { c with rseed := c.getS a, rndcnt := 0 }) ∧
  (∀ a, DoesWhen (.swrite 0x11 a) (fun s c _ => Outside s c) fun s c _ => retire s { c with trap := { c.trap with w1 := c.getS a } })

/-- FRAME of the instructions that use registers only: the control transfers, MODE, the scalar, vector, special-function, rearrangement and
packing instructions change nothing but the crew that issues them: no byte of memory, no other crew, team or queue. Of that crew the scalar
instructions and control transfers leave every vector register and MODE as they were, and every scalar register but their destination and, for
CALL, s63. -/
def Obligations.RegisterInstructionsFrame : Prop :=
  let frame := fun (i : Instr) (keeps : SReg → Prop) => ∀ s s1 c t s', ready s i = some (s1, c, t) → s1.crew? s1.cur = some c → c.spec = none →
    exec i s = .next s' → (∃ c' : Crew, s' = s1.setCrew s1.cur c' ∧ c'.vregs = c.vregs ∧ c'.mode = c.mode ∧ c'.trap = c.trap ∧
      ∀ r, keeps r → c'.getS r = c.getS r) ∨ (∃ info, s' = raise s1 s1.cur info)
  let bytes := fun (i : Instr) => ∀ s s1 c t s', ready s i = some (s1, c, t) → s1.crew? s1.cur = some c → c.spec = none → exec i s = .next s' →
    (SameBytes s s' ∧ ∃ c', s' = s1.setCrew s1.cur c') ∨ ∃ info, s' = raise s1 s1.cur info
  (∀ i d (x : BitVec 16), i ∈ [Instr.sli d x, .slis d x, .brz d x, .brnz d x, .blkz d x] → frame i (· ≠ d)) ∧
  (∀ i d a b, i ∈ [Instr.sadd d a b, .ssub d a b, .smul d a b, .sand d a b, .sor d a b, .sxor d a b, .sshl d a b, .sshr d a b, .ssra d a b,
    .sslt d a b, .sdivs d a b, .sdivn d a b, .scnt d a, .sclz d a] → frame i (· ≠ d)) ∧
  (∀ d a x, frame (.saddi d a x) (· ≠ d)) ∧ (∀ x a, frame .nop (fun _ => True) ∧ frame (.br x) (fun _ => True) ∧ frame (.call x) (· ≠ 63) ∧
    frame .ret (fun _ => True) ∧ frame (.jr a) (fun _ => True)) ∧
  (∀ i d a b (sd sa sb : SReg) e, i ∈ [Instr.vadd d a b, .vsub d a b, .vmul d a b, .vfma d a b, .vmin d a b, .vmax d a b, .vand d a b,
    .vor d a b, .vxor d a b, .vshl d a b, .vshr d a b, .vceq sd a b, .vclt sd a b, .vcle sd a b, .vmov d a, .vbcs d sa, .vext sd a sb, .vlid d,
    .vcvt d a, .vrcp d a, .vrsq d a, .vexp2 d a, .vlog2 d a, .vred sd a, .vcmpr d a sb, .vexpd d a sb, .vslup d a sb, .vsldn d a sb,
    .vperm d a b, .vpk2 d a b, .vpk4 d a b, .vupk d a e, .moder sd sa] → bytes i)

/-- FRAME of the instructions that issue work or act on the team: at its issue, unless it takes a trap or a demand fault, none of them changes a
byte of memory: a load, store, copy, atomic or drain reaches memory when it is performed. -/
def Obligations.IssueChangesNoByte : Prop :=
  ∀ (f : BitVec 3) (o : BitVec 2) (l : BitVec 1) (h : BitVec 4) (n m : BitVec 6) (d a b : VReg) (sa sb : SReg) i,
    i ∈ [Instr.ld d sa b, .st d sa b, .ldt d h sa, .stt d h sa, .shape h sa, .pref l sa b, .flush sa sb, .fence f o, .cpy4 n a b, .cpy8 n a b,
      .cpy16 n a b, .cpyt n h sa, .semset n sa, .semacq n sa, .semtry sa n, .semrd sa n, .aadd d sa b, .amin d sa b, .amax d sa b, .aand d sa b,
      .aor d sa b, .axor d sa b, .axch d sa b, .acas d sa b, .mmas n sa sb, .tilez m, .tld m sa, .tdrn m sa, .tdrm m sa sb, .regionClose,
      .regionOpen] →
    ∀ s s1 c t s', ready s i = some (s1, c, t) → s1.crew? s1.cur = some c → c.spec = none → c.held = [] → exec i s = .next s' →
      SameBytes s s' ∨ (∃ info, s' = raise s1 s1.cur info) ∨ ∃ info pages, s' = demandFault s1 s1.cur c t info pages

/-- R208: performing a store puts its bytes at its address, lowest byte first (R4), and every other byte reads as before under the access's
key. -/
def Obligations.StoreReachesMemory : Prop :=
  ∀ n k (s : State) o a, Tbl.get? s.ops n = some o → o.accs[k]? = some a → s.forwards = [] →
    (∀ p ∈ s.entries, ∀ st d, p.2.st ≠ .ending st d) → inPod a.pa = false → o.kind.isStore = true → o.done = false → a.st = .todo →
    inMirror a.va = false → performable s n o a = true →
    (∀ b ∈ o.accs.take k, b.st = .todo → inMirror b.va = true ∨ overlap a (landing s o.team .store b) = false) → invAcked s (some o.core) (lineOf a.pa) = true →
    Yields (.storePerformed n k) s fun s' =>
      (∀ i, i < a.size → readByte s' a.key (a.pa + i) = BitVec.ofNat 8 (a.data.toNat / 256 ^ i)) ∧
      ∀ x, x < a.pa ∨ a.pa + a.size ≤ x → readByte s' a.key x = readByte s a.key x

/-- The events that carry operations on (R105, R199, R203, R205, R292, R291, R353, R481, R192), in states in which no entry is ending and no
crew speculates: a load writes what its accesses bind, an atomic step changes its location as the lanes that name it say and keeps their old
values, which return to the registers; a shape record becomes valid; a FLUSH and a region's release complete. A mirror delivery
puts its bytes into the member's scratchpad and counts for it; one that is refused changes no byte and is logged at the member's core (R194). -/
def Obligations.OperationEvents : Prop :=
  let calm := fun (s : State) => (∀ p ∈ s.entries, ∀ st d, p.2.st ≠ .ending st d) ∧ (∀ p ∈ s.crews, p.2.spec = none) ∧ s.forwards = []
  let inTurn := fun (s : State) (n : Nat) (o : Op) (tid : Nat) (t : Team) =>
    (∀ p ∈ s.ops, p.2.crew = o.crew → p.1 < n → ∀ qs f, p.2.kind = .mirror qs f → (tid, false) ∉ qs) ∧
      ∀ a ∈ o.accs, inMirror a.va = true → deliverable s n o (tid == o.team) t a = true
  (∀ n s o c, calm s → Tbl.get? s.ops n = some o → o.kind = .load → o.done = false → s.crew? o.crew = some c → loadReady s n o c = true →
    Yields (.loadDataReturn n) s fun s' => SameBytes s s' ∧ ∃ c', s'.crew? o.crew = some c' ∧ c'.pc = c.pc ∧ c'.sregs = c.sregs ∧
      c'.vregs = (o.accs.foldl (fun (x : Crew) a => match a.dst with
        | some d => x.setDst d (BitVec.ofNat 64 ((bindAcc s n o c a).getD (0, false, none)).1)
        | none => x) c).vregs) ∧
  (∀ n addr s o a op ty reg, calm s → Tbl.get? s.ops n = some o → o.kind = .atomic op ty reg → o.done = false → inPod addr = false →
    inHost addr = false →
    let ks := (List.range o.accs.length).filter fun k => match o.accs[k]? with | some b => b.st == .todo && b.pa == addr | none => false
    ks.head?.bind (fun k => o.accs[k]?) = some a → performable s n o a = true → anyPoison s addr a.size = false →
    let r := atomicFold op ty.toNat (ks.filterMap fun k => o.accs[k]?.map fun b => (b.data, b.cmp)) (leVal (readBytes s a.key addr a.size))
    Yields (.atomicStep n addr) s fun s' =>
      (∃ o', Tbl.get? s'.ops n = some o' ∧ o'.accs = setOlds ks (some r.1) 0 o.accs) ∧
      (∀ i, i < a.size → readByte s' a.key (addr + i) =
        if r.2.2 then BitVec.ofNat 8 (r.2.1 / 256 ^ i) else readByte s a.key (addr + i)) ∧
      ∀ x, x < addr ∨ addr + a.size ≤ x → readByte s' a.key x = readByte s a.key x) ∧
  (∀ xs v, v < 2 ^ 32 → (atomicFold .add 7 xs v).2.1 = (v + (xs.map fun x => x.1.toNat % 2 ^ 32).sum) % 2 ^ 32) ∧
  (∀ ty x (cmp : DWord) v, atomicFold .cas ty [(x, cmp)] v = ([v], if v = cmp.toNat then x.toNat else v, v == cmp.toNat)) ∧
  (∀ n s o c op ty reg, calm s → Tbl.get? s.ops n = some o → o.kind = .atomic op ty reg → o.done = false → s.crew? o.crew = some c →
    (∀ a ∈ o.accs, a.st ≠ .todo) → Yields (.atomicResultReturn n) s fun s' => ∃ c', s'.crew? o.crew = some c' ∧
      c'.vregs = (o.accs.foldl (fun (x : Crew) a => match a.dst with | some d => x.setDst d a.data | none => x) c).vregs) ∧
  (∀ n s o c t h va a v sh, calm s → Tbl.get? s.ops n = some o → o.kind = .shape h va → o.accs = [a] → o.done = false → o.quiet = false →
    s.crew? o.crew = some c → s.team? o.team = some t → bindable s n o c a = true → bindAcc s n o c a = some (v, false, none) →
    readShape (leBytes 64 v) = some sh →
    Yields (.shapeComplete n) s fun s' => ∃ t', s'.team? o.team = some t' ∧ Tbl.get? t'.shapes h = some sh ∧
      ∀ j, j ≠ h → Tbl.get? t'.shapes j = Tbl.get? t.shapes j) ∧
  (∀ n s o x t delta, calm s → Tbl.get? s.ops n = some o → o.kind = .tdep delta → o.accs = [x] → o.done = false → performable s n o x = true →
    s.team? o.team = some t → anyPoison s x.pa 16 = false → (readBlock s x.key x.pa).res = true →
    ∃ s1, blockStep s t.ctx (some o.core) x (addCount delta) = some s1 ∧
      Yields (.tdepStep n) s fun s' => s' = finishOp (applyInvs (s1.modCrew o.crew fun c => { c with acqAt := s1.nextOp }) o.core) n) ∧
  (∀ n s o spans, calm s → Tbl.get? s.ops n = some o → o.kind = .flush spans → o.done = false →
    (∀ p ∈ s.ops, p.2.crew = o.crew → p.1 < n → p.2.kind.isStore = true → p.2.done = true) → (∀ p ∈ spans, ownedBefore s n p.1 p.2.1 = false) →
    Yields (.flushComplete n) s fun s' => SameBytes s s' ∧
      (∀ l, (∃ p ∈ spans, (p.2.2 = 0 ∨ p.2.2 = 2) ∧ inSpan l p = true) → ∀ q ∈ s'.undo, lineOf q.1 ≠ l) ∧
      ∀ l, (∃ p ∈ spans, p.2.2 = 0 ∧ inSpan l p = true) → l2Line s' l = none ∧ ∀ k, l1Line s' k l = none) ∧
  (∀ n s o c pc, calm s → Tbl.get? s.ops n = some o → o.kind = .release pc → o.done = false → s.crew? o.crew = some c →
    (∀ a ∈ o.accs, a.st = .done) → Yields (.regionReleaseComplete n) s fun s' => s' = finishOp s n) ∧
  (∀ n m bad s o ms failed tid t, calm s → Tbl.get? s.ops n = some o → o.kind = .mirror ms failed → ms[m]? = some (tid, false) →
    s.team? tid = some t → inTurn s n o tid t →
    Yields (.mirrorDelivery n m bad) s fun s' => ∀ o', Tbl.get? s'.ops n = some o' → ∃ f, o'.kind = .mirror (ms.set m (tid, true)) f ∧
      (bad = [] → deliveryRefused s t = false → f = failed)) ∧
  (∀ n m s o ms failed tid t a, calm s → Tbl.get? s.ops n = some o → o.kind = .mirror ms failed → ms[m]? = some (tid, false) →
    s.team? tid = some t → inTurn s n o tid t → o.accs = [a] → inMirror a.va = true → deliveryRefused s t = false →
    let base := t.scratchFlat (a.va % 2 ^ 32)
    Yields (.mirrorDelivery n m []) s fun s' => ∀ i, i < a.size →
      readByte s' (unitAttr s t base).key (base + i) = BitVec.ofNat 8 (a.data.toNat / 256 ^ i)) ∧
  (∀ n m s o ms failed tid t, calm s → Tbl.get? s.ops n = some o → o.kind = .mirror ms failed → ms[m]? = some (tid, false) →
    s.team? tid = some t → inTurn s n o tid t → deliveryRefused s t = true → (∃ a ∈ o.accs, inMirror a.va = true) →
    Yields (.mirrorDelivery n m []) s fun s' => SameBytes s s' ∧
      ∃ low, (s'.core t.core).mirrorLog = (s.core t.core).mirrorLog ++ [(o.core, low)])

/-- The events of the copy engine, the bins, the tiles and the drains (R225, R239, R246, R266, R281, R283, R286), in states in which no entry is
ending: a copy increments its semaphore and completes; a BINW whose claims are made writes its results and increments its semaphore; a tile
step writes its tile; a drain writes its destination; a drain-add is added to the peer's tile or refused, and acknowledged. -/
def Obligations.EngineEvents : Prop :=
  let calm := fun (s : State) => (∀ p ∈ s.entries, ∀ st d, p.2.st ≠ .ending st d) ∧ (∀ p ∈ s.crews, p.2.spec = none) ∧ s.forwards = []
  let raised := fun (s s' : State) (team sem : Nat) => ∃ t t', s.team? team = some t ∧ s'.team? team = some t' ∧
    (Sparse.get t'.sems sem).toNat = min ((Sparse.get t.sems sem).toNat + 1) 0xFFFFFFFF
  (∀ n s o t sem parts, calm s → Tbl.get? s.ops n = some o → o.kind = .copy sem parts → o.done = false → o.quiet = false → s.team? o.team = some t →
    copyReady s n o parts = true → Yields (.copyComplete n) s fun s' => raised s s' o.team sem) ∧
  (∀ n s o t sem src dst, calm s → Tbl.get? s.ops n = some o → o.kind = .copy sem [{ row := 0, src := some src, dst := dst }] → o.done = false →
    o.quiet = false → s.team? o.team = some t → copyReady s n o [{ row := 0, src := some src, dst := dst }] = true →
    dst.clip = false → inPod src.pa = false → inPod dst.pa = false → (src.pa + dst.size ≤ dst.pa ∨ dst.pa + dst.size ≤ src.pa) → Yields (.copyComplete n) s fun s' =>
      (∀ i, i < dst.size → readByte s' dst.key (dst.pa + i) = readByte s src.key (src.pa + i)) ∧
      ∀ x, x < dst.pa ∨ dst.pa + dst.size ≤ x → readByte s' dst.key x = readByte s dst.key x) ∧
  (∀ n s o t b i lanes, Tbl.get? s.ops n = some o → o.kind = .binw b → s.team? o.team = some t → b.todo = (i :: lanes) →
    orderOver s o.crew n false false false = true →
    ∀ s1 b1 as, binGroup s n o t { b with todo := b.todo.filter fun y => y.2.1 != i.2.1 } false i.2.1.toNat
        ((b.todo.filter fun y => y.2.1 == i.2.1).map fun y => (y.1, y.2.2)) = some (s1, b1, as) →
      Yields (.binClaim n) s fun s' => s' = s1.modOp n fun o => { o with kind := .binw b1, accs := o.accs ++ as }) ∧
  (∀ second self k l tok, k.bin.count < k.bin.cap → (claimLane second self k l tok).puts = k.puts ++ [(l, k.bin.base + 4 * k.bin.count, tok)] ∧
    (claimLane second self k l tok).bin.count = min (k.bin.count + 1) 0xFFFFFFFF ∧ (claimLane second self k l tok).bin.ovfcnt = k.bin.ovfcnt) ∧
  (∀ n s o c t b, calm s → Tbl.get? s.ops n = some o → o.kind = .binw b → o.done = false → o.quiet = false → b.todo = [] → b.redirect = [] →
    (∀ a ∈ o.accs, reach s (funcOfTeam s o.team) .store a ≠ .waits) → s.crew? o.crew = some c → s.team? o.team = some t → Yields (.binwComplete n) s fun s' => raised s s' o.team b.sem ∧
      ∃ c', s'.crew? o.crew = some c' ∧ c'.vregs = (c.setLanes b.reg b.res).vregs) ∧
  (∀ n s o t h st, calm s → Tbl.get? s.ops n = some o → o.kind = .tile h st → o.done = false → o.quiet = false → s.team? o.team = some t →
    t.tilePois = [] → st.rows ≤ 32 → Yields (.tileStepComplete n) s fun s' => ∃ t', s'.team? o.team = some t' ∧
      (∀ i j, i < st.rows → j < 32 → Sparse.get t'.tiles (tileCell h i j) = st.elem i j (Sparse.get t.tiles (tileCell h i j))) ∧
      ∀ k i j, i < 32 → j < 32 → (k ≠ h ∨ st.rows ≤ i) → Sparse.get t'.tiles (tileCell k i j) = Sparse.get t.tiles (tileCell k i j)) ∧
  (∀ n s o c h pois key, calm s → Tbl.get? s.ops n = some o → o.kind = .drain h pois → o.done = false → s.crew? o.crew = some c →
    orderOver s o.crew n false false false = true → (∀ a ∈ o.accs, engineClear s n o true a = true ∧ inPod a.pa = false ∧ a.key = key) →
    Yields (.drainComplete n) s fun s' => (∀ o', Tbl.get? s'.ops n = some o' → o'.done = true) ∧
      ∀ x, (∀ a ∈ o.accs, x < a.pa ∨ a.pa + a.size ≤ x) → readByte s' key x = readByte s key x) ∧
  (∀ n s o c t h a, calm s → Tbl.get? s.ops n = some o → o.kind = .drain h [] → o.accs = [a] → o.done = false → s.crew? o.crew = some c →
    s.team? o.team = some t → orderOver s o.crew n false false false = true → engineClear s n o true a = true → inPod a.pa = false → Yields (.drainComplete n) s fun s' =>
      ∀ i, i < a.size → readByte s' a.key (a.pa + i) = BitVec.ofNat 8 (a.data.toNat / 256 ^ i)) ∧
  (∀ n s o d r, Tbl.get? s.ops n = some o → o.kind = .drainAdd d → o.done = false → d.verdict = none →
    orderOver s o.crew n false false false = true → drainTarget s o d = .error r →
    Yields (.drainAddReceive n) s fun s' => s' = s.modOp n fun o => { o with kind := .drainAdd { d with verdict := some r } }) ∧
  (∀ n s o d tid t, calm s → Tbl.get? s.ops n = some o → o.kind = .drainAdd d → o.done = false → d.verdict = none →
    orderOver s o.crew n false false false = true → drainTarget s o d = .ok (tid, t) → s.team? tid = some t → tilePending s tid d.ptile = false → t.tilePois = [] → d.rows.length ≤ 32 →
    Yields (.drainAddReceive n) s fun s' => raised s s' tid d.psem ∧ ∃ t', s'.team? tid = some t' ∧
      ∀ i j row x, d.rows[i]? = some row → row[j]? = some x → j < 32 →
        Sparse.get t'.tiles (tileCell d.ptile i j) = addF32 (Sparse.get t.tiles (tileCell d.ptile i j)) x) ∧
  (∀ n s o c d, Tbl.get? s.ops n = some o → o.kind = .drainAdd d → o.done = false → s.crew? o.crew = some c → d.verdict = some 0 → d.pois = [] →
    Yields (.drainAddAck n) s fun s' => s' = finishOp s n)

/-- The bulk engines (R249, R253 to R258): a free engine starts the command that its arbiter picks; a copy, a decryption and a scan write
their destinations and end; a matched collective ends for every member on this
module; one whose members disagree, and one of a group that is not bound, end at once. A command whose end has come leaves its queue, or waits with
its outcome while another engine owns the line of its completion record (R223). -/
def Obligations.BulkEvents : Prop :=
  let ended := fun (s : State) (id : Nat) => Tbl.get? s.bulk.cmds id = none ∨
    ∃ c, Tbl.get? s.bulk.cmds id = some c ∧ c.ending.isSome = true ∧ c.compl ≠ []
  (∀ s die engine func ds id c rest, engine ≤ 2 →
    (s.bulk.cmds.filter fun p => p.2.die == die && p.2.running.any fun r => r.1 == engine).length < (if engine = 2 then 16 else 1) →
    let set := if engine = 2 then 1 else 0
    arbiter s die set (arbiterFuel s die set) (Tbl.get? s.bulk.last (die * 2 + set)) s.bulk.deficit = some (func, ds) →
    waitingCmds s die set func = (id, c) :: rest → (engine = 2 → ((groupOf s func c.rec_).bind fun g => rankOf g die).isSome = true) →
    Yields (.bulkStart die engine func) s fun s' => Tbl.get? s'.bulk.cmds id = some { c with running := some (engine, s.nextOp) } ∧
      s'.nextOp = s.nextOp + 1 ∧ Tbl.get? s'.bulk.last (die * 2 + set) = some func) ∧
  (∀ s die func ds id c rest, (s.bulk.cmds.filter fun p => p.2.die == die && p.2.running.any fun r => r.1 == 2).length < 16 →
    arbiter s die 1 (arbiterFuel s die 1) (Tbl.get? s.bulk.last (die * 2 + 1)) s.bulk.deficit = some (func, ds) →
    waitingCmds s die 1 func = (id, c) :: rest → ((groupOf s func c.rec_).bind fun g => rankOf g die) = none →
    Yields (.bulkStart die 2 func) s fun s' => ended s' id) ∧
  (∀ (s : State) id c code count charged, Tbl.get? s.bulk.cmds id = some c →
    let held := runsOwned s (match c.running with | some r => r.2 | none => s.nextOp) c.func c.compl
    Tbl.get? (endCmd s id code count charged).bulk.cmds id =
      if held = true then some { c with ending := some (code, count, charged) } else none) ∧
  (∀ s cmd c, runningCmd s cmd 1 = some c → Yields (.bulkCopyDone cmd) s fun s' =>
    s' = endCmd (writeRuns c.func (some c.ctx) c.dst (moved s c) (touchRuns s (some c.ctx) c.src)) cmd (if (moved s c).any (·.2) then 0x30 else 0) (cmdLen c.rec_) (cmdLen c.rec_)) ∧
  (∀ s (c : Cmd), c.seen = [] → (∀ r ∈ c.src, ∀ d ∈ c.dst, r.pa + r.len ≤ d.pa ∨ d.pa + d.len ≤ r.pa) → moved s c = readRuns s c.func c.src) ∧
  (∀ s cmd c, runningCmd s cmd 2 = some c → Tbl.getD (s.func c.func).bulkKeys (fieldOf c.rec_ 44 2) 0 = 0 →
    Yields (.bulkDecryptDone cmd) s fun s' => s' = endCmd s cmd 0x11 0 0) ∧
  (∀ s cmd c, runningCmd s cmd 2 = some c → Tbl.getD (s.func c.func).bulkKeys (fieldOf c.rec_ 44 2) 0 ≠ 0 →
    (∀ b ∈ readCmd s c c.src ++ readCmd s c c.tag, b.2 = false) →
    let key := keyBytes (Tbl.getD (s.func c.func).bulkKeys (fieldOf c.rec_ 44 2) 0)
    let bs := (readCmd s c c.src).map (·.1)
    let r := gcmDecrypt key ((c.rec_.drop 32).take 12) (bs.take (cmdAad c.rec_)) (bs.drop (cmdAad c.rec_))
    Yields (.bulkDecryptDone cmd) s fun s' => s' =
      if r.2 = (readCmd s c c.tag).map (·.1) then
        endCmd (writeRuns c.func (some c.ctx) c.dst (r.1.map fun b => (b, false)) s) cmd 0 (cmdLen c.rec_) (cmdLen c.rec_)
      else endCmd (writeRuns c.func (some c.ctx) c.dst (List.replicate (cmdLen c.rec_) (0, false)) s) cmd 0x10 (cmdLen c.rec_) (cmdLen c.rec_)) ∧
  (∀ s cmd c, runningCmd s cmd 4 = some c → (∃ r ∈ c.src, inHbm r.pa = false) →
    Yields (.scanDone cmd) s fun s' => s' = endCmd s cmd 0x40 0 0) ∧
  (∀ s cmd c, runningCmd s cmd 4 = some c → (∀ r ∈ c.src, inHbm r.pa = true ∧ (r.home = 0 ∨ r.home = 2)) →
    Yields (.scanDone cmd) s fun s' => ended s' cmd) ∧
  (∀ s func group seq g r0 id0 c0 ms, Tbl.get? (s.func func).groups group = some g →
    localMembers s func group seq g = some ((r0, id0, c0) :: ms) → s.bulk.matched.contains (func, group, seq) = false →
    (∀ x ∈ g.members, memberUp s func group x = true) → (∀ m ∈ ms, collKey m.2.2 = collKey c0) → Yields (.collectiveMatch func group seq true) s fun s' =>
      s' = { s with bulk := { s.bulk with matched := s.bulk.matched ++ [(func, group, seq)] } }) ∧
  (∀ s func group seq g r0 id0 c0 ms, Tbl.get? (s.func func).groups group = some g →
    localMembers s func group seq g = some ((r0, id0, c0) :: ms) → s.bulk.matched.contains (func, group, seq) = false →
    (∀ x ∈ g.members, memberUp s func group x = true) → (∃ m ∈ ms, collKey m.2.2 ≠ collKey c0) → Yields (.collectiveMatch func group seq true) s fun s' =>
      ∀ k ∈ (r0, id0, c0) :: ms, ended s' k.2.1) ∧
  (∀ s func group seq remote g m ms, Tbl.get? (s.func func).groups group = some g → localMembers s func group seq g = some (m :: ms) →
    s.bulk.matched.contains (func, group, seq) = true → (∀ k ∈ m :: ms, (runningCmd s k.2.1 3).isSome = true) →
    (∀ x ∈ g.members, memberUp s func group x = true) → (∀ r k, g.members[r]? = some (.remote k) → (cmdCop m.2.2.rec_ = 3 ∧ r ≠ cmdRoot m.2.2.rec_) ∨
      ∃ x ∈ remote, x.1 = r ∧ x.2.length = cmdLen m.2.2.rec_ * cmdZ m.2.2.rec_) →
    Yields (.collectiveDone func group seq remote) s fun s' => ∀ k ∈ m :: ms, ended s' k.2.1) ∧
  (∀ x y, x < 2 ^ 32 → y < 2 ^ 32 → reduceColl 7 0 [x, y] = (x + y) % 2 ^ 32 ∧ reduceColl 7 1 [x, y] = min x y ∧ reduceColl 7 2 [x, y] = max x y)

/-- Coherence, waits and wide barriers (R216, R307, R308, R312, R314, R317, R101): an invalidation is received and applied; a woken or polled
WAITC ends, and takes a poison fault where its word was poisoned; a WAITC that has waited longer than its launch allows halts its team; a relaunch is queued, or is due
while the halt is in progress (R309); a message counts at its wide context, whose phase completes when it is due; a completion ends the waits on a core. -/
def Obligations.WaitAndBarrierEvents : Prop :=
  let unhindered := fun (s : State) (key : Nat) (c : Crew) => s.fabric.starved = false ∧ c.stalled = none ∧ c.stallSum = 0 ∧
    ((0 < (s.core (coreOf key)).granted ∧ (s.core (coreOf key)).grantee = funcOfTeam s c.team) ∨
      (s.func (funcOfTeam s c.team)).trace.cfg.getLsbD 0 = false)
  (∀ s core line, (l1Line s core line).isSome = true → (s.core core).inv.contains line = false →
    Yields (.invalidationReceive core line) s fun s' => s' = s.modCore core fun k => { k with inv := k.inv ++ [line] }) ∧
  (∀ s core, (s.core core).inv ≠ [] → Yields (.invalidationApplyTimeout core) s fun s' => (s'.core core).inv = [] ∧
    (∀ l ∈ (s.core core).inv, Tbl.get? (s'.core core).l1 l = none) ∧
    ∀ l, l ∉ (s.core core).inv → Tbl.get? (s'.core core).l1 l = Tbl.get? (s.core core).l1 l) ∧
  (∀ s crew c t v sent, s.crew? crew = some c → s.team? c.team = some t → c.wait = .woken (some v) sent →
    Yields (.monitorWake crew) s fun s' =>
      (mOrd c.mode = 1 → 2 ≤ (mScope c.mode).toNat → (s'.core (coreOf crew)).inv = []) ∧ ∃ c', s'.crew? crew = some c' ∧
      c'.wait = .none ∧ c'.pc = c.pc + 4 ∧ c'.sregs = c.sregs ∧ c'.vregs = c.vregs) ∧
  (∀ s crew c t sent, s.crew? crew = some c → s.team? c.team = some t → c.wait = .woken none sent → c.spec = none →
    Yields (.monitorWake crew) s fun s' => s' = raise (heard s (coreOf crew) sent) crew
      { kind := .poison, resume := c.pc, fault := c.pc, word := wordAt s t c.pc, addr := c.getS ((wordAt s t c.pc).extractLsb' 8 6), mask := 1 }) ∧
  (∀ s crew c m x, s.crew? crew = some c → c.wait = .monitor → (s.monitors.find? fun m => m.crew == crew && m.polled && !m.relaunch) = some m →
    waitRead s crew m.team m.acq m.acc = some (.ok (x, false)) →
    (condHolds m.cond m.acc.size x m.value.toNat = false → Yields (.waitcPoll crew) s fun s' => s' = s) ∧
    (condHolds m.cond m.acc.size x m.value.toNat = true → Yields (.waitcPoll crew) s fun s' => ∃ c', s'.crew? crew = some c' ∧
      c'.wait = .none ∧ c'.pc = c.pc + 4)) ∧
  (∀ s team t, s.team? team = some t → (s.monitors.any fun m => m.team == team && m.relaunch && m.polled) = true →
    (∀ x, Tbl.get? s.ctxs t.ctx = some x → frontHeld s x.slice = false) →
    ((∃ m ∈ s.monitors, m.team = team ∧ m.relaunch = true ∧ m.polled = true ∧ ∃ x,
        waitRead s m.crew m.team m.acq m.acc = some (.ok (x, false)) ∧ condHolds m.cond m.acc.size x m.value.toNat = true) →
      Yields (.relaunchPoll team) s fun s' => ∃ t', s'.team? team = some t' ∧ 
        (if t.isHalted = true then t'.relaunch = some s.nextId else t'.due = true) ∧ ∀ m ∈ s'.monitors, m.team = team → m.relaunch = false) ∧
    ((∀ m ∈ s.monitors, m.team = team → m.relaunch = true → m.polled = true → ∃ x,
        waitRead s m.crew m.team m.acq m.acc = some (.ok (x, false)) ∧ condHolds m.cond m.acc.size x m.value.toNat = false) →
      Yields (.relaunchPoll team) s fun s' => s' = s)) ∧
  (∀ s crew c t m, s.crew? crew = some c → s.team? c.team = some t → (s.monitors.find? fun m => m.crew == crew && !m.relaunch) = some m →
    t.monthr ≠ 0 → t.halt = .running → t.monthr * 16000 < s.time.master - m.start →
    Yields (.monitorThresholdHalt crew) s fun s' => (∃ t', s'.team? c.team = some t' ∧ t'.halt = .halting .threshold) ∧
      ∀ m' ∈ s'.monitors, m'.team = c.team → m'.relaunch = true) ∧
  (∀ s ctx m, (s.wideMsgs.find? fun x => x.ctx == ctx && x.crew == m.crew) = some m → m.what = .arrive ∨ m.what = .arriveSplit ∨ m.what = .drop →
    let b := Tbl.getD s.wide ctx {}
    Yields (.wideBarrierArrival ctx m.crew) s fun s' => s'.wideMsgs = s.wideMsgs.erase m ∧ ∃ b', Tbl.get? s'.wide ctx = some b' ∧
      (b.armed = true → b.arr + 1 = b.e → b'.phase = b.phase + 1 ∧ b'.arr = 0 ∧ b'.drops = 0 ∧
        b'.e = b.e - (b.drops + if m.what = .drop then 1 else 0)) ∧
      (b.armed = false ∨ b.arr + 1 ≠ b.e → b'.phase = b.phase ∧ b'.arr = b.arr + 1 ∧ b'.e = b.e ∧
        b'.drops = b.drops + if m.what = .drop then 1 else 0)) ∧
  (∀ s ctx m k c b', (s.wideMsgs.find? fun x => x.ctx == ctx && x.crew == m.crew) = some m → m.what = .arm k → s.crew? m.crew = some c → c.region = none →
    c.spec = none → c.buf = [] → unhindered s m.crew c → (Tbl.getD s.wide ctx {}).arm k.toNat = some b' → (b'.armed = true → b'.arr ≠ b'.e) →
    Yields (.wideBarrierArrival ctx m.crew) s fun s' => Tbl.get? s'.wide ctx = some b' ∧ ∃ c', s'.crew? m.crew = some c' ∧ c'.wait = .none ∧
      c'.pc = c.pc + 4) ∧
  (∀ s ctx m k c t, (s.wideMsgs.find? fun x => x.ctx == ctx && x.crew == m.crew) = some m → m.what = .arm k → s.crew? m.crew = some c → c.spec = none →
    s.team? c.team = some t → (Tbl.getD s.wide ctx {}).arm k.toNat = none → Yields (.wideBarrierArrival ctx m.crew) s fun s' =>
      s' = raise ({ s with wideMsgs := s.wideMsgs.erase m }.setCrew m.crew { c with wait := .none }) m.crew
        { kind := .barrierState, resume := c.pc, fault := c.pc, word := wordAt s t c.pc,
          detail := barDetail m.handle (Tbl.getD s.wide ctx {}).phase }) ∧
  (∀ s ctx core m, (s.wideDone.find? fun m => m.1 == ctx && m.2.1 == core) = some m → Yields (.wideBarrierCompletion ctx core) s fun s' =>
    s'.wideDone = s.wideDone.erase m ∧ (s'.core core).inv = [] ∧
    ∀ key c t, s.crew? key = some c → coreOf key = core → c.wait = .barrier (ctx / 2 ^ 12 % 256) m.2.2.1 →
      inFlight s key (ctx / 2 ^ 12 % 256) = false → s.team? c.team = some t → wideOf s t (ctx / 2 ^ 12 % 256) = ctx →
      s'.crew? key = some { c with wait := .none, acqAt := s.nextOp }) ∧
  (∀ s crew c, s.crew? crew = some c → 64 ≤ c.ready → Yields (.issueStarvationPromote crew) s fun s' => s' = { s with promoted := setAdd s.promoted crew })

/-- The dispatcher (R340, R341, R343, R344, R168): the steps before an entry's first team fail with the status of the first that fails, or make
it ready, and the pages that were translated gain heat; teams are placed on the first core in order that they fit; the compactor moves a crew's blocks; the heat sweeper spends its budget. -/
def Obligations.DispatchEvents : Prop :=
  (∀ s ctx eid e x, headEntry s ctx = some (eid, e) → Tbl.get? s.ctxs ctx = some x → e.ready = false →
    (e.refused = true → Yields (.dispatchEntry ctx) s fun s' =>
      s' = (failEntry (heatLeaves s (e.rec_.ranges.foldl (xlatRange s x) {}).leaves) eid 0x0009).modCtx e.ctx fun x => { x with ats := [] }) ∧
    (e.refused = false → e.asked = [] →
      (∀ st, e.claimed = false → earlyStatus s x e.rec_ = some st → Yields (.dispatchEntry ctx) s fun s' => s' = failEntry s eid st) ∧
      (earlyStatus s x e.rec_ = none → e.claimed = false → wideClaims s eid x.slice e.rec_ = none →
        Yields (.dispatchEntry ctx) s fun s' => s' = failEntry s eid 0x0005) ∧
      (∀ ks, earlyStatus s x e.rec_ = none → e.claimed = false → wideClaims s eid x.slice e.rec_ = some ks →
        Yields (.dispatchEntry ctx) s fun s' => (∀ k ∈ ks, Tbl.get? s'.wide k = some {}) ∧
          ∀ e', Tbl.get? s.entries eid = some e' → Tbl.get? s'.entries eid = some { e' with claimed := true }) ∧
      (e.claimed = true → ∀ r img, xlatImage s x e.rec_ (e.rec_.ranges.foldl (xlatRange s x) {}) = (r, img) →
        r.ask = [] → (∀ st, r.err = some st →
          Yields (.dispatchEntry ctx) s fun s' => s' = (failEntry (heatLeaves s r.leaves) eid st).modCtx e.ctx fun x => { x with ats := [] }) ∧
        (r.err = none → r.absent ≠ [] → Tbl.get? s.entries eid = some e → Yields (.dispatchEntry ctx) s fun s' =>
          Tbl.get? s'.entries eid = some { e with asked := r.absent.eraseDups }) ∧
        (r.err = none → r.absent = [] → Tbl.get? s.entries eid = some e → (∀ p ∈ s.ctxs, p.2.faults = []) →
          Yields (.dispatchEntry ctx) s fun s' => Tbl.get? s'.entries eid = some { e with extents := r.exts.reverse ++ img, ready := true } ∧
            (s'.slice x.slice).running = some x.func)))) ∧
  (∀ s eid e st, Tbl.get? s.entries eid = some e → e.st = .queued → crewsOfEntry s eid = [] →
    (∀ x, Tbl.get? s.ctxs e.ctx = some x → frontHeld s x.slice = false) → ((Tbl.get? s.ctxs e.ctx).isSome = true) →
    (∀ va size a, walkAcc s e.ctx va size false true = .ok a → owner s s.nextOp a.pa size = none) →
    Tbl.get? (failEntry s eid st).entries eid = none) ∧
  (∀ (s : State) (r : LaunchRec) x, r.ok = false → earlyStatus s x r = some 0x0001) ∧
  (∀ s ctx eid e sl c, placing s ctx = some (eid, e, sl) → e.rec_.mirror = 0 →
    (coreOrder s sl).find? (fits s e.rec_) = some c → Yields (.placeTeam ctx) s fun s' => (s'.slice sl).cursor = some c ∧
      ∃ t, s'.team? s.nextId = some t ∧ t.core = c ∧ t.entry = eid ∧ t.tidx = e.next ∧ t.width = e.rec_.width ∧ t.nvreg = 16 * e.rec_.vregs) ∧
  (∀ s ctx eid e sl cs, placing s ctx = some (eid, e, sl) → e.rec_.mirror ≠ 0 → groupCores s sl e.rec_.mirror (fits s e.rec_) = some cs →
    Yields (.placeMirrorGroup ctx) s fun s' => s' = placeGroup s eid sl cs) ∧
  (∀ s core crew c tid idx s1, s.crew? crew = some c → compactStep s core = some (tid, idx, s1) → c.team = tid → c.idx = idx →
    (∃ p ∈ s.slices, ∃ q, p.2.compact = some q ∧ q.1 = core ∧ waitsFor s q = true) →
    let rows := match s.team? tid with | some t => t.nvreg * t.width / 16 | none => 0
    spentOf s 2 core + rows ≤ ((budgetOf s (core / 32)).1.extractLsb' 16 16).toNat →
    Yields (.compactorMove core crew) s fun s' => s' = spend s1 2 core rows) ∧
  (∀ s core tid idx s1, compactStep s core = some (tid, idx, s1) → ∃ t t', s.team? tid = some t ∧ s1.team? tid = some t' ∧
    (t'.blocks.map fun b => (b.1, b.2.2)) = (t.blocks.map fun b => (b.1, b.2.2)) ∧
    ∀ (i : Nat) (b b' : Nat × Nat × Nat), t.blocks[i]? = some b → t'.blocks[i]? = some b' → b'.2.1 ≤ b.2.1 ∧ (b.1 ≠ idx → b' = b)) ∧
  (∀ s ctx x, Tbl.get? s.ctxs ctx = some x →
    let left := ((budgetOf s (sliceDie s x.slice)).2.extractLsb' 16 16).toNat - spentOf s 4 (sliceDie s x.slice)
    let ls := (leavesFrom s walkLevels x.root).drop x.swept
    left ≠ 0 → Yields (.heatSweep ctx) s fun s' => spentOf s' 4 (sliceDie s x.slice) = spentOf s 4 (sliceDie s x.slice) + min left ls.length ∧
      (∃ x', Tbl.get? s'.ctxs ctx = some x' ∧ x'.swept = if left < ls.length then x.swept + left else 0) ∧
      ∀ a, ls = [a] → s.forwards = [] →
        readBytes s' 0 a 8 = leBytes 8 (heatDown 14 (heatDown 12 (BitVec.ofNat 64 (leVal (readBytes s 0 a 8))))).toNat) ∧
  (∀ a, a < 4 → ∀ b, b < 4 → heatUp 12 (BitVec.ofNat 64 (4096 * a + 16384 * b)) = BitVec.ofNat 64 (4096 * min 3 (a + 1) + 16384 * b) ∧
    heatDown 14 (BitVec.ofNat 64 (4096 * a + 16384 * b)) = BitVec.ofNat 64 (4096 * a + 16384 * (b - 1)))

/-- Page requests, ATS and translation invalidations (R172, R174, R388, R389, R456 to R458): a reply, a PRG response or a time-out ends its
request with its status; a dead PRG index comes back; a translation answer is kept for the entry that asked, and one that may not be used is discarded (the model's reading of R463, log entry 116); an invalidation starts and,
once no access to the old pages is left, makes its spans holes and ends, and an ATS invalidation is acknowledged with its last part. A reply that
comes while the front end is updated is held (R479). -/
def Obligations.TranslationEvents : Prop :=
  (∀ s ctx req status x p, Tbl.get? s.ctxs ctx = some x → Tbl.get? x.reqs req = some p → p.sent = true → p.host = false →
    (status = 0 ∨ status = 1) → replyHeld s ctx req = false → Yields (.pageRequestReply ctx req status) s fun s' =>
      if frontHeld s x.slice = true then s' = { s with svc := { s.svc with replies := s.svc.replies ++
        [{ ctx := ctx, req := req, status := status, keep := false, halt := false, clock := s.clock, sent := 0 }] } }
      else s' = takeReply s ctx req status false) ∧
  (∀ s ctx req status, Tbl.get? s.ctxs ctx = none → Yields (.pageRequestReply ctx req status) s fun s' => s' = s) ∧
  (∀ s func index pasid ctx x n p,
    ((s.ctxs.flatMap fun p => p.2.reqs.map fun q => (p.1, p.2, q)).find? fun p =>
      p.2.1.func == func && p.2.2.2.prg == some index && p.2.2.2.pasid == pasid) = some (ctx, x, n, p) →
    frontHeld s x.slice = false → replyHeld s ctx n = false →
    let die := Config.linkDie (linkOf s func)
    let takes := fun (s1 : State) (status : BitVec 8) => takeReply s1 ctx n status false (sendTime s die 0x34 + 1)
    Yields (.prgResponse func (index, pasid) .success) s (fun s' => s' = takes (noteTime s die) 0) ∧
    Yields (.prgResponse func (index, pasid) .invalidRequest) s (fun s' => s' = takes (noteTime s die) 1) ∧
    Yields (.prgResponse func (index, pasid) .responseFailure) s (fun s' =>
      s' = takes ((noteTime s die).modFunc (funcOfCtx s ctx) fun f => { f with priStopped := true }) 1)) ∧
  (∀ s ctx req x p, Tbl.get? s.ctxs ctx = some x → Tbl.get? x.reqs req = some p → p.sent = true → replyHeld s ctx req = false →
    frontHeld s x.slice = false →
    Yields (.pageRequestTimeout ctx req) s fun s' => s' = takeReply s ctx req 2 true) ∧
  (∀ s ctx req keep x p, Tbl.get? s.ctxs ctx = some x → Tbl.get? x.reqs req = some p → p.prg = none →
    ∀ x', Tbl.get? (endRequest s ctx req keep).ctxs ctx = some x' → Tbl.get? x'.reqs req = none) ∧
  (∀ s func index, (s.func func).prgDead.contains index = true → Yields (.prgIndexReuseTimeout func index) s fun s' =>
    s' = sendReqs (s.modFunc func fun f => { f with prgDead := setDel f.prgDead index }) func) ∧
  (∀ s func, Yields (.priReset func) s fun s' => s' = sendReqs (s.modFunc func fun f => { f with prgDead := [], priStopped := false }) func) ∧
  (∀ s ctx page res x, Tbl.get? s.ctxs ctx = some x → Tbl.get? x.ats page = some none →
    (atsUsable s ctx res = true → Yields (.atsTranslationCompletion ctx page res) s fun s' =>
      ∃ x', Tbl.get? s'.ctxs ctx = some x' ∧ Tbl.get? x'.ats page = some (some res)) ∧
    (∀ r w pa stream, (s.func (funcOfCtx s ctx)).tdi = .run → stream ≠ (s.func (funcOfCtx s ctx)).stream →
      Yields (.atsTranslationCompletion ctx page (.success r w pa stream)) s fun s' => s' = s) ∧
    Yields (.atsTranslationTimeout ctx page) s (fun s' => ∃ x', Tbl.get? s'.ctxs ctx = some x' ∧ Tbl.get? x'.ats page = some (some .refused))) ∧
  (∀ s ctx lo len, (Tbl.get? s.ctxs ctx).isSome = true → Yields (.unmapInvalidation ctx lo len) s fun s' =>
    s' = startInval s ctx [(lo / 65536 * 65536, (lo + len + 65535) / 65536 * 65536 - lo / 65536 * 65536)] none) ∧
  (∀ s link ctx lo len x, Tbl.get? s.ctxs ctx = some x → link < 2 → linkOf s x.func = link ∨ x.func = 0 →
    (s.invals.filterMap fun p => p.2.ats.bind fun q => if q.1 = link then some q.2 else none).eraseDups.length < 32 →
    let q := (link, s.sec.invReqs)
    let both := (s.ctxs.filter fun p => p.2.func == x.func && p.2.pasid == x.pasid).map (·.1)
    Yields (.atsInvalidateRequest link ctx lo len) s fun s' =>
      s' = ackInval (both.foldl (fun s c => invalHost s c lo len q) { s with sec := { s.sec with invReqs := s.sec.invReqs + 1 } }) (some q)) ∧
  (∀ s ctx lo len q x, Tbl.get? s.ctxs ctx = some x →
    let es := (s.teams.filter fun p => p.2.ctx == ctx).flatMap (·.2.extents) ++ (s.entries.filter fun p => p.2.ctx == ctx).flatMap (·.2.extents) ++
      (s.bulk.cmds.filter fun p => p.2.ctx == ctx).flatMap fun p =>
        (cmdSpans p.2.rec_ (groupOf s p.2.func p.2.rec_) p.2.die).map fun q =>
          { range := 0, vlo := q.va, vhi := q.va + q.len, plo := 2 ^ 51, present := true }
    invalHost s ctx lo len q = startInval s ctx ((hostPages s x lo len es).eraseDups.map fun p => (p * 65536, 65536)) (some q)) ∧
  (∀ s q, ackInval s (some q) = if (∃ p ∈ s.invals, p.2.ats = some q) then s else { s with sec := { s.sec with invDone := s.sec.invDone ++ [q] } }) ∧
  (∀ s id v, Tbl.get? s.invals id = some v → (∀ t ∈ v.teams, ∀ x, s.team? t = some x → x.isHalted = true) →
    (∀ p ∈ s.ops, p.2.team ∈ v.teams → opInSpans p.2 v.phys = false) → (∀ p ∈ s.bulk.cmds, p.2.ctx = v.ctx → p.2.covers s v.spans = false) →
    Yields (.invalidationComplete id) s fun s' => Tbl.get? s'.invals id = none) ∧
  (∀ s id v, Tbl.get? s.invals id = some v → (∀ t ∈ v.teams, s.team? t = none) → (∀ p ∈ s.bulk.cmds, p.2.ctx = v.ctx → p.2.covers s v.spans = false) →
    Yields (.invalidationComplete id) s fun s' => s' = ackInval { s with invals := Tbl.del s.invals id } v.ats)

/-- Halting, resuming, switching (a quantum is counted from when its function comes to run, log entry 86), tearing down and trap entry (R378,
R383, R385, R386, R436, R363, R377, R375, R68, R112). -/
def Obligations.HaltEvents : Prop :=
  (∀ s tid t why, s.team? tid = some t → t.halt = .running → ∃ t', (haltTeam s tid why).team? tid = some t' ∧ t'.halt = .halting why) ∧
  (∀ s team t, s.team? team = some t → t.retired = false → Yields (.haltRequest team) s fun s' => s' = haltTeam s team .preempt) ∧
  (∀ s team t w, s.team? team = some t → t.halt = .halting w → haltDone s t = true →
    (∀ x, Tbl.get? s.ctxs t.ctx = some x → (s.slice x.slice).switching = none) → Yields (.haltComplete team) s fun s' =>
      s'.team? team = some { t with halt := .halted w, relaunch := if t.due then some s.nextId else t.relaunch, due := false } ∧ s'.svc.events = s.svc.events ++ [(5, team, 0, 0)]) ∧
  (∀ s team t x r, s.team? team = some t → Tbl.get? s.ctxs t.ctx = some x → serves s x = true →
    (t.halt = .halted .invalidation → ∀ p ∈ s.invals, team ∉ p.2.teams) → (t.relaunch.isSome = true → headOf s t.ctx = .relaunch team) →
    resumeTeam s team = some r → Yields (.resume team) s fun s' => s' = r) ∧
  (∀ s slice, (s.slice slice).switching = none → merging s slice = false → (s.slice slice).running = none →
    let bound := (s.funcs.filter fun p => p.2.slice == slice && p.2.enabled).map (·.1)
    (∀ g, bound.find? (hasWork s slice) = some g → Yields (.quantumExpiry slice) s fun s' => (s'.slice slice).running = some g) ∧
    (bound.find? (hasWork s slice) = none → Yields (.quantumExpiry slice) s fun s' => s' = s)) ∧
  (∀ s slice f, (s.slice slice).switching = none → merging s slice = false → (s.slice slice).running = some f →
    (s.slice slice).since + (s.func f).quantum * 16000 ≤ s.time.master → (∀ p ∈ teamsOfFunc s slice f, ∀ w, p.2.halt ≠ .halting w) →
    (∀ g, hasWork s slice g = false) → Yields (.quantumExpiry slice) s fun s' =>
      s' = s.modSlice slice fun x => { x with since := s.time.master }) ∧
  (∀ s slice f g, (s.slice slice).switching = none → merging s slice = false → (s.slice slice).running = some f →
    (s.slice slice).since + (s.func f).quantum * 16000 ≤ s.time.master → (∀ p ∈ teamsOfFunc s slice f, ∀ w, p.2.halt ≠ .halting w) →
    let bound := (s.funcs.filter fun p => p.2.slice == slice && p.2.enabled).map (·.1)
    ((bound.filter fun g => decide (f < g)) ++ bound.filter fun g => decide (g < f)).find? (hasWork s slice) = some g →
    Yields (.quantumExpiry slice) s fun s' => s' = finishSwitch ((teamsOfFunc s slice f).foldl (fun s p => haltTeam s p.1 .preempt)
      (s.modSlice slice fun x => { x with switching := some g })) slice) ∧
  (∀ s ctx, (Tbl.get? s.ctxs ctx).isSome = true → Yields (.contextTeardown ctx) s fun s' => Tbl.get? s'.ctxs ctx = none) ∧
  (∀ s crew c t, s.crew? crew = some c → c.pending.isSome = true → s.team? c.team = some t → t.halt = .running →
    Yields (.trapEntry crew) s fun s' => s' = enterTrap s crew) ∧
  (∀ s crew c t why, s.crew? crew = some c → c.trapping = true → s.team? c.team = some t → t.halt = .halting why → crew ∈ t.crews → haltDone s t = false) ∧
  (∀ s crew c t why, s.crew? crew = some c → c.trapping = true → s.team? c.team = some t → t.halt = .halting why →
    Yields (.trapEntry crew) s fun s' => s' = haltRecord (enterTrap s crew) crew why) ∧
  (∀ s crew cause c t, s.crew? crew = some c → s.team? c.team = some t → 1 ≤ cause.toNat → cause.toNat ≤ 3 →
    Yields (.uncorrectableStateError crew cause) s fun s' =>
    s' = endEntry s t.entry 0x00FE (endDetail 0 cause.toNat c.idx t.tidx)) ∧
  (∀ s a, inHbm a = true → spentOf s 0 (channelOf a) < ((budgetOf s (channelOf a / 16)).1.extractLsb' 48 16).toNat →
    Yields (.scrubSector (.flat a)) s fun s' => granOf a ∈ s'.poison) ∧
  (∀ s a, inHbm a = false → Yields (.scrubSector (.flat a)) s fun s' => s' = { s with poison := setAdd s.poison (granOf a) }) ∧
  (∀ s a, Yields (.scrubSector (.read a)) s fun s' => s' = { s with poison := setAdd s.poison (granOf a) }) ∧
  (∀ s core line word, (l1Line s core line).isSome = true → word < 32 → Yields (.scrubSector (.l1Word core line word)) s fun s' =>
    ∃ e e', l1Line s core line = some e ∧ l1Line s' core line = some e' ∧ e'.pois = setAdd e.pois word) ∧
  (∀ s team tile elem t, s.team? team = some t → tile < t.ntile → elem < 1024 → Yields (.scrubSector (.tile team tile elem)) s fun s' =>
    s' = s.setTeam team { t with tilePois := setAdd t.tilePois (1024 * tile + elem) }) ∧
  (∀ s s1 c t cause detail, ready s (.instructionFetchFault cause c.pc detail) = some (s1, c, t) → fetch s t c.pc = .fails cause detail →
    s1.crew? s1.cur = some c → c.spec = none → Yields (.instructionFetchFault cause c.pc detail) s fun s' => s' =
      raise s1 s1.cur { kind := .fetch, cause := cause, resume := c.pc, fault := c.pc, addr := c.pc.setWidth 64, detail := detail }) ∧
  (∀ w s c t, s.crew? s.cur = some c → s.team? c.team = some t → blocked s s.cur c t = false → c.started = true → traceHeld s s.cur c = false →
    c.spec = none → c.stalled = none → c.stallSum = 0 → s.fabric.starved = false → Yields (.illegalInstructionWord w) s fun s' => s' = raise s s.cur { kind := .illegal, resume := c.pc, fault := c.pc, word := w })

/-- The SRAM carve, the activity budgets, the trace registers and collectors, and the time master (R178 to R180, R447, R399, R402, R405, R409,
R396, R460): what each event writes, and what a refused register write sets. -/
def Obligations.CarveTraceTimeEvents : Prop :=
  (∀ s die, Tbl.getD s.svc.periods die 0 + 160000 ≤ s.time.master → Yields (.activityBudgetPeriod die) s fun s' => ∀ activity place, place < 65536 →
    spentOf s' activity place = if budgetDie activity place = die then 0 else spentOf s activity place) ∧
  (∀ s core n, 0 < n → n ≤ (takenDirty s core).length →
    spentOf s 5 core + n ≤ ((budgetOf s (core / 32)).2.extractLsb' 0 16).toNat → Yields (.carveWriteback core n) s fun s' =>
      (∀ l ∈ (takenDirty s core).take n, l ∉ takenDirty s' core ∧ dirtyLine s' l = false) ∧ SameBytes s s' ∧
      carveDirty (s'.core core).carvestat = (takenDirty s' core).length % 65536 ∧ spentOf s' 5 core = spentOf s 5 core + n) ∧
  (∀ s core, let k := s.core core
    takenDirty s core = [] → spoolOf k.sramcfg + pinfOf k.sramcfg ≤ 11 → heldTop s core = 0 →
    k.pool ≠ spoolOf k.sramcfg ∨ k.pinned ≠ pinfOf k.sramcfg → Yields (.carveComplete core) s fun s' =>
      (s'.core core).pool = spoolOf k.sramcfg ∧ (s'.core core).pinned = pinfOf k.sramcfg ∧ (s'.core core).carvestat = carveWord 0 0) ∧
  (∀ s core value, Yields (.sramcfgWrite core value) s fun s' =>
    if 11 < spoolOf (value &&& 0x3F) + pinfOf (value &&& 0x3F) then
      (s'.core core).sramcfg = (s.core core).sramcfg ∧ carveDirty (s'.core core).carvestat = carveDirty (s.core core).carvestat ∧
        (s'.core core).carvestat.extractLsb' 0 4 = 3
    else (s'.core core).sramcfg = value &&& 0x3F ∧ (∀ e ∈ takenLines s' core, e.2.dirty = true) ∧ (s'.core core).pool = (s.core core).pool ∧ (s'.core core).pinned = (s.core core).pinned) ∧
  (∀ s core f, coreFunc s core = some f → (s.core core).grantee = f → (s.func f).trace.stat.getLsbD 0 = true → min (8 - (s.core core).granted) (traceSpace s f) ≠ 0 →
    Yields (.traceReservationRefill core) s fun s' => (s'.core core).granted = (s.core core).granted + min (8 - (s.core core).granted) (traceSpace s f)) ∧
  (∀ s die src i, acceptable s die src = some i → spentOf s 3 die + writesOf s i ≤ ((budgetOf s die).1.extractLsb' 0 16).toNat →
    Yields (.traceAccept die src) s fun s' => s' = acceptRecord s i) ∧
  (∀ s i, ownDue s i = true → overruns s i = [] → copyDue s i = false → s.forwards = [] →
    let t := (s.func i.func).trace
    let a := traceBase t + 16 * (t.wp.toNat % 2 ^ ((t.buf.extractLsb' 60 4).toNat + 8))
    let key := if inHost (traceBase t) then 0 else (t.buf.extractLsb' 52 7).toNat
    ((acceptRecord s i).func i.func).trace.wp = t.wp + 1 ∧
      readBytes (acceptRecord s i) key a 16 = recordBytes i (Tbl.getD s.fabric.seq i.die 0)) ∧
  (∀ s die, Tbl.getD s.fabric.epochs die 0 + 1 ≤ dieTime s die / 2 ^ 40 → die < 64 → Yields (.epoch die) s fun s' =>
    Tbl.getD s'.fabric.epochs die 0 = Tbl.getD s.fabric.epochs die 0 + 1) ∧
  (∀ s func value, Yields (.trcfgWrite func value) s fun s' => (s'.func func).trace.cfg = value &&& 7 ∧
    (s'.func func).trace.stat.getLsbD 4 = if value.getLsbD 63 then value.getLsbD 62 else (s.func func).trace.stat.getLsbD 4) ∧
  (∀ s func value firmware, firmware = false ∨ (s.func func).trace.cfg.getLsbD 0 = true → Yields (.trbufWrite func value firmware) s fun s' =>
    (s'.func func).trace.buf = (s.func func).trace.buf ∧ (s'.func func).trace.stat = (s.func func).trace.stat ||| 4) ∧
  (∀ s func value, (s.func func).trace.cfg.getLsbD 0 = false → tdiLocked s func = false → Yields (.trbufWrite func value true) s fun s' =>
    (s'.func func).trace.buf = value &&& 0xF7FFFFFFFFFFF000) ∧
  (∀ s func value, Yields (.trrpWrite func value) s fun s' =>
    if (s.func func).trace.rp.toNat ≤ value.toNat ∧ value.toNat ≤ (s.func func).trace.wp.toNat then (s'.func func).trace.rp = value
    else (s'.func func).trace.rp = (s.func func).trace.rp ∧ (s'.func func).trace.stat = (s.func func).trace.stat ||| 8) ∧
  (∀ s offset, Yields (.ppsEdge offset) s fun s' => s'.time.ppscap = BitVec.ofNat 64 (dieTime s (masterDie s)) ∧ s'.time.master = s.time.master ∧
    s'.time.timestat.extractLsb' 62 2 = if -800 ≤ offset.toInt ∧ offset.toInt ≤ 800 then 2 else 1) ∧
  (∀ s offset, Yields (.ptmExchange offset) s fun s' => s'.time.master = s.time.master ∧
    s'.time.timestat.extractLsb' 62 2 = if -800 ≤ offset.toInt ∧ offset.toInt ≤ 800 then 2 else 1) ∧
  (∀ s, Yields .ptmFailureTimeout s fun s' => s'.time.timestat.extractLsb' 62 2 = 3) ∧
  (∀ s, s.time.timestat.getLsbD 32 = true → s.time.ppscap.toNat + 32000000000 ≤ dieTime s (masterDie s) → Yields .ppsLossTimeout s fun s' => s'.time.timestat = s.time.timestat &&& ~~~(1#64 <<< 32)) ∧
  (∀ (s : State) (units : Nat), s.time.measured = true → 16000000 < units → (s.time.timestat.setWidth 32).toInt = -(units : Int) → Yields (.timeForwardStep units) s fun s' =>
    s'.time = { s.time with master := s.time.master + units, measured := false }) ∧
  (∀ s value, Yields (.tbepochWrite value) s fun s' =>
    if ∃ p ∈ s.funcs, p.2.trace.cfg.getLsbD 0 = true then
      s'.time.tbepoch = s.time.tbepoch ∧ s'.time.timestat = s.time.timestat ||| (1#64 <<< 33)
    else s'.time.tbepoch = value &&& 0xFFFFFFFFFFFF)

/-- Slices, queues and admissions (R420, R427 to R435, R437, R444 to R446): a slice takes its cores and SLMEM at once when it is created or
grows, loses parts one by one, and is merged, split and reset; a refused write sets ERR; a notify moves TAIL or sets QERR; a queue is mapped,
reclaimed and fetched from; an admission claims, with its prefetch queued at once or when the bulk queue has a place, waits, is held, fails and starts again. -/
def Obligations.SliceAndQueueEvents : Prop :=
  let after := fun (s : State) (i : Nat) (rs : Ranges) => slcores (s.slice i).cores rs
  let lost := fun (s : State) (i : Nat) (rs : Ranges) (m : DWord) => lostParts s i (rangesOf (after s i rs)) m
  (∀ s i cores mem, i < 16 → sliceUsed s i = false → sliceBusy s i = false → rangesOk cores = true → cores ≠ [] → memOk mem = true →
    partsFree s i cores mem = true → lockedFuncs s i = [] → Yields (.sliceCreate i cores mem) s fun s' =>
      (s'.slice i).cores = after s i cores ∧ (s'.slice i).mem = mem ∧ s'.svc.capGen = s.svc.capGen + 1) ∧
  (∀ s i cores mem, i < 16 → sliceUsed s i = true ∨ memOk mem = false → Yields (.sliceCreate i cores mem) s fun s' => s' = sliceRefuse s i) ∧
  (∀ s i cores mem, let old := (s.slice i).mem
    i < 16 → sliceUsed s i = true → sliceBusy s i = false → (∀ c ∈ sliceCores s i, c ∈ coresOf cores) → (wgOf old &&& ~~~wgOf mem) = 0 →
    mem.extractLsb' 22 10 = old.extractLsb' 22 10 → chBase mem ≤ chBase old → chLim old ≤ chLim mem → rangesOk cores = true →
    memOk mem = true → partsFree s i cores mem = true → lockedFuncs s i = [] → Yields (.sliceGrow i cores mem) s fun s' =>
      (s'.slice i).cores = after s i cores ∧ (s'.slice i).mem = mem ∧ s'.svc.capGen = s.svc.capGen + 1) ∧
  (∀ s i cores mem, i < 16 → sliceUsed s i = false ∨ sliceBusy s i = true → Yields (.sliceGrow i cores mem) s fun s' => s' = sliceRefuse s i) ∧
  (∀ s i cores mem, i < 16 → shrinkOk s i cores mem = true → lost s i cores mem ≠ [] → Yields (.sliceShrink i cores mem) s fun s' =>
    (s'.slice i).leaving = lost s i cores mem ∧ (s'.slice i).cores = (s.slice i).cores ∧
      (s'.slice i).target = some (after s i cores, mem)) ∧
  (∀ s i cores mem, i < 16 → shrinkOk s i cores mem = false → Yields (.sliceShrink i cores mem) s fun s' => s' = sliceRefuse s i) ∧
  (∀ s i, (s.slice i).leaving = [] → (s.slice i).splitTo = none → ∀ cs m, (s.slice i).target = some (cs, m) →
    ((endShrink s i).slice i).cores = cs ∧ ((endShrink s i).slice i).mem = m) ∧
  (∀ s a b rs lo hi, a < 16 → b < 16 → a ≠ b → sliceUsed s a = true → sliceUsed s b = true → sliceBusy s a = false → sliceBusy s b = false →
    joinRanges (rangesIn (s.slice a)) (rangesIn (s.slice b)) = some rs → chLim (s.slice a).mem + 1 = chBase (s.slice b).mem →
    lo = chBase (s.slice a).mem → hi = chLim (s.slice b).mem → lockedFuncs s a = [] → lockedFuncs s b = [] →
    (∀ p ∈ s.teams, p.2.retired = true ∨ ∀ x, Tbl.get? s.ctxs p.2.ctx = some x → x.slice ≠ b) →
    groupDirty s ((List.range 16).filter fun g => (wgOf (s.slice b).mem).getLsbD g) = [] →
    (s.slice a).target = none → (s.slice a).splitTo = none → (s.slice b).leaving = [] →
    Yields (.sliceMerge a b) s fun s' => (s'.slice a).cores = after s a rs ∧ chBase (s'.slice a).mem = lo ∧ chLim (s'.slice a).mem = hi ∧
      s'.slice b = { cores := after s b [], fab := (s.slice b).fab, stat := (s.slice b).stat &&& 0x100 } ∧ ∀ f, Tbl.get? s.funcs f ≠ none → (s'.func f).slice = if (s.func f).slice = b then a else (s.func f).slice) ∧
  (∀ s a b, a < 16 → b < 16 → a ≠ b → joinRanges (rangesIn (s.slice a)) (rangesIn (s.slice b)) = none →
    Yields (.sliceMerge a b) s fun s' => s' = sliceRefuse s a) ∧
  (∀ s a b cores memA memB, let old := (s.slice a).mem
    let keep := ((s.slice a).cores.map fun p =>
      let cs := (sliceCores s a).filter fun c => c / 32 == p.1 && !(coresOf cores).contains c
      cs.head?.map fun c => (p.1, c % 32, (cs.getLastD c) % 32)).filterMap id
    a < 16 → b < 16 → a ≠ b → (∀ c ∈ coresOf cores, c ∈ sliceCores s a) → (wgOf memB &&& ~~~wgOf old) = 0 → (wgOf memA &&& wgOf memB) = 0 →
    chBase old ≤ chBase memB → chLim memB ≤ chLim old → chLim memA < chBase memB ∨ chLim memB < chBase memA → rangesOk cores = true →
    cores ≠ [] → memOk memB = true → sliceUsed s b = false → sliceBusy s b = false → lockedFuncs s b = [] →
    (∀ c ∈ coresOf keep, c ∉ coresOf cores) → shrinkOk s a keep memA = true → lost s a keep memA ≠ [] →
    Yields (.sliceSplit a b cores memA memB) s fun s' => (s'.slice a).leaving = lost s a keep memA ∧ (s'.slice a).splitTo = some b ∧
      (s'.slice b).target = some (after s b cores, memB)) ∧
  (∀ s i part, part ∈ (s.slice i).leaving → (∃ q ∈ (s.slice i).leaving, q ≠ part) →
    (∀ c, part = .core c → teamsOn s c = []) → (∀ w, part = .wayGroup w → groupDirty s [w] = []) →
    (∀ k, part = .channelSet k → setMapped s i k = false) → Yields (.sliceReleaseProgress i part) s fun s' =>
      (s'.slice i).leaving = (s.slice i).leaving.filter (· != part)) ∧
  (∀ s i w, .wayGroup w ∉ (s.slice i).leaving → w ∈ (s.slice i).taken → groupDirty s [w] = [] →
    Yields (.sliceReleaseProgress i (.wayGroup w)) s fun s' => (s'.slice i).taken = setDel (s.slice i).taken w ∧
      ∀ e ∈ s'.l2, e.way / 2 ≠ w) ∧
  (∀ s i, i < 16 → sliceUsed s i = true → (s.slice i).stat.extractLsb' 4 4 ≠ 6 → Yields (.sliceReset i) s fun s' =>
    (s'.slice i).stat.extractLsb' 4 4 = 6 ∧ (s'.slice i).stat.extractLsb' 0 4 = 4 ∧ (s'.slice i).running = none) ∧
  (∀ s i, i < 16 → sliceUsed s i = true → (s.slice i).stat.extractLsb' 4 4 = 6 → (s.slice i).leaving = [] → Yields (.sliceReset i) s fun s' =>
    (s'.slice i).stat.extractLsb' 0 8 = 0) ∧
  (∀ s func queue value, Tbl.get? (s.func func).queues queue = none →
    Yields (.queueNotify func queue value) s fun s' => s' = tellFirmware s 1 func queue (value.setWidth 16 : BitVec 16).toNat) ∧
  (∀ s func queue value q, Tbl.get? (s.func func).queues queue = some q → 2 ^ q.log2n < ((value.setWidth 16 : BitVec 16) - q.head).toNat →
    Yields (.queueNotify func queue value) s fun s' => s' = setQerr s func queue 0) ∧
  (∀ s func queue value q, Tbl.get? (s.func func).queues queue = some q →
    ((value.setWidth 16 : BitVec 16) - q.head).toNat ≤ 2 ^ q.log2n → Yields (.queueNotify func queue value) s fun s' =>
      Tbl.get? (s'.func func).queues queue = some { q with tail := value.setWidth 16 } ∧
      (q.slot = none → value.setWidth 16 ≠ q.tail → queue ∈ (s'.func func).pendingNotify)) ∧
  (∀ s func queue slot q, Tbl.get? (s.func func).queues queue = some q → q.slot = none → slot < 64 →
    (s.func func).enabled = true → Tbl.get? (s.slice (s.func func).slice).slots slot = none → Yields (.queueMap func queue slot) s fun s' =>
      Tbl.get? (s'.func func).queues queue = some { q with slot := some slot } ∧ queue ∉ (s'.func func).pendingNotify ∧
      Tbl.get? (s'.slice (s.func func).slice).slots slot = some { func := func, queue := queue, since := s.time.master }) ∧
  (∀ s func queue q k, Tbl.get? (s.func func).queues queue = some q → q.slot = some k → q.np = false →
    Yields (.queueMap func queue 64) s fun s' => s' = unmapSlot s (s.func func).slice k) ∧
  (∀ s slice slot m q, Tbl.get? (s.slice slice).slots slot = some m → Tbl.get? (s.func m.func).queues m.queue = some q → q.np = true →
    m.since + q.runmax * 16000 ≤ s.time.master → Yields (.npQueueReclaim slice slot) s fun s' =>
      s' = tellFirmware (unmapSlot s slice slot) 4 m.func m.queue 0) ∧
  (∀ s slice slot m q, Tbl.get? (s.slice slice).slots slot = some m → Tbl.get? (s.func m.func).queues m.queue = some q →
    (∀ p ∈ (s.slice slice).slots, slotDue s p.2 = true → p.1 = slot) → slotDue s m = true → (slot, m) ∈ (s.slice slice).slots →
    underReset s slice = false → frontHeld s slice = false → m.failed = false →
    let va := q.ring + 256 * (q.head.toNat % 2 ^ q.log2n)
    let s1 := s.modSlice slice fun x => { x with turn := slot + 1 }
    (∀ r, tableRead s1 q.ctx va 256 = .bytes r → Yields (.queueSlotFetch slice slot) s fun s' =>
      s' = takeRing s1 slice m.func m.queue q va r) ∧
    (tableRead s1 q.ctx va 256 = .fails → Yields (.queueSlotFetch slice slot) s fun s' =>
      s' = advanceHead (setQerr s1 m.func m.queue 1) m.func m.queue)) ∧
  (∀ s id a, Tbl.get? s.admissions id = some a → tableOwned s a = false → a.st = .trying →
    let goes := fun (st : AdmitSt) => Yields (.adapterAdmission id) s fun s' => s' = { s with admissions := Tbl.put s.admissions id { a with st := st } }
    (findSlot s a (slotOrder a) = .none → goes .held) ∧ (∀ i, findSlot s a (slotOrder a) = .loading i → goes (.waiting i)) ∧
    (findSlot s a (slotOrder a) = .fails → Yields (.adapterAdmission id) s fun s' => s' = failAdmission s id a) ∧
    (∀ i r, findSlot s a (slotOrder a) = .ready i → queueAdmitted s id a i false = some r → Yields (.adapterAdmission id) s fun s' => s' = r) ∧
    (∀ i c w, findSlot s a (slotOrder a) = .claim i → prefetchCmd s a i = some c → ownerAcc s a i = some w →
      (waitingCmds s c.die 0 c.func).length < 64 → Yields (.adapterAdmission id) s fun s' =>
        (∃ a', Tbl.get? s'.admissions id = some a' ∧ ∃ n, a'.st = .loading i n ∧ Tbl.get? s'.bulk.cmds n = some c)) ∧
    (∀ i c w, findSlot s a (slotOrder a) = .claim i → prefetchCmd s a i = some c → ownerAcc s a i = some w →
      64 ≤ (waitingCmds s c.die 0 c.func).length → Yields (.adapterAdmission id) s fun s' =>
        ∃ a', Tbl.get? s'.admissions id = some a' ∧ a'.st = .claimed i ∧ s'.bulk.cmds = s.bulk.cmds)) ∧
  (∀ s id a i c, Tbl.get? s.admissions id = some a → tableOwned s a = false → a.st = .claimed i → prefetchCmd s a i = some c →
    (waitingCmds s c.die 0 c.func).length < 64 → Yields (.adapterAdmission id) s fun s' =>
      (∃ a', Tbl.get? s'.admissions id = some a' ∧ ∃ n, a'.st = .loading i n ∧ Tbl.get? s'.bulk.cmds n = some c) ∧ s'.mem = s.mem) ∧
  (∀ s id a i code, Tbl.get? s.admissions id = some a → tableOwned s a = false → a.st = .loaded i code → code ≠ 0 →
    Yields (.adapterAdmission id) s fun s' => s' = failAdmission (freeOwner s a i) id a) ∧
  (∀ s id a i w r, Tbl.get? s.admissions id = some a → tableOwned s a = false → a.st = .waiting i → ownerAcc s a i = some w →
    (ownerWord s w).getLsbD 63 = false → queueAdmitted s id a i false = some r → Yields (.adapterAdmission id) s fun s' => s' = r) ∧
  (∀ s id a, Tbl.get? s.admissions id = some a → a.st = .held → findSlot s a (slotOrder a) ≠ .none →
    (∀ p ∈ s.admissions, p.1 < id → p.2.ctx = a.ctx → p.2.table = a.table → p.2.st ≠ .held) → Yields (.admissionRetry id) s fun s' =>
      s' = { s with admissions := Tbl.put s.admissions id { a with st := .trying } })

/-- Live migration, and requests from the pod and the host (R439 to R443, R302 to R304, R288, R228, R376): a command takes a forwarding entry; a
line's bytes are copied, or the write fails, when `Config.moveFails` says so (a free value, log entry 55); the report is written; a request is refused with its reason or performed and answered. -/
def Obligations.MigrationAndRequestEvents : Prop :=
  (∀ s die src dst psize func report i, let n := psizeBytes psize
    die < 64 → report % 32 = 0 → psize ≤ 2 → src % n = 0 → dst % n = 0 → inHbm src = true → inHbm (dst + n - 1) = true →
    sliceHasAddr s (s.func func).slice dst = true → sliceHasAddr s (s.func func).slice (dst + n - 1) = true → src + n ≤ dst ∨ dst + n ≤ src →
    ((List.range 1024).find? fun i => (Tbl.get? s.forwards (1024 * die + i)).isNone) = some i →
    Yields (.migrationCommand die src dst psize func report) s fun s' =>
      s' = { s with forwards := Tbl.put s.forwards (1024 * die + i) { src := src, dst := dst, size := n, func := func, report := report } }) ∧
  (∀ s die src dst psize func report, die < 64 → report % 32 = 0 → 2 < psize ∨ src % psizeBytes psize ≠ 0 ∨
    (src < dst + psizeBytes psize ∧ dst < src + psizeBytes psize) → Yields (.migrationCommand die src dst psize func report) s fun s' =>
      s' = performBytes s none none {} report
        (moveReport { src := src, dst := dst, size := psizeBytes psize, func := func, report := report } fun _ _ => 2) false (storeCause none)) ∧
  (∀ s die entry f, Tbl.get? s.forwards (1024 * die + entry) = some f → f.done = false → f.failed = false → 128 * f.copied < f.size →
    spentOf s 1 die < ((budgetOf s die).1.extractLsb' 32 16).toNat → ownedBefore s s.nextOp (f.src + 128 * f.copied) 128 = false →
    ownedBefore s s.nextOp (f.dst + 128 * f.copied) 128 = false → Yields (.migrationLineCopy die entry) s fun s' =>
      spentOf s' 1 die = spentOf s 1 die + 1 ∧ ∃ f', Tbl.get? s'.forwards (1024 * die + entry) = some f' ∧
        if Config.moveFails s.clock (lineOf f.dst + f.copied) then f' = { f with failed := true } else f'.copied = f.copied + 1) ∧
  (∀ s die entry f, Tbl.get? s.forwards (1024 * die + entry) = some f → f.done = false → f.failed = true ∨ f.size = 128 * f.copied →
    Yields (.migrationDone die entry) s fun s' => Tbl.get? s'.forwards (1024 * die + entry) = some { f with done := true }) ∧
  (∀ s die entry f, Tbl.get? s.forwards (1024 * die + entry) = some f → f.done = true → Yields (.forwardingEntryRetire die entry) s fun s' =>
    s' = { s with forwards := Tbl.del s.forwards (1024 * die + entry) }) ∧
  (∀ s req r, podTarget s req.rfunc req.src req.win req.off req.size (podKind req.op) = .error r →
    Yields (.podRequestReceive req) s fun s' => s' = answer s r [] false) ∧
  (∀ s req pa key sa, podTarget s req.rfunc req.src req.win req.off req.size (podKind req.op) = .ok (pa, key, sa) →
    openFor s pa req.size (podKind req.op != .load) = true →
    (req.op = .load → Yields (.podRequestReceive req) s fun s' =>
      s' = answer s 0 (readBytes s key pa req.size) (anyPoison s pa req.size)) ∧
    (∀ data, req.op = .store data → s.forwards = [] → Yields (.podRequestReceive req) s fun s' =>
      (∀ i, i < req.size → readByte s' key (pa + i) = data.getD i 0) ∧
      ∀ x, x < pa ∨ pa + req.size ≤ x → readByte s' key x = readByte s key x) ∧
    (∀ op ty xs, req.op = .atomic op ty xs → s.forwards = [] → anyPoison s pa req.size = false →
      let r := atomicFold op ty.toNat xs (leVal (readBytes s key pa req.size))
      Yields (.podRequestReceive req) s fun s' => s'.sec.replies = s.sec.replies ++ [(0, r.1.flatMap (leBytes req.size), false)] ∧
        ∀ i, i < req.size → readByte s' key (pa + i) = if r.2.2 then BitVec.ofNat 8 (r.2.1 / 256 ^ i) else readByte s key (pa + i))) ∧
  (∀ s n k o a res, Tbl.get? s.ops n = some o → askedAcc o k = some a → awaited s o a = true →
    (∀ r, res = .refused r → inHost a.pa = true ∨ (1 ≤ r ∧ r ≤ 6)) → (∀ bs, res = .data bs ∨ res = .poisoned bs → inHost a.pa = false) →
    Yields (.podResponse n k res) s fun s' => s' = s.modOp n fun o => putAnswer o k res) ∧
  (∀ s n k o a, Tbl.get? s.ops n = some o → askedAcc o k = some a → awaited s o a = true → inPod a.pa = true →
    Yields (.podResponseTimeout n k) s fun s' => s' = s.modOp n fun o => putAnswer o k (.refused 2)) ∧
  (∀ s pa kind size operand cmp p rest, (size = 4 ∨ size = 8) → pa % size = 0 → inHbm pa = true → mappingsOf s pa = (p, true) :: rest →
    openFor s pa size true = true → s.forwards = [] → anyPoison s pa size = false →
    let op : AtomicOp := if kind = .fetchAdd then .add else if kind = .swap then .xch else .cas
    let r := atomicFold op (if size = 8 then 13 else 7) [(operand, cmp)] (leVal (readBytes s p.key pa size))
    Yields (.hostAtomicop pa kind size operand cmp) s fun s' => s'.sec.replies = s.sec.replies ++ [(0, r.1.flatMap (leBytes size), false)] ∧
      ∀ i, i < size → readByte s' p.key (pa + i) = if r.2.2 then BitVec.ofNat 8 (r.2.1 / 256 ^ i) else readByte s p.key (pa + i)) ∧
  (∀ s pa kind size operand cmp, (size = 4 ∨ size = 8) → pa % size = 0 → inHbm pa = false ∨ mappingsOf s pa = [] →
    Yields (.hostAtomicop pa kind size operand cmp) s fun s' => s' = answer s 7 [] false) ∧
  (∀ s pa data, data ≠ [] → inHbm pa = true → inHbm (pa + data.length - 1) = true → openFor s pa data.length true = true → s.forwards = [] →
    Yields (.hostMemoryWrite pa data) s fun s' =>
      (∀ i, i < data.length → readByte s' (hostAttr s pa).key (pa + i) = data.getD i 0) ∧
      ∀ x, x < pa ∨ pa + data.length ≤ x → readByte s' (hostAttr s pa).key x = readByte s (hostAttr s pa).key x) ∧
  (∀ s pa n, 0 < n → inHbm pa = true → inHbm (pa + n - 1) = true → openFor s pa n false = true → Yields (.hostMemoryRead pa n) s fun s' =>
    s' = answer s 0 (readBytes s (hostAttr s pa).key pa n) (anyPoison s pa n)) ∧
  (∀ s pa n, inHbm pa = false → Yields (.hostMemoryRead pa n) s fun s' => s' = answer s 7 [] false)

/-- Writes that reach the BARs (R448 to R452, R420 to R425, R468, R474): what each part of BAR0 does, the mailbox doorbells, and the table port's
entries in memory; what can be read back, and what reads as zero. The layout of the MSI-X table and its mask after reset are log entry 123's, and
configuration space is log entry 125's. -/
def Obligations.RegisterEvents : Prop :=
  (∀ s func inbound value, (Tbl.get? s.funcs func).isSome = true → Yields (.mailboxDoorbell func inbound value) s fun s' =>
    if inbound then (s'.func func).mailIn = (s.func func).mailIn ++ [value]
    else (s'.func func).mailOut = (s.func func).mailOut ++ [value] ∧
      if ((s.func func).msixWord 1).getLsbD 32 then 0 ∈ (s'.func func).msixPend
      else (s'.func func).msix = (s.func func).msix ++ [(0, ((s.func func).msixWord 0).toNat, ((s.func func).msixWord 1).toNat % 2 ^ 32)]) ∧
  (∀ s link func off size value stream, off < 2 ^ 32 → barReached s link func off stream = false →
    Yields (.registerWrite link func off size value stream) s fun s' => s' = answer s 7 [] false) ∧
  (∀ s link func off value stream, barReached s link func off stream = true → s.svc.recovery = false → off % 8 = 0 →
    let write := fun (q : State → Prop) => Yields (.registerWrite link func off 8 value stream) s q
    (off < 0x8000 → exec (.registerWrite link func off 8 value stream) s = exec (.queueNotify func (off / 8) value) s) ∧
    (off = 0x8000 → exec (.registerWrite link func off 8 value stream) s = exec (.trcfgWrite func (value &&& 7)) s) ∧
    (off = 0x8008 → exec (.registerWrite link func off 8 value stream) s = exec (.trbufWrite func value false) s) ∧
    (off = 0x8018 → exec (.registerWrite link func off 8 value stream) s = exec (.trrpWrite func value) s) ∧
    (off = 0x8020 → write fun s' => (s'.func func).trace.filt = value &&& 0xFFFFFFFF8F000000) ∧
    (off = 0x8028 → write fun s' => (s'.func func).trace.dies = value) ∧
    (off = 0x8030 → write fun s' => (s'.func func).trace.stat = (s.func func).trace.stat &&& ~~~(value &&& 0xC)) ∧
    (0xA000 ≤ off → off < 0xE000 ∨ 0xE080 ≤ off → off < 0x100000 → write fun s' => s' = s) ∧
    (∀ i, i < 16 → off = 0xE000 + 8 * i → write fun s' => s' = writeMsix s func i value) ∧
    (∀ x, off = 0x100000 + x → exec (.registerWrite link func off 8 value stream) s = writeExpert s x value)) ∧
  (∀ s link func size o value stream, Yields (.registerWrite link func (2 ^ 32 + o) size value stream) s fun s' => s' = writeConfig s link func o value) ∧
  (∀ s func i value, i < 16 → (s.func func).tdi ≠ .error → s.svc.recovery = false → (Tbl.get? s.funcs func).isSome = true →
    readWord (writeMsix s func i value) func (0xE000 + 8 * i) = if i % 2 = 1 then value &&& 0x1FFFFFFFF else value &&& ~~~3#64) ∧
  (∀ s link func off value stream, barReached s link func off stream = true → s.svc.recovery = false → (s.func func).tdi ≠ .error →
    let held := Yields (.registerWrite link func off 8 value stream) s fun s' => readWord s' func off = value
    (off = 0x8028 → held) ∧ (off = 0x105048 ∨ off = 0x105050 → groupOn s 5 = true → held)) ∧
  (∀ s func off, (s.func func).tdi = .error ∨ off < 0x8000 ∨ (0xE080 ≤ off ∧ off < 0x100000 ∧ off ≠ 0xE800) ∨
    (0x100000 ≤ off ∧ s.sec.groups = []) →
    readWord s func off = 0) ∧
  (∀ s link func off value stream, barReached s link func off stream = true → s.svc.recovery = true → off < 0x9000 →
    Yields (.registerWrite link func off 8 value stream) s fun s' => s' = s) ∧
  (∀ s x v, s.sec.groups = [] → writeExpert s x v = .next s) ∧
  (∀ s i value, groupOn s 0 = true → i < 16 → lockedFuncs s i = [] →
    let v : DWord := value &&& 0xFFFF0000FFFF00FF
    writeExpert s (0x2080 + 8 * i) value = .next (if v.extractLsb' 48 16 = 0 ∨ v.extractLsb' 16 16 = 0 ∨ 1024 < (v.extractLsb' 16 16).toNat ∨
        v.extractLsb' 0 8 = 0 ∨ 32 < (v.extractLsb' 0 8).toNat then sliceRefuse s i
      else capChange (s.modSlice i fun x => { x with fab := v }))) ∧
  (∀ s, selTable s = 0 → groupOn s 5 = true → ∀ b, (s.func (selFunc s)).peerBase = some b → selIndex s ≤ 1023 → tdiLocked s (selFunc s) = false →
    Yields .tblgoPeer s fun s' => s' = performBytes s none none {} (b + 8 * selIndex s) (leBytes 8 s.sec.tbldat0.toNat) false (storeCause none)) ∧
  (∀ s, selTable s = 0 → groupOn s 5 = true → ∀ b, (s.func (selFunc s)).peerBase = some b → s.forwards = [] → b + 8192 < 2 ^ 51 → selIndex s ≤ 1023 →
    tdiLocked s (selFunc s) = false → Yields .tblgoPeer s fun s' => ∀ i, i < 8 →
      readByte s' 0 (b + 8 * selIndex s + i) = BitVec.ofNat 8 (s.sec.tbldat0.toNat / 256 ^ i)) ∧
  (∀ s, groupOn s 5 = true → (selTable s = 0 → (s.func (selFunc s)).peerBase = none → Yields .tblgoPeer s fun s' => s' = tblRefuse s) ∧
    (selTable s = 1 → (s.func (selFunc s)).winBase = none → Yields .tblgoWindow s fun s' => s' = tblRefuse s) ∧
    (selTable s = 2 → (s.func (selFunc s)).routeBase = none → Yields .tblgoRouting s fun s' => s' = tblRefuse s)) ∧
  (∀ s, groupOn s 5 = true → tdiLocked s (selFunc s) = true → let refused := fun i => Yields i s fun s' => s' = lockedError (tblRefuse s) (selFunc s)
    (selTable s = 0 → (s.func (selFunc s)).peerBase.isSome = true → refused .tblgoPeer) ∧
    (selTable s = 1 → (s.func (selFunc s)).winBase.isSome = true → refused .tblgoWindow) ∧
    (selTable s = 2 → (s.func (selFunc s)).routeBase.isSome = true → refused .tblgoRouting)) ∧
  (∀ s, selTable s = 1 → groupOn s 5 = true → ∀ b, (s.func (selFunc s)).winBase = some b → tdiLocked s (selFunc s) = false →
    Yields .tblgoWindow s fun s' => s' = performBytes s none none {} (b + 16 * selIndex s)
      (leBytes 8 s.sec.tbldat0.toNat ++ leBytes 8 s.sec.tbldat1.toNat) false (storeCause none)) ∧
  (∀ s, selTable s = 2 → groupOn s 5 = true → ∀ b, (s.func (selFunc s)).routeBase = some b → selIndex s ≤ 1023 → tdiLocked s (selFunc s) = false →
    Yields .tblgoRouting s fun s' => s' = performBytes s none none {} (b + 8 * selIndex s) (leBytes 8 s.sec.tbldat0.toNat) false (storeCause none)) ∧
  (∀ s i, (selTable s = 0 ∨ selTable s = 1 ∨ selTable s = 2) → i = (if selTable s = 0 then .tblgoPeer else if selTable s = 1 then .tblgoWindow else .tblgoRouting) →
    groupOn s 5 = false → Yields i s fun s' => s' = s)

/-- Memory keys, function-level reset, link encryption, device interfaces and attestation (R454, R461 to R470). A key operation is two moves:
the write, which sets KEYSTAT.STATE or is refused, and its end. -/
def Obligations.SecurityEvents : Prop :=
  (∀ s index func, s.sec.keyOp = none → tdiLocked s func = false →
    let bad := index = 0 ∨ 128 ≤ index ∨ func = 0 ∨ (Tbl.get? s.funcs func).isNone = true ∨
      (Tbl.getD s.sec.keys index {}).owner.isSome = true ∨ (s.func func).key.isSome = true
    (¬ bad → Yields (.keyAssign index func) s fun s' => s' = keyState s (some (.assign index func))) ∧
    (bad → Yields (.keyAssign index func) s fun s' => s' = keyRefuse s)) ∧
  (∀ s index func, s.sec.keyOp = some (.assign index func) → Yields (.keyAssign index func) s fun s' =>
    Tbl.get? s'.sec.keys index = some { owner := some func, gen := (Tbl.getD s.sec.keys index {}).gen + 1 } ∧
      (s'.func func).key = some index ∧ s'.sec.keyOp = none) ∧
  (∀ s index func, s.sec.keyOp = none → tdiLocked s func = true → Yields (.keyAssign index func) s fun s' => s' = lockedError (keyRefuse s) func) ∧
  (∀ s index func, s.sec.keyOp = none → (Tbl.getD s.sec.keys index {}).owner = some func → Yields (.keyRetire index) s fun s' =>
    s' = if tdiLocked s func then lockedError (keyRefuse s) func else if index = 0 then keyRefuse s else keyState s (some (.retire index))) ∧
  (∀ s index func, s.sec.keyOp = some (.retire index) → (Tbl.getD s.sec.keys index {}).owner = some func →
    Yields (.keyRetire index) s fun s' => (s'.func func).key = none ∧ s'.sec.keyOp = none ∧
      ∃ k, Tbl.get? s'.sec.keys index = some k ∧ k.owner = none ∧ (Tbl.getD s.sec.keys index {}).gen < k.gen) ∧
  (∀ s index, (Tbl.getD s.sec.keys index {}).owner = none → Yields (.keyRetire index) s fun s' => s' = keyRefuse s) ∧
  (∀ s op, (keyState s (some op)).sec.keystat = (s.sec.keystat &&& 4) ||| (match op with | .assign _ _ => 1 | .retire _ => 2)) ∧
  (∀ s func, func ≠ 0 → (Tbl.get? s.funcs func).isSome = true → Yields (.functionLevelReset func) s fun s' =>
    (s'.func func).trace.cfg = 0 ∧ (s'.func func).bulkKeys = []) ∧
  (∀ s, (Tbl.get? s.funcs 0).isSome = true → Yields (.functionLevelReset 0) s fun s' => s' = s.funcs.foldl (fun s p => resetFunc s p.1) s) ∧
  (∀ s f, s.funcs = [(0, f)] → Yields (.functionLevelReset 0) s fun s' => (s'.func 0).trace.cfg = 0 ∧ (s'.func 0).bulkKeys = []) ∧
  (∀ s link stream, secured s = true → link < 2 → stream ≤ 16 → Yields (.ideKmKeyProgram link stream) s fun s' => (link, stream) ∈ s'.sec.streams) ∧
  (∀ s link stream, (∀ p ∈ s.funcs, p.2.stream ≠ some stream) → Yields (.ideIntegrityFailure link stream) s fun s' =>
    s' = { s with sec := { s.sec with streams := s.sec.streams.filter (· != (link, stream)) } }) ∧
  (∀ s link stream p, s.funcs = [p] → p.2.stream = some stream → linkOf s p.1 = link → p.2.tdi = .run →
    Yields (.ideIntegrityFailure link stream) s fun s' => (s'.func p.1).tdi = .error ∧
      (if (p.2.msixWord 7).getLsbD 32 then 3 ∈ (s'.func p.1).msixPend
       else (3, (p.2.msixWord 6).toNat, (p.2.msixWord 7).toNat % 2 ^ 32) ∈ (s'.func p.1).msix)) ∧
  (∀ s vf stream, isTdi s vf = true → Yields (.lockInterfaceRequest vf stream) s fun s' =>
    if (s.func vf).tdi = .unlocked then (s'.func vf).tdi = .locked ∧ (s'.func vf).stream = some stream ∧ (s'.func vf).requester = s.sec.session
    else (s'.func vf).tdi = .error) ∧
  (∀ s vf, isTdi s vf = true → Yields (.startInterfaceRequest vf) s fun s' =>
    (s'.func vf).tdi = if (s.func vf).tdi = .locked then .run else .error) ∧
  (∀ s vf, isTdi s vf = true → Yields (.stopInterfaceRequest vf) s fun s' => (s'.func vf).tdi = .unlocked ∧ (s'.func vf).stream = none) ∧
  (∀ s vf, isTdi s vf = true → tdiLocked s vf = true → Yields (.deviceInterfaceReport vf) s fun s' =>
    s' = { s with sec := { s.sec with reports := s.sec.reports ++ [(vf, barRanges)] } }) ∧
  (∀ s vf, isTdi s vf = true → tdiLocked s vf = false → Yields (.deviceInterfaceReport vf) s fun s' => (s'.func vf).tdi = .error) ∧
  (∀ s, Yields .getVersion s fun s' => s' = respond s .version 0 [0x12, 0x13]) ∧
  (∀ s, Yields .getCapabilities s fun s' => ∃ b, s' = respond s .capabilities 0 b) ∧
  (∀ s hash kex aead, Yields (.negotiateAlgorithms hash kex aead) s fun s' =>
    if hash / 2 % 2 = 1 ∧ kex / 16 % 2 = 1 ∧ aead / 2 % 2 = 1 then
      s'.sec.negotiated = true ∧ ∃ m ∈ s'.sec.outbox, m.code = .algorithms ∧ m.algs = [.rsaPss3072Sha384Salt48, .slhDsaSha2_192s]
    else s' = spdmError s) ∧
  (∀ s, Yields .getDigests s fun s' => if s.svc.identity then ∃ b, s' = respond s .digests 0 b else s' = spdmError s) ∧
  (∀ s slot, Yields (.getCertificate slot) s fun s' =>
    if s.svc.identity = true ∧ slot < 2 then ∃ b, s' = respond s .certificate slot b else s' = spdmError s) ∧
  (∀ s slot nonce, Yields (.challenge slot nonce) s fun s' =>
    if s.svc.identity = true ∧ slot < 2 then ∃ b, s' = respond s .challengeAuth slot b [slotAlg slot] else s' = spdmError s) ∧
  (∀ s slot index nonce, Yields (.getMeasurements slot index nonce) s fun s' =>
    if s.svc.identity = true ∧ slot < 2 ∧ (index = 0xFF ∨ index ∈ measureIndices) then
      ∃ b, s' = respond s .measurements slot b [slotAlg slot] else s' = spdmError s) ∧
  (∀ s slot nonce, Yields (.keyExchange slot nonce) s fun s' =>
    if s.svc.identity = true ∧ slot < 2 ∧ s.sec.negotiated = true ∧ s.sec.session = none then
      s'.sec.session = some s.sec.sessions ∧ s'.sec.finished = false ∧ s'.sec.sessions = s.sec.sessions + 1 ∧
        ∃ m ∈ s'.sec.outbox, m.code = .keyExchangeRsp ∧ m.algs = [slotAlg slot]
    else s' = spdmError s) ∧
  (∀ s, Yields .finish s fun s' => if s.sec.session.isSome = true ∧ s.sec.finished = false then secured s' = true else s' = spdmError s) ∧
  (∀ s, Yields .endSession s fun s' => if secured s = true then s'.sec.session = none ∧ secured s' = false else s' = spdmError s) ∧
  (∀ s func slot key, (Tbl.get? s.funcs func).isSome = true → (s.func func).tdi = .unlocked → slot < 64 →
    Yields (.keyLoad func (.mailbox slot) key) s fun s' => Tbl.get? (s'.func func).bulkKeys slot = (if key = 0 then none else some key)) ∧
  (∀ s func slot key, Yields (.keyLoad func (.session slot) key) s fun s' =>
    if secured s = true ∧ tdiLocked s func = true ∧ (s.func func).requester = s.sec.session ∧ slot < 64 then
      Tbl.get? (s'.func func).bulkKeys slot = (if key = 0 then none else some key)
    else s' = spdmError s)

/-- Bring-up, power and service (R471, R473 to R480): after power-on the SRAM is zero and nothing is resident; a die's clock moves within its
steps; firmware of one die at a time is replaced; lanes, stations, channel sets and dies go out of service. -/
def Obligations.ServiceEvents : Prop :=
  (∀ s failed boot manifest, Yields (.powerOnSequence failed boot manifest) s fun s' =>
    s'.crews = [] ∧ s'.teams = [] ∧ s'.ops = [] ∧ s'.ctxs = [] ∧ (∀ a, 2 ^ 52 ≤ a → Sparse.get (w := 8) s'.mem a = 0) ∧
    (boot.puf = false ∨ manifest = none → s'.svc.recovery = true ∧ s'.svc.ready = false)) ∧
  (∀ s failed boot m, let b := failed.foldl failPart (started s boot.puf)
    let base := { b with svc := { b.svc with images := boot.images.foldl (fun t i => Tbl.put t i.index (Tbl.getD t i.index [] ++ i.bytes)) [] } }
    let verified := s.svc.svn ≤ m.svn ∧ m.rollback ≤ m.svn ∧ ∀ i ∈ boot.images, i.verified = true ∧ s.svc.svn ≤ i.svn
    (boot.puf = true → verified → (applyManifest base m).isSome = true → Yields (.powerOnSequence failed boot (some m)) s fun s' =>
      s'.svc.recovery = false ∧ s'.svc.ready = true ∧ s'.svc.modid = m.modid ∧
      s'.sec.generation = if s.svc.manifest = some m then s.sec.generation else s.sec.generation + 1) ∧
    (boot.puf = false ∨ ¬ verified ∨ applyManifest base m = none → Yields (.powerOnSequence failed boot (some m)) s fun s' => s' = base)) ∧
  (∀ s lower, s.svc.governed + 160000 ≤ s.time.master → (∀ d ∈ lower, d < 64) → Yields (.governorEvaluate lower []) s fun s' =>
    s'.svc.governed = s.time.master ∧ ∀ d, lower = [d] → Tbl.getD s'.svc.clockStep d 0 = min 11 (Tbl.getD s.svc.clockStep d 0 + 1)) ∧
  (∀ s d, s.svc.governed + 160000 ≤ s.time.master → d < 64 → Yields (.governorEvaluate [] [d]) s fun s' =>
    Tbl.getD s'.svc.clockStep d 0 = Tbl.getD s.svc.clockStep d 0 - 1) ∧
  (∀ s die, die < 64 → (∀ t, Tbl.get? s.svc.fast die = some t → t + 16000 ≤ s.time.master) → Yields (.governorFastStep die) s fun s' =>
    Tbl.getD s'.svc.clockStep die 0 = min 11 (Tbl.getD s.svc.clockStep die 0 + 1) ∧ Tbl.get? s'.svc.fast die = some s.time.master) ∧
  (∀ s die svn, die < 64 → s.svc.updating = [] → s.svc.svn ≤ svn → Yields (.firmwareUpdate die svn true) s fun s' =>
    s' = { s with svc := { s.svc with updating := [(die, svn)] } }) ∧
  (∀ s die svn verified, die < 64 → s.svc.updating = [] → verified = false ∨ svn < s.svc.svn →
    Yields (.firmwareUpdate die svn verified) s fun s' => s' = s) ∧
  (∀ s die svn v verified, Tbl.get? s.svc.updating die = some v → s.svc.replies = [] → (∀ p ∈ s.entries, ∀ st d, p.2.st ≠ .ending st d) →
    Yields (.firmwareUpdate die svn verified) s fun s' => s'.svc.updating = [] ∧ Tbl.get? s'.svc.fw die = some v ∧
      s'.sec.generation = s.sec.generation + 1) ∧
  (∀ s a b, linked a b = true → let k := 64 * min a b + max a b
    Tbl.getD s.svc.lanes k 0 < 2 → Yields (.d2dLaneRetire a b) s fun s' => Tbl.getD s'.svc.lanes k 0 = Tbl.getD s.svc.lanes k 0 + 1) ∧
  (∀ s i, i < 18 → 0 < (Tbl.getD s.svc.stations i {}).lanes → Yields (.ualinkLaneRetire i) s fun s' =>
    (Tbl.getD s'.svc.stations i {}).lanes = (Tbl.getD s.svc.stations i {}).lanes / 2) ∧
  (∀ s i, i < 18 → Yields (.ualinkStationDown i) s fun s' => (Tbl.getD s'.svc.stations i {}).up = false ∧ (Tbl.getD s'.svc.stations i {}).keyed = false) ∧
  (∀ s i keyed, i < 18 → 0 < (Tbl.getD s.svc.stations i {}).lanes → Yields (.ualinkStationUp (i, keyed)) s fun s' =>
    (Tbl.getD s'.svc.stations i {}).up = true ∧ (Tbl.getD s'.svc.stations i {}).keyed = keyed) ∧
  (∀ s set, set < 256 → (∀ i, i < 16 → (s.slice i).mem ≠ 0 → set < chBase (s.slice i).mem ∨ chLim (s.slice i).mem < set) →
    Yields (.hbmChannelRetire set) s fun s' => set ∈ s'.svc.retiredSets ∧ s'.svc.capGen = s.svc.capGen + 1) ∧
  (∀ s die, die < 64 → Yields (.dieFence die) s fun s' => die ∈ s'.svc.fenced)
end

