-- ==== Sys2Proof/Laws/Table.lean ====
section
/-! SUPPORT. The laws of the two containers: a read after a write, and the canonical form. -/
namespace Sys2Proof

theorem Sparse.get_ins_self {w : Nat} (t : Sparse w) (k : Nat) (v : BitVec w) : Sparse.get (Sparse.ins t k v) k = v := by
  induction t with
  | nil => simp [Sparse.ins, Sparse.get]
  | cons p t ih => unfold Sparse.ins; split <;> (try split) <;> simp_all [Sparse.get]

theorem Sparse.get_ins_ne {w : Nat} (t : Sparse w) {j k : Nat} (v : BitVec w) (h : k ≠ j) :
    Sparse.get (Sparse.ins t j v) k = Sparse.get t k := by
  induction t with
  | nil => simp [Sparse.ins, Sparse.get, h.symm]
  | cons p t ih => unfold Sparse.ins; split <;> (try split) <;> simp_all [Sparse.get, eq_comm]

theorem Sparse.get_clear_self {w : Nat} (t : Sparse w) (k : Nat) : Sparse.get (Sparse.clear t k) k = 0 := by
  induction t with
  | nil => rfl
  | cons p t ih => unfold Sparse.clear; split <;> simp_all [Sparse.get]

theorem Sparse.get_clear_ne {w : Nat} (t : Sparse w) {j k : Nat} (h : k ≠ j) :
    Sparse.get (Sparse.clear t j) k = Sparse.get t k := by
  induction t with
  | nil => rfl
  | cons p t ih => unfold Sparse.clear; split <;> simp_all [Sparse.get, eq_comm]

/-- A cell reads as what was written to it last. -/
@[simp] theorem Sparse.get_set_self {w : Nat} (t : Sparse w) (k : Nat) (v : BitVec w) : Sparse.get (Sparse.set t k v) k = v := by
  unfold Sparse.set; split
  · next h => rw [h]; exact Sparse.get_clear_self t k
  · exact Sparse.get_ins_self t k v

/-- A write leaves every other cell alone. -/
theorem Sparse.get_set_ne {w : Nat} (t : Sparse w) {j k : Nat} (v : BitVec w) (h : k ≠ j) :
    Sparse.get (Sparse.set t j v) k = Sparse.get t k := by
  unfold Sparse.set; split
  · exact Sparse.get_clear_ne t h
  · exact Sparse.get_ins_ne t v h

/-- A read after a write. -/
theorem Sparse.get_set {w : Nat} (t : Sparse w) (j k : Nat) (v : BitVec w) :
    Sparse.get (Sparse.set t j v) k = if k = j then v else Sparse.get t k := by
  by_cases h : k = j
  · subst h; simp
  · simp [h, Sparse.get_set_ne t v h]

/-- The canonical form, one entry at a time: the value is not zero and every later key is greater. -/
theorem Sparse.wf_cons {w : Nat} (k : Nat) (v : BitVec w) (t : Sparse w) :
    Sparse.wf ((k, v) :: t) = true ↔ v ≠ 0 ∧ (∀ p ∈ t, k < p.1) ∧ Sparse.wf t = true := by
  induction t generalizing k v with
  | nil => simp [Sparse.wf]
  | cons q t ih =>
    obtain ⟨k', v'⟩ := q
    have e : Sparse.wf ((k, v) :: (k', v') :: t) = true ↔ (k < k' ∧ v ≠ 0) ∧ Sparse.wf ((k', v') :: t) = true := by
      simp [Sparse.wf]
    rw [e]
    constructor
    · rintro ⟨⟨hk, hv⟩, hw⟩
      refine ⟨hv, ?_, hw⟩
      intro p hp
      rcases List.mem_cons.mp hp with rfl | hp
      · exact hk
      · exact Nat.lt_trans hk ((ih k' v').mp hw |>.2.1 p hp)
    · rintro ⟨hv, ha, hw⟩
      exact ⟨⟨ha (k', v') List.mem_cons_self, hv⟩, hw⟩

theorem Sparse.mem_clear {w : Nat} {t : Sparse w} {j : Nat} {p : Nat × BitVec w} (h : p ∈ Sparse.clear t j) : p ∈ t := by
  induction t with
  | nil => exact h
  | cons q t ih =>
    unfold Sparse.clear at h; split at h
    · exact List.mem_cons_of_mem _ (ih h)
    · rcases List.mem_cons.mp h with rfl | h
      · exact List.mem_cons_self
      · exact List.mem_cons_of_mem _ (ih h)

theorem Sparse.wf_clear {w : Nat} {t : Sparse w} (j : Nat) (h : Sparse.wf t = true) : Sparse.wf (Sparse.clear t j) = true := by
  induction t with
  | nil => exact h
  | cons q t ih =>
    obtain ⟨k, v⟩ := q
    obtain ⟨hv, ha, hw⟩ := (Sparse.wf_cons k v t).mp h
    unfold Sparse.clear; split
    · exact ih hw
    · exact (Sparse.wf_cons k v _).mpr ⟨hv, fun p hp => ha p (Sparse.mem_clear hp), ih hw⟩

theorem Sparse.mem_ins {w : Nat} {t : Sparse w} {j : Nat} {a : BitVec w} {p : Nat × BitVec w} (h : p ∈ Sparse.ins t j a) :
    p = (j, a) ∨ p ∈ t := by
  induction t with
  | nil => simpa [Sparse.ins] using h
  | cons q t ih =>
    unfold Sparse.ins at h; split at h
    · rcases List.mem_cons.mp h with h | h
      · exact .inl h
      · exact .inr h
    · split at h
      · rcases List.mem_cons.mp h with h | h
        · exact .inl h
        · exact .inr (List.mem_cons_of_mem _ h)
      · rcases List.mem_cons.mp h with rfl | h
        · exact .inr List.mem_cons_self
        · exact (ih h).imp id (List.mem_cons_of_mem _)

theorem Sparse.wf_ins {w : Nat} {t : Sparse w} (j : Nat) {a : BitVec w} (ha : a ≠ 0) (h : Sparse.wf t = true) :
    Sparse.wf (Sparse.ins t j a) = true := by
  induction t with
  | nil => simpa [Sparse.ins, Sparse.wf] using ha
  | cons q t ih =>
    obtain ⟨k, v⟩ := q
    obtain ⟨hv, hl, hw⟩ := (Sparse.wf_cons k v t).mp h
    unfold Sparse.ins; split
    · next hj =>
      refine (Sparse.wf_cons j a _).mpr ⟨ha, ?_, h⟩
      intro p hp
      rcases List.mem_cons.mp hp with rfl | hp
      · exact hj
      · exact Nat.lt_trans hj (hl p hp)
    · next hj =>
      split
      · next hk => subst hk; exact (Sparse.wf_cons k a t).mpr ⟨ha, hl, hw⟩
      · next hk =>
        refine (Sparse.wf_cons k v _).mpr ⟨hv, ?_, ih hw⟩
        intro p hp
        rcases Sparse.mem_ins hp with rfl | hp
        · show k < j; omega
        · exact hl p hp

/-- A write keeps the canonical form. -/
theorem Sparse.wf_set {w : Nat} {t : Sparse w} (j : Nat) (a : BitVec w) (h : Sparse.wf t = true) :
    Sparse.wf (Sparse.set t j a) = true := by
  unfold Sparse.set; split
  · exact Sparse.wf_clear j h
  · next ha => exact Sparse.wf_ins j ha h

@[simp] theorem Tbl.get?_put_self {α : Type} (t : Tbl α) (k : Nat) (v : α) : Tbl.get? (Tbl.put t k v) k = some v := by
  induction t with
  | nil => simp [Tbl.put, Tbl.get?]
  | cons p t ih => unfold Tbl.put; split <;> (try split) <;> simp_all [Tbl.get?]

theorem Tbl.get?_put_ne {α : Type} (t : Tbl α) {j k : Nat} (v : α) (h : k ≠ j) :
    Tbl.get? (Tbl.put t j v) k = Tbl.get? t k := by
  induction t with
  | nil => simp [Tbl.put, Tbl.get?, h.symm]
  | cons p t ih => unfold Tbl.put; split <;> (try split) <;> simp_all [Tbl.get?, eq_comm]

/-- A look-up after a store. -/
theorem Tbl.get?_put {α : Type} (t : Tbl α) (j k : Nat) (v : α) :
    Tbl.get? (Tbl.put t j v) k = if k = j then some v else Tbl.get? t k := by
  by_cases h : k = j
  · subst h; simp
  · simp [h, Tbl.get?_put_ne t v h]

/-- A look-up after a change of one value. -/
theorem Tbl.get?_upd {α : Type} (t : Tbl α) (j k : Nat) (f : α → α) :
    Tbl.get? (Tbl.upd t j f) k = if k = j then (Tbl.get? t j).map f else Tbl.get? t k := by
  unfold Tbl.upd
  cases hg : Tbl.get? t j with
  | none => by_cases h : k = j <;> simp [h, hg]
  | some v => by_cases h : k = j <;> simp [h, Tbl.get?_put]

/-- A removed key holds nothing. -/
@[simp] theorem Tbl.get?_del_self {α : Type} (t : Tbl α) (k : Nat) : Tbl.get? (Tbl.del t k) k = none := by
  induction t with
  | nil => rfl
  | cons p t ih => unfold Tbl.del; split <;> simp_all [Tbl.get?]

theorem Tbl.get?_del_ne {α : Type} (t : Tbl α) {j k : Nat} (h : k ≠ j) : Tbl.get? (Tbl.del t j) k = Tbl.get? t k := by
  induction t with
  | nil => rfl
  | cons p t ih => unfold Tbl.del; split <;> simp_all [Tbl.get?, eq_comm]

/-- The value at a key after a store, with a default. -/
theorem Tbl.getD_put {α : Type} (t : Tbl α) (j k : Nat) (v d : α) :
    Tbl.getD (Tbl.put t j v) k d = if k = j then v else Tbl.getD t k d := by
  unfold Tbl.getD; rw [Tbl.get?_put]; by_cases h : k = j <;> simp [h]

end Sys2Proof
end

