-- ==== Sys2Proof/Laws/State.lean ====
section
/-! SUPPORT. What the updates of the state and of a crew leave alone, one lemma per field per update, and the look-ups after an update. -/
namespace Sys2Proof.Machine

@[simp] theorem State.setCrew_mem (s : State) (k : Nat) (c : Crew) : (s.setCrew k c).mem = s.mem := rfl
@[simp] theorem State.setCrew_undo (s : State) (k : Nat) (c : Crew) : (s.setCrew k c).undo = s.undo := rfl
@[simp] theorem State.setCrew_l2 (s : State) (k : Nat) (c : Crew) : (s.setCrew k c).l2 = s.l2 := rfl
@[simp] theorem State.setCrew_targets (s : State) (k : Nat) (c : Crew) : (s.setCrew k c).targets = s.targets := rfl
@[simp] theorem State.setCrew_poison (s : State) (k : Nat) (c : Crew) : (s.setCrew k c).poison = s.poison := rfl
@[simp] theorem State.setCrew_secKey (s : State) (k : Nat) (c : Crew) : (s.setCrew k c).secKey = s.secKey := rfl
@[simp] theorem State.setCrew_teams (s : State) (k : Nat) (c : Crew) : (s.setCrew k c).teams = s.teams := rfl
@[simp] theorem State.setCrew_entries (s : State) (k : Nat) (c : Crew) : (s.setCrew k c).entries = s.entries := rfl
@[simp] theorem State.setCrew_bound (s : State) (k : Nat) (c : Crew) : (s.setCrew k c).bound = s.bound := rfl
@[simp] theorem State.setCrew_ctxs (s : State) (k : Nat) (c : Crew) : (s.setCrew k c).ctxs = s.ctxs := rfl
@[simp] theorem State.setCrew_funcs (s : State) (k : Nat) (c : Crew) : (s.setCrew k c).funcs = s.funcs := rfl
@[simp] theorem State.setCrew_cores (s : State) (k : Nat) (c : Crew) : (s.setCrew k c).cores = s.cores := rfl
@[simp] theorem State.setCrew_slices (s : State) (k : Nat) (c : Crew) : (s.setCrew k c).slices = s.slices := rfl
@[simp] theorem State.setCrew_ops (s : State) (k : Nat) (c : Crew) : (s.setCrew k c).ops = s.ops := rfl
@[simp] theorem State.setCrew_monitors (s : State) (k : Nat) (c : Crew) : (s.setCrew k c).monitors = s.monitors := rfl
@[simp] theorem State.setCrew_wide (s : State) (k : Nat) (c : Crew) : (s.setCrew k c).wide = s.wide := rfl
@[simp] theorem State.setCrew_wideMsgs (s : State) (k : Nat) (c : Crew) : (s.setCrew k c).wideMsgs = s.wideMsgs := rfl
@[simp] theorem State.setCrew_wideDone (s : State) (k : Nat) (c : Crew) : (s.setCrew k c).wideDone = s.wideDone := rfl
@[simp] theorem State.setCrew_bulk (s : State) (k : Nat) (c : Crew) : (s.setCrew k c).bulk = s.bulk := rfl
@[simp] theorem State.setCrew_forwards (s : State) (k : Nat) (c : Crew) : (s.setCrew k c).forwards = s.forwards := rfl
@[simp] theorem State.setCrew_admissions (s : State) (k : Nat) (c : Crew) : (s.setCrew k c).admissions = s.admissions := rfl
@[simp] theorem State.setCrew_invals (s : State) (k : Nat) (c : Crew) : (s.setCrew k c).invals = s.invals := rfl
@[simp] theorem State.setCrew_fabric (s : State) (k : Nat) (c : Crew) : (s.setCrew k c).fabric = s.fabric := rfl
@[simp] theorem State.setCrew_time (s : State) (k : Nat) (c : Crew) : (s.setCrew k c).time = s.time := rfl
@[simp] theorem State.setCrew_sec (s : State) (k : Nat) (c : Crew) : (s.setCrew k c).sec = s.sec := rfl
@[simp] theorem State.setCrew_svc (s : State) (k : Nat) (c : Crew) : (s.setCrew k c).svc = s.svc := rfl
@[simp] theorem State.setCrew_promoted (s : State) (k : Nat) (c : Crew) : (s.setCrew k c).promoted = s.promoted := rfl
@[simp] theorem State.setCrew_schedule (s : State) (k : Nat) (c : Crew) : (s.setCrew k c).schedule = s.schedule := rfl
@[simp] theorem State.setCrew_cur (s : State) (k : Nat) (c : Crew) : (s.setCrew k c).cur = s.cur := rfl
@[simp] theorem State.setCrew_clock (s : State) (k : Nat) (c : Crew) : (s.setCrew k c).clock = s.clock := rfl
@[simp] theorem State.setCrew_nextOp (s : State) (k : Nat) (c : Crew) : (s.setCrew k c).nextOp = s.nextOp := rfl
@[simp] theorem State.setCrew_nextId (s : State) (k : Nat) (c : Crew) : (s.setCrew k c).nextId = s.nextId := rfl
@[simp] theorem State.setTeam_mem (s : State) (k : Nat) (x : Team) : (s.setTeam k x).mem = s.mem := rfl
@[simp] theorem State.setTeam_undo (s : State) (k : Nat) (x : Team) : (s.setTeam k x).undo = s.undo := rfl
@[simp] theorem State.setTeam_l2 (s : State) (k : Nat) (x : Team) : (s.setTeam k x).l2 = s.l2 := rfl
@[simp] theorem State.setTeam_targets (s : State) (k : Nat) (x : Team) : (s.setTeam k x).targets = s.targets := rfl
@[simp] theorem State.setTeam_poison (s : State) (k : Nat) (x : Team) : (s.setTeam k x).poison = s.poison := rfl
@[simp] theorem State.setTeam_secKey (s : State) (k : Nat) (x : Team) : (s.setTeam k x).secKey = s.secKey := rfl
@[simp] theorem State.setTeam_crews (s : State) (k : Nat) (x : Team) : (s.setTeam k x).crews = s.crews := rfl
@[simp] theorem State.setTeam_entries (s : State) (k : Nat) (x : Team) : (s.setTeam k x).entries = s.entries := rfl
@[simp] theorem State.setTeam_bound (s : State) (k : Nat) (x : Team) : (s.setTeam k x).bound = s.bound := rfl
@[simp] theorem State.setTeam_ctxs (s : State) (k : Nat) (x : Team) : (s.setTeam k x).ctxs = s.ctxs := rfl
@[simp] theorem State.setTeam_funcs (s : State) (k : Nat) (x : Team) : (s.setTeam k x).funcs = s.funcs := rfl
@[simp] theorem State.setTeam_cores (s : State) (k : Nat) (x : Team) : (s.setTeam k x).cores = s.cores := rfl
@[simp] theorem State.setTeam_slices (s : State) (k : Nat) (x : Team) : (s.setTeam k x).slices = s.slices := rfl
@[simp] theorem State.setTeam_ops (s : State) (k : Nat) (x : Team) : (s.setTeam k x).ops = s.ops := rfl
@[simp] theorem State.setTeam_monitors (s : State) (k : Nat) (x : Team) : (s.setTeam k x).monitors = s.monitors := rfl
@[simp] theorem State.setTeam_wide (s : State) (k : Nat) (x : Team) : (s.setTeam k x).wide = s.wide := rfl
@[simp] theorem State.setTeam_wideMsgs (s : State) (k : Nat) (x : Team) : (s.setTeam k x).wideMsgs = s.wideMsgs := rfl
@[simp] theorem State.setTeam_wideDone (s : State) (k : Nat) (x : Team) : (s.setTeam k x).wideDone = s.wideDone := rfl
@[simp] theorem State.setTeam_bulk (s : State) (k : Nat) (x : Team) : (s.setTeam k x).bulk = s.bulk := rfl
@[simp] theorem State.setTeam_forwards (s : State) (k : Nat) (x : Team) : (s.setTeam k x).forwards = s.forwards := rfl
@[simp] theorem State.setTeam_admissions (s : State) (k : Nat) (x : Team) : (s.setTeam k x).admissions = s.admissions := rfl
@[simp] theorem State.setTeam_invals (s : State) (k : Nat) (x : Team) : (s.setTeam k x).invals = s.invals := rfl
@[simp] theorem State.setTeam_fabric (s : State) (k : Nat) (x : Team) : (s.setTeam k x).fabric = s.fabric := rfl
@[simp] theorem State.setTeam_time (s : State) (k : Nat) (x : Team) : (s.setTeam k x).time = s.time := rfl
@[simp] theorem State.setTeam_sec (s : State) (k : Nat) (x : Team) : (s.setTeam k x).sec = s.sec := rfl
@[simp] theorem State.setTeam_svc (s : State) (k : Nat) (x : Team) : (s.setTeam k x).svc = s.svc := rfl
@[simp] theorem State.setTeam_promoted (s : State) (k : Nat) (x : Team) : (s.setTeam k x).promoted = s.promoted := rfl
@[simp] theorem State.setTeam_schedule (s : State) (k : Nat) (x : Team) : (s.setTeam k x).schedule = s.schedule := rfl
@[simp] theorem State.setTeam_cur (s : State) (k : Nat) (x : Team) : (s.setTeam k x).cur = s.cur := rfl
@[simp] theorem State.setTeam_clock (s : State) (k : Nat) (x : Team) : (s.setTeam k x).clock = s.clock := rfl
@[simp] theorem State.setTeam_nextOp (s : State) (k : Nat) (x : Team) : (s.setTeam k x).nextOp = s.nextOp := rfl
@[simp] theorem State.setTeam_nextId (s : State) (k : Nat) (x : Team) : (s.setTeam k x).nextId = s.nextId := rfl
@[simp] theorem State.modCrew_mem (s : State) (k : Nat) (f : Crew → Crew) : (s.modCrew k f).mem = s.mem := rfl
@[simp] theorem State.modCrew_undo (s : State) (k : Nat) (f : Crew → Crew) : (s.modCrew k f).undo = s.undo := rfl
@[simp] theorem State.modCrew_l2 (s : State) (k : Nat) (f : Crew → Crew) : (s.modCrew k f).l2 = s.l2 := rfl
@[simp] theorem State.modCrew_targets (s : State) (k : Nat) (f : Crew → Crew) : (s.modCrew k f).targets = s.targets := rfl
@[simp] theorem State.modCrew_poison (s : State) (k : Nat) (f : Crew → Crew) : (s.modCrew k f).poison = s.poison := rfl
@[simp] theorem State.modCrew_secKey (s : State) (k : Nat) (f : Crew → Crew) : (s.modCrew k f).secKey = s.secKey := rfl
@[simp] theorem State.modCrew_teams (s : State) (k : Nat) (f : Crew → Crew) : (s.modCrew k f).teams = s.teams := rfl
@[simp] theorem State.modCrew_entries (s : State) (k : Nat) (f : Crew → Crew) : (s.modCrew k f).entries = s.entries := rfl
@[simp] theorem State.modCrew_bound (s : State) (k : Nat) (f : Crew → Crew) : (s.modCrew k f).bound = s.bound := rfl
@[simp] theorem State.modCrew_ctxs (s : State) (k : Nat) (f : Crew → Crew) : (s.modCrew k f).ctxs = s.ctxs := rfl
@[simp] theorem State.modCrew_funcs (s : State) (k : Nat) (f : Crew → Crew) : (s.modCrew k f).funcs = s.funcs := rfl
@[simp] theorem State.modCrew_cores (s : State) (k : Nat) (f : Crew → Crew) : (s.modCrew k f).cores = s.cores := rfl
@[simp] theorem State.modCrew_slices (s : State) (k : Nat) (f : Crew → Crew) : (s.modCrew k f).slices = s.slices := rfl
@[simp] theorem State.modCrew_ops (s : State) (k : Nat) (f : Crew → Crew) : (s.modCrew k f).ops = s.ops := rfl
@[simp] theorem State.modCrew_monitors (s : State) (k : Nat) (f : Crew → Crew) : (s.modCrew k f).monitors = s.monitors := rfl
@[simp] theorem State.modCrew_wide (s : State) (k : Nat) (f : Crew → Crew) : (s.modCrew k f).wide = s.wide := rfl
@[simp] theorem State.modCrew_wideMsgs (s : State) (k : Nat) (f : Crew → Crew) : (s.modCrew k f).wideMsgs = s.wideMsgs := rfl
@[simp] theorem State.modCrew_wideDone (s : State) (k : Nat) (f : Crew → Crew) : (s.modCrew k f).wideDone = s.wideDone := rfl
@[simp] theorem State.modCrew_bulk (s : State) (k : Nat) (f : Crew → Crew) : (s.modCrew k f).bulk = s.bulk := rfl
@[simp] theorem State.modCrew_forwards (s : State) (k : Nat) (f : Crew → Crew) : (s.modCrew k f).forwards = s.forwards := rfl
@[simp] theorem State.modCrew_admissions (s : State) (k : Nat) (f : Crew → Crew) : (s.modCrew k f).admissions = s.admissions := rfl
@[simp] theorem State.modCrew_invals (s : State) (k : Nat) (f : Crew → Crew) : (s.modCrew k f).invals = s.invals := rfl
@[simp] theorem State.modCrew_fabric (s : State) (k : Nat) (f : Crew → Crew) : (s.modCrew k f).fabric = s.fabric := rfl
@[simp] theorem State.modCrew_time (s : State) (k : Nat) (f : Crew → Crew) : (s.modCrew k f).time = s.time := rfl
@[simp] theorem State.modCrew_sec (s : State) (k : Nat) (f : Crew → Crew) : (s.modCrew k f).sec = s.sec := rfl
@[simp] theorem State.modCrew_svc (s : State) (k : Nat) (f : Crew → Crew) : (s.modCrew k f).svc = s.svc := rfl
@[simp] theorem State.modCrew_promoted (s : State) (k : Nat) (f : Crew → Crew) : (s.modCrew k f).promoted = s.promoted := rfl
@[simp] theorem State.modCrew_schedule (s : State) (k : Nat) (f : Crew → Crew) : (s.modCrew k f).schedule = s.schedule := rfl
@[simp] theorem State.modCrew_cur (s : State) (k : Nat) (f : Crew → Crew) : (s.modCrew k f).cur = s.cur := rfl
@[simp] theorem State.modCrew_clock (s : State) (k : Nat) (f : Crew → Crew) : (s.modCrew k f).clock = s.clock := rfl
@[simp] theorem State.modCrew_nextOp (s : State) (k : Nat) (f : Crew → Crew) : (s.modCrew k f).nextOp = s.nextOp := rfl
@[simp] theorem State.modCrew_nextId (s : State) (k : Nat) (f : Crew → Crew) : (s.modCrew k f).nextId = s.nextId := rfl
@[simp] theorem State.modTeam_mem (s : State) (k : Nat) (f : Team → Team) : (s.modTeam k f).mem = s.mem := rfl
@[simp] theorem State.modTeam_undo (s : State) (k : Nat) (f : Team → Team) : (s.modTeam k f).undo = s.undo := rfl
@[simp] theorem State.modTeam_l2 (s : State) (k : Nat) (f : Team → Team) : (s.modTeam k f).l2 = s.l2 := rfl
@[simp] theorem State.modTeam_targets (s : State) (k : Nat) (f : Team → Team) : (s.modTeam k f).targets = s.targets := rfl
@[simp] theorem State.modTeam_poison (s : State) (k : Nat) (f : Team → Team) : (s.modTeam k f).poison = s.poison := rfl
@[simp] theorem State.modTeam_secKey (s : State) (k : Nat) (f : Team → Team) : (s.modTeam k f).secKey = s.secKey := rfl
@[simp] theorem State.modTeam_crews (s : State) (k : Nat) (f : Team → Team) : (s.modTeam k f).crews = s.crews := rfl
@[simp] theorem State.modTeam_entries (s : State) (k : Nat) (f : Team → Team) : (s.modTeam k f).entries = s.entries := rfl
@[simp] theorem State.modTeam_bound (s : State) (k : Nat) (f : Team → Team) : (s.modTeam k f).bound = s.bound := rfl
@[simp] theorem State.modTeam_ctxs (s : State) (k : Nat) (f : Team → Team) : (s.modTeam k f).ctxs = s.ctxs := rfl
@[simp] theorem State.modTeam_funcs (s : State) (k : Nat) (f : Team → Team) : (s.modTeam k f).funcs = s.funcs := rfl
@[simp] theorem State.modTeam_cores (s : State) (k : Nat) (f : Team → Team) : (s.modTeam k f).cores = s.cores := rfl
@[simp] theorem State.modTeam_slices (s : State) (k : Nat) (f : Team → Team) : (s.modTeam k f).slices = s.slices := rfl
@[simp] theorem State.modTeam_ops (s : State) (k : Nat) (f : Team → Team) : (s.modTeam k f).ops = s.ops := rfl
@[simp] theorem State.modTeam_monitors (s : State) (k : Nat) (f : Team → Team) : (s.modTeam k f).monitors = s.monitors := rfl
@[simp] theorem State.modTeam_wide (s : State) (k : Nat) (f : Team → Team) : (s.modTeam k f).wide = s.wide := rfl
@[simp] theorem State.modTeam_wideMsgs (s : State) (k : Nat) (f : Team → Team) : (s.modTeam k f).wideMsgs = s.wideMsgs := rfl
@[simp] theorem State.modTeam_wideDone (s : State) (k : Nat) (f : Team → Team) : (s.modTeam k f).wideDone = s.wideDone := rfl
@[simp] theorem State.modTeam_bulk (s : State) (k : Nat) (f : Team → Team) : (s.modTeam k f).bulk = s.bulk := rfl
@[simp] theorem State.modTeam_forwards (s : State) (k : Nat) (f : Team → Team) : (s.modTeam k f).forwards = s.forwards := rfl
@[simp] theorem State.modTeam_admissions (s : State) (k : Nat) (f : Team → Team) : (s.modTeam k f).admissions = s.admissions := rfl
@[simp] theorem State.modTeam_invals (s : State) (k : Nat) (f : Team → Team) : (s.modTeam k f).invals = s.invals := rfl
@[simp] theorem State.modTeam_fabric (s : State) (k : Nat) (f : Team → Team) : (s.modTeam k f).fabric = s.fabric := rfl
@[simp] theorem State.modTeam_time (s : State) (k : Nat) (f : Team → Team) : (s.modTeam k f).time = s.time := rfl
@[simp] theorem State.modTeam_sec (s : State) (k : Nat) (f : Team → Team) : (s.modTeam k f).sec = s.sec := rfl
@[simp] theorem State.modTeam_svc (s : State) (k : Nat) (f : Team → Team) : (s.modTeam k f).svc = s.svc := rfl
@[simp] theorem State.modTeam_promoted (s : State) (k : Nat) (f : Team → Team) : (s.modTeam k f).promoted = s.promoted := rfl
@[simp] theorem State.modTeam_schedule (s : State) (k : Nat) (f : Team → Team) : (s.modTeam k f).schedule = s.schedule := rfl
@[simp] theorem State.modTeam_cur (s : State) (k : Nat) (f : Team → Team) : (s.modTeam k f).cur = s.cur := rfl
@[simp] theorem State.modTeam_clock (s : State) (k : Nat) (f : Team → Team) : (s.modTeam k f).clock = s.clock := rfl
@[simp] theorem State.modTeam_nextOp (s : State) (k : Nat) (f : Team → Team) : (s.modTeam k f).nextOp = s.nextOp := rfl
@[simp] theorem State.modTeam_nextId (s : State) (k : Nat) (f : Team → Team) : (s.modTeam k f).nextId = s.nextId := rfl
@[simp] theorem State.modCore_mem (s : State) (k : Nat) (f : Core → Core) : (s.modCore k f).mem = s.mem := rfl
@[simp] theorem State.modCore_undo (s : State) (k : Nat) (f : Core → Core) : (s.modCore k f).undo = s.undo := rfl
@[simp] theorem State.modCore_l2 (s : State) (k : Nat) (f : Core → Core) : (s.modCore k f).l2 = s.l2 := rfl
@[simp] theorem State.modCore_targets (s : State) (k : Nat) (f : Core → Core) : (s.modCore k f).targets = s.targets := rfl
@[simp] theorem State.modCore_poison (s : State) (k : Nat) (f : Core → Core) : (s.modCore k f).poison = s.poison := rfl
@[simp] theorem State.modCore_secKey (s : State) (k : Nat) (f : Core → Core) : (s.modCore k f).secKey = s.secKey := rfl
@[simp] theorem State.modCore_crews (s : State) (k : Nat) (f : Core → Core) : (s.modCore k f).crews = s.crews := rfl
@[simp] theorem State.modCore_teams (s : State) (k : Nat) (f : Core → Core) : (s.modCore k f).teams = s.teams := rfl
@[simp] theorem State.modCore_entries (s : State) (k : Nat) (f : Core → Core) : (s.modCore k f).entries = s.entries := rfl
@[simp] theorem State.modCore_bound (s : State) (k : Nat) (f : Core → Core) : (s.modCore k f).bound = s.bound := rfl
@[simp] theorem State.modCore_ctxs (s : State) (k : Nat) (f : Core → Core) : (s.modCore k f).ctxs = s.ctxs := rfl
@[simp] theorem State.modCore_funcs (s : State) (k : Nat) (f : Core → Core) : (s.modCore k f).funcs = s.funcs := rfl
@[simp] theorem State.modCore_slices (s : State) (k : Nat) (f : Core → Core) : (s.modCore k f).slices = s.slices := rfl
@[simp] theorem State.modCore_ops (s : State) (k : Nat) (f : Core → Core) : (s.modCore k f).ops = s.ops := rfl
@[simp] theorem State.modCore_monitors (s : State) (k : Nat) (f : Core → Core) : (s.modCore k f).monitors = s.monitors := rfl
@[simp] theorem State.modCore_wide (s : State) (k : Nat) (f : Core → Core) : (s.modCore k f).wide = s.wide := rfl
@[simp] theorem State.modCore_wideMsgs (s : State) (k : Nat) (f : Core → Core) : (s.modCore k f).wideMsgs = s.wideMsgs := rfl
@[simp] theorem State.modCore_wideDone (s : State) (k : Nat) (f : Core → Core) : (s.modCore k f).wideDone = s.wideDone := rfl
@[simp] theorem State.modCore_bulk (s : State) (k : Nat) (f : Core → Core) : (s.modCore k f).bulk = s.bulk := rfl
@[simp] theorem State.modCore_forwards (s : State) (k : Nat) (f : Core → Core) : (s.modCore k f).forwards = s.forwards := rfl
@[simp] theorem State.modCore_admissions (s : State) (k : Nat) (f : Core → Core) : (s.modCore k f).admissions = s.admissions := rfl
@[simp] theorem State.modCore_invals (s : State) (k : Nat) (f : Core → Core) : (s.modCore k f).invals = s.invals := rfl
@[simp] theorem State.modCore_fabric (s : State) (k : Nat) (f : Core → Core) : (s.modCore k f).fabric = s.fabric := rfl
@[simp] theorem State.modCore_time (s : State) (k : Nat) (f : Core → Core) : (s.modCore k f).time = s.time := rfl
@[simp] theorem State.modCore_sec (s : State) (k : Nat) (f : Core → Core) : (s.modCore k f).sec = s.sec := rfl
@[simp] theorem State.modCore_svc (s : State) (k : Nat) (f : Core → Core) : (s.modCore k f).svc = s.svc := rfl
@[simp] theorem State.modCore_promoted (s : State) (k : Nat) (f : Core → Core) : (s.modCore k f).promoted = s.promoted := rfl
@[simp] theorem State.modCore_schedule (s : State) (k : Nat) (f : Core → Core) : (s.modCore k f).schedule = s.schedule := rfl
@[simp] theorem State.modCore_cur (s : State) (k : Nat) (f : Core → Core) : (s.modCore k f).cur = s.cur := rfl
@[simp] theorem State.modCore_clock (s : State) (k : Nat) (f : Core → Core) : (s.modCore k f).clock = s.clock := rfl
@[simp] theorem State.modCore_nextOp (s : State) (k : Nat) (f : Core → Core) : (s.modCore k f).nextOp = s.nextOp := rfl
@[simp] theorem State.modCore_nextId (s : State) (k : Nat) (f : Core → Core) : (s.modCore k f).nextId = s.nextId := rfl
@[simp] theorem State.modFunc_mem (s : State) (k : Nat) (f : Func → Func) : (s.modFunc k f).mem = s.mem := rfl
@[simp] theorem State.modFunc_undo (s : State) (k : Nat) (f : Func → Func) : (s.modFunc k f).undo = s.undo := rfl
@[simp] theorem State.modFunc_l2 (s : State) (k : Nat) (f : Func → Func) : (s.modFunc k f).l2 = s.l2 := rfl
@[simp] theorem State.modFunc_targets (s : State) (k : Nat) (f : Func → Func) : (s.modFunc k f).targets = s.targets := rfl
@[simp] theorem State.modFunc_poison (s : State) (k : Nat) (f : Func → Func) : (s.modFunc k f).poison = s.poison := rfl
@[simp] theorem State.modFunc_secKey (s : State) (k : Nat) (f : Func → Func) : (s.modFunc k f).secKey = s.secKey := rfl
@[simp] theorem State.modFunc_crews (s : State) (k : Nat) (f : Func → Func) : (s.modFunc k f).crews = s.crews := rfl
@[simp] theorem State.modFunc_teams (s : State) (k : Nat) (f : Func → Func) : (s.modFunc k f).teams = s.teams := rfl
@[simp] theorem State.modFunc_entries (s : State) (k : Nat) (f : Func → Func) : (s.modFunc k f).entries = s.entries := rfl
@[simp] theorem State.modFunc_bound (s : State) (k : Nat) (f : Func → Func) : (s.modFunc k f).bound = s.bound := rfl
@[simp] theorem State.modFunc_ctxs (s : State) (k : Nat) (f : Func → Func) : (s.modFunc k f).ctxs = s.ctxs := rfl
@[simp] theorem State.modFunc_cores (s : State) (k : Nat) (f : Func → Func) : (s.modFunc k f).cores = s.cores := rfl
@[simp] theorem State.modFunc_slices (s : State) (k : Nat) (f : Func → Func) : (s.modFunc k f).slices = s.slices := rfl
@[simp] theorem State.modFunc_ops (s : State) (k : Nat) (f : Func → Func) : (s.modFunc k f).ops = s.ops := rfl
@[simp] theorem State.modFunc_monitors (s : State) (k : Nat) (f : Func → Func) : (s.modFunc k f).monitors = s.monitors := rfl
@[simp] theorem State.modFunc_wide (s : State) (k : Nat) (f : Func → Func) : (s.modFunc k f).wide = s.wide := rfl
@[simp] theorem State.modFunc_wideMsgs (s : State) (k : Nat) (f : Func → Func) : (s.modFunc k f).wideMsgs = s.wideMsgs := rfl
@[simp] theorem State.modFunc_wideDone (s : State) (k : Nat) (f : Func → Func) : (s.modFunc k f).wideDone = s.wideDone := rfl
@[simp] theorem State.modFunc_bulk (s : State) (k : Nat) (f : Func → Func) : (s.modFunc k f).bulk = s.bulk := rfl
@[simp] theorem State.modFunc_forwards (s : State) (k : Nat) (f : Func → Func) : (s.modFunc k f).forwards = s.forwards := rfl
@[simp] theorem State.modFunc_admissions (s : State) (k : Nat) (f : Func → Func) : (s.modFunc k f).admissions = s.admissions := rfl
@[simp] theorem State.modFunc_invals (s : State) (k : Nat) (f : Func → Func) : (s.modFunc k f).invals = s.invals := rfl
@[simp] theorem State.modFunc_fabric (s : State) (k : Nat) (f : Func → Func) : (s.modFunc k f).fabric = s.fabric := rfl
@[simp] theorem State.modFunc_time (s : State) (k : Nat) (f : Func → Func) : (s.modFunc k f).time = s.time := rfl
@[simp] theorem State.modFunc_sec (s : State) (k : Nat) (f : Func → Func) : (s.modFunc k f).sec = s.sec := rfl
@[simp] theorem State.modFunc_svc (s : State) (k : Nat) (f : Func → Func) : (s.modFunc k f).svc = s.svc := rfl
@[simp] theorem State.modFunc_promoted (s : State) (k : Nat) (f : Func → Func) : (s.modFunc k f).promoted = s.promoted := rfl
@[simp] theorem State.modFunc_schedule (s : State) (k : Nat) (f : Func → Func) : (s.modFunc k f).schedule = s.schedule := rfl
@[simp] theorem State.modFunc_cur (s : State) (k : Nat) (f : Func → Func) : (s.modFunc k f).cur = s.cur := rfl
@[simp] theorem State.modFunc_clock (s : State) (k : Nat) (f : Func → Func) : (s.modFunc k f).clock = s.clock := rfl
@[simp] theorem State.modFunc_nextOp (s : State) (k : Nat) (f : Func → Func) : (s.modFunc k f).nextOp = s.nextOp := rfl
@[simp] theorem State.modFunc_nextId (s : State) (k : Nat) (f : Func → Func) : (s.modFunc k f).nextId = s.nextId := rfl
@[simp] theorem State.modSlice_mem (s : State) (k : Nat) (f : Slice → Slice) : (s.modSlice k f).mem = s.mem := rfl
@[simp] theorem State.modSlice_undo (s : State) (k : Nat) (f : Slice → Slice) : (s.modSlice k f).undo = s.undo := rfl
@[simp] theorem State.modSlice_l2 (s : State) (k : Nat) (f : Slice → Slice) : (s.modSlice k f).l2 = s.l2 := rfl
@[simp] theorem State.modSlice_targets (s : State) (k : Nat) (f : Slice → Slice) : (s.modSlice k f).targets = s.targets := rfl
@[simp] theorem State.modSlice_poison (s : State) (k : Nat) (f : Slice → Slice) : (s.modSlice k f).poison = s.poison := rfl
@[simp] theorem State.modSlice_secKey (s : State) (k : Nat) (f : Slice → Slice) : (s.modSlice k f).secKey = s.secKey := rfl
@[simp] theorem State.modSlice_crews (s : State) (k : Nat) (f : Slice → Slice) : (s.modSlice k f).crews = s.crews := rfl
@[simp] theorem State.modSlice_teams (s : State) (k : Nat) (f : Slice → Slice) : (s.modSlice k f).teams = s.teams := rfl
@[simp] theorem State.modSlice_entries (s : State) (k : Nat) (f : Slice → Slice) : (s.modSlice k f).entries = s.entries := rfl
@[simp] theorem State.modSlice_bound (s : State) (k : Nat) (f : Slice → Slice) : (s.modSlice k f).bound = s.bound := rfl
@[simp] theorem State.modSlice_ctxs (s : State) (k : Nat) (f : Slice → Slice) : (s.modSlice k f).ctxs = s.ctxs := rfl
@[simp] theorem State.modSlice_funcs (s : State) (k : Nat) (f : Slice → Slice) : (s.modSlice k f).funcs = s.funcs := rfl
@[simp] theorem State.modSlice_cores (s : State) (k : Nat) (f : Slice → Slice) : (s.modSlice k f).cores = s.cores := rfl
@[simp] theorem State.modSlice_ops (s : State) (k : Nat) (f : Slice → Slice) : (s.modSlice k f).ops = s.ops := rfl
@[simp] theorem State.modSlice_monitors (s : State) (k : Nat) (f : Slice → Slice) : (s.modSlice k f).monitors = s.monitors := rfl
@[simp] theorem State.modSlice_wide (s : State) (k : Nat) (f : Slice → Slice) : (s.modSlice k f).wide = s.wide := rfl
@[simp] theorem State.modSlice_wideMsgs (s : State) (k : Nat) (f : Slice → Slice) : (s.modSlice k f).wideMsgs = s.wideMsgs := rfl
@[simp] theorem State.modSlice_wideDone (s : State) (k : Nat) (f : Slice → Slice) : (s.modSlice k f).wideDone = s.wideDone := rfl
@[simp] theorem State.modSlice_bulk (s : State) (k : Nat) (f : Slice → Slice) : (s.modSlice k f).bulk = s.bulk := rfl
@[simp] theorem State.modSlice_forwards (s : State) (k : Nat) (f : Slice → Slice) : (s.modSlice k f).forwards = s.forwards := rfl
@[simp] theorem State.modSlice_admissions (s : State) (k : Nat) (f : Slice → Slice) : (s.modSlice k f).admissions = s.admissions := rfl
@[simp] theorem State.modSlice_invals (s : State) (k : Nat) (f : Slice → Slice) : (s.modSlice k f).invals = s.invals := rfl
@[simp] theorem State.modSlice_fabric (s : State) (k : Nat) (f : Slice → Slice) : (s.modSlice k f).fabric = s.fabric := rfl
@[simp] theorem State.modSlice_time (s : State) (k : Nat) (f : Slice → Slice) : (s.modSlice k f).time = s.time := rfl
@[simp] theorem State.modSlice_sec (s : State) (k : Nat) (f : Slice → Slice) : (s.modSlice k f).sec = s.sec := rfl
@[simp] theorem State.modSlice_svc (s : State) (k : Nat) (f : Slice → Slice) : (s.modSlice k f).svc = s.svc := rfl
@[simp] theorem State.modSlice_promoted (s : State) (k : Nat) (f : Slice → Slice) : (s.modSlice k f).promoted = s.promoted := rfl
@[simp] theorem State.modSlice_schedule (s : State) (k : Nat) (f : Slice → Slice) : (s.modSlice k f).schedule = s.schedule := rfl
@[simp] theorem State.modSlice_cur (s : State) (k : Nat) (f : Slice → Slice) : (s.modSlice k f).cur = s.cur := rfl
@[simp] theorem State.modSlice_clock (s : State) (k : Nat) (f : Slice → Slice) : (s.modSlice k f).clock = s.clock := rfl
@[simp] theorem State.modSlice_nextOp (s : State) (k : Nat) (f : Slice → Slice) : (s.modSlice k f).nextOp = s.nextOp := rfl
@[simp] theorem State.modSlice_nextId (s : State) (k : Nat) (f : Slice → Slice) : (s.modSlice k f).nextId = s.nextId := rfl
@[simp] theorem State.modCtx_mem (s : State) (k : Nat) (f : Ctx → Ctx) : (s.modCtx k f).mem = s.mem := rfl
@[simp] theorem State.modCtx_undo (s : State) (k : Nat) (f : Ctx → Ctx) : (s.modCtx k f).undo = s.undo := rfl
@[simp] theorem State.modCtx_l2 (s : State) (k : Nat) (f : Ctx → Ctx) : (s.modCtx k f).l2 = s.l2 := rfl
@[simp] theorem State.modCtx_targets (s : State) (k : Nat) (f : Ctx → Ctx) : (s.modCtx k f).targets = s.targets := rfl
@[simp] theorem State.modCtx_poison (s : State) (k : Nat) (f : Ctx → Ctx) : (s.modCtx k f).poison = s.poison := rfl
@[simp] theorem State.modCtx_secKey (s : State) (k : Nat) (f : Ctx → Ctx) : (s.modCtx k f).secKey = s.secKey := rfl
@[simp] theorem State.modCtx_crews (s : State) (k : Nat) (f : Ctx → Ctx) : (s.modCtx k f).crews = s.crews := rfl
@[simp] theorem State.modCtx_teams (s : State) (k : Nat) (f : Ctx → Ctx) : (s.modCtx k f).teams = s.teams := rfl
@[simp] theorem State.modCtx_entries (s : State) (k : Nat) (f : Ctx → Ctx) : (s.modCtx k f).entries = s.entries := rfl
@[simp] theorem State.modCtx_bound (s : State) (k : Nat) (f : Ctx → Ctx) : (s.modCtx k f).bound = s.bound := rfl
@[simp] theorem State.modCtx_funcs (s : State) (k : Nat) (f : Ctx → Ctx) : (s.modCtx k f).funcs = s.funcs := rfl
@[simp] theorem State.modCtx_cores (s : State) (k : Nat) (f : Ctx → Ctx) : (s.modCtx k f).cores = s.cores := rfl
@[simp] theorem State.modCtx_slices (s : State) (k : Nat) (f : Ctx → Ctx) : (s.modCtx k f).slices = s.slices := rfl
@[simp] theorem State.modCtx_ops (s : State) (k : Nat) (f : Ctx → Ctx) : (s.modCtx k f).ops = s.ops := rfl
@[simp] theorem State.modCtx_monitors (s : State) (k : Nat) (f : Ctx → Ctx) : (s.modCtx k f).monitors = s.monitors := rfl
@[simp] theorem State.modCtx_wide (s : State) (k : Nat) (f : Ctx → Ctx) : (s.modCtx k f).wide = s.wide := rfl
@[simp] theorem State.modCtx_wideMsgs (s : State) (k : Nat) (f : Ctx → Ctx) : (s.modCtx k f).wideMsgs = s.wideMsgs := rfl
@[simp] theorem State.modCtx_wideDone (s : State) (k : Nat) (f : Ctx → Ctx) : (s.modCtx k f).wideDone = s.wideDone := rfl
@[simp] theorem State.modCtx_bulk (s : State) (k : Nat) (f : Ctx → Ctx) : (s.modCtx k f).bulk = s.bulk := rfl
@[simp] theorem State.modCtx_forwards (s : State) (k : Nat) (f : Ctx → Ctx) : (s.modCtx k f).forwards = s.forwards := rfl
@[simp] theorem State.modCtx_admissions (s : State) (k : Nat) (f : Ctx → Ctx) : (s.modCtx k f).admissions = s.admissions := rfl
@[simp] theorem State.modCtx_invals (s : State) (k : Nat) (f : Ctx → Ctx) : (s.modCtx k f).invals = s.invals := rfl
@[simp] theorem State.modCtx_fabric (s : State) (k : Nat) (f : Ctx → Ctx) : (s.modCtx k f).fabric = s.fabric := rfl
@[simp] theorem State.modCtx_time (s : State) (k : Nat) (f : Ctx → Ctx) : (s.modCtx k f).time = s.time := rfl
@[simp] theorem State.modCtx_sec (s : State) (k : Nat) (f : Ctx → Ctx) : (s.modCtx k f).sec = s.sec := rfl
@[simp] theorem State.modCtx_svc (s : State) (k : Nat) (f : Ctx → Ctx) : (s.modCtx k f).svc = s.svc := rfl
@[simp] theorem State.modCtx_promoted (s : State) (k : Nat) (f : Ctx → Ctx) : (s.modCtx k f).promoted = s.promoted := rfl
@[simp] theorem State.modCtx_schedule (s : State) (k : Nat) (f : Ctx → Ctx) : (s.modCtx k f).schedule = s.schedule := rfl
@[simp] theorem State.modCtx_cur (s : State) (k : Nat) (f : Ctx → Ctx) : (s.modCtx k f).cur = s.cur := rfl
@[simp] theorem State.modCtx_clock (s : State) (k : Nat) (f : Ctx → Ctx) : (s.modCtx k f).clock = s.clock := rfl
@[simp] theorem State.modCtx_nextOp (s : State) (k : Nat) (f : Ctx → Ctx) : (s.modCtx k f).nextOp = s.nextOp := rfl
@[simp] theorem State.modCtx_nextId (s : State) (k : Nat) (f : Ctx → Ctx) : (s.modCtx k f).nextId = s.nextId := rfl
@[simp] theorem State.modEntry_mem (s : State) (k : Nat) (f : Entry → Entry) : (s.modEntry k f).mem = s.mem := rfl
@[simp] theorem State.modEntry_undo (s : State) (k : Nat) (f : Entry → Entry) : (s.modEntry k f).undo = s.undo := rfl
@[simp] theorem State.modEntry_l2 (s : State) (k : Nat) (f : Entry → Entry) : (s.modEntry k f).l2 = s.l2 := rfl
@[simp] theorem State.modEntry_targets (s : State) (k : Nat) (f : Entry → Entry) : (s.modEntry k f).targets = s.targets := rfl
@[simp] theorem State.modEntry_poison (s : State) (k : Nat) (f : Entry → Entry) : (s.modEntry k f).poison = s.poison := rfl
@[simp] theorem State.modEntry_secKey (s : State) (k : Nat) (f : Entry → Entry) : (s.modEntry k f).secKey = s.secKey := rfl
@[simp] theorem State.modEntry_crews (s : State) (k : Nat) (f : Entry → Entry) : (s.modEntry k f).crews = s.crews := rfl
@[simp] theorem State.modEntry_teams (s : State) (k : Nat) (f : Entry → Entry) : (s.modEntry k f).teams = s.teams := rfl
@[simp] theorem State.modEntry_bound (s : State) (k : Nat) (f : Entry → Entry) : (s.modEntry k f).bound = s.bound := rfl
@[simp] theorem State.modEntry_ctxs (s : State) (k : Nat) (f : Entry → Entry) : (s.modEntry k f).ctxs = s.ctxs := rfl
@[simp] theorem State.modEntry_funcs (s : State) (k : Nat) (f : Entry → Entry) : (s.modEntry k f).funcs = s.funcs := rfl
@[simp] theorem State.modEntry_cores (s : State) (k : Nat) (f : Entry → Entry) : (s.modEntry k f).cores = s.cores := rfl
@[simp] theorem State.modEntry_slices (s : State) (k : Nat) (f : Entry → Entry) : (s.modEntry k f).slices = s.slices := rfl
@[simp] theorem State.modEntry_ops (s : State) (k : Nat) (f : Entry → Entry) : (s.modEntry k f).ops = s.ops := rfl
@[simp] theorem State.modEntry_monitors (s : State) (k : Nat) (f : Entry → Entry) : (s.modEntry k f).monitors = s.monitors := rfl
@[simp] theorem State.modEntry_wide (s : State) (k : Nat) (f : Entry → Entry) : (s.modEntry k f).wide = s.wide := rfl
@[simp] theorem State.modEntry_wideMsgs (s : State) (k : Nat) (f : Entry → Entry) : (s.modEntry k f).wideMsgs = s.wideMsgs := rfl
@[simp] theorem State.modEntry_wideDone (s : State) (k : Nat) (f : Entry → Entry) : (s.modEntry k f).wideDone = s.wideDone := rfl
@[simp] theorem State.modEntry_bulk (s : State) (k : Nat) (f : Entry → Entry) : (s.modEntry k f).bulk = s.bulk := rfl
@[simp] theorem State.modEntry_forwards (s : State) (k : Nat) (f : Entry → Entry) : (s.modEntry k f).forwards = s.forwards := rfl
@[simp] theorem State.modEntry_admissions (s : State) (k : Nat) (f : Entry → Entry) : (s.modEntry k f).admissions = s.admissions := rfl
@[simp] theorem State.modEntry_invals (s : State) (k : Nat) (f : Entry → Entry) : (s.modEntry k f).invals = s.invals := rfl
@[simp] theorem State.modEntry_fabric (s : State) (k : Nat) (f : Entry → Entry) : (s.modEntry k f).fabric = s.fabric := rfl
@[simp] theorem State.modEntry_time (s : State) (k : Nat) (f : Entry → Entry) : (s.modEntry k f).time = s.time := rfl
@[simp] theorem State.modEntry_sec (s : State) (k : Nat) (f : Entry → Entry) : (s.modEntry k f).sec = s.sec := rfl
@[simp] theorem State.modEntry_svc (s : State) (k : Nat) (f : Entry → Entry) : (s.modEntry k f).svc = s.svc := rfl
@[simp] theorem State.modEntry_promoted (s : State) (k : Nat) (f : Entry → Entry) : (s.modEntry k f).promoted = s.promoted := rfl
@[simp] theorem State.modEntry_schedule (s : State) (k : Nat) (f : Entry → Entry) : (s.modEntry k f).schedule = s.schedule := rfl
@[simp] theorem State.modEntry_cur (s : State) (k : Nat) (f : Entry → Entry) : (s.modEntry k f).cur = s.cur := rfl
@[simp] theorem State.modEntry_clock (s : State) (k : Nat) (f : Entry → Entry) : (s.modEntry k f).clock = s.clock := rfl
@[simp] theorem State.modEntry_nextOp (s : State) (k : Nat) (f : Entry → Entry) : (s.modEntry k f).nextOp = s.nextOp := rfl
@[simp] theorem State.modEntry_nextId (s : State) (k : Nat) (f : Entry → Entry) : (s.modEntry k f).nextId = s.nextId := rfl
@[simp] theorem State.modOp_mem (s : State) (k : Nat) (f : Op → Op) : (s.modOp k f).mem = s.mem := rfl
@[simp] theorem State.modOp_undo (s : State) (k : Nat) (f : Op → Op) : (s.modOp k f).undo = s.undo := rfl
@[simp] theorem State.modOp_l2 (s : State) (k : Nat) (f : Op → Op) : (s.modOp k f).l2 = s.l2 := rfl
@[simp] theorem State.modOp_targets (s : State) (k : Nat) (f : Op → Op) : (s.modOp k f).targets = s.targets := rfl
@[simp] theorem State.modOp_poison (s : State) (k : Nat) (f : Op → Op) : (s.modOp k f).poison = s.poison := rfl
@[simp] theorem State.modOp_secKey (s : State) (k : Nat) (f : Op → Op) : (s.modOp k f).secKey = s.secKey := rfl
@[simp] theorem State.modOp_crews (s : State) (k : Nat) (f : Op → Op) : (s.modOp k f).crews = s.crews := rfl
@[simp] theorem State.modOp_teams (s : State) (k : Nat) (f : Op → Op) : (s.modOp k f).teams = s.teams := rfl
@[simp] theorem State.modOp_entries (s : State) (k : Nat) (f : Op → Op) : (s.modOp k f).entries = s.entries := rfl
@[simp] theorem State.modOp_bound (s : State) (k : Nat) (f : Op → Op) : (s.modOp k f).bound = s.bound := rfl
@[simp] theorem State.modOp_ctxs (s : State) (k : Nat) (f : Op → Op) : (s.modOp k f).ctxs = s.ctxs := rfl
@[simp] theorem State.modOp_funcs (s : State) (k : Nat) (f : Op → Op) : (s.modOp k f).funcs = s.funcs := rfl
@[simp] theorem State.modOp_cores (s : State) (k : Nat) (f : Op → Op) : (s.modOp k f).cores = s.cores := rfl
@[simp] theorem State.modOp_slices (s : State) (k : Nat) (f : Op → Op) : (s.modOp k f).slices = s.slices := rfl
@[simp] theorem State.modOp_monitors (s : State) (k : Nat) (f : Op → Op) : (s.modOp k f).monitors = s.monitors := rfl
@[simp] theorem State.modOp_wide (s : State) (k : Nat) (f : Op → Op) : (s.modOp k f).wide = s.wide := rfl
@[simp] theorem State.modOp_wideMsgs (s : State) (k : Nat) (f : Op → Op) : (s.modOp k f).wideMsgs = s.wideMsgs := rfl
@[simp] theorem State.modOp_wideDone (s : State) (k : Nat) (f : Op → Op) : (s.modOp k f).wideDone = s.wideDone := rfl
@[simp] theorem State.modOp_bulk (s : State) (k : Nat) (f : Op → Op) : (s.modOp k f).bulk = s.bulk := rfl
@[simp] theorem State.modOp_forwards (s : State) (k : Nat) (f : Op → Op) : (s.modOp k f).forwards = s.forwards := rfl
@[simp] theorem State.modOp_admissions (s : State) (k : Nat) (f : Op → Op) : (s.modOp k f).admissions = s.admissions := rfl
@[simp] theorem State.modOp_invals (s : State) (k : Nat) (f : Op → Op) : (s.modOp k f).invals = s.invals := rfl
@[simp] theorem State.modOp_fabric (s : State) (k : Nat) (f : Op → Op) : (s.modOp k f).fabric = s.fabric := rfl
@[simp] theorem State.modOp_time (s : State) (k : Nat) (f : Op → Op) : (s.modOp k f).time = s.time := rfl
@[simp] theorem State.modOp_sec (s : State) (k : Nat) (f : Op → Op) : (s.modOp k f).sec = s.sec := rfl
@[simp] theorem State.modOp_svc (s : State) (k : Nat) (f : Op → Op) : (s.modOp k f).svc = s.svc := rfl
@[simp] theorem State.modOp_promoted (s : State) (k : Nat) (f : Op → Op) : (s.modOp k f).promoted = s.promoted := rfl
@[simp] theorem State.modOp_schedule (s : State) (k : Nat) (f : Op → Op) : (s.modOp k f).schedule = s.schedule := rfl
@[simp] theorem State.modOp_cur (s : State) (k : Nat) (f : Op → Op) : (s.modOp k f).cur = s.cur := rfl
@[simp] theorem State.modOp_clock (s : State) (k : Nat) (f : Op → Op) : (s.modOp k f).clock = s.clock := rfl
@[simp] theorem State.modOp_nextOp (s : State) (k : Nat) (f : Op → Op) : (s.modOp k f).nextOp = s.nextOp := rfl
@[simp] theorem State.modOp_nextId (s : State) (k : Nat) (f : Op → Op) : (s.modOp k f).nextId = s.nextId := rfl
@[simp] theorem noteTime_mem (s : State) (d : Nat) : (noteTime s d).mem = s.mem := rfl
@[simp] theorem noteTime_undo (s : State) (d : Nat) : (noteTime s d).undo = s.undo := rfl
@[simp] theorem noteTime_l2 (s : State) (d : Nat) : (noteTime s d).l2 = s.l2 := rfl
@[simp] theorem noteTime_targets (s : State) (d : Nat) : (noteTime s d).targets = s.targets := rfl
@[simp] theorem noteTime_poison (s : State) (d : Nat) : (noteTime s d).poison = s.poison := rfl
@[simp] theorem noteTime_secKey (s : State) (d : Nat) : (noteTime s d).secKey = s.secKey := rfl
@[simp] theorem noteTime_crews (s : State) (d : Nat) : (noteTime s d).crews = s.crews := rfl
@[simp] theorem noteTime_teams (s : State) (d : Nat) : (noteTime s d).teams = s.teams := rfl
@[simp] theorem noteTime_entries (s : State) (d : Nat) : (noteTime s d).entries = s.entries := rfl
@[simp] theorem noteTime_bound (s : State) (d : Nat) : (noteTime s d).bound = s.bound := rfl
@[simp] theorem noteTime_ctxs (s : State) (d : Nat) : (noteTime s d).ctxs = s.ctxs := rfl
@[simp] theorem noteTime_funcs (s : State) (d : Nat) : (noteTime s d).funcs = s.funcs := rfl
@[simp] theorem noteTime_cores (s : State) (d : Nat) : (noteTime s d).cores = s.cores := rfl
@[simp] theorem noteTime_slices (s : State) (d : Nat) : (noteTime s d).slices = s.slices := rfl
@[simp] theorem noteTime_ops (s : State) (d : Nat) : (noteTime s d).ops = s.ops := rfl
@[simp] theorem noteTime_monitors (s : State) (d : Nat) : (noteTime s d).monitors = s.monitors := rfl
@[simp] theorem noteTime_wide (s : State) (d : Nat) : (noteTime s d).wide = s.wide := rfl
@[simp] theorem noteTime_wideMsgs (s : State) (d : Nat) : (noteTime s d).wideMsgs = s.wideMsgs := rfl
@[simp] theorem noteTime_wideDone (s : State) (d : Nat) : (noteTime s d).wideDone = s.wideDone := rfl
@[simp] theorem noteTime_bulk (s : State) (d : Nat) : (noteTime s d).bulk = s.bulk := rfl
@[simp] theorem noteTime_forwards (s : State) (d : Nat) : (noteTime s d).forwards = s.forwards := rfl
@[simp] theorem noteTime_admissions (s : State) (d : Nat) : (noteTime s d).admissions = s.admissions := rfl
@[simp] theorem noteTime_invals (s : State) (d : Nat) : (noteTime s d).invals = s.invals := rfl
@[simp] theorem noteTime_fabric (s : State) (d : Nat) : (noteTime s d).fabric = s.fabric := rfl
@[simp] theorem noteTime_sec (s : State) (d : Nat) : (noteTime s d).sec = s.sec := rfl
@[simp] theorem noteTime_svc (s : State) (d : Nat) : (noteTime s d).svc = s.svc := rfl
@[simp] theorem noteTime_promoted (s : State) (d : Nat) : (noteTime s d).promoted = s.promoted := rfl
@[simp] theorem noteTime_schedule (s : State) (d : Nat) : (noteTime s d).schedule = s.schedule := rfl
@[simp] theorem noteTime_cur (s : State) (d : Nat) : (noteTime s d).cur = s.cur := rfl
@[simp] theorem noteTime_clock (s : State) (d : Nat) : (noteTime s d).clock = s.clock := rfl
@[simp] theorem noteTime_nextOp (s : State) (d : Nat) : (noteTime s d).nextOp = s.nextOp := rfl
@[simp] theorem noteTime_nextId (s : State) (d : Nat) : (noteTime s d).nextId = s.nextId := rfl
@[simp] theorem spend_mem (s : State) (a p n : Nat) : (spend s a p n).mem = s.mem := rfl
@[simp] theorem spend_undo (s : State) (a p n : Nat) : (spend s a p n).undo = s.undo := rfl
@[simp] theorem spend_l2 (s : State) (a p n : Nat) : (spend s a p n).l2 = s.l2 := rfl
@[simp] theorem spend_targets (s : State) (a p n : Nat) : (spend s a p n).targets = s.targets := rfl
@[simp] theorem spend_poison (s : State) (a p n : Nat) : (spend s a p n).poison = s.poison := rfl
@[simp] theorem spend_secKey (s : State) (a p n : Nat) : (spend s a p n).secKey = s.secKey := rfl
@[simp] theorem spend_crews (s : State) (a p n : Nat) : (spend s a p n).crews = s.crews := rfl
@[simp] theorem spend_teams (s : State) (a p n : Nat) : (spend s a p n).teams = s.teams := rfl
@[simp] theorem spend_entries (s : State) (a p n : Nat) : (spend s a p n).entries = s.entries := rfl
@[simp] theorem spend_bound (s : State) (a p n : Nat) : (spend s a p n).bound = s.bound := rfl
@[simp] theorem spend_ctxs (s : State) (a p n : Nat) : (spend s a p n).ctxs = s.ctxs := rfl
@[simp] theorem spend_funcs (s : State) (a p n : Nat) : (spend s a p n).funcs = s.funcs := rfl
@[simp] theorem spend_cores (s : State) (a p n : Nat) : (spend s a p n).cores = s.cores := rfl
@[simp] theorem spend_slices (s : State) (a p n : Nat) : (spend s a p n).slices = s.slices := rfl
@[simp] theorem spend_ops (s : State) (a p n : Nat) : (spend s a p n).ops = s.ops := rfl
@[simp] theorem spend_monitors (s : State) (a p n : Nat) : (spend s a p n).monitors = s.monitors := rfl
@[simp] theorem spend_wide (s : State) (a p n : Nat) : (spend s a p n).wide = s.wide := rfl
@[simp] theorem spend_wideMsgs (s : State) (a p n : Nat) : (spend s a p n).wideMsgs = s.wideMsgs := rfl
@[simp] theorem spend_wideDone (s : State) (a p n : Nat) : (spend s a p n).wideDone = s.wideDone := rfl
@[simp] theorem spend_bulk (s : State) (a p n : Nat) : (spend s a p n).bulk = s.bulk := rfl
@[simp] theorem spend_forwards (s : State) (a p n : Nat) : (spend s a p n).forwards = s.forwards := rfl
@[simp] theorem spend_admissions (s : State) (a p n : Nat) : (spend s a p n).admissions = s.admissions := rfl
@[simp] theorem spend_invals (s : State) (a p n : Nat) : (spend s a p n).invals = s.invals := rfl
@[simp] theorem spend_fabric (s : State) (a p n : Nat) : (spend s a p n).fabric = s.fabric := rfl
@[simp] theorem spend_time (s : State) (a p n : Nat) : (spend s a p n).time = s.time := rfl
@[simp] theorem spend_sec (s : State) (a p n : Nat) : (spend s a p n).sec = s.sec := rfl
@[simp] theorem spend_promoted (s : State) (a p n : Nat) : (spend s a p n).promoted = s.promoted := rfl
@[simp] theorem spend_schedule (s : State) (a p n : Nat) : (spend s a p n).schedule = s.schedule := rfl
@[simp] theorem spend_cur (s : State) (a p n : Nat) : (spend s a p n).cur = s.cur := rfl
@[simp] theorem spend_clock (s : State) (a p n : Nat) : (spend s a p n).clock = s.clock := rfl
@[simp] theorem spend_nextOp (s : State) (a p n : Nat) : (spend s a p n).nextOp = s.nextOp := rfl
@[simp] theorem spend_nextId (s : State) (a p n : Nat) : (spend s a p n).nextId = s.nextId := rfl
@[simp] theorem retire_mem (s : State) (c : Crew) : (retire s c).mem = s.mem := rfl
@[simp] theorem retire_undo (s : State) (c : Crew) : (retire s c).undo = s.undo := rfl
@[simp] theorem retire_l2 (s : State) (c : Crew) : (retire s c).l2 = s.l2 := rfl
@[simp] theorem retire_targets (s : State) (c : Crew) : (retire s c).targets = s.targets := rfl
@[simp] theorem retire_poison (s : State) (c : Crew) : (retire s c).poison = s.poison := rfl
@[simp] theorem retire_secKey (s : State) (c : Crew) : (retire s c).secKey = s.secKey := rfl
@[simp] theorem retire_teams (s : State) (c : Crew) : (retire s c).teams = s.teams := rfl
@[simp] theorem retire_entries (s : State) (c : Crew) : (retire s c).entries = s.entries := rfl
@[simp] theorem retire_bound (s : State) (c : Crew) : (retire s c).bound = s.bound := rfl
@[simp] theorem retire_ctxs (s : State) (c : Crew) : (retire s c).ctxs = s.ctxs := rfl
@[simp] theorem retire_funcs (s : State) (c : Crew) : (retire s c).funcs = s.funcs := rfl
@[simp] theorem retire_cores (s : State) (c : Crew) : (retire s c).cores = s.cores := rfl
@[simp] theorem retire_slices (s : State) (c : Crew) : (retire s c).slices = s.slices := rfl
@[simp] theorem retire_ops (s : State) (c : Crew) : (retire s c).ops = s.ops := rfl
@[simp] theorem retire_monitors (s : State) (c : Crew) : (retire s c).monitors = s.monitors := rfl
@[simp] theorem retire_wide (s : State) (c : Crew) : (retire s c).wide = s.wide := rfl
@[simp] theorem retire_wideMsgs (s : State) (c : Crew) : (retire s c).wideMsgs = s.wideMsgs := rfl
@[simp] theorem retire_wideDone (s : State) (c : Crew) : (retire s c).wideDone = s.wideDone := rfl
@[simp] theorem retire_bulk (s : State) (c : Crew) : (retire s c).bulk = s.bulk := rfl
@[simp] theorem retire_forwards (s : State) (c : Crew) : (retire s c).forwards = s.forwards := rfl
@[simp] theorem retire_admissions (s : State) (c : Crew) : (retire s c).admissions = s.admissions := rfl
@[simp] theorem retire_invals (s : State) (c : Crew) : (retire s c).invals = s.invals := rfl
@[simp] theorem retire_fabric (s : State) (c : Crew) : (retire s c).fabric = s.fabric := rfl
@[simp] theorem retire_time (s : State) (c : Crew) : (retire s c).time = s.time := rfl
@[simp] theorem retire_sec (s : State) (c : Crew) : (retire s c).sec = s.sec := rfl
@[simp] theorem retire_svc (s : State) (c : Crew) : (retire s c).svc = s.svc := rfl
@[simp] theorem retire_promoted (s : State) (c : Crew) : (retire s c).promoted = s.promoted := rfl
@[simp] theorem retire_schedule (s : State) (c : Crew) : (retire s c).schedule = s.schedule := rfl
@[simp] theorem retire_cur (s : State) (c : Crew) : (retire s c).cur = s.cur := rfl
@[simp] theorem retire_clock (s : State) (c : Crew) : (retire s c).clock = s.clock := rfl
@[simp] theorem retire_nextOp (s : State) (c : Crew) : (retire s c).nextOp = s.nextOp := rfl
@[simp] theorem retire_nextId (s : State) (c : Crew) : (retire s c).nextId = s.nextId := rfl
@[simp] theorem addOp_mem (s : State) (o : Op) : (addOp s o).mem = s.mem := rfl
@[simp] theorem addOp_undo (s : State) (o : Op) : (addOp s o).undo = s.undo := rfl
@[simp] theorem addOp_l2 (s : State) (o : Op) : (addOp s o).l2 = s.l2 := rfl
@[simp] theorem addOp_targets (s : State) (o : Op) : (addOp s o).targets = s.targets := rfl
@[simp] theorem addOp_poison (s : State) (o : Op) : (addOp s o).poison = s.poison := rfl
@[simp] theorem addOp_secKey (s : State) (o : Op) : (addOp s o).secKey = s.secKey := rfl
@[simp] theorem addOp_crews (s : State) (o : Op) : (addOp s o).crews = s.crews := rfl
@[simp] theorem addOp_teams (s : State) (o : Op) : (addOp s o).teams = s.teams := rfl
@[simp] theorem addOp_entries (s : State) (o : Op) : (addOp s o).entries = s.entries := rfl
@[simp] theorem addOp_bound (s : State) (o : Op) : (addOp s o).bound = s.bound := rfl
@[simp] theorem addOp_ctxs (s : State) (o : Op) : (addOp s o).ctxs = s.ctxs := rfl
@[simp] theorem addOp_funcs (s : State) (o : Op) : (addOp s o).funcs = s.funcs := rfl
@[simp] theorem addOp_cores (s : State) (o : Op) : (addOp s o).cores = s.cores := rfl
@[simp] theorem addOp_slices (s : State) (o : Op) : (addOp s o).slices = s.slices := rfl
@[simp] theorem addOp_monitors (s : State) (o : Op) : (addOp s o).monitors = s.monitors := rfl
@[simp] theorem addOp_wide (s : State) (o : Op) : (addOp s o).wide = s.wide := rfl
@[simp] theorem addOp_wideMsgs (s : State) (o : Op) : (addOp s o).wideMsgs = s.wideMsgs := rfl
@[simp] theorem addOp_wideDone (s : State) (o : Op) : (addOp s o).wideDone = s.wideDone := rfl
@[simp] theorem addOp_bulk (s : State) (o : Op) : (addOp s o).bulk = s.bulk := rfl
@[simp] theorem addOp_forwards (s : State) (o : Op) : (addOp s o).forwards = s.forwards := rfl
@[simp] theorem addOp_admissions (s : State) (o : Op) : (addOp s o).admissions = s.admissions := rfl
@[simp] theorem addOp_invals (s : State) (o : Op) : (addOp s o).invals = s.invals := rfl
@[simp] theorem addOp_fabric (s : State) (o : Op) : (addOp s o).fabric = s.fabric := rfl
@[simp] theorem addOp_sec (s : State) (o : Op) : (addOp s o).sec = s.sec := rfl
@[simp] theorem addOp_svc (s : State) (o : Op) : (addOp s o).svc = s.svc := rfl
@[simp] theorem addOp_promoted (s : State) (o : Op) : (addOp s o).promoted = s.promoted := rfl
@[simp] theorem addOp_schedule (s : State) (o : Op) : (addOp s o).schedule = s.schedule := rfl
@[simp] theorem addOp_cur (s : State) (o : Op) : (addOp s o).cur = s.cur := rfl
@[simp] theorem addOp_clock (s : State) (o : Op) : (addOp s o).clock = s.clock := rfl
@[simp] theorem addOp_nextId (s : State) (o : Op) : (addOp s o).nextId = s.nextId := rfl

@[simp] theorem Crew.setS_team (c : Crew) (r : SReg) (v : DWord) : (c.setS r v).team = c.team := by unfold Crew.setS; split <;> rfl
@[simp] theorem Crew.setS_idx (c : Crew) (r : SReg) (v : DWord) : (c.setS r v).idx = c.idx := by unfold Crew.setS; split <;> rfl
@[simp] theorem Crew.setS_pc (c : Crew) (r : SReg) (v : DWord) : (c.setS r v).pc = c.pc := by unfold Crew.setS; split <;> rfl
@[simp] theorem Crew.setS_vregs (c : Crew) (r : SReg) (v : DWord) : (c.setS r v).vregs = c.vregs := by unfold Crew.setS; split <;> rfl
@[simp] theorem Crew.setS_mode (c : Crew) (r : SReg) (v : DWord) : (c.setS r v).mode = c.mode := by unfold Crew.setS; split <;> rfl
@[simp] theorem Crew.setS_gang (c : Crew) (r : SReg) (v : DWord) : (c.setS r v).gang = c.gang := by unfold Crew.setS; split <;> rfl
@[simp] theorem Crew.setS_gangMarks (c : Crew) (r : SReg) (v : DWord) : (c.setS r v).gangMarks = c.gangMarks := by unfold Crew.setS; split <;> rfl
@[simp] theorem Crew.setS_rseed (c : Crew) (r : SReg) (v : DWord) : (c.setS r v).rseed = c.rseed := by unfold Crew.setS; split <;> rfl
@[simp] theorem Crew.setS_rndcnt (c : Crew) (r : SReg) (v : DWord) : (c.setS r v).rndcnt = c.rndcnt := by unfold Crew.setS; split <;> rfl
@[simp] theorem Crew.setS_trap (c : Crew) (r : SReg) (v : DWord) : (c.setS r v).trap = c.trap := by unfold Crew.setS; split <;> rfl
@[simp] theorem Crew.setS_handler (c : Crew) (r : SReg) (v : DWord) : (c.setS r v).handler = c.handler := by unfold Crew.setS; split <;> rfl
@[simp] theorem Crew.setS_pending (c : Crew) (r : SReg) (v : DWord) : (c.setS r v).pending = c.pending := by unfold Crew.setS; split <;> rfl
@[simp] theorem Crew.setS_rclosed (c : Crew) (r : SReg) (v : DWord) : (c.setS r v).rclosed = c.rclosed := by unfold Crew.setS; split <;> rfl
@[simp] theorem Crew.setS_held (c : Crew) (r : SReg) (v : DWord) : (c.setS r v).held = c.held := by unfold Crew.setS; split <;> rfl
@[simp] theorem Crew.setS_wait (c : Crew) (r : SReg) (v : DWord) : (c.setS r v).wait = c.wait := by unfold Crew.setS; split <;> rfl
@[simp] theorem Crew.setS_region (c : Crew) (r : SReg) (v : DWord) : (c.setS r v).region = c.region := by unfold Crew.setS; split <;> rfl
@[simp] theorem Crew.setS_spec (c : Crew) (r : SReg) (v : DWord) : (c.setS r v).spec = c.spec := by unfold Crew.setS; split <;> rfl
@[simp] theorem Crew.setS_rolled (c : Crew) (r : SReg) (v : DWord) : (c.setS r v).rolled = c.rolled := by unfold Crew.setS; split <;> rfl
@[simp] theorem Crew.setS_buf (c : Crew) (r : SReg) (v : DWord) : (c.setS r v).buf = c.buf := by unfold Crew.setS; split <;> rfl
@[simp] theorem Crew.setS_fenceAt (c : Crew) (r : SReg) (v : DWord) : (c.setS r v).fenceAt = c.fenceAt := by unfold Crew.setS; split <;> rfl
@[simp] theorem Crew.setS_spare (c : Crew) (r : SReg) (v : DWord) : (c.setS r v).spare = c.spare := by unfold Crew.setS; split <;> rfl
@[simp] theorem Crew.setS_spawn (c : Crew) (r : SReg) (v : DWord) : (c.setS r v).spawn = c.spawn := by unfold Crew.setS; split <;> rfl
@[simp] theorem Crew.setS_saved (c : Crew) (r : SReg) (v : DWord) : (c.setS r v).saved = c.saved := by unfold Crew.setS; split <;> rfl
@[simp] theorem Crew.setS_acqAt (c : Crew) (r : SReg) (v : DWord) : (c.setS r v).acqAt = c.acqAt := by unfold Crew.setS; split <;> rfl
@[simp] theorem Crew.setS_seen (c : Crew) (r : SReg) (v : DWord) : (c.setS r v).seen = c.seen := by unfold Crew.setS; split <;> rfl
@[simp] theorem Crew.setS_started (c : Crew) (r : SReg) (v : DWord) : (c.setS r v).started = c.started := by unfold Crew.setS; split <;> rfl
@[simp] theorem Crew.setS_gate (c : Crew) (r : SReg) (v : DWord) : (c.setS r v).gate = c.gate := by unfold Crew.setS; split <;> rfl
@[simp] theorem Crew.setS_cmask (c : Crew) (r : SReg) (v : DWord) : (c.setS r v).cmask = c.cmask := by unfold Crew.setS; split <;> rfl
@[simp] theorem Crew.setS_issued (c : Crew) (r : SReg) (v : DWord) : (c.setS r v).issued = c.issued := by unfold Crew.setS; split <;> rfl
@[simp] theorem Crew.setS_stalled (c : Crew) (r : SReg) (v : DWord) : (c.setS r v).stalled = c.stalled := by unfold Crew.setS; split <;> rfl
@[simp] theorem Crew.setS_needs (c : Crew) (r : SReg) (v : DWord) : (c.setS r v).needs = c.needs := by unfold Crew.setS; split <;> rfl
@[simp] theorem Crew.setS_stallSum (c : Crew) (r : SReg) (v : DWord) : (c.setS r v).stallSum = c.stallSum := by unfold Crew.setS; split <;> rfl
@[simp] theorem Crew.setS_ready (c : Crew) (r : SReg) (v : DWord) : (c.setS r v).ready = c.ready := by unfold Crew.setS; split <;> rfl
@[simp] theorem Crew.setV_team (c : Crew) (r l : Nat) (v : Word) : (c.setV r l v).team = c.team := rfl
@[simp] theorem Crew.setV_idx (c : Crew) (r l : Nat) (v : Word) : (c.setV r l v).idx = c.idx := rfl
@[simp] theorem Crew.setV_pc (c : Crew) (r l : Nat) (v : Word) : (c.setV r l v).pc = c.pc := rfl
@[simp] theorem Crew.setV_sregs (c : Crew) (r l : Nat) (v : Word) : (c.setV r l v).sregs = c.sregs := rfl
@[simp] theorem Crew.setV_mode (c : Crew) (r l : Nat) (v : Word) : (c.setV r l v).mode = c.mode := rfl
@[simp] theorem Crew.setV_gang (c : Crew) (r l : Nat) (v : Word) : (c.setV r l v).gang = c.gang := rfl
@[simp] theorem Crew.setV_gangMarks (c : Crew) (r l : Nat) (v : Word) : (c.setV r l v).gangMarks = c.gangMarks := rfl
@[simp] theorem Crew.setV_rseed (c : Crew) (r l : Nat) (v : Word) : (c.setV r l v).rseed = c.rseed := rfl
@[simp] theorem Crew.setV_rndcnt (c : Crew) (r l : Nat) (v : Word) : (c.setV r l v).rndcnt = c.rndcnt := rfl
@[simp] theorem Crew.setV_trap (c : Crew) (r l : Nat) (v : Word) : (c.setV r l v).trap = c.trap := rfl
@[simp] theorem Crew.setV_handler (c : Crew) (r l : Nat) (v : Word) : (c.setV r l v).handler = c.handler := rfl
@[simp] theorem Crew.setV_pending (c : Crew) (r l : Nat) (v : Word) : (c.setV r l v).pending = c.pending := rfl
@[simp] theorem Crew.setV_rclosed (c : Crew) (r l : Nat) (v : Word) : (c.setV r l v).rclosed = c.rclosed := rfl
@[simp] theorem Crew.setV_held (c : Crew) (r l : Nat) (v : Word) : (c.setV r l v).held = c.held := rfl
@[simp] theorem Crew.setV_wait (c : Crew) (r l : Nat) (v : Word) : (c.setV r l v).wait = c.wait := rfl
@[simp] theorem Crew.setV_region (c : Crew) (r l : Nat) (v : Word) : (c.setV r l v).region = c.region := rfl
@[simp] theorem Crew.setV_spec (c : Crew) (r l : Nat) (v : Word) : (c.setV r l v).spec = c.spec := rfl
@[simp] theorem Crew.setV_rolled (c : Crew) (r l : Nat) (v : Word) : (c.setV r l v).rolled = c.rolled := rfl
@[simp] theorem Crew.setV_buf (c : Crew) (r l : Nat) (v : Word) : (c.setV r l v).buf = c.buf := rfl
@[simp] theorem Crew.setV_fenceAt (c : Crew) (r l : Nat) (v : Word) : (c.setV r l v).fenceAt = c.fenceAt := rfl
@[simp] theorem Crew.setV_spare (c : Crew) (r l : Nat) (v : Word) : (c.setV r l v).spare = c.spare := rfl
@[simp] theorem Crew.setV_spawn (c : Crew) (r l : Nat) (v : Word) : (c.setV r l v).spawn = c.spawn := rfl
@[simp] theorem Crew.setV_saved (c : Crew) (r l : Nat) (v : Word) : (c.setV r l v).saved = c.saved := rfl
@[simp] theorem Crew.setV_acqAt (c : Crew) (r l : Nat) (v : Word) : (c.setV r l v).acqAt = c.acqAt := rfl
@[simp] theorem Crew.setV_seen (c : Crew) (r l : Nat) (v : Word) : (c.setV r l v).seen = c.seen := rfl
@[simp] theorem Crew.setV_started (c : Crew) (r l : Nat) (v : Word) : (c.setV r l v).started = c.started := rfl
@[simp] theorem Crew.setV_gate (c : Crew) (r l : Nat) (v : Word) : (c.setV r l v).gate = c.gate := rfl
@[simp] theorem Crew.setV_cmask (c : Crew) (r l : Nat) (v : Word) : (c.setV r l v).cmask = c.cmask := rfl
@[simp] theorem Crew.setV_issued (c : Crew) (r l : Nat) (v : Word) : (c.setV r l v).issued = c.issued := rfl
@[simp] theorem Crew.setV_stalled (c : Crew) (r l : Nat) (v : Word) : (c.setV r l v).stalled = c.stalled := rfl
@[simp] theorem Crew.setV_needs (c : Crew) (r l : Nat) (v : Word) : (c.setV r l v).needs = c.needs := rfl
@[simp] theorem Crew.setV_stallSum (c : Crew) (r l : Nat) (v : Word) : (c.setV r l v).stallSum = c.stallSum := rfl
@[simp] theorem Crew.setV_ready (c : Crew) (r l : Nat) (v : Word) : (c.setV r l v).ready = c.ready := rfl
@[simp] theorem Crew.advance_team (c : Crew) : c.advance.team = c.team := rfl
@[simp] theorem Crew.advance_idx (c : Crew) : c.advance.idx = c.idx := rfl
@[simp] theorem Crew.advance_sregs (c : Crew) : c.advance.sregs = c.sregs := rfl
@[simp] theorem Crew.advance_vregs (c : Crew) : c.advance.vregs = c.vregs := rfl
@[simp] theorem Crew.advance_mode (c : Crew) : c.advance.mode = c.mode := rfl
@[simp] theorem Crew.advance_gang (c : Crew) : c.advance.gang = c.gang := rfl
@[simp] theorem Crew.advance_gangMarks (c : Crew) : c.advance.gangMarks = c.gangMarks := rfl
@[simp] theorem Crew.advance_rseed (c : Crew) : c.advance.rseed = c.rseed := rfl
@[simp] theorem Crew.advance_rndcnt (c : Crew) : c.advance.rndcnt = c.rndcnt := rfl
@[simp] theorem Crew.advance_trap (c : Crew) : c.advance.trap = c.trap := rfl
@[simp] theorem Crew.advance_handler (c : Crew) : c.advance.handler = c.handler := rfl
@[simp] theorem Crew.advance_pending (c : Crew) : c.advance.pending = c.pending := rfl
@[simp] theorem Crew.advance_rclosed (c : Crew) : c.advance.rclosed = c.rclosed := rfl
@[simp] theorem Crew.advance_held (c : Crew) : c.advance.held = c.held := rfl
@[simp] theorem Crew.advance_wait (c : Crew) : c.advance.wait = c.wait := rfl
@[simp] theorem Crew.advance_region (c : Crew) : c.advance.region = c.region := rfl
@[simp] theorem Crew.advance_spec (c : Crew) : c.advance.spec = c.spec := rfl
@[simp] theorem Crew.advance_rolled (c : Crew) : c.advance.rolled = c.rolled := rfl
@[simp] theorem Crew.advance_buf (c : Crew) : c.advance.buf = c.buf := rfl
@[simp] theorem Crew.advance_fenceAt (c : Crew) : c.advance.fenceAt = c.fenceAt := rfl
@[simp] theorem Crew.advance_spare (c : Crew) : c.advance.spare = c.spare := rfl
@[simp] theorem Crew.advance_spawn (c : Crew) : c.advance.spawn = c.spawn := rfl
@[simp] theorem Crew.advance_saved (c : Crew) : c.advance.saved = c.saved := rfl
@[simp] theorem Crew.advance_acqAt (c : Crew) : c.advance.acqAt = c.acqAt := rfl
@[simp] theorem Crew.advance_seen (c : Crew) : c.advance.seen = c.seen := rfl
@[simp] theorem Crew.advance_started (c : Crew) : c.advance.started = c.started := rfl
@[simp] theorem Crew.advance_gate (c : Crew) : c.advance.gate = c.gate := rfl
@[simp] theorem Crew.advance_cmask (c : Crew) : c.advance.cmask = c.cmask := rfl
@[simp] theorem Crew.advance_stalled (c : Crew) : c.advance.stalled = c.stalled := rfl
@[simp] theorem Crew.advance_needs (c : Crew) : c.advance.needs = c.needs := rfl
@[simp] theorem Crew.advance_stallSum (c : Crew) : c.advance.stallSum = c.stallSum := rfl
@[simp] theorem Crew.advance_ready (c : Crew) : c.advance.ready = c.ready := rfl
@[simp] theorem Crew.countRnd_team (c : Crew) (b : Bool) : (c.countRnd b).team = c.team := by unfold Crew.countRnd; split <;> rfl
@[simp] theorem Crew.countRnd_idx (c : Crew) (b : Bool) : (c.countRnd b).idx = c.idx := by unfold Crew.countRnd; split <;> rfl
@[simp] theorem Crew.countRnd_pc (c : Crew) (b : Bool) : (c.countRnd b).pc = c.pc := by unfold Crew.countRnd; split <;> rfl
@[simp] theorem Crew.countRnd_sregs (c : Crew) (b : Bool) : (c.countRnd b).sregs = c.sregs := by unfold Crew.countRnd; split <;> rfl
@[simp] theorem Crew.countRnd_vregs (c : Crew) (b : Bool) : (c.countRnd b).vregs = c.vregs := by unfold Crew.countRnd; split <;> rfl
@[simp] theorem Crew.countRnd_mode (c : Crew) (b : Bool) : (c.countRnd b).mode = c.mode := by unfold Crew.countRnd; split <;> rfl
@[simp] theorem Crew.countRnd_gang (c : Crew) (b : Bool) : (c.countRnd b).gang = c.gang := by unfold Crew.countRnd; split <;> rfl
@[simp] theorem Crew.countRnd_gangMarks (c : Crew) (b : Bool) : (c.countRnd b).gangMarks = c.gangMarks := by unfold Crew.countRnd; split <;> rfl
@[simp] theorem Crew.countRnd_rseed (c : Crew) (b : Bool) : (c.countRnd b).rseed = c.rseed := by unfold Crew.countRnd; split <;> rfl
@[simp] theorem Crew.countRnd_trap (c : Crew) (b : Bool) : (c.countRnd b).trap = c.trap := by unfold Crew.countRnd; split <;> rfl
@[simp] theorem Crew.countRnd_handler (c : Crew) (b : Bool) : (c.countRnd b).handler = c.handler := by unfold Crew.countRnd; split <;> rfl
@[simp] theorem Crew.countRnd_pending (c : Crew) (b : Bool) : (c.countRnd b).pending = c.pending := by unfold Crew.countRnd; split <;> rfl
@[simp] theorem Crew.countRnd_rclosed (c : Crew) (b : Bool) : (c.countRnd b).rclosed = c.rclosed := by unfold Crew.countRnd; split <;> rfl
@[simp] theorem Crew.countRnd_held (c : Crew) (b : Bool) : (c.countRnd b).held = c.held := by unfold Crew.countRnd; split <;> rfl
@[simp] theorem Crew.countRnd_wait (c : Crew) (b : Bool) : (c.countRnd b).wait = c.wait := by unfold Crew.countRnd; split <;> rfl
@[simp] theorem Crew.countRnd_region (c : Crew) (b : Bool) : (c.countRnd b).region = c.region := by unfold Crew.countRnd; split <;> rfl
@[simp] theorem Crew.countRnd_spec (c : Crew) (b : Bool) : (c.countRnd b).spec = c.spec := by unfold Crew.countRnd; split <;> rfl
@[simp] theorem Crew.countRnd_rolled (c : Crew) (b : Bool) : (c.countRnd b).rolled = c.rolled := by unfold Crew.countRnd; split <;> rfl
@[simp] theorem Crew.countRnd_buf (c : Crew) (b : Bool) : (c.countRnd b).buf = c.buf := by unfold Crew.countRnd; split <;> rfl
@[simp] theorem Crew.countRnd_fenceAt (c : Crew) (b : Bool) : (c.countRnd b).fenceAt = c.fenceAt := by unfold Crew.countRnd; split <;> rfl
@[simp] theorem Crew.countRnd_spare (c : Crew) (b : Bool) : (c.countRnd b).spare = c.spare := by unfold Crew.countRnd; split <;> rfl
@[simp] theorem Crew.countRnd_spawn (c : Crew) (b : Bool) : (c.countRnd b).spawn = c.spawn := by unfold Crew.countRnd; split <;> rfl
@[simp] theorem Crew.countRnd_saved (c : Crew) (b : Bool) : (c.countRnd b).saved = c.saved := by unfold Crew.countRnd; split <;> rfl
@[simp] theorem Crew.countRnd_acqAt (c : Crew) (b : Bool) : (c.countRnd b).acqAt = c.acqAt := by unfold Crew.countRnd; split <;> rfl
@[simp] theorem Crew.countRnd_seen (c : Crew) (b : Bool) : (c.countRnd b).seen = c.seen := by unfold Crew.countRnd; split <;> rfl
@[simp] theorem Crew.countRnd_started (c : Crew) (b : Bool) : (c.countRnd b).started = c.started := by unfold Crew.countRnd; split <;> rfl
@[simp] theorem Crew.countRnd_gate (c : Crew) (b : Bool) : (c.countRnd b).gate = c.gate := by unfold Crew.countRnd; split <;> rfl
@[simp] theorem Crew.countRnd_cmask (c : Crew) (b : Bool) : (c.countRnd b).cmask = c.cmask := by unfold Crew.countRnd; split <;> rfl
@[simp] theorem Crew.countRnd_issued (c : Crew) (b : Bool) : (c.countRnd b).issued = c.issued := by unfold Crew.countRnd; split <;> rfl
@[simp] theorem Crew.countRnd_stalled (c : Crew) (b : Bool) : (c.countRnd b).stalled = c.stalled := by unfold Crew.countRnd; split <;> rfl
@[simp] theorem Crew.countRnd_needs (c : Crew) (b : Bool) : (c.countRnd b).needs = c.needs := by unfold Crew.countRnd; split <;> rfl
@[simp] theorem Crew.countRnd_stallSum (c : Crew) (b : Bool) : (c.countRnd b).stallSum = c.stallSum := by unfold Crew.countRnd; split <;> rfl
@[simp] theorem Crew.countRnd_ready (c : Crew) (b : Bool) : (c.countRnd b).ready = c.ready := by unfold Crew.countRnd; split <;> rfl

@[simp] theorem Crew.advance_pc (c : Crew) : c.advance.pc = c.pc + 4 := rfl
@[simp] theorem Crew.advance_issued (c : Crew) : c.advance.issued = c.issued + 1 := rfl
@[simp] theorem retire_crews (s : State) (c : Crew) : (retire s c).crews = Tbl.put s.crews s.cur c.advance := rfl
@[simp] theorem addOp_nextOp (s : State) (o : Op) : (addOp s o).nextOp = s.nextOp + 1 := rfl
@[simp] theorem State.setCrew_crews (s : State) (k : Nat) (c : Crew) : (s.setCrew k c).crews = Tbl.put s.crews k c := rfl
@[simp] theorem State.setTeam_teams (s : State) (k : Nat) (x : Team) : (s.setTeam k x).teams = Tbl.put s.teams k x := rfl

/-- The crew on a slot after a crew has been stored. -/
theorem State.setCrew_crew? (s : State) (k j : Nat) (c : Crew) : (s.setCrew k c).crew? j = if j = k then some c else s.crew? j :=
  Tbl.get?_put _ _ _ _
theorem State.modCrew_crew? (s : State) (k j : Nat) (f : Crew → Crew) :
    (s.modCrew k f).crew? j = if j = k then (s.crew? k).map f else s.crew? j := Tbl.get?_upd _ _ _ _
theorem State.setTeam_team? (s : State) (k j : Nat) (x : Team) : (s.setTeam k x).team? j = if j = k then some x else s.team? j :=
  Tbl.get?_put _ _ _ _
theorem State.modTeam_team? (s : State) (k j : Nat) (f : Team → Team) :
    (s.modTeam k f).team? j = if j = k then (s.team? k).map f else s.team? j := Tbl.get?_upd _ _ _ _
theorem State.modCore_core (s : State) (k j : Nat) (f : Core → Core) : (s.modCore k f).core j = if j = k then f (s.core k) else s.core j :=
  Tbl.getD_put _ _ _ _ _
theorem State.modFunc_func (s : State) (k j : Nat) (f : Func → Func) : (s.modFunc k f).func j = if j = k then f (s.func k) else s.func j :=
  Tbl.getD_put _ _ _ _ _
theorem State.modSlice_slice (s : State) (k j : Nat) (f : Slice → Slice) :
    (s.modSlice k f).slice j = if j = k then f (s.slice k) else s.slice j := Tbl.getD_put _ _ _ _ _
/-- The crew of the move after it has retired its instruction. -/
@[simp] theorem retire_crew? (s : State) (c : Crew) : (retire s c).crew? s.cur = some c.advance := Tbl.get?_put_self _ _ _
/-- Another crew is as before. -/
theorem retire_crew?_ne (s : State) (c : Crew) {k : Nat} (h : k ≠ s.cur) : (retire s c).crew? k = s.crew? k := Tbl.get?_put_ne _ _ h
/-- The operation that has just issued. -/
@[simp] theorem addOp_get? (s : State) (o : Op) : Tbl.get? (addOp s o).ops s.nextOp = some { o with stamp := sendTime s (o.core / 32) (o.core % 32) } :=
  Tbl.get?_put_self _ _ _
theorem addOp_get?_ne (s : State) (o : Op) {n : Nat} (h : n ≠ s.nextOp) : Tbl.get? (addOp s o).ops n = Tbl.get? s.ops n :=
  Tbl.get?_put_ne _ _ h

/-- R41: s0 reads as zero whatever is written to it. -/
@[simp] theorem Crew.getS_zero (c : Crew) : c.getS 0#6 = 0 := rfl
/-- R41: a write to s0 changes nothing. -/
@[simp] theorem Crew.setS_zero (c : Crew) (v : DWord) : c.setS 0#6 v = c := rfl
/-- A scalar register reads as what was written to it last, and every other as before. -/
theorem Crew.getS_setS (c : Crew) (r q : SReg) (v : DWord) :
    (c.setS r v).getS q = if q = r then (if r = 0 then 0 else v) else c.getS q := by
  by_cases hr : r = 0
  · subst hr
    show c.getS q = _
    by_cases hq : q = 0
    · subst hq; rfl
    · rw [if_neg hq]
  · have e : c.setS r v = { c with sregs := Sparse.set c.sregs r.toNat v } := if_neg hr
    rw [e]
    by_cases hq : q = r
    · subst hq
      rw [if_pos rfl, if_neg hr]
      exact (if_neg hr).trans (Sparse.get_set_self _ _ _)
    · rw [if_neg hq]
      unfold Crew.getS
      split
      · rfl
      · exact Sparse.get_set_ne _ _ fun h => hq (BitVec.eq_of_toNat_eq h)
/-- A lane reads as what was written to it last, and every other as before. -/
theorem Crew.getV_setV (c : Crew) (r l q m : Nat) (v : Word) :
    (c.setV r l v).getV q m = if 64 * q + m = 64 * r + l then v else c.getV q m := Sparse.get_set _ _ _ _

end Sys2Proof.Machine
end

