-- ==== Sys2Proof/Laws/Frames.lean ====
section
/-! SUPPORT. What each shared operation can change: every field that is not named in its lemma is as it was. -/
namespace Sys2Proof.Machine

/-- A fold of updates keeps what every update keeps. -/
theorem foldl_keeps {σ α : Type} (P : σ → Prop) (f : σ → α → σ) (h : ∀ s x, P s → P (f s x)) (l : List α) (s : σ) (hs : P s) :
    P (l.foldl f s) := by
  induction l generalizing s with
  | nil => exact hs
  | cons x t ih => exact ih _ (h s x hs)

/-- A record that is dropped changes the counts of drops alone. -/
theorem dropRecord_touches (s : State) (func die src : Nat) :
    ∃ fs fb, dropRecord s func die src = { s with funcs := fs, fabric := fb } := ⟨_, _, rfl⟩
/-- A record on its way is in the fabric, and the time of its die has been read. -/
theorem sendRecord_touches (s : State) (i : TraceItem) : ∃ fb tm, sendRecord s i = { s with fabric := fb, time := tm } := ⟨_, _, rfl⟩
/-- A record that finds no place changes the trace fabric, the counts of its function and the time read. -/
theorem loseRecord_touches (s : State) (i : TraceItem) :
    ∃ fs fb tm, fb.starved = s.fabric.starved ∧ loseRecord s i = { s with funcs := fs, fabric := fb, time := tm } := by
  unfold loseRecord
  dsimp only
  split
  · exact ⟨_, _, _, by rfl, rfl⟩
  · exact ⟨_, _, s.time, by rfl, rfl⟩
/-- A stallable record changes the trace fabric, the counts of its function, its core's pool and the time read. -/
theorem emitS_touches (s : State) (key : Nat) (event arg : BitVec 8) (payload : Word) (spec : Bool) (cause : Nat) :
    ∃ fs fb tm cs, emitS s key event arg payload spec cause = { s with funcs := fs, fabric := fb, time := tm, cores := cs } := by
  unfold emitS
  split
  · exact ⟨s.funcs, s.fabric, s.time, s.cores, rfl⟩
  · dsimp only
    split
    · split
      · exact ⟨_, _, _, _, rfl⟩
      · split
        · exact ⟨_, _, _, _, rfl⟩
        · next c _ _ _ _ =>
          obtain ⟨fs, fb, tm, _, e⟩ := loseRecord_touches { s with fabric := { s.fabric with wanted := s.fabric.wanted + 1 } }
            { die := coreOf key / 32, src := coreOf key % 32, func := funcOfTeam s c.team, event := event, arg := arg, payload := payload,
              slot := slotOf key, spec := spec, stamp := max (dieTime s (coreOf key / 32)) cause, granted := false, crew := some key,
              ctx := (s.team? c.team).map (·.ctx), kindS := true }
          exact ⟨fs, fb, tm, s.cores, e⟩
    · exact ⟨s.funcs, s.fabric, s.time, s.cores, rfl⟩
/-- A record that never stalls changes the trace fabric, the counts of its function and the time read. -/
theorem emitA_touches (s : State) (die src func : Nat) (crew : Option Nat) (event arg : BitVec 8) (payload : Word) (cause : Nat)
    (ctx : Option Nat) :
    ∃ fs fb tm, fb.starved = s.fabric.starved ∧
      emitA s die src func crew event arg payload cause ctx = { s with funcs := fs, fabric := fb, time := tm } := by
  unfold emitA
  dsimp only
  split
  · split
    · exact ⟨s.funcs, _, _, by rfl, rfl⟩
    · exact loseRecord_touches ..
  · exact ⟨s.funcs, s.fabric, s.time, rfl, rfl⟩
theorem emitCrewA_touches (s : State) (key : Nat) (event arg : BitVec 8) (payload : Word) (cause : Nat) :
    ∃ fs fb tm, fb.starved = s.fabric.starved ∧
      emitCrewA s key event arg payload cause = { s with funcs := fs, fabric := fb, time := tm } := by
  unfold emitCrewA
  split
  · exact ⟨s.funcs, s.fabric, s.time, rfl, rfl⟩
  · exact emitA_touches ..
/-- A record that finds its reservation, or is not delivered, or is dropped, was emitted in a state in which every record so far had found
its own. -/
theorem emitS_starved {s : State} {key : Nat} {event arg : BitVec 8} {payload : Word} {spec : Bool} {cause : Nat}
    (h : (emitS s key event arg payload spec cause).fabric.starved = false) : s.fabric.starved = false := by
  unfold emitS at h
  split at h
  · exact h
  · dsimp only at h
    split at h
    · split at h
      · exact h
      · split at h
        · simp at h
        · next c _ _ _ _ =>
          obtain ⟨fs, fb, tm, e1, e⟩ := loseRecord_touches { s with fabric := { s.fabric with wanted := s.fabric.wanted + 1 } }
            { die := coreOf key / 32, src := coreOf key % 32, func := funcOfTeam s c.team, event := event, arg := arg, payload := payload,
              slot := slotOf key, spec := spec, stamp := max (dieTime s (coreOf key / 32)) cause, granted := false, crew := some key,
              ctx := (s.team? c.team).map (·.ctx), kindS := true }
          rw [e] at h
          exact e1.symm.trans h
    · exact h
/-- A stall of a crew changes that crew and the trace registers of its function. -/
theorem stallCrew_touches (s : State) (key : Nat) (c : Crew) :
    ∃ cs fs, stallCrew s key c = { s with crews := cs, funcs := fs } := ⟨_, _, rfl⟩
theorem stallOver_touches (s : State) (key : Nat) (c : Crew) :
    ∃ cs fs, (stallOver s key c).1 = { s with crews := cs, funcs := fs } := by
  unfold stallOver
  split
  · exact ⟨s.crews, s.funcs, rfl⟩
  · exact ⟨_, _, rfl⟩
/-- A crew that goes on after a stall has emitted STALLEND. -/
theorem endStall_touches (s : State) (key : Nat) (c : Crew) :
    ∃ cs fs fb tm ks, (endStall s key c).1 = { s with crews := cs, funcs := fs, fabric := fb, time := tm, cores := ks } := by
  obtain ⟨cs, fs, e⟩ := stallOver_touches s key c
  unfold endStall
  dsimp only
  split
  · exact ⟨cs, fs, s.fabric, s.time, s.cores, e⟩
  · rw [e]
    obtain ⟨fs', fb, tm, ks, e'⟩ := emitS_touches
      (({ s with crews := cs, funcs := fs } : State).modCrew key fun c => { c with stallSum := 0 }) key 0x06 0
      (BitVec.ofNat 32 (min (stallOver s key c).2.stallSum 0xFFFFFFFF)) false 0
    exact ⟨_, fs', fb, tm, ks, e'⟩
/-- It is not stalled, and nothing else of it has changed. -/
theorem endStall_crew (s : State) (key : Nat) (c : Crew) : (endStall s key c).2 = { c with stalled := none, stallSum := 0 } := by
  unfold endStall stallOver
  cases c with
  | mk => dsimp only; split <;> (dsimp only; split <;> simp_all)

/-- An operation that completes, and is counted, changes the table of operations alone (R50). -/
theorem completeOp_touches (s : State) (n : Nat) : ∃ os, completeOp s n = { s with ops := os } := by
  unfold completeOp
  split
  · exact ⟨s.ops, rfl⟩
  · dsimp only
    split
    · exact ⟨_, rfl⟩
    · exact ⟨_, rfl⟩
/-- A held fault is held by its crew. -/
theorem holdFault_touches (s : State) (n : Nat) (o : Op) (regs : List Nat) (shape : Option Nat) (info : TrapInfo) :
    ∃ cs, holdFault s n o regs shape info = { s with crews := cs } := by
  unfold holdFault
  split
  · exact ⟨s.crews, rfl⟩
  · exact ⟨_, rfl⟩
/-- A crew that is put back (R329): its own state, its operations, and the ROLLBACK record. -/
theorem rollback_touches (s : State) (key cause line sent : Nat) :
    ∃ cs os fs fb tm, fb.starved = s.fabric.starved ∧ rollback s key cause line sent = { s with crews := cs, ops := os, funcs := fs, fabric := fb, time := tm } := by
  unfold rollback
  split
  · exact ⟨s.crews, s.ops, s.funcs, s.fabric, s.time, rfl, rfl⟩
  · split
    · exact ⟨s.crews, s.ops, s.funcs, s.fabric, s.time, rfl, rfl⟩
    · next c hc sp hsp =>
      obtain ⟨fs, fb, tm, e1, e⟩ := emitCrewA_touches s key 0x15 (BitVec.ofNat 8 sp.handle)
        (BitVec.ofNat 32 (cause * 2 ^ 28) ||| rollbackLow s key cause line) sent
      dsimp only
      rw [e]
      exact ⟨_, _, fs, fb, tm, e1, rfl⟩
/-- Putting back the crews that track a line. -/
theorem rollbackLine_touches (s : State) (writer : Option Nat) (line : Nat) (pick : Nat → Option Nat) (sent : Nat) :
    ∃ cs os fs fb tm, fb.starved = s.fabric.starved ∧
      rollbackLine s writer line pick sent = { s with crews := cs, ops := os, funcs := fs, fabric := fb, time := tm } := by
  unfold rollbackLine
  refine foldl_keeps (fun x => ∃ cs os fs fb tm, fb.starved = s.fabric.starved ∧
    x = { s with crews := cs, ops := os, funcs := fs, fabric := fb, time := tm }) _ ?_ _ s
    ⟨s.crews, s.ops, s.funcs, s.fabric, s.time, rfl, rfl⟩
  rintro x p ⟨cs, os, fs, fb, tm, e1, rfl⟩
  split
  · obtain ⟨cs', os', fs', fb', tm', e2, e⟩ := rollback_touches
      { s with crews := cs, ops := os, funcs := fs, fabric := fb, time := tm } p.1 (by assumption) line sent
    exact ⟨cs', os', fs', fb', tm', e2.trans e1, e⟩
  · exact ⟨cs, os, fs, fb, tm, e1, rfl⟩
/-- A write wakes monitors: their crews, the relaunches of their teams, the monitors and the MONWAKE records. -/
theorem evalMonitors_touches (s : State) (line : Nat) :
    ∃ cs ts ms fs fb tm n, fb.starved = s.fabric.starved ∧ evalMonitors s line =
      { s with crews := cs, teams := ts, monitors := ms, funcs := fs, fabric := fb, time := tm, nextId := n } := by
  unfold evalMonitors
  refine foldl_keeps (fun x => ∃ cs ts ms fs fb tm n, fb.starved = s.fabric.starved ∧ x =
      { s with crews := cs, teams := ts, monitors := ms, funcs := fs, fabric := fb, time := tm, nextId := n }) _ ?_ _ s
    ⟨s.crews, s.teams, s.monitors, s.funcs, s.fabric, s.time, s.nextId, rfl, rfl⟩
  rintro x m ⟨cs, ts, ms, fs, fb, tm, n, e1, rfl⟩
  dsimp only
  split
  · split
    · split
      · exact ⟨_, _, _, _, _, _, _, e1, rfl⟩
      · exact ⟨_, _, _, _, _, _, _, e1, rfl⟩
    · obtain ⟨fs', fb', tm', e2, e⟩ := emitA_touches
        { s with crews := cs, teams := ts, monitors := ms, funcs := fs, fabric := fb, time := tm, nextId := n } _ _ _ none 0x23 _ _ 0 _
      rw [e]
      exact ⟨_, _, _, _, _, _, _, e2.trans e1, rfl⟩
  · exact ⟨cs, ts, ms, fs, fb, tm, n, e1, rfl⟩
/-- A line that no cache holds dirty is in HBM. -/
theorem settleDirty_touches (s : State) (line : Nat) : ∃ u, settleDirty s line = { s with undo := u } := by
  unfold settleDirty
  split
  · exact ⟨s.undo, rfl⟩
  · exact ⟨_, rfl⟩
/-- What dirty copies deposit at home is the poison of their sectors. -/
theorem deposit_touches (s : State) (sel : Nat → Bool) : ∃ ps, deposit s sel = { s with poison := ps } := by
  unfold deposit
  refine foldl_keeps (fun x => ∃ ps, x = { s with poison := ps }) _ (fun x p hx => ?_) _ s ⟨s.poison, rfl⟩
  refine foldl_keeps (fun x => ∃ ps, x = { s with poison := ps }) _ (fun x e hx => ?_) _ x hx
  split
  · refine foldl_keeps (fun x => ∃ ps, x = { s with poison := ps }) _ (fun x i hx => ?_) _ x hx
    obtain ⟨ps, rfl⟩ := hx
    exact ⟨_, rfl⟩
  · exact hx
/-- A core's copy of a line is dropped; others receive its invalidation; received invalidations are applied. -/
theorem dropOwnLine_touches (s : State) (core line : Nat) : ∃ ks u ps, dropOwnLine s core line = { s with cores := ks, undo := u, poison := ps } := by
  unfold dropOwnLine
  split
  · obtain ⟨ps, e1⟩ := deposit_touches s (· == line)
    rw [e1]
    obtain ⟨u, e⟩ := settleDirty_touches
      (({ s with poison := ps } : State).modCore core fun x => { x with l1 := Tbl.del x.l1 line, inv := setDel x.inv line }) line
    exact ⟨_, u, ps, e⟩
  · exact ⟨s.cores, s.undo, s.poison, rfl⟩
theorem recallLine_touches (s : State) (core : Option Nat) (line : Nat) : ∃ ks ps, recallLine s core line = { s with cores := ks, poison := ps } := by
  unfold recallLine
  dsimp only
  split
  · obtain ⟨ps, e1⟩ := deposit_touches s fun l => l == line
    rw [e1]
    exact ⟨_, ps, rfl⟩
  · exact ⟨s.cores, s.poison, rfl⟩
theorem applyInvs_touches (s : State) (core : Nat) : ∃ ks, applyInvs s core = { s with cores := ks } := ⟨_, rfl⟩
/-- The send time of a recall is read. -/
theorem recallTime_touches (s : State) (line : Nat) : ∃ tm, (recallTime s line).1 = { s with time := tm } := by
  unfold recallTime
  split
  · exact ⟨_, rfl⟩
  · exact ⟨s.time, rfl⟩
/-- What the movements of lines change. -/
def LineMove (s t : State) : Prop :=
  ∃ cs os fs fb tm ks u ps l2, fb.starved = s.fabric.starved ∧
    t = { s with crews := cs, ops := os, funcs := fs, fabric := fb, time := tm, cores := ks, undo := u, poison := ps, l2 := l2 }
theorem LineMove.refl (s : State) : LineMove s s :=
  ⟨s.crews, s.ops, s.funcs, s.fabric, s.time, s.cores, s.undo, s.poison, s.l2, rfl, rfl⟩
theorem LineMove.trans {s t r : State} (h : LineMove s t) (g : LineMove t r) : LineMove s r := by
  obtain ⟨_, _, _, _, _, _, _, _, _, h, rfl⟩ := h
  obtain ⟨a, b, c, d, e, f, g, p, i, j, rfl⟩ := g
  exact ⟨a, b, c, d, e, f, g, p, i, j.trans h, rfl⟩
theorem lineMove_deposit (s : State) (sel : Nat → Bool) : LineMove s (deposit s sel) := by
  obtain ⟨ps, e⟩ := deposit_touches s sel
  exact ⟨s.crews, s.ops, s.funcs, s.fabric, s.time, s.cores, s.undo, ps, s.l2, rfl, e⟩
theorem lineMove_drop (s : State) (core line : Nat) : LineMove s (dropOwnLine s core line) := by
  obtain ⟨ks, u, ps, e⟩ := dropOwnLine_touches s core line
  exact ⟨s.crews, s.ops, s.funcs, s.fabric, s.time, ks, u, ps, s.l2, rfl, e⟩
theorem lineMove_recall (s : State) (core : Option Nat) (line : Nat) : LineMove s (recallLine s core line) := by
  obtain ⟨ks, ps, e⟩ := recallLine_touches s core line
  exact ⟨s.crews, s.ops, s.funcs, s.fabric, s.time, ks, s.undo, ps, s.l2, rfl, e⟩
theorem lineMove_time (s : State) (line : Nat) : LineMove s (recallTime s line).1 := by
  obtain ⟨tm, e⟩ := recallTime_touches s line
  exact ⟨s.crews, s.ops, s.funcs, s.fabric, tm, s.cores, s.undo, s.poison, s.l2, rfl, e⟩
theorem lineMove_rollback (s : State) (writer : Option Nat) (line : Nat) (pick : Nat → Option Nat) (sent : Nat) :
    LineMove s (rollbackLine s writer line pick sent) := by
  obtain ⟨cs, os, fs, fb, tm, e1, e⟩ := rollbackLine_touches s writer line pick sent
  exact ⟨cs, os, fs, fb, tm, s.cores, s.undo, s.poison, s.l2, e1, e⟩
/-- A line leaves L2, is used in L2, or comes into L1. -/
theorem lineMove_evict (s : State) (line : Nat) : LineMove s (evictL2 s line) := by
  unfold evictL2
  refine ((lineMove_time s line).trans (.trans (t := { (recallTime s line).1 with l2 := (recallTime s line).1.l2.filter fun e => e.line != line })
    ⟨_, _, _, _, _, _, _, _, _, by rfl, rfl⟩ ?_))
  refine (lineMove_recall _ none line).trans ((lineMove_rollback _ none line (fun _ => some 2) (recallTime s line).2).trans
    ⟨_, _, _, _, _, _, _, _, _, by rfl, rfl⟩)
theorem lineMove_keyed (s : State) (p : Attr) (line : Nat) : LineMove s (keyedL2 s p line) := by
  unfold keyedL2
  split
  · split
    · exact .refl s
    · exact lineMove_evict s line
  · exact .refl s
theorem lineMove_place (s : State) (p : Attr) (line : Nat) : LineMove s (placeL2 s p line) := by
  unfold placeL2
  dsimp only
  split
  · exact ⟨_, _, _, _, _, _, _, _, _, by rfl, rfl⟩
  · split
    · exact .refl s
    · split
      · exact ⟨_, _, _, _, _, _, _, _, _, by rfl, rfl⟩
      · split
        · next e _ => exact (lineMove_evict s e.line).trans ⟨_, _, _, _, _, _, _, _, _, by rfl, rfl⟩
        · exact .refl s
theorem lineMove_touch (s : State) (p : Attr) (line : Nat) : LineMove s (touchL2 s p line) := by
  unfold touchL2
  split
  · exact (lineMove_keyed s p line).trans (lineMove_place ..)
  · exact .refl s
theorem lineMove_dropLines (s : State) (core : Nat) (l : Tbl L1Line) : LineMove s (dropLinesOf s core l) :=
  foldl_keeps (LineMove s) _ (fun y e hy => hy.trans (lineMove_drop y core e.1)) l s (.refl s)
theorem lineMove_placeL1 (s : State) (core : Nat) (p : Attr) (l : Nat) : LineMove s (placeL1 s core p l) := by
  unfold placeL1
  exact ((lineMove_dropLines s core _).trans (lineMove_deposit ..)).trans ⟨_, _, _, _, _, _, _, _, _, by rfl, rfl⟩
theorem lineMove_fill (s : State) (core : Nat) (p : Attr) (pa : Nat) : LineMove s (fillL1 s core p pa) := by
  unfold fillL1
  dsimp only
  split
  · exact .refl s
  · exact ((lineMove_drop s core _).trans (lineMove_touch _ p _)).trans (lineMove_placeL1 ..)
theorem lineMove_dropFor (s : State) (core : Option Nat) (l : Nat) : LineMove s (dropFor s core l) := by
  unfold dropFor
  split
  · exact lineMove_drop ..
  · exact .refl s
theorem lineMove_writeOwn (s : State) (core writer : Option Nat) (p : Attr) (l a : Nat) (bs : List Byte) (bad : Bool) :
    LineMove s (writeOwn s core writer p l a bs bad) := by
  unfold writeOwn
  split
  · exact .refl s
  · split
    · exact ⟨_, _, _, _, _, _, _, _, _, by rfl, rfl⟩
    · exact lineMove_drop ..
/-- An engine takes the lines of a span. -/
theorem lineMove_own (s : State) (core : Option Nat) (pa size : Nat) : LineMove s (ownLines s core pa size) := by
  unfold ownLines
  split
  · exact .refl s
  · refine foldl_keeps (LineMove s) _ (fun x i hx => hx.trans ?_) _ s (.refl s)
    dsimp only
    exact (lineMove_dropFor x core _).trans ((lineMove_time _ _).trans ((lineMove_recall _ core _).trans (lineMove_rollback ..)))
/-- Bytes that are put change memory, what HBM holds under dirty lines, the keys of sectors and poison. -/
theorem putByte_touches (cached : Bool) (s : State) (a : Nat) (b : Byte) :
    ∃ u, putByte cached s a b = { s with undo := u, mem := Sparse.set (w := 8) s.mem a b } := ⟨_, rfl⟩

end Sys2Proof.Machine
end

