-- ==== Sys2Proof/Laws/Memory.lean ====
section
/-! SUPPORT. A condition that depends on memory and on the trace fabric's mark alone, and that the writing of one byte keeps, is kept by every
shared operation: so is the canonical form of memory, and so is that no record has failed to find its reservation. -/
namespace Sys2Proof.Machine

/-- A condition that depends on memory and the trace fabric's mark alone, and that the writing of one byte keeps. -/
structure Solid (P : State → Prop) : Prop where
  same : ∀ {s t : State}, P s → t.mem = s.mem → t.fabric.starved = s.fabric.starved → P t
  byte : ∀ {s : State} (cached : Bool) (a : Nat) (b : Byte), P s → P (putByte cached s a b)
/-- One that a stallable record keeps too. -/
structure Full (P : State → Prop) extends Solid P : Prop where
  emit : ∀ {s : State} (key : Nat) (event arg : BitVec 8) (payload : Word) (spec : Bool) (cause : Nat), P s →
    P (emitS s key event arg payload spec cause)
/-- Every record so far has found its reservation. -/
def Calm (s : State) : Prop := s.fabric.starved = false
theorem inv_of_mem {s t : State} (h : Inv s) (e : t.mem = s.mem) : Inv t := by unfold Inv; rw [e]; exact h
theorem calm_of {s t : State} (h : Calm s) (e : t.fabric.starved = s.fabric.starved) : Calm t := e.trans h
theorem calm_solid : Solid Calm := ⟨fun h _ e => calm_of h e, fun _ _ _ h => h⟩
theorem inv_full : Full Inv where
  same h e _ := inv_of_mem h e
  byte _ a b h := Sparse.wf_set a b h
  emit key event arg payload spec cause h := by
    obtain ⟨_, _, _, _, e⟩ := emitS_touches _ key event arg payload spec cause
    rw [e]; exact h
theorem inv_solid : Solid Inv := inv_full.toSolid

/-- A crew that does not speculate takes its trap. -/
theorem trapOrStop_raises {s : State} {key : Nat} {c : Crew} (hc : s.crew? key = some c) (hs : c.spec = none) (info : TrapInfo) :
    trapOrStop s key info = raise s key info := by
  unfold trapOrStop
  rw [hc]
  simp [hs]

section
variable {P : State → Prop} (hP : Solid P)
include hP

theorem solid_lineMove {s t : State} (h : P s) (g : LineMove s t) : P t := by
  obtain ⟨_, _, _, _, _, _, _, _, _, e, rfl⟩ := g
  exact hP.same h rfl e
theorem solid_emitA {s : State} (h : P s) (die src func : Nat) (crew : Option Nat) (event arg : BitVec 8) (payload : Word) (cause : Nat)
    (ctx : Option Nat) : P (emitA s die src func crew event arg payload cause ctx) := by
  obtain ⟨_, _, _, e1, e⟩ := emitA_touches s die src func crew event arg payload cause ctx; rw [e]; exact hP.same h rfl e1
theorem solid_emitCrewA {s : State} (h : P s) (key : Nat) (event arg : BitVec 8) (payload : Word) (cause : Nat) :
    P (emitCrewA s key event arg payload cause) := by
  obtain ⟨_, _, _, e1, e⟩ := emitCrewA_touches s key event arg payload cause; rw [e]; exact hP.same h rfl e1
theorem solid_rollback {s : State} (h : P s) (key cause line sent : Nat) : P (rollback s key cause line sent) := by
  obtain ⟨_, _, _, _, _, e1, e⟩ := rollback_touches s key cause line sent; rw [e]; exact hP.same h rfl e1
theorem solid_rollbackLine {s : State} (h : P s) (writer : Option Nat) (line : Nat) (pick : Nat → Option Nat) (sent : Nat) :
    P (rollbackLine s writer line pick sent) := by
  obtain ⟨_, _, _, _, _, e1, e⟩ := rollbackLine_touches s writer line pick sent; rw [e]; exact hP.same h rfl e1
theorem solid_recallLine {s : State} (h : P s) (core : Option Nat) (line : Nat) : P (recallLine s core line) :=
  solid_lineMove hP h (lineMove_recall s core line)
theorem solid_evalMonitors {s : State} (h : P s) (line : Nat) : P (evalMonitors s line) := by
  obtain ⟨_, _, _, _, _, _, _, e1, e⟩ := evalMonitors_touches s line; rw [e]; exact hP.same h rfl e1
theorem solid_completeOp {s : State} (h : P s) (n : Nat) : P (completeOp s n) := by
  obtain ⟨_, e⟩ := completeOp_touches s n; rw [e]; exact hP.same h rfl rfl
theorem solid_holdFault {s : State} (h : P s) (n : Nat) (o : Op) (regs : List Nat) (shape : Option Nat) (info : TrapInfo) :
    P (holdFault s n o regs shape info) := by
  obtain ⟨_, e⟩ := holdFault_touches s n o regs shape info; rw [e]; exact hP.same h rfl rfl
theorem solid_fillL1 {s : State} (h : P s) (core : Nat) (p : Attr) (pa : Nat) : P (fillL1 s core p pa) :=
  solid_lineMove hP h (lineMove_fill s core p pa)
theorem solid_ite {p : Prop} [Decidable p] {a b : State} (ha : P a) (hb : P b) : P (if p then a else b) := by
  split
  · exact ha
  · exact hb

/-- Bytes are put. -/
theorem solid_putList {s : State} (h : P s) (cached : Bool) (a : Nat) (bs : List Byte) : P (putList cached s a bs) := by
  induction bs generalizing s a with
  | nil => exact h
  | cons b t ih => exact ih (hP.byte cached a b h) (a + 1)
theorem solid_rekey {s : State} (h : P s) (key sec : Nat) : P (rekey key s sec) := by
  unfold rekey
  refine solid_ite hP ?_ h
  split
  · exact hP.same h rfl rfl
  · next k g _ =>
    refine solid_ite hP h ?_
    have h2 := solid_putList hP h false (32 * sec) (recrypt s sec k g key)
    revert h2
    generalize putList false s (32 * sec) (recrypt s sec k g key) = x
    intro h2
    exact hP.same h2 rfl rfl
theorem solid_putBytes {s : State} (h : P s) (key : Nat) (cached : Bool) (a : Nat) (bs : List Byte) (bad : Bool) :
    P (putBytes key cached s a bs bad) := by
  unfold putBytes
  dsimp only
  have h' : P (if bs.length = 0 then s else
      (List.range ((a + bs.length - 1) / 32 - a / 32 + 1)).foldl (fun s i => rekey key s (a / 32 + i)) s) :=
    solid_ite hP h (foldl_keeps P _ (fun x i hx => solid_rekey hP hx key (a / 32 + i)) _ s h)
  revert h'
  generalize (if bs.length = 0 then s else _ : State) = x
  intro h'
  exact hP.same (solid_putList hP h' cached a bs) rfl rfl
theorem solid_noteReads {s : State} (h : P s) (a n : Nat) : P (noteReads s a n) := hP.same h rfl rfl
/-- Bytes reach their point of coherence. -/
theorem solid_performLine {s : State} (h : P s) (core writer : Option Nat) (p : Attr) (a : Nat) (bs : List Byte) (bad : Bool)
    (pick : Nat → Option Nat) : P (performLine s core writer p a bs bad pick) := by
  unfold performLine
  exact solid_evalMonitors hP (solid_rollbackLine hP (solid_putBytes hP (solid_lineMove hP h
    ((lineMove_touch ..).trans ((lineMove_recall ..).trans ((lineMove_time ..).trans (lineMove_writeOwn ..))))) ..) ..) _
theorem solid_performBytes {s : State} (h : P s) (core writer : Option Nat) (p : Attr) (a : Nat) (bs : List Byte)
    (bad : Bool) (pick : Nat → Option Nat) : P (performBytes s core writer p a bs bad pick) := by
  unfold performBytes
  split
  · exact h
  · exact foldl_keeps P _ (fun x i hx => solid_performLine hP hx ..) _ _ (solid_noteReads hP h a bs.length)
theorem solid_performStore {s : State} (h : P s) (core writer : Option Nat) (a : Acc) (bad : Bool) :
    P (performStore s core writer a bad) := solid_performBytes hP h ..
theorem solid_poisonBytes {s : State} (h : P s) (as : List Nat) : P (poisonBytes s as) := hP.same h rfl rfl
theorem solid_clearCovered {s : State} (h : P s) (as : List Acc) : P (clearCovered s as) := by
  unfold clearCovered
  exact solid_ite hP h (hP.same h rfl rfl)
theorem solid_ownLines {s : State} (h : P s) (core : Option Nat) (pa size : Nat) : P (ownLines s core pa size) :=
  solid_lineMove hP h (lineMove_own s core pa size)

/-- The counter blocks. -/
theorem solid_fireBlock {s : State} (h : P s) (ctx pa : Nat) (b : Block) : P (fireBlock s ctx pa b).1 := by
  unfold fireBlock
  split
  · dsimp only
    split <;> exact hP.same h rfl rfl
  · exact h
theorem solid_blockStep {s s' : State} (h : P s) {ctx : Nat} {core : Option Nat} {a : Acc} {f : Block → Block}
    (e : blockStep s ctx core a f = some s') : P s' := by
  unfold blockStep at e
  split at e
  · simp at e
  · dsimp only at e
    split at e
    · simp at e
    · simp only [Option.some.injEq] at e
      rw [← e]
      exact solid_performBytes hP (solid_fireBlock hP h ..) ..
/-- Completion records, and all that the end of teams and entries does. -/
theorem solid_complFailed {s : State} (h : P s) (ctx compl tindex : Nat) (status : BitVec 16) (why : ComplCause) :
    P (complFailed s ctx compl tindex status why) := hP.same h rfl rfl
theorem solid_writeCompletion {s : State} (h : P s) (ctx compl tindex : Nat) (status : BitVec 16) (bs : List Byte) :
    P (writeCompletion s ctx compl tindex status bs) := by
  unfold writeCompletion
  split
  · exact h
  · split
    · exact solid_complFailed hP h ..
    · split
      · exact solid_performBytes hP (solid_performBytes hP (solid_clearCovered hP h _) ..) ..
      · exact solid_complFailed hP h ..
      · exact h
      · exact solid_ite hP h (solid_complFailed hP h ..)
theorem solid_lowerSucc {s : State} (h : P s) (ctx va : Nat) : P (lowerSucc s ctx va) := by
  unfold lowerSucc
  split
  · exact hP.same h rfl rfl
  · split
    · split
      · next e => exact solid_blockStep hP h e
      · exact hP.same h rfl rfl
    · exact hP.same h rfl rfl
theorem solid_settleWide {s : State} (h : P s) (ctx : Nat) : P (settleWide s ctx) := by
  unfold settleWide
  split
  · exact h
  · split
    · exact hP.same (solid_emitA hP h ..) rfl rfl
    · exact h
theorem solid_leaveWide {s : State} (h : P s) (t : Team) : P (leaveWide s t) := by
  unfold leaveWide
  refine foldl_keeps P _ (fun x i hx => ?_) _ s h
  dsimp only
  split
  · refine solid_settleWide hP ?_ _
    exact hP.same hx rfl rfl
  · exact hx
theorem solid_stallOver {s : State} (h : P s) (key : Nat) (c : Crew) : P (stallOver s key c).1 := by
  obtain ⟨_, _, e⟩ := stallOver_touches s key c
  rw [e]; exact hP.same h rfl rfl
theorem solid_dropPool {s : State} (h : P s) (core tid : Nat) : P (dropPool s core tid) := by
  unfold dropPool
  exact solid_ite hP h (hP.same h rfl rfl)
theorem solid_removeTeam {s : State} (h : P s) (tid : Nat) : P (removeTeam s tid) := by
  unfold removeTeam
  split
  · exact h
  · next t ht =>
    extract_lets s1 s2 s3 fb s4 s5 o
    have h2 : P s2 := foldl_keeps P _ (fun x p hx => solid_stallOver hP hx p.1 p.2) _ _ (solid_leaveWide hP h t)
    have h3 : P s3 := hP.same h2 rfl rfl
    have h5 : P s5 := solid_dropPool hP (s := s4) (hP.same h3 rfl rfl) _ _
    exact solid_ite hP (hP.same h5 rfl rfl) (hP.same h5 rfl rfl)
theorem solid_completeEntry {s : State} (h : P s) (eid : Nat) (status : BitVec 16) (detail : DWord) :
    P (completeEntry s eid status detail) := by
  unfold completeEntry
  split
  · exact h
  · next e he =>
    extract_lets s1 s2 s3 s4
    have h1 : P s1 := solid_writeCompletion hP h ..
    have h2 : P s2 := solid_ite hP (foldl_keeps P _ (fun x v hx => solid_lowerSucc hP hx _ _) _ _ h1) h1
    have h3 : P s3 := by
      show P (match e.parent with
        | some p => if e.task && status == 0 then s2.modEntry p fun x => { x with tasksDone := x.tasksDone + 1 } else s2
        | none => s2)
      split
      · exact solid_ite hP (hP.same h2 rfl rfl) h2
      · exact h2
    have h4 : P s4 := foldl_keeps P _ (fun x p hx => solid_removeTeam hP hx p.1) _ _ h3
    exact hP.same h4 rfl rfl
theorem solid_settleEntry {s : State} (h : P s) (eid : Nat) : P (settleEntry s eid) := by
  unfold settleEntry
  split
  · exact h
  · split
    · exact solid_ite hP h (solid_ite hP (hP.same h rfl rfl) (solid_completeEntry hP h ..))
    · exact h
theorem solid_settleEntries {s : State} (h : P s) : P (settleEntries s) :=
  foldl_keeps P _ (fun x p hx => solid_settleEntry hP hx p.1) _ s h
theorem solid_failEntry {s : State} (h : P s) (eid : Nat) (status : BitVec 16) : P (failEntry s eid status) := by
  refine solid_settleEntry hP ?_ _
  exact hP.same h rfl rfl
theorem solid_retireTeam {s : State} (h : P s) (tid : Nat) : P (retireTeam s tid) := by
  unfold retireTeam
  split
  · exact h
  · next t _ =>
    extract_lets s1 s2
    have h2 : P s2 := hP.same (solid_removeTeam hP h tid) rfl rfl
    split
    · refine solid_ite hP (solid_settleEntry hP ?_ _) h2
      exact hP.same h2 rfl rfl
    · exact h2
theorem solid_dropSpawn {s : State} (h : P s) (key : Nat) : P (dropSpawn s key) := by
  unfold dropSpawn
  split
  · exact h
  · exact solid_ite hP h (hP.same h rfl rfl)
theorem solid_endEntry {s : State} (h : P s) (eid : Nat) (status : BitVec 16) (detail : DWord) : P (endEntry s eid status detail) := by
  unfold endEntry
  split
  · exact h
  · split
    · exact h
    · refine solid_settleEntry hP ?_ _
      exact hP.same (foldl_keeps P _ (fun x k hx => solid_dropSpawn hP hx k) (crewsOfEntry s eid) s h) rfl rfl
theorem solid_settleAbort {s : State} (h : P s) (key : Nat) : P (settleAbort s key) := by
  unfold settleAbort
  split
  · exact h
  · split
    · exact h
    · split
      · exact h
      · exact hP.same h rfl rfl
theorem solid_finishOp {s : State} (h : P s) (n : Nat) : P (finishOp s n) := by
  unfold finishOp
  split
  · exact h
  · next o _ =>
    extract_lets s1 s2
    have h1 : P s1 := solid_completeOp hP h n
    have h2 : P s2 := solid_ite hP (solid_settleAbort hP h1 _) h1
    split
    · exact solid_settleEntry hP h2 _
    · exact h2

/-- Stores enter their queues. -/
theorem solid_enterStores {s : State} (h : P s) : P (enterStores s) := by
  refine foldl_keeps P _ (fun x p hx => ?_) _ s h
  dsimp only
  split
  · next o _ =>
    split
    · exact foldl_keeps P _ (fun y a hy => solid_rollbackLine hP hy ..) _ _ (hP.same hx rfl rfl)
    · exact hx
  · exact hx
/-- Regions, traps and speculation. -/
theorem solid_releaseBuf {s : State} (h : P s) (key : Nat) (c : Crew) (pc : Addr) (word : Word) : P (releaseBuf s key c pc word) := by
  unfold releaseBuf
  exact solid_ite hP h (hP.same h rfl rfl)
theorem solid_closeRegion {s : State} (h : P s) (key : Nat) (pc : Addr) (word : Word) : P (closeRegion s key pc word) := by
  unfold closeRegion
  split
  · exact h
  · split
    · exact h
    · refine solid_releaseBuf hP ?_ ..
      exact hP.same h rfl rfl
theorem solid_abortRegion {s : State} (h : P s) (key : Nat) (why : BitVec 8) (sent : Nat) : P (abortRegion s key why sent) := by
  unfold abortRegion
  split
  · exact h
  · split
    · exact h
    · next r _ =>
      refine solid_settleAbort hP ?_ key
      exact hP.same (solid_emitCrewA hP h key 0x10 why (pcBits r.cp.pc) sent) rfl rfl
/-- A trap is taken, or the crew stalls until its record finds a reservation. -/
theorem solid_takeTrap {s : State} (h : P s) (key : Nat) (c : Crew) (t : Team) (p : TrapInfo) : P (takeTrap s key c t p) := by
  unfold takeTrap
  extract_lets pick info held e' s'
  refine solid_ite hP (hP.same h rfl rfl) ?_
  split
  · refine hP.same h ?_ ?_ <;> rfl
  · next hs =>
    have h0 : s'.fabric.starved = false := by simpa using hs
    obtain ⟨_, _, _, _, _, e⟩ := endStall_touches s key c
    have h1 : (endStall s key c).1.fabric.starved = false := emitS_starved h0
    have h2 : s.fabric.starved = false := by
      obtain ⟨_, _, e2⟩ := stallOver_touches s key c
      unfold endStall at h1
      dsimp only at h1
      split at h1
      · rw [e2] at h1; exact h1
      · have h3 := emitS_starved h1
        rw [e2] at h3; exact h3
    have hm : s'.mem = s.mem := by
      obtain ⟨_, _, _, _, e2⟩ := emitS_touches (endStall s key c).1 key 0x03 (BitVec.ofNat 8 info.kind.code) (pcBits info.fault) false 0
      show (emitS _ _ _ _ _ _ _).mem = _
      rw [e2, e]
    have h4 : P s' := hP.same h hm (h0.trans h2.symm)
    refine solid_ite hP (solid_endEntry hP ?_ ..) ?_ <;> exact hP.same h4 rfl rfl
theorem solid_enterTrap {s : State} (h : P s) (key : Nat) : P (enterTrap s key) := by
  unfold enterTrap
  split
  · exact h
  · split
    · refine solid_ite hP h ?_
      split
      · exact h
      · split
        · next p t _ _ _ _ =>
          have h1 := hP.same (t := (closeRegion s key p.fault p.word).modCrew key fun c => { c with rclosed := true })
            (solid_closeRegion hP h key p.fault p.word) rfl rfl
          dsimp only
          split
          · split
            · exact solid_takeTrap hP h1 ..
            · exact h1
          · exact h1
        · exact solid_takeTrap hP h ..
    · exact h
theorem solid_setTrap {s : State} (h : P s) (key : Nat) (info : TrapInfo) : P (setTrap s key info) := by
  unfold setTrap
  split
  · exact h
  · next c _ =>
    split
    · exact h
    · refine solid_ite hP h (solid_ite hP (solid_endEntry hP h ..) ?_)
      refine solid_enterTrap hP ?_ _
      have h1 : ∀ f, P (dropSpawn (s.modTeam c.team f) key) := fun f => by
        refine solid_dropSpawn hP ?_ key
        exact hP.same h rfl rfl
      exact hP.same (h1 _) rfl rfl
theorem solid_failGangs (fuel : Nat) {s : State} (h : P s) (core : Nat) (sel : Rendezvous → Bool) (cause : Nat) (skip : Option Nat) :
    P (failGangs fuel s core sel cause skip) := by
  induction fuel generalizing s core sel cause skip with
  | zero => exact h
  | succ n ih =>
    unfold failGangs
    split
    · exact h
    · dsimp only
      refine ih (foldl_keeps P _ (fun x a hx => ?_) _ _ (foldl_keeps P _ (fun x a hx => ?_) _ _ ?_)) ..
      rotate_left 2
      · exact hP.same h rfl rfl
      · split
        · exact ih hx ..
        · exact hx
      · split
        · exact solid_ite hP (solid_setTrap hP (solid_emitCrewA hP hx ..) ..) hx
        · exact hx
theorem solid_raise {s : State} (h : P s) (key : Nat) (info : TrapInfo) : P (raise s key info) := by
  unfold raise
  split
  · exact h
  · exact solid_ite hP h (solid_failGangs hP 65 (solid_setTrap hP h ..) ..)
theorem solid_checkDeadlock {s : State} (h : P s) (tid : Nat) : P (checkDeadlock s tid) := by
  unfold checkDeadlock
  split
  · exact h
  · dsimp only
    split
    · refine foldl_keeps P _ (fun x k hx => ?_) _ s h
      have h1 := solid_rollback hP hx k 6 0 0
      split
      · split
        · exact solid_raise hP h1 ..
        · exact h1
      · exact h1
    · exact h
theorem solid_trapOrStop {s : State} (h : P s) {key : Nat} {c : Crew} (hc : s.crew? key = some c) (hs : c.spec = none) (info : TrapInfo) :
    P (trapOrStop s key info) := by
  rw [trapOrStop_raises hc hs]
  exact solid_raise hP h ..
/-- Page requests and the faults of an access. -/
theorem solid_trySend {s : State} (h : P s) (ctx req : Nat) : P (trySend s ctx req) := by
  unfold trySend
  split
  · exact h
  · split
    · exact h
    · split
      · exact h
      · split
        · exact hP.same h rfl rfl
        · dsimp only
          split
          · exact h
          · split <;> exact hP.same h rfl rfl
theorem solid_sendReqs {s : State} (h : P s) (func : Nat) : P (sendReqs s func) :=
  foldl_keeps P _ (fun _ p hx => solid_trySend hP hx p.1 p.2) _ s h
theorem solid_requestPage {s : State} (h : P s) (ctx page : Nat) (need : Bool × Bool) (team : Option Nat) :
    P (requestPage s ctx page need team) := by
  unfold requestPage
  split
  · exact h
  · split
    · exact hP.same h rfl rfl
    · refine solid_sendReqs hP ?_ _
      exact hP.same h rfl rfl
theorem solid_requestPages {s : State} (h : P s) (core tid : Nat) (t : Team) (pages : List Nat) :
    P (requestPages s core tid t pages) :=
  foldl_keeps P _ (fun _ _ hx => solid_emitA hP (solid_requestPage hP hx ..) ..) _ s h
theorem solid_demandFault {s : State} (h : P s) (key : Nat) {c : Crew} (hs : c.spec = none) (t : Team) (info : TrapInfo) (pages : List Nat) :
    P (demandFault s key c t info pages) := by
  unfold demandFault
  split
  · next e => simp [hs] at e
  · have h1 := solid_requestPages hP h (coreOf key) c.team t pages
    dsimp only
    split
    · exact hP.same (solid_abortRegion hP h1 key 1 0) rfl rfl
    · exact solid_raise hP h1 ..
theorem solid_takeKind {s : State} (h : P s) {key : Nat} {c : Crew} (hc : s.crew? key = some c) (hs : c.spec = none) (t : Team) (word : Word)
    (cs : List Check) (f : TrapKind × Nat × DWord × Nat) : P (takeKind s key c t word cs f) := by
  unfold takeKind
  dsimp only
  split
  · exact solid_demandFault hP h _ hs ..
  · exact solid_trapOrStop hP h hc hs ..
end

/-- The shared operations that emit a stallable record keep what such a record keeps. -/
theorem full_endStall {P : State → Prop} (hP : Full P) {s : State} (h : P s) (key : Nat) (c : Crew) : P (endStall s key c).1 := by
  have h1 := solid_stallOver hP.toSolid h key c
  unfold endStall
  dsimp only
  split
  · exact h1
  · exact hP.emit _ _ _ _ _ _ (hP.same h1 rfl rfl)
theorem inv_stopSpec {s : State} (h : Inv s) (key : Nat) (why : BitVec 8) : Inv (stopSpec s key why) := by
  unfold stopSpec
  split
  · exact h
  · split
    · exact h
    · exact inv_of_mem (inv_full.emit key 0x13 why _ true 0 h) rfl
theorem inv_trapOrStop {s : State} (h : Inv s) (key : Nat) (info : TrapInfo) : Inv (trapOrStop s key info) := by
  unfold trapOrStop
  split
  · exact h
  · split
    · exact inv_stopSpec h ..
    · exact solid_raise inv_solid h ..
theorem inv_raiseHeld {s : State} (h : Inv s) (key : Nat) (c : Crew) (sel : Held → Bool) : Inv (raiseHeld s key c sel) := by
  unfold raiseHeld
  dsimp only
  split
  · exact h
  · split
    · exact inv_stopSpec h ..
    · refine solid_raise inv_solid ?_ ..
      exact inv_of_mem h rfl
theorem inv_demandFault {s : State} (h : Inv s) (key : Nat) (c : Crew) (t : Team) (info : TrapInfo) (pages : List Nat) :
    Inv (demandFault s key c t info pages) := by
  by_cases hs : c.spec = none
  · exact solid_demandFault inv_solid h key hs ..
  · unfold demandFault
    rw [if_pos (by simpa [Option.isSome_iff_ne_none] using hs)]
    exact inv_stopSpec h ..
theorem inv_takeKind {s : State} (h : Inv s) (key : Nat) (c : Crew) (t : Team) (word : Word) (cs : List Check)
    (f : TrapKind × Nat × DWord × Nat) : Inv (takeKind s key c t word cs f) := by
  unfold takeKind
  dsimp only
  split
  · exact inv_demandFault h ..
  · exact inv_trapOrStop h ..
theorem inv_takeAccess {s s' : State} (h : Inv s) {key : Nat} {c : Crew} {t : Team} {word : Word} {cs : List Check}
    (e : takeAccess s key c t word cs = some s') : Inv s' := by
  unfold takeAccess at e
  cases hf : laneFault cs with
  | none => simp [hf] at e
  | some f => simp [hf] at e; rw [← e]; exact inv_takeKind h ..
theorem inv_startCrew {s : State} (h : Inv s) (key : Nat) (c : Crew) : Inv (startCrew s key c) := by
  unfold startCrew
  refine solid_ite inv_solid ?_ ?_
  · exact inv_of_mem h rfl
  · have h1 : ∀ a p, Inv (emitS (endStall s key c).1 key 0x01 a p false 0) := fun a p =>
      inv_full.emit _ _ _ _ _ _ (full_endStall inv_full h key c)
    exact inv_of_mem (h1 _ _) rfl
theorem inv_orStall {s s' : State} (h : Inv s) (h' : Inv s') (key : Nat) (c : Crew) : Inv (orStall s key c s') := by
  unfold orStall
  split
  · exact inv_of_mem h rfl
  · exact h'
/-- What an instruction does when it can issue keeps the form when its body does. -/
theorem inv_issueNow {s : State} (h : Inv s) (key : Nat) (c : Crew) (t : Team) (n : Need) {body : State → Crew → Team → State}
    (hb : ∀ x c t, Inv x → Inv (body x c t)) : Inv (issueNow s key c t n body) := by
  unfold issueNow
  split
  · exact inv_trapOrStop h ..
  · split
    · exact inv_raiseHeld h ..
    · split
      · exact inv_stopSpec h ..
      · unfold issueBody
        split
        · exact inv_stopSpec h ..
        · exact hb _ _ _ h
/-- An instruction keeps the form when its body does. -/
theorem inv_issue {s s' : State} (h : Inv s) {need : Crew → Team → Need} {body : State → Crew → Team → State}
    (hb : ∀ x c t, Inv x → Inv (body x c t)) (e : issue s need body = .next s') : Inv s' := by
  unfold issue at e
  split at e
  · simp at e
  · split at e
    · simp at e
    · dsimp only at e
      repeat' split at e
      all_goals simp only [Host.Outcome.next.injEq] at e
      all_goals subst e
      · exact h
      · exact inv_of_mem h rfl
      · exact inv_startCrew h ..
      · exact h
      · exact inv_orStall h (inv_issueNow (full_endStall inv_full h ..) _ _ _ _ hb) ..

/-- A byte reads, under the key of its sector, as what was put there. -/
theorem mem_putByte (cached : Bool) (s : State) (a x : Nat) (b : Byte) :
    Sparse.get (w := 8) (putByte cached s a b).mem x = if x = a then b else Sparse.get (w := 8) s.mem x := Sparse.get_set ..
/-- Bytes outside those that are put are as before. -/
theorem mem_putList (cached : Bool) (s : State) (a x : Nat) (bs : List Byte) :
    Sparse.get (w := 8) (putList cached s a bs).mem x =
      if a ≤ x ∧ x < a + bs.length then bs.getD (x - a) 0 else Sparse.get (w := 8) s.mem x := by
  induction bs generalizing s a with
  | nil => simp [putList] <;> omega
  | cons b t ih =>
    rw [putList, ih, mem_putByte]
    by_cases h1 : x = a
    · subst h1
      rw [if_neg (by omega), if_pos rfl, if_pos (by simp)]
      simp
    · rw [if_neg h1]
      by_cases h2 : a + 1 ≤ x ∧ x < a + 1 + t.length
      · rw [if_pos h2, if_pos (by simp only [List.length_cons]; omega)]
        have : x - a = (x - (a + 1)) + 1 := by omega
        rw [this]; simp
      · rw [if_neg h2, if_neg (by simp only [List.length_cons]; omega)]

end Sys2Proof.Machine
end

