-- ==== Sys2Proof/Laws/Issue.lean ====
section
/-! SUPPORT. Issuing: every instruction with a word issues with the needs of `needOf`, and what `issue` does. -/
namespace Sys2Proof.Machine

/-- Every instruction with a word issues, with its needs. -/
theorem exec_issues (i : Instr) (s : State) (h : (encode i).isSome = true) :
    ∃ body, exec i s = issue s (needOf s i) body := by
  cases i <;> first | exact ⟨_, rfl⟩ | exact absurd (show false = true from h) Bool.false_ne_true

/-- An instruction that may issue acts, when the records it emits find reservations. -/
theorem issue_next {s s1 : State} {need : Crew → Team → Need} {body : State → Crew → Team → State} {c : Crew} {t : Team}
    (h : mayIssue s need = some (s1, c, t)) (hb : (body s1 c t).fabric.starved = false) :
    issue s need body = .next (body s1 c t) := by
  unfold mayIssue at h
  unfold issue
  cases hc : s.crew? s.cur with
  | none => simp [hc] at h
  | some c0 =>
    cases ht : s.team? c0.team with
    | none => simp [hc, ht] at h
    | some t0 =>
      simp only [hc, ht] at h ⊢
      split at h
      · simp at h
      · next hn =>
        simp only [Bool.or_eq_true, not_or, Bool.not_eq_true, Bool.not_eq_false', Option.isSome_eq_false_iff, Option.isNone_iff_eq_none] at hn
        obtain ⟨⟨⟨⟨⟨⟨h1, h2⟩, h3⟩, h4⟩, h5⟩, h6⟩, h7⟩ := hn
        split at h
        · simp at h
        · next c' hs =>
          split at h
          · simp at h
          · simp only [Option.some.injEq, Prod.mk.injEq] at h
            obtain ⟨rfl, rfl, rfl⟩ := h
            have e : issueNow (endStall s s.cur c0).1 s.cur (endStall s s.cur c0).2 t0 (need c0 t0) body =
                body (endStall s s.cur c0).1 c' t0 := by
              have e1 : (endStall s s.cur c0).2.held = c0.held := by rw [endStall_crew]
              have e2 : (endStall s s.cur c0).2.spec = c0.spec := by rw [endStall_crew]
              unfold issueNow issueBody
              simp [h5, e1, e2, h6, h7, hs]
            simp only [h1, h2, h3, h4, e, orStall, hb]
            simp

/-- With a crew and a team, `issue` always answers a next state: an instruction never ends a run. -/
theorem issue_answers {s : State} {c : Crew} {t : Team} (need : Crew → Team → Need) (body : State → Crew → Team → State)
    (hc : s.crew? s.cur = some c) (ht : s.team? c.team = some t) : ∃ s', issue s need body = .next s' := by
  unfold issue
  simp only [hc, ht]
  repeat' split
  all_goals exact ⟨_, rfl⟩

/-- An instruction acts in a state in which every record so far has found its reservation. -/
theorem mayIssue_unstarved {s s1 : State} {need : Crew → Team → Need} {c : Crew} {t : Team}
    (h : mayIssue s need = some (s1, c, t)) : s1.fabric.starved = false := by
  unfold mayIssue at h
  cases hc : s.crew? s.cur with
  | none => simp [hc] at h
  | some c0 =>
    cases ht : s.team? c0.team with
    | none => simp [hc, ht] at h
    | some t0 =>
      simp only [hc, ht] at h
      split at h
      · simp at h
      · split at h
        · simp at h
        · split at h
          · simp at h
          · next hs =>
            simp only [Option.some.injEq, Prod.mk.injEq] at h
            obtain ⟨rfl, -, -⟩ := h
            simpa using hs

/-- An instruction whose body leaves the trace fabric alone does what its body says, whenever it may issue. -/
theorem doesWhen_of_body {i : Instr} {p : State → Crew → Team → Prop} {f body : State → Crew → Team → State}
    (hx : ∀ s, exec i s = issue s (needOf s i) body)
    (hb : ∀ s c t, p s c t → body s c t = f s c t ∧ (f s c t).fabric = s.fabric) : DoesWhen i p f := by
  intro s s1 c t hr hp
  have e := hb _ _ _ hp
  rw [hx, issue_next hr, e.1]
  rw [e.1, e.2]; exact mayIssue_unstarved hr
/-- An instruction whose body leaves the trace fabric calm does what its body says, whenever it may issue. -/
theorem doesWhen_of_calm {i : Instr} {p : State → Crew → Team → Prop} {f body : State → Crew → Team → State}
    (hx : ∀ s, exec i s = issue s (needOf s i) body)
    (hb : ∀ s c t, p s c t → Calm s → body s c t = f s c t ∧ Calm (f s c t)) : DoesWhen i p f := by
  intro s s1 c t hr hp
  have e := hb _ _ _ hp (mayIssue_unstarved hr)
  rw [hx, issue_next hr, e.1]
  rw [e.1]; exact e.2
/-- The same without a condition. -/
theorem does_of_body {i : Instr} {f body : State → Crew → Team → State} (hx : ∀ s, exec i s = issue s (needOf s i) body)
    (hb : ∀ s c t, body s c t = f s c t ∧ (f s c t).fabric = s.fabric) : Does i f :=
  fun s s1 c t hr => doesWhen_of_body (p := fun _ _ _ => True) hx (fun s c t _ => hb s c t) s s1 c t hr trivial
/-- An instruction whose body leaves the trace fabric alone gives its body's state, whenever it may issue. -/
theorem gives_of_body {i : Instr} {p : State → Crew → Team → Prop} {q : State → Crew → Team → State → Prop}
    {body : State → Crew → Team → State} (hx : ∀ s, exec i s = issue s (needOf s i) body)
    (hb : ∀ s c t, p s c t → q s c t (body s c t) ∧ (body s c t).fabric = s.fabric) : Gives i p q := by
  intro s s1 c t hr hp
  have e := hb _ _ _ hp
  exact ⟨_, by rw [hx, issue_next hr]; rw [e.2]; exact mayIssue_unstarved hr, e.1⟩

end Sys2Proof.Machine
end

