-- ==== Sys2Proof/Laws/Access.lean ====
section
/-! SUPPORT. The checks of an access when none fails, what the shared operations leave of the current crew and the next operation number, and the
crew outside regions. -/
namespace Sys2Proof.Machine

/-- No check fails. -/
theorem laneFault_none {cs : List Check} (h : ∀ q ∈ cs, q.faults = []) : laneFault cs = none := by
  have e : (cs.filterMap fun c => firstKind c.faults) = [] := by
    rw [List.filterMap_eq_nil_iff]
    intro q hq
    rw [h q hq]; rfl
  unfold laneFault
  rw [e]; rfl
theorem takeAccess_none {s : State} {key : Nat} {c : Crew} {t : Team} {word : Word} {cs : List Check} (h : ∀ q ∈ cs, q.faults = []) :
    takeAccess s key c t word cs = none := by
  unfold takeAccess
  rw [laneFault_none h]; rfl
/-- The checks of lanes. -/
theorem laneChecks_faults {t : Team} {ld st lo mi : Bool} {al z : Nat} {as : List (Nat × Nat)}
    (h : ∀ p ∈ as, accessFaults t ld st lo mi al p.2 z = []) : ∀ q ∈ laneChecks t ld st lo mi al z as, q.faults = [] := by
  intro q hq
  simp only [laneChecks, List.mem_map] at hq
  obtain ⟨p, hp, rfl⟩ := hq
  exact h p hp
theorem laneAddrs_mem {c : Crew} {t : Team} {a : SReg} {b : VReg} {P : Nat → Prop}
    (h : ∀ l ∈ c.actives t.width, P (laneAddr c a b l).toNat) : ∀ p ∈ laneAddrs c t a b, P p.2 := by
  intro p hp
  simp only [laneAddrs, List.mem_map] at hp
  obtain ⟨l, hl, rfl⟩ := hp
  exact h l hl

/-- Operations that keep the current crew, the clock of operations and the teams. -/
theorem rollbackLine_keeps (s : State) (w : Option Nat) (l : Nat) (p : Nat → Option Nat) (sent : Nat) :
    (rollbackLine s w l p sent).cur = s.cur ∧ (rollbackLine s w l p sent).nextOp = s.nextOp ∧ (rollbackLine s w l p sent).teams = s.teams := by
  obtain ⟨_, _, _, _, _, _, e⟩ := rollbackLine_touches s w l p sent
  rw [e]; exact ⟨rfl, rfl, rfl⟩
theorem closeRegion_cur (s : State) (key : Nat) (pc : Addr) (word : Word) : (closeRegion s key pc word).cur = s.cur := by
  unfold closeRegion
  split
  · rfl
  · split
    · rfl
    · unfold releaseBuf
      split <;> rfl
/-- With no region open, closing does nothing. -/
theorem closeRegion_none {s : State} {key : Nat} {c : Crew} (h : s.crew? key = some c) (hr : c.region = none) (pc : Addr) (word : Word) :
    closeRegion s key pc word = s := by
  unfold closeRegion
  rw [h]; simp [hr]
theorem Outside.close {s : State} {c : Crew} (h : Outside s c) (pc : Addr) (word : Word) : closeRegion s s.cur pc word = s :=
  closeRegion_none h.1 h.2.1 pc word
/-- Outside regions, clearing region and buffer changes nothing. -/
theorem Outside.same {s : State} {c : Crew} (h : Outside s c) : { c with region := none, buf := [] } = c := by
  obtain ⟨_, h1, _, h2, _⟩ := h
  cases c; simp_all

end Sys2Proof.Machine
end

