-- ==== Sys2Proof/Laws/Decode.lean ====
section
/-! SUPPORT. The fields of an encoded word, and the decoders of fields on what the encoder puts there. -/
namespace Sys2Proof

theorem opcodeOf_w3 (o d a b : BitVec 8) : opcodeOf (w3 o d a b) = o := by
  unfold opcodeOf w3
  apply BitVec.eq_of_getLsbD_eq
  intro k hk
  simp only [BitVec.getLsbD_extractLsb', BitVec.getLsbD_append, hk, decide_true, Bool.true_and]
  repeat (first | rw [if_pos (by omega)] | rw [if_neg (by omega)])
  congr 1; omega
theorem fieldD_w3 (o d a b : BitVec 8) : fieldD (w3 o d a b) = d := by
  unfold fieldD w3
  apply BitVec.eq_of_getLsbD_eq
  intro k hk
  simp only [BitVec.getLsbD_extractLsb', BitVec.getLsbD_append, hk, decide_true, Bool.true_and]
  repeat (first | rw [if_pos (by omega)] | rw [if_neg (by omega)])
  congr 1; omega
theorem fieldA_w3 (o d a b : BitVec 8) : fieldA (w3 o d a b) = a := by
  unfold fieldA w3
  apply BitVec.eq_of_getLsbD_eq
  intro k hk
  simp only [BitVec.getLsbD_extractLsb', BitVec.getLsbD_append, hk, decide_true, Bool.true_and]
  repeat (first | rw [if_pos (by omega)] | rw [if_neg (by omega)])
  congr 1; omega
theorem fieldB_w3 (o d a b : BitVec 8) : fieldB (w3 o d a b) = b := by
  unfold fieldB w3
  apply BitVec.eq_of_getLsbD_eq
  intro k hk
  simp only [BitVec.getLsbD_extractLsb', BitVec.getLsbD_append, hk, decide_true, Bool.true_and]
  repeat (first | rw [if_pos (by omega)] | rw [if_neg (by omega)])
  congr 1; omega
theorem opcodeOf_wi (o d : BitVec 8) (i : BitVec 16) : opcodeOf (wi o d i) = o := by
  unfold opcodeOf wi
  apply BitVec.eq_of_getLsbD_eq
  intro k hk
  simp only [BitVec.getLsbD_extractLsb', BitVec.getLsbD_append, hk, decide_true, Bool.true_and]
  repeat (first | rw [if_pos (by omega)] | rw [if_neg (by omega)])
  congr 1; omega
theorem fieldD_wi (o d : BitVec 8) (i : BitVec 16) : fieldD (wi o d i) = d := by
  unfold fieldD wi
  apply BitVec.eq_of_getLsbD_eq
  intro k hk
  simp only [BitVec.getLsbD_extractLsb', BitVec.getLsbD_append, hk, decide_true, Bool.true_and]
  repeat (first | rw [if_pos (by omega)] | rw [if_neg (by omega)])
  congr 1; omega
theorem imm16_wi (o d : BitVec 8) (i : BitVec 16) : imm16 (wi o d i) = i := by
  unfold imm16 wi
  apply BitVec.eq_of_getLsbD_eq
  intro k hk
  simp only [BitVec.getLsbD_extractLsb', BitVec.getLsbD_append, hk, decide_true, Bool.true_and]
  repeat (first | rw [if_pos (by omega)] | rw [if_neg (by omega)])
  congr 1; omega
theorem opcodeOf_wj (o : BitVec 8) (i : BitVec 24) : opcodeOf (wj o i) = o := by
  unfold opcodeOf wj
  apply BitVec.eq_of_getLsbD_eq
  intro k hk
  simp only [BitVec.getLsbD_extractLsb', BitVec.getLsbD_append, hk, decide_true, Bool.true_and]
  repeat (first | rw [if_pos (by omega)] | rw [if_neg (by omega)])
  congr 1; omega
theorem imm24_wj (o : BitVec 8) (i : BitVec 24) : imm24 (wj o i) = i := by
  unfold imm24 wj
  apply BitVec.eq_of_getLsbD_eq
  intro k hk
  simp only [BitVec.getLsbD_extractLsb', BitVec.getLsbD_append, hk, decide_true, Bool.true_and]
  repeat (first | rw [if_pos (by omega)] | rw [if_neg (by omega)])
  congr 1; omega
theorem opcodeOf_ww (o : BitVec 8) (l s c t : BitVec 6) : opcodeOf (ww o l s c t) = o := by
  unfold opcodeOf ww
  apply BitVec.eq_of_getLsbD_eq
  intro k hk
  simp only [BitVec.getLsbD_extractLsb', BitVec.getLsbD_append, hk, decide_true, Bool.true_and]
  repeat (first | rw [if_pos (by omega)] | rw [if_neg (by omega)])
  congr 1; omega
theorem loadsOf_ww (o : BitVec 8) (l s c t : BitVec 6) : loadsOf (ww o l s c t) = l := by
  unfold loadsOf ww
  apply BitVec.eq_of_getLsbD_eq
  intro k hk
  simp only [BitVec.getLsbD_extractLsb', BitVec.getLsbD_append, hk, decide_true, Bool.true_and]
  repeat (first | rw [if_pos (by omega)] | rw [if_neg (by omega)])
  congr 1; omega
theorem storesOf_ww (o : BitVec 8) (l s c t : BitVec 6) : storesOf (ww o l s c t) = s := by
  unfold storesOf ww
  apply BitVec.eq_of_getLsbD_eq
  intro k hk
  simp only [BitVec.getLsbD_extractLsb', BitVec.getLsbD_append, hk, decide_true, Bool.true_and]
  repeat (first | rw [if_pos (by omega)] | rw [if_neg (by omega)])
  congr 1; omega
theorem copiesOf_ww (o : BitVec 8) (l s c t : BitVec 6) : copiesOf (ww o l s c t) = c := by
  unfold copiesOf ww
  apply BitVec.eq_of_getLsbD_eq
  intro k hk
  simp only [BitVec.getLsbD_extractLsb', BitVec.getLsbD_append, hk, decide_true, Bool.true_and]
  repeat (first | rw [if_pos (by omega)] | rw [if_neg (by omega)])
  congr 1; omega
theorem tilesOf_ww (o : BitVec 8) (l s c t : BitVec 6) : tilesOf (ww o l s c t) = t := by
  unfold tilesOf ww
  apply BitVec.eq_of_getLsbD_eq
  intro k hk
  simp only [BitVec.getLsbD_extractLsb', BitVec.getLsbD_append, hk, decide_true, Bool.true_and]
  repeat (first | rw [if_pos (by omega)] | rw [if_neg (by omega)])
  congr 1
  omega

@[simp] theorem pZero_zero : pZero 0 = .ok () := rfl
theorem s8_lt (x : BitVec 6) : (s8 x).toNat < 64 := by revert x; decide
theorem s8_back (x : BitVec 6) : (s8 x).setWidth 6 = x := by revert x; decide
@[simp] theorem pSreg_s8 (x : SReg) : pSreg (s8 x) = .ok x := by unfold pSreg; rw [if_pos (s8_lt x), s8_back]
@[simp] theorem pVreg_self (x : VReg) : pVreg x = .ok x := rfl
@[simp] theorem pAny_self (x : BitVec 8) : pAny x = .ok x := rfl
@[simp] theorem pHandle_s8 (x : BitVec 6) : pHandle (s8 x) = .ok x := by unfold pHandle; rw [if_pos (s8_lt x), s8_back]
theorem pCode_field {n lo hi : Nat} {x : BitVec n} (h : lo ≤ (x.setWidth 8).toNat ∧ (x.setWidth 8).toNat ≤ hi)
    (e : (x.setWidth 8).setWidth n = x) : pCode n lo hi (x.setWidth 8) = .ok x := by unfold pCode; rw [if_pos h, e]
@[simp] theorem pShape_field (x : BitVec 4) : pShape (x.setWidth 8) = .ok x := by
  unfold pShape
  rw [if_pos (by revert x; decide), show (x.setWidth 8).setWidth 4 = x by revert x; decide]
@[simp] theorem pQuarter_field (x : BitVec 2) : pQuarter (x.setWidth 8) = .ok x :=
  pCode_field (by revert x; decide) (by revert x; decide)
@[simp] theorem pElem_field (x : BitVec 3) : pElem (x.setWidth 8) = .ok x :=
  pCode_field (by revert x; decide) (by revert x; decide)
@[simp] theorem pLevel_field (x : BitVec 1) : pLevel (x.setWidth 8) = .ok x :=
  pCode_field (by revert x; decide) (by revert x; decide)
theorem pCond_field {x : BitVec 3} (h : x.toNat ≤ 5) : pCond (x.setWidth 8) = .ok x :=
  pCode_field (by revert x; decide) (by revert x; decide)
theorem pScope_field {x : BitVec 3} (h : x.toNat ≤ 6) : pScope (x.setWidth 8) = .ok x :=
  pCode_field (by revert x; decide) (by revert x; decide)
theorem pOrder_field {x : BitVec 2} (h : 1 ≤ x.toNat) : pOrder (x.setWidth 8) = .ok x :=
  pCode_field (by revert x; decide) (by revert x; decide)
theorem pPair_even {x : VReg} (h : VReg.even x = true) : pPair x = .ok x := by
  unfold pPair; unfold VReg.even at h; simp_all

/-- The formats on a word of theirs, when the fields decode. -/
theorem f3_w3 {α β γ : Type} {pd : BitVec 8 → Except Reject α} {pa : BitVec 8 → Except Reject β} {pb : BitVec 8 → Except Reject γ}
    {c : α → β → γ → Instr} {o d a b : BitVec 8} {x : α} {y : β} {z : γ} (hd : pd d = .ok x) (ha : pa a = .ok y) (hb : pb b = .ok z) :
    f3 pd pa pb c (w3 o d a b) = .ok (c x y z) := by
  unfold f3; rw [fieldD_w3, fieldA_w3, fieldB_w3, hd, ha, hb]
theorem fi_wi {α : Type} {pd : BitVec 8 → Except Reject α} {c : α → BitVec 16 → Instr} {o d : BitVec 8} {i : BitVec 16} {x : α}
    (hd : pd d = .ok x) : fi pd c (wi o d i) = .ok (c x i) := by
  unfold fi; rw [fieldD_wi, imm16_wi, hd]
theorem fj_wj (c : BitVec 24 → Instr) (o : BitVec 8) (i : BitVec 24) : fj c (wj o i) = .ok (c i) := by
  unfold fj; rw [imm24_wj]
theorem fw_ww (c : BitVec 6 → BitVec 6 → BitVec 6 → BitVec 6 → Instr) (o : BitVec 8) (l s k t : BitVec 6) :
    fw c (ww o l s k t) = .ok (c l s k t) := by
  unfold fw; rw [loadsOf_ww, storesOf_ww, copiesOf_ww, tilesOf_ww]

end Sys2Proof
end

