-- ==== Sys2Proof/Laws/PerInstr.lean ====
section
/-! SUPPORT. The round trip of the encoding, one lemma per constructor of Instr: the word of a well-formed instruction decodes
to that instruction. A step without a word has nothing to decode. -/
namespace Sys2Proof.Laws.RoundTrip

/-- The word that the encoder gives a well-formed instruction decodes to it. -/
def Statement (i : Instr) : Prop := i.WellFormed → ∀ w, encode i = some w → decode w = .ok i

theorem nop : Statement .nop := by
  intro _ w h; cases h; unfold decode; rw [opcodeOf_w3]; exact f3_w3 pZero_zero pZero_zero pZero_zero
theorem br : ∀ i, Statement (.br i) := by
  intro i _ w h; cases h; unfold decode; rw [opcodeOf_wj]; exact fj_wj _ _ _
theorem brz : ∀ d i, Statement (.brz d i) := by
  intro d i _ w h; cases h; unfold decode; rw [opcodeOf_wi]; exact fi_wi (pSreg_s8 _)
theorem brnz : ∀ d i, Statement (.brnz d i) := by
  intro d i _ w h; cases h; unfold decode; rw [opcodeOf_wi]; exact fi_wi (pSreg_s8 _)
theorem call : ∀ i, Statement (.call i) := by
  intro i _ w h; cases h; unfold decode; rw [opcodeOf_wj]; exact fj_wj _ _ _
theorem ret : Statement .ret := by
  intro _ w h; cases h; unfold decode; rw [opcodeOf_w3]; exact f3_w3 pZero_zero pZero_zero pZero_zero
theorem jr : ∀ a, Statement (.jr a) := by
  intro a _ w h; cases h; unfold decode; rw [opcodeOf_w3]; exact f3_w3 pZero_zero (pSreg_s8 _) pZero_zero
theorem blkz : ∀ d n, Statement (.blkz d n) := by
  intro d n _ w h; cases h; unfold decode; rw [opcodeOf_wi]; exact fi_wi (pSreg_s8 _)
theorem mode : ∀ q i, Statement (.mode q i) := by
  intro q i _ w h; cases h; unfold decode; rw [opcodeOf_wi]; exact fi_wi (pQuarter_field _)
theorem moder : ∀ d a, Statement (.moder d a) := by
  intro d a _ w h; cases h; unfold decode; rw [opcodeOf_w3]; exact f3_w3 (pSreg_s8 _) (pSreg_s8 _) pZero_zero
theorem wait : ∀ l s c t, Statement (.wait l s c t) := by
  intro l s c t _ w h; cases h; unfold decode; rw [opcodeOf_ww]; exact fw_ww _ _ _ _ _ _
theorem waitr : ∀ a k, Statement (.waitr a k) := by
  intro a k _ w h; cases h; unfold decode; rw [opcodeOf_w3]; exact f3_w3 pZero_zero (pSreg_s8 _) (pQuarter_field _)
theorem endCrew : Statement .endCrew := by
  intro _ w h; cases h; unfold decode; rw [opcodeOf_w3]; exact f3_w3 pZero_zero pZero_zero pZero_zero
theorem sread : ∀ d i, Statement (.sread d i) := by
  intro d i _ w h; cases h; unfold decode; rw [opcodeOf_w3]; exact f3_w3 (pSreg_s8 _) (pAny_self _) pZero_zero
theorem sli : ∀ d i, Statement (.sli d i) := by
  intro d i _ w h; cases h; unfold decode; rw [opcodeOf_wi]; exact fi_wi (pSreg_s8 _)
theorem slis : ∀ d i, Statement (.slis d i) := by
  intro d i _ w h; cases h; unfold decode; rw [opcodeOf_wi]; exact fi_wi (pSreg_s8 _)
theorem sadd : ∀ d a b, Statement (.sadd d a b) := by
  intro d a b _ w h; cases h; unfold decode; rw [opcodeOf_w3]; exact f3_w3 (pSreg_s8 _) (pSreg_s8 _) (pSreg_s8 _)
theorem saddi : ∀ d a i, Statement (.saddi d a i) := by
  intro d a i _ w h; cases h; unfold decode; rw [opcodeOf_w3]; exact f3_w3 (pSreg_s8 _) (pSreg_s8 _) (pAny_self _)
theorem ssub : ∀ d a b, Statement (.ssub d a b) := by
  intro d a b _ w h; cases h; unfold decode; rw [opcodeOf_w3]; exact f3_w3 (pSreg_s8 _) (pSreg_s8 _) (pSreg_s8 _)
theorem smul : ∀ d a b, Statement (.smul d a b) := by
  intro d a b _ w h; cases h; unfold decode; rw [opcodeOf_w3]; exact f3_w3 (pSreg_s8 _) (pSreg_s8 _) (pSreg_s8 _)
theorem sdivs : ∀ d a b, Statement (.sdivs d a b) := by
  intro d a b _ w h; cases h; unfold decode; rw [opcodeOf_w3]; exact f3_w3 (pSreg_s8 _) (pSreg_s8 _) (pSreg_s8 _)
theorem sdivn : ∀ d a b, Statement (.sdivn d a b) := by
  intro d a b _ w h; cases h; unfold decode; rw [opcodeOf_w3]; exact f3_w3 (pSreg_s8 _) (pSreg_s8 _) (pSreg_s8 _)
theorem sand : ∀ d a b, Statement (.sand d a b) := by
  intro d a b _ w h; cases h; unfold decode; rw [opcodeOf_w3]; exact f3_w3 (pSreg_s8 _) (pSreg_s8 _) (pSreg_s8 _)
theorem sor : ∀ d a b, Statement (.sor d a b) := by
  intro d a b _ w h; cases h; unfold decode; rw [opcodeOf_w3]; exact f3_w3 (pSreg_s8 _) (pSreg_s8 _) (pSreg_s8 _)
theorem sxor : ∀ d a b, Statement (.sxor d a b) := by
  intro d a b _ w h; cases h; unfold decode; rw [opcodeOf_w3]; exact f3_w3 (pSreg_s8 _) (pSreg_s8 _) (pSreg_s8 _)
theorem sshl : ∀ d a b, Statement (.sshl d a b) := by
  intro d a b _ w h; cases h; unfold decode; rw [opcodeOf_w3]; exact f3_w3 (pSreg_s8 _) (pSreg_s8 _) (pSreg_s8 _)
theorem sshr : ∀ d a b, Statement (.sshr d a b) := by
  intro d a b _ w h; cases h; unfold decode; rw [opcodeOf_w3]; exact f3_w3 (pSreg_s8 _) (pSreg_s8 _) (pSreg_s8 _)
theorem ssra : ∀ d a b, Statement (.ssra d a b) := by
  intro d a b _ w h; cases h; unfold decode; rw [opcodeOf_w3]; exact f3_w3 (pSreg_s8 _) (pSreg_s8 _) (pSreg_s8 _)
theorem sslt : ∀ d a b, Statement (.sslt d a b) := by
  intro d a b _ w h; cases h; unfold decode; rw [opcodeOf_w3]; exact f3_w3 (pSreg_s8 _) (pSreg_s8 _) (pSreg_s8 _)
theorem scnt : ∀ d a, Statement (.scnt d a) := by
  intro d a _ w h; cases h; unfold decode; rw [opcodeOf_w3]; exact f3_w3 (pSreg_s8 _) (pSreg_s8 _) pZero_zero
theorem sclz : ∀ d a, Statement (.sclz d a) := by
  intro d a _ w h; cases h; unfold decode; rw [opcodeOf_w3]; exact f3_w3 (pSreg_s8 _) (pSreg_s8 _) pZero_zero
theorem vadd : ∀ d a b, Statement (.vadd d a b) := by
  intro d a b _ w h; cases h; unfold decode; rw [opcodeOf_w3]; exact f3_w3 (pVreg_self _) (pVreg_self _) (pVreg_self _)
theorem vsub : ∀ d a b, Statement (.vsub d a b) := by
  intro d a b _ w h; cases h; unfold decode; rw [opcodeOf_w3]; exact f3_w3 (pVreg_self _) (pVreg_self _) (pVreg_self _)
theorem vmul : ∀ d a b, Statement (.vmul d a b) := by
  intro d a b _ w h; cases h; unfold decode; rw [opcodeOf_w3]; exact f3_w3 (pVreg_self _) (pVreg_self _) (pVreg_self _)
theorem vfma : ∀ d a b, Statement (.vfma d a b) := by
  intro d a b _ w h; cases h; unfold decode; rw [opcodeOf_w3]; exact f3_w3 (pVreg_self _) (pVreg_self _) (pVreg_self _)
theorem vmin : ∀ d a b, Statement (.vmin d a b) := by
  intro d a b _ w h; cases h; unfold decode; rw [opcodeOf_w3]; exact f3_w3 (pVreg_self _) (pVreg_self _) (pVreg_self _)
theorem vmax : ∀ d a b, Statement (.vmax d a b) := by
  intro d a b _ w h; cases h; unfold decode; rw [opcodeOf_w3]; exact f3_w3 (pVreg_self _) (pVreg_self _) (pVreg_self _)
theorem vand : ∀ d a b, Statement (.vand d a b) := by
  intro d a b _ w h; cases h; unfold decode; rw [opcodeOf_w3]; exact f3_w3 (pVreg_self _) (pVreg_self _) (pVreg_self _)
theorem vor : ∀ d a b, Statement (.vor d a b) := by
  intro d a b _ w h; cases h; unfold decode; rw [opcodeOf_w3]; exact f3_w3 (pVreg_self _) (pVreg_self _) (pVreg_self _)
theorem vxor : ∀ d a b, Statement (.vxor d a b) := by
  intro d a b _ w h; cases h; unfold decode; rw [opcodeOf_w3]; exact f3_w3 (pVreg_self _) (pVreg_self _) (pVreg_self _)
theorem vshl : ∀ d a b, Statement (.vshl d a b) := by
  intro d a b _ w h; cases h; unfold decode; rw [opcodeOf_w3]; exact f3_w3 (pVreg_self _) (pVreg_self _) (pVreg_self _)
theorem vshr : ∀ d a b, Statement (.vshr d a b) := by
  intro d a b _ w h; cases h; unfold decode; rw [opcodeOf_w3]; exact f3_w3 (pVreg_self _) (pVreg_self _) (pVreg_self _)
theorem vceq : ∀ d a b, Statement (.vceq d a b) := by
  intro d a b _ w h; cases h; unfold decode; rw [opcodeOf_w3]; exact f3_w3 (pSreg_s8 _) (pVreg_self _) (pVreg_self _)
theorem vclt : ∀ d a b, Statement (.vclt d a b) := by
  intro d a b _ w h; cases h; unfold decode; rw [opcodeOf_w3]; exact f3_w3 (pSreg_s8 _) (pVreg_self _) (pVreg_self _)
theorem vcle : ∀ d a b, Statement (.vcle d a b) := by
  intro d a b _ w h; cases h; unfold decode; rw [opcodeOf_w3]; exact f3_w3 (pSreg_s8 _) (pVreg_self _) (pVreg_self _)
theorem vmov : ∀ d a, Statement (.vmov d a) := by
  intro d a _ w h; cases h; unfold decode; rw [opcodeOf_w3]; exact f3_w3 (pVreg_self _) (pVreg_self _) pZero_zero
theorem vbcs : ∀ d a, Statement (.vbcs d a) := by
  intro d a _ w h; cases h; unfold decode; rw [opcodeOf_w3]; exact f3_w3 (pVreg_self _) (pSreg_s8 _) pZero_zero
theorem vext : ∀ d a b, Statement (.vext d a b) := by
  intro d a b _ w h; cases h; unfold decode; rw [opcodeOf_w3]; exact f3_w3 (pSreg_s8 _) (pVreg_self _) (pSreg_s8 _)
theorem vlid : ∀ d, Statement (.vlid d) := by
  intro d _ w h; cases h; unfold decode; rw [opcodeOf_w3]; exact f3_w3 (pVreg_self _) pZero_zero pZero_zero
theorem vcvt : ∀ d a, Statement (.vcvt d a) := by
  intro d a _ w h; cases h; unfold decode; rw [opcodeOf_w3]; exact f3_w3 (pVreg_self _) (pVreg_self _) pZero_zero
theorem vrcp : ∀ d a, Statement (.vrcp d a) := by
  intro d a _ w h; cases h; unfold decode; rw [opcodeOf_w3]; exact f3_w3 (pVreg_self _) (pVreg_self _) pZero_zero
theorem vrsq : ∀ d a, Statement (.vrsq d a) := by
  intro d a _ w h; cases h; unfold decode; rw [opcodeOf_w3]; exact f3_w3 (pVreg_self _) (pVreg_self _) pZero_zero
theorem vexp2 : ∀ d a, Statement (.vexp2 d a) := by
  intro d a _ w h; cases h; unfold decode; rw [opcodeOf_w3]; exact f3_w3 (pVreg_self _) (pVreg_self _) pZero_zero
theorem vlog2 : ∀ d a, Statement (.vlog2 d a) := by
  intro d a _ w h; cases h; unfold decode; rw [opcodeOf_w3]; exact f3_w3 (pVreg_self _) (pVreg_self _) pZero_zero
theorem vred : ∀ d a, Statement (.vred d a) := by
  intro d a _ w h; cases h; unfold decode; rw [opcodeOf_w3]; exact f3_w3 (pSreg_s8 _) (pVreg_self _) pZero_zero
theorem vcmpr : ∀ d a b, Statement (.vcmpr d a b) := by
  intro d a b _ w h; cases h; unfold decode; rw [opcodeOf_w3]; exact f3_w3 (pVreg_self _) (pVreg_self _) (pSreg_s8 _)
theorem vexpd : ∀ d a b, Statement (.vexpd d a b) := by
  intro d a b _ w h; cases h; unfold decode; rw [opcodeOf_w3]; exact f3_w3 (pVreg_self _) (pVreg_self _) (pSreg_s8 _)
theorem vslup : ∀ d a b, Statement (.vslup d a b) := by
  intro d a b _ w h; cases h; unfold decode; rw [opcodeOf_w3]; exact f3_w3 (pVreg_self _) (pVreg_self _) (pSreg_s8 _)
theorem vsldn : ∀ d a b, Statement (.vsldn d a b) := by
  intro d a b _ w h; cases h; unfold decode; rw [opcodeOf_w3]; exact f3_w3 (pVreg_self _) (pVreg_self _) (pSreg_s8 _)
theorem vperm : ∀ d a b, Statement (.vperm d a b) := by
  intro d a b _ w h; cases h; unfold decode; rw [opcodeOf_w3]; exact f3_w3 (pVreg_self _) (pVreg_self _) (pVreg_self _)
theorem vpk2 : ∀ d a b, Statement (.vpk2 d a b) := by
  intro d a b _ w h; cases h; unfold decode; rw [opcodeOf_w3]; exact f3_w3 (pVreg_self _) (pVreg_self _) (pVreg_self _)
theorem vpk4 : ∀ d a b, Statement (.vpk4 d a b) := by
  intro d a b hw w h; cases h; unfold decode; rw [opcodeOf_w3]; have hw := Bool.and_eq_true_iff.mp hw; exact f3_w3 (pVreg_self _) (pPair_even hw.1) (pPair_even hw.2)
theorem vupk : ∀ d a e, Statement (.vupk d a e) := by
  intro d a e _ w h; cases h; unfold decode; rw [opcodeOf_w3]; exact f3_w3 (pVreg_self _) (pVreg_self _) (pElem_field _)
theorem ld : ∀ d a b, Statement (.ld d a b) := by
  intro d a b _ w h; cases h; unfold decode; rw [opcodeOf_w3]; exact f3_w3 (pVreg_self _) (pSreg_s8 _) (pVreg_self _)
theorem st : ∀ d a b, Statement (.st d a b) := by
  intro d a b _ w h; cases h; unfold decode; rw [opcodeOf_w3]; exact f3_w3 (pVreg_self _) (pSreg_s8 _) (pVreg_self _)
theorem ldt : ∀ d s b, Statement (.ldt d s b) := by
  intro d s b _ w h; cases h; unfold decode; rw [opcodeOf_w3]; exact f3_w3 (pVreg_self _) (pShape_field _) (pSreg_s8 _)
theorem stt : ∀ d s b, Statement (.stt d s b) := by
  intro d s b _ w h; cases h; unfold decode; rw [opcodeOf_w3]; exact f3_w3 (pVreg_self _) (pShape_field _) (pSreg_s8 _)
theorem shape : ∀ d a, Statement (.shape d a) := by
  intro d a _ w h; cases h; unfold decode; rw [opcodeOf_w3]; exact f3_w3 (pShape_field _) (pSreg_s8 _) pZero_zero
theorem fence : ∀ s o, Statement (.fence s o) := by
  intro s o hw w h; cases h; unfold decode; rw [opcodeOf_w3]; have hw := Bool.and_eq_true_iff.mp hw; exact f3_w3 (pScope_field (of_decide_eq_true hw.1)) (pOrder_field (of_decide_eq_true hw.2)) pZero_zero
theorem pref : ∀ l a b, Statement (.pref l a b) := by
  intro l a b _ w h; cases h; unfold decode; rw [opcodeOf_w3]; exact f3_w3 (pLevel_field _) (pSreg_s8 _) (pVreg_self _)
theorem flush : ∀ a b, Statement (.flush a b) := by
  intro a b _ w h; cases h; unfold decode; rw [opcodeOf_w3]; exact f3_w3 pZero_zero (pSreg_s8 _) (pSreg_s8 _)
theorem cpy4 : ∀ d a b, Statement (.cpy4 d a b) := by
  intro d a b hw w h; cases h; unfold decode; rw [opcodeOf_w3]; have hw := Bool.and_eq_true_iff.mp hw; exact f3_w3 (pHandle_s8 _) (pPair_even hw.1) (pPair_even hw.2)
theorem cpy8 : ∀ d a b, Statement (.cpy8 d a b) := by
  intro d a b hw w h; cases h; unfold decode; rw [opcodeOf_w3]; have hw := Bool.and_eq_true_iff.mp hw; exact f3_w3 (pHandle_s8 _) (pPair_even hw.1) (pPair_even hw.2)
theorem cpy16 : ∀ d a b, Statement (.cpy16 d a b) := by
  intro d a b hw w h; cases h; unfold decode; rw [opcodeOf_w3]; have hw := Bool.and_eq_true_iff.mp hw; exact f3_w3 (pHandle_s8 _) (pPair_even hw.1) (pPair_even hw.2)
theorem cpyt : ∀ d s b, Statement (.cpyt d s b) := by
  intro d s b _ w h; cases h; unfold decode; rw [opcodeOf_w3]; exact f3_w3 (pHandle_s8 _) (pShape_field _) (pSreg_s8 _)
theorem binw : ∀ d a b, Statement (.binw d a b) := by
  intro d a b _ w h; cases h; unfold decode; rw [opcodeOf_w3]; exact f3_w3 (pVreg_self _) (pVreg_self _) (pSreg_s8 _)
theorem bulk : ∀ d a, Statement (.bulk d a) := by
  intro d a _ w h; cases h; unfold decode; rw [opcodeOf_w3]; exact f3_w3 (pSreg_s8 _) (pSreg_s8 _) pZero_zero
theorem semset : ∀ d a, Statement (.semset d a) := by
  intro d a _ w h; cases h; unfold decode; rw [opcodeOf_w3]; exact f3_w3 (pHandle_s8 _) (pSreg_s8 _) pZero_zero
theorem semacq : ∀ d a, Statement (.semacq d a) := by
  intro d a _ w h; cases h; unfold decode; rw [opcodeOf_w3]; exact f3_w3 (pHandle_s8 _) (pSreg_s8 _) pZero_zero
theorem semtry : ∀ d a, Statement (.semtry d a) := by
  intro d a _ w h; cases h; unfold decode; rw [opcodeOf_w3]; exact f3_w3 (pSreg_s8 _) (pHandle_s8 _) pZero_zero
theorem semrd : ∀ d a, Statement (.semrd d a) := by
  intro d a _ w h; cases h; unfold decode; rw [opcodeOf_w3]; exact f3_w3 (pSreg_s8 _) (pHandle_s8 _) pZero_zero
theorem gang : ∀ a, Statement (.gang a) := by
  intro a _ w h; cases h; unfold decode; rw [opcodeOf_w3]; exact f3_w3 pZero_zero (pSreg_s8 _) pZero_zero
theorem mmag : ∀ d a b, Statement (.mmag d a b) := by
  intro d a b _ w h; cases h; unfold decode; rw [opcodeOf_w3]; exact f3_w3 (pHandle_s8 _) (pSreg_s8 _) (pVreg_self _)
theorem mmas : ∀ d a b, Statement (.mmas d a b) := by
  intro d a b _ w h; cases h; unfold decode; rw [opcodeOf_w3]; exact f3_w3 (pHandle_s8 _) (pSreg_s8 _) (pSreg_s8 _)
theorem tilez : ∀ d, Statement (.tilez d) := by
  intro d _ w h; cases h; unfold decode; rw [opcodeOf_w3]; exact f3_w3 (pHandle_s8 _) pZero_zero pZero_zero
theorem tld : ∀ d a, Statement (.tld d a) := by
  intro d a _ w h; cases h; unfold decode; rw [opcodeOf_w3]; exact f3_w3 (pHandle_s8 _) (pSreg_s8 _) pZero_zero
theorem tdrn : ∀ d a, Statement (.tdrn d a) := by
  intro d a _ w h; cases h; unfold decode; rw [opcodeOf_w3]; exact f3_w3 (pHandle_s8 _) (pSreg_s8 _) pZero_zero
theorem tdrm : ∀ d a b, Statement (.tdrm d a b) := by
  intro d a b _ w h; cases h; unfold decode; rw [opcodeOf_w3]; exact f3_w3 (pHandle_s8 _) (pSreg_s8 _) (pSreg_s8 _)
theorem tdrp : ∀ d a, Statement (.tdrp d a) := by
  intro d a _ w h; cases h; unfold decode; rw [opcodeOf_w3]; exact f3_w3 (pHandle_s8 _) (pSreg_s8 _) pZero_zero
theorem aadd : ∀ d a b, Statement (.aadd d a b) := by
  intro d a b _ w h; cases h; unfold decode; rw [opcodeOf_w3]; exact f3_w3 (pVreg_self _) (pSreg_s8 _) (pVreg_self _)
theorem amin : ∀ d a b, Statement (.amin d a b) := by
  intro d a b _ w h; cases h; unfold decode; rw [opcodeOf_w3]; exact f3_w3 (pVreg_self _) (pSreg_s8 _) (pVreg_self _)
theorem amax : ∀ d a b, Statement (.amax d a b) := by
  intro d a b _ w h; cases h; unfold decode; rw [opcodeOf_w3]; exact f3_w3 (pVreg_self _) (pSreg_s8 _) (pVreg_self _)
theorem aand : ∀ d a b, Statement (.aand d a b) := by
  intro d a b _ w h; cases h; unfold decode; rw [opcodeOf_w3]; exact f3_w3 (pVreg_self _) (pSreg_s8 _) (pVreg_self _)
theorem aor : ∀ d a b, Statement (.aor d a b) := by
  intro d a b _ w h; cases h; unfold decode; rw [opcodeOf_w3]; exact f3_w3 (pVreg_self _) (pSreg_s8 _) (pVreg_self _)
theorem axor : ∀ d a b, Statement (.axor d a b) := by
  intro d a b _ w h; cases h; unfold decode; rw [opcodeOf_w3]; exact f3_w3 (pVreg_self _) (pSreg_s8 _) (pVreg_self _)
theorem axch : ∀ d a b, Statement (.axch d a b) := by
  intro d a b _ w h; cases h; unfold decode; rw [opcodeOf_w3]; exact f3_w3 (pVreg_self _) (pSreg_s8 _) (pVreg_self _)
theorem acas : ∀ d a b, Statement (.acas d a b) := by
  intro d a b hw w h; cases h; unfold decode; rw [opcodeOf_w3]; exact f3_w3 (pPair_even hw) (pSreg_s8 _) (pVreg_self _)
theorem waitc : ∀ c a b, Statement (.waitc c a b) := by
  intro c a b hw w h; cases h; unfold decode; rw [opcodeOf_w3]; exact f3_w3 (pCond_field (of_decide_eq_true hw)) (pSreg_s8 _) (pSreg_s8 _)
theorem bari : ∀ d a, Statement (.bari d a) := by
  intro d a _ w h; cases h; unfold decode; rw [opcodeOf_w3]; exact f3_w3 (pAny_self _) (pSreg_s8 _) pZero_zero
theorem bar : ∀ d, Statement (.bar d) := by
  intro d _ w h; cases h; unfold decode; rw [opcodeOf_w3]; exact f3_w3 (pAny_self _) pZero_zero pZero_zero
theorem bars : ∀ d, Statement (.bars d) := by
  intro d _ w h; cases h; unfold decode; rw [opcodeOf_w3]; exact f3_w3 (pAny_self _) pZero_zero pZero_zero
theorem bara : ∀ d, Statement (.bara d) := by
  intro d _ w h; cases h; unfold decode; rw [opcodeOf_w3]; exact f3_w3 (pAny_self _) pZero_zero pZero_zero
theorem bard : ∀ d, Statement (.bard d) := by
  intro d _ w h; cases h; unfold decode; rw [opcodeOf_w3]; exact f3_w3 (pAny_self _) pZero_zero pZero_zero
theorem launch : ∀ d a, Statement (.launch d a) := by
  intro d a _ w h; cases h; unfold decode; rw [opcodeOf_w3]; exact f3_w3 (pSreg_s8 _) (pSreg_s8 _) pZero_zero
theorem tspawn : ∀ d a, Statement (.tspawn d a) := by
  intro d a _ w h; cases h; unfold decode; rw [opcodeOf_w3]; exact f3_w3 (pSreg_s8 _) (pSreg_s8 _) pZero_zero
theorem tdep : ∀ a b, Statement (.tdep a b) := by
  intro a b _ w h; cases h; unfold decode; rw [opcodeOf_w3]; exact f3_w3 pZero_zero (pSreg_s8 _) (pSreg_s8 _)
theorem regionClose : Statement .regionClose := by
  intro _ w h; cases h; unfold decode; rw [opcodeOf_w3]; exact f3_w3 (x := 0) rfl pZero_zero pZero_zero
theorem regionOpen : Statement .regionOpen := by
  intro _ w h; cases h; unfold decode; rw [opcodeOf_w3]; exact f3_w3 (x := 1) rfl pZero_zero pZero_zero
theorem mark : ∀ d a, Statement (.mark d a) := by
  intro d a _ w h; cases h; unfold decode; rw [opcodeOf_w3]; exact f3_w3 (pAny_self _) (pSreg_s8 _) pZero_zero
theorem trctlGate : ∀ a, Statement (.trctlGate a) := by
  intro a _ w h; cases h; unfold decode; rw [opcodeOf_w3]; exact f3_w3 (x := 0) rfl (pSreg_s8 a) pZero_zero
theorem trctlMask : ∀ a, Statement (.trctlMask a) := by
  intro a _ w h; cases h; unfold decode; rw [opcodeOf_w3]; exact f3_w3 (x := 1) rfl (pSreg_s8 a) pZero_zero
theorem trctlDrain : ∀ a, Statement (.trctlDrain a) := by
  intro a _ w h; cases h; unfold decode; rw [opcodeOf_w3]; exact f3_w3 (x := 2) rfl (pSreg_s8 a) pZero_zero
theorem trctlAnchor : ∀ a, Statement (.trctlAnchor a) := by
  intro a _ w h; cases h; unfold decode; rw [opcodeOf_w3]; exact f3_w3 (x := 3) rfl (pSreg_s8 a) pZero_zero
theorem trap : ∀ i, Statement (.trap i) := by
  intro i _ w h; cases h; unfold decode; rw [opcodeOf_wj]; exact fj_wj _ _ _
theorem swrite : ∀ i a, Statement (.swrite i a) := by
  intro i a _ w h; cases h; unfold decode; rw [opcodeOf_w3]; exact f3_w3 (pAny_self _) (pSreg_s8 _) pZero_zero
theorem tret : Statement .tret := by
  intro _ w h; cases h; unfold decode; rw [opcodeOf_w3]; exact f3_w3 pZero_zero pZero_zero pZero_zero
theorem issueStarvationPromote : ∀ a, Statement (.issueStarvationPromote a) := by intro _ _ w h; cases h
theorem instructionFetchFault : ∀ a b c, Statement (.instructionFetchFault a b c) := by intro _ _ _ _ w h; cases h
theorem loadDataReturn : ∀ a, Statement (.loadDataReturn a) := by intro _ _ w h; cases h
theorem storePerformed : ∀ a b, Statement (.storePerformed a b) := by intro _ _ _ w h; cases h
theorem invalidationReceive : ∀ a b, Statement (.invalidationReceive a b) := by intro _ _ _ w h; cases h
theorem invalidationApplyTimeout : ∀ a, Statement (.invalidationApplyTimeout a) := by intro _ _ w h; cases h
theorem atomicStep : ∀ a b, Statement (.atomicStep a b) := by intro _ _ _ w h; cases h
theorem atomicResultReturn : ∀ a, Statement (.atomicResultReturn a) := by intro _ _ w h; cases h
theorem shapeComplete : ∀ a, Statement (.shapeComplete a) := by intro _ _ w h; cases h
theorem tdepStep : ∀ a, Statement (.tdepStep a) := by intro _ _ w h; cases h
theorem flushComplete : ∀ a, Statement (.flushComplete a) := by intro _ _ w h; cases h
theorem copyComplete : ∀ a, Statement (.copyComplete a) := by intro _ _ w h; cases h
theorem binClaim : ∀ a, Statement (.binClaim a) := by intro _ _ w h; cases h
theorem binwComplete : ∀ a, Statement (.binwComplete a) := by intro _ _ w h; cases h
theorem mirrorDelivery : ∀ a b c, Statement (.mirrorDelivery a b c) := by intro _ _ _ _ w h; cases h
theorem bulkStart : ∀ a b c, Statement (.bulkStart a b c) := by intro _ _ _ _ w h; cases h
theorem bulkCopyDone : ∀ a, Statement (.bulkCopyDone a) := by intro _ _ w h; cases h
theorem bulkDecryptDone : ∀ a, Statement (.bulkDecryptDone a) := by intro _ _ w h; cases h
theorem collectiveMatch : ∀ a b c d, Statement (.collectiveMatch a b c d) := by intro _ _ _ _ _ w h; cases h
theorem collectiveDone : ∀ a b c d, Statement (.collectiveDone a b c d) := by intro _ _ _ _ _ w h; cases h
theorem scanDone : ∀ a, Statement (.scanDone a) := by intro _ _ w h; cases h
theorem tileStepComplete : ∀ a, Statement (.tileStepComplete a) := by intro _ _ w h; cases h
theorem drainComplete : ∀ a, Statement (.drainComplete a) := by intro _ _ w h; cases h
theorem drainAddReceive : ∀ a, Statement (.drainAddReceive a) := by intro _ _ w h; cases h
theorem drainAddAck : ∀ a, Statement (.drainAddAck a) := by intro _ _ w h; cases h
theorem monitorWake : ∀ a, Statement (.monitorWake a) := by intro _ _ w h; cases h
theorem waitcPoll : ∀ a, Statement (.waitcPoll a) := by intro _ _ w h; cases h
theorem monitorThresholdHalt : ∀ a, Statement (.monitorThresholdHalt a) := by intro _ _ w h; cases h
theorem relaunchPoll : ∀ a, Statement (.relaunchPoll a) := by intro _ _ w h; cases h
theorem wideBarrierArrival : ∀ a b, Statement (.wideBarrierArrival a b) := by intro _ _ _ w h; cases h
theorem wideBarrierCompletion : ∀ a b, Statement (.wideBarrierCompletion a b) := by intro _ _ _ w h; cases h
theorem regionReleaseComplete : ∀ a, Statement (.regionReleaseComplete a) := by intro _ _ w h; cases h
theorem dispatchEntry : ∀ a, Statement (.dispatchEntry a) := by intro _ _ w h; cases h
theorem placeTeam : ∀ a, Statement (.placeTeam a) := by intro _ _ w h; cases h
theorem placeMirrorGroup : ∀ a, Statement (.placeMirrorGroup a) := by intro _ _ w h; cases h
theorem compactorMove : ∀ a b, Statement (.compactorMove a b) := by intro _ _ _ w h; cases h
theorem heatSweep : ∀ a, Statement (.heatSweep a) := by intro _ _ w h; cases h
theorem pageRequestReply : ∀ a b c, Statement (.pageRequestReply a b c) := by intro _ _ _ _ w h; cases h
theorem prgResponse : ∀ a b c, Statement (.prgResponse a b c) := by intro _ _ _ _ w h; cases h
theorem pageRequestTimeout : ∀ a b, Statement (.pageRequestTimeout a b) := by intro _ _ _ w h; cases h
theorem prgIndexReuseTimeout : ∀ a b, Statement (.prgIndexReuseTimeout a b) := by intro _ _ _ w h; cases h
theorem atsTranslationCompletion : ∀ a b c, Statement (.atsTranslationCompletion a b c) := by intro _ _ _ _ w h; cases h
theorem atsTranslationTimeout : ∀ a b, Statement (.atsTranslationTimeout a b) := by intro _ _ _ w h; cases h
theorem atsInvalidateRequest : ∀ a b c d, Statement (.atsInvalidateRequest a b c d) := by intro _ _ _ _ _ w h; cases h
theorem unmapInvalidation : ∀ a b c, Statement (.unmapInvalidation a b c) := by intro _ _ _ _ w h; cases h
theorem invalidationComplete : ∀ a, Statement (.invalidationComplete a) := by intro _ _ w h; cases h
theorem haltRequest : ∀ a, Statement (.haltRequest a) := by intro _ _ w h; cases h
theorem haltComplete : ∀ a, Statement (.haltComplete a) := by intro _ _ w h; cases h
theorem resume : ∀ a, Statement (.resume a) := by intro _ _ w h; cases h
theorem quantumExpiry : ∀ a, Statement (.quantumExpiry a) := by intro _ _ w h; cases h
theorem contextTeardown : ∀ a, Statement (.contextTeardown a) := by intro _ _ w h; cases h
theorem trapEntry : ∀ a, Statement (.trapEntry a) := by intro _ _ w h; cases h
theorem uncorrectableStateError : ∀ a b, Statement (.uncorrectableStateError a b) := by intro _ _ _ w h; cases h
theorem scrubSector : ∀ a, Statement (.scrubSector a) := by intro _ _ w h; cases h
theorem activityBudgetPeriod : ∀ a, Statement (.activityBudgetPeriod a) := by intro _ _ w h; cases h
theorem carveWriteback : ∀ a b, Statement (.carveWriteback a b) := by intro _ _ _ w h; cases h
theorem carveComplete : ∀ a, Statement (.carveComplete a) := by intro _ _ w h; cases h
theorem sramcfgWrite : ∀ a b, Statement (.sramcfgWrite a b) := by intro _ _ _ w h; cases h
theorem traceReservationRefill : ∀ a, Statement (.traceReservationRefill a) := by intro _ _ w h; cases h
theorem traceAccept : ∀ a b, Statement (.traceAccept a b) := by intro _ _ _ w h; cases h
theorem epoch : ∀ a, Statement (.epoch a) := by intro _ _ w h; cases h
theorem trcfgWrite : ∀ a b, Statement (.trcfgWrite a b) := by intro _ _ _ w h; cases h
theorem trbufWrite : ∀ a b c, Statement (.trbufWrite a b c) := by intro _ _ _ _ w h; cases h
theorem trrpWrite : ∀ a b, Statement (.trrpWrite a b) := by intro _ _ _ w h; cases h
theorem ppsEdge : ∀ a, Statement (.ppsEdge a) := by intro _ _ w h; cases h
theorem ptmExchange : ∀ a, Statement (.ptmExchange a) := by intro _ _ w h; cases h
theorem ptmFailureTimeout : Statement .ptmFailureTimeout := by intro _ w h; cases h
theorem timeForwardStep : ∀ a, Statement (.timeForwardStep a) := by intro _ _ w h; cases h
theorem tbepochWrite : ∀ a, Statement (.tbepochWrite a) := by intro _ _ w h; cases h
theorem sliceCreate : ∀ a b c, Statement (.sliceCreate a b c) := by intro _ _ _ _ w h; cases h
theorem sliceGrow : ∀ a b c, Statement (.sliceGrow a b c) := by intro _ _ _ _ w h; cases h
theorem sliceShrink : ∀ a b c, Statement (.sliceShrink a b c) := by intro _ _ _ _ w h; cases h
theorem sliceMerge : ∀ a b, Statement (.sliceMerge a b) := by intro _ _ _ w h; cases h
theorem sliceSplit : ∀ a b c d e, Statement (.sliceSplit a b c d e) := by intro _ _ _ _ _ _ w h; cases h
theorem sliceReleaseProgress : ∀ a b, Statement (.sliceReleaseProgress a b) := by intro _ _ _ w h; cases h
theorem sliceReset : ∀ a, Statement (.sliceReset a) := by intro _ _ w h; cases h
theorem queueNotify : ∀ a b c, Statement (.queueNotify a b c) := by intro _ _ _ _ w h; cases h
theorem queueMap : ∀ a b c, Statement (.queueMap a b c) := by intro _ _ _ _ w h; cases h
theorem queueSlotFetch : ∀ a b, Statement (.queueSlotFetch a b) := by intro _ _ _ w h; cases h
theorem npQueueReclaim : ∀ a b, Statement (.npQueueReclaim a b) := by intro _ _ _ w h; cases h
theorem adapterAdmission : ∀ a, Statement (.adapterAdmission a) := by intro _ _ w h; cases h
theorem admissionRetry : ∀ a, Statement (.admissionRetry a) := by intro _ _ w h; cases h
theorem migrationCommand : ∀ a b c d e f, Statement (.migrationCommand a b c d e f) := by intro _ _ _ _ _ _ _ w h; cases h
theorem migrationLineCopy : ∀ a b, Statement (.migrationLineCopy a b) := by intro _ _ _ w h; cases h
theorem migrationDone : ∀ a b, Statement (.migrationDone a b) := by intro _ _ _ w h; cases h
theorem forwardingEntryRetire : ∀ a b, Statement (.forwardingEntryRetire a b) := by intro _ _ _ w h; cases h
theorem podRequestReceive : ∀ a, Statement (.podRequestReceive a) := by intro _ _ w h; cases h
theorem podResponseTimeout : ∀ a b, Statement (.podResponseTimeout a b) := by intro _ _ _ w h; cases h
theorem podResponse : ∀ a b c, Statement (.podResponse a b c) := by intro _ _ _ _ w h; cases h
theorem hostAtomicop : ∀ a b c d e, Statement (.hostAtomicop a b c d e) := by intro _ _ _ _ _ _ w h; cases h
theorem hostMemoryWrite : ∀ a b, Statement (.hostMemoryWrite a b) := by intro _ _ _ w h; cases h
theorem hostMemoryRead : ∀ a b, Statement (.hostMemoryRead a b) := by intro _ _ _ w h; cases h
theorem mailboxDoorbell : ∀ a b c, Statement (.mailboxDoorbell a b c) := by intro _ _ _ _ w h; cases h
theorem registerWrite : ∀ a b c d e f, Statement (.registerWrite a b c d e f) := by intro _ _ _ _ _ _ _ w h; cases h
theorem tblgoPeer : Statement .tblgoPeer := by intro _ w h; cases h
theorem tblgoWindow : Statement .tblgoWindow := by intro _ w h; cases h
theorem tblgoRouting : Statement .tblgoRouting := by intro _ w h; cases h
theorem keyAssign : ∀ a b, Statement (.keyAssign a b) := by intro _ _ _ w h; cases h
theorem keyRetire : ∀ a, Statement (.keyRetire a) := by intro _ _ w h; cases h
theorem functionLevelReset : ∀ a, Statement (.functionLevelReset a) := by intro _ _ w h; cases h
theorem ideKmKeyProgram : ∀ a b, Statement (.ideKmKeyProgram a b) := by intro _ _ _ w h; cases h
theorem ideIntegrityFailure : ∀ a b, Statement (.ideIntegrityFailure a b) := by intro _ _ _ w h; cases h
theorem lockInterfaceRequest : ∀ a b, Statement (.lockInterfaceRequest a b) := by intro _ _ _ w h; cases h
theorem stopInterfaceRequest : ∀ a, Statement (.stopInterfaceRequest a) := by intro _ _ w h; cases h
theorem deviceInterfaceReport : ∀ a, Statement (.deviceInterfaceReport a) := by intro _ _ w h; cases h
theorem getVersion : Statement .getVersion := by intro _ w h; cases h
theorem getCapabilities : Statement .getCapabilities := by intro _ w h; cases h
theorem negotiateAlgorithms : ∀ a b c, Statement (.negotiateAlgorithms a b c) := by intro _ _ _ _ w h; cases h
theorem getDigests : Statement .getDigests := by intro _ w h; cases h
theorem getCertificate : ∀ a, Statement (.getCertificate a) := by intro _ _ w h; cases h
theorem challenge : ∀ a b, Statement (.challenge a b) := by intro _ _ _ w h; cases h
theorem getMeasurements : ∀ a b c, Statement (.getMeasurements a b c) := by intro _ _ _ _ w h; cases h
theorem keyExchange : ∀ a b, Statement (.keyExchange a b) := by intro _ _ _ w h; cases h
theorem finish : Statement .finish := by intro _ w h; cases h
theorem endSession : Statement .endSession := by intro _ w h; cases h
theorem keyLoad : ∀ a b c, Statement (.keyLoad a b c) := by intro _ _ _ _ w h; cases h
theorem powerOnSequence : ∀ a b c, Statement (.powerOnSequence a b c) := by intro _ _ _ _ w h; cases h
theorem governorEvaluate : ∀ a b, Statement (.governorEvaluate a b) := by intro _ _ _ w h; cases h
theorem governorFastStep : ∀ a, Statement (.governorFastStep a) := by intro _ _ w h; cases h
theorem firmwareUpdate : ∀ a b c, Statement (.firmwareUpdate a b c) := by intro _ _ _ _ w h; cases h
theorem d2dLaneRetire : ∀ a b, Statement (.d2dLaneRetire a b) := by intro _ _ _ w h; cases h
theorem ualinkLaneRetire : ∀ a, Statement (.ualinkLaneRetire a) := by intro _ _ w h; cases h
theorem hbmChannelRetire : ∀ a, Statement (.hbmChannelRetire a) := by intro _ _ w h; cases h
theorem dieFence : ∀ a, Statement (.dieFence a) := by intro _ _ w h; cases h
theorem illegalInstructionWord : ∀ a, Statement (.illegalInstructionWord a) := by intro _ _ w h; cases h
theorem ppsLossTimeout : Statement .ppsLossTimeout := by intro _ w h; cases h
theorem priReset : ∀ a, Statement (.priReset a) := by intro _ _ w h; cases h
theorem startInterfaceRequest : ∀ a, Statement (.startInterfaceRequest a) := by intro _ _ w h; cases h
theorem ualinkStationDown : ∀ a, Statement (.ualinkStationDown a) := by intro _ _ w h; cases h
theorem ualinkStationUp : ∀ a, Statement (.ualinkStationUp a) := by intro _ _ w h; cases h

end Sys2Proof.Laws.RoundTrip
end

