-- ==== Sys2Proof/Laws/Service.lean ====
section
/-! SUPPORT. What the shared operations of the host interface can change. -/
namespace Sys2Proof.Machine

/-- STATE of KEYSTAT and the operation under way are all that a move of a key operation sets; ERR stays (R468). -/
theorem keyState_touches (s : State) (op : Option KeyOp) :
    ∃ w, keyState s op = { s with sec := { s.sec with keyOp := op, keystat := w } } ∧ w.getLsbD 2 = s.sec.keystat.getLsbD 2 := by
  refine ⟨_, rfl, ?_⟩
  rcases op with - | - | - <;> simp
/-- A refused key write sets ERR and no more (R468). -/
theorem keyRefuse_touches (s : State) : keyRefuse s = { s with sec := { s.sec with keystat := s.sec.keystat ||| 4 } } := rfl
/-- A refusal for a locked device interface changes slices alone (R462). -/
theorem lockedError_touches (s : State) (func : Nat) : ∃ sl, lockedError s func = { s with slices := sl } := ⟨_, rfl⟩
/-- A signalled vector is pending while it is masked, and its message goes out otherwise (R453). -/
theorem signal_cases (f : Func) (v : Nat) :
    (∃ p, f.signal v = { f with msixPend := p }) ∨ (∃ m, f.signal v = { f with msix := f.msix ++ [m] }) := by
  unfold Func.signal
  split
  · exact .inl ⟨_, rfl⟩
  · exact .inr ⟨_, rfl⟩
/-- A write of the MSI-X table changes the functions alone (R449). -/
theorem writeMsix_touches (s : State) (func i : Nat) (v : DWord) : ∃ fs, writeMsix s func i v = { s with funcs := fs } := ⟨_, rfl⟩

end Sys2Proof.Machine
end

