-- ==== Sys2Proof/Laws/Vector.lean ====
section
/-! SUPPORT. What the lane-wise and unit-wise vector instructions leave in the registers. -/
namespace Sys2Proof.Machine

/-- A lane of a register reads as what was written to it last. -/
theorem getV_setV_lane (c : Crew) (r x : Nat) (v : Word) (q l : Nat) (hl : l < 64) (hx : x < 64) :
    (c.setV r x v).getV q l = if q = r ∧ l = x then v else c.getV q l := by
  have : (64 * q + l = 64 * r + x) ↔ (q = r ∧ l = x) := by omega
  rw [Crew.getV_setV]
  simp only [this]
/-- Several lanes of a register are written. -/
theorem setLanes_only (c : Crew) (d : Nat) (xs : List (Nat × Word)) : c.setLanes d xs = { c with vregs := (c.setLanes d xs).vregs } := by
  induction xs generalizing c with
  | nil => rfl
  | cons x t ih => exact (ih _).trans rfl
theorem setLanes_getV (c : Crew) (d : Nat) (ls : List Nat) (f : Nat → Word) (hl : ∀ l ∈ ls, l < 64) (r l : Nat) (h : l < 64) :
    (c.setLanes d (ls.map fun l => (l, f l))).getV r l = if r = d ∧ l ∈ ls then f l else c.getV r l := by
  induction ls generalizing c with
  | nil => simp [Crew.setLanes]
  | cons x t ih =>
    have := ih (c.setV d x (f x)) (fun l hl' => hl l (by simp [hl']))
    simp only [Crew.setLanes, List.map_cons, List.foldl_cons] at this ⊢
    rw [this]
    have hx : x < 64 := hl x (by simp)
    rw [getV_setV_lane _ _ _ _ _ _ h hx]
    by_cases h1 : r = d <;> by_cases h2 : l ∈ t <;> by_cases h3 : l = x <;> simp_all
theorem mem_actives (c : Crew) (w l : Nat) : l ∈ c.actives w ↔ c.isActive w l = true := by
  simp only [Crew.actives, below, List.mem_filter, List.mem_range]
  constructor
  · exact fun h => h.2
  · intro h; refine ⟨?_, h⟩
    simp only [Crew.isActive, activeLane, Bool.and_eq_true, decide_eq_true_eq] at h; exact h.1
theorem actives_lt (c : Crew) (w l : Nat) (h : l ∈ c.actives w) : l < w := by
  simp only [Crew.actives, below, List.mem_filter, List.mem_range] at h; exact h.1
theorem laneResults_of_laneOp {i : Instr} {d : VReg} {rounds r2 : DWord → Bool} {f : Crew → Nat → Word} {g : Crew → Team → Nat → Word}
    (hx : ∀ s, exec i s = issue s (needOf s i) fun s c t => retire s ((c.mapLanes t.width d.toNat (f c)).countRnd (rounds c.mode)))
    (hf : ∀ c t l, c.isActive t.width l = true → f c l = g c t l) (hr : rounds = r2) : LaneResults i d r2 g := by
  subst hr
  refine gives_of_body hx fun s c t hw => ⟨⟨_, rfl, ?_, ?_⟩, rfl⟩
  · intro r l hl
    have hc : ∀ (x : Crew) b, (x.countRnd b).getV r l = x.getV r l := by intro x b; unfold Crew.countRnd; split <;> rfl
    rw [hc, Crew.mapLanes, setLanes_getV _ _ _ _ (fun l h => Nat.lt_of_lt_of_le (actives_lt c _ l h) hw) _ _ hl]
    simp only [mem_actives]
    split
    · next h => exact hf _ _ _ h.2
    · rfl
  · unfold Crew.countRnd
    have e := setLanes_only c d.toNat ((c.actives t.width).map fun l => (l, f c l))
    unfold Crew.mapLanes
    generalize c.setLanes d.toNat ((c.actives t.width).map fun l => (l, f c l)) = x at e ⊢
    rw [e]
    cases h : (rounds c.mode && rndOf c.mode == 5) <;> simp

/-- The units of lanes are written. -/
theorem setUnit_mode (c : Crew) (r l : Nat) (x : DWord) : (c.setUnit r l x).mode = c.mode := by
  unfold Crew.setUnit Crew.setPair; split <;> rfl
theorem setUnit_getV (c : Crew) (d x : Nat) (v : DWord) (r l : Nat) (hl : l < 64) (hx : x < 64) :
    (c.setUnit d x v).getV r l =
      if l = x then (if r = d then v.extractLsb' 0 32 else if r = d + 1 ∧ tyOf c.mode = 13 then v.extractLsb' 32 32 else c.getV r l)
      else c.getV r l := by
  have e : v.setWidth 32 = v.extractLsb' 0 32 := by
    apply BitVec.eq_of_getLsbD_eq; intro i hi; simp [hi]
  unfold Crew.setUnit Crew.setPair
  split
  · next h =>
    rw [getV_setV_lane _ _ _ _ _ _ hl hx, getV_setV_lane _ _ _ _ _ _ hl hx]
    by_cases h1 : l = x <;> by_cases h2 : r = d <;> by_cases h3 : r = d + 1 <;> simp_all
  · next h =>
    rw [getV_setV_lane _ _ _ _ _ _ hl hx]
    by_cases h1 : l = x <;> by_cases h2 : r = d <;> simp_all
theorem setUnit_only (c : Crew) (d l : Nat) (v : DWord) : c.setUnit d l v = { c with vregs := (c.setUnit d l v).vregs } := by
  unfold Crew.setUnit Crew.setPair; split <;> rfl
theorem mapUnits_only (ls : List Nat) (f : Nat → DWord) (c : Crew) (d : Nat) :
    (ls.map fun l => (l, f l)).foldl (fun c p => c.setUnit d p.1 p.2) c =
      { c with vregs := ((ls.map fun l => (l, f l)).foldl (fun c p => c.setUnit d p.1 p.2) c).vregs } := by
  induction ls generalizing c with
  | nil => rfl
  | cons x t ih =>
    simp only [List.map_cons, List.foldl_cons]
    have e := ih (c.setUnit d x (f x))
    have e2 := setUnit_only c d x (f x)
    generalize (t.map fun l => (l, f l)).foldl (fun c p => c.setUnit d p.1 p.2) (c.setUnit d x (f x)) = y at e ⊢
    rw [e2] at e
    exact e
theorem mapUnits_getV (ls : List Nat) (f : Nat → DWord) (c : Crew) (d r l : Nat) (hs : ∀ l ∈ ls, l < 64) (hl : l < 64) :
    ((ls.map fun l => (l, f l)).foldl (fun c p => c.setUnit d p.1 p.2) c).getV r l =
      if l ∈ ls then (if r = d then (f l).extractLsb' 0 32 else if r = d + 1 ∧ tyOf c.mode = 13 then (f l).extractLsb' 32 32 else c.getV r l)
      else c.getV r l := by
  induction ls generalizing c with
  | nil => simp
  | cons x t ih =>
    simp only [List.map_cons, List.foldl_cons]
    rw [ih (c.setUnit d x (f x)) (fun l h => hs l (by simp [h])), setUnit_mode, setUnit_getV c d x (f x) r l hl (hs x (by simp))]
    by_cases h1 : l = x
    · subst h1
      by_cases h2 : l ∈ t
      · simp only [h2, List.mem_cons, or_true, if_true]
        split
        · rfl
        · split <;> rfl
      · simp [h2]
    · by_cases h2 : l ∈ t
      · simp [h1, h2]
      · simp [h1, h2]
theorem getUnit_eq (c : Crew) (d l : Nat) : c.getUnit d l = if tyOf c.mode = 13 then c.getV (d + 1) l ++ c.getV d l else (c.getV d l).setWidth 64 := rfl
theorem append_halves (x : DWord) : x.extractLsb' 32 32 ++ x.extractLsb' 0 32 = x := by
  apply BitVec.eq_of_getLsbD_eq
  intro k hk
  rw [BitVec.getLsbD_append]
  simp only [BitVec.getLsbD_extractLsb']
  by_cases h : k < 32
  · simp [h]
  · have h1 : 32 + (k - 32) = k := by omega
    have h2 : k - 32 < 32 := by omega
    simp [h, h1, h2]
theorem unitResults_of_unitOp {i : Instr} {d : VReg} {f g : Crew → Team → Nat → DWord}
    (hx : ∀ s, exec i s = issue s (needOf s i) fun s c t => retire s (c.mapUnits t.width d.toNat (f c t)))
    (hf : ∀ c t l, c.isActive t.width l = true → f c t l = g c t l) : UnitResults i d g := by
  refine gives_of_body hx fun s c t hw => ⟨⟨_, rfl, ?_, ?_, ?_⟩, rfl⟩
  · intro l hl ha
    have hm := (mem_actives c t.width l).2 ha
    have hv := fun r => mapUnits_getV (c.actives t.width) (f c t) c d.toNat r l (fun l h => Nat.lt_of_lt_of_le (actives_lt c _ l h) hw) hl
    have ho := mapUnits_only (c.actives t.width) (f c t) c d.toNat
    unfold Crew.mapUnits
    generalize List.foldl _ c _ = y at hv ho ⊢
    have hmode : y.mode = c.mode := by rw [ho]
    rw [getUnit_eq, hmode, hv, hv, ← hf c t l ha]
    split
    · next h => simp [h]; exact append_halves _
    · simp [BitVec.setWidth_eq_extractLsb']
  · intro r l hl h
    have hv := mapUnits_getV (c.actives t.width) (f c t) c d.toNat r l (fun l h => Nat.lt_of_lt_of_le (actives_lt c _ l h) hw) hl
    unfold Crew.mapUnits
    rw [hv]
    rcases h with h | h
    · have : l ∉ c.actives t.width := fun hh => by have := (mem_actives c t.width l).1 hh; simp [h] at this
      simp [this]
    · unfold unitRegs at h
      split at h
      · next h13 => simp at h; simp [h]
      · next h13 => simp at h; simp [h, h13]
  · exact mapUnits_only (c.actives t.width) (f c t) c d.toNat

end Sys2Proof.Machine
end

