-- ==== Sys2Proof/Tests/Slice0.lean ====
section
/-! SUPPORT. The model's own tests: ill-formed terms are refused, words written out from the encodings decode, single steps give what the
rules say of small states, and every statement with hypotheses has states and operands that meet them. -/
namespace Sys2Proof.Tests
open Sys2Proof Sys2Proof.Machine

set_option maxRecDepth 100000

/-- A state whose next step fetches the instruction. -/
def start (i : Instr) : State := State.reset.withFetchWord 32 ((encode i).getD 0).toNat
/-- The crew's answer: the crew after the instruction. -/
def after (i : Instr) (f : Crew → Crew) : Option Crew :=
  match exec i ((start i).modCrew 0 f) with
  | .next s => s.crew? 0
  | _ => none
/-- The instruction issues in a state, and a condition holds of the state in which it acts. -/
def meets (s : State) (i : Instr) (p : State → Crew → Team → Bool) : Bool :=
  match ready s i with
  | some (s1, c, t) => p s1 c t
  | none => false
/-- The instruction issues in the state that `withFetchWord` gives, with the crew and the team changed. -/
def can (i : Instr) (p : State → Crew → Team → Bool := fun _ _ _ => true) (f : Crew → Crew := id) (g : Team → Team := id) : Bool :=
  meets (((start i).modCrew 0 f).modTeam 0 g) i p

/-! Ill-formed terms. -/
theorem test_wf_refuses_odd_pack_pair : (Instr.vpk4 0 1 2).wf = false ∧ (Instr.vpk4 0 2 1).wf = false ∧ (Instr.vpk4 1 2 4).wf = true := by decide
theorem test_wf_refuses_odd_copy_pair :
    (Instr.cpy4 0 1 2).wf = false ∧ (Instr.cpy8 0 2 3).wf = false ∧ (Instr.cpy16 0 255 2).wf = false ∧ (Instr.cpy4 63 254 2).wf = true := by decide
theorem test_wf_refuses_fence_codes :
    (Instr.fence 7 1).wf = false ∧ (Instr.fence 6 0).wf = false ∧ (Instr.fence 6 3).wf = true ∧ (Instr.fence 0 1).wf = true := by decide
theorem test_wf_refuses_condition_six : (Instr.waitc 6 1 2).wf = false ∧ (Instr.waitc 5 1 2).wf = true := by decide
theorem test_wf_refuses_odd_compare_group : (Instr.acas 1 2 3).wf = false ∧ (Instr.acas 2 2 3).wf = true := by decide

/-! Words written out from R58 to R62, one or more for each family. -/
theorem test_decode_control : decode 0x01000000 = .ok .nop ∧ decode 0x02FFFFFF = .ok (.br 0xFFFFFF) ∧ decode 0x03058000 = .ok (.brz 5 0x8000) ∧
    decode 0x04050001 = .ok (.brnz 5 1) ∧ decode 0x05000010 = .ok (.call 0x10) ∧ decode 0x06000000 = .ok .ret ∧ decode 0x07000900 = .ok (.jr 9) ∧
    decode 0x08020003 = .ok (.blkz 2 3) ∧ decode 0x0903ABCD = .ok (.mode 3 0xABCD) ∧ decode 0x0A010200 = .ok (.moder 1 2) ∧
    decode 0x0B041083 = .ok (.wait 1 1 2 3) ∧ decode 0x0C000403 = .ok (.waitr 4 3) ∧ decode 0x0D000000 = .ok .endCrew ∧
    decode 0x0E010900 = .ok (.sread 1 9) := by refine ⟨rfl, rfl, rfl, rfl, rfl, rfl, rfl, rfl, rfl, rfl, rfl, rfl, rfl, rfl⟩
theorem test_decode_scalar : decode 0x1007FFFE = .ok (.sli 7 0xFFFE) ∧ decode 0x11070001 = .ok (.slis 7 1) ∧ decode 0x12030405 = .ok (.sadd 3 4 5) ∧
    decode 0x13030480 = .ok (.saddi 3 4 0x80) ∧ decode 0x14030405 = .ok (.ssub 3 4 5) ∧ decode 0x16030405 = .ok (.sdivs 3 4 5) ∧
    decode 0x1D030405 = .ok (.ssra 3 4 5) ∧ decode 0x1F030400 = .ok (.scnt 3 4) ∧ decode 0x20030400 = .ok (.sclz 3 4) ∧
    decode 0x123F3F3F = .ok (.sadd 63 63 63) := by refine ⟨rfl, rfl, rfl, rfl, rfl, rfl, rfl, rfl, rfl, rfl⟩
theorem test_decode_vector : decode 0x300102FF = .ok (.vadd 1 2 255) ∧ decode 0x33012A03 = .ok (.vfma 1 42 3) ∧ decode 0x3B010203 = .ok (.vceq 1 2 3) ∧
    decode 0x3E010200 = .ok (.vmov 1 2) ∧ decode 0x3F010200 = .ok (.vbcs 1 2) ∧ decode 0x40010203 = .ok (.vext 1 2 3) ∧
    decode 0x41010000 = .ok (.vlid 1) ∧ decode 0x42010200 = .ok (.vcvt 1 2) ∧ decode 0x46010200 = .ok (.vlog2 1 2) ∧
    decode 0x47010200 = .ok (.vred 1 2) ∧ decode 0x50010203 = .ok (.vcmpr 1 2 3) ∧ decode 0x54010203 = .ok (.vperm 1 2 3) ∧
    decode 0x56010204 = .ok (.vpk4 1 2 4) ∧ decode 0x57010207 = .ok (.vupk 1 2 7) := by
  refine ⟨rfl, rfl, rfl, rfl, rfl, rfl, rfl, rfl, rfl, rfl, rfl, rfl, rfl, rfl⟩
theorem test_decode_memory : decode 0x600A0B0C = .ok (.ld 10 11 12) ∧ decode 0x610A0B0C = .ok (.st 10 11 12) ∧ decode 0x620A0F0C = .ok (.ldt 10 15 12) ∧
    decode 0x64050600 = .ok (.shape 5 6) ∧ decode 0x65060300 = .ok (.fence 6 3) ∧ decode 0x66010B0C = .ok (.pref 1 11 12) ∧
    decode 0x67000102 = .ok (.flush 1 2) ∧ decode 0x71050204 = .ok (.cpy8 5 2 4) ∧ decode 0x73050203 = .ok (.cpyt 5 2 3) ∧
    decode 0x74010203 = .ok (.binw 1 2 3) ∧ decode 0x75010200 = .ok (.bulk 1 2) ∧ decode 0x763F0100 = .ok (.semset 63 1) ∧
    decode 0x78010200 = .ok (.semtry 1 2) := by refine ⟨rfl, rfl, rfl, rfl, rfl, rfl, rfl, rfl, rfl, rfl, rfl, rfl, rfl⟩
theorem test_decode_matrix_atomics : decode 0x80000700 = .ok (.gang 7) ∧ decode 0x81030405 = .ok (.mmag 3 4 5) ∧ decode 0x82030405 = .ok (.mmas 3 4 5) ∧
    decode 0x83030000 = .ok (.tilez 3) ∧ decode 0x86030405 = .ok (.tdrm 3 4 5) ∧ decode 0x87030400 = .ok (.tdrp 3 4) ∧
    decode 0x90040506 = .ok (.aadd 4 5 6) ∧ decode 0x97040506 = .ok (.acas 4 5 6) ∧ decode 0x98050102 = .ok (.waitc 5 1 2) ∧
    decode 0x99800100 = .ok (.bari 128 1) ∧ decode 0x9A7F0000 = .ok (.bar 127) ∧ decode 0x9DFF0000 = .ok (.bard 255) := by
  refine ⟨rfl, rfl, rfl, rfl, rfl, rfl, rfl, rfl, rfl, rfl, rfl, rfl⟩
theorem test_decode_work_trace_traps : decode 0xA0010200 = .ok (.launch 1 2) ∧ decode 0xA1010200 = .ok (.tspawn 1 2) ∧
    decode 0xA2000102 = .ok (.tdep 1 2) ∧ decode 0xA3000000 = .ok .regionClose ∧ decode 0xA3010000 = .ok .regionOpen ∧
    decode 0xB0FF0100 = .ok (.mark 255 1) ∧ decode 0xB1020700 = .ok (.trctlDrain 7) ∧ decode 0xC0000123 = .ok (.trap 0x123) ∧
    decode 0xC1090500 = .ok (.swrite 9 5) ∧ decode 0xC2000000 = .ok .tret := by refine ⟨rfl, rfl, rfl, rfl, rfl, rfl, rfl, rfl, rfl, rfl⟩
theorem test_decode_refuses : decode 0 = .error .unassigned ∧ decode 0x0F000000 = .error .unassigned ∧ decode 0x01000001 = .error .zeroField ∧
    decode 0x12400405 = .error .scalarField ∧ decode 0x56010304 = .error .group ∧ decode 0x64100600 = .error .handleField ∧
    decode 0x76400100 = .error .handleField ∧ decode 0x65070100 = .error .codeField ∧ decode 0x65000000 = .error .codeField ∧
    decode 0xA3020000 = .error .codeField := by refine ⟨rfl, rfl, rfl, rfl, rfl, rfl, rfl, rfl, rfl, rfl⟩
/-- The first byte of a word is its lowest (R4). -/
theorem test_decode_table_word : decodeTableWord 32 0x12030405 = some (.sadd 3 4 5) ∧
    (start (.sadd 3 4 5)).mem = [(0x10000, 0x05), (0x10001, 0x04), (0x10002, 0x03), (0x10003, 0x12)] := by decide

/-! Single instructions, with results calculated by hand from the rules. -/
theorem test_step_runs_word : (match step (start (.sli 7 0xFFFE)) with
    | .next s => (s.crew? 0).map fun c => (c.pc, c.getS 7)
    | _ => none) = some (0x10004, 0xFFFFFFFFFFFFFFFE) := by decide
/-- BR by -1 word, BLKZ of an empty mask over 3 words, CALL's return address (R60, R104, R114). -/
theorem test_branches : (after (.br 0xFFFFFF) id).map (·.pc) = some 0xFFFC ∧ (after (.blkz 2 3) id).map (·.pc) = some 0x10010 ∧
    (after (.call 0x10) id).map (fun c => (c.pc, c.getS 63)) = some (0x10040, 0x10004) ∧
    (after (.brnz 5 1) (·.setS 5 1)).map (·.pc) = some 0x10004 := by decide
/-- SLIS inserts below, SADDI sign-extends, SSUB wraps (R124 to R126). -/
theorem test_scalar : (after (.slis 7 0x8001) (·.setS 7 0x12345)).map (·.getS 7) = some 0x123458001 ∧
    (after (.saddi 3 4 0xFF) (·.setS 4 5)).map (·.getS 3) = some 4 ∧ (after (.ssub 3 4 5) (·.setS 5 1)).map (·.getS 3) = some 0xFFFFFFFFFFFFFFFF ∧
    (after (.sadd 0 4 4) (·.setS 4 1)).map (·.getS 0) = some 0 ∧
    (after (.ssra 3 4 5) fun c => (c.setS 4 0x8000000000000000).setS 5 68).map (·.getS 3) = some 0xF800000000000000 := by decide
/-- Division by zero, the signed overflow, rounding towards zero (R127); leading zeros of zero (R128). -/
theorem test_divisions : (after (.sdivs 3 4 0) (·.setS 4 5)).map (·.getS 3) = some 0xFFFFFFFFFFFFFFFF ∧
    (after (.sdivs 3 4 5) fun c => (c.setS 4 0x8000000000000000).setS 5 (-1)).map (·.getS 3) = some 0x8000000000000000 ∧
    (after (.sdivs 3 4 5) fun c => (c.setS 4 (-7)).setS 5 2).map (·.getS 3) = some (-3) ∧
    (after (.sclz 3 4) id).map (·.getS 3) = some 64 ∧ (after (.scnt 3 4) (·.setS 4 0xFF01)).map (·.getS 3) = some 9 := by decide
/-- MODE writes one quarter; a reserved bit is refused with a trap that ends the entry, since the team has no trap vector (R45, R117). -/
theorem test_mode : (after (.mode 0 0xFFFF) id).map (·.mode) = some 0xFFFF ∧ (after (.mode 1 0x7FFF) id).map (·.mode) = some 0x7FFF0000 ∧
    (after (.mode 1 0x8000) id).map (·.mode) ≠ some 0x80000000 := by decide
/-- 1.0 + 2.0 = 3.0 in f32; with GUARD the lane whose bit is clear keeps its value (R53, R139). -/
theorem test_vadd : (after (.vadd 1 2 3) fun c => (c.setV 2 0 0x3F800000).setV 3 0 0x40000000).map (·.getV 1 0) = some 0x40400000 ∧
    (after (.vadd 1 2 3) fun c => ((({ c with mode := 5 }.setS 5 2).setV 2 0 0x3F800000).setV 2 1 0x3F800000).setV 1 0 7).map
      (fun c => (c.getV 1 0, c.getV 1 1)) = some (7, 0x3F800000) := by decide
/-- f32: 3 * 5 + 1 = 16; s8 with SAT: 100 + 100 is 127, without it -56, kept in the low byte with the rest zero (R80, R139). -/
theorem test_vfma_and_narrowing :
    (after (.vfma 1 2 3) fun c => ((c.setV 2 0 0x40400000).setV 3 0 0x40A00000).setV 1 0 0x3F800000).map (·.getV 1 0) = some 0x41800000 ∧
    (after (.vadd 1 2 3) fun c => ({ c with mode := 0x20280 }.setV 2 0 100).setV 3 0 100).map (·.getV 1 0) = some 127 ∧
    (after (.vadd 1 2 3) fun c => ({ c with mode := 0x280 }.setV 2 0 100).setV 3 0 100).map (·.getV 1 0) = some 200 := by decide
/-- Compares make a mask of W bits; VLID writes lane numbers; VRED adds s32 lanes (R143, R147, R150). -/
theorem test_masks : (after (.vceq 1 2 3) fun c => ({ c with mode := 0x180 }.setV 2 4 9)).map (·.getS 1) = some 0xFFFFFFEF ∧
    (after (.vlid 1) id).map (fun c => (c.getV 1 0, c.getV 1 31, c.getV 1 32)) = some (0, 31, 0) ∧
    (after (.vred 1 2) fun c => ({ c with mode := 0x180 }.setV 2 4 9).setV 2 5 0xFFFFFFFF).map (·.getS 1) = some 8 := by decide
/-- VCMPR packs the selected lanes; VSLUP moves lanes up; VCVT of f32 1.5 to s32 rounds to even (R148, R151, R152). -/
theorem test_rearrangement : (after (.vcmpr 1 2 3) fun c => (c.setS 3 0x14).setV 2 4 9).map (fun c => (c.getV 1 0, c.getV 1 1)) = some (0, 9) ∧
    (after (.vslup 1 2 3) fun c => (c.setS 3 2).setV 2 4 9).map (fun c => (c.getV 1 6, c.getV 1 4)) = some (9, 0) ∧
    (after (.vcvt 1 2) fun c => { c with mode := 0x180 }.setV 2 0 0x3FC00000).map (·.getV 1 0) = some 2 := by decide
/-- BAR of a team of one crew is complete at once; SEMRD reads a count (R244, R322). -/
theorem test_barrier_and_semaphore : ((after (.bar 3) id).map fun c => (c.pc, c.wait)) = some (0x10004, .none) ∧
    (match exec (.semrd 1 2) ((start (.semrd 1 2)).modTeam 0 fun t => { t with sems := Sparse.set t.sems 2 77 }) with
     | .next s => (s.crew? 0).map (·.getS 1)
     | _ => none) = some 77 := by decide

/-! Witnesses: for each statement with hypotheses, states and operands that meet them together, clause by clause. -/

/-- The crew of the current move is the one on its slot, and does not speculate. -/
def own (s : State) (c : Crew) : Bool := decide (s.crew? s.cur = some c ∧ c.spec = none)
/-- The first address of the scratchpad window. -/
def sp : DWord := 0xFFFF0000000000
/-- A region open since the first operation. -/
def aRegion : Region := { cp := { pc := 0, sregs := [], mode := 0, gang := 0, gangMarks := [], rndcnt := 0 }, first := 0, sems := [], opener := 0x10000 }
/-- An outstanding operation of crew 0. -/
def anOp (k : OpKind) (cls : Option Cls) (as : List Acc := []) : Op := { crew := 0, team := 0, core := 0, cls := cls, kind := k, accs := as }
/-- The state with one outstanding operation. -/
def withOp (s : State) (o : Op) : State := { s with ops := Tbl.put s.ops 0 o, nextOp := 1 }

theorem witness_StepKeepsMemoryCanonical : Machine.Inv (start (.sadd 3 4 5)) ∧ ∃ s', step (start (.sadd 3 4 5)) = .next s' := ⟨rfl, _, rfl⟩
theorem witness_DecodeOfEncode : (Instr.sadd 63 63 63).WellFormed ∧ encode (.sadd 63 63 63) = some 0x123F3F3F ∧
    (Instr.vpk4 255 254 0).WellFormed ∧ encode (.vpk4 255 254 0) = some 0x56FFFE00 := by decide
theorem witness_EncodeOfDecode : decode 0x56FFFE00 = .ok (.vpk4 255 254 0) := rfl
theorem witness_ReservedWordsRejected :
    (opcodeOf 0).toNat ∉ [1, 2, 3, 4, 5, 6, 7, 8, 9, 10, 11, 12, 13, 14] ++ (List.range 17).map (16 + ·) ++ (List.range 24).map (48 + ·) ++
      (List.range 8).map (80 + ·) ++ (List.range 8).map (96 + ·) ++ (List.range 10).map (112 + ·) ++ (List.range 8).map (128 + ·) ++
      (List.range 14).map (144 + ·) ++ [160, 161, 162, 163, 176, 177, 192, 193, 194] ∧
    ((0 : BitVec 8) ≠ 0 ∨ (0 : BitVec 8) ≠ 0 ∨ (1 : BitVec 8) ≠ 0) ∧ (64 ≤ (64 : BitVec 8).toNat ∨ 64 ≤ (0 : BitVec 8).toNat ∨ 64 ≤ (0 : BitVec 8).toNat) ∧
    ((1 : BitVec 8).getLsbD 0 = true ∨ (0 : BitVec 8).getLsbD 0 = true) ∧ 64 ≤ (64 : BitVec 8).toNat ∧ 6 < (7 : BitVec 8).toNat := by decide
theorem witness_StepRunsDecodedInstruction : ∃ s k rest c t w i, s.schedule = .crew k :: rest ∧
    let s1 := { tick s with schedule := rest, cur := k, promoted := setDel s.promoted k }
    s1.crew? k = some c ∧ s1.team? c.team = some t ∧ fetch s1 t c.pc = .word w ∧ decodeBytes (bytesOfWord w) = .ok (i, []) ∧
    chosen { tick s with schedule := rest } k c = true :=
  ⟨start (.sadd 3 4 5), 0, [], _, _, 0x12030405, .sadd 3 4 5, rfl, rfl, rfl, rfl, rfl, by decide⟩
theorem witness_CrewInstructionsAnswer : (encode (.sadd 3 4 5)).isSome = true ∧ ∃ c t, (start (.sadd 3 4 5)).crew? 0 = some c ∧
    (start (.sadd 3 4 5)).team? c.team = some t := ⟨rfl, _, _, rfl, rfl⟩
/-- The hypotheses of ReadyWhenUnhindered and FailedCheckTraps, in the state that `withFetchWord` gives. -/
def found (s : State) (p : Crew → Team → Bool) : Bool :=
  match s.crew? s.cur with
  | some c => match s.team? c.team with | some t => p c t | none => false
  | none => false
theorem witness_ReadyWhenUnhindered : let s := start (.tilez 63)
    found s (fun c t => decide (c.started = true ∧ c.wait = .none ∧ c.pending = none ∧ c.spec = none ∧ c.held = [] ∧ c.stalled = none ∧
      c.stallSum = 0 ∧ coreOwned s (coreOf s.cur) = true ∧ c.region = none ∧ t.halt = .running ∧ s.ops = [] ∧ s.fabric.items = [] ∧ s.fabric.starved = false ∧ (needOf s (.tilez 63) c t).waits = false) &&
      (firstFail t (needOf s (.tilez 63) c t)).isNone) = true := by decide
/-- The hypotheses of FailedCheckTraps that do not name the check. -/
def checked (s : State) (i : Instr) (p : Need → Team → Bool) : Bool :=
  found s fun c t => (encode i).isSome && !blocked s s.cur c t && c.started && !traceHeld s s.cur c && !hazard s s.cur c (needOf s i c t) &&
    p (needOf s i c t) t
theorem witness_FailedCheckTraps :
    checked ((start (.vadd 1 2 3)).modCrew 0 fun c => { c with mode := 0x380 }) (.vadd 1 2 3) (fun n _ => !n.ok) = true ∧
    checked ((start (.vadd 1 2 16)).modTeam 0 fun t => { t with nvreg := 16 }) (.vadd 1 2 16)
      (fun n t => n.ok && (n.reads ++ n.writes).any fun r => decide (t.nvreg ≤ r)) = true ∧
    checked ((start (.tilez 0)).modTeam 0 fun t => { t with ntile := 0 }) (.tilez 0)
      (fun n t => n.ok && ((n.reads ++ n.writes).all fun r => decide (r < t.nvreg)) && (n.handles.find? fun h => !h.2).isSome) = true := by decide
theorem witness_ZeroRegister : (63 : SReg) ≠ 0 ∧ (0 : SReg) ≠ 63 ∧ 64 ≤ (64 : BitVec 8).toNat := by decide
theorem witness_ScalarArithmetic : ([.sli 63 0x8000, .slis 63 0xFFFF, .sadd 63 0 63, .ssub 0 63 63, .smul 1 2 3, .sand 1 2 3, .sor 1 2 3, .sxor 1 2 3,
    .sshl 1 2 3, .sshr 1 2 3, .ssra 1 2 3, .sslt 1 2 3, .saddi 1 2 0x80] : List Instr).all (can ·) = true := by decide
theorem witness_ScalarDivisionsAndCounts :
    ([.sdivs 1 2 0, .sdivn 1 2 0, .scnt 1 2, .sclz 1 0] : List Instr).all (can · fun _ c _ => decide (c.getS 0 = 0)) = true ∧
    can (.sdivs 1 2 3) (fun _ c _ => decide (c.getS 2 = BitVec.intMin 64 ∧ c.getS 3 = -1)) (fun c => (c.setS 2 (BitVec.intMin 64)).setS 3 (-1)) = true ∧
    can (.sdivs 1 2 3) (fun _ c _ => decide (c.getS 3 ≠ 0 ∧ (c.getS 2 = BitVec.intMin 64 → c.getS 3 ≠ -1))) (fun c => (c.setS 2 (-7)).setS 3 2) = true ∧
    can (.sdivn 1 2 3) (fun _ c _ => decide (c.getS 3 ≠ 0)) (·.setS 3 (-1)) = true ∧
    can (.sclz 1 2) (fun _ c _ => decide (c.getS 2 ≠ 0)) (·.setS 2 1) = true := by decide
theorem witness_ControlTransfers : can .nop = true ∧
    can (.br 0xFFC000) (fun _ c _ => targetOk (c.pc.toNat + 4 * (0xFFC000 : BitVec 24).toInt)) = true ∧
    can (.call 0xFFC000) (fun _ c _ => targetOk (c.pc.toNat + 4 * (0xFFC000 : BitVec 24).toInt)) = true ∧
    can (.brz 5 0xC000) (fun _ c _ => decide (c.getS 5 = 0) && targetOk (c.pc.toNat + 4 * (0xC000 : BitVec 16).toInt)) = true ∧
    can (.brz 5 0x8000) (fun _ c _ => decide (c.getS 5 ≠ 0)) (·.setS 5 1) = true ∧
    can (.brnz 5 0xC000) (fun _ c _ => decide (c.getS 5 ≠ 0) && targetOk (c.pc.toNat + 4 * (0xC000 : BitVec 16).toInt)) (·.setS 5 1) = true ∧
    can (.brnz 5 0x8000) (fun _ c _ => decide (c.getS 5 = 0)) = true ∧
    can .ret (fun _ c _ => decide ((c.getS 63).toNat < 2 ^ 56 ∧ (c.getS 63).toNat % 4 = 0)) (·.setS 63 0xFFFFFFFFFFFFFC) = true ∧
    can (.jr 7) (fun _ c _ => decide ((c.getS 7).toNat < 2 ^ 56 ∧ (c.getS 7).toNat % 4 = 0)) (·.setS 7 0xFFFFFFFFFFFFFC) = true ∧
    can (.blkz 5 0xFFFF) (fun _ c t => decide (maskOf t.width (c.getS 5) = 0 ∧ c.pc.toNat + 4 + 4 * 0xFFFF < 2 ^ 56)) (·.setS 5 0x100000000) = true ∧
    can (.blkz 5 0xFFFF) (fun _ c t => decide (maskOf t.width (c.getS 5) ≠ 0)) (·.setS 5 0x80000000) = true := by decide
theorem witness_BadTargetsTrap :
    ([.br 0xFFBFFF, .call 0xFFBFFF] : List Instr).all (can · fun s c _ => own s c && !targetOk (c.pc.toNat + 4 * (0xFFBFFF : BitVec 24).toInt)) = true ∧
    can (.brz 5 0xBFFF) (fun s c _ => own s c && decide (c.getS 5 = 0) && !targetOk (c.pc.toNat + 4 * (0xBFFF : BitVec 16).toInt)) = true ∧
    can (.brnz 5 0xBFFF) (fun s c _ => own s c && decide (c.getS 5 ≠ 0) && !targetOk (c.pc.toNat + 4 * (0xBFFF : BitVec 16).toInt)) (·.setS 5 1) = true ∧
    can (.jr 7) (fun s c _ => own s c && decide (2 ^ 56 ≤ (c.getS 7).toNat)) (·.setS 7 0x100000000000000) = true ∧
    can (.jr 7) (fun s c _ => own s c && decide ((c.getS 7).toNat % 4 ≠ 0)) (·.setS 7 3) = true ∧
    can .ret (fun s c _ => own s c && decide (2 ^ 56 ≤ (c.getS 63).toNat)) (·.setS 63 0x100000000000000) = true ∧
    can .ret (fun s c _ => own s c && decide ((c.getS 63).toNat % 4 ≠ 0)) (·.setS 63 1) = true ∧
    can (.blkz 5 0) (fun s c t => own s c && decide (maskOf t.width (c.getS 5) = 0 ∧ 2 ^ 56 ≤ c.pc.toNat + 4 + 4 * 0))
      (fun c => { c with pc := 0xFFFFFFFFFFFFFC }) = true := by decide
theorem witness_ModeAndSpecialRegisters : can (.mode 0 0xFFFF) = true ∧ can (.mode 3 0) = true ∧ can (.moder 63 0) = true ∧
    can (.moder 0 1) (fun _ c _ => decide (c.getS 1 = 0x7FFFFFFF)) (·.setS 1 0x7FFFFFFF) = true ∧
    ([0, 1, 2, 3, 4, 5, 6, 7, 8, 9, 0xA, 0xB, 0xC, 0xD, 0x10, 0x11, 0x12, 0x13, 0x14, 0x15, 0x16, 0x17] : List (BitVec 8)).all
      (fun i => can (.sread 1 i) fun s _ t => (Tbl.get? s.entries t.entry).isSome && (Tbl.get? s.ctxs t.ctx).isSome) = true := by decide
theorem witness_WaitsAndEnd_waits :
    can (.wait 0 0 0 0) (fun s c _ => decide (c.held = [] ∧ classCount s s.cur .load ≤ 0 ∧ classCount s s.cur .store ≤ 0 ∧
      classCount s s.cur .copy ≤ 0 ∧ classCount s s.cur .tile ≤ 0)) = true ∧
    meets (withOp (start (.wait 0 63 63 63)) (anOp .load (some .load))) (.wait 0 63 63 63) (fun s _ _ => decide (0 < classCount s s.cur .load)) = true ∧
    can (.waitr 0 3) (fun s c _ => decide (c.held = [] ∧ classCount s s.cur .load ≤ 63 ∧ classCount s s.cur .store ≤ 63 ∧
      classCount s s.cur .copy ≤ 63 ∧ classCount s s.cur .tile ≤ min (c.getS 0).toNat 63)) = true ∧
    meets (withOp (start (.waitr 0 0)) (anOp .load (some .load))) (.waitr 0 0)
      (fun s c _ => decide (min (c.getS 0).toNat 63 < classCount s s.cur .load)) = true := by decide
/-- A team of two crews. -/
def twoCrews (i : Instr) : State :=
  { (start i).modTeam 0 fun t => { t with crews := [0, 1] } with crews := Tbl.put (start i).crews 1 { team := 0, idx := 1, pc := 0x10000 } }
theorem witness_WaitsAndEnd_end : ∃ s s1 c t, ready s .endCrew = some (s1, c, t) ∧ c.held = [] ∧ c.region = none ∧
    (∀ p ∈ s1.ops, p.2.crew ≠ s1.cur) ∧ s1.wideMsgs = [] ∧
    (∀ ev arg, delivers s1 (funcOfTeam s1 c.team) (coreOf s1.cur / 32) ev arg false (some c) = false) ∧ (s1.core (coreOf s1.cur)).trivet = [] ∧
    s1.crew? s1.cur = some c ∧ s1.team? c.team = some t ∧
    ∃ k ∈ t.crews, k ≠ s1.cur ∧ k ∉ t.ended ∧ ∃ x, s1.crew? k = some x ∧ x.wait = .none ∧ x.spec = none :=
  ⟨twoCrews .endCrew, _, _, _, rfl, by decide, by decide, by decide, by decide, fun _ _ => rfl, by decide, by decide, by decide, 1, by decide, by decide,
    by decide, _, rfl, rfl, rfl⟩
theorem witness_VectorArithmetic : ([.vadd 255 0 1, .vsub 1 2 3, .vmul 1 2 3, .vfma 1 1 1, .vmin 1 2 3, .vmax 1 2 3, .vlid 255] : List Instr).all
      (can · (fun _ _ t => decide (t.width ≤ 64)) id fun t => { t with width := 64 }) = true ∧
    ([.vadd 1 2 3, .vsub 1 2 3, .vmul 1 2 3, .vfma 1 2 3, .vmin 1 2 3, .vmax 1 2 3, .vshl 1 2 3, .vshr 1 2 3] : List Instr).all
      (can · (fun _ c t => decide (t.width ≤ 64) && !floats c.mode) (fun c => { c with mode := 0x200 })) = true := by decide
theorem witness_VectorUnits : ([.vand 1 2 3, .vor 1 2 3, .vxor 255 0 255, .vmov 1 2, .vbcs 1 63, .vslup 1 2 3, .vsldn 1 2 3] : List Instr).all
      (can · fun _ _ t => decide (t.width ≤ 64)) = true ∧
    ([.vand 2 4 6, .vmov 254 252, .vbcs 2 63, .vslup 2 4 3, .vsldn 2 4 3] : List Instr).all
      (can · (fun _ c t => decide (t.width ≤ 64 ∧ tyOf c.mode = 13)) fun c => { c with mode := 0x340 }) = true := by decide
theorem witness_VectorSelection : ([.vcmpr 1 2 3, .vexpd 1 2 3, .vperm 1 2 3] : List Instr).all (can · (fun _ c t => decide (t.width ≤ 64 ∧
    31 < t.width ∧ c.isActive t.width 1 = true ∧ (c.getS 3).getLsbD 31 = true ∧ (c.getS 3).getLsbD 2 = false ∧
    ((List.range 31).filter (c.getS 3).getLsbD).length = 1)) (·.setS 3 0x80000001)) = true := by decide
theorem witness_VectorToScalar : ([.vceq 1 2 3, .vclt 1 2 3, .vcle 1 2 3] : List Instr).all (can · fun _ _ t => decide (t.width ≤ 64)) = true ∧
    can (.vext 1 2 3) (fun _ c t => decide ((c.getS 3).toNat < t.width)) (·.setS 3 31) = true ∧
    can (.vext 1 2 3) (fun s c t => own s c && decide (t.width ≤ (c.getS 3).toNat)) (·.setS 3 32) = true ∧
    can (.vred 1 2) (fun _ c t => decide (mRedop c.mode = 0 ∧ floats c.mode = true ∧ c.actives t.width ≠ [])) = true ∧
    ([(0x180, 0), (0x100180, 1), (0x200180, 2), (0x300180, 3), (0x400180, 4), (0x500180, 5)] : List (DWord × BitVec 3)).all (fun m =>
      can (.vred 1 2) (fun _ c t => decide (mRedop c.mode = m.2 ∧ floats c.mode = false ∧ c.actives t.width ≠ [])) fun c => { c with mode := m.1 }) = true := by
  decide
theorem witness_VectorConversions : can (.vcvt 1 2) (fun _ _ t => decide (t.width ≤ 64)) (fun c => { c with mode := 0x180 }) = true ∧
    can (.vpk2 1 2 3) (fun _ _ t => decide (t.width ≤ 64)) (fun c => { c with mode := 0x40 }) = true ∧
    can (.vpk4 1 2 4) (fun _ c t => decide (t.width ≤ 64 ∧ tyOf c.mode ≠ 5)) (fun c => { c with mode := 0x1A80 }) = true ∧
    can (.vupk 1 2 3) (fun _ _ t => decide (t.width ≤ 64)) (fun c => { c with mode := 0x280 }) = true := by decide
theorem witness_VectorSpecialFunctions : ([.vrcp 1 2, .vrsq 1 2, .vexp2 1 2, .vlog2 1 2] : List Instr).all (can · fun _ c t =>
    decide (t.width ≤ 64 ∧ c.isActive t.width 31 = true ∧ (1 : Nat) ≠ (2 : VReg).toNat)) = true ∧ (5 : Nat) ≠ 0 := by decide
theorem witness_NarrowingIsExact : isInt 10 = true ∧ (intLo 10 ≤ -128 ∧ (-128 : Int) ≤ intHi 10) ∧ (-129 : Int) < intLo 10 ∧ intHi 10 < 128 := by decide
theorem witness_RoundingIsExactOnCodes : 0x7F800000 < 2 ^ (fmtOf 0).bits ∧ readF (fmtOf 0) false 0x7F800000 ≠ .nan ∧ readF (fmtOf 5) false 15 ≠ .nan := by
  decide

/-- The team with a data page at 0x20000 that it may read and write. -/
def paged (t : Team) : Team :=
  { t with extents := { range := 0, vlo := 0x20000, vhi := 0x30000, plo := 0x20000, r := true, w := true, present := true } :: t.extents }
/-- Base register s2 at the scratchpad. -/
def base (c : Crew) : Crew := c.setS 2 sp
/-- Lane 0 alone is active, under guard s5. -/
def oneLane (c : Crew) : Crew := { c with mode := c.mode ||| 5 }.setS 5 1
/-- The hypotheses of LoadsIssue and StoresIssue on the faults of the active lanes. -/
def fine (ld st : Bool) (c : Crew) (t : Team) : Bool := (c.actives t.width).all fun l =>
  (accessFaults t ld st true true (memSize c.mode) (laneAddr c 2 3 l).toNat (memSize c.mode)).isEmpty
/-- Those on the elements of a box. -/
def fineBox (ld st : Bool) (c : Crew) (t : Team) (d : VReg) (h : BitVec 4) (b : SReg) : Bool :=
  match Tbl.get? t.shapes h.toNat with
  | some sh => decide (shapeHeld c h.toNat = false ∧ sh.boxr + 1 ≤ 16 ∧ d.toNat + sh.boxr < t.nvreg ∧ b.toNat + sh.rank - 1 ≤ 63 ∧
      boxElems c t sh b ≠ []) && (boxElems c t sh b).all fun x => match x.va with
        | some va => (accessFaults t ld st true true 1 va sh.z).isEmpty
        | none => true
  | none => false
theorem witness_LoadsIssue : can (.ld 255 2 3) (fun _ c t => decide (c.spec = none ∧ c.actives t.width ≠ []) && fine true false c t) base = true ∧
    can (.ld 1 2 3) (fun _ c t => decide (c.actives t.width = [])) (fun c => { c with mode := 5 }) = true ∧
    can (.ldt 255 15 63) (fun _ c t => decide (c.spec = none) && fineBox true false c t 255 15 63) = true := by decide
/-- The accesses of a store, in each of the four ways that it issues. -/
def stores (i : Instr) (p : Crew → Team → Bool) (accs : Crew → Team → List Acc) : Bool :=
  can i (fun _ c t => p c t && decide (accs c t ≠ [] ∧ mOrd c.mode ≠ 2 ∧ (∀ a ∈ accs c t, inMirror a.va = false) ∧ c.region = none ∧ c.spec = none)) base &&
  can i (fun _ c t => p c t && decide (accs c t ≠ [] ∧ mOrd c.mode = 2 ∧ c.spec = none)) (fun c => { base c with mode := 0x8000000 }) &&
  can i (fun s c t => p c t && decide (accs c t ≠ [] ∧ mOrd c.mode ≠ 2 ∧ (∀ a ∈ accs c t, inMirror a.va = false) ∧ c.region ≠ none ∧
    bufferRoom s s.cur c (accs c t) = true)) (fun c => { base c with region := some aRegion }) &&
  can i (fun _ c t => p c t && decide (accs c t = [])) fun c => { base c with mode := 5 }
theorem witness_StoresIssue : stores (.st 255 2 3) (fine false true) (fun c t => keepLast ((c.actives t.width).map fun l =>
      { mkAcc t false true l 0 (laneAddr c 2 3 l).toNat (memSize c.mode) with data := stData c 255 l })) = true ∧
    can (.st 255 2 3) (fun _ c t => fine false true c t && decide (c.spec = none) && inMirror (laneAddr c 2 3 0).toNat)
      (fun c => c.setS 2 0xFFFF0100000000) (fun t => { t with group := [0] }) = true ∧
    stores (.stt 255 15 6) (fun c t => (c.actives t.width).isEmpty || fineBox false true c t 255 15 6) (fun c t => match Tbl.get? t.shapes 15 with
      | some sh => keepLast ((boxElems c t sh 6).filterMap fun x => x.va.map fun va =>
        { mkAcc t false true x.lane x.e va sh.z with
          data := ((c.getV (255 + x.row) x.lane >>> (8 * sh.z * x.e)).setWidth 64) &&& (BitVec.allOnes 64 >>> (64 - 8 * sh.z)) })
      | none => []) = true := by decide
/-- A fault other than a demand fault. -/
def faulty (s : State) (c : Crew) (cs : List Check) : Bool := own s c && match laneFault cs with | some f => decide (f.1 ≠ .demand) | none => false
theorem witness_AccessFaultsTrap :
    can (.ld 1 2 3) (fun s c t => faulty s c (laneChecks t true false true true (memSize c.mode) (memSize c.mode) (laneAddrs c t 2 3))) = true ∧
    can (.st 1 2 3) (fun s c t => faulty s c (laneChecks t false true true true (memSize c.mode) (memSize c.mode) (laneAddrs c t 2 3)))
      (·.setS 2 0x10000) = true ∧
    can (.shape 1 2) (fun s c t => faulty s c (laneChecks t true false true false 64 64 [(0, (c.getS 2).toNat)])) (·.setS 2 (sp + 1)) = true ∧
    can (.cpy8 1 2 4) (fun s c t => faulty s c (laneChecks t true false true false 8 8 (pairAddrs c t 4) ++
      laneChecks t false true true false 8 8 (pairAddrs c t 2))) = true ∧
    can (.aadd 1 2 3) (fun s c t => faulty s c (atomicChecks .add c.mode t (laneAddrs c t 2 3))) (fun c => { c with mode := 0x180 }) = true ∧
    can (.acas 2 2 3) (fun s c t => faulty s c (atomicChecks .cas c.mode t (laneAddrs c t 2 3))) (fun c => { c with mode := 0x300 }) = true := by decide
/-- `Outside`, decided. -/
def outside (s : State) (c : Crew) : Bool := own s c && decide (c.region = none ∧ c.buf = [] ∧ c.fenceAt = none)
theorem witness_ShapesFencesRegions :
    can (.shape 15 2) (fun _ c t => decide (accessFaults t true false true false 64 (c.getS 2).toNat 64 = [])) base = true ∧
    can (.pref 1 2 3) = true ∧ can (.flush 1 0) (fun _ c _ => decide (c.getS 0 = 0)) = true ∧
    can (.flush 1 2) (fun _ c t => decide (c.getS 2 ≠ 0 ∧ (c.getS 2).toNat ≤ 2 ^ 32 ∧ (c.getS 1).toNat + (c.getS 2).toNat ≤ 0xFFFF0000000000 ∧
      (c.getS 1).toNat + (c.getS 2).toNat ≤ coveredTo t.extents t.extents.length (c.getS 1).toNat)) (fun c => (c.setS 1 0x20001).setS 2 0xFFFF) paged = true ∧
    can (.fence 0 3) (fun s c _ => outside s c) = true ∧ can (.fence 6 3) (fun s c _ => outside s c && decide (s.ops = [])) = true ∧
    meets (withOp (start (.fence 6 1)) (anOp .load (some .load) [{}])) (.fence 6 1)
      (fun s _ _ => s.ops.any fun p => p.2.crew == s.cur && p.2.kind == .load && !p.2.performed) = true ∧
    can .regionClose (fun _ c _ => decide (c.region ≠ none ∧ c.buf ≠ [])) (fun c => { c with region := some aRegion, buf := [{}] }) = true ∧
    can .regionOpen (fun _ c _ => decide (c.region = none)) = true ∧
    can .regionClose (fun s c _ => own s c && decide (c.region = none)) = true := by decide
/-- One active lane whose pairs v2 and v4 hold an address. -/
def pairs (hi lo : Word) (c : Crew) : Crew := ((((oneLane c).setV 2 0 lo).setV 3 0 hi).setV 4 0 lo).setV 5 0 hi
theorem witness_CopiesIssue : ([(.cpy4 63 2 4, 4), (.cpy8 63 2 4, 8), (.cpy16 63 2 4, 16)] : List (Instr × Nat)).all (fun i =>
      ([(0xFFFF00, 0xFFF0), (0, 0x20000)] : List (Word × Word)).all fun v =>
        can i.1 (fun _ c t => decide (c.actives t.width ≠ []) && (c.actives t.width).all fun l =>
          (accessFaults t true false true false i.2 (c.getPair 4 l).toNat i.2).isEmpty &&
          (accessFaults t false true true false i.2 (c.getPair 2 l).toNat i.2).isEmpty) (pairs v.1 v.2) paged) = true ∧
    ([sp, sp + 0x8000000000000000] : List DWord).all (fun w => can (.cpyt 63 15 6) (fun _ c t => match Tbl.get? t.shapes 15 with
      | some sh => let w := c.getS (sregAt 6 sh.rank)
        decide (shapeHeld c 15 = false ∧ 6 + sh.rank ≤ 63 ∧ w.extractLsb' 56 7 = 0 ∧ (w.extractLsb' 0 56).toNat % 16 = 0) &&
          (tensorFault t sh (w.extractLsb' 0 56).toNat (w.getLsbD 63) (tensorElems c sh 6 (w.extractLsb' 0 56).toNat)).isNone
      | none => false) (·.setS 7 w)) = true := by decide
/-- A semaphore holds a count. -/
def held (d n : Nat) (t : Team) : Team := { t with sems := Sparse.set t.sems d (BitVec.ofNat 32 n) }
/-- The hypotheses on the team and the line of a semaphore. -/
def noLine (s : State) (c : Crew) (t : Team) (d : Nat) : Bool := decide (s.team? c.team = some t) && t.semWait.all fun x => decide (x.1 ≠ d)
theorem witness_Semaphores :
    can (.semset 63 1) (fun s c t => outside s c && decide (s.team? c.team = some t ∧ s.ops = [] ∧ (c.getS 1).toNat < 2 ^ 32)) (·.setS 1 0xFFFFFFFF) = true ∧
    can (.semset 63 1) (fun s c _ => own s c && decide (2 ^ 32 ≤ (c.getS 1).toNat)) (·.setS 1 0x100000000) = true ∧
    can (.semacq 63 0) (fun s c t => noLine s c t 63 && decide (1 ≤ (Sparse.get t.sems 63).toNat)) id (held 63 1) = true ∧
    can (.semacq 63 1) (fun s c t => noLine s c t 63 && decide (0 < (c.getS 1).toNat ∧ (c.getS 1).toNat ≤ (Sparse.get t.sems 63).toNat)) (·.setS 1 5) (held 63 5) = true ∧
    can (.semacq 63 1) (fun _ c _ => decide (c.getS 1 = 0)) = true ∧
    can (.semacq 63 1) (fun s c t => noLine s c t 63 && decide ((Sparse.get t.sems 63).toNat < (c.getS 1).toNat ∧ (c.getS 1).toNat < 2 ^ 32))
      (·.setS 1 0xFFFFFFFF) (held 63 0xFFFFFFFE) = true ∧
    can (.semtry 1 63) (fun s c t => noLine s c t 63 && decide ((Sparse.get t.sems 63).toNat ≠ 0)) id (held 63 1) = true ∧
    can (.semtry 1 63) (fun _ _ t => decide ((Sparse.get t.sems 63).toNat = 0)) = true ∧ can (.semrd 1 63) = true := by decide
theorem witness_BinsAndBulk :
    can (.binw 1 2 3) (fun _ c t => decide ((c.getS 3).extractLsb' 56 8 = 0 ∧ ((c.getS 3).extractLsb' 0 6).toNat < t.nsem ∧ c.actives t.width ≠ []) &&
      (binChecks c t 2 (((c.getS 3).extractLsb' 6 50).toNat * 64)).all fun k =>
        k.faults.isEmpty && counterPage (mkAcc t true (k.access != 0) 0 0 k.va 32)) (fun c => (oneLane c).setS 3 0x2003F) paged = true ∧
    ([0, 0x1000000] : List Nat).all (fun w => meets (putList false (((start (.bulk 1 2)).modCrew 0 (·.setS 2 0x20000)).modTeam 0 paged) 0x20000 (leBytes 4 w))
      (.bulk 1 2) fun s c t => (accessFaults t true false true false 64 (c.getS 2).toNat 64).isEmpty &&
        match readNow s s.cur c (mkAcc t true false 0 0 (c.getS 2).toNat 64) with
        | some (.ok (r, bad)) => !bad && decide (cmdOp r ≠ 3 ∧ c.region = none ∧ s.crew? s.cur = some c) &&
            ((cmdSpans r none (coreOf s.cur / 32)).all fun p => (accessFaults t (!p.st) p.st false false 1 p.va p.len).isEmpty)
        | _ => false) = true := by decide
theorem witness_MatrixStepsIssue : can (.tilez 63) = true ∧
    can (.tld 63 2) (fun s c t => (scratchFault t (c.getS 2).toNat 128 4096 0).isNone && scratchReady s s.cur c (scratchAccs t (c.getS 2).toNat 4096))
      (·.setS 2 (sp + 0xF000)) = true ∧
    ([0x440, 0x1540] : List DWord).all (fun m => can (.mmas 63 2 2) (fun s c t => let f4 := tyOf c.mode == 5
      (scratchFault t (c.getS 2).toNat 64 (blockBytes4 f4 (mRows c.mode)) 0).isNone && (scratchFault t (c.getS 2).toNat 64 (blockBytes4 f4 32) 0).isNone &&
      scratchReady s s.cur c (scratchAccs t (c.getS 2).toNat (blockBytes4 f4 (mRows c.mode)) ++ scratchAccs t (c.getS 2).toNat (blockBytes4 f4 32)))
      fun c => { base c with mode := m }) = true ∧
    can (.tdrn 63 2) (fun _ c t => (scratchFault t (c.getS 2).toNat 16 (mRows c.mode * drainLen c.mode) 1).isNone) (·.setS 2 (sp + 0xF000)) = true ∧
    can (.tdrm 63 2 3) (fun _ c t => decide ((c.getS 3).toNat % 16 = 0 ∧ drainLen c.mode ≤ (c.getS 3).toNat ∧ (c.getS 3).toNat < 2 ^ 32) &&
      (List.range (mRows c.mode)).all fun i =>
        (accessFaults t false true false false 16 ((c.getS 2).toNat + i * (c.getS 3).toNat) (drainLen c.mode)).isEmpty)
      (fun c => { c with mode := 0x20000000 }.setS 2 0x20000 |>.setS 3 128) paged = true ∧
    can (.tdrp 63 2) (fun s c t => let w := c.getS 2
      outside s c && (decide (0 < (s.core (coreOf s.cur)).granted) || !(s.func (funcOfTeam s c.team)).trace.cfg.getLsbD 0) &&
      (match Tbl.get? s.entries t.entry with | some e => decide ((w.extractLsb' 32 32).toNat < e.rec_.teams) | none => false) &&
      !w.getLsbD 30 && w.extractLsb' 22 2 == 0 && w.extractLsb' 11 5 == 0) (·.setS 2 0x3F3F07FF) = true := by decide

/-- GANG's conditions, decided. -/
def fineGang (c : Crew) (t : Team) (g : DWord) : Bool := g == 0 || (decide (2 ≤ gangN g ∧ gangN g ≤ 6) &&
  ((List.range 6).all fun i => decide (i < gangN g) || gangAt g i == 0) && ((gangMembers g).all fun m => decide (m < t.crews.length)) &&
  (gangMembers g).eraseDups == gangMembers g && (gangMembers g).contains c.idx)
/-- A gang of crews 0 and 1. -/
def pairGang : DWord := 0x200000020
/-- The state of a gang member's MMAG, with the arrivals that already wait at the Trivet. -/
def gangState (here : List Arrival) : State :=
  let s := twoCrews (.mmag 62 2 0)
  let s := (s.modCrew 0 fun c => { base c with gang := pairGang, mode := 0x440 }).modCrew 1 fun c => { base c with gang := pairGang, mode := 0x440 }
  if here.isEmpty then s else s.modCore 0 fun k => { k with trivet := [{ team := 0, members := [0, 1], arrived := here }] }
/-- Crew 1's arrival record. -/
def otherArrival : Arrival := { crew := 1, gang := pairGang, tile := 62, mode := 0x440, reg := 0, addr := sp }
/-- MMAG's conditions, decided. -/
def mayArrive (s : State) (c : Crew) (t : Team) (here : List Arrival) : Bool :=
  outside s c && decide (2 ≤ gangN c.gang ∧ 62 + gangN c.gang ≤ t.ntile ∧ 0 + sliceRegs (tyOf c.mode == 5) t.width ≤ t.nvreg ∧
    scratchFault t (c.getS 2).toNat 64 (gangN c.gang * blockStride (tyOf c.mode == 5) (mRows c.mode)) 0 = none) && (c.gangMarks.all fun m => gangSet m.2 != gangSet c.gang) &&
  (match (s.core (coreOf s.cur)).trivet.find? fun r => r.team == c.team && r.members == gangSet c.gang with
   | some r => r.arrived == here
   | none => here.isEmpty) &&
  (t.crews.all fun k => match s.crew? k with | some x => !(gangSet c.gang).contains x.idx || x.wait != .ended | none => true) &&
  here.all fun x => x.agrees { crew := s.cur, gang := c.gang, tile := 62, mode := c.mode, reg := 0, addr := c.getS 2 }
/-- The entries of the Trivet that wait for a crew with another gang value. -/
def waiting (s : State) (c : Crew) (g : DWord) : List Rendezvous :=
  (s.core (coreOf s.cur)).trivet.filter fun r => listsCrew c.team c.idx r && r.arrived.all fun x => x.gang != g
theorem witness_GangInstructions :
    can (.gang 1) (fun s c t => waiting s c (c.getS 1) == [] && fineGang c t (c.getS 1)) = true ∧
    meets ((twoCrews (.gang 1)).modCrew 0 (·.setS 1 pairGang)) (.gang 1) (fun s c t => waiting s c (c.getS 1) == [] && fineGang c t (c.getS 1)) = true ∧
    meets ((twoCrews (.gang 1)).modCore 0 fun k => { k with trivet := [{ team := 0, members := [0, 1], arrived := [otherArrival] }] }) (.gang 1)
      (fun s c t => waiting s c (c.getS 1) != [] && fineGang c t (c.getS 1) && c.spec.isNone) = true ∧
    meets ((gangState []).modCrew 0 fun c => { c with gangMarks := [(4, pairGang)] }) (.mmag 62 2 0) (fun s c t => own s c &&
      decide (2 ≤ gangN c.gang ∧ 62 + gangN c.gang ≤ t.ntile ∧ 0 + sliceRegs (tyOf c.mode == 5) t.width ≤ t.nvreg ∧
        scratchFault t (c.getS 2).toNat 64 (gangN c.gang * blockStride (tyOf c.mode == 5) (mRows c.mode)) 0 = none ∧
        (c.gangMarks.find? fun m => gangSet m.2 == gangSet c.gang) = some (4, pairGang))) = true ∧
    can (.gang 1) (fun s c t => own s c && !fineGang c t (c.getS 1)) (·.setS 1 0x100000000) = true ∧
    meets (gangState []) (.mmag 62 2 0) (fun s c t => mayArrive s c t [] && decide (0 + 1 < (gangSet c.gang).length)) = true := by decide
/-- The arrivals at the entry when the second member comes. -/
def bothArrived (s : State) (c : Crew) : List Arrival :=
  [otherArrival, { crew := s.cur, gang := c.gang, tile := 62, mode := c.mode, reg := 0, addr := c.getS 2 }]
theorem witness_GangInstructions_last :
    meets (gangState [otherArrival]) (.mmag 62 2 0) (fun s c t => mayArrive s c t [otherArrival] && decide ((gangSet c.gang).length ≤ 1 + 1) &&
      !(s.func (funcOfTeam s c.team)).trace.cfg.getLsbD 0 && gangReady s t (bothArrived s c) &&
      (match s.crew? 1 with | some y => y.team == c.team && s.cur != 1 | none => false) &&
      (List.range (gangN c.gang)).all fun p => (arrivalOf s (bothArrived s c) c.gang p).isSome) = true := by decide
/-- An atomic that issues in every lane, with the MODE given. -/
def atomicIssues (i : Instr) (op : AtomicOp) (mode : DWord) : Bool :=
  can i (fun _ c t => !(c.actives t.width).isEmpty && (atomicChecks op c.mode t (laneAddrs c t 2 3)).all fun k => k.faults.isEmpty)
    (fun c => { c with mode := mode }.setS 2 0x20000) paged
theorem witness_AtomicsIssue : atomicIssues (.aadd 255 2 3) .add 0x1C0 = true ∧ atomicIssues (.amin 1 2 3) .min 0x1C0 = true ∧
    atomicIssues (.amax 1 2 3) .max 0x1C0 = true ∧ atomicIssues (.aand 1 2 3) .and 0x300 = true := by decide
theorem witness_AtomicsIssue_bits : atomicIssues (.aor 1 2 3) .or 0x300 = true ∧ atomicIssues (.axor 1 2 3) .xor 0x300 = true ∧
    atomicIssues (.axch 1 2 3) .xch 0x300 = true ∧ atomicIssues (.acas 254 2 3) .cas 0x300 = true := by decide
/-- A WAITC whose read answers, with the condition's outcome and the poison given. -/
def waitsOn (k : BitVec 3) (hit bad : Bool) (f : State → State) : Bool :=
  meets (f (((start (.waitc k 2 3)).modCrew 0 fun c => { c with mode := 0x180 }.setS 2 0x20000).modTeam 0 paged)) (.waitc k 2 3) fun s c t =>
    let z := atomicSize (tyOf c.mode)
    outside s c && (accessFaults t true false false false z (c.getS 2).toNat z).isEmpty &&
      match waitRead s s.cur c.team (mOrd c.mode == 1) (mkAcc t true false 0 0 (c.getS 2).toNat z) with
      | some (.ok (x, b)) => b == bad && (bad || condHolds k z x ((c.getS 3).toNat % 2 ^ (8 * z)) == hit)
      | _ => false
theorem witness_ConditionWaits : ([0, 3, 5] : List (BitVec 3)).all (fun k => waitsOn k true false id) = true ∧
    ([1, 2, 4] : List (BitVec 3)).all (fun k => waitsOn k false false id) = true ∧
    waitsOn 0 true true (fun s => { s with poison := [granOf 0x20000] }) = true ∧ (5 : BitVec 3).toNat < 6 := by decide
/-- An arrival's conditions, decided; `drop` says that the crew has left. -/
def mayBar (s : State) (c : Crew) (t : Team) (d : Nat) (drop : Bool) : Bool :=
  outside s c && decide (s.team? c.team = some t ∧ d < 128 ∧ Tbl.get? (Tbl.getD t.bars d {}).pend s.cur = none ∧ s.ops = []) &&
    (Tbl.getD t.bars d {}).dropped.contains s.cur == drop
theorem witness_BarrierArrivals : ([.bar 127, .bars 127, .bara 127, .bard 127] : List Instr).all (fun i =>
      meets (twoCrews i) i (fun s c t => mayBar s c t 127 false && decide ((Tbl.getD t.bars 127 {}).armed = false ∧ 0 + 1 ≠ t.crews.length ∧ c.rolled = none) &&
        !(s.func (funcOfTeam s c.team)).trace.cfg.getLsbD 0) &&
      can i (fun s c t => mayBar s c t 127 false && decide ((Tbl.getD t.bars 127 {}).armed = false ∧ 0 + 1 = t.crews.length)) &&
      can i (fun s c t => mayBar s c t 127 true) id (fun t => { t with bars := [(127, { dropped := [0] })] })) = true ∧
    can (.bari 127 1) (fun s c t => outside s c && decide (s.team? c.team = some t ∧ 0 < (c.getS 1).toNat ∧ (c.getS 1).toNat ≤ t.crews.length ∧
      (Tbl.getD t.bars 127 {}).armed = false ∧ (Tbl.getD t.bars 127 {}).arr < (c.getS 1).toNat)) (·.setS 1 1) = true ∧
    can (.bari 127 1) (fun s c _ => own s c && decide (c.getS 1 = 0)) = true ∧
    can (.bari 127 1) (fun s c t => own s c && decide (t.crews.length < (c.getS 1).toNat)) (·.setS 1 2) = true := by decide
/-- A team whose barrier 127 is due, its other crew waiting for the phase. -/
def dueState : State := ((twoCrews .nop).modTeam 0 fun t => { t with bars := [(127, { armed := true, e := 2, arr := 2 })] }).modCrew 1 fun c =>
  { c with wait := .barrier 127 1 }
theorem witness_BarrierPhases : found dueState (fun _ t => decide ((Tbl.getD t.bars 127 {}).armed = true ∧
      (Tbl.getD t.bars 127 {}).arr = (Tbl.getD t.bars 127 {}).e ∧ (127 : Nat) < 128)) = true ∧
    (match dueState.crew? 1 with | some c => decide (c.team = 0 ∧ c.spec = none ∧ c.wait = .barrier 127 1) | none => false) = true ∧
    found (twoCrews .nop) (fun _ t => decide ((Tbl.getD t.bars 127 {}).armed = false)) = true ∧
    found ((twoCrews .nop).modTeam 0 fun t => { t with bars := [(127, { armed := true, e := 2, arr := 1 })] })
      (fun _ t => decide ((Tbl.getD t.bars 127 {}).arr ≠ (Tbl.getD t.bars 127 {}).e)) = true := by decide
/-- The bytes of a small launch record (R334): entry and image 0x20000, 128 bytes of code, one team. -/
def launchBytes : List Byte :=
  leBytes 8 0x100000000020000 ++ leBytes 8 0 ++ leBytes 8 0x20000 ++ leBytes 4 128 ++ leBytes 4 128 ++ leBytes 2 1 ++ leBytes 2 1 ++ leBytes 2 1 ++
    [1, 32, 1, 0] ++ List.replicate 214 0
/-- The bytes of a task record (R349): the launch record at 0x20000, the counter at 0x20200. -/
def taskBytes : List Byte := leBytes 8 0x200000000020000 ++ leBytes 8 0x20200 ++ List.replicate 112 0
/-- A state with both records in memory and a register that names one. -/
def records (i : Instr) (va : DWord) : State :=
  putList false (putList false (((start i).modCrew 0 (·.setS 2 va)).modTeam 0 paged) 0x20000 launchBytes) 0x20100 taskBytes
/-- A record that the crew can read. -/
def readable (s : State) (c : Crew) (t : Team) (va n : Nat) (bs : List Byte) : Bool :=
  (accessFaults t true false true false n va n).isEmpty && match readNow s s.cur c (mkAcc t true false 0 0 va n) with
    | some (.ok (r, bad)) => !bad && decide (r = bs)
    | _ => false
theorem witness_WorkInstructions : launchOk launchBytes = true ∧ taskOk taskBytes = true ∧ launchOk (List.replicate 256 0) = false ∧
    meets (records (.launch 1 2) 0x20000) (.launch 1 2) (fun s c t => outside s c && readable s c t (c.getS 2).toNat 256 launchBytes) = true ∧
    meets (records (.launch 1 2) 0x21000) (.launch 1 2) (fun s c t => outside s c && readable s c t (c.getS 2).toNat 256 (List.replicate 256 0)) = true ∧
    meets (records (.tspawn 1 2) 0x20100) (.tspawn 1 2) (fun s c t => outside s c && readable s c t (c.getS 2).toNat 128 taskBytes &&
      readable s c t (taskOf taskBytes).lrec 256 launchBytes && decide (s.ops = [] ∧
        ownedBefore s s.nextOp (mkAcc t true true 0 0 (taskOf taskBytes).cnt 16).pa 16 = false) &&
      (taskChecks t (taskOf taskBytes)).all fun k => k.1.faults.isEmpty && (!k.2 || counterPage (mkAcc t true true 0 0 k.1.va 16))) = true ∧
    ([0xFFFFFFFF80000000, 0x7FFFFFFF] : List DWord).all (fun v => can (.tdep 1 2) (fun _ c t => decide (-(2 ^ 31) ≤ (c.getS 2).toInt ∧ (c.getS 2).toInt ≤ 2 ^ 31 - 1) &&
      (accessFaults t true true false false 16 (c.getS 1).toNat 16).isEmpty && counterPage (mkAcc t true true 0 0 (c.getS 1).toNat 16))
      (fun c => (c.setS 1 0x20200).setS 2 v) paged) = true := by decide
/-- A record of the crew is on its way. -/
def withRecord (s : State) : State :=
  { s with fabric := { s.fabric with items := [{ die := 0, src := 0, func := 0, event := 0, arg := 0, payload := 0, slot := 0, spec := false, stamp := 0,
                                                  granted := true, crew := some 0 }] } }
theorem witness_TraceInstructions :
    can (.mark 255 1) (fun s c _ => own s c && !(s.func (funcOfTeam s c.team)).trace.cfg.getLsbD 0) = true ∧
    meets ((start (.mark 255 1)).modCore 0 fun k => { k with granted := 1 }) (.mark 255 1) (fun s c _ => own s c && decide (0 < (s.core (coreOf s.cur)).granted)) = true ∧
    can (.trctlGate 1) (fun _ c _ => decide ((c.getS 1).toNat < 2)) (·.setS 1 1) = true ∧
    can (.trctlMask 1) (fun _ c _ => decide ((c.getS 1).toNat < 2 ^ 16)) (·.setS 1 0xFFFF) = true ∧
    can (.trctlDrain 1) (fun s c _ => decide (c.getS 1 = 0 ∧ s.fabric.items = [])) = true ∧
    meets (withRecord (start (.trctlDrain 1))) (.trctlDrain 1) (fun s c _ => decide (c.getS 1 = 0) && s.fabric.items.any fun i => decide (i.crew = some s.cur)) = true ∧
    can (.trctlAnchor 1) (fun s c _ => own s c && !(s.func (funcOfTeam s c.team)).trace.cfg.getLsbD 0 && decide ((c.getS 1).toNat < 256)) (·.setS 1 255) = true ∧
    can (.trctlGate 1) (fun s c _ => own s c && decide (2 ≤ (c.getS 1).toNat)) (·.setS 1 2) = true ∧
    can (.trctlMask 1) (fun s c _ => own s c && decide (2 ^ 16 ≤ (c.getS 1).toNat)) (·.setS 1 0x10000) = true ∧
    can (.trctlDrain 1) (fun s c _ => own s c && decide (c.getS 1 ≠ 0)) (·.setS 1 1) = true ∧
    can (.trctlAnchor 1) (fun s c _ => own s c && decide (256 ≤ (c.getS 1).toNat)) (·.setS 1 256) = true := by decide
theorem witness_TakingATrap : found ((start .nop).modTeam 0 fun t => { t with trapv := 0x10000 }) (fun c t => decide (c.handler = false ∧ c.region = none ∧
      c.held = [] ∧ c.stalled = none ∧ t.trapv ≠ 0)) = true ∧ (start .nop).ops = [] ∧ ((start .nop).core 0).trivet = [] ∧
    (start .nop).fabric.starved = false ∧ ((start .nop).func 0).trace.cfg.getLsbD 0 = false := by decide
/-- A crew in its handler that resumes at an address. -/
def inHandler (w1 : DWord) (c : Crew) : Crew := { c with handler := true, trap := { w1 := w1 } }
theorem witness_TrapInstructions : can (.trap 0xFFFFFF) = true ∧
    found ((start .nop).modCrew 0 (inHandler 0)) (fun c _ => c.handler) = true ∧
    can .tret (fun s c _ => outside s c && decide (c.handler = true ∧ c.trap.w1.toNat < 2 ^ 56 ∧ c.trap.w1.toNat % 4 = 0)) (inHandler 0xFFFFFFFFFFFFFC) = true ∧
    can .tret (fun s c _ => own s c && !c.handler) = true ∧
    can .tret (fun s c _ => outside s c && decide (c.handler = true ∧ 2 ^ 56 ≤ c.trap.w1.toNat)) (inHandler 0x100000000000000) = true ∧
    can .tret (fun s c _ => outside s c && decide (c.handler = true ∧ c.trap.w1.toNat % 4 ≠ 0)) (inHandler 2) = true ∧
    can (.swrite 9 1) (fun s c _ => outside s c) = true ∧ can (.swrite 0x11 1) (fun s c _ => outside s c) (inHandler 0) = true := by decide
theorem witness_RegisterInstructionsFrame : ([.sli 1 2, .brz 1 2, .sadd 63 1 2, .saddi 1 2 3, .nop, .br 1, .call 1, .ret, .jr 1, .vadd 1 2 3, .vext 1 2 3,
    .vlid 1, .vcvt 1 2, .vrcp 1 2, .moder 1 2] : List Instr).all (fun i => can i (fun s c _ => own s c)
      (fun c => { c with mode := 0 }) && match exec i (start i) with | .next _ => true | _ => false) = true := by decide
theorem witness_IssueChangesNoByte : ([.ld 1 2 3, .st 1 2 3, .ldt 1 2 3, .stt 1 2 3, .shape 1 2, .pref 0 1 2, .flush 1 2, .fence 6 3, .cpy4 1 2 4, .cpy8 1 2 4,
    .cpy16 1 2 4, .cpyt 1 2 3, .semset 1 2, .semacq 1 2, .semtry 1 2, .semrd 1 2, .tilez 1, .tld 1 2, .tdrn 1 2, .tdrm 1 2 3, .regionClose,
    .regionOpen] : List Instr).all (fun i => can i (fun s c _ => own s c && decide (c.held = [])) && match exec i (start i) with | .next _ => true | _ => false) = true ∧
    ([.aadd 1 2 3, .amin 1 2 3, .amax 1 2 3, .aand 1 2 3, .aor 1 2 3, .axor 1 2 3, .axch 1 2 3, .acas 2 2 3] : List Instr).all (fun i =>
      can i (fun s c _ => own s c && decide (c.held = [])) (fun c => { c with mode := 0x300 }) || can i (fun s c _ => own s c && decide (c.held = []))
        (fun c => { c with mode := 0x180 })) = true ∧
    can (.mmas 1 2 3) (fun s c _ => own s c && decide (c.held = [])) (fun c => { c with mode := 0x440 }) = true := by decide

/-- No entry is ending, no crew speculates, and no page is in flight. -/
def quietState (s : State) : Bool := (s.entries.all fun p => match p.2.st with | .ending _ _ => false | _ => true) &&
  (s.crews.all fun p => p.2.spec.isNone) && s.forwards.isEmpty
theorem quietState_calm (s : State) (h : quietState s = true) :
    (∀ p ∈ s.entries, ∀ st d, p.2.st ≠ .ending st d) ∧ (∀ p ∈ s.crews, p.2.spec = none) ∧ s.forwards = [] := by
  simp only [quietState, Bool.and_eq_true, List.all_eq_true, List.isEmpty_iff, Option.isNone_iff_eq_none] at h
  refine ⟨fun p hp st d e => ?_, h.1.2, h.2⟩
  have := h.1.1 p hp
  simp [e] at this
/-- The event takes place. -/
def fires (i : Instr) (s : State) : Bool := match exec i s with | .next _ => true | _ => false
/-- The small machine with its data page and one outstanding operation, the first. -/
def opState (o : Op) : State := withOp ((start .nop).modTeam 0 paged) o
/-- A word of the data page as an access. -/
def word : Acc := { va := 0x20000, pa := 0x20000, size := 4, data := 0x04030201, dst := some { reg := 1, lane := 0, lo := 0, bits := 32, clear := true } }
/-- The operation of the small machine meets conditions on itself, the crew and the team. -/
def opHas (s : State) (p : Op → Crew → Team → Bool) : Bool :=
  match Tbl.get? s.ops 0 with
  | some o => match s.crew? o.crew, s.team? o.team with
    | some c, some t => !o.done && p o c t
    | _, _ => false
  | none => false
theorem witness_StoreReachesMemory : let s := opState { anOp .store (some .store) [word] with entered := some 0 }
    quietState s = true ∧ opHas s (fun o _ _ => o.accs[0]? == some word && o.kind.isStore && performable s 0 o word && invAcked s (some o.core) (lineOf word.pa)) = true ∧
    inPod word.pa = false ∧ inMirror word.va = false ∧ word.st = .todo ∧ fires (.storePerformed 0 0) s = true := by decide
theorem witness_OperationEvents_load : let s := opState (anOp .load (some .load) [word])
    quietState s = true ∧ opHas s (fun o c _ => o.kind == .load && loadReady s 0 o c) = true ∧ fires (.loadDataReturn 0) s = true := by decide
theorem witness_OperationEvents_atomic : let s := opState (anOp (.atomic .add 7 1) (some .load) [word])
    quietState s = true ∧ opHas s (fun o _ _ => performable s 0 o word && !anyPoison s 0x20000 4 &&
      (((List.range o.accs.length).filter fun k => match o.accs[k]? with | some b => b.st == .todo && b.pa == 0x20000 | none => false).head?.bind
        fun k => o.accs[k]?) == some word) = true ∧ inPod 0x20000 = false ∧ inHost 0x20000 = false ∧ fires (.atomicStep 0 0x20000) s = true ∧
    (0xFFFFFFFF : Nat) < 2 ^ 32 := by decide
theorem witness_OperationEvents_atomicReturn : let s := opState (anOp (.atomic .add 7 1) (some .load) [{ word with st := .done }])
    quietState s = true ∧ opHas s (fun o _ _ => o.accs.all fun a => a.st != .todo) = true ∧ fires (.atomicResultReturn 0) s = true := by decide
/-- A descriptor of rank 1, size 16, elements of two bytes (R187). -/
def descriptor : List Byte := leBytes 8 0x0900000000000000 ++ leBytes 4 16 ++ List.replicate 52 0
theorem witness_OperationEvents_shape : let s := putList false (opState (anOp (.shape 15 0x20000) (some .load) [{ word with size := 64 }])) 0x20000 descriptor
    quietState s = true ∧ opHas s (fun o c _ => !o.quiet && o.accs.length == 1 && bindable s 0 o c { word with size := 64 } &&
      match bindAcc s 0 o c { word with size := 64 } with | some (v, bad, r) => !bad && r == none && (readShape (leBytes 64 v)).isSome | none => false) = true ∧
    fires (.shapeComplete 0) s = true := by decide
theorem witness_OperationEvents_tdep : let x : Acc := { word with size := 16 }
    let s := opState { anOp (.tdep 1) (some .load) [x] with acq := true, rel := true, scope := 4 }
    quietState s = true ∧ opHas s (fun o _ t => performable s 0 o x && !anyPoison s x.pa 16 && (readBlock s x.key x.pa).res &&
      (blockStep s t.ctx (some o.core) x (addCount 1)).isSome) = true ∧ fires (.tdepStep 0) s = true := by decide
theorem witness_OperationEvents_flush : let s := opState (anOp (.flush [(0x20000, 256, 0)]) (some .store))
    quietState s = true ∧ opHas s (fun o _ _ => s.ops.all fun p => !(p.2.crew == o.crew && decide (p.1 < 0) && p.2.kind.isStore) || p.2.done) = true ∧
    inSpan (lineOf 0x20000) (0x20000, 256, 0) = true ∧ fires (.flushComplete 0) s = true := by decide
theorem witness_OperationEvents_release : let s := opState (anOp (.release 0x10000) (some .store) [{ word with st := .done }])
    quietState s = true ∧ opHas s (fun o _ _ => o.accs.all fun a => a.st == .done) = true ∧ fires (.regionReleaseComplete 0) s = true := by decide
theorem witness_OperationEvents_mirror : ([[(0, false)], [(0, false), (0, false)]] : List (List (Nat × Bool))).all (fun ms =>
    let s := opState { anOp (.mirror ms 0) (some .store) [{ va := 0xFFFF0100000000, pa := 0xFFFF0100000000 }] with entered := some 0 }
    quietState s && opHas s (fun o _ t => ms[0]? == some (o.team, false) && (s.ops.all fun p => decide (p.2.crew = o.crew → ¬ p.1 < 0)) &&
      (o.accs.all fun a => deliverable s 0 o (0 == o.team) t a) && !deliveryRefused s t) && fires (.mirrorDelivery 0 0 []) s) = true := by decide
/-- One copied block. -/
def block : CopyPart := { row := 0, src := some { word with va := 0x20100, pa := 0x20100 }, dst := word }
theorem witness_EngineEvents_copy : let s := opState (anOp (.copy 63 [block]) (some .copy))
    quietState s = true ∧ opHas s (fun o _ _ => !o.quiet && copyReady s 0 o [block]) = true ∧ inPod 0x20100 = false ∧ inPod word.pa = false ∧ word.pa + word.size ≤ 0x20100 ∧ block.seen = [] ∧
    fires (.copyComplete 0) s = true := by decide
/-- A BINW of lane 0 to bin 0 of the table at 0x20000, which has one bin of one slot at 0x20200. -/
def binwOp (todo : List (Nat × Word × Word)) : BinOp := { table := 0x20000, sem := 63, reg := 1, todo := todo, redirect := [], res := [(0, 0)], bad := [], pois := [] }
theorem witness_EngineEvents_binClaim :
    let s0 := putList false (opState (anOp (.binw (binwOp [(0, 0, 7)])) (some .copy))) 0x20000 [1]
    let s := putList false s0 (binDesc 0x20000 0) (leBytes 8 0x20200 ++ leBytes 4 1)
    opHas s (fun o _ t => (binGroup s 0 o t { binwOp [(0, 0, 7)] with todo := [] } false 0 [(0, 7)]).isSome) = true ∧ fires (.binClaim 0) s = true ∧
    (let k : Claims := { bin := { base := 0x20200, cap := 1, ovf := 0, count := 0, ovfcnt := 0 } }; k.bin.count < k.bin.cap) := by decide
theorem witness_EngineEvents_binw : let s := opState (anOp (.binw (binwOp [])) (some .copy))
    quietState s = true ∧ opHas s (fun o _ _ => !o.quiet) = true ∧ (binwOp []).todo = [] ∧ (binwOp []).redirect = [] ∧ fires (.binwComplete 0) s = true := by decide
theorem witness_EngineEvents_tile : ([.zero, .load [1], .mac 8 1 1 []] : List TileStep).all (fun st => let s := opState (anOp (.tile 63 st) (some .tile))
    quietState s && opHas s (fun o _ t => !o.quiet && t.tilePois.isEmpty) && decide (st.rows ≤ 32) && fires (.tileStepComplete 0) s) = true := by decide
theorem witness_EngineEvents_drain : let s := opState (anOp (.drain 63 []) (some .tile) [word])
    quietState s = true ∧ opHas s (fun o _ _ => o.accs.all fun a => engineClear s 0 o true a && !inPod a.pa) = true ∧ fires (.drainComplete 0) s = true := by decide
/-- A drain-add to tile 63 of team 0 itself. -/
def drainAdd (peer : Nat) (v : Option Nat) : DrainAdd :=
  { pteam := peer, find := true, psem := 63, ptile := 63, pcore := 0, rows := [[0x3F800000]], pois := [], verdict := v }
theorem witness_EngineEvents_drainAdd :
    (let s := opState (anOp (.drainAdd (drainAdd 0 none)) (some .tile))
     quietState s && opHas s (fun o _ t => (match drainTarget s o (drainAdd 0 none) with | .ok r => r.1 == 0 | .error _ => false) && !tilePending s 0 63 &&
       t.tilePois.isEmpty) && fires (.drainAddReceive 0) s) = true ∧
    (let s := opState (anOp (.drainAdd (drainAdd 1 none)) (some .tile))
     opHas s (fun o _ _ => match drainTarget s o (drainAdd 1 none) with | .ok _ => false | .error r => r == 1) && fires (.drainAddReceive 0) s) = true ∧
    (let s := opState (anOp (.drainAdd (drainAdd 0 (some 0))) (some .tile)); quietState s && opHas s (fun _ _ _ => true) && fires (.drainAddAck 0) s) = true := by
  decide
/-- A command of function 0 on die 0, with its record's operation, the bytes after it, and its runs. -/
def command (op : Nat) (len : Nat) (rest : List Byte) (running : Option (Nat × Nat)) : Cmd :=
  { func := 0, ctx := 0, die := 0, core := 0, entry := none, rec_ := leBytes 8 (op * 2 ^ 24 + len * 2 ^ 32) ++ rest ++ List.replicate (56 - rest.length) 0,
    src := [{ pa := 0x20000, len := len, home := 0, key := 0 }], dst := [{ pa := 0x20100, len := len, home := 0, key := 0 }], compl := [], tag := [],
    running := running }
/-- The machine with one bulk command, number 7. -/
def bulkState (c : Cmd) : State := { start .nop with bulk := { cmds := [(7, c)] }, nextId := 8 }
theorem witness_BulkEvents_start : ([(command 1 16 [] none, 0), (command 1 16 [] none, 1)] : List (Cmd × Nat)).all (fun x => let s := bulkState x.1
    (match arbiter s 0 0 (arbiterFuel s 0 0) (Tbl.get? s.bulk.last (0 * 2 + 0)) s.bulk.deficit with | some (f, _) => f == 0 | none => false) &&
    decide (waitingCmds s 0 0 0 = [(7, x.1)]) && fires (.bulkStart 0 x.2 0) s) = true := by decide
/-- A function with the group 0 of two dies, and each die's collective of sequence number 0: s32 sums of four elements. -/
def collectiveState (running : Option (Nat × Nat)) (matched : List (Nat × Nat × Word)) : State :=
  let c := fun (die : Nat) => { command 3 4 (List.replicate 27 0 ++ [6]) running with
    die := die, core := 32 * die, src := [{ pa := 0x20000 + 256 * die, len := 16, home := 0, key := 0 }],
    dst := [{ pa := 0x21000 + 256 * die, len := 16, home := 0, key := 0 }] }
  { ((start .nop).modFunc 0 fun f => { f with groups := [(0, { members := [.die 0, .die 1] })] }) with
    bulk := { cmds := [(7, c 0), (8, c 1)], matched := matched }, nextId := 9 }
theorem witness_BulkEvents_startCollective : let s := collectiveState none []
    ((s.func 0).groups.any fun p => (rankOf p.2 0).isSome) = true ∧
    (match arbiter s 0 1 (arbiterFuel s 0 1) (Tbl.get? s.bulk.last (0 * 2 + 1)) s.bulk.deficit with | some (f, _) => f == 0 | none => false) = true ∧
    (waitingCmds s 0 1 0).map (·.1) = [7] ∧ fires (.bulkStart 0 2 0) s = true := by decide
theorem witness_BulkEvents_moved : let c := command 1 16 [] (some (0, 5))
    c.seen = [] ∧ (∀ r ∈ c.src, ∀ d ∈ c.dst, r.pa + r.len ≤ d.pa ∨ d.pa + d.len ≤ r.pa) := by decide
theorem witness_BulkEvents_done :
    (runningCmd (bulkState (command 1 16 [] (some (0, 5)))) 7 1).isSome = true ∧ fires (.bulkCopyDone 7) (bulkState (command 1 16 [] (some (0, 5)))) = true ∧
    (runningCmd (bulkState (command 2 16 [] (some (1, 5)))) 7 2).isSome = true ∧
    Tbl.getD ((bulkState (command 2 16 [] (some (1, 5)))).func 0).bulkKeys (fieldOf (command 2 16 [] none).rec_ 44 2) 0 = 0 ∧
    fires (.bulkDecryptDone 7) (bulkState (command 2 16 [] (some (1, 5)))) = true ∧
    (let s := (bulkState (command 2 16 [] (some (1, 5)))).modFunc 0 fun f => { f with bulkKeys := [(0, 5)] }
     (runningCmd s 7 2).isSome = true ∧ Tbl.getD (s.func 0).bulkKeys (fieldOf (command 2 16 [] none).rec_ 44 2) 0 ≠ 0 ∧
       ((readCmd s (command 2 16 [] none) (command 2 16 [] none).src).all fun b => !b.2) = true) ∧
    (runningCmd (bulkState (command 4 4 [] (some (0, 5)))) 7 4).isSome = true ∧ ((command 4 4 [] none).src.all fun r => inHbm r.pa && r.home == 0) = true ∧
    fires (.scanDone 7) (bulkState (command 4 4 [] (some (0, 5)))) = true ∧
    (let c := { command 4 4 [] (some (0, 5)) with src := [{ pa := 2 ^ 53, len := 16, home := 0, key := 0 }] }
     (runningCmd (bulkState c) 7 4).isSome = true ∧ (c.src.any fun r => !inHbm r.pa) = true ∧ fires (.scanDone 7) (bulkState c) = true) := by decide
theorem witness_BulkEvents_collective :
    (let s := collectiveState (some (2, 5)) []
     match localMembers s 0 0 0 { members := [.die 0, .die 1] } with
     | some (m :: ms) => (ms.all fun x => collKey x.2.2 == collKey m.2.2) && !s.bulk.matched.contains (0, 0, 0) && fires (.collectiveMatch 0 0 0 true) s
     | _ => false) = true ∧
    (let s := collectiveState (some (2, 5)) [(0, 0, 0)]
     match localMembers s 0 0 0 { members := [.die 0, .die 1] } with
     | some (m :: ms) => ((m :: ms).all fun k => (runningCmd s k.2.1 3).isSome) && s.bulk.matched.contains (0, 0, 0) && fires (.collectiveDone 0 0 0 []) s
     | _ => false) = true ∧ (0xFFFFFFFF : Nat) < 2 ^ 32 := by decide

/-- A core that holds a copy of line 1024 and has received nothing yet, and one that has received its invalidation. -/
def linedCore (inv : List Nat) : State := (start .nop).modCore 0 fun k => { k with l1 := [(1024, { way := 0, set := 0, key := 0, bytes := [] })], inv := inv }
/-- A monitor of crew 0 on the word at 0x20000, for the value 0. -/
def monitor (v : DWord) (polled relaunch : Bool) : Monitor :=
  { crew := 0, team := 0, acc := { va := 0x20000, pa := 0x20000, size := 4 }, cond := 0, value := v, acq := false, scope := 0, polled := polled,
    relaunch := relaunch }
/-- Crew 0 waits on a monitor. -/
def monitored (m : Monitor) : State := { (start .nop).modCrew 0 (fun c => { c with wait := .monitor }) with monitors := [m] }
theorem witness_WaitAndBarrierEvents_lines : (l1Line (linedCore []) 0 1024).isSome = true ∧ ((linedCore []).core 0).inv.contains 1024 = false ∧
    fires (.invalidationReceive 0 1024) (linedCore []) = true ∧ ((linedCore [1024]).core 0).inv ≠ [] ∧
    fires (.invalidationApplyTimeout 0) (linedCore [1024]) = true := by decide
theorem witness_WaitAndBarrierEvents_monitors :
    fires (.monitorWake 0) ((start .nop).modCrew 0 fun c => { c with wait := .woken (some 5) 0 }) = true ∧
    ([(0, true), (1, false)] : List (DWord × Bool)).all (fun x => let s := monitored (monitor x.1 true false)
      (match s.monitors.find? fun m => m.crew == 0 && m.polled && !m.relaunch with
       | some m => match waitRead s 0 m.team m.acq m.acc with
         | some (.ok (y, bad)) => !bad && condHolds m.cond m.acc.size y m.value.toNat == x.2
         | _ => false
       | none => false) && fires (.waitcPoll 0) s) = true ∧
    ([(0, true), (1, false)] : List (DWord × Bool)).all (fun x => let s := monitored (monitor x.1 true true)
      (s.team? 0).isSome && (s.monitors.any fun m => m.team == 0 && m.relaunch && m.polled) &&
      (match Tbl.get? s.ctxs 0 with | some c => !frontHeld s c.slice | none => true) &&
      (s.monitors.all fun m => match waitRead s m.crew m.team m.acq m.acc with
         | some (.ok (y, bad)) => !bad && condHolds m.cond m.acc.size y m.value.toNat == x.2
         | _ => false) && fires (.relaunchPoll 0) s) = true ∧
    (let s := { (monitored (monitor 1 false false)).modTeam 0 (fun t => { t with monthr := 1 }) with time := { master := 16001 } }
     found s (fun _ t => decide (t.monthr ≠ 0 ∧ t.halt = .running ∧ t.monthr * 16000 < s.time.master - 0)) && fires (.monitorThresholdHalt 0) s) = true := by
  decide
/-- The wide context of handle 128 of the small machine, with a message for it. -/
def wideState (what : WideWhat) (b : Barrier) : State :=
  { (start .nop).modCrew 0 (fun c => if what = .drop ∨ what = .arriveSplit ∨ what = .arrive then c else { c with wait := .bari 128 }) with
    wide := [(128 * 4096, b)], wideMsgs := [{ ctx := 128 * 4096, crew := 0, handle := 128, what := what }] }
theorem witness_WaitAndBarrierEvents_wide :
    ([(.arrive, { armed := true, e := 1 }), (.drop, { armed := true, e := 2, arr := 1 }), (.arriveSplit, { armed := false }), (.arrive, { armed := true, e := 2 })] :
      List (WideWhat × Barrier)).all (fun x => let s := wideState x.1 x.2
        (s.wideMsgs.find? fun m => m.ctx == 128 * 4096 && m.crew == 0).isSome && fires (.wideBarrierArrival (128 * 4096) 0) s) = true ∧
    (let s := wideState (.arm 2) {}
     found s (fun c _ => decide (c.region = none ∧ c.spec = none ∧ c.buf = [])) &&
       (match (Tbl.getD s.wide (128 * 4096) {}).arm 2 with | some b => !b.armed || b.arr != b.e | none => false) &&
       fires (.wideBarrierArrival (128 * 4096) 0) s) = true ∧
    (let s := { (start .nop).modCrew 0 (fun c => { c with wait := .barrier 128 1 }) with wideDone := [(128 * 4096, 0, 1, 0)] }
     (s.wideDone.find? fun m => m.1 == 128 * 4096 && m.2.1 == 0).isSome && found s (fun c _ => decide (coreOf 0 = 0 ∧ c.wait = .barrier (128 * 4096 / 2 ^ 12 % 256) 1)) &&
       !inFlight s 0 128 && fires (.wideBarrierCompletion (128 * 4096) 0) s) = true ∧
    fires (.issueStarvationPromote 0) ((start .nop).modCrew 0 fun c => { c with ready := 64 }) = true := by decide
/-- A context with one queued entry. -/
def queued (r : LaunchRec) (f : Entry → Entry) : State :=
  { State.reset with
    ctxs := [(0, { func := 0, slice := 0 })], entries := [(5, f { ctx := 0, rec_ := r, addr := 0 })], nextId := 6,
    slices := [(0, { cores := slcores [] [(0, 0, 1)] })] }
/-- A record that is well formed. -/
def goodRec : LaunchRec := { entry := 0x20000, image := 0x20000, ilen := 128, dataoff := 128 }
/-- The head entry of context 0, with a condition. -/
def headHas (s : State) (p : Nat → Entry → Ctx → Bool) : Bool :=
  match headEntry s 0, Tbl.get? s.ctxs 0 with
  | some (i, e), some x => p i e x
  | _, _ => false
theorem witness_DispatchEvents_entries :
    (let s := queued goodRec fun e => { e with refused := true }; headHas s (fun _ e _ => !e.ready && e.refused) && fires (.dispatchEntry 0) s) = true ∧
    (let s := queued {} id; headHas s (fun _ e x => !e.ready && !e.refused && e.asked.isEmpty && (earlyStatus s x e.rec_).isSome) && fires (.dispatchEntry 0) s) = true ∧
    (let s := { queued { goodRec with wmod := 1 } id with slices := [(0, { cores := slcores [] [(0, 0, 1)], wide := (0, 0, 1, 0) })] }
     headHas s (fun i e x => (earlyStatus s x e.rec_).isNone && !e.claimed && (wideClaims s i x.slice e.rec_).isSome) && fires (.dispatchEntry 0) s) = true ∧
    (let s := { queued { goodRec with wmod := 1 } id with slices := [(0, { cores := slcores [] [(0, 0, 1)], wide := (0, 0, 0, 0) })] }
     headHas s (fun i e x => (earlyStatus s x e.rec_).isNone && !e.claimed && (wideClaims s i x.slice e.rec_).isNone) && fires (.dispatchEntry 0) s) = true ∧
    (let s := putList false (queued goodRec fun e => { e with claimed := true }) 0 [5]
     headHas s (fun _ e x => let r := (xlatImage s x e.rec_ (e.rec_.ranges.foldl (xlatRange s x) {})).1
       (earlyStatus s x e.rec_).isNone && e.claimed && r.ask.isEmpty && r.err.isSome) && fires (.dispatchEntry 0) s) = true ∧
    ({} : LaunchRec).ok = false := by decide
/-- Page tables from address 0 that map the page at 0x20000 to itself, for code and loads, under key 1 of function 0 (R160, R161). -/
def tabled (s : State) : State :=
  [(0, 0x1001), (0x1000, 0x2001), (0x2000, 0x3001), (0x3000, 0x4001), (0x4010, 0x010000000002002D)].foldl
    (fun s p => putList false s p.1 (leBytes 8 p.2))
    { s with sec := { s.sec with keys := [(1, { owner := some 0 })] }, slices := [(0, { cores := slcores [] [(0, 0, 1)], mem := 0xFF00 })] }
theorem witness_DispatchEvents_ready : let s := tabled (queued goodRec fun e => { e with claimed := true })
    headHas s (fun i e x => let r := (xlatImage s x e.rec_ (e.rec_.ranges.foldl (xlatRange s x) {})).1
      !e.refused && e.asked.isEmpty && (earlyStatus s x e.rec_).isNone && e.claimed && r.ask.isEmpty && r.err.isNone && r.absent.isEmpty && r.leaves.isEmpty &&
      Tbl.get? s.entries i == some e) = true ∧ fires (.dispatchEntry 0) s = true := by decide
theorem witness_DispatchEvents_placing :
    (let s := queued goodRec fun e => { e with ready := true }
     (match placing s 0 with
      | some (_, e, sl) => e.rec_.mirror == 0 && (s.slice sl).compact.isNone && ((coreOrder s sl).find? (fits s e.rec_)).isSome
      | none => false) && fires (.placeTeam 0) s) = true ∧
    (let s := queued { goodRec with gx := 2, mirror := 2 } fun e => { e with ready := true }
     (match placing s 0 with
      | some (_, e, sl) => e.rec_.mirror != 0 && (groupCores s sl e.rec_.mirror (fits s e.rec_)).isSome
      | none => false) && fires (.placeMirrorGroup 0) s) = true ∧
    (let s := { (start .nop).modTeam 0 (fun t => { t with blocks := [(0, 1024, 512)] }) with slices := [(0, { compact := some (0, 0, some 1, 0) })] }
     let s := s.setTeam 1 { entry := 0, ctx := 0, tidx := 1, core := 0, crews := [], units := [], width := 64, nvreg := 256, nsem := 0, ntile := 0, ncbar := 0,
                            nwide := 0, shapes := [], extents := [], halt := .halted .preempt, rowsOut := (List.range 9).map fun i => (i, 0) }
     (match compactStep s 0 with | some (t, i, _) => t == 0 && i == 0 | none => false) && waitsFor s (0, 0, some 1, 0) &&
       decide (spentOf s 2 0 + 512 ≤ ((budgetOf s 0).1.extractLsb' 16 16).toNat) && fires (.compactorMove 0 0) s) = true ∧
    (let s := queued goodRec id
     decide (((budgetOf s (sliceDie s 0)).2.extractLsb' 16 16).toNat - spentOf s 4 (sliceDie s 0) ≠ 0 ∧ leavesFrom s walkLevels 0 = []) &&
       fires (.heatSweep 0) s) = true := by decide

/-- The small machine whose context has an outstanding page request, number 3, with a PRG index or without. -/
def requested (p : PageReq) : State := (start .nop).modCtx 0 fun x => { x with reqs := [(3, p)] }
/-- A context of a state, with a condition. -/
def ctxHas (s : State) (p : Ctx → Bool) : Bool := match Tbl.get? s.ctxs 0 with | some x => p x | none => false
theorem witness_TranslationEvents_requests :
    (let s := requested { page := 2, host := false, read := true, write := false, pasid := 0, sent := true }
     ctxHas s (fun x => (match Tbl.get? x.reqs 3 with | some p => p.sent && !p.host && p.prg == none | none => false) && !frontHeld s x.slice) &&
       fires (.pageRequestReply 0 3 0) s && fires (.pageRequestReply 0 3 1) s && fires (.pageRequestTimeout 0 3) s &&
       (Tbl.get? (endRequest s 0 3 false).ctxs 0).isSome) = true ∧
    Tbl.get? State.reset.ctxs 0 = none ∧ fires (.pageRequestReply 0 3 0) State.reset = true ∧
    (let s := requested { page := 2, host := true, read := true, write := false, pasid := 0, sent := true, prg := some 5 }
     ((s.ctxs.flatMap fun p => p.2.reqs.map fun q => (p.1, p.2, q)).find? fun p => p.2.1.func == 0 && p.2.2.2.prg == some 5 && p.2.2.2.pasid == 0).isSome &&
       ctxHas s (fun x => !frontHeld s x.slice) && ([.success, .invalidRequest, .responseFailure] : List PrgCode).all fun c => fires (.prgResponse 0 (5, 0) c) s) = true ∧
    (let s := (start .nop).modFunc 0 fun f => { f with prgDead := [5] }
     (s.func 0).prgDead.contains 5 && fires (.prgIndexReuseTimeout 0 5) s) = true ∧ fires (.priReset 0) (start .nop) = true := by decide
theorem witness_TranslationEvents_ats :
    (let s := (start .nop).modCtx 0 fun x => { x with ats := [(2, none)] }
     ctxHas s (fun x => Tbl.get? x.ats 2 == some none) && atsUsable s 0 .refused && fires (.atsTranslationCompletion 0 2 .refused) s && fires (.atsTranslationTimeout 0 2) s) = true ∧
    (let s := ((start .nop).modCtx 0 fun x => { x with ats := [(2, none)] }).modFunc 0 fun f => { f with tdi := .run, stream := some 4 }
     ctxHas s (fun x => Tbl.get? x.ats 2 == some none) && decide ((s.func (funcOfCtx s 0)).tdi = .run) && (s.func (funcOfCtx s 0)).stream == some 4 &&
       atsUsable s 0 (.success true true 0x30000 (some 4)) && fires (.atsTranslationCompletion 0 2 (.success true true 0x30000 none)) s) = true ∧
    (Tbl.get? (start .nop).ctxs 0).isSome = true ∧ fires (.unmapInvalidation 0 0x20001 1) (start .nop) = true ∧
    ctxHas (start .nop) (fun x => decide (x.func = 0) && decide ((start .nop).invals.length < 32)) = true ∧
    fires (.atsInvalidateRequest 1 0 0x20000 65536) (start .nop) = true ∧
    (let s := (start .nop).modCtx 0 fun x => { x with func := 1 }
     ctxHas s (fun x => decide (linkOf s x.func = 0)) && fires (.atsInvalidateRequest 0 0 0x20000 65536) s) = true := by decide
/-- An invalidation under way, number 4, that reaches some teams. -/
def invalidating (teams : List Nat) (h : Halt) : State :=
  { (start .nop).modTeam 0 (fun t => { t with halt := h }) with
    invals := [(4, { ctx := 0, spans := [(0x20000, 65536)], phys := [(0x20000, 65536)], teams := teams, ats := none })] }
theorem witness_TranslationEvents_complete :
    (let s := invalidating [0] (.halted .invalidation)
     (s.teams.all fun t => t.2.isHalted) && s.ops.isEmpty && s.bulk.cmds.isEmpty && fires (.invalidationComplete 4) s) = true ∧
    (let s := invalidating [9] .running
     (s.team? 9).isNone && s.bulk.cmds.isEmpty && fires (.invalidationComplete 4) s) = true := by decide
/-- Team 0 in a halt state. -/
def halted (h : Halt) : State := (start .nop).modTeam 0 fun t => { t with halt := h }
theorem witness_HaltEvents_teams : found (start .nop) (fun _ t => decide (t.halt = .running ∧ t.retired = false)) = true ∧
    fires (.haltRequest 0) (start .nop) = true ∧
    (let s := halted (.halting .preempt)
     found s (fun _ t => haltDone s t) && ctxHas s (fun x => (s.slice x.slice).switching.isNone) && fires (.haltComplete 0) s) = true ∧
    (let s := halted (.halted .preempt)
     ctxHas s (fun x => serves s x) && s.invals.isEmpty && (resumeTeam s 0).isSome && fires (.resume 0) s) = true ∧
    (Tbl.get? (start .nop).ctxs 0).isSome = true ∧ fires (.contextTeardown 0) (start .nop) = true ∧
    (let s := (start .nop).modCrew 0 fun c => { c with pending := some { kind := .software, resume := 0, fault := 0 } }
     found s (fun c t => c.pending.isSome && decide (t.halt = .running)) && fires (.trapEntry 0) s) = true ∧
    (let s := (halted (.halting .preempt)).modCrew 0 fun c => { c with pending := some { kind := .software, resume := 0, fault := 0 } }
     found s (fun c t => c.trapping && t.crews.contains 0 && decide (t.halt = .halting .preempt) && !haltDone s t) && fires (.trapEntry 0) s) = true ∧
    fires (.uncorrectableStateError 0 1) (start .nop) = true := by decide
/-- Functions 0 and 1 of slice 0, of which 1 has work. -/
def sharing (running : Option Nat) (work : Bool) : State :=
  { State.reset with
    time := { master := 16000000 }
    funcs := [(0, {}), (1, {})], ctxs := [(0, { func := 1, slice := 0 })], slices := [(0, { running := running })],
    entries := if work then [(5, { ctx := 0, rec_ := goodRec, addr := 0 })] else [] }
theorem witness_HaltEvents_quantum : let bound := fun (s : State) => (s.funcs.filter fun p => p.2.slice == 0 && p.2.enabled).map (·.1)
    (let s := sharing none true; (s.slice 0).running.isNone && (s.slice 0).switching.isNone && (bound s).find? (hasWork s 0) == some 1 &&
      fires (.quantumExpiry 0) s) = true ∧
    (let s := sharing none false; (bound s).find? (hasWork s 0) == none && fires (.quantumExpiry 0) s) = true ∧
    (let s := sharing (some 0) false; (s.slice 0).switching.isNone && s.entries.isEmpty && s.teams.isEmpty && (s.slice 0).slots.isEmpty &&
      decide ((s.slice 0).since + (s.func 0).quantum * 16000 ≤ s.time.master) && fires (.quantumExpiry 0) s) = true ∧
    (let s := sharing (some 0) true; (s.slice 0).running == some 0 && (teamsOfFunc s 0 0).isEmpty &&
      decide ((s.slice 0).since + (s.func 0).quantum * 16000 ≤ s.time.master) &&
      (((bound s).filter fun g => decide (0 < g)) ++ (bound s).filter fun g => decide (g < 0)).find? (hasWork s 0) == some 1 && fires (.quantumExpiry 0) s) = true := by decide
theorem witness_HaltEvents_errors : (inHbm 0x20000 = true ∧ spentOf (start .nop) 0 (channelOf 0x20000) <
      ((budgetOf (start .nop) (channelOf 0x20000 / 16)).1.extractLsb' 48 16).toNat ∧ fires (.scrubSector (.flat 0x20000)) (start .nop) = true) ∧
    (inHbm (2 ^ 52) = false ∧ fires (.scrubSector (.flat (2 ^ 52))) (start .nop) = true) ∧
    (found (start .nop) (fun _ t => decide (63 < t.ntile ∧ 1023 < 1024)) = true ∧ fires (.scrubSector (.tile 0 63 1023)) (start .nop) = true) ∧
    (let s := (start .nop).modCrew 0 fun c => { c with pc := 0x90000 }
     meets s (.instructionFetchFault 0 0x90000 0) (fun _ c t => decide (fetch s t c.pc = .fails 0 0) && own s c) && fires (.instructionFetchFault 0 0x90000 0) s) = true ∧
    (found (start .nop) (fun c t => !blocked (start .nop) 0 c t && c.started && !traceHeld (start .nop) 0 c && c.spec.isNone) = true ∧
      fires (.illegalInstructionWord 0xFFFFFFFF) (start .nop) = true) := by decide

/-- Function 0 is traced, into a buffer that is active, from a resident team's core. -/
def traced : State := (start .nop).modFunc 0 fun f => { f with trace := { f.trace with cfg := 1, stat := 1 } }
/-- The small machine after a read of die 0's time base that returned a multiple of 2^40. -/
def timed : State := { start .nop with time := { copies := [(0, 2 ^ 40)] } }
theorem witness_CarveTraceTimeEvents_carve :
    (let s := (start .nop).modCore 0 fun k => { k with
       sramcfg := 0x18, l1 := [(1024, { way := 5, set := 0, key := 0, bytes := List.replicate 128 0, dirty := true })] }
     decide (0 < 1 ∧ 1 ≤ (takenDirty s 0).length ∧ spentOf s 5 0 + 1 ≤ ((budgetOf s 0).2.extractLsb' 0 16).toNat) && fires (.carveWriteback 0 1) s) = true ∧
    (let s := { State.reset with cores := [(0, { sramcfg := 0x3B })] }
     decide (takenDirty s 0 = [] ∧ heldTop s 0 = 0) && fires (.carveComplete 0) { State.reset with cores := [(0, { sramcfg := 0x18 })] } &&
       decide (spoolOf 0x18 + pinfOf 0x18 ≤ 11 ∧ (0 : Nat) ≠ spoolOf 0x18)) = true ∧
    fires (.sramcfgWrite 0 0x3F) (start .nop) = true ∧ fires (.sramcfgWrite 0 0x18) (start .nop) = true ∧
    fires (.activityBudgetPeriod 63) { start .nop with time := { master := 160000 } } = true ∧ (65535 : Nat) < 65536 := by decide
theorem witness_CarveTraceTimeEvents_trace :
    (coreFunc traced 0 = some 0 ∧ (traced.func 0).trace.stat.getLsbD 0 = true ∧ min (8 - (traced.core 0).granted) (traceSpace traced 0) ≠ 0) ∧
    fires (.traceReservationRefill 0) traced = true ∧
    (acceptable (withRecord (start .nop)) 0 0).isSome = true ∧
    (match acceptable (withRecord (start .nop)) 0 0 with
     | some i => decide (spentOf (withRecord (start .nop)) 3 0 + writesOf (withRecord (start .nop)) i ≤
         ((budgetOf (withRecord (start .nop)) 0).1.extractLsb' 0 16).toNat)
     | none => false) = true ∧
    (let i : TraceItem := { die := 0, src := 0, func := 0, event := 0, arg := 0, payload := 0, slot := 0, spec := false, stamp := 0, granted := true }
     ownDue traced i && (overruns traced i).isEmpty && !copyDue traced i && traced.forwards.isEmpty) = true ∧ (traced.core 0).grantee = 0 ∧
    fires (.traceAccept 0 0) (withRecord (start .nop)) = true ∧
    fires (.trcfgWrite 0 7) traced = true ∧ fires (.trcfgWrite 0 0xC000000000000007) traced = true ∧ (traced.func 0).trace.cfg.getLsbD 0 = true ∧ fires (.trbufWrite 0 0x1000 true) traced = true ∧
    ((start .nop).func 0).trace.cfg.getLsbD 0 = false ∧ tdiLocked (start .nop) 0 = false ∧ fires (.trbufWrite 0 0x1000 true) (start .nop) = true ∧
    fires (.trrpWrite 0 0) traced = true ∧ fires (.trrpWrite 0 1) traced = true := by decide
theorem witness_CarveTraceTimeEvents_epoch : Tbl.getD timed.fabric.epochs 0 0 + 1 ≤ dieTime timed 0 / 2 ^ 40 := by
  have h : 2 ^ 40 ≤ dieTime timed 0 := Nat.le_max_left _ _
  exact (Nat.le_div_iff_mul_le (by decide)).mpr h
theorem witness_CarveTraceTimeEvents_pps : ∃ s : State, s.time.timestat.getLsbD 32 = true ∧ s.time.ppscap.toNat + 32000000000 ≤ dieTime s (masterDie s) :=
  ⟨{ timed with time := { timestat := 1#64 <<< 32, copies := [(masterDie State.reset, 2 ^ 40)] } }, by decide,
    Nat.le_trans (by decide : (0 : DWord).toNat + 32000000000 ≤ 2 ^ 40) (Nat.le_max_left _ _)⟩
theorem witness_CarveTraceTimeEvents_time : fires (.ppsEdge 800) timed = true ∧ fires (.ppsEdge 801) timed = true ∧ fires (.ptmExchange 0) timed = true ∧
    fires .ptmFailureTimeout timed = true ∧
    (let s := { timed with time := { timestat := 0xFF0BDBFF, measured := true } }
     decide (s.time.measured = true ∧ 16000000 < 16000001 ∧ (s.time.timestat.setWidth 32).toInt = -(16000001 : Int)) && fires (.timeForwardStep 16000001) s) = true ∧
    fires (.tbepochWrite 5) timed = true ∧ (traced.funcs.any fun p => p.2.trace.cfg.getLsbD 0) = true ∧ fires (.tbepochWrite 5) traced = true := by decide
/-- Two slices side by side: cores 0 to 3 and 4 to 7 of die 0, way-groups 0 and 1 and 2, channel sets 0 to 3 and 4 to 7. -/
def memA : DWord := 0x0003000000000300
def memB : DWord := 0x0004000000000704
def sliced : State := { State.reset with slices := [(0, { cores := slcores [] [(0, 0, 3)], mem := memA }), (1, { cores := slcores [] [(0, 4, 7)], mem := memB })] }
theorem witness_SliceAndQueueEvents_create :
    decide (sliceUsed sliced 15 = false ∧ sliceBusy sliced 15 = false ∧ rangesOk [(63, 31, 31)] = true ∧ memOk 0x8000000000000908 = true ∧
      partsFree sliced 15 [(63, 31, 31)] 0x8000000000000908 = true ∧ lockedFuncs sliced 15 = []) = true ∧
    fires (.sliceCreate 15 [(63, 31, 31)] 0x8000000000000908) sliced = true ∧
    sliceUsed sliced 0 = true ∧ fires (.sliceCreate 0 [(63, 31, 31)] memA) sliced = true ∧ memOk 0 = false ∧ fires (.sliceCreate 15 [(63, 31, 31)] 0) sliced = true := by
  decide
theorem witness_SliceAndQueueEvents_grow :
    decide (sliceUsed sliced 1 = true ∧ sliceBusy sliced 1 = false ∧ (∀ c ∈ sliceCores sliced 1, c ∈ coresOf [(0, 4, 8)]) ∧
      (wgOf memB &&& ~~~wgOf 0x000C000000000804) = 0 ∧ chBase 0x000C000000000804 ≤ chBase memB ∧ chLim memB ≤ chLim 0x000C000000000804 ∧
      memB.extractLsb' 22 10 = (0x000C000000000804 : DWord).extractLsb' 22 10 ∧ rangesOk [(0, 4, 8)] = true ∧ memOk 0x000C000000000804 = true ∧
      partsFree sliced 1 [(0, 4, 8)] 0x000C000000000804 = true ∧ lockedFuncs sliced 1 = []) = true ∧
    fires (.sliceGrow 1 [(0, 4, 8)] 0x000C000000000804) sliced = true ∧ sliceUsed sliced 15 = false ∧ fires (.sliceGrow 15 [(0, 4, 8)] memB) sliced = true ∧
    (let s := sliced.modSlice 1 fun x => { x with stat := 1 }; sliceBusy s 1 && fires (.sliceGrow 1 [(0, 4, 8)] memB) s) = true := by decide
theorem witness_SliceAndQueueEvents_shrink :
    decide (shrinkOk sliced 0 [(0, 0, 2)] 0x0001000000000200 = true ∧ lostParts sliced 0 [(0, 0, 2)] 0x0001000000000200 ≠ []) = true ∧
    fires (.sliceShrink 0 [(0, 0, 2)] 0x0001000000000200) sliced = true ∧ shrinkOk sliced 0 [(0, 0, 4)] memA = false ∧
    fires (.sliceShrink 0 [(0, 0, 4)] memA) sliced = true ∧
    (let s := sliced.modSlice 0 fun x => { x with target := some (slcores [] [(0, 0, 2)], memA) }
     decide ((s.slice 0).leaving = [] ∧ (s.slice 0).splitTo = none ∧ (s.slice 0).target = some (slcores [] [(0, 0, 2)], memA))) = true ∧
    (let s := sliced.modSlice 0 fun x => { x with stat := 0x21, leaving := [.core 3, .wayGroup 1, .channelSet 3] }
     (teamsOn s 3).isEmpty && (groupDirty s [1]).isEmpty && !setMapped s 0 3 &&
       ([.core 3, .wayGroup 1, .channelSet 3] : List SlicePart).all fun p => fires (.sliceReleaseProgress 0 p) s) = true ∧
    (let s := sliced.modSlice 0 fun x => { x with taken := [1] }
     !(s.slice 0).leaving.contains (.wayGroup 1) && (s.slice 0).taken.contains 1 && (groupDirty s [1]).isEmpty &&
       fires (.sliceReleaseProgress 0 (.wayGroup 1)) s) = true := by decide
theorem witness_SliceAndQueueEvents_mergeSplit :
    (joinRanges (rangesIn (sliced.slice 0)) (rangesIn (sliced.slice 1))).isSome = true ∧
    decide (sliceUsed sliced 0 = true ∧ sliceUsed sliced 1 = true ∧ sliceBusy sliced 0 = false ∧ chLim memA + 1 = chBase memB ∧ sliced.teams = [] ∧ groupDirty sliced ((List.range 16).filter fun g => (wgOf (sliced.slice 1).mem).getLsbD g) = []) = true ∧
    fires (.sliceMerge 0 1) sliced = true ∧
    (let s := sliced.modSlice 1 fun x => { x with cores := slcores [] [(0, 5, 7)] }
     (joinRanges (rangesIn (s.slice 0)) (rangesIn (s.slice 1))).isNone && fires (.sliceMerge 0 1) s) = true ∧
    decide ((∀ c ∈ coresOf [(0, 2, 3)], c ∈ sliceCores sliced 0) ∧ (wgOf 0x0002000000000302 &&& ~~~wgOf memA) = 0 ∧
      (wgOf 0x0001000000000100 &&& wgOf 0x0002000000000302) = 0 ∧ chBase memA ≤ chBase 0x0002000000000302 ∧ chLim 0x0002000000000302 ≤ chLim memA ∧
      chLim 0x0001000000000100 < chBase 0x0002000000000302 ∧ memOk 0x0002000000000302 = true ∧ sliceUsed sliced 15 = false ∧
      shrinkOk sliced 0 [(0, 0, 1)] 0x0001000000000100 = true ∧ lostParts sliced 0 [(0, 0, 1)] 0x0001000000000100 ≠ []) = true ∧
    fires (.sliceSplit 0 15 [(0, 2, 3)] 0x0001000000000100 0x0002000000000302) sliced = true := by decide
theorem witness_SliceAndQueueEvents_reset : (sliced.slice 1).stat.extractLsb' 4 4 ≠ 6 ∧ fires (.sliceReset 1) sliced = true ∧
    (let s := sliced.modSlice 1 fun x => { x with stat := 0x64 }
     decide ((s.slice 1).stat.extractLsb' 4 4 = 6 ∧ (s.slice 1).leaving = [] ∧ sliceUsed s 1 = true) && fires (.sliceReset 1) s) = true := by decide
/-- A function of slice 0 with queue 7, mapped to a slot or not. -/
def queueState (q : Queue) (m : Option QSlot) : State :=
  { State.reset with
    funcs := [(0, { queues := [(7, q)] })], ctxs := [(0, { func := 0, slice := 0 })],
    slices := [(0, { cores := slcores [] [(0, 0, 1)], mem := 0xFF00, slots := match m with | some x => [(63, x)] | none => [] })] }
theorem witness_SliceAndQueueEvents_queues :
    Tbl.get? (State.reset.func 0).queues 7 = none ∧ fires (.queueNotify 0 7 1) State.reset = true ∧
    (2 ^ 4 < (((17 : DWord).setWidth 16 : BitVec 16) - 0).toNat ∧ fires (.queueNotify 0 7 17) (queueState {} none) = true) ∧
    ((((16 : DWord).setWidth 16 : BitVec 16) - 0).toNat ≤ 2 ^ 4 ∧ fires (.queueNotify 0 7 16) (queueState {} none) = true) ∧
    ((queueState {} none).func 0).enabled = true ∧ Tbl.get? ((queueState {} none).slice 0).slots 63 = none ∧ fires (.queueMap 0 7 63) (queueState {} none) = true ∧
    (let s := { queueState { np := true, slot := some 63 } (some { func := 0, queue := 7 }) with time := { master := 16000 } }
     decide (0 + 1 * 16000 ≤ s.time.master) && fires (.npQueueReclaim 0 63) s) = true := by decide
/-- A queue whose ring lies at an address, mapped to slot 63 and due. -/
def dueQueue (ring : Nat) : State := tabled (queueState {} none) |> fun s =>
  { s.modSlice 0 fun x => { x with slots := [(63, { func := 0, queue := 7 })] } with
    funcs := [(0, { queues := [(7, { ring := ring, tail := 1, slot := some 63 })] })] }
theorem witness_SliceAndQueueEvents_fetch : ([(0x20000, true), (0xFFFF0000000000, false)] : List (Nat × Bool)).all (fun x => let s := dueQueue x.1
    slotDue s { func := 0, queue := 7 } && !underReset s 0 && !frontHeld s 0 &&
      (match tableRead (s.modSlice 0 fun y => { y with turn := 64 }) 0 x.1 256 with | .bytes _ => x.2 | .fails => !x.2 | .absent _ => false) &&
      fires (.queueSlotFetch 0 63) s) = true := by decide

/-- An admission to the table at an address, for adapter 9, with its prefetch of 16 bytes from 0x20600. -/
def admission (table : Nat) (st : AdmitSt) : Admission :=
  { slice := 0, ctx := 0, queue := 7, lrec := 0x20000, adapter := 9, table := table, nslots := 1, pref := 0, policy := 0, stride := 0,
    record := leBytes 8 0x1001000000 ++ leBytes 8 0 ++ leBytes 8 0x20600 ++ leBytes 8 0x20700 ++ List.replicate 32 0, st := st }
/-- A state in which that admission, number 3, is under way; its launch record is at 0x20000 and the owner word of its slot at 0x20400. -/
def admitting (table owner : Nat) (st : AdmitSt) : State :=
  let s := putList false (tabled (queueState {} none)) 0x4010 (leBytes 8 0x010000000002003D)
  { putList false (putList false s 0x20000 launchBytes) 0x20400 (leBytes 8 owner) with admissions := [(3, admission table st)] }
theorem witness_SliceAndQueueEvents_admission : let a := fun (t : Nat) => admission t .trying
    tableOwned (admitting 0x20400 0 .trying) (a 0x20400) = false ∧ tableOwned (admitting 0x50000 0 .trying) (a 0x50000) = false ∧
    (let s := admitting 0x20400 5 .trying; findSlot s (a 0x20400) (slotOrder (a 0x20400)) == .none && fires (.adapterAdmission 3) s) = true ∧
    (let s := admitting 0x20400 (2 ^ 63 + 9) .trying; findSlot s (a 0x20400) (slotOrder (a 0x20400)) == .loading 0 && fires (.adapterAdmission 3) s) = true ∧
    (let s := admitting 0x50000 0 .trying; findSlot s (a 0x50000) (slotOrder (a 0x50000)) == .fails && fires (.adapterAdmission 3) s) = true ∧
    (let s := admitting 0x20400 9 .trying
     findSlot s (a 0x20400) (slotOrder (a 0x20400)) == .ready 0 && (queueAdmitted s 3 (a 0x20400) 0 false).isSome && fires (.adapterAdmission 3) s) = true ∧
    (let s := admitting 0x20400 0 .trying
     findSlot s (a 0x20400) (slotOrder (a 0x20400)) == .claim 0 && (ownerAcc s (a 0x20400) 0).isSome && (match prefetchCmd s (a 0x20400) 0 with
       | some c => decide ((waitingCmds s c.die 0 c.func).length < 64)
       | none => false) && fires (.adapterAdmission 3) s) = true := by decide
/-- The prefetch of that admission stands 64 times in the bulk queue. -/
def crowded (s : State) : State :=
  match prefetchCmd s (admission 0x20400 .trying) 0 with
  | some c => { s with bulk := { s.bulk with cmds := (List.range 64).map fun i => (i, c) } }
  | none => s
theorem witness_SliceAndQueueEvents_admissionEnds :
    fires (.adapterAdmission 3) (admitting 0x20400 (2 ^ 63 + 9) (.loaded 0 0x30)) = true ∧
    (let s := admitting 0x20400 5 (.waiting 0)
     (match ownerAcc s (admission 0x20400 (.waiting 0)) 0 with
      | some w => decide (ownerWord s w ≠ 9 ∧ ownerWord s w ≠ ((9 : DWord) ||| (1#64 <<< 63)))
      | none => false) && fires (.adapterAdmission 3) s) = true ∧
    (let s := admitting 0x20400 0 (.claimed 0)
     (match prefetchCmd s (admission 0x20400 (.claimed 0)) 0 with
      | some c => decide ((waitingCmds s c.die 0 c.func).length < 64)
      | none => false) && !tableOwned s (admission 0x20400 (.claimed 0)) && fires (.adapterAdmission 3) s) = true ∧
    (let s := crowded (admitting 0x20400 0 .trying)
     findSlot s (admission 0x20400 .trying) (slotOrder (admission 0x20400 .trying)) == .claim 0 &&
       (match prefetchCmd s (admission 0x20400 .trying) 0 with
        | some c => decide (64 ≤ (waitingCmds s c.die 0 c.func).length)
        | none => false) && fires (.adapterAdmission 3) s) = true ∧
    (let s := admitting 0x20400 0 .held
     findSlot s (admission 0x20400 .held) (slotOrder (admission 0x20400 .held)) != .none && fires (.admissionRetry 3) s) = true := by decide
/-- A 64 KiB page of function 0 in flight on die 0, entry 0, with some of its lines copied. -/
def moving (copied : Nat) (done : Bool) : State :=
  { sliced with funcs := [(0, { slice := 0 })], forwards := [(0, { src := 0x100000, dst := 0, size := 65536, func := 0, report := 0, copied := copied, done := done })] }
theorem witness_MigrationAndRequestEvents_migration :
    (let s := { sliced with funcs := [(0, { slice := 0 })] }
     fires (.migrationCommand 0 0x100000 0 3 0 0) s && decide (psizeBytes 0 = 65536 ∧ 0x100000 % 65536 = 0 ∧ inHbm 0x100000 = true ∧ inHbm 65535 = true ∧ sliceHasAddr s (s.func 0).slice 0 = true ∧
       sliceHasAddr s (s.func 0).slice 65535 = true ∧ 0 + 65536 ≤ 0x100000) &&
       ((List.range 1024).find? fun i => (Tbl.get? s.forwards (1024 * 0 + i)).isNone) == some 0 && fires (.migrationCommand 0 0x100000 0 0 0 0) s) = true ∧
    (let s := moving 511 false
     decide (128 * 511 < 65536 ∧ spentOf s 1 0 < ((budgetOf s 0).1.extractLsb' 32 16).toNat ∧ ownedBefore s s.nextOp (0x100000 + 128 * 511) 128 = false ∧
       ownedBefore s s.nextOp (0 + 128 * 511) 128 = false)) = true ∧
    fires (.migrationDone 0 0) (moving 512 false) = true ∧ fires (.forwardingEntryRetire 0 0) (moving 512 true) = true := by decide
/-- A function whose window table at 0x30000 gives source 0 in window 0 the page at 0x20000, with every right. -/
def windowed : State := tabled (queueState {} none) |> fun s =>
  { putList false s 0x30000 (leBytes 8 0x8700000000020000 ++ leBytes 8 0x0000001000000001) with funcs := [(0, { winBase := some 0x30000 })] }
/-- A pod request for eight bytes at an offset of window 0. -/
def podReq (op : PodOp) : PodReq := { src := 0, win := 0, rfunc := 0, off := 0x400, size := 8, op := op }
theorem witness_MigrationAndRequestEvents_pod :
    (match podTarget windowed 1 0 0 0x400 8 .load with | .error r => r == 3 | .ok _ => false) = true ∧
    fires (.podRequestReceive { podReq .load with rfunc := 1 }) windowed = true ∧
    ([.load, .store [1, 2, 3, 4, 5, 6, 7, 8], .atomic .add 13 [(5, 0)]] : List PodOp).all (fun op =>
      (match podTarget windowed 0 0 0 0x400 8 (podKind op) with
       | .ok (pa, _, _) => decide (pa = 0x20400) && openFor windowed pa 8 (podKind op != .load) && !anyPoison windowed pa 8
       | .error _ => false) && windowed.forwards.isEmpty && fires (.podRequestReceive (podReq op)) windowed) = true := by decide
/-- A state whose function 0 reaches module 1 through station 0, with one operation under way. -/
def peered (o : Op) : State :=
  let s := withOp (start .nop) o
  let s := putList false (putList false s 0x38000 (leBytes 8 0x8000000000000001)) 0x39008 (leBytes 8 0x8000000000000001)
  { s with funcs := [(0, { peerBase := some 0x38000, routeBase := some 0x39000 })], svc := { s.svc with stations := [(0, { up := true, keyed := true })] } }
theorem witness_MigrationAndRequestEvents_responses :
    (let s := withOp (start .nop) (anOp (.atomic .add 7 1) (some .load) [{ word with pa := 2 ^ 51, sysatom := true }])
     opHas s (fun o _ _ => match askedAcc o 0 with | some a => awaited s o a && inHost a.pa | none => false) && fires (.podResponse 0 0 (.refused 5)) s) = true ∧
    (let s := peered (anOp .load (some .load) [{ word with pa := 2 ^ 50 }])
     opHas s (fun o _ _ => match askedAcc o 0 with | some a => awaited s o a && inPod a.pa && !inHost a.pa | none => false) &&
       fires (.podResponse 0 0 (.data [1, 2, 3, 4])) s && fires (.podResponse 0 0 (.poisoned [1, 2, 3, 4])) s && fires (.podResponse 0 0 (.refused 6)) s && fires (.podResponseTimeout 0 0) s) = true := by decide
/-- A state whose tables map the page at 0x20000 with SYSATOM. -/
def atomicPage : State := putList false (tabled (queueState {} none)) 0x4010 (leBytes 8 0x010000000002083D)
theorem witness_MigrationAndRequestEvents_hostAtomic : ([4, 8] : List Nat).all (fun n => decide (0x20400 % n = 0) && inHbm 0x20400 &&
      openFor atomicPage 0x20400 n true && atomicPage.forwards.isEmpty && !anyPoison atomicPage 0x20400 n) = true ∧
    (match mappingsOf atomicPage 0x20400 with | (_, true) :: _ => true | _ => false) = true := by decide
/-- A machine without contexts maps nothing. -/
def hostless : State := State.reset
theorem witness_MigrationAndRequestEvents_hostUnmapped : mappingsOf hostless 0x40000 = [] ∧ fires (.hostAtomicop 0x40000 .swap 8 5 6) hostless = true ∧ inHbm (2 ^ 51) = false ∧
    fires (.hostAtomicop (2 ^ 51) .swap 8 5 6) atomicPage = true := by decide
theorem witness_MigrationAndRequestEvents_hostMemory :
    (inHbm 0x20400 = true ∧ inHbm (0x20400 + 2 - 1) = true ∧ openFor atomicPage 0x20400 2 true = true ∧ fires (.hostMemoryWrite 0x20400 [1, 2]) (start .nop) = true) ∧
    openFor atomicPage 0x20400 2 false = true ∧ fires (.hostMemoryRead 0x20400 2) (start .nop) = true ∧
    fires (.hostMemoryRead (2 ^ 51) 2) atomicPage = true := by decide
/-- A PF and a VF, with the expert window's groups enabled or none, TBLSEL set, and the PF's tables. -/
def hosted (groups : List Nat) (sel : DWord) : State :=
  { State.reset with
    funcs := [(0, { peerBase := some 0x30000, winBase := some 0x40000, routeBase := some 0x140000 }), (1, { slice := 1 })],
    sec := { groups := groups, tblsel := sel } }
theorem witness_RegisterEvents :
    (Tbl.get? (hosted [] 0).funcs 1).isSome = true ∧ fires (.mailboxDoorbell 1 true 5) (hosted [] 0) = true ∧ fires (.mailboxDoorbell 1 false 5) (hosted [] 0) = true ∧
    barReached (hosted [] 0) 1 1 0 none = false ∧ fires (.registerWrite 1 1 0 8 5 none) (hosted [] 0) = true ∧
    ([0, 0x7FF8, 0x8000, 0x8008, 0x8018, 0x8020, 0x8028, 0x8030, 0xA000, 0xFFFF8, 0x100000, 0xFFFFF8] : List Nat).all (fun off =>
      barReached (hosted [] 0) 1 0 off none && !(hosted [] 0).svc.recovery && off % 8 == 0 && fires (.registerWrite 1 0 off 8 5 none) (hosted [] 0)) = true ∧
    ([(0x8028 : Nat), 0x105048, 0x105050].all fun off => let s := hosted [5] 0
      barReached s 1 0 off none && !s.svc.recovery && decide ((s.func 0).tdi ≠ .error) && groupOn s 5 && fires (.registerWrite 1 0 off 8 5 none) s) = true ∧
    (let s := { hosted [] 0 with svc := { recovery := true } }
     barReached s 0 0 0x8FF8 none && fires (.registerWrite 0 0 0x8FF8 8 5 none) s) = true ∧ (hosted [] 0).sec.groups = [] ∧
    (groupOn (hosted [0] 0) 0 = true ∧ lockedFuncs (hosted [0] 0) 15 = []) ∧
    ([(0x03FF, 0, .tblgoPeer), (0x4000000000000000 + 0xFFFF, 1, .tblgoWindow), (0x8000000000000000 + 0x3FF, 2, .tblgoRouting)] :
      List (DWord × Nat × Instr)).all (fun x => let s := hosted [5] x.1
        decide (selTable s = x.2.1 ∧ (selIndex s ≤ 1023 ∨ x.2.1 = 1) ∧ selFunc s = 0) && groupOn s 5 && !tdiLocked s 0 && s.forwards.isEmpty && fires x.2.2 s &&
          (let u := hosted [] x.1; !groupOn u 5 && fires x.2.2 u)) = true ∧ 0x30000 + 8192 < 2 ^ 51 ∧
    (let s := hosted [5] (BitVec.ofNat 64 (2 ^ 49)); selFunc s == 1 && (s.func 1).peerBase.isNone && fires .tblgoPeer s) = true := by decide
/-- A PF, and a VF in a TDISP state with a stream and a requester; key 5 belongs to the VF or to nobody. -/
def confined (tdi : Tdi) (key : Bool) (sec : Sec) : State :=
  { State.reset with
    funcs := [(0, {}), (1, { tdi := tdi, stream := some 3, requester := some 0, key := if key then some 5 else none })],
    sec := { sec with keys := if key then [(5, { owner := some 1, gen := 1 })] else [] } }
theorem witness_SecurityEvents_keys :
    decide ((Tbl.getD (confined .unlocked false {}).sec.keys 127 {}).owner = none ∧ ((confined .unlocked false {}).func 1).key = none ∧
      tdiLocked (confined .unlocked false {}) 1 = false) = true ∧ fires (.keyAssign 127 1) (confined .unlocked false {}) = true ∧
    fires (.keyAssign 0 1) (confined .unlocked false {}) = true ∧ ((confined .unlocked true {}).func 1).key.isSome = true ∧
    fires (.keyAssign 6 1) (confined .unlocked true {}) = true ∧ tdiLocked (confined .locked false {}) 1 = true ∧ fires (.keyAssign 6 1) (confined .locked false {}) = true ∧
    (Tbl.getD (confined .unlocked true {}).sec.keys 5 {}).owner = some 1 ∧ fires (.keyRetire 5) (confined .unlocked true {}) = true ∧
    fires (.keyRetire 6) (confined .unlocked true {}) = true ∧ fires (.functionLevelReset 1) (confined .run true {}) = true ∧
    fires (.functionLevelReset 0) (confined .run true {}) = true ∧
    fires (.functionLevelReset 0) { State.reset with funcs := [(0, {})] } = true := by decide
/-- A secured session, number 0. -/
def session : Sec := { session := some 0, finished := true, sessions := 1, negotiated := true }
theorem witness_SecurityEvents_interfaces :
    secured (confined .unlocked false session) = true ∧ fires (.ideKmKeyProgram 1 16) (confined .unlocked false session) = true ∧
    ((confined .run false {}).funcs.all fun p => decide (p.2.stream ≠ some 4)) = true ∧ fires (.ideIntegrityFailure 0 4) (confined .run false {}) = true ∧
    (let s := { State.reset with funcs := [(1, { tdi := .run, stream := some 3 })] }
     decide (s.funcs.length = 1 ∧ (s.func 1).stream = some 3 ∧ linkOf s 1 = 0 ∧ (s.func 1).tdi = .run) && fires (.ideIntegrityFailure 0 3) s) = true ∧
    ([.unlocked, .locked, .run, .error] : List Tdi).all (fun x => let s := confined x false {}
      isTdi s 1 && fires (.lockInterfaceRequest 1 3) s && fires (.startInterfaceRequest 1) s && fires (.stopInterfaceRequest 1) s && fires (.deviceInterfaceReport 1) s) = true := by
  decide
theorem witness_SecurityEvents_spdm : ([{}, session, { negotiated := true }] : List Sec).all (fun x => let s := confined .locked false x
    ([.getVersion, .getCapabilities, .negotiateAlgorithms 2 16 2, .negotiateAlgorithms 1 16 2, .getDigests, .getCertificate 1, .getCertificate 2, .challenge 1 [],
      .getMeasurements 1 0xFF [], .getMeasurements 0 9 [], .keyExchange 0 [], .finish, .endSession, .keyLoad 1 (.session 63) 5, .keyLoad 1 (.session 64) 5] : List Instr).all (fires · s)) = true := by decide
theorem witness_ServiceEvents_power : fires (.powerOnSequence [.die 3, .channelSet 9, .lane 0 1] { puf := false, images := [] } none) sliced = true ∧
    (let m : Manifest := { modid := 5, slices := [(0, [(0, 0, 3)], memA)], funcs := [(0, 0, 0)], budgets := [(0, 0, 0)], svn := 2, rollback := 2 }
     decide (m.rollback ≤ m.svn) && (applyManifest (started sliced true) m).isSome && fires (.powerOnSequence [] { puf := true, images := [] } (some m)) sliced &&
       applyManifest (started sliced true) { m with slices := [(16, [(0, 0, 3)], memA)] } == none &&
       fires (.powerOnSequence [] { puf := true, images := [] } (some { m with slices := [(16, [(0, 0, 3)], memA)] })) sliced &&
       fires (.powerOnSequence [] { puf := true, images := [] } (some { m with svn := 1 })) sliced) = true ∧
    (let s := { sliced with time := { master := 160000 } }
     decide (s.svc.governed + 160000 ≤ s.time.master ∧ (63 : Nat) < 64) && fires (.governorEvaluate [63] []) s && fires (.governorEvaluate [] [63]) s) = true ∧
    Tbl.get? sliced.svc.fast 63 = none ∧ fires (.governorFastStep 63) sliced = true := by decide
theorem witness_ServiceEvents_service : sliced.svc.updating = [] ∧ sliced.svc.svn ≤ 0 ∧ fires (.firmwareUpdate 63 0 true) sliced = true ∧
    fires (.firmwareUpdate 63 0 false) sliced = true ∧
    (let s := { sliced with svc := { updating := [(63, 1)] } }; quietState s && (Tbl.get? s.svc.updating 63).isSome && s.svc.replies.isEmpty && fires (.firmwareUpdate 63 1 true) s) = true ∧
    linked 63 62 = true ∧ linked 0 9 = false ∧ Tbl.getD sliced.svc.lanes (64 * 62 + 63) 0 < 2 ∧ fires (.d2dLaneRetire 63 62) sliced = true ∧
    0 < (Tbl.getD sliced.svc.stations 17 {}).lanes ∧ fires (.ualinkLaneRetire 17) sliced = true ∧ fires (.ualinkStationDown 17) sliced = true ∧
    fires (.ualinkStationUp (17, true)) sliced = true ∧
    ((List.range 16).all fun i => (sliced.slice i).mem == 0 || decide (255 < chBase (sliced.slice i).mem ∨ chLim (sliced.slice i).mem < 255)) = true ∧
    fires (.hbmChannelRetire 255) sliced = true ∧ fires (.dieFence 63) sliced = true := by decide

/-! Witnesses of further clauses. -/

/-- A fault held against instruction 0, of the load class. -/
def aHeld : Held := { op := 0, cls := some .load, regs := [], shape := none, info := { kind := .poison, resume := 0, fault := 0 } }
/-- A crew that speculates past barrier 0. -/
def inSpec (c : Crew) : Crew :=
  { c with spec := some { cp := aRegion.cp, handle := 0, phase := 0, shadow := [], reads := [], first := 0, stopped := false, bars := 0x10000 } }
/-- Guard s5 is zero: no lane is active. -/
def noLane (c : Crew) : Crew := { c with mode := c.mode ||| 5 }.setS 5 0
/-- Of two crews that could issue, the one of lower index is ready first, if no unit it needs is busy. -/
theorem test_slotOrder (h : Config.unitBusy 1 0 = false) :
    let s := { twoCrews .nop with clock := 1 }
    (match s.crew? 1 with | some c => !chosen s 1 c | none => false) = true := by
  have e : crewReady { twoCrews .nop with clock := 1 } 0 = true :=
    (Bool.and_eq_true _ _).mpr ⟨by rw [show ({ twoCrews .nop with clock := 1 } : State).clock = 1 from rfl, h]; rfl, by decide⟩
  have f : ∀ b, b = true → (!!((true && b) || false)) = true := by decide
  exact f _ e
theorem witness_StepRunsDecodedInstruction_cases :
    found (putList false (start .nop) 0x10000 (leBytes 4 0)) (fun c t =>
      fetch (putList false (start .nop) 0x10000 (leBytes 4 0)) t c.pc == .word 0 && (match decodeBytes (bytesOfWord 0) with | .error _ => true | .ok _ => false)) = true ∧
    found ((start .nop).modCrew 0 fun c => { c with pc := 0x90000 }) (fun c t => fetch (start .nop) t c.pc == .fails 0 0) = true := by decide
theorem witness_WaitsAndEnd_held :
    can (.wait 0 63 63 63) (fun s c _ => own s c && decide (classCount s s.cur .load ≤ 0) && c.held.any (waitCovers (fun x => if x = .load then 0 else 63) []))
      (fun c => { c with held := [aHeld] }) = true ∧
    can (.wait 63 0 63 63) (fun _ c _ => c.held.all fun h => !waitCovers (fun x => if x = .store then 0 else 63) [] h) (fun c => { c with held := [aHeld] }) = true ∧
    can (.waitr 1 0) (fun s c _ => own s c && c.held.any (waitCovers (fun x => if x = .load then 5 else 63) [])) (fun c => { c.setS 1 5 with held := [aHeld] }) = true ∧
    meets (withOp (start .endCrew) (anOp .load (some .load))) .endCrew (fun s c _ => decide (c.region = none ∧ s.crew? s.cur = some c) &&
      s.ops.any fun p => p.2.crew == s.cur && p.2.cls.isSome) = true := by decide
theorem witness_WaitsAndEnd_last : ∃ s s1 c t, ready s .endCrew = some (s1, c, t) ∧ c.held = [] ∧ c.region = none ∧
    (∀ p ∈ s1.ops, p.2.crew ≠ s1.cur) ∧ s1.wideMsgs = [] ∧
    (∀ ev arg spec, delivers s1 (funcOfTeam s1 c.team) (coreOf s1.cur / 32) ev arg spec (some c) = false) ∧ (s1.core (coreOf s1.cur)).trivet = [] ∧
    s1.crew? s1.cur = some c ∧ s1.team? c.team = some t ∧ ∀ k ∈ t.crews, k = s1.cur ∨ k ∈ t.ended :=
  ⟨start .endCrew, _, _, _, rfl, by decide, by decide, by decide, by decide, fun _ _ _ => rfl, by decide, by decide, by decide, by decide⟩
theorem witness_LoadsIssue_more :
    can (.ld 1 2 3) (fun s c t => c.spec.isSome && decide (c.actives t.width ≠ []) && fine true false c t &&
      (let as := (c.actives t.width).map fun l => { mkAcc t true false l 0 (laneAddr c 2 3 l).toNat (memSize c.mode) with dst := some (ldDst c.mode 1 l) }
       (as.all fun x => !uncached x) && (trackLoads s s.cur c as).isSome)) (fun c => inSpec (base c)) = true ∧
    can (.ldt 255 15 63) (fun _ c t => match Tbl.get? t.shapes 15 with
      | some sh => decide (shapeHeld c 15 = false ∧ sh.boxr + 1 ≤ 16 ∧ (255 : VReg).toNat + sh.boxr < t.nvreg ∧ (63 : SReg).toNat + sh.rank - 1 ≤ 63 ∧
          boxElems c t sh 63 = [])
      | none => false) noLane = true := by decide
theorem witness_StoresIssue_more :
    can (.st 1 2 3) (fun s c t => fine false true c t && own s c && decide (c.region ≠ none ∧ mOrd c.mode ≠ 2 ∧ classCount s s.cur .store < 62) &&
      !bufferRoom s s.cur c ((c.actives t.width).map fun l => mkAcc t false true l 0 (laneAddr c 2 3 l).toNat (memSize c.mode)))
      (fun c => { (oneLane c).setS 2 0x24000 with region := some aRegion, buf := (List.range 128).map fun i => { va := 0x20000 + 128 * i, pa := 0x20000 + 128 * i, size := 4 } })
      paged = true ∧
    can (.stt 1 15 6) (fun _ c t => match Tbl.get? t.shapes 15 with
      | some sh => decide (mOrd c.mode = 2 ∧ boxElems c t sh 6 ≠ []) && (boxElems c t sh 6).all fun x => x.va.isNone
      | none => false) (fun c => { c with mode := 0x8000000 }.setS 6 0x1000) = true := by decide
theorem witness_CopiesAtomicsBins_noLane :
    ([.cpy4 1 2 4, .cpy8 1 2 4, .cpy16 1 2 4] : List Instr).all (can · (fun _ c t => decide (c.actives t.width = [])) noLane) = true ∧
    can (.aadd 1 2 3) (fun _ c t => decide (c.actives t.width = [])) (fun c => noLane { c with mode := 0x180 }) = true ∧
    can (.acas 2 2 3) (fun _ c t => decide (c.actives t.width = [])) (fun c => noLane { c with mode := 0x300 }) = true ∧
    can (.binw 1 2 3) (fun _ c t => decide ((c.getS 3).extractLsb' 56 8 = 0 ∧ ((c.getS 3).extractLsb' 0 6).toNat < t.nsem ∧ c.actives t.width = []))
      (fun c => (noLane c).setS 3 0x2003F) = true := by decide
theorem witness_BinsAndBulk_poison : meets { ((start (.bulk 1 2)).modCrew 0 (·.setS 2 0x20000)).modTeam 0 paged with poison := [granOf 0x20000] } (.bulk 1 2)
    (fun s c t => own s c && (accessFaults t true false true false 64 (c.getS 2).toNat 64).isEmpty &&
      match readNow s s.cur c (mkAcc t true false 0 0 (c.getS 2).toNat 64) with | some (.ok (_, bad)) => bad | _ => false) = true := by decide
theorem witness_Semaphores_line :
    (let i := Instr.semacq 63 1
     let s := ((start i).modCrew 0 (·.setS 1 5)).modTeam 0 fun t => { held 63 4 t with semWait := [(63, 0)] }
     meets s i (fun s c t => decide (0 < (c.getS 1).toNat ∧ (Sparse.get t.sems 63).toNat < (c.getS 1).toNat) && t.semWait.any fun x => x.1 == 63 && x.2 == s.cur) &&
     meets (withOp ((start i).modCrew 0 (·.setS 1 5)) { anOp .load (some .load) [{}] with acq := true }) i
       (fun s c _ => decide (0 < (c.getS 1).toNat) && s.ops.any fun p => decide (p.1 < s.nextOp) && p.2.crew == s.cur && p.2.acq && !p.2.performed) &&
     meets (((start i).modCrew 0 (·.setS 1 5)).modTeam 0 fun t => { held 63 5 t with semWait := [(63, 0)] }) i
       (fun s c t => decide (s.team? c.team = some t ∧ s.ops = [] ∧ (c.getS 1).toNat ≤ (Sparse.get t.sems 63).toNat) &&
         (match t.semWait.find? fun x => x.1 == 63 with | some x => x.2 == s.cur | none => false))) = true ∧
    can (.semtry 1 63) (fun _ _ t => t.semWait.any fun x => x.1 == 63) id (fun t => { held 63 5 t with semWait := [(63, 7)] }) = true := by decide
/-- A WAITC on a place that nothing answers yet, or that is refused: a pod window of a function without a peer table. -/
theorem witness_ConditionWaits_more :
    (let s := ((start (.waitc 0 2 3)).modCrew 0 fun c => { c with mode := 0x180 }.setS 2 0x20000).modTeam 0 fun t =>
       { t with extents := { range := 0, vlo := 0x20000, vhi := 0x30000, plo := 2 ^ 50, r := true, w := true, present := true } :: t.extents }
     meets s (.waitc 0 2 3) fun s c t => outside s c && (accessFaults t true false false false 4 (c.getS 2).toNat 4).isEmpty &&
       match waitRead s s.cur c.team (mOrd c.mode == 1) (mkAcc t true false 0 0 (c.getS 2).toNat 4) with | some (.error _) => true | _ => false) = true ∧
    (let s := withOp (((start (.waitc 0 2 3)).modCrew 0 fun c => { c with mode := 0x180 }.setS 2 0x20000).modTeam 0 paged)
       { anOp .load (some .load) [word] with acq := true }
     meets s (.waitc 0 2 3) fun s c t => outside s c &&
       (waitRead s s.cur c.team (mOrd c.mode == 1) (mkAcc t true false 0 0 (c.getS 2).toNat 4)).isNone) = true := by decide
theorem witness_BarrierArrivals_more :
    ([0, 1] : List Word).all (fun p => can (.bar 127) (fun s c t => outside s c && decide (s.team? c.team = some t ∧ s.ops = [] ∧ s.wideMsgs = [] ∧
      Tbl.get? (Tbl.getD t.bars 127 {}).pend s.cur = some p)) id fun t => { t with bars := [(127, { armed := true, e := 2, arr := 1, pend := [(0, p)] })] }) = true ∧
    ([.bar 128, .bara 255, .bard 200] : List Instr).all (fun i => can i fun s c t => outside s c && decide (s.team? c.team = some t ∧ s.ops = [] ∧ s.wideMsgs = [] ∧
      s.wide = [])) = true ∧
    can (.bari 127 1) (fun s c t => outside s c && decide ((Tbl.getD t.bars 127 {}).armed = true ∧ (Tbl.getD t.bars 127 {}).e = (c.getS 1).toNat)) (·.setS 1 1)
      (fun t => { t with crews := [0, 1], bars := [(127, { armed := true, e := 1, arr := 0 })] }) = true ∧
    can (.bari 127 1) (fun s c t => outside s c && decide ((Tbl.getD t.bars 127 {}).armed = true ∧ (Tbl.getD t.bars 127 {}).arr ≠ 0 ∧
      (Tbl.getD t.bars 127 {}).e ≠ (c.getS 1).toNat ∧ (c.getS 1).toNat ≤ t.crews.length)) (·.setS 1 1)
      (fun t => { t with crews := [0, 1], bars := [(127, { armed := true, e := 2, arr := 1 })] }) = true ∧
    can (.bari 128 1) (fun s c _ => outside s c && decide (0 < (c.getS 1).toNat ∧ (c.getS 1).toNat < 2 ^ 24)) (·.setS 1 0xFFFFFF) = true := by decide
theorem witness_WorkInstructions_spawn :
    meets (withOp (records (.tspawn 1 2) 0x20100) (anOp .store (some .store) [word])) (.tspawn 1 2) (fun s c t => outside s c && decide (c.spawn = none ∧
      queueFull s t.ctx = false) && s.ops.any fun p => p.2.crew == s.cur && decide (p.1 < s.nextOp) && !p.2.performed && !p.2.kind.isEngine) = true ∧
    meets ((records (.tspawn 1 2) 0x20100).modCrew 0 fun c => { c with spawn := some (0x20100, taskOf taskBytes, launchOf launchBytes) }) (.tspawn 1 2)
      (fun s c t => decide (c.spawn = some (0x20100, taskOf taskBytes, launchOf launchBytes) ∧ c.fenceAt = none ∧ s.ops = [] ∧
        owner s s.nextOp (mkAcc t true true 0 0 (taskOf taskBytes).cnt 16).pa 16 = none)) = true := by decide
theorem witness_WaitAndBarrierEvents_more :
    (let s := (start .nop).modCrew 0 fun c => { c with wait := .woken none 0 }
     found s (fun c _ => c.spec.isNone && decide (c.wait = .woken none 0)) && fires (.monitorWake 0) s) = true ∧
    (let s := { wideState (.arm 0) {} with wide := [(128 * 4096, { armed := true, e := 2, arr := 1 })] }
     ((Tbl.getD s.wide (128 * 4096) {}).arm 1).isNone && found s (fun c _ => c.spec.isNone)) = true ∧
    (let s := { (start .nop).modCrew 0 (fun c => { c with wait := .barrier 128 1 }) with wideDone := [(128 * 4096, 0, 1, 0)] }
     found s (fun _ t => decide (wideOf s t 128 = 128 * 4096))) = true := by decide

/-! Witnesses of clauses on speculation, page replies held back, errors in copies, keys, the MSI-X table and bring-up. -/

theorem settled_of_empty (s : State) (h : s.ops = [] ∧ s.bulk.cmds = []) : Settled s := by
  constructor
  · intro p hp; rw [h.1] at hp; cases hp
  · intro p hp; rw [h.2] at hp; cases hp
theorem witness_Settled : Settled (start (.fence 6 3)) ∧ Settled (start (.semset 63 1)) ∧ Settled (twoCrews (.bar 127)) :=
  ⟨settled_of_empty _ (by decide), settled_of_empty _ (by decide), settled_of_empty _ (by decide)⟩
theorem witness_VectorToScalar_float : can (.vred 1 2) (fun _ c t => decide (mRedop c.mode = 1 ∧ floats c.mode = true ∧ c.actives t.width ≠ []))
      (fun c => { c with mode := 0x100000 }) = true ∧
    can (.vred 1 2) (fun _ c t => decide (mRedop c.mode = 2 ∧ floats c.mode = true ∧ c.actives t.width = [])) (fun c => noLane { c with mode := 0x200000 }) = true := by
  decide
theorem witness_GangInstructions_spec : can (.gang 1) (fun _ c t => c.spec.isSome && fineGang c t (c.getS 1)) inSpec = true := by decide
theorem witness_BarrierPhases_spec : (dueState.crews.all fun p => match p.2.spec with | some sp => sp.gangs.isEmpty | none => true) = true := by decide
theorem witness_WorkInstructions_held : let s := records (.launch 1 2) 0x20000
    meets { s with svc := { s.svc with updating := [(sliceDie s 0, 1)] } } (.launch 1 2)
      (fun s c t => outside s c && readable s c t (c.getS 2).toNat 256 launchBytes && frontHeld s 0) = true := by decide
theorem witness_TakingATrap_calm : found ((start .nop).modTeam 0 fun t => { t with trapv := 0x10000 })
    (fun c t => !entryEnding (start .nop) t && decide (c.stallSum = 0 ∧ c.spawn = none)) = true := by decide
theorem witness_TranslationEvents_held :
    (let s := requested { page := 2, host := false, read := true, write := false, pasid := 0, sent := true }
     let u := { s with svc := { s.svc with updating := [(sliceDie s 0, 1)] } }
     ctxHas u (fun x => frontHeld u x.slice && !replyHeld u 0 3) && fires (.pageRequestReply 0 3 0) u && !replyHeld s 0 3) = true := by decide
theorem witness_HaltEvents_errors_more : merging (sharing none true) 0 = false ∧ (l1Line (linedCore []) 0 1024).isSome = true ∧
    fires (.scrubSector (.l1Word 0 1024 31)) (linedCore []) = true ∧ fires (.scrubSector (.read 0x20000)) (start .nop) = true ∧
    found (start .nop) (fun c _ => decide (c.stalled = none ∧ c.stallSum = 0)) = true ∧ (start .nop).fabric.starved = false := by decide
theorem witness_SliceAndQueueEvents_more :
    decide (lostParts sliced 0 (rangesOf (slcores (sliced.slice 0).cores [(0, 0, 2)])) 0x0001000000000200 ≠ [] ∧ (sliced.slice 0).target = none ∧
      (sliced.slice 0).splitTo = none ∧ (sliced.slice 1).leaving = [] ∧
      lostParts sliced 0 (rangesOf (slcores (sliced.slice 0).cores [(0, 0, 1)])) 0x0001000000000100 ≠ []) = true ∧
    (let s := queueState { slot := some 63 } (some { func := 0, queue := 7 })
     fires (.queueMap 0 7 64) s) = true ∧
    (let s := admitting 0x20400 5 (.waiting 0)
     let a := admission 0x20400 (.waiting 0)
     (match ownerAcc s a 0 with | some w => !(ownerWord s w).getLsbD 63 | none => false) && (queueAdmitted s 3 a 0 false).isSome && !tableOwned s a &&
       fires (.adapterAdmission 3) s) = true := by decide
theorem witness_MigrationAndRequestEvents_failed :
    (let s := { sliced with forwards := [(0, { src := 0x100000, dst := 0, size := 65536, func := 0, report := 0, copied := 5, failed := true })] }
     fires (.migrationDone 0 0) s) = true := by decide
/-- The PF and VF of the register tests, whose VF is locked and has tables. -/
def lockedTables (sel : DWord) : State :=
  { hosted [5] (sel + 2 ^ 49) with
    funcs := [(1, { tdi := .locked, slice := 1, peerBase := some 0x30000, winBase := some 0x40000, routeBase := some 0x140000 })] }
theorem witness_RegisterEvents_more :
    ([0xE000, 0xE078] : List Nat).all (fun off => barReached (hosted [] 0) 1 0 off none && fires (.registerWrite 1 0 off 8 0xFFFFFFFFFFFFFFFF none) (hosted [] 0)) = true ∧
    readWord (hosted [] 0) 0 0xE008 = 1#64 <<< 32 ∧ readWord (writeMsix (hosted [] 0) 0 15 0xFFFFFFFFFFFFFFFF) 0 0xE078 = 0x1FFFFFFFF ∧
    (writeMsix ((hosted [] 0).modFunc 0 fun f => { f with msixPend := [3], msixTab := [(6, 0x1000)] }) 0 7 5 |>.func 0).msix = [(3, 0x1000, 5)] ∧
    (postMail (writeMsix (hosted [] 0) 0 1 9) 0 4 |>.func 0).msix = [(0, 0, 9)] ∧ (postMail (hosted [] 0) 0 4 |>.func 0).msixPend = [0] ∧
    (writeConfig { hosted [] 0 with svc := { ready := true } } 1 0 0x28 0x40).sec.atomicLinks = [1] ∧
    fires (.registerWrite 1 0 (2 ^ 32 + 0x28) 4 0x40 none) (hosted [] 0) = true ∧
    ([(0, .tblgoPeer), (0x4000000000000000, .tblgoWindow), (0x8000000000000000, .tblgoRouting)] : List (DWord × Instr)).all (fun x =>
      fires x.2 (lockedTables x.1) && tdiLocked (lockedTables x.1) (selFunc (lockedTables x.1)) && selFunc (lockedTables x.1) == 1 &&
        fires x.2 (hosted [5] (x.1 + 2 ^ 49)) && ((hosted [5] (x.1 + 2 ^ 49)).func 1).winBase.isNone &&
        ((hosted [5] (x.1 + 2 ^ 49)).func 1).routeBase.isNone) = true := by decide
theorem witness_SecurityEvents_moves :
    (let s := keyState (confined .unlocked false {}) (some (.assign 127 1))
     decide (s.sec.keyOp = some (.assign 127 1)) && fires (.keyAssign 127 1) s && fires (.keyAssign 6 1) s) = true ∧
    (let s := keyState (confined .unlocked true {}) (some (.retire 5))
     decide (s.sec.keyOp = some (.retire 5) ∧ (Tbl.getD s.sec.keys 5 {}).owner = some 1) && fires (.keyRetire 5) s) = true ∧
    (confined .locked true {}).sec.keyOp = none ∧ fires (.keyRetire 5) (confined .locked true {}) = true ∧
    fires (.keyLoad 1 (.mailbox 63) 5) (confined .unlocked false {}) = true := by decide
theorem test_keyStatus : (keyState (confined .unlocked false {}) (some (.assign 127 1))).sec.keystat = 1 ∧
    (keyState (keyRefuse (confined .unlocked true {})) (some (.retire 5))).sec.keystat = 6 := by decide
/-- A manifest with one slice, and a firmware image that is not too old. -/
def aManifest : Manifest := { modid := 5, slices := [(0, [(0, 0, 3)], memA)], funcs := [(0, 0, 0)], budgets := [(0, 0, 0)], svn := 2, rollback := 2 }
def anImage (verified : Bool) : Boot := { puf := true, images := [{ index := 2, bytes := [1], svn := 2, verified := verified }] }
theorem witness_ServiceEvents_manifest : (applyManifest (started sliced true) aManifest).isSome = true := by decide
theorem witness_ServiceEvents_images : (bootOk sliced (anImage true) aManifest && !bootOk sliced (anImage false) aManifest) = true := by decide
theorem witness_ServiceEvents_update : let s := { sliced with svc := { updating := [(63, 1)] } }
    Tbl.get? s.svc.updating 63 = some 1 ∧ s.svc.replies = [] := by decide

end Sys2Proof.Tests
end

section
/-! SUPPORT and PROOF. Every step keeps the canonical form of memory (R4, R208). Memory is written in few places: bytes are put one by one, and
the reset of a slice, the move of a scratchpad unit and the start of the module set or drop cells. All else leaves it alone. Each operation that
an instruction or an event calls has a lemma here, in the order of the model's files; the arms of `exec` are then read off. -/
namespace Sys2Proof

/-- Dropping cells keeps the canonical form. -/
theorem Sparse.wf_filter {w : Nat} {t : Sparse w} (p : Nat × BitVec w → Bool) (h : Sparse.wf t = true) : Sparse.wf (t.filter p) = true := by
  induction t with
  | nil => exact h
  | cons q t ih =>
    obtain ⟨k, v⟩ := q
    obtain ⟨hv, ha, hw⟩ := (Sparse.wf_cons k v t).mp h
    rw [List.filter_cons]
    split
    · exact (Sparse.wf_cons k v _).mpr ⟨hv, fun q hq => ha q (List.mem_filter.mp hq).1, ih hw⟩
    · exact ih hw
/-- So do writes of listed cells. -/
theorem Sparse.wf_foldl_set {w : Nat} {t : Sparse w} (l : List (Nat × BitVec w)) (h : Sparse.wf t = true) :
    Sparse.wf (l.foldl (fun m p => Sparse.set m p.1 p.2) t) = true :=
  Machine.foldl_keeps (fun m => Sparse.wf m = true) _ (fun _ p hm => Sparse.wf_set p.1 p.2 hm) l t h

namespace Machine

/-- The next state that an instruction or an event answers, if it answers one, has its memory in canonical form. Like the two below this is an
equation of Booleans, so that a goal of this form is not evaluated before a lemma is applied to it. -/
def InvNext (r : Host.Outcome State Fault Refusal) : Prop := (match r with | .next s => Memory.wf s.mem | _ => true) = true
/-- The state that an operation gives, if it gives one, has its memory in canonical form. -/
def InvSome (o : Option State) : Prop := (match o with | some s => Memory.wf s.mem | none => true) = true
/-- The same for an operation that gives a state with something else. -/
def InvFst {α : Type} (o : Option (State × α)) : Prop := (match o with | some p => Memory.wf p.1.mem | none => true) = true

theorem inv_of_next {r : Host.Outcome State Fault Refusal} {s : State} (h : InvNext r) (e : r = .next s) : Inv s := by subst e; exact h
theorem inv_of_some {o : Option State} {s : State} (h : InvSome o) (e : o = some s) : Inv s := by subst e; exact h
theorem inv_of_fst {α : Type} {p : State × α} {s : State} {x : α} (h : Inv p.1) (e : p = (s, x)) : Inv s := by subst e; exact h
theorem inv_of_some_fst {α : Type} {o : Option (State × α)} {s : State} {x : α} (h : InvFst o) (e : o = some (s, x)) : Inv s := by
  subst e; exact h
theorem some_of_forall {o : Option State} (h : ∀ s, o = some s → Inv s) : InvSome o := by
  cases o with
  | none => rfl
  | some s => exact h s rfl
/-- A state put together with the memory of another. -/
theorem inv_mk {s : State} (h : Inv s) {undo : Tbl Byte} {l2 : List L2Line} {targets : Tbl Nat} {poison : List Nat} {secKey : Tbl
    (Nat × Nat)} {crews : Tbl Crew} {teams : Tbl Team} {entries : Tbl Entry} {bound : Tbl Bound} {ctxs : Tbl Ctx} {funcs : Tbl
    Func} {cores : Tbl Core} {slices : Tbl Slice} {ops : Tbl Op} {monitors : List Monitor} {wide : Tbl Barrier} {wideMsgs : List
    WideMsg} {wideDone : List (Nat × Nat × Word × Nat)} {bulk : Bulk} {forwards : Tbl Forward} {admissions : Tbl Admission}
    {invals : Tbl Invalidation} {fabric : Fabric} {time : Time} {sec : Sec} {svc : Service} {promoted : List Nat} {schedule : List
    Move} {cur : Nat} {clock : Nat} {nextOp : Nat} {nextId : Nat} :
        Inv ⟨s.mem, undo, l2, targets, poison, secKey, crews, teams, entries, bound, ctxs, funcs, cores, slices, ops, monitors,
      wide, wideMsgs, wideDone, bulk, forwards, admissions, invals, fabric, time, sec, svc, promoted, schedule, cur, clock,
      nextOp, nextId⟩ := h
theorem inv_ite {p : Prop} [Decidable p] {s t : State} (hs : Inv s) (ht : Inv t) : Inv (if p then s else t) := solid_ite inv_solid hs ht
theorem next_ite {p : Prop} [Decidable p] {a b : Host.Outcome State Fault Refusal} (ha : InvNext a) (hb : InvNext b) :
    InvNext (if p then a else b) := by
  split
  · exact ha
  · exact hb
theorem fst_ite {α : Type} {p : Prop} [Decidable p] {a b : Option (State × α)} (ha : InvFst a) (hb : InvFst b) :
    InvFst (if p then a else b) := by
  split
  · exact ha
  · exact hb
theorem fst_map {α β : Type} {o : Option (State × α)} {f : State × α → State × β} (hf : ∀ r, (f r).1 = r.1) (h : InvFst o) :
    InvFst (o.map f) := by
  cases o with
  | none => rfl
  | some r => exact inv_of_mem h (congrArg State.mem (hf r))
theorem some_ite {p : Prop} [Decidable p] {a b : Option State} (ha : InvSome a) (hb : InvSome b) : InvSome (if p then a else b) := by
  split
  · exact ha
  · exact hb
/-- An instruction that issues keeps the form when its body does. -/
theorem next_issue {s : State} (h : Inv s) {need : Crew → Team → Need} {body : State → Crew → Team → State}
    (hb : ∀ x c t, Inv x → Inv (body x c t)) : InvNext (issue s need body) := by
  cases e : issue s need body with
  | next s' => exact inv_issue h hb e
  | fault _ => rfl
  | refused _ => rfl

/-! The parts of the state put back: crews, teams, cores, functions, slices, contexts, entries and operations (Machine/Operands). -/
theorem inv_setCrew {s : State} (h : Inv s) (k : Nat) (c : Crew) : Inv (State.setCrew s k c) := inv_of_mem h (by rfl)
theorem inv_modCrew {s : State} (h : Inv s) (k : Nat) (f : Crew → Crew) : Inv (State.modCrew s k f) := inv_of_mem h (by rfl)
theorem inv_modTeam {s : State} (h : Inv s) (t : Nat) (f : Team → Team) : Inv (State.modTeam s t f) := inv_of_mem h (by rfl)
theorem inv_modCore {s : State} (h : Inv s) (c : Nat) (f : Core → Core) : Inv (State.modCore s c f) := inv_of_mem h (by rfl)
theorem inv_modFunc {s : State} (h : Inv s) (f : Nat) (g : Func → Func) : Inv (State.modFunc s f g) := inv_of_mem h (by rfl)
theorem inv_modSlice {s : State} (h : Inv s) (i : Nat) (g : Slice → Slice) : Inv (State.modSlice s i g) := inv_of_mem h (by rfl)
theorem inv_modCtx {s : State} (h : Inv s) (i : Nat) (g : Ctx → Ctx) : Inv (State.modCtx s i g) := inv_of_mem h (by rfl)
theorem inv_modEntry {s : State} (h : Inv s) (i : Nat) (g : Entry → Entry) : Inv (State.modEntry s i g) := inv_of_mem h (by rfl)
theorem inv_modOp {s : State} (h : Inv s) (n : Nat) (g : Op → Op) : Inv (State.modOp s n g) := inv_of_mem h (by rfl)

/-! Time, heat and records beside an access that is performed (Machine/Perform). -/
theorem inv_noteTime {s : State} (h : Inv s) (die : Nat) : Inv (noteTime s die) := inv_of_mem h (by rfl)
theorem inv_heard {s : State} (h : Inv s) (core sent : Nat) : Inv (heard s core sent) := inv_of_mem h (by rfl)
theorem inv_spend {s : State} (h : Inv s) (activity place n : Nat) : Inv (spend s activity place n) := inv_of_mem h (by rfl)
theorem inv_emitS {s : State} (h : Inv s) (key : Nat) (event arg : BitVec 8) (payload : Word) (spec : Bool) (cause : Nat) :
    Inv (emitS s key event arg payload spec cause) :=
  inv_full.emit _ _ _ _ _ _ h
theorem inv_addOp {s : State} (h : Inv s) (o : Op) : Inv (addOp s o) := inv_of_mem h (by rfl)

/-! Cached lines: what moves between a line and the memory below is a move of lines, never a new byte (Machine/Cache). -/
theorem inv_writeBack {s : State} (h : Inv s) (sel : Nat → Bool) : Inv (writeBack s sel) := inv_of_mem h (by rfl)
theorem inv_deposit {s : State} (h : Inv s) (sel : Nat → Bool) : Inv (deposit s sel) :=
  solid_lineMove inv_solid h (lineMove_deposit ..)
theorem inv_cleanLines {s : State} (h : Inv s) (sel : Nat → Bool) : Inv (cleanLines s sel) :=
  inv_writeBack (inv_mk (inv_deposit h ..)) ..
theorem inv_dropOwnLine {s : State} (h : Inv s) (core line : Nat) : Inv (dropOwnLine s core line) :=
  solid_lineMove inv_solid h (lineMove_drop ..)
theorem inv_dropStale {s : State} (h : Inv s) (core line : Nat) : Inv (dropStale s core line) := inv_ite (inv_dropOwnLine h ..) h
theorem inv_applyInvs {s : State} (h : Inv s) (core : Nat) : Inv (applyInvs s core) := inv_of_mem h (by rfl)
theorem inv_evictL2 {s : State} (h : Inv s) (line : Nat) : Inv (evictL2 s line) := solid_lineMove inv_solid h (lineMove_evict ..)
theorem inv_dropKey {s : State} (h : Inv s) (index : Nat) : Inv (dropKey s index) :=
  foldl_keeps Inv _ (fun _ _ hs => foldl_keeps Inv _ (fun _ _ hs => inv_dropOwnLine hs ..) _ _ hs) _ _ (foldl_keeps Inv _
      (fun _ _ hs => inv_evictL2 hs ..) _ _ h)
theorem inv_touchL2 {s : State} (h : Inv s) (p : Attr) (line : Nat) : Inv (touchL2 s p line) :=
  solid_lineMove inv_solid h (lineMove_touch ..)

/-! The halves of an access (Machine/Order). -/
theorem inv_settleHalves {s : State} (h : Inv s) : Inv (settleHalves s) := inv_ite (inv_of_mem h (by rfl)) h

/-! The ready queue (Machine/Work). -/
theorem inv_queueEntry {s : State} (h : Inv s) (e : Entry) : Inv (queueEntry s e) := inv_of_mem h (by rfl)

/-! Outstanding operations: how they are added, and how an instruction retires or traps (Machine/Ops). -/
theorem inv_trapAt {s : State} (h : Inv s) (key : Nat) (c : Crew) (word : Word) (kind : TrapKind) (cause : BitVec 8)
    (addr mask detail : DWord) :
    Inv (trapAt s key c word kind cause addr mask detail) :=
  inv_trapOrStop h ..
theorem inv_beginCrew {s : State} (h : Inv s) (key : Nat) (c : Crew) : Inv (beginCrew s key c) :=
  inv_ite (inv_of_mem h (by rfl)) (inv_startCrew h ..)
theorem inv_addDone {s : State} (h : Inv s) (key : Nat) (c : Crew) (cls : Cls) (kind : OpKind) (word : Word) :
    Inv (addDone s key c cls kind word) :=
  solid_completeOp inv_solid (inv_of_mem h (by rfl)) ..
theorem inv_retire {s : State} (h : Inv s) (c : Crew) : Inv (retire s c) := inv_of_mem h (by rfl)
theorem inv_emitIssue {s : State} (h : Inv s) (key : Nat) (c : Crew) (op : BitVec 8) : Inv (emitIssue s key c op) :=
  inv_ite (inv_emitS h ..) h
theorem inv_retireLate {s : State} (h : Inv s) (key : Nat) (c : Crew) (op : BitVec 8) : Inv (retireLate s key c op) :=
  inv_emitIssue (inv_setCrew (full_endStall inv_full h ..) ..) ..

/-! Lane-wise instructions: they write registers (Machine/Vector). -/
theorem next_laneOp {s : State} (h : Inv s) (i : Instr) (ok rounds : DWord → Bool) (reads : List Nat) (d : VReg)
    (f : Crew → Nat → Word) :
    InvNext (laneOp i ok rounds reads d f s) :=
  next_issue h fun _ _ _ hx => inv_of_mem hx (by rfl)
theorem next_execVlid {s : State} (h : Inv s) (d : VReg) : InvNext (execVlid d s) := next_laneOp h ..
theorem next_execVcvt {s : State} (h : Inv s) (d a : VReg) : InvNext (execVcvt d a s) := next_laneOp h ..
theorem next_execVupk {s : State} (h : Inv s) (d a : VReg) (e : BitVec 3) : InvNext (execVupk d a e s) := next_laneOp h ..
theorem next_unitOp {s : State} (h : Inv s) (i : Instr) (fields : List VReg) (d : VReg) (f : Crew → Team → Nat → DWord) :
    InvNext (unitOp i fields d f s) :=
  next_issue h fun _ _ _ hx => inv_of_mem hx (by rfl)
theorem next_compareOp {s : State} (h : Inv s) (i : Instr) (ok : DWord → Bool) (d : SReg) (a b : VReg) (cmp : Crew → Nat → Bool) :
    InvNext (compareOp i ok d a b cmp s) :=
  next_issue h fun _ _ _ hx => inv_of_mem hx (by rfl)
theorem next_execVceq {s : State} (h : Inv s) (d : SReg) (a b : VReg) : InvNext (execVceq d a b s) := next_compareOp h ..
theorem next_execVclt {s : State} (h : Inv s) (d : SReg) (a b : VReg) : InvNext (execVclt d a b s) := next_compareOp h ..
theorem next_execVcle {s : State} (h : Inv s) (d : SReg) (a b : VReg) : InvNext (execVcle d a b s) := next_compareOp h ..

/-! Loads, stores, shapes, fences and the mirrors (Machine/Memory). -/
theorem inv_issueLoad {s : State} (h : Inv s) (c : Crew) (word : Word) (as : List Acc) : Inv (issueLoad s c word as) := by
  unfold issueLoad
  refine inv_ite (inv_stopSpec h ..) ?_
  split
  · exact inv_stopSpec h ..
  · exact inv_of_mem h (by rfl)
theorem next_execLd {s : State} (h : Inv s) (d : VReg) (a : SReg) (b : VReg) : InvNext (execLd d a b s) := by
  refine next_issue h fun _ _ _ hx => ?_
  dsimp only
  split
  · next s e => exact inv_takeAccess hx e
  · exact inv_ite (inv_retire (inv_addDone hx ..) ..) (inv_issueLoad hx ..)
theorem inv_plainStore {s : State} (h : Inv s) (c : Crew) (word : Word) (rel : Bool) (kind : OpKind) (as : List Acc) :
    Inv (plainStore s c word rel kind as) :=
  inv_of_mem h (by rfl)
theorem inv_issueStore {s : State} (h : Inv s) (c : Crew) (t : Team) (word : Word) (as : List Acc) : Inv (issueStore s c t word as) :=
  inv_ite (inv_stopSpec h ..) <|
    inv_ite (inv_plainStore (solid_closeRegion inv_solid h ..) ..) <|
    inv_ite (inv_of_mem h (by rfl)) <|
    inv_ite (inv_retire (inv_addDone h ..) ..) <|
    inv_ite (inv_stopSpec h ..) <|
    inv_ite h <|
    inv_plainStore (inv_emitS (solid_closeRegion inv_solid h ..) ..) ..
theorem next_execSt {s : State} (h : Inv s) (d : VReg) (a : SReg) (b : VReg) : InvNext (execSt d a b s) := by
  refine next_issue h fun _ _ _ hx => ?_
  dsimp only
  split
  · next s e => exact inv_takeAccess hx e
  · exact inv_ite (inv_retire (inv_addDone hx ..) ..) (inv_issueStore hx ..)
theorem next_execLdt {s : State} (h : Inv s) (d : VReg) (hd : BitVec 4) (b : SReg) : InvNext (execLdt d hd b s) := by
  refine next_issue h fun _ _ _ hx => ?_
  refine inv_ite (inv_raiseHeld hx ..) ?_
  split
  · exact hx
  · refine inv_ite (inv_trapAt hx ..) ?_
    dsimp only
    split
    · next s e => exact inv_takeAccess hx e
    · exact inv_ite (inv_retire (inv_addDone hx ..) ..) (inv_issueLoad hx ..)
theorem next_execStt {s : State} (h : Inv s) (d : VReg) (hd : BitVec 4) (b : SReg) : InvNext (execStt d hd b s) := by
  refine next_issue h fun _ _ _ hx => ?_
  refine inv_ite (inv_raiseHeld hx ..) ?_
  split
  · exact hx
  · refine inv_ite (inv_trapAt hx ..) ?_
    dsimp only
    split
    · next s e => exact inv_takeAccess hx e
    · exact inv_ite (inv_issueStore hx ..) <|
        inv_ite (inv_retire (inv_addDone (solid_closeRegion inv_solid hx ..) ..) ..) <|
        inv_retire (inv_addDone hx ..) ..
theorem next_execShape {s : State} (h : Inv s) (d : BitVec 4) (a : SReg) : InvNext (execShape d a s) := by
  refine next_issue h fun _ _ _ hx => ?_
  dsimp only
  split
  · next s e => exact inv_takeAccess hx e
  · exact inv_of_mem hx (by rfl)
theorem inv_prefetch {s : State} (h : Inv s) (l : BitVec 1) (core : Nat) (x : Acc) : Inv (prefetch l core s x) :=
  inv_ite h (inv_ite (solid_fillL1 inv_solid h ..) (inv_touchL2 h ..))
theorem next_execPref {s : State} (h : Inv s) (l : BitVec 1) (a : SReg) (b : VReg) : InvNext (execPref l a b s) :=
  next_issue h fun _ _ _ hx => inv_retire (foldl_keeps Inv _ (fun _ _ hs => inv_prefetch hs ..) _ _ hx) ..
theorem next_execFlush {s : State} (h : Inv s) (a b : SReg) : InvNext (execFlush a b s) :=
  next_issue h fun _ _ _ hx => inv_ite (inv_trapAt hx ..) (inv_ite (inv_retire (inv_addDone hx ..) ..) (inv_ite (inv_trapAt hx ..)
      (inv_ite (inv_trapAt hx ..) (inv_of_mem hx (by rfl)))))
theorem next_execFence {s : State} (h : Inv s) (f : BitVec 3) (o : BitVec 2) : InvNext (execFence f o s) := by
  refine next_issue h fun _ _ _ hx => ?_
  extract_lets s1
  have hs1 : Inv s1 := inv_ite (solid_closeRegion inv_solid hx ..) hx
  exact inv_ite (inv_retire (inv_ite (inv_of_mem hs1 (by rfl)) hs1) ..) (inv_of_mem hs1 (by rfl))
theorem inv_holdBad {s : State} (h : Inv s) (n : Nat) (o : Op) (regs : List Nat) (bad : List Acc) (ref : List (Acc × Nat)) :
    Inv (holdBad s n o regs bad ref) := by
  unfold holdBad
  split
  · exact h
  · extract_lets s1
    have hs1 : Inv s1 := by
      unfold s1
      split
      · exact solid_holdFault inv_solid h ..
      · exact h
    split
    · exact solid_holdFault inv_solid hs1 ..
    · exact hs1
theorem next_execLoadDataReturn {s : State} (h : Inv s) (n : Nat) : InvNext (execLoadDataReturn n s) := by
  unfold execLoadDataReturn
  split
  · rfl
  · split
    · rfl
    · refine next_ite ?_ rfl
      extract_lets _ _ _ s1 s2 s3 s4
      have hs1 : Inv s1 := foldl_keeps Inv _ (fun _ _ hs => solid_fillL1 inv_solid hs ..) _ _ (inv_of_mem h (by rfl))
      have hs2 : Inv s2 := inv_ite (inv_of_mem hs1 (by rfl)) hs1
      have hs3 : Inv s3 := inv_ite (inv_of_mem hs2 (by rfl)) hs2
      have hs4 : Inv s4 := inv_holdBad hs3 ..
      exact solid_finishOp inv_solid hs4 ..
theorem inv_settleStore {s : State} (h : Inv s) (n : Nat) : Inv (settleStore s n) := by
  unfold settleStore
  split
  · exact h
  · refine inv_ite h ?_
    split
    · exact solid_finishOp inv_solid (inv_holdBad h ..) ..
    · exact solid_finishOp inv_solid h ..
    · refine solid_finishOp inv_solid ?_ ..
      refine inv_holdBad ?_ ..
      split
      · exact inv_ite h (solid_holdFault inv_solid h ..)
      · exact solid_holdFault inv_solid h ..
    · exact h
theorem next_execStorePerformed {s : State} (h : Inv s) (n k : Nat) : InvNext (execStorePerformed n k s) := by
  unfold execStorePerformed
  split
  · rfl
  · split
    · rfl
    · refine next_ite ?_ rfl
      split
      · rfl
      · exact inv_settleStore (inv_of_mem h (by rfl)) ..
      · exact inv_settleStore (inv_of_mem h (by rfl)) ..
      · exact next_ite (inv_settleStore (solid_clearCovered inv_solid (solid_performStore inv_solid (inv_of_mem h (by rfl)) ..) ..) ..) rfl
theorem next_execShapeComplete {s : State} (h : Inv s) (n : Nat) : InvNext (execShapeComplete n s) := by
  unfold execShapeComplete
  split
  · rfl
  · split
    · refine next_ite ?_ rfl
      split
      · rfl
      · extract_lets _ _ s1
        have hs1 : Inv s1 := by
          refine inv_ite (solid_holdFault inv_solid (inv_of_mem h (by rfl)) ..) ?_
          split
          · exact solid_holdFault inv_solid (inv_of_mem h (by rfl)) ..
          · exact inv_ite (inv_of_mem h (by rfl)) (solid_holdFault inv_solid (inv_of_mem h (by rfl)) ..)
        exact solid_finishOp inv_solid (inv_ite (solid_fillL1 inv_solid hs1 ..) hs1) ..
    · rfl
theorem inv_dropLines {s : State} (h : Inv s) (sel : Nat → Bool) : Inv (dropLines s sel) :=
  foldl_keeps Inv _ (fun _ _ hs => solid_rollbackLine inv_solid hs ..) _ _ (inv_of_mem h (by rfl))
theorem next_execFlushComplete {s : State} (h : Inv s) (n : Nat) : InvNext (execFlushComplete n s) := by
  unfold execFlushComplete
  split
  · rfl
  · split
    · exact next_ite (solid_finishOp inv_solid (inv_cleanLines (inv_dropLines h ..) ..) ..) rfl
    · rfl
theorem next_execRegionReleaseComplete {s : State} (h : Inv s) (n : Nat) : InvNext (execRegionReleaseComplete n s) := by
  unfold execRegionReleaseComplete
  split
  · rfl
  · split
    · refine next_ite ?_ rfl
      refine solid_finishOp inv_solid ?_ ..
      split
      · exact h
      · exact solid_holdFault inv_solid h ..
    · rfl
theorem inv_deliverBytes {s : State} (h : Inv s) (t : Team) (o : Nat) (bs : List Byte) (sent : Nat) : Inv (deliverBytes s t o bs sent) :=
  solid_performBytes inv_solid (foldl_keeps Inv _ (fun _ _ hs => solid_rollbackLine inv_solid hs ..) _ _ h) ..
theorem next_execMirrorDelivery {s : State} (h : Inv s) (n m : Nat) (bad : List Nat) : InvNext (execMirrorDelivery n m bad s) := by
  unfold execMirrorDelivery
  split
  · rfl
  · split
    · split
      · extract_lets
        split
        · rfl
        · refine next_ite rfl ?_
          extract_lets _ _ s1 s2 fails s3
          have hs1 : Inv s1 := inv_ite (inv_of_mem h (by rfl)) h
          have hs2 : Inv s2 := by
            refine inv_ite hs1 ?_
            refine foldl_keeps Inv _ (fun s _ hs => ?_) _ _ hs1
            refine foldl_keeps Inv _ (fun _ _ hs => inv_ite (inv_of_mem hs (by rfl)) hs) _ _ ?_
            split
            · exact inv_deliverBytes hs ..
            · exact hs
          have hs3 : Inv s3 := by
            unfold s3
            clear_value fails
            split
            · exact hs2
            · exact solid_emitA inv_solid (inv_of_mem hs2 (by rfl)) ..
          exact inv_settleStore (inv_of_mem hs3 (by rfl)) ..
      · rfl
    · rfl

/-! Copies, bins and semaphores (Machine/Copy). -/
theorem fst_engineWrite {s : State} (h : Inv s) (core : Option Nat) (func : Nat) (dst : Acc) (bs : List Byte) (bad : List Bool) :
    InvFst (engineWrite s core func dst bs bad) := by
  unfold engineWrite
  split
  · rfl
  · exact h
  · exact h
  · dsimp only
    split
    · refine foldl_keeps Inv _ ?_ _ _ h
      exact fun x r hx => solid_performBytes inv_solid hx ..
    · exact solid_performBytes inv_solid h ..
theorem inv_addBytes {s : State} (h : Inv s) (team n : Nat) : Inv (addBytes s team n) := by
  unfold addBytes
  split
  · exact inv_of_mem h (by rfl)
  · exact h
theorem inv_signal {s : State} (h : Inv s) (n : Nat) (o : Op) (sem : Nat) : Inv (signal s n o sem) :=
  solid_emitA inv_solid (inv_of_mem h (by rfl)) ..
theorem inv_issueCopy {s : State} (h : Inv s) (c : Crew) (word : Word) (sem : Nat) (closes : Bool) (parts : List CopyPart) :
    Inv (issueCopy s c word sem closes parts) :=
  foldl_keeps Inv _ (fun _ _ hs => solid_ownLines inv_solid hs ..) _ _ (inv_addOp (foldl_keeps Inv _ (fun _ _ hs => inv_of_mem hs (by rfl)) _ _
      (inv_retire (inv_ite (solid_closeRegion inv_solid h ..) h) ..)) ..)
theorem next_copyLanes {s : State} (h : Inv s) (i : Instr) (z : Nat) (d : BitVec 6) (a b : VReg) : InvNext (copyLanes i z d a b s) := by
  refine next_issue h fun _ _ _ hx => ?_
  dsimp only
  split
  · next s e => exact inv_takeAccess hx e
  · exact inv_ite (inv_retire (inv_addDone hx ..) ..) (inv_issueCopy hx ..)
theorem next_execCpyt {s : State} (h : Inv s) (d : BitVec 6) (hd : BitVec 4) (b : SReg) : InvNext (execCpyt d hd b s) := by
  refine next_issue h fun _ _ _ hx => ?_
  refine inv_ite (inv_raiseHeld hx ..) ?_
  split
  · exact hx
  · refine inv_ite (inv_trapAt hx ..) ?_
    refine inv_ite (inv_trapAt hx ..) ?_
    dsimp only
    split
    · exact inv_takeKind hx ..
    · exact inv_issueCopy hx ..
theorem inv_copyParts {s : State} (h : Inv s) (func core : Nat) (ps : List (CopyPart × List Byte × List Bool × Option Nat)) (k : CopyDone) :
    Inv (copyParts func core ps (s, k)).1 := by
  induction ps generalizing s k with
  | nil => exact h
  | cons p t ih =>
    unfold copyParts
    dsimp only
    split
    · exact ih h _
    · split
      · exact ih h _
      · next s e => exact ih (inv_of_some_fst (fst_engineWrite h ..) e) _
      · next s r e => exact ih (inv_of_some_fst (fst_engineWrite h ..) e) _
theorem next_execCopyComplete {s : State} (h : Inv s) (n : Nat) : InvNext (execCopyComplete n s) := by
  unfold execCopyComplete
  split
  · rfl
  · split
    · exact next_ite (solid_finishOp inv_solid (inv_holdBad (inv_signal (inv_addBytes (inv_copyParts (solid_clearCovered inv_solid
          (foldl_keeps Inv _ (fun _ _ hs => inv_touchL2 hs ..) _ _ h) ..) ..) ..) ..) ..) ..) rfl
    · rfl
theorem next_execSemset {s : State} (h : Inv s) (d : BitVec 6) (a : SReg) : InvNext (execSemset d a s) :=
  next_issue h fun _ _ _ hx => inv_ite (inv_trapAt hx ..) (inv_ite (inv_modTeam (inv_retire (solid_closeRegion inv_solid hx ..) ..) ..)
      (inv_setCrew (solid_closeRegion inv_solid hx ..) ..))
theorem next_execSemacq {s : State} (h : Inv s) (d : BitVec 6) (a : SReg) : InvNext (execSemacq d a s) :=
  next_issue h fun _ _ _ hx => inv_ite (inv_trapAt hx ..) (inv_ite (inv_of_mem hx (by rfl)) (inv_ite hx (inv_ite (inv_of_mem hx (by rfl)) (inv_ite hx
      (inv_of_mem hx (by rfl))))))
theorem next_execBinw {s : State} (h : Inv s) (d a : VReg) (b : SReg) : InvNext (execBinw d a b s) := by
  refine next_issue h fun _ _ _ hx => ?_
  refine inv_ite (inv_trapAt hx ..) ?_
  refine inv_ite (inv_trapAt hx ..) ?_
  extract_lets _ _ s1
  have hs1 : Inv s1 := solid_closeRegion inv_solid hx ..
  split
  · next s e => exact inv_takeAccess hx e
  · split
    · next s e => exact inv_takeAccess hx e
    · exact inv_ite (inv_retire (inv_addDone hs1 ..) ..) (inv_of_mem hs1 (by rfl))
theorem fst_putSlot {s : State} (h : Inv s) (t : Team) (n : Nat) (o : Op) (p : Nat × Nat × Word) :
    InvFst (putSlot t n o s p) := by
  unfold putSlot
  dsimp only
  split
  · exact h
  · split
    · split
      · exact solid_performBytes inv_solid (solid_ownLines inv_solid h ..) ..
      · exact h
    · rfl
theorem fst_putSlots {s : State} (h : Inv s) (t : Team) (n : Nat) (o : Op) (ps : List (Nat × Nat × Word)) :
    InvFst (putSlots t n o ps s) := by
  induction ps generalizing s with
  | nil => exact h
  | cons p ps ih =>
    unfold putSlots
    split
    · rfl
    · next s bad as e =>
      exact fst_map (fun _ => rfl) (ih (inv_of_some_fst (fst_putSlot h ..) e))
theorem fst_binGroup {s : State} (h : Inv s) (n : Nat) (o : Op) (t : Team) (b : BinOp) (second : Bool) (i : Nat) (lanes : List
    (Nat × Word)) :
    InvFst (binGroup s n o t b second i lanes) := by
  unfold binGroup
  refine fst_ite rfl ?_
  split
  · refine fst_ite rfl ?_
    dsimp only
    split
    · exact h
    · refine fst_ite h ?_
      split
      · exact h
      · split
        · rfl
        · next s refused away e => exact inv_of_some_fst (fst_putSlots (solid_performBytes inv_solid h ..) ..) e
  · exact h
theorem next_execBinClaim {s : State} (h : Inv s) (n : Nat) : InvNext (execBinClaim n s) := by
  unfold execBinClaim
  split
  · rfl
  · split
    · extract_lets rd claim
      have hc : InvFst claim := by
        refine fst_ite rfl ?_
        split
        · exact fst_binGroup h ..
        · clear_value rd
          split
          · exact fst_binGroup h ..
          · rfl
      clear_value claim
      split
      · exact inv_modOp hc ..
      · rfl
    · rfl
theorem next_execBinwComplete {s : State} (h : Inv s) (n : Nat) : InvNext (execBinwComplete n s) := by
  unfold execBinwComplete
  split
  · rfl
  · split
    · exact next_ite (solid_finishOp inv_solid (inv_holdBad (inv_ite (inv_signal (inv_setCrew (inv_addBytes h ..) ..) ..)
          (solid_holdFault inv_solid (inv_signal (inv_setCrew (inv_addBytes h ..) ..) ..) ..)) ..) ..) rfl
    · rfl

/-! Gangs, tiles and drains (Machine/Matrix). -/
theorem inv_matrixClose {s : State} (h : Inv s) (c : Crew) (word : Word) : Inv (matrixClose s c word).1 :=
  solid_closeRegion inv_solid h ..
theorem inv_issueTile {s : State} (h : Inv s) (c : Crew) (word : Word) (hd : Nat) (step : TileStep) : Inv (issueTile s c word hd step) :=
  inv_retire (inv_addOp (inv_matrixClose h ..) ..) ..
theorem inv_gangRewritten {s : State} (h : Inv s) (key : Nat) (c : Crew) (g : DWord) : Inv (gangRewritten s key c g) :=
  solid_failGangs inv_solid _ h ..
theorem next_execGang {s : State} (h : Inv s) (a : SReg) : InvNext (execGang a s) := by
  refine next_issue h fun _ _ _ hx => ?_
  refine inv_ite (inv_trapAt hx ..) ?_
  split
  · exact inv_of_mem hx (by rfl)
  · exact inv_gangRewritten (inv_of_mem hx (by rfl)) ..
theorem inv_releaseGang {s : State} (h : Inv s) (t : Team) (as : List Arrival) (g : DWord) : Inv (releaseGang s t as g) := by
  unfold releaseGang
  refine foldl_keeps Inv _ (fun _ _ hs => ?_) _ _ h
  split
  · exact hs
  · split
    · exact inv_ite (inv_of_mem hs (by rfl)) (inv_retireLate (inv_of_mem hs (by rfl)) ..)
    · exact hs
theorem inv_arriveGang {s : State} (h : Inv s) (c : Crew) (t : Team) (word : Word) (a : Arrival) : Inv (arriveGang s c t word a) :=
  inv_ite (solid_failGangs inv_solid _ (inv_modCore (inv_setCrew (inv_matrixClose h ..) ..) ..) ..) <|
    inv_ite (inv_modCore (inv_setCrew (inv_matrixClose h ..) ..) ..) <|
    inv_ite (inv_releaseGang (inv_modCore (inv_emitS (inv_setCrew (inv_matrixClose h ..) ..) ..) ..) ..) <|
    h
theorem next_execMmag {s : State} (h : Inv s) (d : BitVec 6) (a : SReg) (b : VReg) : InvNext (execMmag d a b s) := by
  refine next_issue h fun _ _ _ hx => ?_
  refine inv_ite (inv_trapAt hx ..) ?_
  refine inv_ite (inv_trapAt hx ..) ?_
  refine inv_ite (inv_trapAt hx ..) ?_
  split
  · exact inv_takeKind hx ..
  · split
    · exact inv_trapAt (inv_of_mem hx (by rfl)) ..
    · exact inv_arriveGang hx ..
theorem next_execMmas {s : State} (h : Inv s) (d : BitVec 6) (a b : SReg) : InvNext (execMmas d a b s) := by
  refine next_issue h fun _ _ _ hx => ?_
  dsimp only
  split
  · exact inv_takeKind hx ..
  · split
    · exact inv_takeKind hx ..
    · exact inv_ite (inv_issueTile hx ..) hx
theorem next_execTld {s : State} (h : Inv s) (d : BitVec 6) (a : SReg) : InvNext (execTld d a s) := by
  refine next_issue h fun _ _ _ hx => ?_
  split
  · exact inv_takeKind hx ..
  · exact inv_ite (inv_issueTile hx ..) hx
theorem inv_issueDrain {s : State} (h : Inv s) (c : Crew) (t : Team) (word : Word) (hd va pitch : Nat) :
    Inv (issueDrain s c t word hd va pitch) :=
  foldl_keeps Inv _ (fun _ _ hs => solid_ownLines inv_solid hs ..) _ _ (inv_retire (inv_addOp (foldl_keeps Inv _
      (fun _ _ hs => inv_of_mem hs (by rfl)) _ _ (inv_matrixClose h ..)) ..) ..)
theorem next_execTdrn {s : State} (h : Inv s) (d : BitVec 6) (a : SReg) : InvNext (execTdrn d a s) := by
  refine next_issue h fun _ _ _ hx => ?_
  split
  · exact inv_takeKind hx ..
  · exact inv_issueDrain hx ..
theorem next_execTdrm {s : State} (h : Inv s) (d : BitVec 6) (a b : SReg) : InvNext (execTdrm d a b s) := by
  refine next_issue h fun _ _ _ hx => ?_
  refine inv_ite (inv_trapAt hx ..) ?_
  split
  · next s e => exact inv_takeAccess hx e
  · exact inv_issueDrain hx ..
theorem next_execTdrp {s : State} (h : Inv s) (d : BitVec 6) (a : SReg) : InvNext (execTdrp d a s) :=
  next_issue h fun _ _ _ hx => inv_ite (inv_trapAt hx ..) (inv_emitS (inv_retire (inv_addOp (inv_matrixClose hx ..) ..) ..) ..)
theorem next_execTileStepComplete {s : State} (h : Inv s) (n : Nat) : InvNext (execTileStepComplete n s) := by
  unfold execTileStepComplete
  split
  · rfl
  · split
    · exact next_ite rfl (solid_finishOp inv_solid (inv_of_mem h (by rfl)) ..)
    · rfl
theorem next_execDrainComplete {s : State} (h : Inv s) (n : Nat) : InvNext (execDrainComplete n s) := by
  unfold execDrainComplete
  split
  · rfl
  · split
    · refine next_ite ?_ rfl
      split
      next s1 refs e =>
      have hs1 : Inv s1 := by
        refine inv_of_fst (foldl_keeps (fun r : State × List (Acc × Nat) => Inv r.1) _ (fun r a hr => ?_) _ (_, [])
          (solid_clearCovered inv_solid h ..)) e
        split
        · next e => exact inv_of_some_fst (fst_engineWrite hr ..) e
        · next e => exact inv_of_some_fst (fst_engineWrite hr ..) e
        · exact hr
      exact solid_finishOp inv_solid (inv_holdBad (inv_ite (inv_addBytes hs1 ..) (solid_holdFault inv_solid (inv_addBytes hs1 ..) ..)) ..) ..
    · rfl
theorem next_execDrainAddReceive {s : State} (h : Inv s) (n : Nat) : InvNext (execDrainAddReceive n s) := by
  unfold execDrainAddReceive
  split
  · rfl
  · split
    · refine next_ite rfl ?_
      split
      · exact inv_of_mem h (by rfl)
      · exact next_ite rfl <|
          inv_modOp (solid_emitA inv_solid (inv_applyInvs (foldl_keeps Inv _ (fun _ _ hs => solid_rollback inv_solid hs ..) _ _
            (inv_of_mem h (by rfl))) ..) ..) ..
    · rfl
theorem next_execDrainAddAck {s : State} (h : Inv s) (n : Nat) : InvNext (execDrainAddAck n s) := by
  unfold execDrainAddAck
  split
  · rfl
  · split
    · split
      · rfl
      · exact next_ite rfl <|
          solid_finishOp inv_solid (inv_ite (inv_ite h (solid_holdFault inv_solid h ..)) (solid_holdFault inv_solid (inv_ite h
            (solid_holdFault inv_solid h ..)) ..)) ..
    · rfl

/-! Atomics and monitors (Machine/Atomic). -/
theorem next_atomicOp {s : State} (h : Inv s) (i : Instr) (op : AtomicOp) (d : VReg) (a : SReg) (b : VReg) :
    InvNext (atomicOp i op d a b s) := by
  refine next_issue h fun _ _ _ hx => ?_
  dsimp only
  split
  · next s e => exact inv_takeAccess hx e
  · exact inv_ite (inv_retire (inv_addDone hx ..) ..) <|
      inv_retire (inv_addOp (solid_closeRegion inv_solid hx ..) ..) ..
theorem inv_writeAtomic {s : State} (h : Inv s) (core : Option Nat) (op : AtomicOp) (ty : Nat) (a : Acc) (xs : List (DWord × DWord))
    (v : Nat) :
    Inv (writeAtomic s core op ty a xs v).1 :=
  inv_ite (solid_performBytes inv_solid h ..) h
theorem inv_applyAtomic {s : State} (h : Inv s) (core : Option Nat) (op : AtomicOp) (ty : Nat) (a : Acc) (xs : List (DWord × DWord)) :
    Inv (applyAtomic s core op ty a xs).1 := by
  unfold applyAtomic
  extract_lets s1
  have hs1 : Inv s1 := by
    unfold s1
    split
    · exact inv_dropOwnLine h ..
    · exact h
  split
  · exact hs1
  · exact inv_writeAtomic hs1 ..
theorem inv_acquireInvs {s : State} (h : Inv s) (o : Op) : Inv (acquireInvs s o) := by
  unfold acquireInvs
  extract_lets s1
  have hs1 : Inv s1 := inv_ite (inv_of_mem h (by rfl)) h
  exact inv_ite (inv_applyInvs hs1 ..) hs1
theorem next_execAtomicStep {s : State} (h : Inv s) (n addr : Nat) : InvNext (execAtomicStep n addr s) := by
  unfold execAtomicStep
  split
  · rfl
  · split
    · dsimp only
      split
      · rfl
      · split
        · rfl
        · refine next_ite rfl ?_
          refine next_ite (inv_acquireInvs (inv_of_mem h (by rfl)) ..) ?_
          split
          · rfl
          · exact inv_acquireInvs (inv_of_mem h (by rfl)) ..
          · exact inv_acquireInvs (inv_of_mem h (by rfl)) ..
          · exact inv_acquireInvs (inv_of_mem h (by rfl)) ..
          · refine next_ite ?_ (inv_acquireInvs (inv_modOp (inv_applyAtomic h ..) ..) ..)
            split
            · exact inv_of_mem h (by rfl)
            · exact next_ite (inv_acquireInvs (inv_of_mem h (by rfl)) ..) <|
                inv_acquireInvs (inv_modOp (inv_writeAtomic h ..) ..) ..
    · rfl
theorem next_execAtomicResultReturn {s : State} (h : Inv s) (n : Nat) : InvNext (execAtomicResultReturn n s) := by
  unfold execAtomicResultReturn
  split
  · rfl
  · split
    · exact next_ite (solid_finishOp inv_solid (inv_holdBad (inv_of_mem h (by rfl)) ..) ..) rfl
    · rfl
theorem inv_invsOf {s : State} (h : Inv s) (key : Nat) (c : Crew) (pa : Nat) : Inv (invsOf s key c pa) :=
  inv_ite (inv_applyInvs (inv_dropStale h ..) ..) (inv_dropStale h ..)
theorem inv_onRead {s : State} (h : Inv s) {go : State} (h1 : Inv go) {wait : State} (h2 : Inv wait) (key : Nat) (c : Crew)
    (word : Word) (a : Acc) (cond : BitVec 3) (y : Nat) (r : Except Nat (Nat × Bool)) :
    Inv (onRead s key c word a cond y r go wait) := by
  unfold onRead
  split
  · exact inv_trapAt h ..
  · exact inv_ite (inv_trapAt h ..) (inv_ite h1 h2)
theorem inv_endWaitc {s : State} (h : Inv s) (key : Nat) : Inv (endWaitc s key) := inv_of_mem h (by rfl)
theorem next_execWaitc {s : State} (h : Inv s) (cond : BitVec 3) (a b : SReg) : InvNext (execWaitc cond a b s) := by
  refine next_issue h fun _ _ _ hx => ?_
  dsimp only
  split
  · next s e => exact inv_takeAccess hx e
  · split
    · exact inv_setCrew (solid_closeRegion inv_solid hx ..) ..
    · exact inv_onRead (solid_closeRegion inv_solid hx ..) (inv_retire (inv_invsOf (solid_closeRegion inv_solid hx ..) ..) ..) (inv_mk
          (inv_setCrew (inv_dropStale (solid_closeRegion inv_solid hx ..) ..) ..)) ..
theorem next_execMonitorWake {s : State} (h : Inv s) (crew : Nat) : InvNext (execMonitorWake crew s) := by
  unfold execMonitorWake
  split
  · dsimp only
    split
    · exact inv_endWaitc (inv_heard (inv_invsOf h ..) ..) ..
    · exact inv_trapAt (inv_of_mem h (by rfl)) ..
    · rfl
  · rfl
theorem next_execWaitcPoll {s : State} (h : Inv s) (crew : Nat) : InvNext (execWaitcPoll crew s) := by
  unfold execWaitcPoll
  split
  · split
    · exact inv_onRead (inv_of_mem h (by rfl)) (inv_endWaitc (inv_invsOf (inv_of_mem h (by rfl)) ..) ..) h ..
    · rfl
  · rfl

/-! Core barriers and wide barriers (Machine/Barriers). -/
theorem inv_setBarrier {s : State} (h : Inv s) (tid : Nat) (t : Team) (d : Nat) (b : Barrier) : Inv (setBarrier s tid t d b) :=
  inv_ite (inv_of_mem h (by rfl)) (inv_of_mem h (by rfl))
theorem inv_commitPhase {s : State} (h : Inv s) (tid d : Nat) (phase : Word) : Inv (commitPhase s tid d phase) := by
  unfold commitPhase
  refine foldl_keeps Inv _ (fun s p hs => ?_) _ _ (foldl_keeps Inv _ (fun _ _ hs => solid_releaseBuf inv_solid hs ..) _ _
      (foldl_keeps Inv _ (fun _ _ hs => inv_modCrew (solid_emitCrewA inv_solid hs ..) ..) _ _ h))
  split
  · exact foldl_keeps Inv _ (fun _ _ hs => inv_gangRewritten hs ..) _ _ hs
  · exact hs
theorem inv_settleCore {s : State} (h : Inv s) (tid d : Nat) : Inv (settleCore s tid d) := by
  unfold settleCore
  split
  · exact h
  · exact inv_ite (inv_commitPhase (inv_mk (inv_setBarrier (solid_emitA inv_solid h ..) ..)) ..) h
theorem inv_enterWait {s : State} (h : Inv s) (c : Crew) (op : ArriveOp) (d : Nat) (phase : Word) : Inv (enterWait s c op d phase) :=
  inv_ite (inv_retire (inv_emitS (inv_of_mem h (by rfl)) ..) ..) (inv_of_mem h (by rfl))
theorem inv_endWait {s : State} (h : Inv s) (core d : Nat) : Inv (endWait s core d) := inv_ite h (inv_of_mem h (by rfl))
theorem inv_countArrival {s : State} (h : Inv s) (c : Crew) (t : Team) (op : ArriveOp) (d : Nat) (b : Barrier) :
    Inv (countArrival s c t op d b) :=
  inv_ite (inv_ite (inv_enterWait (inv_mk (inv_setBarrier h ..)) ..) (inv_retire (inv_mk (inv_setBarrier h ..)) ..)) <|
    inv_settleCore (inv_ite (inv_retire (inv_setBarrier h ..) ..) (inv_ite (inv_retire (inv_setBarrier h ..) ..) (inv_enterWait
      (inv_setBarrier h ..) ..))) ..
theorem next_arrive {s : State} (h : Inv s) (i : Instr) (op : ArriveOp) (hd : BitVec 8) : InvNext (arrive i op hd s) :=
  next_issue h fun _ _ _ hx => inv_ite hx (inv_ite (inv_ite (inv_enterWait (inv_setBarrier (solid_closeRegion inv_solid hx ..) ..) ..)
      (inv_trapAt hx ..)) (inv_ite (inv_retire (inv_endWait (inv_setBarrier (solid_closeRegion inv_solid hx ..) ..) ..) ..) (inv_ite
      (inv_trapAt hx ..) (inv_ite (inv_countArrival (solid_closeRegion inv_solid hx ..) ..) (inv_setCrew
      (solid_closeRegion inv_solid hx ..) ..)))))
theorem next_execBari {s : State} (h : Inv s) (d : BitVec 8) (a : SReg) : InvNext (execBari d a s) := by
  refine next_issue h fun _ _ _ hx => ?_
  refine inv_ite (inv_trapAt hx ..) ?_
  refine inv_ite (inv_of_mem hx (by rfl)) ?_
  dsimp only
  split
  · exact inv_trapAt hx ..
  · exact inv_settleCore (inv_retire (inv_setBarrier (solid_closeRegion inv_solid hx ..) ..) ..) ..
theorem next_retireArmed {s : State} (h : Inv s) (key : Nat) : InvNext (retireArmed s key) := by
  unfold retireArmed
  split
  · exact next_ite (inv_orStall h (inv_retireLate h ..) ..) rfl
  · rfl
theorem next_execWideBarrierArrival {s : State} (h : Inv s) (ctx crew : Nat) : InvNext (execWideBarrierArrival ctx crew s) := by
  unfold execWideBarrierArrival
  split
  · exact next_retireArmed h ..
  · dsimp only
    split
    · exact solid_settleWide inv_solid (inv_of_mem h (by rfl)) ..
    · exact solid_settleWide inv_solid (inv_of_mem h (by rfl)) ..
    · exact solid_settleWide inv_solid (inv_of_mem h (by rfl)) ..
    · split
      · rfl
      · split
        · exact inv_trapAt (inv_of_mem h (by rfl)) ..
        · exact next_retireArmed (solid_settleWide inv_solid
            (inv_mk (inv_setCrew (solid_closeRegion inv_solid (inv_of_mem h (by rfl)) ..) ..)) ..) ..
theorem next_execWideBarrierCompletion {s : State} (h : Inv s) (ctx core : Nat) : InvNext (execWideBarrierCompletion ctx core s) := by
  unfold execWideBarrierCompletion
  split
  · rfl
  · exact inv_of_mem h (by rfl)

/-! Bulk commands (Machine/Bulk). -/
theorem inv_withRead {s : State} (h : Inv s) {k : List Byte → State} (hk : ∀ bs, Inv (k bs)) (c : Crew) (word : Word) (a : Acc) :
    Inv (withRead s c word a k) := by
  unfold withRead
  split
  · exact h
  · exact inv_trapAt h ..
  · exact inv_ite (inv_trapAt h ..) (hk _)
theorem inv_queueCmd {s : State} (h : Inv s) (c : Crew) (t : Team) (word : Word) (d : SReg) (r : List Byte) (spans : List Span)
    (n : Option Nat) :
    Inv (queueCmd s c t word d r spans n) :=
  inv_ite (inv_of_mem h (by rfl)) <|
    inv_ite (inv_of_mem h (by rfl)) <|
    inv_ite (inv_of_mem h (by rfl)) <|
    inv_mk (inv_noteTime (inv_retire (solid_closeRegion inv_solid h ..) ..) ..)
theorem next_execBulk {s : State} (h : Inv s) (d a : SReg) : InvNext (execBulk d a s) := by
  refine next_issue h fun _ _ _ hx => ?_
  dsimp only
  split
  · next s e => exact inv_takeAccess hx e
  · refine inv_withRead hx (fun _ => ?_) ..
    split
    · next s e => exact inv_takeAccess hx e
    · exact inv_queueCmd hx ..
theorem inv_touchRuns {s : State} (h : Inv s) (ctx : Option Nat) (rs : List Run) : Inv (touchRuns s ctx rs) :=
  foldl_keeps Inv _ (fun _ _ hs => foldl_keeps Inv _ (fun _ _ hs => inv_touchL2 hs ..) _ _ hs) _ _ h
theorem inv_writePieces {s : State} (h : Inv s) (func : Nat) (ctx : Option Nat) (r : Run) (ps : List (Nat × Nat)) (bs : List (Byte × Bool)) :
    Inv (writePieces func ctx r ps bs s) := by
  induction ps generalizing s bs with
  | nil => exact h
  | cons p ps ih =>
    refine ih ?_ _
    split
    · next s x e => exact inv_of_some_fst (fst_engineWrite h ..) e
    · exact h
theorem inv_writeRuns {s : State} (h : Inv s) (func : Nat) (ctx : Option Nat) (rs : List Run) (bs : List (Byte × Bool)) :
    Inv (writeRuns func ctx rs bs s) := by
  induction rs generalizing s bs with
  | nil => exact h
  | cons r rs ih => exact inv_ite h (ih (inv_writePieces h ..) _)
theorem inv_finishCmd {s : State} (h : Inv s) (id code count charged : Nat) : Inv (finishCmd s id code count charged) := by
  unfold finishCmd
  split
  · exact h
  · extract_lets _ _ _ _ _ s1 s2
    have hs1 : Inv s1 := by
      unfold s1
      split
      · exact inv_of_mem h (by rfl)
      · exact inv_writeRuns (inv_writeRuns (inv_of_mem h (by rfl)) ..) ..
    have hs2 : Inv s2 := by
      unfold s2
      split
      · exact inv_ite (inv_of_mem hs1 (by rfl)) hs1
      · exact hs1
    exact solid_emitA inv_solid (inv_of_mem hs2 (by rfl)) ..
theorem inv_endCmd {s : State} (h : Inv s) (id code count charged : Nat) : Inv (endCmd s id code count charged) := by
  unfold endCmd
  split
  · exact h
  · exact inv_ite (inv_of_mem h (by rfl)) (inv_finishCmd h ..)
theorem inv_settleCmds {s : State} (h : Inv s) : Inv (settleCmds s) := by
  unfold settleCmds
  refine foldl_keeps Inv _ (fun _ _ hs => ?_) _ _ h
  split
  · exact inv_endCmd hs ..
  · exact hs
theorem next_execBulkStart {s : State} (h : Inv s) (die engine func : Nat) : InvNext (execBulkStart die engine func s) := by
  unfold execBulkStart
  refine next_ite rfl ?_
  split
  · exact next_ite rfl <|
      next_ite (inv_endCmd (solid_emitA inv_solid (foldl_keeps Inv _ (fun _ _ hs => solid_ownLines inv_solid hs ..) _ _ (inv_mk
        (foldl_keeps Inv _ (fun _ _ hs => inv_of_mem hs (by rfl)) _ _ h))) ..) ..) <|
      solid_emitA inv_solid (foldl_keeps Inv _ (fun _ _ hs => solid_ownLines inv_solid hs ..) _ _ (inv_mk (foldl_keeps Inv _
        (fun _ _ hs => inv_of_mem hs (by rfl)) _ _ h))) ..
  · rfl
theorem next_execBulkCopyDone {s : State} (h : Inv s) (cmd : Nat) : InvNext (execBulkCopyDone cmd s) := by
  unfold execBulkCopyDone
  split
  · rfl
  · exact inv_endCmd (inv_writeRuns (inv_touchRuns h ..) ..) ..
theorem next_execBulkDecryptDone {s : State} (h : Inv s) (cmd : Nat) : InvNext (execBulkDecryptDone cmd s) := by
  unfold execBulkDecryptDone
  split
  · rfl
  · refine next_ite (inv_endCmd h ..) (next_ite (inv_endCmd (inv_writeRuns h ..) ..) ?_)
    extract_lets _ r
    clear_value r
    exact next_ite (inv_endCmd (inv_writeRuns h ..) ..) (inv_endCmd (inv_writeRuns h ..) ..)
theorem next_execScanDone {s : State} (h : Inv s) (cmd : Nat) : InvNext (execScanDone cmd s) := by
  unfold execScanDone
  split
  · rfl
  · exact next_ite (inv_endCmd h ..) (inv_endCmd (inv_writeRuns (inv_cleanLines h ..) ..) ..)
theorem next_execCollectiveMatch {s : State} (h : Inv s) (func group : Nat) (seq : Word) (agree : Bool) :
    InvNext (execCollectiveMatch func group seq agree s) := by
  unfold execCollectiveMatch
  split
  · rfl
  · split
    · exact next_ite rfl (next_ite (inv_of_mem h (by rfl)) (foldl_keeps Inv _ (fun _ _ hs => inv_endCmd hs ..) _ _ h))
    · rfl
theorem next_execCollectiveDone {s : State} (h : Inv s) (func group : Nat) (seq : Word) (remote : List (Nat × List (Byte × Bool))) :
    InvNext (execCollectiveDone func group seq remote s) := by
  unfold execCollectiveDone
  split
  · rfl
  · split
    · exact next_ite rfl <|
        foldl_keeps Inv _ (fun _ _ hs => inv_endCmd (inv_writeRuns hs ..) ..) _ _ (inv_of_mem h (by rfl))
    · rfl

/-! Launch and task records (Machine/Records). -/
theorem next_execLaunch {s : State} (h : Inv s) (d a : SReg) : InvNext (execLaunch d a s) := by
  refine next_issue h fun _ _ _ hx => ?_
  dsimp only
  split
  · next s e => exact inv_takeAccess hx e
  · exact inv_withRead hx (fun _ => inv_ite (inv_of_mem hx (by rfl)) (inv_ite hx (inv_ite (inv_of_mem hx (by rfl)) (inv_retire (inv_queueEntry
        (solid_closeRegion inv_solid hx ..) ..) ..)))) ..
theorem some_taskFault {s : State} (h : Inv s) (c : Crew) (t : Team) (word : Word) (cs : List (Check × Bool)) :
    InvSome (taskFault s c t word cs) := by
  induction cs with
  | nil => rfl
  | cons k r ih =>
    unfold taskFault
    split
    · next s e => exact inv_takeAccess h e
    · exact some_ite (inv_takeKind h ..) ih
theorem inv_bindTask {s : State} (h : Inv s) (t : Team) (va : Nat) (k : TaskRec) (tmpl : LaunchRec) : Inv (bindTask s t va k tmpl).1 := by
  unfold bindTask
  dsimp only
  split
  · exact h
  · split
    · exact h
    · split
      · exact h
      · split
        · next s2 e => exact solid_blockStep inv_solid (inv_of_mem h (by rfl)) e
        · exact h
theorem inv_finishSpawn {s : State} (h : Inv s) (c : Crew) (t : Team) (d : SReg) (va : Nat) (k : TaskRec) (tmpl : LaunchRec) :
    Inv (finishSpawn s c t d va k tmpl) :=
  inv_ite (inv_retire (inv_ite (inv_bindTask h ..) (inv_modCtx (inv_bindTask h ..) ..)) ..) (inv_of_mem h (by rfl))
theorem next_execTspawn {s : State} (h : Inv s) (d a : SReg) : InvNext (execTspawn d a s) := by
  refine next_issue h fun _ _ _ hx => ?_
  split
  · exact inv_finishSpawn hx ..
  · dsimp only
    split
    · next s e => exact inv_takeAccess hx e
    · refine inv_withRead hx (fun _ => ?_) ..
      split
      · next s e => exact inv_of_some (some_taskFault hx ..) e
      · exact inv_withRead hx (fun _ => inv_ite (inv_of_mem hx (by rfl)) (inv_ite (inv_of_mem hx (by rfl)) (inv_finishSpawn (inv_modCtx
            (solid_closeRegion inv_solid hx ..) ..) ..))) ..
theorem next_execTdep {s : State} (h : Inv s) (a b : SReg) : InvNext (execTdep a b s) := by
  refine next_issue h fun _ _ _ hx => ?_
  refine inv_ite (inv_trapAt hx ..) ?_
  split
  · next s e => exact inv_takeAccess hx e
  · exact inv_ite (inv_takeKind hx ..) (inv_retire (inv_addOp (solid_closeRegion inv_solid hx ..) ..) ..)
theorem next_execTdepStep {s : State} (h : Inv s) (op : Nat) : InvNext (execTdepStep op s) := by
  unfold execTdepStep
  split
  · rfl
  · split
    · refine next_ite rfl ?_
      refine solid_finishOp inv_solid ?_ ..
      refine inv_applyInvs (inv_modCrew ?_ ..) ..
      refine inv_ite (solid_holdFault inv_solid h ..) ?_
      refine inv_ite (solid_holdFault inv_solid h ..) ?_
      split
      · next s e => exact solid_blockStep inv_solid h e
      · exact h
    · rfl

/-! The spill area of halted teams and the fault replies posted to a context (Machine/Save). -/
theorem inv_syncBytes {s : State} (h : Inv s) (p : Attr) (a : Nat) (old new : List Byte) : Inv (syncBytes p a old new s) := by
  induction new generalizing s a old with
  | nil => cases old <;> exact h
  | cons c new ih =>
    cases old with
    | nil => exact solid_performBytes inv_solid h ..
    | cons b old => exact ih (inv_ite h (solid_performBytes inv_solid h ..)) ..
theorem inv_syncSpill {s : State} (h : Inv s) (old : State) : Inv (syncSpill old s) :=
  foldl_keeps Inv _ (fun _ _ hs => inv_syncBytes hs ..) _ _ h
theorem inv_postFault {s : State} (h : Inv s) (ctx : Nat) (f : FaultReply) : Inv (postFault s ctx f) := by
  unfold postFault
  split
  · exact h
  · dsimp only
    split
    · exact solid_performBytes inv_solid (inv_of_mem h (by rfl)) ..
    · exact inv_of_mem h (by rfl)
theorem inv_clearFault {s : State} (h : Inv s) (ctx : Nat) (f : FaultReply) : Inv (clearFault s ctx f) := by
  unfold clearFault
  split
  · exact solid_performBytes inv_solid h ..
  · exact h

/-! Page tables, page requests and invalidations (Machine/Translate). -/
theorem inv_changeLeaf {s : State} (h : Inv s) (a : Nat) (f : DWord → DWord) : Inv (changeLeaf s a f) :=
  inv_ite h (solid_performBytes inv_solid h ..)
theorem inv_heatLeaves {s : State} (h : Inv s) (ls : List (Nat × Bool × Bool)) : Inv (heatLeaves s ls) :=
  foldl_keeps Inv _ (fun _ _ hs => inv_changeLeaf hs ..) _ _ h
theorem inv_notePages {s : State} (h : Inv s) (ctx : Nat) (es : List Extent) : Inv (notePages s ctx es) := inv_of_mem h (by rfl)
theorem inv_overflowTeam {s : State} (h : Inv s) (t : Team) : Inv (overflowTeam s t) := by
  unfold overflowTeam
  refine foldl_keeps Inv _ (fun s k hs => ?_) _ _ ?_
  · split
    · exact inv_ite (solid_failGangs inv_solid _ hs ..) hs
    · exact hs
  · refine foldl_keeps Inv _ (fun _ _ hs => ?_) _ _ h
    extract_lets s1
    have hs1 : Inv s1 := solid_rollback inv_solid hs ..
    split
    · exact inv_ite hs1 (inv_ite (inv_of_mem hs1 (by rfl)) (solid_setTrap inv_solid hs1 ..))
    · exact hs1
theorem inv_settleDemand {s : State} (h : Inv s) (key : Nat) : Inv (settleDemand s key) := by
  unfold settleDemand
  split
  · exact h
  · split
    · refine inv_ite h ?_
      split
      · exact solid_raise inv_solid (inv_of_mem h (by rfl)) ..
      · exact inv_of_mem h (by rfl)
    · exact h
theorem inv_notePage {s : State} (h : Inv s) (t : Team) (page : Nat) (code : BitVec 8) : Inv (notePage s t page code) :=
  foldl_keeps Inv _ (fun _ _ hs => inv_settleDemand (inv_of_mem hs (by rfl)) ..) _ _ h
theorem inv_applyToTeam {s : State} (h : Inv s) (x : Ctx) (page : Nat) (status : BitVec 8) (sent tid : Nat) :
    Inv (applyToTeam s x page status sent tid) := by
  unfold applyToTeam
  split
  · exact h
  · exact inv_ite (inv_notePage (inv_of_mem h (by rfl)) ..) <|
      inv_ite (inv_overflowTeam (inv_of_mem h (by rfl)) ..) <|
      inv_notePage (inv_of_mem h (by rfl)) ..
theorem inv_applyReply {s : State} (h : Inv s) (ctx page : Nat) (status : BitVec 8) (teams : List Nat) (sent : Nat) :
    Inv (applyReply s ctx page status teams sent) := by
  unfold applyReply
  split
  · exact h
  · exact foldl_keeps Inv _ (fun _ _ hs => inv_applyToTeam hs ..) _ _ (inv_of_mem h (by rfl))
theorem inv_endRequest {s : State} (h : Inv s) (ctx req : Nat) (keepIndex : Bool) : Inv (endRequest s ctx req keepIndex) := by
  unfold endRequest
  split
  · exact h
  · split
    · exact h
    · refine solid_sendReqs inv_solid ?_ ..
      split <;> exact inv_of_mem h (by rfl)
theorem inv_takeReply {s : State} (h : Inv s) (ctx req : Nat) (status : BitVec 8) (keepIndex : Bool) (sent : Nat) :
    Inv (takeReply s ctx req status keepIndex sent) := by
  unfold takeReply
  split
  · exact h
  · exact inv_ite (inv_postFault (solid_emitA inv_solid (inv_endRequest h ..) ..) ..) <|
      inv_applyReply (inv_noteTime (solid_emitA inv_solid (inv_endRequest h ..) ..) ..) ..
theorem inv_takeHeld {s : State} (h : Inv s) (r : HeldReply) : Inv (takeHeld s r) := inv_takeReply (inv_ite (inv_of_mem h (by rfl)) h) ..
theorem inv_replyCame {s : State} (h : Inv s) (x : Ctx) (r : HeldReply) : Inv (replyCame s x r) :=
  inv_ite (inv_of_mem h (by rfl)) (inv_takeHeld h ..)
theorem next_execPageRequestReply {s : State} (h : Inv s) (ctx req : Nat) (status : BitVec 8) :
    InvNext (execPageRequestReply ctx req status s) := by
  unfold execPageRequestReply
  split
  · exact h
  · split
    · exact next_ite (inv_replyCame h ..) rfl
    · rfl
theorem next_execPrgResponse {s : State} (h : Inv s) (func : Nat) (index : Nat × BitVec 20) (code : PrgCode) :
    InvNext (execPrgResponse func index code s) := by
  unfold execPrgResponse
  split
  · exact next_ite rfl (inv_replyCame (inv_of_mem h (by rfl)) ..)
  · exact next_ite h (solid_sendReqs inv_solid (inv_of_mem h (by rfl)) ..)
theorem next_execPageRequestTimeout {s : State} (h : Inv s) (ctx req : Nat) : InvNext (execPageRequestTimeout ctx req s) := by
  unfold execPageRequestTimeout
  split
  · rfl
  · split
    · exact next_ite (inv_replyCame h ..) rfl
    · rfl
theorem some_answerAts {s : State} (h : Inv s) (ctx page : Nat) (res : AtsResult) : InvSome (answerAts s ctx page res) := by
  unfold answerAts
  split
  · exact inv_of_mem h (by rfl)
  · rfl
theorem next_execAtsTranslationCompletion {s : State} (h : Inv s) (ctx page : Nat) (res : AtsResult) :
    InvNext (execAtsTranslationCompletion ctx page res s) := by
  unfold execAtsTranslationCompletion
  split
  · next s' e =>
      have hs' : Inv s' := inv_of_some (some_answerAts h ..) e
      exact inv_ite hs' h
  · rfl
theorem next_execAtsTranslationTimeout {s : State} (h : Inv s) (ctx page : Nat) : InvNext (execAtsTranslationTimeout ctx page s) := by
  unfold execAtsTranslationTimeout
  split
  · next s e => exact inv_of_some (some_answerAts h ..) e
  · rfl
theorem inv_applyPosted {s : State} (h : Inv s) (ctx : Nat) : Inv (applyPosted s ctx) := by
  unfold applyPosted
  split
  · exact h
  · refine foldl_keeps Inv _ (fun _ _ hs => ?_) _ _ (inv_of_mem h (by rfl))
    dsimp only
    split
    · exact inv_applyReply (inv_noteTime (inv_clearFault hs ..) ..) ..
    · exact inv_clearFault hs ..

/-! The dispatcher: units are claimed, crews are packed and teams placed; the move of a scratchpad unit drops cells (Machine/Dispatcher). -/
theorem inv_applyAllPosted {s : State} (h : Inv s) (slice func : Nat) : Inv (applyAllPosted s slice func) :=
  foldl_keeps Inv _ (fun _ _ hs => inv_applyPosted hs ..) _ _ h
theorem inv_runFunc {s : State} (h : Inv s) (slice func : Nat) : Inv (runFunc s slice func) :=
  inv_ite h (inv_applyAllPosted (inv_of_mem h (by rfl)) ..)
theorem next_translateEntry {s : State} (h : Inv s) (eid : Nat) (e : Entry) (x : Ctx) : InvNext (translateEntry s eid e x) := by
  unfold translateEntry
  refine next_ite (inv_of_mem h (by rfl)) ?_
  refine next_ite rfl ?_
  split
  · exact inv_modCtx (solid_failEntry inv_solid (inv_heatLeaves h ..) ..) ..
  · exact next_ite (inv_modEntry (foldl_keeps Inv _ (fun _ _ hs => solid_requestPage inv_solid hs ..) _ _ h) ..) <|
      inv_runFunc (inv_modCtx (inv_notePages (inv_modEntry (inv_heatLeaves h ..) ..) ..) ..) ..
theorem next_execDispatchEntry {s : State} (h : Inv s) (ctx : Nat) : InvNext (execDispatchEntry ctx s) := by
  unfold execDispatchEntry
  split
  · refine next_ite rfl ?_
    refine next_ite (inv_modCtx (solid_failEntry inv_solid (inv_heatLeaves h ..) ..) ..) ?_
    refine next_ite rfl ?_
    refine next_ite (next_translateEntry h ..) ?_
    split
    · exact solid_failEntry inv_solid h ..
    · split
      · exact solid_failEntry inv_solid h ..
      · exact inv_of_mem h (by rfl)
  · rfl
theorem inv_renameCrew {s : State} (h : Inv s) (old new : Nat) : Inv (renameCrew s old new) := by
  unfold renameCrew
  split
  · exact h
  · exact inv_of_mem h (by rfl)
/-- A unit that moves leaves no bytes behind in its core's SRAM. -/
theorem inv_moveUnit {s : State} (h : Inv s) (tid i new : Nat) : Inv (moveUnit s tid i new) := by
  unfold moveUnit
  split
  · exact h
  · exact Sparse.wf_filter _ (foldl_keeps Inv _ (fun x o hx => inv_of_mem hx (by rfl)) _ _ (solid_performBytes inv_solid h ..))
theorem inv_claimSlots {s : State} (h : Inv s) (n : Nat) (core : Nat) (fuel : Nat) : Inv (claimSlots n core fuel s) := by
  induction fuel generalizing s with
  | zero => exact h
  | succ fuel ih =>
    unfold claimSlots
    refine inv_ite h ?_
    split
    · exact ih (inv_modCrew (inv_renameCrew (inv_of_mem h (by rfl)) ..) ..)
    · exact h
theorem inv_claimUnits {s : State} (h : Inv s) (n : Nat) (core : Nat) (fuel : Nat) : Inv (claimUnits n core fuel s) := by
  induction fuel generalizing s with
  | zero => exact h
  | succ fuel ih =>
    unfold claimUnits
    refine inv_ite h ?_
    dsimp only
    split
    · exact ih (inv_moveUnit h ..)
    · exact h
theorem inv_claimTiles {s : State} (h : Inv s) (n : Nat) (core : Nat) (fuel : Nat) : Inv (claimTiles n core fuel s) := by
  induction fuel generalizing s with
  | zero => exact h
  | succ fuel ih =>
    unfold claimTiles
    refine inv_ite h ?_
    dsimp only
    split
    · exact ih (inv_of_mem h (by rfl))
    · exact h
theorem inv_claimCtxs {s : State} (h : Inv s) (r : LaunchRec) (core : Nat) (fuel : Nat) : Inv (claimCtxs r core fuel s) := by
  induction fuel generalizing s with
  | zero => exact h
  | succ fuel ih =>
    unfold claimCtxs
    refine inv_ite h ?_
    split
    · exact ih (inv_of_mem h (by rfl))
    · exact h
theorem inv_claimRows {s : State} (h : Inv s) (r : LaunchRec) (core : Nat) (fuel : Nat) : Inv (claimRows r core fuel s) := by
  induction fuel generalizing s with
  | zero => exact h
  | succ fuel ih =>
    unfold claimRows
    refine inv_ite h ?_
    split
    · exact ih (inv_of_mem h (by rfl))
    · exact h
theorem inv_claimOn {s : State} (h : Inv s) (r : LaunchRec) (core : Nat) : Inv (claimOn s r core) :=
  inv_claimRows (inv_claimCtxs (inv_claimTiles (inv_claimUnits (inv_claimSlots h ..) ..) ..) ..) ..
theorem inv_lowerCrew {s : State} (h : Inv s) (tid : Nat) (t : Team) (idx : Nat) : Inv (lowerCrew s tid t idx) := by
  unfold lowerCrew
  refine foldl_keeps Inv _ (fun _ _ hs => ?_) _ _ h
  split
  · exact inv_of_mem hs (by rfl)
  · exact hs
theorem inv_compactStep {s s' : State} (h : Inv s) {core a b : Nat} (e : compactStep s core = some (a, b, s')) : Inv s' := by
  unfold compactStep at e
  obtain ⟨c, -, hc⟩ := List.exists_of_findSome?_eq_some e
  split at hc
  · dsimp only at hc
    split at hc
    · cases hc
    · cases hc
      exact inv_lowerCrew h ..
  · cases hc
theorem inv_placeOn {s : State} (h : Inv s) (eid : Nat) (e : Entry) (core : Nat) (group : List Nat) : Inv (placeOn s eid e core group) := by
  unfold placeOn
  refine inv_applyInvs ?_ ..
  refine foldl_keeps Inv _ (fun s _ hs => ?_) _ _
    (inv_modEntry (foldl_keeps Inv _ (fun _ _ hs => inv_of_mem hs (by rfl)) _ _ (inv_of_mem h (by rfl))) ..)
  split
  · exact inv_beginCrew hs ..
  · exact hs
theorem next_chooseCore {s : State} (h : Inv s) (sl core ctx : Nat) (team : Option Nat) (entry : Nat) :
    InvNext (chooseCore s sl core ctx team entry) :=
  next_ite rfl (inv_of_mem h (by rfl))
theorem next_execPlaceTeam {s : State} (h : Inv s) (ctx : Nat) : InvNext (execPlaceTeam ctx s) := by
  unfold execPlaceTeam
  split
  · rfl
  · refine next_ite rfl ?_
    dsimp only
    split
    · exact inv_modSlice (inv_placeOn h ..) ..
    · split
      · exact inv_modSlice (inv_placeOn (inv_claimOn h ..) ..) ..
      · split
        · exact next_chooseCore h ..
        · rfl
theorem inv_placeGroup {s : State} (h : Inv s) (eid sl : Nat) (cs : List Nat) : Inv (placeGroup s eid sl cs) := by
  unfold placeGroup
  refine inv_modSlice ?_ ..
  refine foldl_keeps Inv _ (fun _ _ hs => ?_) _ _ h
  split
  · exact inv_placeOn hs ..
  · exact hs
theorem next_execPlaceMirrorGroup {s : State} (h : Inv s) (ctx : Nat) : InvNext (execPlaceMirrorGroup ctx s) := by
  unfold execPlaceMirrorGroup
  split
  · rfl
  · refine next_ite rfl ?_
    split
    · exact inv_placeGroup h ..
    · split
      · exact inv_placeGroup (foldl_keeps Inv _ (fun _ _ hs => inv_claimOn hs ..) _ _ h) ..
      · split
        · split
          · exact next_chooseCore h ..
          · rfl
        · rfl
theorem some_reloadRows {s : State} (h : Inv s) (tid : Nat) (t : Team) : InvSome (reloadRows s tid t) := by
  unfold reloadRows
  dsimp only
  split
  · rfl
  · refine some_ite rfl ?_
    refine inv_modTeam ?_ ..
    refine foldl_keeps Inv _ (fun _ _ hs => ?_) _ _ h
    split
    · exact inv_of_mem hs (by rfl)
    · exact hs
theorem next_execCompactorMove {s : State} (h : Inv s) (core crew : Nat) : InvNext (execCompactorMove core crew s) := by
  unfold execCompactorMove
  split
  · next c tid idx s' hc e =>
      have hs' : Inv s' := inv_compactStep h e
      exact next_ite rfl (inv_of_mem hs' (by rfl))
  · rfl
theorem next_execHeatSweep {s : State} (h : Inv s) (ctx : Nat) : InvNext (execHeatSweep ctx s) := by
  unfold execHeatSweep
  split
  · rfl
  · exact next_ite rfl <|
      inv_spend (inv_modCtx (foldl_keeps Inv _ (fun _ _ hs => inv_changeLeaf hs ..) _ _ h) ..) ..

/-! Halts, resumes and teardown (Machine/Halt). -/
theorem inv_frontSend {s : State} (h : Inv s) (ctx : Nat) : Inv (frontSend s ctx).1 := inv_of_mem h (by rfl)
theorem inv_haltCrew {s : State} (h : Inv s) (key : Nat) (why : HaltWhy) (sent : Nat) : Inv (haltCrew s key why sent) := by
  unfold haltCrew
  split
  · exact h
  · refine inv_ite h ?_
    extract_lets s1
    have hs1 : Inv s1 := inv_ite h (solid_rollback inv_solid (solid_abortRegion inv_solid h ..) ..)
    split
    · exact solid_emitCrewA inv_solid (solid_stallOver inv_solid (inv_of_mem hs1 (by rfl)) ..) ..
    · exact inv_of_mem hs1 (by rfl)
theorem inv_haltTeam {s : State} (h : Inv s) (tid : Nat) (why : HaltWhy) : Inv (haltTeam s tid why) := by
  unfold haltTeam
  split
  · exact h
  · exact inv_ite (inv_ite (inv_of_mem h (by rfl)) h) <|
      foldl_keeps Inv _ (fun _ _ hs => inv_haltCrew hs ..) _ _ (inv_modTeam (inv_modCore (inv_mk (inv_frontSend h ..)) ..) ..)
theorem some_reloadSlots {s : State} (h : Inv s) (t : Team) : InvSome (reloadSlots s t) :=
  some_ite rfl (foldl_keeps Inv _ (fun _ _ hs => inv_renameCrew (inv_of_mem hs (by rfl)) ..) _ _ h)
theorem some_reloadUnits {s : State} (h : Inv s) (tid fuel : Nat) : InvSome (reloadUnits tid fuel s) := by
  induction fuel generalizing s with
  | zero => exact h
  | succ fuel ih =>
    unfold reloadUnits
    split
    · rfl
    · split
      · exact h
      · exact ih (inv_moveUnit h ..)
      · rfl
theorem some_reloadTeam {s : State} (h : Inv s) (tid : Nat) : InvSome (reloadTeam s tid) := by
  unfold reloadTeam
  split
  · rfl
  · refine some_ite rfl (some_of_forall fun s' e => ?_)
    simp only [Option.bind_eq_bind, Option.bind_eq_some_iff] at e
    obtain ⟨s1, e1, s2, e2, t, -, e3⟩ := e
    have h1 : Inv s1 := inv_of_some (some_reloadSlots (inv_of_mem h (by rfl)) ..) e1
    have h2 : Inv s2 := inv_of_some (some_reloadUnits h1 ..) e2
    exact inv_of_some (some_reloadRows h2 ..) e3
theorem some_resumeTeam {s : State} (h : Inv s) (tid : Nat) : InvSome (resumeTeam s tid) := by
  unfold resumeTeam
  split
  · rfl
  · refine some_ite rfl ?_
    split
    · exact solid_endEntry inv_solid h ..
    · split
      · rfl
      · next s1 e =>
        have h1 : Inv s1 := inv_of_some (some_reloadTeam h ..) e
        extract_lets s2 s3
        have h3 : Inv s3 := inv_applyPosted (inv_of_mem h1 (by rfl)) ..
        split
        next s4 sent e =>
        have h4 : Inv s4 := inv_of_fst (inv_frontSend (inv_modTeam h3 ..) ..) e
        extract_lets keys s5 s6
        have h5 : Inv s5 := by
          refine foldl_keeps Inv _ (fun _ _ hs => ?_) _ _ h4
          split
          · exact inv_ite hs (solid_emitCrewA inv_solid hs ..)
          · exact hs
        refine solid_checkDeadlock inv_solid ?_ ..
        unfold s6
        split
        · exact inv_runFunc h5 ..
        · exact h5
theorem inv_returnPools {s : State} (h : Inv s) (slice : Nat) : Inv (returnPools s slice) :=
  foldl_keeps Inv _ (fun _ _ hs => inv_of_mem hs (by rfl)) _ _ h
theorem inv_finishSwitch {s : State} (h : Inv s) (slice : Nat) : Inv (finishSwitch s slice) := by
  unfold finishSwitch
  split
  · refine inv_ite ?_ h
    refine foldl_keeps Inv _ (fun _ _ hs => ?_) _ _ (inv_applyAllPosted (inv_modSlice (inv_returnPools h ..) ..) ..)
    refine inv_ite ?_ hs
    split
    · next s' e => exact inv_of_some (some_resumeTeam hs ..) e
    · exact hs
  · exact h
theorem next_execHaltRequest {s : State} (h : Inv s) (team : Nat) : InvNext (execHaltRequest team s) := by
  unfold execHaltRequest
  split
  · exact next_ite rfl (inv_haltTeam h ..)
  · rfl
theorem next_execHaltComplete {s : State} (h : Inv s) (team : Nat) : InvNext (execHaltComplete team s) := by
  unfold execHaltComplete
  split
  · rfl
  · split
    · refine next_ite ?_ rfl
      dsimp only
      split
      · exact inv_finishSwitch (solid_dropPool inv_solid (inv_of_mem h (by rfl)) ..) ..
      · exact solid_dropPool inv_solid (inv_of_mem h (by rfl)) ..
    · rfl
theorem next_execResume {s : State} (h : Inv s) (team : Nat) : InvNext (execResume team s) := by
  unfold execResume
  split
  · rfl
  · split
    · rfl
    · refine next_ite rfl ?_
      split
      · next s e => exact inv_of_some (some_resumeTeam h ..) e
      · exact next_ite (next_chooseCore h ..) rfl
theorem next_execMonitorThresholdHalt {s : State} (h : Inv s) (crew : Nat) : InvNext (execMonitorThresholdHalt crew s) := by
  unfold execMonitorThresholdHalt
  split
  · rfl
  · split
    · exact next_ite (inv_haltTeam (solid_emitA inv_solid h ..) ..) rfl
    · rfl
theorem next_execQuantumExpiry {s : State} (h : Inv s) (slice : Nat) : InvNext (execQuantumExpiry slice s) := by
  unfold execQuantumExpiry
  refine next_ite rfl ?_
  dsimp only
  split
  · split
    · exact inv_runFunc h ..
    · exact h
  · refine next_ite rfl ?_
    refine next_ite rfl ?_
    split
    · exact inv_of_mem h (by rfl)
    · exact inv_finishSwitch (foldl_keeps Inv _ (fun _ _ hs => inv_haltTeam hs ..) _ _ (inv_of_mem h (by rfl))) ..
theorem inv_ackInval {s : State} (h : Inv s) (ats : Option (Nat × Nat)) : Inv (ackInval s ats) := by
  unfold ackInval
  split
  · exact inv_ite h (inv_of_mem h (by rfl))
  · exact h
theorem inv_startInval {s : State} (h : Inv s) (ctx : Nat) (spans : List (Nat × Nat)) (ats : Option (Nat × Nat)) :
    Inv (startInval s ctx spans ats) :=
  inv_ite (inv_mk (foldl_keeps Inv _ (fun _ _ hs => inv_endCmd hs ..) _ _ h)) <|
    foldl_keeps Inv _ (fun _ _ hs => inv_haltTeam hs ..) _ _ (inv_mk (inv_mk (foldl_keeps Inv _ (fun _ _ hs => inv_endCmd hs ..) _ _ h)))
theorem inv_invalHost {s : State} (h : Inv s) (ctx lo len : Nat) (ats : Nat × Nat) : Inv (invalHost s ctx lo len ats) := by
  unfold invalHost
  split
  · exact h
  · exact inv_startInval h ..
theorem next_execAtsInvalidateRequest {s : State} (h : Inv s) (link ctx lo len : Nat) :
    InvNext (execAtsInvalidateRequest link ctx lo len s) := by
  unfold execAtsInvalidateRequest
  split
  · rfl
  · exact next_ite rfl <|
      inv_ackInval (foldl_keeps Inv _ (fun _ _ hs => inv_invalHost hs ..) _ _ (inv_of_mem h (by rfl))) ..
theorem inv_punchTeam {s : State} (h : Inv s) (spans : List (Nat × Nat)) (tid : Nat) : Inv (punchTeam s spans tid) := by
  unfold punchTeam
  split
  · exact h
  · exact inv_ite (inv_overflowTeam (inv_of_mem h (by rfl)) ..) (inv_of_mem h (by rfl))
theorem next_execInvalidationComplete {s : State} (h : Inv s) (id : Nat) : InvNext (execInvalidationComplete id s) := by
  unfold execInvalidationComplete
  split
  · rfl
  · refine next_ite rfl ?_
    refine foldl_keeps Inv _ (fun s t hs => ?_) _ _ (inv_ackInval (foldl_keeps Inv _ (fun _ _ hs => inv_punchTeam hs ..) _ _
        (inv_of_mem h (by rfl))) ..)
    split
    · refine inv_ite ?_ hs
      split
      · next s' e => exact inv_of_some (some_resumeTeam hs ..) e
      · exact hs
    · exact hs
theorem inv_halfWrite {s : State} (h : Inv s) (core : Option Nat) (dst : Acc) (bs : List Byte) (bad : List Bool) :
    Inv (halfWrite s core dst bs bad) :=
  foldl_keeps Inv _ (fun _ _ hs => inv_ite hs (inv_ite (solid_poisonBytes inv_solid (solid_performBytes inv_solid hs ..) ..)
      (solid_performBytes inv_solid hs ..))) _ _ h
theorem inv_stopOp {s : State} (h : Inv s) (o : Op) : Inv (stopOp s o) := by
  unfold stopOp
  refine inv_ite h ?_
  dsimp only
  split
  · refine foldl_keeps Inv _ (fun s _ hs => ?_) _ _ h
    split
    · exact inv_ite hs (inv_halfWrite hs ..)
    · exact inv_halfWrite hs ..
  · exact foldl_keeps Inv _ (fun _ _ hs => inv_halfWrite hs ..) _ _ h
  · exact h
theorem inv_stopCmd {s : State} (h : Inv s) (c : Cmd) : Inv (stopCmd s c) :=
  inv_ite (foldl_keeps Inv _ (fun _ _ hs => inv_halfWrite hs ..) _ _ h) h
theorem inv_teardownCtx {s : State} (h : Inv s) (ctx : Nat) (lost : Bool) : Inv (teardownCtx s ctx lost) := by
  unfold teardownCtx
  split
  · exact h
  · exact inv_mk (foldl_keeps Inv _ (fun _ _ hs => solid_writeCompletion inv_solid hs ..) _ _ (foldl_keeps Inv _
        (fun _ _ hs => solid_completeEntry inv_solid hs ..) _ _ (inv_mk (foldl_keeps Inv _ (fun _ _ hs => inv_stopCmd hs ..) _ _
        (foldl_keeps Inv _ (fun _ _ hs => inv_stopOp hs ..) _ _ h)))))

/-! The trace buffers and the time base (Machine/Trace). -/
theorem inv_fixActive {s : State} (h : Inv s) (func : Nat) : Inv (fixActive s func) := inv_ite h (inv_of_mem h (by rfl))
theorem inv_settleActive {s : State} (h : Inv s) : Inv (settleActive s) :=
  foldl_keeps Inv _ (fun _ _ hs => inv_fixActive hs ..) _ _ h
theorem inv_writeRecord {s : State} (h : Inv s) (func : Nat) (i : TraceItem) (seq : BitVec 8) : Inv (writeRecord s func i seq) :=
  inv_modFunc (inv_spend (solid_performBytes inv_solid h ..) ..) ..
theorem inv_nextSeq {s : State} (h : Inv s) (die : Nat) : Inv (nextSeq s die).1 := inv_of_mem h (by rfl)
theorem inv_writeOverrun {s : State} (h : Inv s) (func : Nat) (i : TraceItem) : Inv (writeOverrun s func i) :=
  inv_writeRecord (inv_mk (inv_noteTime (inv_nextSeq h ..) ..)) ..
theorem inv_acceptRecord {s : State} (h : Inv s) (i : TraceItem) : Inv (acceptRecord s i) := by
  unfold acceptRecord
  extract_lets _ _ _ s1 _ _ s2
  have hs1 : Inv s1 := foldl_keeps Inv _ (fun _ _ hs => inv_writeOverrun hs ..) _ _ h
  have hs2 : Inv s2 := inv_ite (inv_of_mem hs1 (by rfl)) (inv_of_mem hs1 (by rfl))
  exact inv_ite (inv_ite (inv_writeRecord (inv_ite (inv_writeRecord (inv_nextSeq hs2 ..) ..) (inv_nextSeq hs2 ..)) ..) (inv_ite
      (inv_writeRecord (inv_nextSeq hs2 ..) ..) (inv_nextSeq hs2 ..))) <|
    hs2
theorem next_execTraceAccept {s : State} (h : Inv s) (die src : Nat) : InvNext (execTraceAccept die src s) := by
  unfold execTraceAccept
  split
  · exact next_ite (inv_acceptRecord h ..) rfl
  · rfl
theorem next_execTraceReservationRefill {s : State} (h : Inv s) (core : Nat) : InvNext (execTraceReservationRefill core s) := by
  unfold execTraceReservationRefill
  split
  · rfl
  · exact next_ite rfl (inv_of_mem h (by rfl))
theorem inv_emitF {s : State} (h : Inv s) (die func : Nat) (event arg : BitVec 8) (payload : Word) (stamp : Nat) :
    Inv (emitF s die func event arg payload stamp) :=
  inv_ite h (inv_ite (inv_of_mem h (by rfl)) (inv_of_mem h (by rfl)))
theorem inv_crossEpoch {s : State} (h : Inv s) (die : Nat) : Inv (crossEpoch s die) :=
  foldl_keeps Inv _ (fun _ _ hs => inv_emitF hs ..) _ _ (inv_of_mem h (by rfl))
theorem inv_crossAll {s : State} (h : Inv s) : Inv (crossAll s) :=
  foldl_keeps Inv _ (fun _ _ hs => foldl_keeps Inv _ (fun _ _ hs => inv_crossEpoch hs ..) _ _ hs) _ _ h
theorem inv_releaseStalls {s : State} (h : Inv s) (func : Nat) : Inv (releaseStalls s func) :=
  foldl_keeps Inv _ (fun _ _ hs => inv_modCrew (solid_stallOver inv_solid hs ..) ..) _ _ h
theorem next_execTrcfgWrite {s : State} (h : Inv s) (func : Nat) (value : DWord) : InvNext (execTrcfgWrite func value s) := by
  unfold execTrcfgWrite
  extract_lets _ _ s1 _ s2
  have hs1 : Inv s1 := inv_ite h (inv_crossAll h ..)
  have hs2 : Inv s2 := inv_fixActive (inv_of_mem hs1 (by rfl)) ..
  exact next_ite (foldl_keeps Inv _ (fun _ _ hs => inv_emitF (inv_of_mem hs (by rfl)) ..) _ _ hs2) <|
    next_ite (inv_releaseStalls hs2 ..) <|
    hs2
theorem inv_setTimeState {s : State} (h : Inv s) (st : BitVec 2) : Inv (setTimeState s st) :=
  inv_ite h <|
    foldl_keeps Inv _ (fun _ _ hs => foldl_keeps Inv _ (fun _ _ hs => inv_emitF hs ..) _ _ (inv_of_mem hs (by rfl))) _ _ (inv_of_mem h (by rfl))
theorem inv_measure {s : State} (h : Inv s) (offset : BitVec 32) : Inv (measure s offset) := inv_setTimeState (inv_of_mem h (by rfl)) ..

/-! The carve of a core and the activity budgets (Machine/Carve). -/
theorem inv_fixCarve {s : State} (h : Inv s) (core : Nat) : Inv (fixCarve s core) := inv_of_mem h (by rfl)
theorem next_execSramcfgWrite {s : State} (h : Inv s) (core : Nat) (value : DWord) : InvNext (execSramcfgWrite core value s) :=
  next_ite (inv_of_mem h (by rfl)) <|
    inv_fixCarve (foldl_keeps Inv _ (fun _ _ hs => inv_dropOwnLine hs ..) _ _ (inv_of_mem h (by rfl))) ..
theorem next_execCarveWriteback {s : State} (h : Inv s) (core n : Nat) : InvNext (execCarveWriteback core n s) :=
  next_ite rfl <|
    inv_fixCarve (inv_spend (foldl_keeps Inv _ (fun _ _ hs => inv_dropOwnLine (inv_cleanLines hs ..) ..) _ _ h) ..) ..
theorem next_execCarveComplete {s : State} (h : Inv s) (core : Nat) : InvNext (execCarveComplete core s) :=
  next_ite rfl <|
    next_ite rfl <|
    inv_fixCarve (inv_modCore (foldl_keeps Inv _ (fun _ _ hs => inv_dropOwnLine hs ..) _ _ h) ..) ..
theorem next_execScrubSector {s : State} (h : Inv s) (place : PoisonPlace) : InvNext (execScrubSector place s) := by
  unfold execScrubSector
  split
  · exact next_ite (next_ite (inv_of_mem h (by rfl)) rfl) (inv_of_mem h (by rfl))
  · exact inv_of_mem h (by rfl)
  · exact next_ite (inv_of_mem h (by rfl)) rfl
  · split
    · exact next_ite (inv_of_mem h (by rfl)) rfl
    · rfl

/-! Scalar instructions (Machine/Scalar). -/
theorem next_scalarOp {s : State} (h : Inv s) (i : Instr) (d : SReg) (v : Crew → DWord) : InvNext (scalarOp i d v s) :=
  next_issue h fun _ _ _ hx => inv_of_mem hx (by rfl)

/-! Branches, waits and the end of a crew (Machine/Control). -/
theorem inv_branchTo {s : State} (h : Inv s) (c : Crew) (word : Word) (t : Int) (aligned link : Bool) :
    Inv (branchTo s c word t aligned link) :=
  inv_ite (inv_of_mem h (by rfl)) (inv_trapAt h ..)
theorem inv_waitBody {s : State} (h : Inv s) (th : Cls → Nat) (c : Crew) (x0 : Team) : Inv (waitBody th s c x0) :=
  inv_ite (inv_ite (inv_raiseHeld h ..) (inv_of_mem h (by rfl))) (inv_of_mem h (by rfl))
theorem next_execEndCrew {s : State} (h : Inv s) : InvNext (execEndCrew s) := by
  refine next_issue h fun _ _ _ hx => ?_
  extract_lets _ s1
  have hs1 : Inv s1 := solid_closeRegion inv_solid hx ..
  refine inv_ite hs1 ?_
  split
  · exact hs1
  · refine inv_ite (inv_raiseHeld hs1 ..) ?_
    extract_lets s2 s3 s4 s5
    have hs2 : Inv s2 := inv_emitIssue (inv_emitS hs1 ..) ..
    have hs4 : Inv s4 := inv_modTeam (inv_setCrew hs2 ..) ..
    have hs5 : Inv s5 := solid_failGangs inv_solid _ hs4 ..
    split
    · exact inv_ite (solid_retireTeam inv_solid hs5 ..) (solid_checkDeadlock inv_solid hs5 ..)
    · exact hs5
theorem next_execInstructionFetchFault {s : State} (h : Inv s) (cause : BitVec 8) (addr : Addr) (detail : DWord) :
    InvNext (execInstructionFetchFault cause addr detail s) := by
  unfold execInstructionFetchFault
  split
  · exact next_ite (next_issue h fun _ _ _ hx => inv_trapAt hx ..) rfl
  · rfl
theorem next_execIssueStarvationPromote {s : State} (h : Inv s) (crew : Nat) : InvNext (execIssueStarvationPromote crew s) := by
  unfold execIssueStarvationPromote
  split
  · exact next_ite (inv_of_mem h (by rfl)) rfl
  · rfl

/-! Slices: growth, shrinking, and the reset that zeroes what the slice held (Machine/Slices). -/
theorem inv_zeroKey {s : State} (h : Inv s) (index : Nat) (owner : Option Nat) : Inv (zeroKey s index owner) :=
  inv_mk (inv_dropKey h ..)
theorem inv_teardownFunc {s : State} (h : Inv s) (func : Nat) : Inv (teardownFunc s func) :=
  foldl_keeps Inv _ (fun _ _ hs => inv_teardownCtx hs ..) _ _ h
theorem inv_clearTdi {s : State} (h : Inv s) (func : Nat) : Inv (clearTdi s func) := by
  unfold clearTdi
  dsimp only
  split
  · exact inv_zeroKey (inv_modFunc (inv_teardownFunc (inv_of_mem h (by rfl)) ..) ..) ..
  · exact inv_modFunc (inv_teardownFunc (inv_of_mem h (by rfl)) ..) ..
theorem inv_tdiError {s : State} (h : Inv s) (func : Nat) : Inv (tdiError s func) := inv_modFunc (inv_clearTdi h ..) ..
theorem inv_modQueue {s : State} (h : Inv s) (func queue : Nat) (g : Queue → Queue) : Inv (modQueue s func queue g) := inv_of_mem h (by rfl)
theorem inv_unmapSlot {s : State} (h : Inv s) (slice slot : Nat) : Inv (unmapSlot s slice slot) := by
  unfold unmapSlot
  split
  · exact h
  · dsimp only
    split
    · exact inv_ite (inv_of_mem h (by rfl)) (inv_of_mem h (by rfl))
    · exact inv_of_mem h (by rfl)
theorem inv_capChange {s : State} (h : Inv s) : Inv (capChange s) := inv_of_mem h (by rfl)
theorem inv_drainGroups {s : State} (h : Inv s) (gs : List Nat) : Inv (drainGroups s gs) :=
  foldl_keeps Inv _ (fun _ _ hs => inv_ite (inv_spend (inv_cleanLines hs ..) ..) hs) _ _ h
theorem inv_emptyGroups {s : State} (h : Inv s) (gs : List Nat) : Inv (emptyGroups s gs) :=
  foldl_keeps Inv _ (fun _ _ hs => inv_evictL2 hs ..) _ _ h
theorem inv_fixL2c {s : State} (h : Inv s) (i : Nat) : Inv (fixL2c s i) := inv_of_mem h (by rfl)
theorem inv_takeGroups {s : State} (h : Inv s) (i : Nat) (gs : List Nat) : Inv (takeGroups s i gs) :=
  inv_fixL2c (inv_modSlice (foldl_keeps Inv _ (fun _ _ hs => inv_evictL2 hs ..) _ _ h) ..) ..
theorem inv_endShrink {s : State} (h : Inv s) (i : Nat) : Inv (endShrink s i) := by
  unfold endShrink
  extract_lets _ s1 _ s2
  have hs1 : Inv s1 := by
    unfold s1
    split
    · exact inv_takeGroups (inv_of_mem h (by rfl)) ..
    · exact h
  have hs2 : Inv s2 := by
    unfold s2
    split
    · split
      · exact inv_of_mem hs1 (by rfl)
      · exact hs1
    · exact hs1
  exact inv_ite h (inv_of_mem hs2 (by rfl))
theorem next_execSliceReleaseProgress {s : State} (h : Inv s) (i : Nat) (part : SlicePart) :
    InvNext (execSliceReleaseProgress i part s) := by
  unfold execSliceReleaseProgress
  dsimp only
  split
  · exact next_ite (inv_endShrink (inv_of_mem h (by rfl)) ..) rfl
  · exact next_ite (inv_endShrink (inv_of_mem h (by rfl)) ..) rfl
  · exact next_ite (next_ite (inv_fixL2c (inv_endShrink (inv_modSlice (inv_emptyGroups (inv_fixL2c
        (inv_drainGroups h ..) ..) ..) ..) ..) ..) (next_ite rfl (inv_fixL2c (inv_drainGroups h ..) ..))) <|
      next_ite (next_ite (inv_fixL2c (inv_modSlice (inv_emptyGroups (inv_fixL2c (inv_drainGroups h ..) ..) ..) ..) ..) (next_ite rfl
        (inv_fixL2c (inv_drainGroups h ..) ..))) rfl
theorem inv_joinSlices {s : State} (h : Inv s) (a b : Nat) (rs : Ranges) (lo hi : Nat) : Inv (joinSlices s a b rs lo hi) := by
  unfold joinSlices
  extract_lets _ _ _ s1
  have hs1 : Inv s1 := foldl_keeps Inv _ (fun _ _ hs => inv_unmapSlot hs ..) _ _ h
  exact inv_ite (inv_of_mem hs1 (by rfl)) (inv_of_mem hs1 (by rfl))
theorem next_execSliceMerge {s : State} (h : Inv s) (a b : Nat) : InvNext (execSliceMerge a b s) := by
  unfold execSliceMerge
  refine next_ite rfl ?_
  dsimp only
  split
  · refine next_ite rfl ?_
    refine next_ite (inv_of_mem h (by rfl)) ?_
    refine next_ite (next_ite rfl (foldl_keeps Inv _ (fun _ _ hs => inv_haltTeam hs ..) _ _ (inv_of_mem h (by rfl)))) ?_
    refine next_ite (next_ite rfl (inv_fixL2c (inv_drainGroups (inv_of_mem h (by rfl)) ..) ..)) ?_
    refine inv_capChange ?_ ..
    refine foldl_keeps Inv _ (fun s _ hs => ?_) _ _ (inv_endShrink (inv_joinSlices (foldl_keeps Inv _
        (fun _ _ hs => inv_tdiError hs ..) _ _ (inv_emptyGroups h ..)) ..) ..)
    refine inv_ite ?_ hs
    split
    · next s' e => exact inv_of_some (some_resumeTeam hs ..) e
    · exact hs
  · exact inv_of_mem h (by rfl)
theorem next_execSliceReset {s : State} (h : Inv s) (i : Nat) : InvNext (execSliceReset i s) := by
  unfold execSliceReset
  refine next_ite rfl (next_ite (inv_of_mem h (by rfl)) (inv_modSlice (foldl_keeps Inv _ (fun x c hx => inv_of_mem hx (by rfl)) _ _ ?_) ..))
  have h1 : Inv (((s.ctxs.filter fun p => p.2.slice == i).map (·.1)).foldl (fun s c => teardownCtx s c true) s) :=
    foldl_keeps Inv _ (fun x c hx => inv_teardownCtx hx ..) _ _ h
  exact Sparse.wf_foldl_set _ (foldl_keeps Inv _ (fun x f hx => inv_tdiError hx ..) _ _ h1)

/-! Queues and admissions (Machine/Queues). -/
theorem inv_setQerr {s : State} (h : Inv s) (func queue bit : Nat) : Inv (setQerr s func queue bit) := by
  unfold setQerr
  split
  · exact h
  · exact inv_ite (inv_of_mem h (by rfl)) (inv_of_mem h (by rfl))
theorem inv_tellFirmware {s : State} (h : Inv s) (code func queue value : Nat) : Inv (tellFirmware s code func queue value) :=
  inv_of_mem h (by rfl)
theorem next_execQueueNotify {s : State} (h : Inv s) (func queue : Nat) (value : DWord) : InvNext (execQueueNotify func queue value s) := by
  unfold execQueueNotify
  dsimp only
  split
  · exact inv_of_mem h (by rfl)
  · exact next_ite (inv_setQerr h ..) (next_ite h (next_ite (inv_of_mem h (by rfl)) (inv_ite (inv_of_mem h (by rfl)) (inv_of_mem h (by rfl)))))
theorem next_execQueueMap {s : State} (h : Inv s) (func queue slot : Nat) : InvNext (execQueueMap func queue slot s) := by
  unfold execQueueMap
  dsimp only
  split
  · rfl
  · refine next_ite ?_ <|
      next_ite rfl <|
      inv_modFunc (inv_modQueue (inv_modSlice (inv_unmapSlot h ..) ..) ..) ..
    split
    · exact next_ite rfl (inv_unmapSlot h ..)
    · rfl
theorem next_execNpQueueReclaim {s : State} (h : Inv s) (slice slot : Nat) : InvNext (execNpQueueReclaim slice slot s) := by
  unfold execNpQueueReclaim
  split
  · rfl
  · split
    · rfl
    · exact next_ite (inv_tellFirmware (inv_unmapSlot h ..) ..) rfl
theorem inv_advanceHead {s : State} (h : Inv s) (func queue : Nat) : Inv (advanceHead s func queue) := inv_of_mem h (by rfl)
theorem inv_takeRing {s : State} (h : Inv s) (slice func queue : Nat) (q : Queue) (va : Nat) (r : List Byte) :
    Inv (takeRing s slice func queue q va r) :=
  inv_ite (inv_ite (inv_ite h (inv_of_mem h (by rfl))) (inv_advanceHead (inv_ite (solid_writeCompletion inv_solid h ..) (inv_setQerr h ..)) ..)) <|
    inv_ite (inv_advanceHead (inv_setQerr h ..) ..) <|
    inv_ite (inv_of_mem h (by rfl)) <|
    inv_advanceHead (inv_setQerr h ..) ..
theorem next_execQueueSlotFetch {s : State} (h : Inv s) (slice slot : Nat) : InvNext (execQueueSlotFetch slice slot s) := by
  unfold execQueueSlotFetch
  dsimp only
  split
  · rfl
  · split
    · rfl
    · refine next_ite rfl ?_
      refine next_ite (inv_advanceHead (inv_setQerr (inv_of_mem h (by rfl)) ..) ..) ?_
      split
      · exact inv_takeRing (inv_of_mem h (by rfl)) ..
      · exact inv_advanceHead (inv_setQerr (inv_of_mem h (by rfl)) ..) ..
      · exact solid_requestPage inv_solid (inv_of_mem h (by rfl)) ..
theorem inv_setOwner {s : State} (h : Inv s) (c : Acc) (v : DWord) : Inv (setOwner s c v) := solid_performBytes inv_solid h ..
theorem inv_failAdmission {s : State} (h : Inv s) (id : Nat) (a : Admission) : Inv (failAdmission s id a) :=
  inv_setQerr (inv_of_mem h (by rfl)) ..
theorem inv_freeOwner {s : State} (h : Inv s) (a : Admission) (i : Nat) : Inv (freeOwner s a i) := by
  unfold freeOwner
  split
  · exact inv_setOwner h ..
  · exact h
theorem some_queueAdmitted {s : State} (h : Inv s) (id : Nat) (a : Admission) (i : Nat) (mine : Bool) :
    InvSome (queueAdmitted s id a i mine) := by
  unfold queueAdmitted
  split
  · exact some_ite (some_ite rfl (inv_of_mem h (by rfl))) (inv_failAdmission (inv_ite (inv_freeOwner h ..) h) ..)
  · exact inv_failAdmission (inv_ite (inv_freeOwner h ..) h) ..
theorem inv_submitFetch {s : State} (h : Inv s) (c : Cmd) : Inv (submitFetch s c) := inv_of_mem h (by rfl)
theorem next_execAdapterAdmission {s : State} (h : Inv s) (id : Nat) : InvNext (execAdapterAdmission id s) := by
  unfold execAdapterAdmission
  split
  · rfl
  · next a _ =>
    refine next_ite rfl ?_
    extract_lets set queued
    have hset : ∀ s st, Inv s → Inv (set s st) := fun _ _ hs => inv_of_mem hs (by rfl)
    have hqueued : ∀ i mine, InvNext (queued i mine) := fun i mine => by
      unfold queued
      split
      · next e => exact inv_of_some (some_queueAdmitted h ..) e
      · rfl
    clear_value set queued
    split
    · split
      · exact inv_failAdmission h ..
      · exact hset _ _ h
      · exact hqueued ..
      · exact hset _ _ h
      · split
        · exact next_ite (hset _ _ (inv_submitFetch (inv_setOwner h ..) ..)) (hset _ _ (inv_setOwner h ..))
        · exact inv_failAdmission h ..
    · split
      · exact next_ite (hset _ _ (inv_submitFetch h ..)) rfl
      · exact inv_failAdmission (inv_freeOwner h ..) ..
    · rfl
    · refine next_ite (inv_failAdmission (inv_freeOwner h ..) ..) ?_
      split
      · split
        · next e => exact inv_of_some (some_queueAdmitted (inv_setOwner h ..) ..) e
        · exact next_ite rfl (inv_setOwner h ..)
      · exact inv_failAdmission h ..
    · split
      · exact inv_failAdmission h ..
      · exact next_ite rfl (hqueued ..)
    · rfl
theorem next_execAdmissionRetry {s : State} (h : Inv s) (id : Nat) : InvNext (execAdmissionRetry id s) := by
  unfold execAdmissionRetry
  dsimp only
  split
  · rfl
  · exact next_ite rfl (inv_of_mem h (by rfl))

/-! Live migration (Machine/Migrate). -/
theorem next_execMigrationCommand {s : State} (h : Inv s) (die src dst psize func report : Nat) :
    InvNext (execMigrationCommand die src dst psize func report s) := by
  unfold execMigrationCommand
  refine next_ite rfl ?_
  split
  · exact inv_of_mem h (by rfl)
  · exact solid_performBytes inv_solid h ..
theorem inv_copyLine {s : State} (h : Inv s) (key : Nat) (f : Forward) : Inv (copyLine s key f) := by
  unfold copyLine
  refine solid_evalMonitors inv_solid ?_ ..
  refine inv_mk (inv_mk ?_)
  refine foldl_keeps Inv _ (fun _ _ hs => ?_) _ _ (inv_evictL2 (inv_evictL2 (solid_ownLines inv_solid h ..) ..) ..)
  dsimp only
  split <;> exact inv_mk (solid_putBytes inv_solid hs ..)
theorem next_execMigrationLineCopy {s : State} (h : Inv s) (die entry : Nat) : InvNext (execMigrationLineCopy die entry s) := by
  unfold execMigrationLineCopy
  dsimp only
  split
  · rfl
  · exact next_ite rfl (next_ite (inv_of_mem h (by rfl)) (inv_spend (inv_copyLine h ..) ..))
theorem next_execMigrationDone {s : State} (h : Inv s) (die entry : Nat) : InvNext (execMigrationDone die entry s) := by
  unfold execMigrationDone
  dsimp only
  split
  · rfl
  · exact next_ite rfl (solid_emitA inv_solid (solid_performBytes inv_solid (inv_of_mem h (by rfl)) ..) ..)
theorem next_execForwardingEntryRetire {s : State} (h : Inv s) (die entry : Nat) : InvNext (execForwardingEntryRetire die entry s) := by
  unfold execForwardingEntryRetire
  split
  · exact next_ite (inv_of_mem h (by rfl)) rfl
  · rfl

/-! Requests to the pod and the host (Machine/Requests). -/
theorem inv_answer {s : State} (h : Inv s) (status : Nat) (data : List Byte) (ep : Bool) : Inv (answer s status data ep) :=
  inv_of_mem h (by rfl)
theorem next_execPodRequestReceive {s : State} (h : Inv s) (req : PodReq) : InvNext (execPodRequestReceive req s) := by
  unfold execPodRequestReceive
  split
  · exact inv_of_mem h (by rfl)
  · refine next_ite rfl ?_
    split
    · exact inv_of_mem h (by rfl)
    · exact inv_answer (solid_performBytes inv_solid h ..) ..
    · dsimp only
      split <;> exact inv_answer (inv_applyAtomic h ..) ..
theorem next_execPodResponse {s : State} (h : Inv s) (n k : Nat) (res : PodResult) : InvNext (execPodResponse n k res s) := by
  unfold execPodResponse
  split
  · rfl
  · split
    · rfl
    · exact next_ite (inv_of_mem h (by rfl)) rfl
theorem next_execPodResponseTimeout {s : State} (h : Inv s) (n k : Nat) : InvNext (execPodResponseTimeout n k s) := by
  unfold execPodResponseTimeout
  split
  · rfl
  · split
    · exact next_ite (inv_of_mem h (by rfl)) rfl
    · rfl
theorem next_execHostAtomicop {s : State} (h : Inv s) (pa : Nat) (kind : HostAtomic) (size : Nat) (operand compare : DWord) :
    InvNext (execHostAtomicop pa kind size operand compare s) := by
  unfold execHostAtomicop
  refine next_ite h ?_
  refine next_ite (inv_of_mem h (by rfl)) ?_
  split
  · exact inv_of_mem h (by rfl)
  · refine next_ite (inv_of_mem h (by rfl)) ?_
    refine next_ite rfl ?_
    dsimp only
    split <;> exact inv_answer (inv_applyAtomic h ..) ..

/-! Keys, interfaces and the resets of functions (Machine/Security). -/
theorem inv_keyState {s : State} (h : Inv s) (op : Option KeyOp) : Inv (keyState s op) := inv_of_mem h (by rfl)
theorem next_execKeyAssign {s : State} (h : Inv s) (index func : Nat) : InvNext (execKeyAssign index func s) := by
  unfold execKeyAssign
  dsimp only
  split
  · exact next_ite (inv_of_mem h (by rfl)) (inv_of_mem h (by rfl))
  · exact next_ite (inv_of_mem h (by rfl)) (next_ite (inv_of_mem h (by rfl)) (inv_of_mem h (by rfl)))
theorem next_execKeyRetire {s : State} (h : Inv s) (index : Nat) : InvNext (execKeyRetire index s) := by
  unfold execKeyRetire
  split
  · exact next_ite (inv_keyState (inv_modFunc (inv_zeroKey h ..) ..) ..) (inv_of_mem h (by rfl))
  · exact inv_of_mem h (by rfl)
  · exact inv_of_mem h (by rfl)
  · exact next_ite (inv_of_mem h (by rfl)) (next_ite (inv_of_mem h (by rfl)) (inv_of_mem h (by rfl)))
theorem inv_dropQueues {s : State} (h : Inv s) (func : Nat) : Inv (dropQueues s func) :=
  inv_modFunc (foldl_keeps Inv _ (fun _ _ hs => inv_unmapSlot hs ..) _ _ h) ..
theorem inv_resetFunc {s : State} (h : Inv s) (func : Nat) : Inv (resetFunc s func) := by
  unfold resetFunc
  extract_lets _ s1 s2
  have hs1 : Inv s1 := inv_ite (inv_tdiError h ..) (inv_teardownFunc h ..)
  have hs2 : Inv s2 := inv_releaseStalls (inv_dropQueues hs1 ..) ..
  split
  · exact inv_of_mem hs2 (by rfl)
  · exact inv_ite (inv_of_mem hs2 (by rfl)) (inv_modFunc (inv_zeroKey (inv_of_mem hs2 (by rfl)) ..) ..)
theorem next_execFunctionLevelReset {s : State} (h : Inv s) (func : Nat) : InvNext (execFunctionLevelReset func s) :=
  next_ite rfl <|
    next_ite (foldl_keeps Inv _ (fun _ _ hs => inv_resetFunc hs ..) _ _ h) <|
    inv_resetFunc h ..
theorem next_execKeyLoad {s : State} (h : Inv s) (func : Nat) (path : KeyPath) (key : BitVec 256) :
    InvNext (execKeyLoad func path key s) := by
  unfold execKeyLoad
  split
  · exact next_ite (inv_of_mem h (by rfl)) (inv_of_mem h (by rfl))
  · exact next_ite (inv_of_mem h (by rfl)) rfl

/-! Writes of registers (Machine/Registers). -/
theorem inv_ring {s : State} (h : Inv s) (func : Nat) (inbound : Bool) (value : DWord) : Inv (ring s func inbound value) :=
  inv_ite (inv_of_mem h (by rfl)) (inv_of_mem h (by rfl))
theorem next_tblWrite {s : State} (h : Inv s) (base : Option Nat) (ok : Bool) (o : Nat) (bs : List Byte) :
    InvNext (tblWrite s base ok o bs) := by
  unfold tblWrite
  refine next_ite h ?_
  split
  · exact inv_of_mem h (by rfl)
  · exact next_ite (inv_of_mem h (by rfl)) (next_ite (solid_performBytes inv_solid h ..) (inv_of_mem h (by rfl)))
theorem next_execTblgoPeer {s : State} (h : Inv s) : InvNext (execTblgoPeer s) := next_ite rfl (next_tblWrite h ..)
theorem next_execTblgoWindow {s : State} (h : Inv s) : InvNext (execTblgoWindow s) := next_ite rfl (next_tblWrite h ..)
theorem next_execTblgoRouting {s : State} (h : Inv s) : InvNext (execTblgoRouting s) := next_ite rfl (next_tblWrite h ..)
theorem next_tblGo {s : State} (h : Inv s) : InvNext (tblGo s) := by
  unfold tblGo
  split
  · exact next_execTblgoPeer h ..
  · exact next_execTblgoWindow h ..
  · exact next_execTblgoRouting h ..
  · exact inv_of_mem h (by rfl)
theorem inv_writeSlcore {s : State} (h : Inv s) (die i : Nat) (value : DWord) : Inv (writeSlcore s die i value) :=
  inv_ite (inv_of_mem h (by rfl)) (inv_ite (inv_of_mem h (by rfl)) (inv_endShrink (inv_of_mem h (by rfl)) ..))
theorem inv_writeSlmem {s : State} (h : Inv s) (i : Nat) (value : DWord) : Inv (writeSlmem s i value) :=
  inv_ite (inv_of_mem h (by rfl)) <|
    inv_ite (inv_capChange (inv_takeGroups (inv_of_mem h (by rfl)) ..) ..) <|
    inv_endShrink (inv_of_mem h (by rfl)) ..
theorem inv_writeSlfab {s : State} (h : Inv s) (i : Nat) (value : DWord) : Inv (writeSlfab s i value) :=
  inv_ite (inv_of_mem h (by rfl)) (inv_of_mem h (by rfl))
theorem inv_writeFlink {s : State} (h : Inv s) (half : Nat) (value : DWord) : Inv (writeFlink s half value) := by
  unfold writeFlink
  dsimp only
  split <;> exact inv_of_mem h (by rfl)
theorem next_writeKeyctl {s : State} (h : Inv s) (v : DWord) : InvNext (writeKeyctl s v) :=
  next_ite (inv_of_mem h (by rfl)) (next_ite (next_execKeyAssign h ..) (next_ite (next_execKeyRetire h ..) h))
theorem next_execTbepochWrite {s : State} (h : Inv s) (value : DWord) : InvNext (execTbepochWrite value s) :=
  next_ite (inv_of_mem h (by rfl)) (inv_of_mem h (by rfl))
theorem next_writeExpert {s : State} (h : Inv s) (x : Nat) (v : DWord) : InvNext (writeExpert s x v) :=
  next_ite (inv_ite (inv_writeSlcore h ..) h) <|
    next_ite (inv_ite (inv_writeSlmem h ..) h) <|
    next_ite (inv_ite (inv_writeSlfab h ..) h) <|
    next_ite (inv_ite (inv_of_mem h (by rfl)) h) <|
    next_ite (next_ite (next_execSliceReset h ..) h) <|
    next_ite (inv_ite (inv_of_mem h (by rfl)) h) <|
    next_ite (next_ite (next_writeKeyctl h ..) h) <|
    next_ite (inv_ite (inv_of_mem h (by rfl)) h) <|
    next_ite (inv_ite (inv_writeFlink h ..) h) <|
    next_ite (inv_ite (inv_of_mem h (by rfl)) h) <|
    next_ite (next_ite (next_execTbepochWrite h ..) h) <|
    next_ite (inv_ite (inv_of_mem h (by rfl)) h) <|
    next_ite (inv_ite (inv_of_mem h (by rfl)) h) <|
    next_ite (inv_ite (inv_of_mem h (by rfl)) h) <|
    next_ite (next_ite (next_tblGo h ..) h) <|
    next_ite (next_ite (next_execSramcfgWrite h ..) h) <|
    h
theorem next_execTrbufWrite {s : State} (h : Inv s) (func : Nat) (value : DWord) (firmware : Bool) :
    InvNext (execTrbufWrite func value firmware s) :=
  next_ite (inv_of_mem h (by rfl)) (next_ite (inv_of_mem h (by rfl)) (inv_fixActive (inv_of_mem h (by rfl)) ..))
theorem next_execTrrpWrite {s : State} (h : Inv s) (func : Nat) (value : DWord) : InvNext (execTrrpWrite func value s) :=
  next_ite (inv_of_mem h (by rfl)) (inv_of_mem h (by rfl))
theorem next_writeTrace {s : State} (h : Inv s) (func o : Nat) (v : DWord) : InvNext (writeTrace s func o v) := by
  unfold writeTrace
  dsimp only
  split
  · exact next_execTrcfgWrite h ..
  · exact next_execTrbufWrite h ..
  · exact next_execTrrpWrite h ..
  · exact inv_of_mem h (by rfl)
  · exact inv_of_mem h (by rfl)
  · exact inv_of_mem h (by rfl)
  · exact h
theorem inv_writeConfig {s : State} (h : Inv s) (link func o : Nat) (v : DWord) : Inv (writeConfig s link func o v) :=
  inv_ite (inv_of_mem h (by rfl)) <|
    inv_ite (inv_of_mem h (by rfl)) <|
    inv_ite (inv_of_mem h (by rfl)) <|
    inv_ite (solid_sendReqs inv_solid (inv_of_mem h (by rfl)) ..) <|
    h
theorem next_execRegisterWrite {s : State} (h : Inv s) (link func off size : Nat) (value : DWord) (stream : Option Nat) :
    InvNext (execRegisterWrite link func off size value stream s) := by
  unfold execRegisterWrite
  extract_lets mail o s1 v
  have hs1 : Inv s1 := inv_of_mem h (by rfl)
  refine next_ite (inv_writeConfig h ..) (next_ite (inv_of_mem h (by rfl)) (next_ite h (next_ite (next_ite ?_ h) (next_ite ?_ h))))
  · exact inv_ite (inv_ring hs1 ..) (inv_ite (inv_ring hs1 ..) hs1)
  · refine next_ite ?_ (next_ite ?_ (next_ite (inv_of_mem h (by rfl)) (next_ite ?_ h)))
    · exact next_execQueueNotify h ..
    · exact next_writeTrace h ..
    · exact next_writeExpert h ..

/-! Bring-up, clocks and firmware (Machine/Service). -/
theorem inv_fenceDie {s : State} (h : Inv s) (die : Nat) : Inv (fenceDie s die) :=
  inv_ite h <|
    foldl_keeps Inv _ (fun _ _ hs => inv_ite (inv_of_mem hs (by rfl)) <|
      inv_ite (inv_of_mem hs (by rfl)) (inv_endShrink (inv_of_mem hs (by rfl)) ..)) _ _ (inv_of_mem h (by rfl))
theorem some_makeSlice {o : Option State} (h : InvSome o) (p : Nat × Ranges × DWord) : InvSome (makeSlice o p) := by
  unfold makeSlice
  split
  · rfl
  · exact some_ite (inv_modSlice h ..) rfl
theorem some_applyManifest {s : State} (h : Inv s) (m : Manifest) : InvSome (applyManifest s m) := by
  unfold applyManifest
  split
  · rfl
  · next s1 e =>
    have h1 : Inv s1 := inv_of_some (foldl_keeps InvSome makeSlice (fun _ p ho => some_makeSlice ho p) m.slices (some s) h) e
    refine some_ite ?_ rfl
    have h2 := foldl_keeps Inv (fun s (p : Nat × Nat × Nat) => s.modFunc p.1 fun f => { f with slice := p.2.1 })
      (fun _ _ hs => inv_modFunc hs ..) m.funcs s1 h1
    exact inv_capChange (inv_mk h2) ..
/-- What the HBM channels hold stays when the module starts again. -/
theorem inv_started {s : State} (h : Inv s) (puf : Bool) : Inv (started s puf) := Sparse.wf_filter _ (Sparse.wf_foldl_set _ h)
theorem inv_failPart {s : State} (h : Inv s) (p : BringupFail) : Inv (failPart s p) := by
  unfold failPart
  split
  · exact inv_ite (inv_fenceDie h ..) h
  · exact inv_ite (inv_of_mem h (by rfl)) h
  · exact inv_ite (inv_of_mem h (by rfl)) h
theorem next_execPowerOnSequence {s : State} (h : Inv s) (failed : List BringupFail) (boot : Boot) (manifest : Option Manifest) :
    InvNext (execPowerOnSequence failed boot manifest s) := by
  unfold execPowerOnSequence
  extract_lets s1
  have hs1 : Inv s1 := foldl_keeps Inv _ (fun _ _ hs => inv_failPart hs ..) _ _ (inv_started h ..)
  split
  · exact inv_of_mem hs1 (by rfl)
  · refine next_ite ?_ (inv_of_mem hs1 (by rfl))
    split
    · next s e =>
        have hs : Inv s := inv_of_some (some_applyManifest (inv_of_mem hs1 (by rfl)) ..) e
        exact inv_of_mem hs (by rfl)
    · exact inv_of_mem hs1 (by rfl)
theorem inv_setClock {s : State} (h : Inv s) (die step : Nat) : Inv (setClock s die step) := inv_ite h (inv_of_mem h (by rfl))
theorem next_execGovernorEvaluate {s : State} (h : Inv s) (lower raise : List Nat) : InvNext (execGovernorEvaluate lower raise s) :=
  next_ite rfl <|
    foldl_keeps Inv _ (fun _ _ hs => inv_setClock hs ..) _ _ (foldl_keeps Inv _ (fun _ _ hs => inv_setClock hs ..) _ _ (inv_of_mem h (by rfl)))
theorem inv_applyHeld {s : State} (h : Inv s) : Inv (applyHeld s) := by
  unfold applyHeld
  refine foldl_keeps Inv _ (fun _ _ hs => ?_) _ _ (inv_of_mem h (by rfl))
  split
  · exact inv_takeHeld hs ..
  · exact solid_settleEntry inv_solid hs ..
theorem next_execFirmwareUpdate {s : State} (h : Inv s) (die svn : Nat) (verified : Bool) :
    InvNext (execFirmwareUpdate die svn verified s) := by
  unfold execFirmwareUpdate
  split
  · exact inv_applyHeld (inv_of_mem h (by rfl)) ..
  · exact next_ite rfl (next_ite h (inv_of_mem h (by rfl)))

/-! Traps, their returns and errors of the state (Machine/Trap). -/
theorem next_execSwrite {s : State} (h : Inv s) (i : BitVec 8) (a : SReg) : InvNext (execSwrite i a s) :=
  next_issue h fun _ _ _ hx => inv_ite (inv_retire (solid_closeRegion inv_solid hx ..) ..) (inv_retire
      (solid_closeRegion inv_solid hx ..) ..)
theorem next_execTret {s : State} (h : Inv s) : InvNext (execTret s) :=
  next_issue h fun _ _ _ hx => inv_ite (inv_trapAt hx ..) (inv_ite (inv_setCrew (solid_closeRegion inv_solid hx ..) ..) (inv_trapAt
      (solid_closeRegion inv_solid hx ..) ..))
theorem inv_haltRecord {s : State} (h : Inv s) (crew : Nat) (why : HaltWhy) : Inv (haltRecord s crew why) := by
  unfold haltRecord
  split
  · exact inv_ite h (solid_emitCrewA inv_solid h ..)
  · exact h
theorem next_execTrapEntry {s : State} (h : Inv s) (crew : Nat) : InvNext (execTrapEntry crew s) := by
  unfold execTrapEntry
  split
  · rfl
  · split
    · split
      · exact solid_enterTrap inv_solid h ..
      · exact next_ite (inv_haltRecord (solid_enterTrap inv_solid h ..) ..) rfl
      · rfl
    · rfl
theorem next_execUncorrectableStateError {s : State} (h : Inv s) (crew : Nat) (cause : BitVec 8) :
    InvNext (execUncorrectableStateError crew cause s) := by
  unfold execUncorrectableStateError
  split
  · split
    · exact next_ite (solid_endEntry inv_solid h ..) rfl
    · rfl
  · rfl

/-! What follows every move by itself (Machine/Fetch). -/
theorem inv_sampled {s' : State} (h : Inv s') (key : Nat) (c : Crew) (op : BitVec 8) : Inv (sampled s' key c op) := by
  unfold sampled
  split
  · exact inv_ite (inv_emitIssue h ..) h
  · exact h
theorem inv_settleStalls {s : State} (h : Inv s) : Inv (settleStalls s) := by
  unfold settleStalls
  refine foldl_keeps Inv _ (fun _ _ hs => ?_) _ _ h
  split
  · exact hs
  · exact inv_ite (inv_ite hs (inv_of_mem hs (by rfl))) (inv_ite (solid_stallOver inv_solid hs ..) hs)
theorem inv_settleStats {s : State} (h : Inv s) : Inv (settleStats s) :=
  foldl_keeps Inv _ (fun _ _ hs => inv_ite hs (inv_of_mem hs (by rfl))) _ _ <|
    foldl_keeps Inv _ (fun _ _ hs => inv_ite (inv_of_mem hs (by rfl)) hs) _ _ h
theorem inv_settleTeams {s : State} (h : Inv s) : Inv (settleTeams s) :=
  foldl_keeps Inv _ (fun _ _ hs => solid_checkDeadlock inv_solid hs ..) _ _ h
theorem inv_settle {s : State} (h : Inv s) (old : State) : Inv (settle old s) :=
  inv_syncSpill (inv_settleStats (inv_settleStalls (inv_settleActive (solid_enterStores inv_solid (solid_settleEntries inv_solid
    (inv_settleCmds (inv_settleTeams (inv_settleHalves h)))))))) ..
theorem inv_ageReady {s : State} (h : Inv s) (cycles : Nat) (m : Option Move) (old : State) : Inv (ageReady cycles m old s) :=
  inv_of_mem h (by rfl)

/-- Every arm of `exec` keeps the canonical form. -/
theorem next_exec {s : State} (h : Inv s) (i : Instr) : InvNext (exec i s) := by
  cases i with
  | nop => exact next_issue h fun _ _ _ hx => inv_of_mem hx (by rfl)
  | br => exact next_issue h fun _ _ _ hx => inv_branchTo hx ..
  | brz | brnz => exact next_issue h fun _ _ _ hx => inv_ite (inv_branchTo hx ..) (inv_of_mem hx (by rfl))
  | call | ret | jr => exact next_issue h fun _ _ _ hx => inv_branchTo hx ..
  | blkz => exact next_issue h fun _ _ _ hx => inv_ite (inv_branchTo hx ..) (inv_of_mem hx (by rfl))
  | mode | moder => exact next_issue h fun _ _ _ hx => inv_of_mem hx (by rfl)
  | wait | waitr => exact next_issue h fun _ _ _ hx => inv_waitBody hx ..
  | endCrew => exact next_execEndCrew h ..
  | sread => exact next_issue h fun _ _ _ hx => inv_retire (inv_ite (inv_of_mem hx (by rfl)) hx) ..
  | sli | slis | sadd | saddi | ssub | smul | sdivs | sdivn | sand | sor | sxor | sshl | sshr | ssra | sslt | scnt | sclz =>
    exact next_scalarOp h ..
  | vadd | vsub | vmul | vfma | vmin | vmax => exact next_laneOp h ..
  | vand | vor | vxor => exact next_unitOp h ..
  | vshl | vshr => exact next_laneOp h ..
  | vceq => exact next_execVceq h ..
  | vclt => exact next_execVclt h ..
  | vcle => exact next_execVcle h ..
  | vmov | vbcs => exact next_unitOp h ..
  | vext => exact next_issue h fun _ _ _ hx => inv_ite (inv_trapAt hx ..) (inv_of_mem hx (by rfl))
  | vlid => exact next_execVlid h ..
  | vcvt => exact next_execVcvt h ..
  | vrcp | vrsq | vexp2 | vlog2 => exact next_laneOp h ..
  | vred => exact next_issue h fun _ _ _ hx => inv_of_mem hx (by rfl)
  | vcmpr | vexpd | vslup | vsldn => exact next_unitOp h ..
  | vperm => exact next_issue h fun _ _ _ hx => inv_of_mem hx (by rfl)
  | vpk2 | vpk4 => exact next_laneOp h ..
  | vupk => exact next_execVupk h ..
  | ld => exact next_execLd h ..
  | st => exact next_execSt h ..
  | ldt => exact next_execLdt h ..
  | stt => exact next_execStt h ..
  | shape => exact next_execShape h ..
  | fence => exact next_execFence h ..
  | pref => exact next_execPref h ..
  | flush => exact next_execFlush h ..
  | cpy4 | cpy8 | cpy16 => exact next_copyLanes h ..
  | cpyt => exact next_execCpyt h ..
  | binw => exact next_execBinw h ..
  | bulk => exact next_execBulk h ..
  | semset => exact next_execSemset h ..
  | semacq => exact next_execSemacq h ..
  | semtry => exact next_issue h fun _ _ _ hx => inv_ite (inv_ite hx (inv_of_mem hx (by rfl))) (inv_of_mem hx (by rfl))
  | semrd => exact next_issue h fun _ _ _ hx => inv_of_mem hx (by rfl)
  | gang => exact next_execGang h ..
  | mmag => exact next_execMmag h ..
  | mmas => exact next_execMmas h ..
  | tilez => exact next_issue h fun _ _ _ hx => inv_issueTile hx ..
  | tld => exact next_execTld h ..
  | tdrn => exact next_execTdrn h ..
  | tdrm => exact next_execTdrm h ..
  | tdrp => exact next_execTdrp h ..
  | aadd | amin | amax | aand | aor | axor | axch | acas => exact next_atomicOp h ..
  | waitc => exact next_execWaitc h ..
  | bari => exact next_execBari h ..
  | bar | bars | bara | bard => exact next_arrive h ..
  | launch => exact next_execLaunch h ..
  | tspawn => exact next_execTspawn h ..
  | tdep => exact next_execTdep h ..
  | regionClose | regionOpen => exact next_issue h fun _ _ _ hx => inv_retire (solid_closeRegion inv_solid hx ..) ..
  | mark => exact next_issue h fun _ _ _ hx => inv_retire (inv_emitS hx ..) ..
  | trctlGate | trctlMask => exact next_issue h fun _ _ _ hx => inv_ite (inv_trapAt hx ..) (inv_of_mem hx (by rfl))
  | trctlDrain => exact next_issue h fun _ _ _ hx => inv_ite (inv_trapAt hx ..) (inv_ite hx (inv_of_mem hx (by rfl)))
  | trctlAnchor => exact next_issue h fun _ _ _ hx => inv_ite (inv_trapAt hx ..) (inv_retire (inv_emitS hx ..) ..)
  | trap => exact next_issue h fun _ _ _ hx => solid_raise inv_solid hx ..
  | swrite => exact next_execSwrite h ..
  | tret => exact next_execTret h ..
  | issueStarvationPromote => exact next_execIssueStarvationPromote h ..
  | instructionFetchFault => exact next_execInstructionFetchFault h ..
  | loadDataReturn => exact next_execLoadDataReturn h ..
  | storePerformed => exact next_execStorePerformed h ..
  | invalidationReceive => exact next_ite (inv_of_mem h (by rfl)) rfl
  | invalidationApplyTimeout => exact next_ite rfl (inv_of_mem h (by rfl))
  | atomicStep => exact next_execAtomicStep h ..
  | atomicResultReturn => exact next_execAtomicResultReturn h ..
  | shapeComplete => exact next_execShapeComplete h ..
  | tdepStep => exact next_execTdepStep h ..
  | flushComplete => exact next_execFlushComplete h ..
  | copyComplete => exact next_execCopyComplete h ..
  | binClaim => exact next_execBinClaim h ..
  | binwComplete => exact next_execBinwComplete h ..
  | mirrorDelivery => exact next_execMirrorDelivery h ..
  | bulkStart => exact next_execBulkStart h ..
  | bulkCopyDone => exact next_execBulkCopyDone h ..
  | bulkDecryptDone => exact next_execBulkDecryptDone h ..
  | collectiveMatch => exact next_execCollectiveMatch h ..
  | collectiveDone => exact next_execCollectiveDone h ..
  | scanDone => exact next_execScanDone h ..
  | tileStepComplete => exact next_execTileStepComplete h ..
  | drainComplete => exact next_execDrainComplete h ..
  | drainAddReceive => exact next_execDrainAddReceive h ..
  | drainAddAck => exact next_execDrainAddAck h ..
  | monitorWake => exact next_execMonitorWake h ..
  | waitcPoll => exact next_execWaitcPoll h ..
  | monitorThresholdHalt => exact next_execMonitorThresholdHalt h ..
  | relaunchPoll => exact next_ite rfl (next_ite (inv_of_mem h (by rfl)) h)
  | wideBarrierArrival => exact next_execWideBarrierArrival h ..
  | wideBarrierCompletion => exact next_execWideBarrierCompletion h ..
  | regionReleaseComplete => exact next_execRegionReleaseComplete h ..
  | dispatchEntry => exact next_execDispatchEntry h ..
  | placeTeam => exact next_execPlaceTeam h ..
  | placeMirrorGroup => exact next_execPlaceMirrorGroup h ..
  | compactorMove => exact next_execCompactorMove h ..
  | heatSweep => exact next_execHeatSweep h ..
  | pageRequestReply => exact next_execPageRequestReply h ..
  | prgResponse => exact next_execPrgResponse h ..
  | pageRequestTimeout => exact next_execPageRequestTimeout h ..
  | prgIndexReuseTimeout => exact next_ite (solid_sendReqs inv_solid (inv_of_mem h (by rfl)) ..) rfl
  | atsTranslationCompletion => exact next_execAtsTranslationCompletion h ..
  | atsTranslationTimeout => exact next_execAtsTranslationTimeout h ..
  | atsInvalidateRequest => exact next_execAtsInvalidateRequest h ..
  | unmapInvalidation => exact next_ite rfl (inv_startInval h ..)
  | invalidationComplete => exact next_execInvalidationComplete h ..
  | haltRequest => exact next_execHaltRequest h ..
  | haltComplete => exact next_execHaltComplete h ..
  | resume => exact next_execResume h ..
  | quantumExpiry => exact next_execQuantumExpiry h ..
  | contextTeardown => exact next_ite (inv_teardownCtx h ..) rfl
  | trapEntry => exact next_execTrapEntry h ..
  | uncorrectableStateError => exact next_execUncorrectableStateError h ..
  | scrubSector => exact next_execScrubSector h ..
  | activityBudgetPeriod => exact next_ite rfl (inv_of_mem h (by rfl))
  | carveWriteback => exact next_execCarveWriteback h ..
  | carveComplete => exact next_execCarveComplete h ..
  | sramcfgWrite => exact next_execSramcfgWrite h ..
  | traceReservationRefill => exact next_execTraceReservationRefill h ..
  | traceAccept => exact next_execTraceAccept h ..
  | epoch => exact next_ite (inv_crossEpoch h ..) rfl
  | trcfgWrite => exact next_execTrcfgWrite h ..
  | trbufWrite => exact next_execTrbufWrite h ..
  | trrpWrite => exact next_execTrrpWrite h ..
  | ppsEdge => exact inv_measure (inv_of_mem h (by rfl)) ..
  | ptmExchange => exact inv_measure h ..
  | ptmFailureTimeout => exact inv_setTimeState h ..
  | timeForwardStep => exact next_ite (inv_of_mem h (by rfl)) rfl
  | tbepochWrite => exact next_execTbepochWrite h ..
  | sliceCreate => exact next_ite rfl (next_ite (inv_of_mem h (by rfl)) (inv_of_mem h (by rfl)))
  | sliceGrow => exact next_ite rfl (next_ite (inv_of_mem h (by rfl)) (inv_capChange (inv_takeGroups (inv_of_mem h (by rfl)) ..) ..))
  | sliceShrink => exact next_ite rfl (next_ite (inv_endShrink (inv_of_mem h (by rfl)) ..) (inv_of_mem h (by rfl)))
  | sliceMerge => exact next_execSliceMerge h ..
  | sliceSplit => exact next_ite rfl (next_ite (inv_endShrink (inv_of_mem h (by rfl)) ..) (inv_of_mem h (by rfl)))
  | sliceReleaseProgress => exact next_execSliceReleaseProgress h ..
  | sliceReset => exact next_execSliceReset h ..
  | queueNotify => exact next_execQueueNotify h ..
  | queueMap => exact next_execQueueMap h ..
  | queueSlotFetch => exact next_execQueueSlotFetch h ..
  | npQueueReclaim => exact next_execNpQueueReclaim h ..
  | adapterAdmission => exact next_execAdapterAdmission h ..
  | admissionRetry => exact next_execAdmissionRetry h ..
  | migrationCommand => exact next_execMigrationCommand h ..
  | migrationLineCopy => exact next_execMigrationLineCopy h ..
  | migrationDone => exact next_execMigrationDone h ..
  | forwardingEntryRetire => exact next_execForwardingEntryRetire h ..
  | podRequestReceive => exact next_execPodRequestReceive h ..
  | podResponseTimeout => exact next_execPodResponseTimeout h ..
  | podResponse => exact next_execPodResponse h ..
  | hostAtomicop => exact next_execHostAtomicop h ..
  | hostMemoryWrite => exact next_ite h (next_ite (next_ite (solid_performBytes inv_solid h ..) rfl) (inv_of_mem h (by rfl)))
  | hostMemoryRead => exact next_ite (next_ite (inv_of_mem h (by rfl)) rfl) (inv_of_mem h (by rfl))
  | mailboxDoorbell => exact next_ite rfl (inv_ring (inv_of_mem h (by rfl)) ..)
  | registerWrite => exact next_execRegisterWrite h ..
  | tblgoPeer => exact next_execTblgoPeer h
  | tblgoWindow => exact next_execTblgoWindow h
  | tblgoRouting => exact next_execTblgoRouting h
  | keyAssign => exact next_execKeyAssign h ..
  | keyRetire => exact next_execKeyRetire h ..
  | functionLevelReset => exact next_execFunctionLevelReset h ..
  | ideKmKeyProgram => exact next_ite (inv_of_mem h (by rfl)) rfl
  | ideIntegrityFailure => exact foldl_keeps Inv _ (fun _ _ hs => inv_tdiError hs ..) _ _ (inv_of_mem h (by rfl))
  | lockInterfaceRequest => exact next_ite rfl (next_ite (inv_of_mem h (by rfl)) (inv_tdiError h ..))
  | stopInterfaceRequest => exact next_ite rfl (inv_modFunc (inv_clearTdi h ..) ..)
  | deviceInterfaceReport => exact next_ite rfl (next_ite (inv_of_mem h (by rfl)) (inv_tdiError h ..))
  | getVersion | getCapabilities => exact inv_of_mem h (by rfl)
  | negotiateAlgorithms => exact next_ite (inv_of_mem h (by rfl)) (inv_of_mem h (by rfl))
  | getDigests | getCertificate | challenge => exact inv_ite (inv_of_mem h (by rfl)) (inv_of_mem h (by rfl))
  | getMeasurements | keyExchange | finish | endSession => exact next_ite (inv_of_mem h (by rfl)) (inv_of_mem h (by rfl))
  | keyLoad => exact next_execKeyLoad h ..
  | powerOnSequence => exact next_execPowerOnSequence h ..
  | governorEvaluate => exact next_execGovernorEvaluate h ..
  | governorFastStep => exact next_ite rfl (inv_setClock (inv_of_mem h (by rfl)) ..)
  | firmwareUpdate => exact next_execFirmwareUpdate h ..
  | d2dLaneRetire | ualinkLaneRetire | hbmChannelRetire => exact next_ite rfl (inv_of_mem h (by rfl))
  | dieFence => exact next_ite rfl (inv_fenceDie h ..)
  | illegalInstructionWord => exact next_issue h fun _ _ _ hx => hx
  | ppsLossTimeout => exact next_ite (inv_of_mem h (by rfl)) rfl
  | priReset => exact solid_sendReqs inv_solid (inv_of_mem h (by rfl)) ..
  | startInterfaceRequest => exact next_ite rfl (next_ite (inv_of_mem h (by rfl)) (inv_tdiError h ..))
  | ualinkStationDown | ualinkStationUp => exact next_ite rfl (inv_of_mem h (by rfl))

theorem next_crewMove {s : State} (h : Inv s) (key : Nat) : InvNext (crewMove s key) := by
  unfold crewMove
  extract_lets s1
  have hs1 : Inv s1 := inv_of_mem h (by rfl)
  split
  · rfl
  · split
    · rfl
    · split
      · next e => exact inv_orStall hs1 (inv_sampled (inv_of_next (next_exec hs1 _) e) ..) ..
      · exact next_exec hs1 _
theorem next_runCrew {s : State} (h : Inv s) (key : Nat) : InvNext (runCrew s key) := by
  unfold runCrew
  split
  · rfl
  · exact next_ite (next_crewMove (inv_of_mem h (by rfl)) ..) h
/-- A move is made by `exec`, and what follows every move by itself keeps the form too. -/
theorem next_runMove {s : State} (h : Inv s) (m : Move) : InvNext (runMove s m) := by
  have hm : InvNext (match m with | .crew k => runCrew s k | .event i => if isEvent i then exec i s else disabled) := by
    cases m with
    | crew k => exact next_runCrew h k
    | event i => exact next_ite (next_exec h i) rfl
  unfold runMove
  split
  · next e => exact inv_settle (inv_of_next hm e) ..
  · exact hm
theorem inv_firstMove {s s' : State} {m : Move} (h : Inv s) {l : List Move} (e : firstMove s l = some (m, s')) : Inv s' := by
  induction l with
  | nil => cases e
  | cons a l ih =>
    unfold firstMove at e
    split at e
    · next r =>
      split at e
      · exact ih e
      · cases e
        exact inv_of_next (next_runMove h _) r
    · exact ih e
theorem inv_tick {s : State} (h : Inv s) : Inv (tick s) := inv_of_mem h (by rfl)
theorem next_step {s : State} (h : Inv s) : InvNext (step s) := by
  unfold step
  extract_lets n s1 r
  have hs1 : Inv s1 := inv_tick h
  split
  · split
    · next e => exact inv_ageReady (inv_of_next (next_runMove (inv_of_mem hs1 (by rfl)) _) e) ..
    · exact next_runMove (inv_of_mem hs1 (by rfl)) _
  · refine inv_ageReady ?_ ..
    cases e : r with
    | none => exact hs1
    | some p => exact inv_firstMove hs1 e

end Machine

/-- Settles O3: `exec` keeps the canonical form whatever the instruction or event, and so do the passing of time and what follows a move. -/
theorem stepKeepsMemoryCanonical : Obligations.StepKeepsMemoryCanonical := fun _ _ h => Machine.inv_of_next (Machine.next_step h)

/-- Settles O2: reset holds no cell, and a byte that no cell gives is zero. -/
theorem resetMemoryCanonical : Obligations.ResetMemoryCanonical := by
  refine ⟨rfl, fun key a => ?_⟩
  unfold Machine.readByte
  dsimp only
  split
  · rfl
  · rfl

/-- Settles O6: the decoder is evaluated at each word. -/
theorem wordsDecode : Obligations.WordsDecode := ⟨rfl, rfl, rfl, rfl, rfl, rfl, rfl, rfl, rfl, rfl, rfl, rfl, rfl⟩

end Sys2Proof
end

section
/-! PROOF. The encoding (R58 to R63): decoding and encoding undo each other, and what is reserved is rejected by name. -/
namespace Sys2Proof

namespace Laws.RoundTrip

/-- The round trip holds of every instruction and step: one lemma for each of them stands in Laws/PerInstr.lean. -/
theorem statement_all : ∀ i, Statement i
  | .nop => nop | .br i => br i | .brz d i => brz d i | .brnz d i => brnz d i | .call i => call i | .ret => ret | .jr a => jr a
  | .blkz d n => blkz d n | .mode q i => mode q i | .moder d a => moder d a | .wait l s c t => wait l s c t | .waitr a k => waitr a k
  | .endCrew => endCrew | .sread d i => sread d i | .sli d i => sli d i | .slis d i => slis d i | .sadd d a b => sadd d a b
  | .saddi d a i => saddi d a i | .ssub d a b => ssub d a b | .smul d a b => smul d a b | .sdivs d a b => sdivs d a b
  | .sdivn d a b => sdivn d a b | .sand d a b => sand d a b | .sor d a b => sor d a b | .sxor d a b => sxor d a b
  | .sshl d a b => sshl d a b | .sshr d a b => sshr d a b | .ssra d a b => ssra d a b | .sslt d a b => sslt d a b | .scnt d a => scnt d a
  | .sclz d a => sclz d a | .vadd d a b => vadd d a b | .vsub d a b => vsub d a b | .vmul d a b => vmul d a b | .vfma d a b => vfma d a b
  | .vmin d a b => vmin d a b | .vmax d a b => vmax d a b | .vand d a b => vand d a b | .vor d a b => vor d a b
  | .vxor d a b => vxor d a b | .vshl d a b => vshl d a b | .vshr d a b => vshr d a b | .vceq d a b => vceq d a b
  | .vclt d a b => vclt d a b | .vcle d a b => vcle d a b | .vmov d a => vmov d a | .vbcs d a => vbcs d a | .vext d a b => vext d a b
  | .vlid d => vlid d | .vcvt d a => vcvt d a | .vrcp d a => vrcp d a | .vrsq d a => vrsq d a | .vexp2 d a => vexp2 d a
  | .vlog2 d a => vlog2 d a | .vred d a => vred d a | .vcmpr d a b => vcmpr d a b | .vexpd d a b => vexpd d a b
  | .vslup d a b => vslup d a b | .vsldn d a b => vsldn d a b | .vperm d a b => vperm d a b | .vpk2 d a b => vpk2 d a b
  | .vpk4 d a b => vpk4 d a b | .vupk d a e => vupk d a e | .ld d a b => ld d a b | .st d a b => st d a b | .ldt d s b => ldt d s b
  | .stt d s b => stt d s b | .shape d a => shape d a | .fence s o => fence s o | .pref l a b => pref l a b | .flush a b => flush a b
  | .cpy4 d a b => cpy4 d a b | .cpy8 d a b => cpy8 d a b | .cpy16 d a b => cpy16 d a b | .cpyt d s b => cpyt d s b
  | .binw d a b => binw d a b | .bulk d a => bulk d a | .semset d a => semset d a | .semacq d a => semacq d a | .semtry d a => semtry d a
  | .semrd d a => semrd d a | .gang a => gang a | .mmag d a b => mmag d a b | .mmas d a b => mmas d a b | .tilez d => tilez d
  | .tld d a => tld d a | .tdrn d a => tdrn d a | .tdrm d a b => tdrm d a b | .tdrp d a => tdrp d a | .aadd d a b => aadd d a b
  | .amin d a b => amin d a b | .amax d a b => amax d a b | .aand d a b => aand d a b | .aor d a b => aor d a b
  | .axor d a b => axor d a b | .axch d a b => axch d a b | .acas d a b => acas d a b | .waitc c a b => waitc c a b
  | .bari d a => bari d a | .bar d => bar d | .bars d => bars d | .bara d => bara d | .bard d => bard d | .launch d a => launch d a
  | .tspawn d a => tspawn d a | .tdep a b => tdep a b | .regionClose => regionClose | .regionOpen => regionOpen | .mark d a => mark d a
  | .trctlGate a => trctlGate a | .trctlMask a => trctlMask a | .trctlDrain a => trctlDrain a | .trctlAnchor a => trctlAnchor a
  | .trap i => trap i | .swrite i a => swrite i a | .tret => tret | .issueStarvationPromote a => issueStarvationPromote a
  | .instructionFetchFault a b c => instructionFetchFault a b c | .loadDataReturn a => loadDataReturn a
  | .storePerformed a b => storePerformed a b | .invalidationReceive a b => invalidationReceive a b
  | .invalidationApplyTimeout a => invalidationApplyTimeout a | .atomicStep a b => atomicStep a b
  | .atomicResultReturn a => atomicResultReturn a | .shapeComplete a => shapeComplete a | .tdepStep a => tdepStep a
  | .flushComplete a => flushComplete a | .copyComplete a => copyComplete a | .binClaim a => binClaim a
  | .binwComplete a => binwComplete a | .mirrorDelivery a b c => mirrorDelivery a b c | .bulkStart a b c => bulkStart a b c
  | .bulkCopyDone a => bulkCopyDone a | .bulkDecryptDone a => bulkDecryptDone a | .collectiveMatch a b c d => collectiveMatch a b c d
  | .collectiveDone a b c d => collectiveDone a b c d | .scanDone a => scanDone a | .tileStepComplete a => tileStepComplete a
  | .drainComplete a => drainComplete a | .drainAddReceive a => drainAddReceive a | .drainAddAck a => drainAddAck a
  | .monitorWake a => monitorWake a | .waitcPoll a => waitcPoll a | .monitorThresholdHalt a => monitorThresholdHalt a
  | .relaunchPoll a => relaunchPoll a | .wideBarrierArrival a b => wideBarrierArrival a b
  | .wideBarrierCompletion a b => wideBarrierCompletion a b | .regionReleaseComplete a => regionReleaseComplete a
  | .dispatchEntry a => dispatchEntry a | .placeTeam a => placeTeam a | .placeMirrorGroup a => placeMirrorGroup a
  | .compactorMove a b => compactorMove a b | .heatSweep a => heatSweep a | .pageRequestReply a b c => pageRequestReply a b c
  | .prgResponse a b c => prgResponse a b c | .pageRequestTimeout a b => pageRequestTimeout a b
  | .prgIndexReuseTimeout a b => prgIndexReuseTimeout a b | .atsTranslationCompletion a b c => atsTranslationCompletion a b c
  | .atsTranslationTimeout a b => atsTranslationTimeout a b | .atsInvalidateRequest a b c d => atsInvalidateRequest a b c d
  | .unmapInvalidation a b c => unmapInvalidation a b c | .invalidationComplete a => invalidationComplete a
  | .haltRequest a => haltRequest a | .haltComplete a => haltComplete a | .resume a => resume a | .quantumExpiry a => quantumExpiry a
  | .contextTeardown a => contextTeardown a | .trapEntry a => trapEntry a | .uncorrectableStateError a b => uncorrectableStateError a b
  | .scrubSector a => scrubSector a | .activityBudgetPeriod a => activityBudgetPeriod a | .carveWriteback a b => carveWriteback a b
  | .carveComplete a => carveComplete a | .sramcfgWrite a b => sramcfgWrite a b | .traceReservationRefill a => traceReservationRefill a
  | .traceAccept a b => traceAccept a b | .epoch a => epoch a | .trcfgWrite a b => trcfgWrite a b | .trbufWrite a b c => trbufWrite a b c
  | .trrpWrite a b => trrpWrite a b | .ppsEdge a => ppsEdge a | .ptmExchange a => ptmExchange a | .ptmFailureTimeout => ptmFailureTimeout
  | .timeForwardStep a => timeForwardStep a | .tbepochWrite a => tbepochWrite a | .sliceCreate a b c => sliceCreate a b c
  | .sliceGrow a b c => sliceGrow a b c | .sliceShrink a b c => sliceShrink a b c | .sliceMerge a b => sliceMerge a b
  | .sliceSplit a b c d e => sliceSplit a b c d e | .sliceReleaseProgress a b => sliceReleaseProgress a b | .sliceReset a => sliceReset a
  | .queueNotify a b c => queueNotify a b c | .queueMap a b c => queueMap a b c | .queueSlotFetch a b => queueSlotFetch a b
  | .npQueueReclaim a b => npQueueReclaim a b | .adapterAdmission a => adapterAdmission a | .admissionRetry a => admissionRetry a
  | .migrationCommand a b c d e f => migrationCommand a b c d e f | .migrationLineCopy a b => migrationLineCopy a b
  | .migrationDone a b => migrationDone a b | .forwardingEntryRetire a b => forwardingEntryRetire a b
  | .podRequestReceive a => podRequestReceive a | .podResponseTimeout a b => podResponseTimeout a b
  | .podResponse a b c => podResponse a b c | .hostAtomicop a b c d e => hostAtomicop a b c d e
  | .hostMemoryWrite a b => hostMemoryWrite a b | .hostMemoryRead a b => hostMemoryRead a b
  | .mailboxDoorbell a b c => mailboxDoorbell a b c | .registerWrite a b c d e f => registerWrite a b c d e f | .tblgoPeer => tblgoPeer
  | .tblgoWindow => tblgoWindow | .tblgoRouting => tblgoRouting | .keyAssign a b => keyAssign a b | .keyRetire a => keyRetire a
  | .functionLevelReset a => functionLevelReset a | .ideKmKeyProgram a b => ideKmKeyProgram a b
  | .ideIntegrityFailure a b => ideIntegrityFailure a b | .lockInterfaceRequest a b => lockInterfaceRequest a b
  | .stopInterfaceRequest a => stopInterfaceRequest a | .deviceInterfaceReport a => deviceInterfaceReport a | .getVersion => getVersion
  | .getCapabilities => getCapabilities | .negotiateAlgorithms a b c => negotiateAlgorithms a b c | .getDigests => getDigests
  | .getCertificate a => getCertificate a | .challenge a b => challenge a b | .getMeasurements a b c => getMeasurements a b c
  | .keyExchange a b => keyExchange a b | .finish => finish | .endSession => endSession | .keyLoad a b c => keyLoad a b c
  | .powerOnSequence a b c => powerOnSequence a b c | .governorEvaluate a b => governorEvaluate a b
  | .governorFastStep a => governorFastStep a | .firmwareUpdate a b c => firmwareUpdate a b c | .d2dLaneRetire a b => d2dLaneRetire a b
  | .ualinkLaneRetire a => ualinkLaneRetire a | .hbmChannelRetire a => hbmChannelRetire a | .dieFence a => dieFence a
  | .illegalInstructionWord a => illegalInstructionWord a | .ppsLossTimeout => ppsLossTimeout | .priReset a => priReset a
  | .startInterfaceRequest a => startInterfaceRequest a | .ualinkStationDown a => ualinkStationDown a
  | .ualinkStationUp a => ualinkStationUp a
end Laws.RoundTrip

/-- Settles O4: the round trip of each constructor. -/
theorem decodeOfEncode : Obligations.DecodeOfEncode := fun i w hwf he => Laws.RoundTrip.statement_all i hwf w he

/-! A word is put together from its fields, in each format of R58. -/
theorem append_extracts (w : Word) (k m n : Nat) : w.extractLsb' (k + n) m ++ w.extractLsb' k n = w.extractLsb' k (m + n) := by
  rw [BitVec.extractLsb'_append_extractLsb'_eq_extractLsb' (by omega)]
theorem w3_fields (w : Word) : w3 (opcodeOf w) (fieldD w) (fieldA w) (fieldB w) = w := by
  unfold w3 opcodeOf fieldD fieldA fieldB
  rw [append_extracts w 16 8 8, append_extracts w 8 16 8, append_extracts w 0 24 8]
  exact BitVec.extractLsb'_eq_self
theorem wi_fields (w : Word) : wi (opcodeOf w) (fieldD w) (imm16 w) = w := by
  unfold wi opcodeOf fieldD imm16
  rw [append_extracts w 16 8 8, append_extracts w 0 16 16]
  exact BitVec.extractLsb'_eq_self
theorem wj_fields (w : Word) : wj (opcodeOf w) (imm24 w) = w := by
  unfold wj opcodeOf imm24
  rw [append_extracts w 0 8 24]
  exact BitVec.extractLsb'_eq_self
theorem ww_fields (w : Word) : ww (opcodeOf w) (loadsOf w) (storesOf w) (copiesOf w) (tilesOf w) = w := by
  unfold ww opcodeOf loadsOf storesOf copiesOf tilesOf
  rw [append_extracts w 18 8 6, append_extracts w 12 14 6, append_extracts w 6 20 6, append_extracts w 0 26 6]
  exact BitVec.extractLsb'_eq_self

/-- What a field decodes to is encoded as that field, and keeps the field's limits. -/
def Undoes {α : Type} (p : BitVec 8 → Except Reject α) (e : α → BitVec 8) (ok : α → Prop) : Prop :=
  ∀ x y, p x = .ok y → e y = x ∧ ok y
/-- A field that is checked first: what passes is cut to its width. -/
theorem undoes_ite {n : Nat} {c : BitVec 8 → Prop} [DecidablePred c] {r : Reject} {ok : BitVec n → Prop}
    (h : ∀ x, c x → (x.setWidth n).setWidth 8 = x ∧ ok (x.setWidth n)) :
    Undoes (fun x => if c x then .ok (x.setWidth n) else .error r) (fun y => y.setWidth 8) ok := by
  intro x y e
  dsimp only at e
  split at e
  · next hc => cases e; exact h x hc
  · cases e
theorem undoes_zero : Undoes pZero (fun _ => 0) fun _ => True := by
  intro x y e
  unfold pZero at e
  split at e
  · next h => exact ⟨h.symm, trivial⟩
  · cases e
theorem undoes_any : Undoes pAny id fun _ => True := fun _ _ e => by cases e; exact ⟨rfl, trivial⟩
theorem undoes_vreg : Undoes pVreg id fun _ => True := fun _ _ e => by cases e; exact ⟨rfl, trivial⟩
theorem undoes_pair : Undoes pPair id fun y => VReg.even y = true := by
  intro x y e
  unfold pPair at e
  split at e
  · cases e
  · next h => cases e; exact ⟨rfl, (Bool.not_eq_true' _).mpr (Bool.eq_false_iff.mpr h)⟩
theorem undoes_sreg : Undoes pSreg s8 fun _ => True := undoes_ite (by decide)
theorem undoes_handle : Undoes pHandle s8 fun _ => True := undoes_ite (by decide)
theorem undoes_shape : Undoes pShape (·.setWidth 8) fun _ => True := undoes_ite (by decide)
theorem undoes_level : Undoes pLevel (·.setWidth 8) fun _ => True := undoes_ite (by decide)
theorem undoes_quarter : Undoes pQuarter (·.setWidth 8) fun _ => True := undoes_ite (by decide)
theorem undoes_elem : Undoes pElem (·.setWidth 8) fun _ => True := undoes_ite (by decide)
theorem undoes_region : Undoes pRegion (·.setWidth 8) fun _ => True := undoes_ite (by decide)
theorem undoes_cond : Undoes pCond (·.setWidth 8) fun y => y.toNat ≤ 5 := undoes_ite (by decide)
theorem undoes_scope : Undoes pScope (·.setWidth 8) fun y => y.toNat ≤ 6 := undoes_ite (by decide)
theorem undoes_order : Undoes pOrder (·.setWidth 8) fun y => 1 ≤ y.toNat := undoes_ite (by decide)

/-- The instruction is what the word encodes. -/
def EncodedBy (w : Word) (i : Instr) : Prop := encode i = some w ∧ i.WellFormed
/-- A word of format F3 or FR8 that decodes is the word of what it decodes to, when the constructor's word is made of its fields. -/
theorem encodedBy_f3 {α β γ : Type} {pd : BitVec 8 → Except Reject α} {pa : BitVec 8 → Except Reject β} {pb : BitVec 8 → Except Reject γ}
    {c : α → β → γ → Instr} {w : Word} {i : Instr} (h : f3 pd pa pb c w = .ok i)
    {ed : α → BitVec 8} {ea : β → BitVec 8} {eb : γ → BitVec 8} {kd : α → Prop} {ka : β → Prop} {kb : γ → Prop}
    (hd : Undoes pd ed kd) (ha : Undoes pa ea ka) (hb : Undoes pb eb kb) {o : Nat} (ho : (opcodeOf w).toNat = o)
    (hc : ∀ d a b, kd d → ka a → kb b → encode (c d a b) = some (w3 (.ofNat 8 o) (ed d) (ea a) (eb b)) ∧ (c d a b).WellFormed := by
      exact fun _ _ _ _ _ _ => ⟨rfl, rfl⟩) : EncodedBy w i := by
  unfold f3 at h
  split at h
  · next d a b e1 e2 e3 =>
    cases h
    obtain ⟨f1, g1⟩ := hd _ _ e1
    obtain ⟨f2, g2⟩ := ha _ _ e2
    obtain ⟨f3, g3⟩ := hb _ _ e3
    have e := hc d a b g1 g2 g3
    rw [f1, f2, f3, ← ho, BitVec.ofNat_toNat, BitVec.setWidth_eq, w3_fields] at e
    exact e
  · cases h
  · cases h
  · cases h
theorem encodedBy_fi {α : Type} {pd : BitVec 8 → Except Reject α} {c : α → BitVec 16 → Instr} {w : Word} {i : Instr} (h : fi pd c w = .ok i)
    {ed : α → BitVec 8} {kd : α → Prop} (hd : Undoes pd ed kd) {o : Nat} (ho : (opcodeOf w).toNat = o)
    (hc : ∀ d x, encode (c d x) = some (wi (.ofNat 8 o) (ed d) x) ∧ (c d x).WellFormed := by exact fun _ _ => ⟨rfl, rfl⟩) :
    EncodedBy w i := by
  unfold fi at h
  split at h
  · next d e1 =>
    cases h
    have e := hc d (imm16 w)
    rw [(hd _ _ e1).1, ← ho, BitVec.ofNat_toNat, BitVec.setWidth_eq, wi_fields] at e
    exact e
  · cases h
theorem encodedBy_fj {c : BitVec 24 → Instr} {w : Word} {i : Instr} (h : fj c w = .ok i) {o : Nat} (ho : (opcodeOf w).toNat = o)
    (hc : ∀ x, encode (c x) = some (wj (.ofNat 8 o) x) ∧ (c x).WellFormed := by exact fun _ => ⟨rfl, rfl⟩) : EncodedBy w i := by
  cases h
  have e := hc (imm24 w)
  rw [← ho, BitVec.ofNat_toNat, BitVec.setWidth_eq, wj_fields] at e
  exact e
theorem encodedBy_fw {c : BitVec 6 → BitVec 6 → BitVec 6 → BitVec 6 → Instr} {w : Word} {i : Instr} (h : fw c w = .ok i) {o : Nat}
    (ho : (opcodeOf w).toNat = o)
    (hc : ∀ l s k t, encode (c l s k t) = some (ww (.ofNat 8 o) l s k t) ∧ (c l s k t).WellFormed := by exact fun _ _ _ _ => ⟨rfl, rfl⟩) :
    EncodedBy w i := by
  cases h
  have e := hc (loadsOf w) (storesOf w) (copiesOf w) (tilesOf w)
  rw [← ho, BitVec.ofNat_toNat, BitVec.setWidth_eq, ww_fields] at e
  exact e

theorem encode_region (k : BitVec 1) : encode (if k = 0 then .regionClose else .regionOpen) = some (w3 0xA3 (k.setWidth 8) 0 0) ∧
    (if k = 0 then Instr.regionClose else .regionOpen).WellFormed := by
  revert k; decide
theorem encode_trctl (k : BitVec 2) (a : SReg) :
    encode (trctlOf k a) = some (w3 0xB1 (k.setWidth 8) (s8 a) 0) ∧ (trctlOf k a).WellFormed := by
  have hk : k = 0 ∨ k = 1 ∨ k = 2 ∨ k = 3 := by revert k; decide
  rcases hk with rfl | rfl | rfl | rfl <;> exact ⟨rfl, rfl⟩

/-- A word that decodes is the word of what it decodes to: the rows of the opcode table (R62) in order, consecutive rows with the same kinds of
fields together. -/
theorem encodedBy_of_decode {w : Word} {i : Instr} (h : decode w = .ok i) : EncodedBy w i := by
  unfold decode at h
  split at h
  next e => exact encodedBy_f3 h undoes_zero undoes_zero undoes_zero e  -- NOP
  next e => exact encodedBy_fj h e  -- BR
  iterate 2 next e => exact encodedBy_fi h undoes_sreg e  -- BRZ to BRNZ
  next e => exact encodedBy_fj h e  -- CALL
  next e => exact encodedBy_f3 h undoes_zero undoes_zero undoes_zero e  -- RET
  next e => exact encodedBy_f3 h undoes_zero undoes_sreg undoes_zero e  -- JR
  next e => exact encodedBy_fi h undoes_sreg e  -- BLKZ
  next e => exact encodedBy_fi h undoes_quarter e  -- MODE
  next e => exact encodedBy_f3 h undoes_sreg undoes_sreg undoes_zero e  -- MODER
  next e => exact encodedBy_fw h e  -- WAIT
  next e => exact encodedBy_f3 h undoes_zero undoes_sreg undoes_quarter e  -- WAITR
  next e => exact encodedBy_f3 h undoes_zero undoes_zero undoes_zero e  -- END
  next e => exact encodedBy_f3 h undoes_sreg undoes_any undoes_zero e  -- SREAD
  iterate 2 next e => exact encodedBy_fi h undoes_sreg e  -- SLI to SLIS
  next e => exact encodedBy_f3 h undoes_sreg undoes_sreg undoes_sreg e  -- SADD
  next e => exact encodedBy_f3 h undoes_sreg undoes_sreg undoes_any e  -- SADDI
  iterate 11 next e => exact encodedBy_f3 h undoes_sreg undoes_sreg undoes_sreg e  -- SSUB to SSLT
  iterate 2 next e => exact encodedBy_f3 h undoes_sreg undoes_sreg undoes_zero e  -- SCNT to SCLZ
  iterate 11 next e => exact encodedBy_f3 h undoes_vreg undoes_vreg undoes_vreg e  -- VADD to VSHR
  iterate 3 next e => exact encodedBy_f3 h undoes_sreg undoes_vreg undoes_vreg e  -- VCEQ to VCLE
  next e => exact encodedBy_f3 h undoes_vreg undoes_vreg undoes_zero e  -- VMOV
  next e => exact encodedBy_f3 h undoes_vreg undoes_sreg undoes_zero e  -- VBCS
  next e => exact encodedBy_f3 h undoes_sreg undoes_vreg undoes_sreg e  -- VEXT
  next e => exact encodedBy_f3 h undoes_vreg undoes_zero undoes_zero e  -- VLID
  iterate 5 next e => exact encodedBy_f3 h undoes_vreg undoes_vreg undoes_zero e  -- VCVT to VLOG2
  next e => exact encodedBy_f3 h undoes_sreg undoes_vreg undoes_zero e  -- VRED
  iterate 4 next e => exact encodedBy_f3 h undoes_vreg undoes_vreg undoes_sreg e  -- VCMPR to VSLDN
  iterate 2 next e => exact encodedBy_f3 h undoes_vreg undoes_vreg undoes_vreg e  -- VPERM to VPK2
  next e => exact encodedBy_f3 h undoes_vreg undoes_pair undoes_pair e fun _ _ _ _ ha hb => ⟨rfl, Bool.and_eq_true_iff.mpr ⟨ha, hb⟩⟩  -- VPK4
  next e => exact encodedBy_f3 h undoes_vreg undoes_vreg undoes_elem e  -- VUPK
  iterate 2 next e => exact encodedBy_f3 h undoes_vreg undoes_sreg undoes_vreg e  -- LD to ST
  iterate 2 next e => exact encodedBy_f3 h undoes_vreg undoes_shape undoes_sreg e  -- LDT to STT
  next e => exact encodedBy_f3 h undoes_shape undoes_sreg undoes_zero e  -- SHAPE
  next e => exact encodedBy_f3 h undoes_scope undoes_order undoes_zero e fun _ _ _ hs ho _ =>  -- FENCE
    ⟨rfl, Bool.and_eq_true_iff.mpr ⟨decide_eq_true hs, decide_eq_true ho⟩⟩
  next e => exact encodedBy_f3 h undoes_level undoes_sreg undoes_vreg e  -- PREF
  next e => exact encodedBy_f3 h undoes_zero undoes_sreg undoes_sreg e  -- FLUSH
  iterate 3 next e =>  -- CPY4 to CPY16
    exact encodedBy_f3 h undoes_handle undoes_pair undoes_pair e fun _ _ _ _ ha hb => ⟨rfl, Bool.and_eq_true_iff.mpr ⟨ha, hb⟩⟩
  next e => exact encodedBy_f3 h undoes_handle undoes_shape undoes_sreg e  -- CPYT
  next e => exact encodedBy_f3 h undoes_vreg undoes_vreg undoes_sreg e  -- BINW
  next e => exact encodedBy_f3 h undoes_sreg undoes_sreg undoes_zero e  -- BULK
  iterate 2 next e => exact encodedBy_f3 h undoes_handle undoes_sreg undoes_zero e  -- SEMSET to SEMACQ
  iterate 2 next e => exact encodedBy_f3 h undoes_sreg undoes_handle undoes_zero e  -- SEMTRY to SEMRD
  next e => exact encodedBy_f3 h undoes_zero undoes_sreg undoes_zero e  -- GANG
  next e => exact encodedBy_f3 h undoes_handle undoes_sreg undoes_vreg e  -- MMAG
  next e => exact encodedBy_f3 h undoes_handle undoes_sreg undoes_sreg e  -- MMAS
  next e => exact encodedBy_f3 h undoes_handle undoes_zero undoes_zero e  -- TILEZ
  iterate 2 next e => exact encodedBy_f3 h undoes_handle undoes_sreg undoes_zero e  -- TLD to TDRN
  next e => exact encodedBy_f3 h undoes_handle undoes_sreg undoes_sreg e  -- TDRM
  next e => exact encodedBy_f3 h undoes_handle undoes_sreg undoes_zero e  -- TDRP
  iterate 7 next e => exact encodedBy_f3 h undoes_vreg undoes_sreg undoes_vreg e  -- AADD to AXCH
  next e => exact encodedBy_f3 h undoes_pair undoes_sreg undoes_vreg e fun _ _ _ hd _ _ => ⟨rfl, hd⟩  -- ACAS
  next e => exact encodedBy_f3 h undoes_cond undoes_sreg undoes_sreg e fun _ _ _ hc _ _ => ⟨rfl, decide_eq_true hc⟩  -- WAITC
  next e => exact encodedBy_f3 h undoes_any undoes_sreg undoes_zero e  -- BARI
  iterate 4 next e => exact encodedBy_f3 h undoes_any undoes_zero undoes_zero e  -- BAR to BARD
  iterate 2 next e => exact encodedBy_f3 h undoes_sreg undoes_sreg undoes_zero e  -- LAUNCH to TSPAWN
  next e => exact encodedBy_f3 h undoes_zero undoes_sreg undoes_sreg e  -- TDEP
  next e => exact encodedBy_f3 h undoes_region undoes_zero undoes_zero e fun _ _ _ _ _ _ => encode_region ..  -- REGION
  next e => exact encodedBy_f3 h undoes_any undoes_sreg undoes_zero e  -- MARK
  next e => exact encodedBy_f3 h undoes_quarter undoes_sreg undoes_zero e fun _ _ _ _ _ _ => encode_trctl ..  -- TRCTL
  next e => exact encodedBy_fj h e  -- TRAP
  next e => exact encodedBy_f3 h undoes_any undoes_sreg undoes_zero e  -- SWRITE
  next e => exact encodedBy_f3 h undoes_zero undoes_zero undoes_zero e  -- TRET
  cases h

/-- Settles O5: the formats of R58 lose no bit of a word, and no field decodes beyond its limits. -/
theorem encodeOfDecode : Obligations.EncodeOfDecode := fun _ _ h => encodedBy_of_decode h

/-- The assigned opcode positions of R61. -/
def assignedOpcodes : List Nat :=
  [1, 2, 3, 4, 5, 6, 7, 8, 9, 10, 11, 12, 13, 14] ++ (List.range 17).map (16 + ·) ++ (List.range 24).map (48 + ·) ++
    (List.range 8).map (80 + ·) ++ (List.range 8).map (96 + ·) ++ (List.range 10).map (112 + ·) ++ (List.range 8).map (128 + ·) ++
    (List.range 14).map (144 + ·) ++ [160, 161, 162, 163, 176, 177, 192, 193, 194]
/-- Every row of the decoder's table stands at an assigned position, so that a word at another falls through all of them. -/
theorem decode_unassigned {w : Word} (h : (opcodeOf w).toNat ∉ assignedOpcodes) : decode w = .error .unassigned := by
  unfold decode
  split
  case h_113 => rfl
  all_goals
    next e =>
      rw [e] at h
      exact absurd (by decide) h

/-- A field decoder rejects with one reason alone. -/
def RejectsWith {α : Type} (p : BitVec 8 → Except Reject α) (r : Reject) : Prop := ∀ x, (∃ y, p x = .ok y) ∨ p x = .error r
/-- A check with one reason. -/
theorem rejectsWith_ite {α : Type} {c : BitVec 8 → Prop} [DecidablePred c] {f : BitVec 8 → α} {r : Reject} :
    RejectsWith (fun x => if c x then .ok (f x) else .error r) r := by
  intro x
  by_cases h : c x
  · exact .inl ⟨f x, if_pos h⟩
  · exact .inr (if_neg h)
theorem rejectsWith_zero : RejectsWith pZero .zeroField := rejectsWith_ite
theorem rejectsWith_sreg : RejectsWith pSreg .scalarField := rejectsWith_ite
theorem rejectsWith_vreg (r : Reject) : RejectsWith pVreg r := fun x => .inl ⟨x, rfl⟩
theorem rejectsWith_pair : RejectsWith pPair .group := by
  intro x
  unfold pPair
  split
  · exact .inr rfl
  · exact .inl ⟨x, rfl⟩
theorem pZero_error {x : BitVec 8} (h : x ≠ 0) : pZero x = .error .zeroField := if_neg h
theorem pSreg_error {x : BitVec 8} (h : 64 ≤ x.toNat) : pSreg x = .error .scalarField := if_neg (Nat.not_lt.mpr h)
theorem pHandle_error {x : BitVec 8} (h : 64 ≤ x.toNat) : pHandle x = .error .handleField := if_neg (Nat.not_lt.mpr h)
theorem pPair_error {x : BitVec 8} (h : x.getLsbD 0 = true) : pPair x = .error .group := if_pos h
theorem pScope_error {x : BitVec 8} (h : 6 < x.toNat) : pScope x = .error .codeField := if_neg fun ⟨_, h'⟩ => Nat.not_le.mpr h h'

section
variable {α β γ : Type} {pd : BitVec 8 → Except Reject α} {pa : BitVec 8 → Except Reject β} {pb : BitVec 8 → Except Reject γ}
  {c : α → β → γ → Instr} {o d a b : BitVec 8} {r : Reject}

/-- The first field is judged first (R59). -/
theorem f3_error_first (h : pd d = .error r) : f3 pd pa pb c (w3 o d a b) = .error r := by
  unfold f3
  rw [fieldD_w3, h]
/-- Where the fields reject with one reason, the order in which they are judged does not show. -/
theorem f3_error (hd : RejectsWith pd r) (ha : RejectsWith pa r) (h : pd d = .error r ∨ pa a = .error r ∨ pb b = .error r) :
    f3 pd pa pb c (w3 o d a b) = .error r := by
  rcases hd d with ⟨x, ed⟩ | ed
  · unfold f3
    rw [fieldD_w3, fieldA_w3, fieldB_w3, ed]
    rcases ha a with ⟨y, ea⟩ | ea
    · have eb : pb b = .error r := by simpa [ed, ea] using h
      rw [ea, eb]
    · rw [ea]
  · exact f3_error_first ed
end

/-- Settles O7: one row of the table for each kind of field. -/
theorem reservedWordsRejected : Obligations.ReservedWordsRejected := by
  refine ⟨fun w => decode_unassigned, fun d a b h => ?_, fun d a b h => ?_, fun d a b h => ?_, fun d a b h => ?_, fun d a h => ?_⟩ <;>
    unfold decode <;> rw [opcodeOf_w3]
  · exact f3_error rejectsWith_zero rejectsWith_zero (h.imp pZero_error (.imp pZero_error pZero_error))
  · exact f3_error rejectsWith_sreg rejectsWith_sreg (h.imp pSreg_error (.imp pSreg_error pSreg_error))
  · exact f3_error (rejectsWith_vreg _) rejectsWith_pair (.inr (h.imp pPair_error pPair_error))
  · exact f3_error_first (pHandle_error h)
  · exact f3_error_first (pScope_error h)

/-- Settles O13: s0 and the other scalar registers, and the fields that name none. -/
theorem zeroRegister : Obligations.ZeroRegister := by
  refine ⟨fun c => c.getS_zero, fun c v => c.setS_zero v, fun c r v hr => ?_, fun c r q v hq => ?_, fun x => pSreg_error⟩
  · rw [Machine.Crew.getS_setS, if_pos rfl, if_neg hr]
  · rw [Machine.Crew.getS_setS, if_neg hq]

end Sys2Proof
end

section
/-! PROOF. Issuing (R63, R107, R410) and the steps of the machine: every instruction answers, when a crew may issue, what a failed check does, and
which instruction a step of a crew runs. -/
namespace Sys2Proof

/-- Settles O10: every instruction with a word issues, and issuing answers a next state. -/
theorem crewInstructionsAnswer : Obligations.CrewInstructionsAnswer := by
  intro i s c t hw hc ht
  obtain ⟨body, e⟩ := Machine.exec_issues i s hw
  rw [e]
  exact Machine.issue_answers _ body hc ht

namespace Machine

/-- A crew that neither speculates nor waits for a trap, in a running team and with no operation outstanding, can issue (R101). -/
theorem blocked_eq_false {s : State} {key : Nat} {c : Crew} {t : Team} (hown : coreOwned s (coreOf key) = true) (hp : c.pending = none)
    (hw : c.wait = .none) (hh : t.halt = .running) (hs : c.spec = none) (ho : s.ops = []) : blocked s key c t = false := by
  simp [blocked, hown, hp, hw, hh, hs, ho]
/-- With nothing on its way in the trace fabric no record waits for space (R411). -/
theorem traceHeld_eq_false {s : State} (h : s.fabric.items = []) (key : Nat) (c : Crew) : traceHeld s key c = false := by
  simp [traceHeld, h]
theorem classCount_eq_zero {s : State} (ho : s.ops = []) (key : Nat) (cls : Cls) : classCount s key cls = 0 := by
  simp [classCount, opsOf, ho]
/-- With no operation outstanding and no region open an instruction waits for its own reason alone. -/
theorem hazard_eq_waits {s : State} {key : Nat} {c : Crew} (ho : s.ops = []) (hr : c.region = none) (n : Need) :
    hazard s key c n = n.waits := by
  unfold hazard requestsFull
  cases n.cls <;> simp [ho, hr, classCount_eq_zero ho]
/-- A crew that was not stalled reports no stall (R410). -/
theorem endStall_unstalled {s : State} {key : Nat} {c : Crew} (h1 : c.stalled = none) (h2 : c.stallSum = 0) : endStall s key c = (s, c) := by
  unfold endStall stallOver
  simp [h1, h2]
/-- Outside speculation no register needs a shadow (R324). -/
theorem shadowRegs_unspeculated (s : State) (key : Nat) (t : Team) (rs : List Nat) {c : Crew} (h : c.spec = none) :
    shadowRegs s key t rs c = some c := by
  cases rs with
  | nil => rfl
  | cons r rs => unfold shadowRegs; rw [h]

end Machine

/-- Settles O11: each check of `mayIssue` passes, and neither a stall nor shadow registers change what the crew finds. -/
theorem readyWhenUnhindered : Obligations.ReadyWhenUnhindered := by
  intro s i c t hc ht hown hstart hwait hpend hspec hheld hstall hsum hreg hhalt hops hitems hcalm hwaits hfail
  unfold Machine.ready Machine.mayIssue
  simp [hc, ht, Machine.blocked_eq_false hown hpend hwait hhalt hspec hops, hstart, Machine.traceHeld_eq_false hitems,
    Machine.hazard_eq_waits hops hreg, hwaits, hfail, hheld, hspec, Machine.endStall_unstalled hstall hsum,
    Machine.shadowRegs_unspeculated, hcalm]

namespace Machine

/-- An instruction that waits for nothing does what the checks of R63 and its body say, after a stall has been reported. -/
theorem issue_of_unhindered {s : State} {need : Crew → Team → Need} {body : State → Crew → Team → State} {c : Crew} {t : Team}
    (hc : s.crew? s.cur = some c) (ht : s.team? c.team = some t) (hb : blocked s s.cur c t = false) (hs : c.started = true)
    (hh : traceHeld s s.cur c = false) (hz : hazard s s.cur c (need c t) = false) :
    issue s need body =
      .next (orStall s s.cur c (issueNow (endStall s s.cur c).1 s.cur (endStall s s.cur c).2 t (need c t) body)) := by
  unfold issue
  simp [hc, ht, hb, hs, hh, hz]
/-- A failed check of R63 is a trap at the instruction, and its body does not act. -/
theorem issueNow_of_firstFail {s : State} {key : Nat} {c : Crew} {t : Team} {n : Need} {k : TrapKind} {d : DWord}
    (h : firstFail t n = some (k, d)) (body : State → Crew → Team → State) :
    issueNow s key c t n body = trapOrStop s key { kind := k, resume := c.pc, fault := c.pc, word := n.word, detail := d } := by
  unfold issueNow trapAt
  rw [h]

/-! The first check that fails, in the order of R63. -/
theorem firstFail_illegal {t : Team} {n : Need} (h : n.ok = false) : firstFail t n = some (.illegal, 0) := by
  simp [firstFail, h]
theorem firstFail_operand {t : Team} {n : Need} (h : n.ok = true) (hr : ∃ r, r ∈ n.reads ++ n.writes ∧ t.nvreg ≤ r) :
    firstFail t n = some (.operand, 0) := by
  have e : ((n.reads ++ n.writes).any fun r => decide (t.nvreg ≤ r)) = true := by
    obtain ⟨r, hm, hle⟩ := hr
    exact List.any_eq_true.mpr ⟨r, hm, decide_eq_true hle⟩
  unfold firstFail
  rw [e]; simp [h]
theorem firstFail_handle {t : Team} {n : Need} (h : n.ok = true) (hr : ∀ r, r ∈ n.reads ++ n.writes → r < t.nvreg) {x : Nat × Bool}
    (hx : n.handles.find? (fun h => !h.2) = some x) : firstFail t n = some (.handle, BitVec.ofNat 64 x.1) := by
  have e : ((n.reads ++ n.writes).any fun r => decide (t.nvreg ≤ r)) = false :=
    List.any_eq_false.mpr fun r hm => by simpa using hr r hm
  unfold firstFail
  rw [e, hx]; simp [h]

end Machine

/-- Settles O12: whichever check fails first, what issues is its trap. -/
theorem failedCheckTraps : Obligations.FailedCheckTraps := by
  intro s i c t hw hc ht hb hs hh hz n trap
  obtain ⟨body, e⟩ := Machine.exec_issues i s hw
  have fails : ∀ k d, Machine.firstFail t n = some (k, d) → trap k d := by
    intro k d hf
    show Machine.exec i s = _
    rw [e, Machine.issue_of_unhindered hc ht hb hs hh hz, Machine.issueNow_of_firstFail hf, Machine.endStall_crew]
  exact ⟨fun h => fails _ _ (Machine.firstFail_illegal h), fun h hr => fails _ _ (Machine.firstFail_operand h hr),
    fun h hr x hx => fails _ _ (Machine.firstFail_handle h hr hx)⟩

namespace Machine

/-- What follows a move is done to the state that it leads to; a move that is none stays as it is. -/
def onNext (f : State → State) (r : Host.Outcome State Fault Refusal) : Host.Outcome State Fault Refusal :=
  match r with
  | .next s => .next (f s)
  | r => r
theorem onNext_onNext (f g : State → State) (r : Host.Outcome State Fault Refusal) : onNext g (onNext f r) = onNext (fun s => g (f s)) r := by
  cases r <;> rfl

/-- A step makes the first move of the schedule once time has passed. -/
theorem step_scheduled {s : State} {m : Move} {rest : List Move} (h : s.schedule = m :: rest) :
    step s = onNext (ageReady (1 + Config.extraCycles s.clock) (some m) (tick s)) (runMove { tick s with schedule := rest } m) := by
  have h' : (tick s).schedule = m :: rest := h
  unfold step onNext
  simp only [h'] <;> rfl
theorem runMove_crew (s : State) (key : Nat) : runMove s (.crew key) = onNext (settle s) (runCrew s key) := rfl
theorem runMove_event (s : State) (i : Instr) :
    runMove s (.event i) = onNext (settle s) (if isEvent i then exec i s else disabled) := rfl
/-- A crew that its slot takes has its turn, and any other does nothing (R100, R101). -/
theorem runCrew_eq {s : State} {key : Nat} {c : Crew} (hc : s.crew? key = some c) :
    runCrew s key = if chosen s key c then crewMove { s with promoted := setDel s.promoted key } key else .next s := by
  unfold runCrew
  rw [hc]
/-- The turn of a crew is `exec` of its next instruction, in the state in which it is the current crew. -/
theorem crewMove_eq {s : State} {key : Nat} {c : Crew} {t : Team} (hc : s.crew? key = some c) (ht : s.team? c.team = some t) {i : Instr}
    (hi : i = nextInstr { s with cur := key } t c.pc) :
    crewMove s key = onNext (fun s' => orStall { s with cur := key } key c (sampled s' key c (opcodeOf (wordOf i))))
      (exec i { s with cur := key }) := by
  have hc' : ({ s with cur := key } : State).crew? key = some c := hc
  have ht' : ({ s with cur := key } : State).team? c.team = some t := ht
  unfold crewMove onNext
  simp only [hc', ht', ← hi] <;> rfl

end Machine

/-- Settles O8: the step of a scheduled crew is its turn, and the turn is `exec` of what is fetched and decoded. -/
theorem stepRunsDecodedInstruction : Obligations.StepRunsDecodedInstruction := by
  refine ⟨fun s k rest c t hsch => ?_, fun s t pc w i hf hd => ?_, fun s t pc w e hf hd => ?_, fun s t pc cause detail hf => ?_⟩
  · intro s1 s2 after hc ht i hi
    rw [Machine.step_scheduled hsch, Machine.runMove_crew, Machine.runCrew_eq hc, Machine.onNext_onNext]
    split
    · have turn := Machine.crewMove_eq (s := { s1 with promoted := Machine.setDel s1.promoted k }) hc ht hi
      rw [turn, Machine.onNext_onNext]
      rfl
    · rfl
  all_goals
    unfold Machine.nextInstr
    rw [hf]
  · simp [hd]
  · simp [hd]

namespace Machine

/-- An outcome is a next state or a fault. An equation of Booleans, as `InvNext` is. -/
def Answered (r : Host.Outcome State Fault Refusal) : Prop := (match r with | .refused _ => false | _ => true) = true
theorem Answered.ne_refused {r : Host.Outcome State Fault Refusal} (h : Answered r) (q : Refusal) : r ≠ .refused q := by
  rintro rfl
  cases h
theorem answered_next (s : State) : Answered (.next s) := rfl
theorem answered_fault (f : Fault) : Answered (.fault f) := rfl
theorem answered_disabled : Answered disabled := answered_fault _
theorem answered_ite {p : Prop} [Decidable p] {a b : Host.Outcome State Fault Refusal} (ha : Answered a) (hb : Answered b) :
    Answered (if p then a else b) := by
  split
  · exact ha
  · exact hb
theorem answered_onNext {r : Host.Outcome State Fault Refusal} (h : Answered r) (f : State → State) : Answered (onNext f r) := by
  cases r with
  | next s => exact answered_next _
  | fault q => exact answered_fault q
  | refused q => cases h
/-- An instruction that issues is not refused, whatever it needs and does. -/
theorem answered_issue (s : State) (need : Crew → Team → Need) (body : State → Crew → Team → State) : Answered (issue s need body) := by
  unfold issue
  split
  · exact answered_fault _
  · split
    · exact answered_fault _
    · exact answered_ite (answered_next _) (answered_ite (answered_next _) (answered_ite (answered_next _) (answered_ite (answered_next _)
        (answered_next _))))

/-! The steps that call another answer: a barrier arrival that retires its crew, the dispatcher's translation and its choice of a core for the
compactor, and the writes that reach a BAR. -/
theorem answered_retireArmed (s : State) (key : Nat) : Answered (retireArmed s key) := by
  unfold retireArmed
  split
  · exact answered_ite (answered_next _) answered_disabled
  · exact answered_disabled
theorem answered_execWideBarrierArrival (ctx crew : Nat) (s : State) : Answered (execWideBarrierArrival ctx crew s) := by
  unfold execWideBarrierArrival
  split
  · exact answered_retireArmed ..
  · dsimp only
    split
    · exact answered_next _
    · exact answered_next _
    · exact answered_next _
    · split
      · exact answered_disabled
      · split
        · exact answered_next _
        · exact answered_retireArmed ..
theorem answered_execInstructionFetchFault (cause : BitVec 8) (addr : Addr) (detail : DWord) (s : State) :
    Answered (execInstructionFetchFault cause addr detail s) := by
  unfold execInstructionFetchFault
  split
  · exact answered_ite (answered_issue ..) answered_disabled
  · exact answered_disabled
theorem answered_translateEntry (s : State) (eid : Nat) (e : Entry) (x : Ctx) : Answered (translateEntry s eid e x) := by
  unfold translateEntry
  refine answered_ite (answered_next _) (answered_ite answered_disabled ?_)
  split
  · exact answered_next _
  · exact answered_ite (answered_next _) (answered_next _)
theorem answered_execDispatchEntry (ctx : Nat) (s : State) : Answered (execDispatchEntry ctx s) := by
  unfold execDispatchEntry
  split
  · refine answered_ite answered_disabled (answered_ite (answered_next _) (answered_ite answered_disabled
      (answered_ite (answered_translateEntry ..) ?_)))
    split
    · exact answered_next _
    · split <;> exact answered_next _
  · exact answered_disabled
theorem answered_chooseCore (s : State) (sl core ctx : Nat) (team : Option Nat) (entry : Nat) :
    Answered (chooseCore s sl core ctx team entry) := answered_ite answered_disabled (answered_next _)
theorem answered_execPlaceTeam (ctx : Nat) (s : State) : Answered (execPlaceTeam ctx s) := by
  unfold execPlaceTeam
  split
  · exact answered_disabled
  · refine answered_ite answered_disabled ?_
    dsimp only
    split
    · exact answered_next _
    · split
      · exact answered_next _
      · split
        · exact answered_chooseCore ..
        · exact answered_disabled
theorem answered_execPlaceMirrorGroup (ctx : Nat) (s : State) : Answered (execPlaceMirrorGroup ctx s) := by
  unfold execPlaceMirrorGroup
  split
  · exact answered_disabled
  · refine answered_ite answered_disabled ?_
    split
    · exact answered_next _
    · split
      · exact answered_next _
      · split
        · split
          · exact answered_chooseCore ..
          · exact answered_disabled
        · exact answered_disabled
theorem answered_execResume (team : Nat) (s : State) : Answered (execResume team s) := by
  unfold execResume
  split
  · exact answered_disabled
  · split
    · exact answered_disabled
    · refine answered_ite answered_disabled ?_
      split
      · exact answered_next _
      · exact answered_ite (answered_chooseCore ..) answered_disabled
theorem answered_tblWrite (s : State) (base : Option Nat) (ok : Bool) (o : Nat) (bs : List Byte) : Answered (tblWrite s base ok o bs) := by
  unfold tblWrite
  refine answered_ite (answered_next _) ?_
  split
  · exact answered_next _
  · exact answered_ite (answered_next _) (answered_ite (answered_next _) (answered_next _))
theorem answered_execTblgoPeer (s : State) : Answered (execTblgoPeer s) := answered_ite answered_disabled (answered_tblWrite ..)
theorem answered_execTblgoWindow (s : State) : Answered (execTblgoWindow s) := answered_ite answered_disabled (answered_tblWrite ..)
theorem answered_execTblgoRouting (s : State) : Answered (execTblgoRouting s) := answered_ite answered_disabled (answered_tblWrite ..)
theorem answered_tblGo (s : State) : Answered (tblGo s) := by
  unfold tblGo
  split
  · exact answered_execTblgoPeer s
  · exact answered_execTblgoWindow s
  · exact answered_execTblgoRouting s
  · exact answered_next _
theorem answered_execKeyAssign (index func : Nat) (s : State) : Answered (execKeyAssign index func s) := by
  unfold execKeyAssign
  dsimp only
  split
  · exact answered_ite (answered_next _) (answered_next _)
  · exact answered_ite (answered_next _) (answered_ite (answered_next _) (answered_next _))
theorem answered_execKeyRetire (index : Nat) (s : State) : Answered (execKeyRetire index s) := by
  unfold execKeyRetire
  split
  · exact answered_ite (answered_next _) (answered_next _)
  · exact answered_next _
  · exact answered_next _
  · exact answered_ite (answered_next _) (answered_ite (answered_next _) (answered_next _))
theorem answered_writeKeyctl (s : State) (v : DWord) : Answered (writeKeyctl s v) :=
  answered_ite (answered_next _) (answered_ite (answered_execKeyAssign ..) (answered_ite (answered_execKeyRetire ..) (answered_next _)))
theorem answered_execTbepochWrite (value : DWord) (s : State) : Answered (execTbepochWrite value s) :=
  answered_ite (answered_next _) (answered_next _)
theorem answered_execSliceReset (i : Nat) (s : State) : Answered (execSliceReset i s) :=
  answered_ite answered_disabled (answered_ite (answered_next _) (answered_next _))
theorem answered_execSramcfgWrite (core : Nat) (value : DWord) (s : State) : Answered (execSramcfgWrite core value s) :=
  answered_ite (answered_next _) (answered_next _)
theorem answered_execTrcfgWrite (func : Nat) (value : DWord) (s : State) : Answered (execTrcfgWrite func value s) :=
  answered_ite (answered_next _) (answered_ite (answered_next _) (answered_next _))
theorem answered_execTrbufWrite (func : Nat) (value : DWord) (firmware : Bool) (s : State) : Answered (execTrbufWrite func value firmware s) :=
  answered_ite (answered_next _) (answered_ite (answered_next _) (answered_next _))
theorem answered_execTrrpWrite (func : Nat) (value : DWord) (s : State) : Answered (execTrrpWrite func value s) :=
  answered_ite (answered_next _) (answered_next _)
theorem answered_execQueueNotify (func queue : Nat) (value : DWord) (s : State) : Answered (execQueueNotify func queue value s) := by
  unfold execQueueNotify
  dsimp only
  split
  · exact answered_next _
  · exact answered_ite (answered_next _) (answered_ite (answered_next _) (answered_ite (answered_next _) (answered_next _)))
theorem answered_writeExpert (s : State) (x : Nat) (v : DWord) : Answered (writeExpert s x v) :=
  answered_ite (answered_next _) <| answered_ite (answered_next _) <| answered_ite (answered_next _) <| answered_ite (answered_next _) <|
    answered_ite (answered_ite (answered_execSliceReset ..) (answered_next _)) <| answered_ite (answered_next _) <|
    answered_ite (answered_ite (answered_writeKeyctl ..) (answered_next _)) <| answered_ite (answered_next _) <|
    answered_ite (answered_next _) <| answered_ite (answered_next _) <|
    answered_ite (answered_ite (answered_execTbepochWrite ..) (answered_next _)) <| answered_ite (answered_next _) <|
    answered_ite (answered_next _) <| answered_ite (answered_next _) <|
    answered_ite (answered_ite (answered_tblGo ..) (answered_next _)) <|
    answered_ite (answered_ite (answered_execSramcfgWrite ..) (answered_next _)) (answered_next _)
theorem answered_writeTrace (s : State) (func o : Nat) (v : DWord) : Answered (writeTrace s func o v) := by
  unfold writeTrace
  dsimp only
  split
  · exact answered_execTrcfgWrite ..
  · exact answered_execTrbufWrite ..
  · exact answered_execTrrpWrite ..
  · exact answered_next _
  · exact answered_next _
  · exact answered_next _
  · exact answered_next _
theorem answered_execRegisterWrite (link func off size : Nat) (value : DWord) (stream : Option Nat) (s : State) :
    Answered (execRegisterWrite link func off size value stream s) :=
  answered_ite (answered_next _) <| answered_ite (answered_next _) <| answered_ite (answered_next _) <|
    answered_ite (answered_ite (answered_next _) (answered_next _)) <|
    answered_ite (answered_ite (answered_execQueueNotify ..) <| answered_ite (answered_writeTrace ..) <| answered_ite (answered_next _) <|
      answered_ite (answered_writeExpert ..) (answered_next _)) (answered_next _)

/-- Every arm of `exec` ends in a next state or in a fault: what issues answers, and of the steps that issue nothing each branch is walked to its
end. -/
theorem answered_exec (i : Instr) (s : State) : Answered (exec i s) := by
  cases i with
  | nop | br | brz | brnz | call | ret | jr | blkz | mode | moder | wait | waitr | endCrew | sread | sli | slis | sadd | saddi | ssub |
    smul | sdivs | sdivn | sand | sor | sxor | sshl | sshr | ssra | sslt | scnt | sclz | vadd | vsub | vmul | vfma | vmin | vmax | vand |
    vor | vxor | vshl | vshr | vceq | vclt | vcle | vmov | vbcs | vext | vlid | vcvt | vrcp | vrsq | vexp2 | vlog2 | vred | vcmpr |
    vexpd | vslup | vsldn | vperm | vpk2 | vpk4 | vupk | ld | st | ldt | stt | shape | fence | pref | flush | cpy4 | cpy8 | cpy16 | cpyt |
    binw | bulk | semset | semacq | semtry | semrd | gang | mmag | mmas | tilez | tld | tdrn | tdrm | tdrp | aadd | amin | amax | aand |
    aor | axor | axch | acas | waitc | bari | bar | bars | bara | bard | launch | tspawn | tdep | regionClose | regionOpen | mark |
    trctlGate | trctlMask | trctlDrain | trctlAnchor | trap | swrite | tret | illegalInstructionWord =>
    exact answered_issue ..
  | instructionFetchFault => exact answered_execInstructionFetchFault ..
  | wideBarrierArrival => exact answered_execWideBarrierArrival ..
  | dispatchEntry => exact answered_execDispatchEntry ..
  | placeTeam => exact answered_execPlaceTeam ..
  | placeMirrorGroup => exact answered_execPlaceMirrorGroup ..
  | resume => exact answered_execResume ..
  | tblgoPeer => exact answered_execTblgoPeer ..
  | tblgoWindow => exact answered_execTblgoWindow ..
  | tblgoRouting => exact answered_execTblgoRouting ..
  | keyAssign => exact answered_execKeyAssign ..
  | keyRetire => exact answered_execKeyRetire ..
  | tbepochWrite => exact answered_execTbepochWrite ..
  | sliceReset => exact answered_execSliceReset ..
  | sramcfgWrite => exact answered_execSramcfgWrite ..
  | trcfgWrite => exact answered_execTrcfgWrite ..
  | trbufWrite => exact answered_execTrbufWrite ..
  | trrpWrite => exact answered_execTrrpWrite ..
  | queueNotify => exact answered_execQueueNotify ..
  | registerWrite => exact answered_execRegisterWrite ..
  | issueStarvationPromote | loadDataReturn | storePerformed | invalidationReceive | invalidationApplyTimeout | atomicStep |
    atomicResultReturn | shapeComplete | tdepStep | flushComplete | copyComplete | binClaim | binwComplete | mirrorDelivery | bulkStart |
    bulkCopyDone | bulkDecryptDone | collectiveMatch | collectiveDone | scanDone | tileStepComplete | drainComplete | drainAddReceive |
    drainAddAck | monitorWake | waitcPoll | monitorThresholdHalt | relaunchPoll | wideBarrierCompletion | regionReleaseComplete |
    compactorMove | heatSweep | pageRequestReply | prgResponse | pageRequestTimeout | prgIndexReuseTimeout | atsTranslationCompletion |
    atsTranslationTimeout | atsInvalidateRequest | unmapInvalidation | invalidationComplete | haltRequest | haltComplete | quantumExpiry |
    contextTeardown | trapEntry | uncorrectableStateError | scrubSector | activityBudgetPeriod | carveWriteback | carveComplete |
    traceReservationRefill | traceAccept | epoch | ppsEdge | ptmExchange | ptmFailureTimeout | timeForwardStep | sliceCreate | sliceGrow |
    sliceShrink | sliceMerge | sliceSplit | sliceReleaseProgress | queueMap | queueSlotFetch | npQueueReclaim | adapterAdmission |
    admissionRetry | migrationCommand | migrationLineCopy | migrationDone | forwardingEntryRetire | podRequestReceive |
    podResponseTimeout | podResponse | hostAtomicop | hostMemoryWrite | hostMemoryRead | mailboxDoorbell | functionLevelReset |
    ideKmKeyProgram | ideIntegrityFailure | lockInterfaceRequest | stopInterfaceRequest | deviceInterfaceReport | getVersion |
    getCapabilities | negotiateAlgorithms | getDigests | getCertificate | challenge | getMeasurements | keyExchange | finish |
    endSession | keyLoad | powerOnSequence | governorEvaluate | governorFastStep | firmwareUpdate | d2dLaneRetire | ualinkLaneRetire |
    hbmChannelRetire | dieFence | ppsLossTimeout | priReset | startInterfaceRequest | ualinkStationDown | ualinkStationUp =>
    dsimp only [exec, execIssueStarvationPromote, execLoadDataReturn, execStorePerformed, execInvalidationReceive, execInvalidationApplyTimeout,
      execAtomicStep, execAtomicResultReturn, execShapeComplete, execTdepStep, execFlushComplete, execCopyComplete, execBinClaim,
      execBinwComplete, execMirrorDelivery, execBulkStart, execBulkCopyDone, execBulkDecryptDone, execCollectiveMatch,
      execCollectiveDone, execScanDone, execTileStepComplete, execDrainComplete, execDrainAddReceive, execDrainAddAck, execMonitorWake,
      execWaitcPoll, execMonitorThresholdHalt, execRelaunchPoll, execWideBarrierCompletion, execRegionReleaseComplete, execCompactorMove,
      execHeatSweep, execPageRequestReply, execPrgResponse, execPageRequestTimeout, execPrgIndexReuseTimeout,
      execAtsTranslationCompletion, execAtsTranslationTimeout, execAtsInvalidateRequest, execUnmapInvalidation, execInvalidationComplete,
      execHaltRequest, execHaltComplete, execQuantumExpiry, execContextTeardown, execTrapEntry, execUncorrectableStateError,
      execScrubSector, execActivityBudgetPeriod, execCarveWriteback, execCarveComplete, execTraceReservationRefill, execTraceAccept,
      execEpoch, execPpsEdge, execPtmExchange, execPtmFailureTimeout, execTimeForwardStep, execSliceCreate, execSliceGrow,
      execSliceShrink, execSliceMerge, execSliceSplit, execSliceReleaseProgress, execQueueMap, execQueueSlotFetch, execNpQueueReclaim,
      execAdapterAdmission, execAdmissionRetry, execMigrationCommand, execMigrationLineCopy, execMigrationDone,
      execForwardingEntryRetire, execPodRequestReceive, execPodResponseTimeout, execPodResponse, execHostAtomicop, execHostMemoryWrite,
      execHostMemoryRead, execMailboxDoorbell, execFunctionLevelReset, execIdeKmKeyProgram, execIdeIntegrityFailure,
      execLockInterfaceRequest, execStopInterfaceRequest, execDeviceInterfaceReport, execGetVersion, execGetCapabilities,
      execNegotiateAlgorithms, execGetDigests, execGetCertificate, execChallenge, execGetMeasurements, execKeyExchange, execFinish,
      execEndSession, execKeyLoad, execPowerOnSequence, execGovernorEvaluate, execGovernorFastStep, execFirmwareUpdate,
      execD2dLaneRetire, execUalinkLaneRetire, execHbmChannelRetire, execDieFence, execPpsLossTimeout, execPriReset,
      execStartInterfaceRequest, execUalinkStationDown, execUalinkStationUp]
    repeat' first | with_reducible exact answered_next _ | with_reducible exact answered_disabled | split

theorem answered_crewMove (s : State) (key : Nat) : Answered (crewMove s key) := by
  unfold crewMove
  dsimp only
  split
  · exact answered_fault _
  · split
    · exact answered_fault _
    · exact answered_onNext (answered_exec _ _) _
theorem answered_runCrew (s : State) (key : Nat) : Answered (runCrew s key) := by
  unfold runCrew
  split
  · exact answered_fault _
  · exact answered_ite (answered_crewMove _ _) (answered_next _)
theorem answered_runMove (s : State) (m : Move) : Answered (runMove s m) := by
  cases m with
  | crew key => exact answered_onNext (answered_runCrew _ _) _
  | event i => exact answered_onNext (answered_ite (answered_exec _ _) answered_disabled) _
theorem answered_step (s : State) : Answered (step s) := by
  cases h : s.schedule with
  | nil =>
    have h' : (tick s).schedule = [] := h
    unfold step
    simp only [h']
    exact answered_next _
  | cons m rest =>
    rw [step_scheduled h]
    exact answered_onNext (answered_runMove _ _) _

end Machine

/-- Settles O9: every arm of `exec` ends in a next state or in a fault, and a step is moves of `exec`. -/
theorem nothingRefused : Obligations.NothingRefused := 
  ⟨fun i s => (Machine.answered_exec i s).ne_refused, fun s => (Machine.answered_step s).ne_refused⟩

end Sys2Proof
end

section
/-! PROOF. The frame of the instructions that use registers only (R41, R125, R141): each stores a crew, or takes a trap of its own. -/
namespace Sys2Proof

namespace Machine

/-- The state in which an instruction acts is the one that the crew finds, but for the report of a stall (R410). -/
theorem ready_state {s s1 : State} {i : Instr} {c : Crew} {t : Team} (h : ready s i = some (s1, c, t)) :
    ∃ c0, s1 = (endStall s s.cur c0).1 := by
  unfold ready mayIssue at h
  split at h
  · cases h
  · next c0 _ =>
    refine ⟨c0, ?_⟩
    split at h
    · cases h
    · dsimp only at h
      split at h
      · cases h
      · split at h
        · cases h
        · split at h
          · cases h
          · cases h; rfl
/-- The report of a stall changes no byte of memory. -/
theorem sameBytes_endStall (s : State) (key : Nat) (c : Crew) : SameBytes s (endStall s key c).1 := by
  obtain ⟨_, _, _, _, _, e⟩ := endStall_touches s key c
  rw [e]
  exact fun _ _ => rfl
theorem sameBytes_setCrew (s : State) (key : Nat) (c : Crew) : SameBytes s (s.setCrew key c) := fun _ _ => rfl
theorem SameBytes.trans {s t u : State} (h : SameBytes s t) (g : SameBytes t u) : SameBytes s u := fun key a => (g key a).trans (h key a)

/-- An instruction stores its crew, in a state that stands in a relation to the old one, or takes a trap, and does nothing else. -/
def StoresCrew (P : Crew → Crew → Prop) (s : State) (c : Crew) (s' : State) : Prop :=
  (∃ c', s' = s.setCrew s.cur c' ∧ P c c') ∨ ∃ info, s' = raise s s.cur info
theorem storesCrew_retire {P : Crew → Crew → Prop} {s : State} {c c' : Crew} (h : P c c'.advance) : StoresCrew P s c (retire s c') :=
  .inl ⟨_, rfl, h⟩
theorem storesCrew_trapAt {P : Crew → Crew → Prop} {s : State} {c : Crew} (hc : s.crew? s.cur = some c) (hs : c.spec = none) (word : Word)
    (kind : TrapKind) (cause : BitVec 8) (addr mask detail : DWord) :
    StoresCrew P s c (trapAt s s.cur c word kind cause addr mask detail) :=
  .inr ⟨_, trapOrStop_raises hc hs _⟩
/-- A record of a trap that finds no reservation leaves the crew stalled, and the state calm. -/
theorem StoresCrew.calm {P : Crew → Crew → Prop} {s s' : State} {c : Crew} (h : StoresCrew P s c s') (hs : Calm s) : Calm s' := by
  rcases h with ⟨c', rfl, -⟩ | ⟨info, rfl⟩
  · exact hs
  · exact solid_raise calm_solid hs ..

/-- An instruction that its crew may issue, outside speculation, stores its crew or takes a trap. -/
def RegistersOnly (i : Instr) (P : Crew → Crew → Prop) : Prop :=
  ∀ s s1 c t s', ready s i = some (s1, c, t) → s1.crew? s1.cur = some c → c.spec = none → exec i s = .next s' → StoresCrew P s1 c s'
theorem registersOnly_of_body {i : Instr} {P : Crew → Crew → Prop} {body : State → Crew → Team → State}
    (hx : ∀ s, exec i s = issue s (needOf s i) body)
    (hb : ∀ s c t, s.crew? s.cur = some c → c.spec = none → StoresCrew P s c (body s c t)) : RegistersOnly i P := by
  intro s s1 c t s' hr hc hs e
  have h := hb s1 c t hc hs
  rw [hx, issue_next hr (h.calm (mayIssue_unstarved hr))] at e
  cases e
  exact h
/-- An instruction that always retires. -/
theorem registersOnly_of_retire {i : Instr} {P : Crew → Crew → Prop} {f : State → Crew → Team → Crew}
    (hx : ∀ s, exec i s = issue s (needOf s i) fun s c t => retire s (f s c t)) (hP : ∀ s c t, P c (f s c t).advance) : RegistersOnly i P :=
  registersOnly_of_body hx fun s c t _ _ => storesCrew_retire (hP s c t)

/-- Of its crew an instruction leaves the vector registers, MODE, the trap record and some of the scalar registers. -/
def ScalarFrame (keeps : SReg → Prop) (c c' : Crew) : Prop :=
  c'.vregs = c.vregs ∧ c'.mode = c.mode ∧ c'.trap = c.trap ∧ ∀ r, keeps r → c'.getS r = c.getS r
theorem scalarFrame_advance (keeps : SReg → Prop) (c : Crew) : ScalarFrame keeps c c.advance := ⟨rfl, rfl, rfl, fun _ _ => rfl⟩
theorem scalarFrame_setS (c : Crew) (d : SReg) (v : DWord) : ScalarFrame (· ≠ d) c (c.setS d v).advance := by
  refine ⟨by simp, by simp, by simp, fun r hr => ?_⟩
  show (c.setS d v).getS r = c.getS r
  rw [Crew.getS_setS, if_neg hr]
/-- An instruction whose whole effect is one scalar result (R125). -/
theorem registersOnly_of_scalarOp {i : Instr} {d : SReg} {v : Crew → DWord}
    (hx : ∀ s, exec i s = issue s (needOf s i) fun s c _ => retire s (c.setS d (v c))) : RegistersOnly i (ScalarFrame (· ≠ d)) :=
  registersOnly_of_retire hx fun _ c _ => scalarFrame_setS c d (v c)
/-- A control transfer goes on at its target or takes a trap (R112); with a link it writes s63 (R114). -/
theorem storesCrew_branchTo {s : State} {c : Crew} (hc : s.crew? s.cur = some c) (hs : c.spec = none) (word : Word) (target : Int)
    (aligned link : Bool) {keeps : SReg → Prop} (hk : link = true → ¬ keeps 63) :
    StoresCrew (ScalarFrame keeps) s c (branchTo s c word target aligned link) := by
  unfold branchTo
  split
  · refine .inl ⟨_, rfl, ?_⟩
    cases link with
    | false => exact ⟨rfl, rfl, rfl, fun _ _ => rfl⟩
    | true =>
      obtain ⟨hv, hm, ht, hg⟩ := scalarFrame_setS c 63 ((c.pc + 4).setWidth 64)
      exact ⟨hv, hm, ht, fun r hr => hg r fun e => hk rfl (e ▸ hr)⟩
  · exact storesCrew_trapAt hc hs ..
theorem registersOnly_of_branch {i : Instr} {word : Word} {target : Crew → Int} {aligned link : Bool} {keeps : SReg → Prop}
    (hx : ∀ s, exec i s = issue s (needOf s i) fun s c _ => branchTo s c word (target c) aligned link) (hk : link = true → ¬ keeps 63) :
    RegistersOnly i (ScalarFrame keeps) :=
  registersOnly_of_body hx fun _ _ _ hc hs => storesCrew_branchTo hc hs _ _ _ _ hk
/-- A branch on a condition goes on with the next word where the condition does not hold (R104, R115). -/
theorem registersOnly_of_condBranch {i : Instr} {word : Word} {p : Crew → Team → Prop} [∀ c t, Decidable (p c t)] {target : Crew → Int}
    (keeps : SReg → Prop)
    (hx : ∀ s, exec i s = issue s (needOf s i) fun s c t => if p c t then branchTo s c word (target c) false false else retire s c) :
    RegistersOnly i (ScalarFrame keeps) :=
  registersOnly_of_body hx fun s c t hc hs => by
    split
    · exact storesCrew_branchTo hc hs _ _ _ _ nofun
    · exact storesCrew_retire (scalarFrame_advance ..)

/-- An instruction that stores its crew changes no byte of memory. -/
theorem RegistersOnly.sameBytes {i : Instr} {P : Crew → Crew → Prop} (h : RegistersOnly i P) {s s1 s' : State} {c : Crew} {t : Team}
    (hr : ready s i = some (s1, c, t)) (hc : s1.crew? s1.cur = some c) (hs : c.spec = none) (e : exec i s = .next s') :
    (SameBytes s s' ∧ ∃ c', s' = s1.setCrew s1.cur c') ∨ ∃ info, s' = raise s1 s1.cur info := by
  obtain ⟨c0, e0⟩ := ready_state hr
  refine (h s s1 c t s' hr hc hs e).imp_left ?_
  rintro ⟨c', rfl, -⟩
  exact ⟨(e0 ▸ sameBytes_endStall s s.cur c0).trans (sameBytes_setCrew _ _ _), c', rfl⟩
/-- Any change of the crew. -/
def AnyCrew (_ _ : Crew) : Prop := True
theorem registersOnly_vext (d : SReg) (a : VReg) (b : SReg) : RegistersOnly (.vext d a b) AnyCrew :=
  registersOnly_of_body (fun _ => rfl) fun s c t hc hs => by
    dsimp only
    split
    · exact storesCrew_trapAt hc hs ..
    · exact storesCrew_retire trivial

end Machine

open Machine in
/-- Settles O45: each of the instructions retires with a new crew, continues at a target, or takes a trap. -/
theorem registerInstructionsFrame : Obligations.RegisterInstructionsFrame := by
  unfold Obligations.RegisterInstructionsFrame
  intro frame bytes
  refine ⟨fun i d x hi => ?_, fun i d a b hi => ?_, fun d a x => registersOnly_of_scalarOp fun _ => rfl, fun x a => ⟨?_, ?_, ?_, ?_, ?_⟩,
    fun i d a b sd sa sb e hi => ?_⟩
  · simp only [List.mem_cons, List.not_mem_nil, or_false] at hi
    rcases hi with rfl | rfl | rfl | rfl | rfl
    · exact registersOnly_of_scalarOp fun _ => rfl
    · exact registersOnly_of_scalarOp fun _ => rfl
    · exact registersOnly_of_condBranch _ fun _ => rfl
    · exact registersOnly_of_condBranch _ fun _ => rfl
    · exact registersOnly_of_condBranch _ fun _ => rfl
  · simp only [List.mem_cons, List.not_mem_nil, or_false] at hi
    rcases hi with rfl | rfl | rfl | rfl | rfl | rfl | rfl | rfl | rfl | rfl | rfl | rfl | rfl | rfl <;>
      exact registersOnly_of_scalarOp fun _ => rfl
  · exact registersOnly_of_retire (fun _ => rfl) fun _ c _ => scalarFrame_advance _ c
  · exact registersOnly_of_branch (fun _ => rfl) nofun
  · exact registersOnly_of_branch (fun _ => rfl) fun _ h => h rfl
  · exact registersOnly_of_branch (fun _ => rfl) nofun
  · exact registersOnly_of_branch (fun _ => rfl) nofun
  · suffices h : RegistersOnly i AnyCrew from fun _ _ _ _ _ hr hc hs => h.sameBytes hr hc hs
    simp only [List.mem_cons, List.not_mem_nil, or_false] at hi
    rcases hi with rfl | rfl | rfl | rfl | rfl | rfl | rfl | rfl | rfl | rfl | rfl | rfl | rfl | rfl | rfl | rfl | rfl | rfl | rfl | rfl | rfl |
      rfl | rfl | rfl | rfl | rfl | rfl | rfl | rfl | rfl | rfl | rfl | rfl
    iterate 16 exact registersOnly_of_retire (fun _ => rfl) fun _ _ _ => trivial
    · exact registersOnly_vext sd a sb
    all_goals exact registersOnly_of_retire (fun _ => rfl) fun _ _ _ => trivial

end Sys2Proof
end

section
/-! PROOF. Numbers (R74 to R88): what an integer type reads back after narrowing, and what a float format reads and rounds again. -/
namespace Sys2Proof

namespace Machine

/-- The highest of w bits says in which half of the range a number lies. -/
theorem testBit_top {w x : Nat} (hw : 0 < w) (hx : x < 2 ^ w) : x.testBit (w - 1) = decide (2 ^ (w - 1) ≤ x) := by
  by_cases h : 2 ^ (w - 1) ≤ x
  · rw [Nat.testBit_of_two_pow_le_and_two_pow_add_one_gt h (by rwa [Nat.sub_add_cancel hw]), decide_eq_true h]
  · rw [Nat.testBit_lt_two_pow (Nat.lt_of_not_le h), decide_eq_false h]

/-! Integer types: an element reads as the one value of the type's range that is congruent to it. -/

theorem tyBits_pos (t : Nat) : 0 < tyBits t := by
  unfold tyBits
  split <;> decide
theorem two_pow_tyBits (t : Nat) : (2 ^ tyBits t : Nat) = 2 * (2 ^ (tyBits t - 1) : Nat) := by
  rw [Nat.mul_comm, Nat.two_pow_pred_mul_two (tyBits_pos t)]

/-- The range of a type holds as many integers as its width has codes (R79). -/
theorem intHi_sub_intLo (t : Nat) : intHi t - intLo t = (2 ^ tyBits t : Nat) - 1 := by
  have h2 := two_pow_tyBits t
  unfold intHi intLo
  split <;> omega
theorem intLo_le_intHi (t : Nat) : intLo t ≤ intHi t := by
  have := intHi_sub_intLo t
  have := Nat.two_pow_pos (tyBits t)
  omega

/-- Two integers of a type's range that have the same low bits are the same. -/
theorem eq_of_range_of_emod_eq {t : Nat} {a b : Int} (ha : intLo t ≤ a ∧ a ≤ intHi t) (hb : intLo t ≤ b ∧ b ≤ intHi t)
    (h : a % (2 ^ tyBits t : Nat) = b % (2 ^ tyBits t : Nat)) : a = b := by
  have hr := intHi_sub_intLo t
  have hdvd := Int.dvd_of_emod_eq_zero (Int.emod_eq_emod_iff_emod_sub_eq_zero.mp h)
  have := Int.eq_zero_of_dvd_of_natAbs_lt_natAbs hdvd (by omega)
  omega

/-- What an element reads as lies in the type's range. -/
theorem readI_range (t x : Nat) : intLo t ≤ readI t x ∧ readI t x ≤ intHi t := by
  have h2 := two_pow_tyBits t
  have hx : x % 2 ^ tyBits t < 2 ^ tyBits t := Nat.mod_lt _ (Nat.two_pow_pos _)
  unfold readI intLo intHi
  simp only [testBit_top (tyBits_pos t) hx]
  cases isSigned t
  · simp only [Bool.false_and, Bool.false_eq_true, if_false]
    omega
  · simp only [Bool.true_and, decide_eq_true_eq, if_true]
    split <;> omega
/-- And it has the low bits of the element. -/
theorem readI_emod (t x : Nat) : readI t x % (2 ^ tyBits t : Nat) = (x : Int) % (2 ^ tyBits t : Nat) := by
  unfold readI
  dsimp only
  split
  · rw [Int.sub_emod_right, Int.natCast_emod, Int.emod_emod]
  · rw [Int.natCast_emod, Int.emod_emod]

theorem lowBits_cast (t : Nat) (v : Int) : (lowBits t v : Int) = v % (2 ^ tyBits t : Nat) :=
  Int.toNat_of_nonneg (Int.emod_nonneg _ (by have := Nat.two_pow_pos (tyBits t); omega))
theorem lowBits_lt (t : Nat) (v : Int) : lowBits t v < 2 ^ tyBits t := by
  have h := Int.emod_lt_of_pos v (b := (2 ^ tyBits t : Nat)) (by have := Nat.two_pow_pos (tyBits t); omega)
  rw [← lowBits_cast] at h
  omega
/-- The low bits of an integer read as one that has the same low bits. -/
theorem readI_lowBits_emod (t : Nat) (v : Int) : readI t (lowBits t v) % (2 ^ tyBits t : Nat) = v % (2 ^ tyBits t : Nat) := by
  rw [readI_emod, lowBits_cast, Int.emod_emod]
/-- An integer of the type's range is what its low bits read as. -/
theorem readI_lowBits {t : Nat} {v : Int} (h : intLo t ≤ v ∧ v ≤ intHi t) : readI t (lowBits t v) = v :=
  eq_of_range_of_emod_eq (readI_range t _) h (readI_lowBits_emod t v)

/-! Clamping, by where the integer lies. -/
theorem clampI_of_lt {t : Nat} {v : Int} (h : v < intLo t) : clampI t v = intLo t := if_pos h
theorem clampI_of_gt {t : Nat} {v : Int} (h : intHi t < v) : clampI t v = intHi t := by
  unfold clampI
  rw [if_neg (Int.not_lt.mpr (Int.le_trans (intLo_le_intHi t) (Int.le_of_lt h))), if_pos h]
theorem clampI_of_mem {t : Nat} {v : Int} (hlo : intLo t ≤ v) (hhi : v ≤ intHi t) : clampI t v = v := by
  unfold clampI
  rw [if_neg (Int.not_lt.mpr hlo), if_neg (Int.not_lt.mpr hhi)]
theorem clampI_range (t : Nat) (v : Int) : intLo t ≤ clampI t v ∧ clampI t v ≤ intHi t := by
  have h := intLo_le_intHi t
  rcases Int.lt_or_le v (intLo t) with hlo | hlo
  · rw [clampI_of_lt hlo]
    exact ⟨Int.le_refl _, h⟩
  · rcases Int.lt_or_le (intHi t) v with hhi | hhi
    · rw [clampI_of_gt hhi]
      exact ⟨h, Int.le_refl _⟩
    · rw [clampI_of_mem hlo hhi]
      exact ⟨hlo, hhi⟩
/-- With SAT the narrowed element reads as the clamped integer (R80). -/
theorem readI_narrowI_sat (t : Nat) (v : Int) : readI t (narrowI t true v) = clampI t v := readI_lowBits (clampI_range t v)

/-! Float formats: a finite code is a significand and an exponent, and rounding finds both again. -/

/-- A code is its magnitude with its sign (R74). -/
theorem withSign_testBit {f : Fmt} {x : Nat} (hb : 0 < f.bits) (hx : x < 2 ^ f.bits) :
    withSign f (x.testBit (f.bits - 1)) (x % 2 ^ (f.bits - 1)) = x := by
  have h2 : 2 ^ f.bits = 2 * 2 ^ (f.bits - 1) := by rw [Nat.mul_comm, Nat.two_pow_pred_mul_two hb]
  rw [testBit_top hb hx]
  unfold withSign
  by_cases h : 2 ^ (f.bits - 1) ≤ x
  · rw [decide_eq_true h, if_pos rfl, Nat.mod_eq_sub_mod h, Nat.mod_eq_of_lt (by omega), Nat.sub_add_cancel h]
  · rw [decide_eq_false h, if_neg Bool.false_ne_true, Nat.mod_eq_of_lt (Nat.lt_of_not_le h)]

/-- Beyond MAX a code is an infinity or a NaN. -/
theorem readF_of_max_lt {f : Fmt} {ftz : Bool} {x : Nat} (h : f.max < x % 2 ^ (f.bits - 1)) :
    readF f ftz x = if f.inf = some (x % 2 ^ (f.bits - 1)) then .inf (x.testBit (f.bits - 1)) else .nan := if_pos h
/-- Up to MAX it is a significand s at e binades above the least spacing: s has the leading bit, or the code is subnormal and e is 0 (R75). -/
theorem readF_of_le_max {f : Fmt} {x : Nat} (h : x % 2 ^ (f.bits - 1) ≤ f.max) :
    ∃ e s, x % 2 ^ (f.bits - 1) = e * 2 ^ f.m + s ∧ s < 2 ^ (f.m + 1) ∧ (e = 0 ∨ 2 ^ f.m ≤ s) ∧
      readF f false x = .fin (x.testBit (f.bits - 1)) (s * 2 ^ (f.kmin + e)) := by
  have hq : x % 2 ^ (f.bits - 1) % 2 ^ f.m < 2 ^ f.m := Nat.mod_lt _ (Nat.two_pow_pos _)
  have hdiv := Nat.div_add_mod' (x % 2 ^ (f.bits - 1)) (2 ^ f.m)
  unfold readF
  simp only [if_neg (Nat.not_lt.mpr h)]
  cases he : x % 2 ^ (f.bits - 1) / 2 ^ f.m with
  | zero =>
    rw [he] at hdiv
    exact ⟨0, _, hdiv.symm, by omega, .inl rfl, rfl⟩
  | succ e =>
    rw [he, Nat.succ_mul] at hdiv
    exact ⟨e, 2 ^ f.m + x % 2 ^ (f.bits - 1) % 2 ^ f.m, by omega, by omega, .inr (Nat.le_add_right ..), rfl⟩

/-- The spacing that rounding takes for such a significand is the one at which it stands (R85 step 3). -/
theorem spacing_of_significand {f : Fmt} {e s : Nat} (hs : s < 2 ^ (f.m + 1)) (hs0 : s ≠ 0) (he : e = 0 ∨ 2 ^ f.m ≤ s) :
    max f.kmin ((s * 2 ^ (f.kmin + e)).log2 - f.m) = f.kmin + e := by
  have hlog : (s * 2 ^ (f.kmin + e)).log2 = s.log2 + (f.kmin + e) := by
    rw [Nat.log2_eq_iff (Nat.mul_ne_zero hs0 (Nat.ne_of_gt (Nat.two_pow_pos _))), Nat.pow_add 2 s.log2, Nat.add_right_comm,
      Nat.pow_add 2 (s.log2 + 1)]
    exact ⟨Nat.mul_le_mul_right _ ((Nat.le_log2 hs0).mp (Nat.le_refl _)), Nat.mul_lt_mul_of_pos_right Nat.lt_log2_self (Nat.two_pow_pos _)⟩
  have hle : s.log2 < f.m + 1 := (Nat.log2_lt hs0).mpr hs
  rcases he with rfl | he
  · omega
  · have := (Nat.le_log2 hs0).mpr he
    omega
/-- Rounding such a magnitude gives its code, in every mode and with or without SAT, and flushes none: it is exact (R85 step 2). -/
theorem roundQ_significand {f : Fmt} (r : Rnd) (neg : Bool) {e s : Nat} (hs : s < 2 ^ (f.m + 1)) (he : e = 0 ∨ 2 ^ f.m ≤ s)
    (hmax : e * 2 ^ f.m + s ≤ f.max) : roundQ f r neg (s * 2 ^ (f.kmin + e)) 1 = withSign f neg (e * 2 ^ f.m + s) := by
  have hpos : 0 < 2 ^ (f.kmin + e) := Nat.two_pow_pos _
  unfold roundQ
  by_cases hs0 : s = 0
  · have he0 : e = 0 := he.resolve_right (by have := Nat.two_pow_pos f.m; omega)
    simp [hs0, he0]
  · simp [spacing_of_significand hs hs0 he, Nat.mul_ne_zero hs0 (Nat.ne_of_gt hpos), Nat.mul_div_cancel s hpos, Nat.not_lt.mpr hmax]

/-- Rounding a finite code as read gives it again, whatever MODE holds. -/
theorem roundV_readF_finite {f : Fmt} (r : Rnd) {x : Nat} (hb : 0 < f.bits) (hx : x < 2 ^ f.bits) (h : x % 2 ^ (f.bits - 1) ≤ f.max) :
    roundV f r (readF f false x) = x := by
  obtain ⟨e, s, hmag, hs, he, hread⟩ := readF_of_le_max h
  rw [hread]
  calc roundQ f r (x.testBit (f.bits - 1)) (s * 2 ^ (f.kmin + e)) 1
      = withSign f (x.testBit (f.bits - 1)) (x % 2 ^ (f.bits - 1)) := by rw [hmag, roundQ_significand r _ hs he (hmag ▸ h)]
    _ = x := withSign_testBit hb hx
/-- Without SAT the same holds of an infinity. -/
theorem roundV_readF_infinite {f : Fmt} {r : Rnd} {x : Nat} (hb : 0 < f.bits) (hx : x < 2 ^ f.bits) (hsat : r.sat = false)
    (h : f.max < x % 2 ^ (f.bits - 1)) (hnan : readF f false x ≠ .nan) : roundV f r (readF f false x) = x := by
  rw [readF_of_max_lt h] at hnan ⊢
  have hinf : f.inf = some (x % 2 ^ (f.bits - 1)) := Decidable.not_not.mp fun hne => hnan (if_neg hne)
  rw [if_pos hinf]
  calc wouldBeInf f r (x.testBit (f.bits - 1))
      = withSign f (x.testBit (f.bits - 1)) (x % 2 ^ (f.bits - 1)) := by simp [wouldBeInf, hsat, hinf]
    _ = x := withSign_testBit hb hx

theorem fmtOf_bits_pos (t : Nat) : 0 < (fmtOf t).bits := by
  unfold fmtOf
  split <;> decide

end Machine

open Machine in
/-- Settles O26: the low bits read as an integer congruent to the exact one, and a type's range holds one integer of each such class. -/
theorem narrowingIsExact : Obligations.NarrowingIsExact := by
  intro t v _
  have hlow : (readI t (narrowI t false v) - v) % (2 ^ tyBits t : Nat) = 0 :=
    Int.emod_eq_emod_iff_emod_sub_eq_zero.mp (readI_lowBits_emod t v)
  rw [readI_narrowI_sat]
  exact ⟨lowBits_lt t _, lowBits_lt t _, hlow, clampI_of_mem, clampI_of_lt, clampI_of_gt⟩

open Machine in
/-- Settles O27: a code up to MAX is exact at the spacing of its binade, and a code beyond it is an infinity. An exact subnormal is not flushed
(log entry 17). -/
theorem roundingIsExactOnCodes : Obligations.RoundingIsExactOnCodes := by
  intro t x r ftz draw _ hx hnan
  rcases Nat.lt_or_ge (fmtOf t).max (x % 2 ^ ((fmtOf t).bits - 1)) with h | h
  · exact roundV_readF_infinite (fmtOf_bits_pos t) hx rfl h hnan
  · exact roundV_readF_finite _ (fmtOf_bits_pos t) hx h

end Sys2Proof
end

section
/-! PROOF. The scalar instructions and the control transfers (R104, R112 to R116, R124 to R128): what is written, and where the crew goes on. -/
namespace Sys2Proof

namespace Machine

/-- An instruction whose whole effect is one scalar result writes that result and moves on. -/
theorem does_of_scalarOp {i : Instr} {d : SReg} {v w : Crew → DWord}
    (hx : ∀ s, exec i s = issue s (needOf s i) fun s c _ => retire s (c.setS d (v c)))
    (hv : ∀ c, v c = w c) : Does i fun s c _ => retire s (c.setS d (w c)) :=
  does_of_body hx fun s c _ => ⟨by rw [hv], rfl⟩
/-- It gives a result with a property when its value has that property. -/
theorem gives_of_scalarOp {i : Instr} {d : SReg} {v : Crew → DWord} {q : State → Crew → Team → State → Prop}
    (hx : ∀ s, exec i s = issue s (needOf s i) fun s c _ => retire s (c.setS d (v c)))
    (hq : ∀ s c t, q s c t (retire s (c.setS d (v c)))) : Gives i (fun _ _ _ => True) q :=
  gives_of_body hx fun s c t _ => ⟨hq s c t, rfl⟩

/-- The low six bits of a shift's operand are the operand modulo 64 (R125). -/
theorem shiftAmount_eq_mod (y : DWord) : shiftAmount y = y.toNat % 64 := by
  simp [shiftAmount]

/-- Division by zero gives all ones (R127). -/
theorem divSigned_zero (x : DWord) : divSigned x 0 = -1 := rfl
/-- The one quotient that overflows wraps to the dividend (R127). -/
theorem divSigned_overflow : divSigned (BitVec.intMin 64) (-1) = BitVec.intMin 64 := by decide
/-- Any other quotient of signed values is exact, rounded towards zero (R127). -/
theorem toInt_divSigned {x y : DWord} (hy : y ≠ 0) (ho : x = BitVec.intMin 64 → y ≠ -1) :
    (divSigned x y).toInt = x.toInt.tdiv y.toInt := by
  have e : divSigned x y = x.sdiv y := by
    refine BitVec.eq_of_toInt_eq ?_
    rw [divSigned, if_neg hy, BitVec.toInt_ofInt, BitVec.toInt_sdiv]
  rw [e, BitVec.toInt_sdiv_of_ne_or_ne]
  by_cases hx : x = BitVec.intMin 64
  · exact .inr (ho hx)
  · exact .inl hx

/-- A quotient of unsigned values is no greater than the dividend (R127). -/
theorem toNat_divUnsigned {x y : DWord} (hy : y ≠ 0) : (divUnsigned x y).toNat = x.toNat / y.toNat := by
  rw [divUnsigned, if_neg hy, BitVec.toNat_ofNat]
  exact Nat.mod_eq_of_lt (Nat.lt_of_le_of_lt (Nat.div_le_self ..) x.isLt)

/-- The number of set bits is the sum of the bits (R128). -/
theorem popCount_eq_sum (x : DWord) : popCount x = ((List.range 64).map fun k => (x.getLsbD k).toNat).sum := by
  unfold popCount
  induction List.range 64 with
  | nil => rfl
  | cons k l ih => cases h : x.getLsbD k <;> simp [h, ih, Nat.add_comm]

theorem leadingZeros_le (x : DWord) : leadingZeros x ≤ 64 := by
  unfold leadingZeros
  split <;> omega
/-- The highest set bit of a value that is not zero is bit 63 - n, where n is the number of zeros above it (R128). -/
theorem leadingZeros_of_ne {x : DWord} (hx : x ≠ 0) : leadingZeros x < 64 ∧ x.getLsbD (63 - leadingZeros x) = true := by
  have h0 : x.toNat ≠ 0 := fun h => hx (BitVec.eq_of_toNat_eq h)
  have hl : x.toNat.log2 < 64 := (Nat.log2_lt h0).mpr x.isLt
  have e : leadingZeros x = 63 - x.toNat.log2 := if_neg hx
  refine ⟨by omega, ?_⟩
  rw [e, show 63 - (63 - x.toNat.log2) = x.toNat.log2 by omega]
  exact Nat.testBit_log2 h0
/-- Every bit above it is clear. -/
theorem getLsbD_above_leadingZeros (x : DWord) {k : Nat} (hk : 63 < k + leadingZeros x) : x.getLsbD k = false := by
  by_cases hx : x = 0
  · simp [hx]
  · have h0 : x.toNat ≠ 0 := fun h => hx (BitVec.eq_of_toNat_eq h)
    have e : leadingZeros x = 63 - x.toNat.log2 := if_neg hx
    have hl : x.toNat.log2 < 64 := (Nat.log2_lt h0).mpr x.isLt
    exact Nat.testBit_lt_two_pow ((Nat.log2_lt h0).mp (by omega : x.toNat.log2 < k))

end Machine

open Machine in
/-- Settles O14: each arm retires with its result; the carries out of a sum or a product and the high bits of a shift amount are dropped. -/
theorem scalarArithmetic : Obligations.ScalarArithmetic := by
  unfold Obligations.ScalarArithmetic
  refine ⟨fun d i => ?_, fun d i => ?_, fun d a b => ?_, fun d a b => ?_, fun d a b => ?_, fun d a b => ?_, fun d a b => ?_, fun d a b => ?_,
    fun d a b => ?_, fun d a b => ?_, fun d a b => ?_, fun d a b => ?_, fun d a i => ?_⟩
  case refine_3 => exact does_of_scalarOp (fun _ => rfl) fun c => BitVec.add_def ..
  case refine_5 => exact does_of_scalarOp (fun _ => rfl) fun c => BitVec.mul_def ..
  case refine_9 => exact does_of_scalarOp (fun _ => rfl) fun c => by rw [shiftAmount_eq_mod]
  case refine_10 => exact does_of_scalarOp (fun _ => rfl) fun c => by rw [shiftAmount_eq_mod]
  case refine_11 => exact does_of_scalarOp (fun _ => rfl) fun c => by rw [shiftAmount_eq_mod]
  all_goals exact does_of_scalarOp (fun _ => rfl) fun _ => rfl

open Machine in
/-- Settles O15: the quotients and the counts are those of the four lemmas on `divSigned`, `divUnsigned`, `popCount` and `leadingZeros`. -/
theorem scalarDivisionsAndCounts : Obligations.ScalarDivisionsAndCounts := by
  unfold Obligations.ScalarDivisionsAndCounts
  refine ⟨fun d a b => ?_, fun d a b => ?_, fun d a => ?_, fun d a => ?_⟩
  · refine gives_of_scalarOp (fun _ => rfl) fun s c _ => ⟨_, rfl, fun hb => ?_, fun ha hb => ?_, toInt_divSigned⟩
    · rw [hb]; exact divSigned_zero _
    · rw [ha, hb]; exact divSigned_overflow
  · refine gives_of_scalarOp (fun _ => rfl) fun s c _ => ⟨_, rfl, fun hb => ?_, toNat_divUnsigned⟩
    rw [hb]; rfl
  · exact gives_of_scalarOp (fun _ => rfl) fun s c _ => ⟨_, rfl, popCount_eq_sum _⟩
  · refine gives_of_scalarOp (fun _ => rfl) fun s c _ => ⟨_, rfl, leadingZeros_le _, fun ha => ?_, leadingZeros_of_ne,
      fun k _ => getLsbD_above_leadingZeros _⟩
    rw [ha]; rfl

namespace Machine

/-- A control transfer to a good target continues there (R112). -/
theorem branchTo_of_ok {s : State} {c : Crew} {target : Int} (aligned link : Bool) (word : Word) (h : targetOk target = true)
    (ha : aligned = true → target % 4 = 0) :
    branchTo s c word target aligned link = jump s (if link then c.setS 63 ((c.pc + 4).setWidth 64) else c) (BitVec.ofInt 56 target) := by
  unfold branchTo
  rw [if_pos]
  cases aligned with
  | false => simpa using h
  | true => simp [h, ha rfl]
/-- A control transfer to a bad target takes a branch-target trap (R112). -/
theorem branchTo_of_bad {s : State} {c : Crew} {target : Int} {aligned : Bool} (link : Bool) (word : Word) (hc : s.crew? s.cur = some c)
    (hs : c.spec = none) (h : targetOk target = false ∨ aligned = true ∧ target % 4 ≠ 0) :
    branchTo s c word target aligned link =
      raise s s.cur { kind := .branchTarget, resume := c.pc, fault := c.pc, word := word, addr := BitVec.ofInt 64 target } := by
  unfold branchTo
  rw [if_neg]
  · exact trapOrStop_raises hc hs _
  · rcases h with h | ⟨rfl, h⟩ <;> simp [h]

/-- The target of a register or of BLKZ is no negative number: it lies in the address space below 2^56 (R112). -/
theorem targetOk_natCast (n : Nat) : targetOk n = decide (n < 2 ^ 56) :=
  decide_eq_decide.mpr ⟨fun h => by omega, fun h => by omega⟩

/-- A control transfer to a register's value (R116). -/
theorem branchTo_register {s : State} {c : Crew} {x : DWord} (link : Bool) (word : Word) (h : x.toNat < 2 ^ 56 ∧ x.toNat % 4 = 0) :
    branchTo s c word x.toNat true link = jump s (if link then c.setS 63 ((c.pc + 4).setWidth 64) else c) (x.setWidth 56) := by
  rw [branchTo_of_ok true link word (by rw [targetOk_natCast]; exact decide_eq_true h.1) fun _ => by omega]
  rfl
theorem branchTo_register_bad {s : State} {c : Crew} {x : DWord} (word : Word) (hc : s.crew? s.cur = some c) (hs : c.spec = none)
    (h : 2 ^ 56 ≤ x.toNat ∨ x.toNat % 4 ≠ 0) :
    branchTo s c word x.toNat true false =
      raise s s.cur { kind := .branchTarget, resume := c.pc, fault := c.pc, word := word, addr := x } := by
  rw [branchTo_of_bad false word hc hs, BitVec.ofInt_natCast, BitVec.ofNat_toNat, BitVec.setWidth_eq]
  rw [targetOk_natCast]
  exact h.imp (fun h => decide_eq_false (by omega)) fun h => ⟨rfl, by omega⟩
/-- The target of BLKZ (R104). -/
theorem branchTo_blkz {s : State} {c : Crew} {n : Nat} (link : Bool) (word : Word) (h : c.pc.toNat + 4 + 4 * n < 2 ^ 56) :
    branchTo s c word (c.pc.toNat + 4 + 4 * n) false link =
      jump s (if link then c.setS 63 ((c.pc + 4).setWidth 64) else c) (BitVec.ofNat 56 (c.pc.toNat + 4 + 4 * n)) := by
  have e : (c.pc.toNat + 4 + 4 * n : Int) = (c.pc.toNat + 4 + 4 * n : Nat) := by push_cast; rfl
  rw [e, branchTo_of_ok false link word (by rw [targetOk_natCast]; exact decide_eq_true h) nofun]
  rfl
theorem branchTo_blkz_bad {s : State} {c : Crew} {n : Nat} (word : Word) (hc : s.crew? s.cur = some c) (hs : c.spec = none)
    (h : 2 ^ 56 ≤ c.pc.toNat + 4 + 4 * n) :
    branchTo s c word (c.pc.toNat + 4 + 4 * n) false false = raise s s.cur
      { kind := .branchTarget, resume := c.pc, fault := c.pc, word := word, addr := BitVec.ofNat 64 (c.pc.toNat + 4 + 4 * n) } := by
  have e : (c.pc.toNat + 4 + 4 * n : Int) = (c.pc.toNat + 4 + 4 * n : Nat) := by push_cast; rfl
  rw [e, branchTo_of_bad false word hc hs (.inl (by rw [targetOk_natCast]; exact decide_eq_false (by omega)))]
  rfl

/-- An instruction whose body transfers control where the condition holds continues at the target. -/
theorem doesWhen_of_jump {i : Instr} {p : State → Crew → Team → Prop}
    {body : State → Crew → Team → State} {g : Crew → Crew} {target : Crew → Addr}
    (hx : ∀ s, exec i s = issue s (needOf s i) body) (hb : ∀ s c t, p s c t → body s c t = jump s (g c) (target c)) :
    DoesWhen i p fun s c _ => jump s (g c) (target c) :=
  doesWhen_of_body hx fun s c t hp => ⟨hb s c t hp, rfl⟩
/-- A conditional branch transfers control where its condition holds, and retires elsewhere. -/
theorem doesWhen_of_condJump {i : Instr} {q : Crew → Team → Prop} [∀ c t, Decidable (q c t)] {p : State → Crew → Team → Prop}
    {branch : State → Crew → State} {target : Crew → Addr}
    (hx : ∀ s, exec i s = issue s (needOf s i) fun s c t => if q c t then branch s c else retire s c)
    (hb : ∀ s c t, q c t → p s c t → branch s c = jump s c (target c)) :
    DoesWhen i p fun s c t => if q c t then jump s c (target c) else retire s c := by
  refine doesWhen_of_body hx fun s c t hp => ?_
  by_cases hq : q c t
  · rw [if_pos hq, if_pos hq]; exact ⟨hb s c t hq hp, rfl⟩
  · rw [if_neg hq, if_neg hq]; exact ⟨rfl, rfl⟩
/-- An instruction whose body raises a trap where the condition holds takes it. -/
theorem trapsWhen_of_body {i : Instr} {p : State → Crew → Team → Prop} {kind : TrapKind} {addr detail : Crew → DWord}
    {body : State → Crew → Team → State} (hx : ∀ s, exec i s = issue s (needOf s i) body)
    (hb : ∀ s c t, s.crew? s.cur = some c → c.spec = none → p s c t → body s c t = raise s s.cur
      { kind := kind, resume := c.pc, fault := c.pc, word := wordOf i, addr := addr c, detail := detail c }) :
    TrapsWhen i p kind addr detail :=
  doesWhen_of_calm hx fun s c t ⟨hc, hs, hp⟩ h => ⟨hb s c t hc hs hp, solid_raise calm_solid h ..⟩

end Machine

open Machine in
/-- Settles O16: a target that R112 accepts is where the crew continues. -/
theorem controlTransfers : Obligations.ControlTransfers := by
  unfold Obligations.ControlTransfers
  refine ⟨does_of_body (fun _ => rfl) fun _ _ _ => ⟨rfl, rfl⟩,
    fun i => ?_, fun i => ?_, fun d i => ?_, fun d i => ?_, ?_, fun a => ?_, fun d n => ?_⟩
  · exact doesWhen_of_jump (g := id) (fun _ => rfl) fun s c t h => branchTo_of_ok false false _ h nofun
  · exact doesWhen_of_jump (g := fun c => c.setS 63 ((c.pc + 4).setWidth 64)) (fun _ => rfl) fun s c t h => branchTo_of_ok false true _ h nofun
  · exact doesWhen_of_condJump (fun _ => rfl) fun s c t hq h => branchTo_of_ok false false _ (h hq) nofun
  · exact doesWhen_of_condJump (fun _ => rfl) fun s c t hq h => branchTo_of_ok false false _ (h hq) nofun
  · exact doesWhen_of_jump (g := id) (fun _ => rfl) fun s c t h => branchTo_register false _ h
  · exact doesWhen_of_jump (g := id) (fun _ => rfl) fun s c t h => branchTo_register false _ h
  · exact doesWhen_of_condJump (q := fun c t => maskOf t.width (c.getS d) = 0) (fun _ => rfl) fun s c t hq h => branchTo_blkz false _ (h hq)

open Machine in
/-- Settles O17: a target that R112 does not accept is a trap. -/
theorem badTargetsTrap : Obligations.BadTargetsTrap := by
  unfold Obligations.BadTargetsTrap
  refine ⟨fun i => ?_, fun i => ?_, fun d i => ?_, fun d i => ?_, fun a => ?_, ?_, fun d n => ?_⟩
  · exact trapsWhen_of_body (fun _ => rfl) fun s c t hc hs h => branchTo_of_bad false _ hc hs (.inl h)
  · exact trapsWhen_of_body (fun _ => rfl) fun s c t hc hs h => branchTo_of_bad true _ hc hs (.inl h)
  · exact trapsWhen_of_body (fun _ => rfl) fun s c t hc hs h => (if_pos h.1).trans (branchTo_of_bad false _ hc hs (.inl h.2))
  · exact trapsWhen_of_body (fun _ => rfl) fun s c t hc hs h => (if_pos h.1).trans (branchTo_of_bad false _ hc hs (.inl h.2))
  · exact trapsWhen_of_body (fun _ => rfl) fun s c t hc hs h => branchTo_register_bad _ hc hs h
  · exact trapsWhen_of_body (fun _ => rfl) fun s c t hc hs h => branchTo_register_bad _ hc hs h
  · exact trapsWhen_of_body (fun _ => rfl) fun s c t hc hs h => (if_pos h.1).trans (branchTo_blkz_bad _ hc hs h.2)

end Sys2Proof
end

section
/-! PROOF. Waiting for class counters and the end of a crew (R107, R108, R110, R111, R121). -/
namespace Sys2Proof

namespace Machine

theorem mem_setAdd {l : List Nat} {j k : Nat} : j ∈ setAdd l k ↔ j = k ∨ j ∈ l := by
  induction l with
  | nil => simp [setAdd]
  | cons x t ih =>
    unfold setAdd
    split
    · simp
    · split
      · next h => subst h; simp
      · rw [List.mem_cons, List.mem_cons, ih]; exact or_left_comm

/-- A wait looks at every class. -/
theorem all_classes {p : Cls → Bool} : [Cls.load, .store, .copy, .tile].all p = true ↔ ∀ q, p q = true := by
  simp only [List.all_cons, List.all_nil, Bool.and_true, Bool.and_eq_true]
  exact ⟨fun ⟨h1, h2, h3, h4⟩ q => by cases q <;> assumption, fun h => ⟨h _, h _, h _, h _⟩⟩
/-- What a wait does not cover: what it has noted, or, as it issues, the youngest operations of each class (R108). -/
def waitSpare (th : Cls → Nat) (s : State) (c : Crew) : List Nat :=
  c.spare.getD ([Cls.load, .store, .copy, .tile].flatMap fun q => youngest s s.cur q (th q))

/-- A wait whose counters are low enough and that covers no held fault retires. -/
theorem waitBody_retires {th : Cls → Nat} {s : State} {c : Crew} {t : Team} (hq : ∀ q, classCount s s.cur q ≤ th q)
    (hh : ∀ h ∈ c.held, waitCovers th (waitSpare th s c) h = false) : waitBody th s c t = retire s { c with spare := none } := by
  unfold waitBody
  have ha : (c.held.any (waitCovers th (waitSpare th s c))) = false := List.any_eq_false.mpr fun h hm => by simp [hh h hm]
  unfold waitSpare at ha
  simp only [all_classes.mpr fun q => decide_eq_true (hq q), ha, if_true]
  rfl
/-- One that covers a held fault raises it. -/
theorem waitBody_raises {th : Cls → Nat} {s : State} {c : Crew} {t : Team} (hq : ∀ q, classCount s s.cur q ≤ th q)
    (hh : ∃ h ∈ c.held, waitCovers th (waitSpare th s c) h = true) :
    waitBody th s c t = raiseHeld s s.cur c (waitCovers th (waitSpare th s c)) := by
  unfold waitBody
  have ha := List.any_eq_true.mpr hh
  unfold waitSpare at ha ⊢
  simp only [all_classes.mpr fun q => decide_eq_true (hq q), ha, if_true]
/-- A wait whose counters are not low enough notes what it does not cover. -/
theorem waitBody_waits {th : Cls → Nat} {s : State} {c : Crew} {t : Team} (hq : ∃ q, th q < classCount s s.cur q) :
    waitBody th s c t = s.setCrew s.cur { c with spare := some (waitSpare th s c) } := by
  obtain ⟨q, hq⟩ := hq
  unfold waitBody
  refine if_neg fun h => ?_
  have := of_decide_eq_true (all_classes.mp h q)
  omega
/-- Raising held faults outside speculation leaves the trace fabric calm. -/
theorem calm_raiseHeld {s : State} (h : Calm s) (key : Nat) {c : Crew} (hs : c.spec = none) (sel : Held → Bool) : Calm (raiseHeld s key c sel) := by
  unfold raiseHeld
  dsimp only
  split
  · exact h
  · rw [if_neg (by simp [hs])]
    exact solid_raise calm_solid (s := s.setCrew key _) h ..

/-- The class that WAITR names (R111). -/
def waitrClass (k : BitVec 2) : Cls := match k.toNat with | 0 => .load | 1 => .store | 2 => .copy | _ => .tile
/-- The thresholds of WAITR: the class that it names has one, and the others none (R111). -/
theorem thresholdOf_waitr (k : BitVec 2) (n : Nat) :
    thresholdOf (if k.toNat = 0 then n else 63) (if k.toNat = 1 then n else 63) (if k.toNat = 2 then n else 63) (if k.toNat = 3 then n else 63) =
      fun x => if x = waitrClass k then n else 63 := by
  funext x
  have hk := k.isLt
  unfold waitrClass
  generalize k.toNat = j at hk ⊢
  match j, hk with
  | 0, _ | 1, _ | 2, _ | 3, _ => cases x <;> rfl

/-- What an instruction does is what it gives. -/
theorem gives_of_doesWhen {i : Instr} {p : State → Crew → Team → Prop} {f : State → Crew → Team → State} (h : DoesWhen i p f) :
    Gives i p fun s c t s' => s' = f s c t := fun s s1 c t hr hp => ⟨_, h s s1 c t hr hp, rfl⟩

/-- The three outcomes of a wait, for an instruction whose thresholds come from the crew. -/
theorem wait_outcomes {i : Instr} {th : Crew → Cls → Nat} (hx : ∀ s, exec i s = issue s (needOf s i) fun s c t => waitBody (th c) s c t) :
    DoesWhen i (fun s c _ => (∀ q, classCount s s.cur q ≤ th c q) ∧ ∀ h ∈ c.held, waitCovers (th c) (waitSpare (th c) s c) h = false)
      (fun s c _ => retire s { c with spare := none }) ∧
    DoesWhen i (fun s c _ => s.crew? s.cur = some c ∧ c.spec = none ∧ (∀ q, classCount s s.cur q ≤ th c q) ∧
        ∃ h ∈ c.held, waitCovers (th c) (waitSpare (th c) s c) h = true)
      (fun s c _ => raiseHeld s s.cur c (waitCovers (th c) (waitSpare (th c) s c))) ∧
    DoesWhen i (fun s c _ => ∃ q, th c q < classCount s s.cur q) fun s c _ => s.setCrew s.cur { c with spare := some (waitSpare (th c) s c) } :=
  ⟨doesWhen_of_body hx fun _ _ _ ⟨hq, hh⟩ => ⟨waitBody_retires hq hh, rfl⟩,
   doesWhen_of_calm hx fun _ _ _ ⟨_, hs, hq, hh⟩ hcalm => ⟨waitBody_raises hq hh, calm_raiseHeld hcalm _ hs _⟩,
   doesWhen_of_body hx fun _ _ _ hq => ⟨waitBody_waits hq, rfl⟩⟩

/-- A record that no filter delivers is not emitted. -/
theorem emitS_undelivered {s : State} {key : Nat} {c : Crew} (hc : s.crew? key = some c) {event arg : BitVec 8} {spec : Bool}
    (h : delivers s (funcOfTeam s c.team) (coreOf key / 32) event arg spec (some c) = false) (payload : Word) (cause : Nat) :
    emitS s key event arg payload spec cause = s := by
  unfold emitS
  simp [hc, h]
theorem emitIssue_undelivered {s : State} {key : Nat} {c : Crew} {op : BitVec 8}
    (h : delivers s (funcOfTeam s c.team) (coreOf key / 32) 0x50 op c.spec.isSome (some c) = false) : emitIssue s key c op = s := by
  unfold emitIssue samples
  simp only [h, Bool.and_false]
  rfl
/-- No Trivet entry of the core fails where there is none. -/
theorem failGangs_nil {s : State} {core : Nat} (h : (s.core core).trivet = []) (fuel : Nat) (sel : Rendezvous → Bool) (cause : Nat)
    (skip : Option Nat) : failGangs fuel s core sel cause skip = s := by
  cases fuel with
  | zero => rfl
  | succ n => unfold failGangs; simp [h]
/-- No team is deadlocked in which a crew neither waits nor speculates (R122). -/
theorem checkDeadlock_free {s : State} {tid : Nat} {t : Team} {k : Nat} {x : Crew} (ht : s.team? tid = some t) (hk : k ∈ t.crews)
    (hx : s.crew? k = some x) (hw : x.wait = .none) (hs : x.spec = none) : checkDeadlock s tid = s := by
  unfold checkDeadlock
  rw [ht]
  refine if_neg fun ⟨_, _, _, hall⟩ => ?_
  have := List.all_eq_true.mp hall k (List.mem_filter.mpr ⟨hk, by simp [hx, hw]⟩)
  simp [hx, hw, hs] at this

/-- The crew of the current move has ended, and its team has it among its ended crews (R121). -/
def crewEnded (s : State) (c : Crew) (t : Team) : State :=
  (s.setCrew s.cur { c with wait := .ended, handler := false, gangMarks := [], issued := c.issued + 1 }).setTeam c.team
    { t with ended := setAdd t.ended s.cur }
theorem crewEnded_team? (s : State) (c : Crew) (t : Team) :
    (crewEnded s c t).team? c.team = some { t with ended := setAdd t.ended s.cur } := Tbl.get?_put_self ..
theorem crewEnded_crew?_ne (s : State) (c : Crew) (t : Team) {k : Nat} (h : k ≠ s.cur) : (crewEnded s c t).crew? k = s.crew? k :=
  Tbl.get?_put_ne _ _ h
/-- Nothing keeps the crew from ending, and no record of its end is delivered. -/
def EndsQuietly (s : State) (c : Crew) (t : Team) : Prop :=
  c.held = [] ∧ c.region = none ∧ (∀ p ∈ s.ops, p.2.crew ≠ s.cur) ∧ s.wideMsgs = [] ∧
    (∀ ev arg spec, delivers s (funcOfTeam s c.team) (coreOf s.cur / 32) ev arg spec (some c) = false) ∧
    (s.core (coreOf s.cur)).trivet = [] ∧ s.crew? s.cur = some c ∧ s.team? c.team = some t


/-- END (R121): it waits while a counted instruction is outstanding; where nothing keeps it, its crew ends, and then its team retires or goes on. -/
theorem exec_endCrew : ∃ body, (∀ s, exec .endCrew s = issue s (needOf s .endCrew) body) ∧
    (∀ s c t, c.region = none → s.crew? s.cur = some c → (∃ p ∈ s.ops, p.2.crew = s.cur ∧ p.2.cls.isSome = true) → body s c t = s) ∧
    ∀ s c t, EndsQuietly s c t → body s c t =
      if t.crews.all (setAdd t.ended s.cur).contains then retireTeam (crewEnded s c t) c.team else checkDeadlock (crewEnded s c t) c.team := by
  refine ⟨_, fun _ => rfl, fun s c t hr hc ho => ?_, fun s c t ⟨hh, hr, ho, hw, hd, hv, hc, ht⟩ => ?_⟩
  · have busy : (s.ops.any fun p => p.2.crew == s.cur && p.2.cls.isSome) = true := by simpa using ho
    dsimp only
    simp only [closeRegion_none hc hr, busy, Bool.true_or, if_true]
  · have idle : (s.ops.any fun p => p.2.crew == s.cur && p.2.cls.isSome) = false :=
      List.any_eq_false.mpr fun p hp => by simp [ho p hp]
    have put : (s.setCrew s.cur { c with wait := .ended, handler := false, gangMarks := [], issued := c.issued + 1 }).modTeam c.team
        (fun t => { t with ended := setAdd t.ended s.cur }) = crewEnded s c t := by
      have e : Tbl.get? s.teams c.team = some t := ht
      simp [State.modTeam, Tbl.upd, e, crewEnded, State.setTeam]
    have unheld : c.held.isEmpty = true := by simp [hh]
    dsimp only
    simp only [closeRegion_none hc hr, idle, hw, List.any_nil, Bool.or_false, Bool.false_eq_true, if_false, hc, unheld, Bool.not_true,
      emitS_undelivered hc (hd _ _ _), emitIssue_undelivered (hd _ _ _), put, failGangs_nil (s := crewEnded s c t) hv, crewEnded_team?]

/-- Where every other crew of the team has ended the crew that ends is the last, and where one has not it is not. -/
theorem all_ended_iff {t : Team} {k : Nat} : t.crews.all (setAdd t.ended k).contains = true ↔ ∀ j ∈ t.crews, j = k ∨ j ∈ t.ended := by
  simp [mem_setAdd]

end Machine

open Machine in
/-- Settles O19: a wait has three outcomes, and END finds its counters, its held faults and the other crews of its team. -/
theorem waitsAndEnd : Obligations.WaitsAndEnd := by
  unfold Obligations.WaitsAndEnd
  obtain ⟨body, hx, hbusy, hends⟩ := exec_endCrew
  refine ⟨fun l st k q => ?_, fun a k => ?_, ?_, ?_, ?_⟩
  · exact wait_outcomes (th := fun _ => thresholdOf l.toNat st.toNat k.toNat q.toNat) fun _ => rfl
  · refine wait_outcomes (th := fun c x => if x = waitrClass k then min (c.getS a).toNat 63 else 63) fun s => ?_
    simp only [← thresholdOf_waitr]
    rfl
  · exact doesWhen_of_body hx fun s c t ⟨hr, hc, ho⟩ => ⟨hbusy s c t hr hc ho, rfl⟩
  · refine doesWhen_of_body hx fun s c t ⟨he, j, hj, hne, hnot, x, hjx, hw, hs⟩ => ⟨?_, rfl⟩
    have hmore : ¬ t.crews.all (setAdd t.ended s.cur).contains = true := fun h => (all_ended_iff.mp h j hj).elim hne hnot
    rw [hends s c t he, if_neg hmore]
    exact checkDeadlock_free (crewEnded_team? s c t) hj ((crewEnded_crew?_ne s c t hne).trans hjx) hw hs
  · exact gives_of_doesWhen (doesWhen_of_calm hx fun s c t ⟨he, hall⟩ hcalm =>
      ⟨(hends s c t he).trans (if_pos (all_ended_iff.mpr hall)), solid_retireTeam calm_solid (s := crewEnded s c t) hcalm _⟩)

end Sys2Proof
end

section
/-! PROOF. The frame of the instructions that issue work (R105, R208): at its issue an instruction moves lines, adds an operation and stores its
crew, or takes a trap or a demand fault; the bytes that it writes are written when it is performed. -/
namespace Sys2Proof

namespace Machine

/-- What the reading of bytes depends on is as before: memory, the pages in flight, the keys of sectors and the keys' generations. -/
def SameStore (s t : State) : Prop := t.mem = s.mem ∧ t.forwards = s.forwards ∧ t.secKey = s.secKey ∧ t.sec = s.sec
theorem SameStore.refl (s : State) : SameStore s s := ⟨rfl, rfl, rfl, rfl⟩
theorem SameStore.trans {s t u : State} (h : SameStore s t) (g : SameStore t u) : SameStore s u :=
  ⟨g.1.trans h.1, g.2.1.trans h.2.1, g.2.2.1.trans h.2.2.1, g.2.2.2.trans h.2.2.2⟩
theorem SameStore.sameBytes {s t : State} (h : SameStore s t) : SameBytes s t := by
  cases s; cases t
  obtain ⟨rfl, rfl, rfl, rfl⟩ := h
  exact fun _ _ => rfl
theorem sameStore_foldl {α : Type} {f : State → α → State} (h : ∀ s x, SameStore s (f s x)) (l : List α) (s : State) :
    SameStore s (l.foldl f s) :=
  foldl_keeps (SameStore s) f (fun x y hx => hx.trans (h x y)) l s (.refl s)
theorem sameStore_ite {p : Prop} [Decidable p] {s a b : State} (ha : SameStore s a) (hb : SameStore s b) : SameStore s (if p then a else b) := by
  split
  · exact ha
  · exact hb

/-! The shared operations of issue. -/
theorem sameStore_setCrew (s : State) (k : Nat) (c : Crew) : SameStore s (s.setCrew k c) := ⟨rfl, rfl, rfl, rfl⟩
theorem sameStore_retire (s : State) (c : Crew) : SameStore s (retire s c) := ⟨rfl, rfl, rfl, rfl⟩
theorem sameStore_modTeam (s : State) (k : Nat) (f : Team → Team) : SameStore s (s.modTeam k f) := ⟨rfl, rfl, rfl, rfl⟩
theorem sameStore_addOp (s : State) (o : Op) : SameStore s (addOp s o) := ⟨rfl, rfl, rfl, rfl⟩
theorem sameStore_applyInvs (s : State) (core : Nat) : SameStore s (applyInvs s core) := ⟨rfl, rfl, rfl, rfl⟩
theorem sameStore_raceLoads (s : State) (pa size : Nat) : SameStore s (raceLoads s pa size) := ⟨rfl, rfl, rfl, rfl⟩
theorem sameStore_stallCrew (s : State) (key : Nat) (c : Crew) (n : Nat) : SameStore s (stallCrew s key c n) := ⟨rfl, rfl, rfl, rfl⟩
theorem sameStore_lineMove {s t : State} (h : LineMove s t) : SameStore s t := by
  obtain ⟨_, _, _, _, _, _, _, _, _, _, rfl⟩ := h
  exact ⟨rfl, rfl, rfl, rfl⟩
theorem sameStore_emitS (s : State) (key : Nat) (event arg : BitVec 8) (payload : Word) (spec : Bool) (cause : Nat) :
    SameStore s (emitS s key event arg payload spec cause) := by
  obtain ⟨_, _, _, _, e⟩ := emitS_touches s key event arg payload spec cause
  rw [e]; exact ⟨rfl, rfl, rfl, rfl⟩
theorem sameStore_endStall (s : State) (key : Nat) (c : Crew) : SameStore s (endStall s key c).1 := by
  obtain ⟨_, _, _, _, _, e⟩ := endStall_touches s key c
  rw [e]; exact ⟨rfl, rfl, rfl, rfl⟩
theorem sameStore_addDone (s : State) (key : Nat) (c : Crew) (cls : Cls) (kind : OpKind) (word : Word) :
    SameStore s (addDone s key c cls kind word) := by
  unfold addDone
  obtain ⟨_, e⟩ := completeOp_touches (addOp s _) s.nextOp
  rw [e]; exact ⟨rfl, rfl, rfl, rfl⟩
theorem sameStore_closeRegion (s : State) (key : Nat) (pc : Addr) (word : Word) : SameStore s (closeRegion s key pc word) := by
  unfold closeRegion
  split
  · exact .refl s
  · split
    · exact .refl s
    · exact sameStore_ite ⟨rfl, rfl, rfl, rfl⟩ ⟨rfl, rfl, rfl, rfl⟩
theorem sameStore_stopSpec (s : State) (key : Nat) (why : BitVec 8) : SameStore s (stopSpec s key why) := by
  unfold stopSpec
  split
  · exact .refl s
  · split
    · exact .refl s
    · exact (sameStore_emitS s key 0x13 why _ true 0).trans ⟨rfl, rfl, rfl, rfl⟩

/-! Loads, stores, copies, tiles and drains that have passed their checks. -/
theorem sameStore_issueLoad (s : State) (c : Crew) (word : Word) (as : List Acc) : SameStore s (issueLoad s c word as) := by
  unfold issueLoad
  refine sameStore_ite (sameStore_stopSpec ..) ?_
  split
  · exact sameStore_stopSpec ..
  · exact (sameStore_addOp ..).trans (sameStore_retire ..)
theorem sameStore_plainStore (s : State) (c : Crew) (word : Word) (rel : Bool) (kind : OpKind) (as : List Acc) :
    SameStore s (plainStore s c word rel kind as) := (sameStore_addOp ..).trans (sameStore_retire ..)
theorem sameStore_issueStore (s : State) (c : Crew) (t : Team) (word : Word) (as : List Acc) : SameStore s (issueStore s c t word as) :=
  sameStore_ite (sameStore_stopSpec ..) <|
    sameStore_ite ((sameStore_closeRegion ..).trans (sameStore_plainStore ..)) <|
    sameStore_ite (sameStore_plainStore ..) <|
    sameStore_ite ((sameStore_addDone ..).trans (sameStore_retire ..)) <|
    sameStore_ite (sameStore_stopSpec ..) <|
    sameStore_ite (.refl s) <|
    ((sameStore_closeRegion ..).trans (sameStore_emitS ..)).trans (sameStore_plainStore ..)
theorem sameStore_issueCopy (s : State) (c : Crew) (word : Word) (sem : Nat) (closes : Bool) (parts : List CopyPart) :
    SameStore s (issueCopy s c word sem closes parts) := by
  unfold issueCopy
  refine .trans ?_ (sameStore_foldl (fun _ _ => sameStore_lineMove (lineMove_own ..)) _ _)
  refine .trans ?_ (sameStore_addOp ..)
  refine .trans ?_ (sameStore_foldl (fun _ _ => sameStore_raceLoads ..) _ _)
  exact (sameStore_ite (sameStore_closeRegion ..) (.refl s)).trans (sameStore_retire ..)
theorem sameStore_issueTile (s : State) (c : Crew) (word : Word) (h : Nat) (step : TileStep) : SameStore s (issueTile s c word h step) :=
  ((sameStore_closeRegion ..).trans (sameStore_addOp ..)).trans (sameStore_retire ..)
theorem sameStore_issueDrain (s : State) (c : Crew) (t : Team) (word : Word) (h va pitch : Nat) :
    SameStore s (issueDrain s c t word h va pitch) := by
  unfold issueDrain
  refine .trans ?_ (sameStore_foldl (fun _ _ => sameStore_lineMove (lineMove_own ..)) _ _)
  refine .trans ?_ (sameStore_retire ..)
  refine .trans ?_ (sameStore_addOp ..)
  exact .trans (sameStore_closeRegion ..) (sameStore_foldl (fun _ _ => sameStore_raceLoads ..) _ _)
theorem sameStore_prefetch (l : BitVec 1) (core : Nat) (s : State) (x : Acc) : SameStore s (prefetch l core s x) :=
  sameStore_ite (.refl s) (sameStore_ite (sameStore_lineMove (lineMove_fill ..)) (sameStore_lineMove (lineMove_touch ..)))
theorem sameStore_takeSem (s : State) (c : Crew) (sem k : Nat) : SameStore s (takeSem s c sem k) :=
  (sameStore_retire ..).trans (sameStore_modTeam ..)

/-- At its issue an instruction leaves every byte as it is, or takes a trap or a demand fault. -/
def LeavesBytes (s : State) (c : Crew) (t : Team) (s' : State) : Prop :=
  SameStore s s' ∨ (∃ info, s' = raise s s.cur info) ∨ ∃ info pages, s' = demandFault s s.cur c t info pages
theorem leavesBytes_ite {p : Prop} [Decidable p] {s a b : State} {c : Crew} {t : Team} (ha : LeavesBytes s c t a) (hb : LeavesBytes s c t b) :
    LeavesBytes s c t (if p then a else b) := by
  split
  · exact ha
  · exact hb
theorem leavesBytes_trapAt {s : State} {c : Crew} (hc : s.crew? s.cur = some c) (hs : c.spec = none) (t : Team) (word : Word) (kind : TrapKind)
    (cause : BitVec 8) (addr mask detail : DWord) : LeavesBytes s c t (trapAt s s.cur c word kind cause addr mask detail) :=
  .inr (.inl ⟨_, trapOrStop_raises hc hs _⟩)
theorem leavesBytes_takeKind {s : State} {c : Crew} (hc : s.crew? s.cur = some c) (hs : c.spec = none) (t : Team) (word : Word)
    (cs : List Check) (f : TrapKind × Nat × DWord × Nat) : LeavesBytes s c t (takeKind s s.cur c t word cs f) :=
  leavesBytes_ite (.inr (.inr ⟨_, _, rfl⟩)) (.inr (.inl ⟨_, trapOrStop_raises hc hs _⟩))
theorem leavesBytes_takeAccess {s s' : State} {c : Crew} {t : Team} {word : Word} {cs : List Check} (hc : s.crew? s.cur = some c)
    (hs : c.spec = none) (e : takeAccess s s.cur c t word cs = some s') : LeavesBytes s c t s' := by
  obtain ⟨f, -, rfl⟩ := Option.map_eq_some_iff.mp e
  exact leavesBytes_takeKind hc hs ..

/-- An instruction whose crew may issue it outside speculation, with no held fault, leaves every byte as it is or takes a trap or a demand fault. -/
def IssueLeavesBytes (i : Instr) : Prop :=
  ∀ s s1 c t s', ready s i = some (s1, c, t) → s1.crew? s1.cur = some c → c.spec = none → c.held = [] → exec i s = .next s' →
    SameBytes s s' ∨ (∃ info, s' = raise s1 s1.cur info) ∨ ∃ info pages, s' = demandFault s1 s1.cur c t info pages

/-- An instruction that may issue acts, or its crew stalls because a record that it would emit finds no reservation (R410). -/
theorem issue_of_mayIssue {s s1 : State} {need : Crew → Team → Need} {c : Crew} {t : Team} (h : mayIssue s need = some (s1, c, t))
    (body : State → Crew → Team → State) :
    ∃ c0, issue s need body = .next (orStall s s.cur c0 (body s1 c t)) ∧ s1 = (endStall s s.cur c0).1 := by
  unfold mayIssue at h
  split at h
  · cases h
  · next c0 hc =>
    split at h
    · cases h
    · next t0 ht =>
      dsimp only at h
      split at h
      · cases h
      · next hn =>
        simp only [Bool.or_eq_true, not_or, Bool.not_eq_true, Bool.not_eq_false', Option.isSome_eq_false_iff, Option.isNone_iff_eq_none] at hn
        obtain ⟨⟨⟨⟨⟨⟨hb, hstart⟩, htrace⟩, hz⟩, hf⟩, hheld⟩, hstop⟩ := hn
        split at h
        · cases h
        · next c' hshadow =>
          split at h
          · cases h
          · cases h
            refine ⟨c0, ?_, rfl⟩
            rw [issue_of_unhindered hc ht hb hstart htrace hz]
            have unchanged : (endStall s s.cur c0).2.held = c0.held ∧ (endStall s s.cur c0).2.spec = c0.spec := by
              rw [endStall_crew]; exact ⟨rfl, rfl⟩
            unfold issueNow issueBody
            simp [hf, unchanged, hheld, hstop, hshadow]

theorem issueLeavesBytes_of_body {i : Instr} {body : State → Crew → Team → State} (hx : ∀ s, exec i s = issue s (needOf s i) body)
    (hb : ∀ s c t, s.crew? s.cur = some c → c.spec = none → c.held = [] → LeavesBytes s c t (body s c t)) : IssueLeavesBytes i := by
  intro s s1 c t s' hr hc hs hh e
  obtain ⟨c0, e0, e1⟩ := issue_of_mayIssue hr body
  have e' : s' = orStall s s.cur c0 (body s1 c t) := by
    rw [hx, e0] at e
    exact (Host.Outcome.next.inj e).symm
  unfold orStall at e'
  split at e'
  · exact .inl (e' ▸ (sameStore_stallCrew ..).sameBytes)
  · subst e'
    refine (hb s1 c t hc hs hh).imp_left fun h => ?_
    subst e1
    exact ((sameStore_endStall ..).trans h).sameBytes

/-- The checks of an access are followed by what leaves every byte as it is. -/
theorem leavesBytes_access {s b : State} {c : Crew} {t : Team} {word : Word} {cs : List Check} (hc : s.crew? s.cur = some c)
    (hs : c.spec = none) (hb : SameStore s b) : LeavesBytes s c t (match takeAccess s s.cur c t word cs with | some s => s | none => b) := by
  split
  · next e => exact leavesBytes_takeAccess hc hs e
  · exact .inl hb
/-- So are those of a scratchpad operand. -/
theorem leavesBytes_operand {s b : State} {c : Crew} {t : Team} {word : Word} {o : Option (List Check × TrapKind × Nat × DWord × Nat)}
    (hc : s.crew? s.cur = some c) (hs : c.spec = none) (hb : LeavesBytes s c t b) :
    LeavesBytes s c t (match o with | some (cs, f) => takeKind s s.cur c t word cs f | none => b) := by
  split
  · exact leavesBytes_takeKind hc hs ..
  · exact hb

/-- With no held fault an instruction with a shape acts on its record, or does nothing where the handle has none. -/
theorem leavesBytes_shape {s r : State} {c : Crew} {t : Team} {h : Nat} {body : Shape → State} (hh : c.held = [])
    (hb : ∀ sh, LeavesBytes s c t (body sh)) :
    LeavesBytes s c t (if shapeHeld c h then r else match Tbl.get? t.shapes h with | none => s | some sh => body sh) := by
  rw [if_neg (by simp [shapeHeld, hh])]
  split
  · exact .inl (.refl s)
  · exact hb _
/-- An instruction that is complete at issue. -/
theorem sameStore_retireDone (s : State) (key : Nat) (c c' : Crew) (cls : Cls) (kind : OpKind) (word : Word) :
    SameStore s (retire (addDone s key c cls kind word) c') := (sameStore_addDone ..).trans (sameStore_retire ..)
/-- One that adds an operation. -/
theorem sameStore_retireOp (s : State) (o : Op) (c : Crew) : SameStore s (retire (addOp s o) c) := (sameStore_addOp ..).trans (sameStore_retire ..)

theorem issueLeavesBytes_ld (d : VReg) (a : SReg) (b : VReg) : IssueLeavesBytes (.ld d a b) :=
  issueLeavesBytes_of_body (fun _ => rfl) fun _ _ _ hc hs _ =>
    leavesBytes_access hc hs (sameStore_ite (sameStore_retireDone ..) (sameStore_issueLoad ..))
theorem issueLeavesBytes_st (d : VReg) (a : SReg) (b : VReg) : IssueLeavesBytes (.st d a b) :=
  issueLeavesBytes_of_body (fun _ => rfl) fun _ _ _ hc hs _ =>
    leavesBytes_access hc hs (sameStore_ite (sameStore_retireDone ..) (sameStore_issueStore ..))
theorem issueLeavesBytes_ldt (d : VReg) (h : BitVec 4) (b : SReg) : IssueLeavesBytes (.ldt d h b) :=
  issueLeavesBytes_of_body (fun _ => rfl) fun _ _ _ hc hs hh => leavesBytes_shape hh fun _ =>
    leavesBytes_ite (leavesBytes_trapAt hc hs ..) <|
      leavesBytes_access hc hs (sameStore_ite (sameStore_retireDone ..) (sameStore_issueLoad ..))
theorem issueLeavesBytes_stt (d : VReg) (h : BitVec 4) (b : SReg) : IssueLeavesBytes (.stt d h b) :=
  issueLeavesBytes_of_body (fun _ => rfl) fun _ _ _ hc hs hh => leavesBytes_shape hh fun _ =>
    leavesBytes_ite (leavesBytes_trapAt hc hs ..) <|
      leavesBytes_access hc hs <| sameStore_ite (sameStore_issueStore ..) <|
        sameStore_ite ((sameStore_closeRegion ..).trans (sameStore_retireDone ..)) (sameStore_retireDone ..)
theorem issueLeavesBytes_shape (d : BitVec 4) (a : SReg) : IssueLeavesBytes (.shape d a) :=
  issueLeavesBytes_of_body (fun _ => rfl) fun _ _ _ hc hs _ => leavesBytes_access hc hs (sameStore_retireOp ..)
theorem issueLeavesBytes_pref (l : BitVec 1) (a : SReg) (b : VReg) : IssueLeavesBytes (.pref l a b) :=
  issueLeavesBytes_of_body (fun _ => rfl) fun _ _ _ _ _ _ =>
    .inl ((sameStore_foldl (fun _ _ => sameStore_prefetch ..) _ _).trans (sameStore_retire ..))
theorem issueLeavesBytes_flush (a b : SReg) : IssueLeavesBytes (.flush a b) :=
  issueLeavesBytes_of_body (fun _ => rfl) fun _ _ _ hc hs _ =>
    leavesBytes_ite (leavesBytes_trapAt hc hs ..) <| leavesBytes_ite (.inl (sameStore_retireDone ..)) <|
      leavesBytes_ite (leavesBytes_trapAt hc hs ..) <| leavesBytes_ite (leavesBytes_trapAt hc hs ..) (.inl (sameStore_retireOp ..))
theorem issueLeavesBytes_fence (f : BitVec 3) (o : BitVec 2) : IssueLeavesBytes (.fence f o) :=
  issueLeavesBytes_of_body (fun _ => rfl) fun s _ _ _ _ _ => .inl <|
    (sameStore_ite (sameStore_closeRegion ..) (.refl s)).trans <|
      sameStore_ite ((sameStore_ite (sameStore_applyInvs ..) (.refl _)).trans (sameStore_retire ..)) (sameStore_setCrew ..)
theorem issueLeavesBytes_regionClose : IssueLeavesBytes .regionClose :=
  issueLeavesBytes_of_body (fun _ => rfl) fun _ _ _ _ _ _ => .inl ((sameStore_closeRegion ..).trans (sameStore_retire ..))
theorem issueLeavesBytes_regionOpen : IssueLeavesBytes .regionOpen :=
  issueLeavesBytes_of_body (fun _ => rfl) fun _ _ _ _ _ _ => .inl ((sameStore_closeRegion ..).trans (sameStore_retire ..))

/-- CPY4, CPY8 and CPY16 (R239). -/
theorem leavesBytes_copyLanes {s : State} {c : Crew} {t : Team} {word : Word} {cs : List Check} {p : Prop} [Decidable p] {kind : OpKind}
    {sem : Nat} {closes : Bool} {parts : List CopyPart} (hc : s.crew? s.cur = some c) (hs : c.spec = none) :
    LeavesBytes s c t (match takeAccess s s.cur c t word cs with
      | some s => s
      | none => if p then retire (addDone s s.cur c .copy kind word) c else issueCopy s c word sem closes parts) :=
  leavesBytes_access hc hs (sameStore_ite (sameStore_retireDone ..) (sameStore_issueCopy ..))
theorem issueLeavesBytes_cpyt (d : BitVec 6) (h : BitVec 4) (b : SReg) : IssueLeavesBytes (.cpyt d h b) :=
  issueLeavesBytes_of_body (fun _ => rfl) fun _ _ _ hc hs hh => leavesBytes_shape hh fun _ =>
    leavesBytes_ite (leavesBytes_trapAt hc hs ..) <| leavesBytes_ite (leavesBytes_trapAt hc hs ..) <|
      leavesBytes_operand hc hs (.inl (sameStore_issueCopy ..))

theorem issueLeavesBytes_semset (d : BitVec 6) (a : SReg) : IssueLeavesBytes (.semset d a) :=
  issueLeavesBytes_of_body (fun _ => rfl) fun _ _ _ hc hs _ =>
    leavesBytes_ite (leavesBytes_trapAt hc hs ..) <| .inl <| (sameStore_closeRegion ..).trans <|
      sameStore_ite ((sameStore_retire ..).trans (sameStore_modTeam ..)) (sameStore_setCrew ..)
theorem issueLeavesBytes_semacq (d : BitVec 6) (a : SReg) : IssueLeavesBytes (.semacq d a) :=
  issueLeavesBytes_of_body (fun _ => rfl) fun s _ _ hc hs _ =>
    leavesBytes_ite (leavesBytes_trapAt hc hs ..) <| .inl <| sameStore_ite (sameStore_retire ..) <| sameStore_ite (.refl s) <|
      sameStore_ite (sameStore_takeSem ..) <| sameStore_ite (.refl s) (sameStore_modTeam ..)
theorem issueLeavesBytes_semtry (d : SReg) (a : BitVec 6) : IssueLeavesBytes (.semtry d a) :=
  issueLeavesBytes_of_body (fun _ => rfl) fun s _ _ _ _ _ =>
    .inl <| sameStore_ite (sameStore_ite (.refl s) (sameStore_takeSem ..)) (sameStore_retire ..)
theorem issueLeavesBytes_semrd (d : SReg) (a : BitVec 6) : IssueLeavesBytes (.semrd d a) :=
  issueLeavesBytes_of_body (fun _ => rfl) fun _ _ _ _ _ _ => .inl (sameStore_retire ..)

theorem issueLeavesBytes_mmas (d : BitVec 6) (a b : SReg) : IssueLeavesBytes (.mmas d a b) :=
  issueLeavesBytes_of_body (fun _ => rfl) fun s _ _ hc hs _ =>
    leavesBytes_operand hc hs (leavesBytes_operand hc hs (leavesBytes_ite (.inl (sameStore_issueTile ..)) (.inl (.refl s))))
theorem issueLeavesBytes_tilez (d : BitVec 6) : IssueLeavesBytes (.tilez d) :=
  issueLeavesBytes_of_body (fun _ => rfl) fun _ _ _ _ _ _ => .inl (sameStore_issueTile ..)
theorem issueLeavesBytes_tld (d : BitVec 6) (a : SReg) : IssueLeavesBytes (.tld d a) :=
  issueLeavesBytes_of_body (fun _ => rfl) fun s _ _ hc hs _ =>
    leavesBytes_operand hc hs (leavesBytes_ite (.inl (sameStore_issueTile ..)) (.inl (.refl s)))
theorem issueLeavesBytes_tdrn (d : BitVec 6) (a : SReg) : IssueLeavesBytes (.tdrn d a) :=
  issueLeavesBytes_of_body (fun _ => rfl) fun _ _ _ hc hs _ => leavesBytes_operand hc hs (.inl (sameStore_issueDrain ..))
theorem issueLeavesBytes_tdrm (d : BitVec 6) (a b : SReg) : IssueLeavesBytes (.tdrm d a b) :=
  issueLeavesBytes_of_body (fun _ => rfl) fun _ _ _ hc hs _ =>
    leavesBytes_ite (leavesBytes_trapAt hc hs ..) (leavesBytes_access hc hs (sameStore_issueDrain ..))

/-! A demand fault of an atomic (R291). Its checks see a team whose image gives no permission; the pages that it asks for are asked for with the needs of
the team as it is, because each of them holds a byte that other ranges let the atomic both read and write. -/

/-- The kind that R176 takes first is of the lowest rank. -/
theorem firstKind_rank_le {l : List TrapKind} {j : TrapKind} (hj : j ∈ l) : ∃ k, firstKind l = some k ∧ k.rank ≤ j.rank := by
  induction l with
  | nil => cases hj
  | cons x t ih =>
    unfold firstKind
    cases e : firstKind t with
    | none =>
      cases hj with
      | head => exact ⟨_, rfl, Nat.le_refl _⟩
      | tail _ h => obtain ⟨k, hk, -⟩ := ih h; rw [e] at hk; cases hk
    | some y =>
      have hy : j = x ∨ y.rank ≤ j.rank := by
        cases hj with
        | head => exact .inl rfl
        | tail _ h => obtain ⟨k, hk, hle⟩ := ih h; rw [e] at hk; cases hk; exact .inr hle
      dsimp only
      split
      · exact ⟨_, rfl, by rcases hy with rfl | h <;> omega⟩
      · exact ⟨_, rfl, by rcases hy with rfl | h <;> omega⟩
/-- No fault of the checks is of a lower rank than the one that is taken. -/
theorem laneFault_rank_le {cs : List Check} {f : TrapKind × Nat × DWord × Nat} (h : laneFault cs = some f) {x : Check} (hx : x ∈ cs)
    {j : TrapKind} (hj : j ∈ x.faults) : f.1.rank ≤ j.rank := by
  obtain ⟨k, hk, hkj⟩ := firstKind_rank_le hj
  obtain ⟨k', hk', hle⟩ := firstKind_rank_le (l := cs.filterMap fun c => firstKind c.faults) (List.mem_filterMap.mpr ⟨x, hx, hk⟩)
  have e : f.1 = k' := by
    unfold laneFault at h
    rw [hk'] at h
    dsimp only at h
    split at h
    · cases h
    · cases h; rfl
  rw [e]
  omega

/-- A byte that meets neither a range nor a permission fault lies in an extent that permits the access (R173). -/
theorem checkByte_permits {t : Team} {ld st : Bool} {va : Nat} (h : ∀ k, checkByte t ld st va = some k → 4 ≤ k.rank) :
    ∃ e ∈ t.extents, e.has va = true ∧ e.permits ld st = true := by
  unfold checkByte at h
  dsimp only at h
  split at h
  · exact absurd (h _ rfl) (by decide)
  · split at h
    · exact absurd (h _ rfl) (by decide)
    · next hp =>
      obtain ⟨e, he⟩ := List.exists_mem_of_ne_nil _ (fun h => hp (List.isEmpty_iff.mpr h))
      obtain ⟨he, hperm⟩ := List.mem_filter.mp he
      obtain ⟨he, hhas⟩ := List.mem_filter.mp he
      exact ⟨e, he, hhas, hperm⟩
/-- An extent that the team without its image's permissions may read or write is one of the team. -/
theorem mem_of_noImage {t : Team} {e : Extent} (he : e ∈ (noImage t).extents) (h : e.r = true ∨ e.w = true) : e ∈ t.extents := by
  obtain ⟨e0, h0, rfl⟩ := List.mem_map.mp he
  split at h
  · simp at h
  · next hr => rw [if_neg hr]; exact h0
/-- A page's need is that of any extent that holds a byte of it (R458). -/
theorem pageNeed_of_mem {t : Team} {e : Extent} {va : Nat} (he : e ∈ t.extents) (hv : e.has va = true) :
    (e.r = true → (t.pageNeed (va / 65536)).1 = true) ∧ (e.w = true → (t.pageNeed (va / 65536)).2 = true) := by
  have hv' : e.vlo ≤ va ∧ va < e.vhi := of_decide_eq_true hv
  have hm : e ∈ t.extents.filter fun e => decide (va / 65536 * 65536 < e.vhi ∧ e.vlo < va / 65536 * 65536 + 65536) :=
    List.mem_filter.mpr ⟨he, decide_eq_true (by omega)⟩
  exact ⟨fun h => List.any_eq_true.mpr ⟨e, hm, h⟩, fun h => List.any_eq_true.mpr ⟨e, hm, h⟩⟩

/-- Neither outcome of a test is a demand fault. -/
theorem demand_not_mem_ite {p : Prop} [Decidable p] {a b : List TrapKind} (ha : .demand ∉ a) (hb : .demand ∉ b) :
    .demand ∉ if p then a else b := by
  split <;> assumption
/-- Only an access of a global address meets a demand fault. -/
theorem placeOf_of_demand {t : Team} {ld st local_ mirror : Bool} {align va size : Nat}
    (h : TrapKind.demand ∈ accessFaults t ld st local_ mirror align va size) : placeOf va = .global := by
  unfold accessFaults at h
  have aligned : TrapKind.demand ∉ if va % align = 0 then [] else [.misaligned] := demand_not_mem_ite nofun (by decide)
  replace h := (List.mem_append.mp h).resolve_right aligned
  cases e : placeOf va with
  | global => rfl
  | bad =>
    rw [e] at h
    exact absurd h (show TrapKind.demand ∉ [TrapKind.address] by decide)
  | scratch o | mirror o =>
    rw [e] at h
    exact absurd h (demand_not_mem_ite (by decide) (demand_not_mem_ite nofun (by decide)))
/-- What a byte of a global access meets the access meets. -/
theorem mem_accessFaults {t : Team} {ld st local_ mirror : Bool} {align va size i : Nat} {k : TrapKind} (hg : placeOf va = .global)
    (hi : i < size) (hk : k ∈ if placeOf (va + i) = .global then byteFaults t ld st (va + i) else [.address]) :
    k ∈ accessFaults t ld st local_ mirror align va size := by
  unfold accessFaults
  rw [hg]
  exact List.mem_append_left _ (List.mem_flatMap.mpr ⟨i, List.mem_range.mpr hi, hk⟩)
/-- The check of an atomic that meets a demand fault is that of one of its lanes, which it reads and writes. -/
theorem atomicChecks_of_demand {op : AtomicOp} {m : DWord} {t : Team} {as : List (Nat × Nat)} {x : Check} (hx : x ∈ atomicChecks op m t as)
    (hd : TrapKind.demand ∈ x.faults) :
    x.access = 2 ∧ ∃ align, x.faults = accessFaults (noImage t) true true false false align x.va x.size := by
  obtain ⟨y, hy, rfl⟩ := List.mem_map.mp hx
  obtain ⟨q, -, rfl⟩ := List.mem_map.mp hy
  dsimp only at hd ⊢
  split
  · next hc => simp [hc] at hd
  · exact ⟨rfl, _, rfl⟩

/-- A page of a demand fault of an atomic has the same need with the image's permissions and without. -/
theorem pageNeed_noImage {op : AtomicOp} {m : DWord} {t : Team} {as : List (Nat × Nat)} {f : TrapKind × Nat × DWord × Nat}
    (hf : laneFault (atomicChecks op m t as) = some f) (hd : f.1 = .demand) {x : Check} (hx : x ∈ atomicChecks op m t as)
    (hxd : TrapKind.demand ∈ x.faults) {p : Nat} (hp : p ∈ demandPages (noImage t) x) : (noImage t).pageNeed p = t.pageNeed p := by
  obtain ⟨-, align, hfaults⟩ := atomicChecks_of_demand hx hxd
  obtain ⟨-, hp⟩ := List.mem_filter.mp hp
  obtain ⟨i, hi, hp⟩ := List.any_eq_true.mp hp
  simp only [Bool.and_eq_true, decide_eq_true_eq] at hp
  obtain ⟨rfl, -⟩ := hp
  have late : ∀ k ∈ if placeOf (x.va + i) = .global then byteFaults (noImage t) true true (x.va + i) else [.address], 4 ≤ k.rank := by
    intro k hk
    have := laneFault_rank_le hf hx (hfaults ▸ mem_accessFaults (placeOf_of_demand (hfaults ▸ hxd)) (List.mem_range.mp hi) hk)
    rwa [hd] at this
  have hg : placeOf (x.va + i) = .global := by
    refine Decidable.byContradiction fun hg => ?_
    rw [if_neg hg] at late
    exact absurd (late _ List.mem_cons_self) (by decide)
  rw [if_pos hg] at late
  obtain ⟨e, he, hev, her⟩ := checkByte_permits (t := noImage t) (ld := true) (st := false) (va := x.va + i) fun k hk =>
    late k (List.mem_append_left _ (by simp [hk]))
  obtain ⟨e', he', hev', hew⟩ := checkByte_permits (t := noImage t) (ld := false) (st := true) (va := x.va + i) fun k hk =>
    late k (List.mem_append_right _ (by simp [hk]))
  have hr : e.r = true := by simpa [Extent.permits] using her
  have hw : e'.w = true := by simpa [Extent.permits] using hew
  have n1 : (noImage t).pageNeed ((x.va + i) / 65536) = (true, true) :=
    Prod.ext ((pageNeed_of_mem he hev).1 hr) ((pageNeed_of_mem he' hev').2 hw)
  have n2 : t.pageNeed ((x.va + i) / 65536) = (true, true) :=
    Prod.ext ((pageNeed_of_mem (mem_of_noImage he (.inl hr)) hev).1 hr) ((pageNeed_of_mem (mem_of_noImage he' (.inr hw)) hev').2 hw)
  exact n1.trans n2.symm

theorem mem_insertKey {α : Type} {f : α → Nat} {x y : α} {l : List α} (h : y ∈ insertKey f x l) : y = x ∨ y ∈ l := by
  induction l with
  | nil => simpa [insertKey] using h
  | cons z t ih =>
    unfold insertKey at h
    split at h
    · simpa using h
    · rcases List.mem_cons.mp h with rfl | h
      · exact .inr List.mem_cons_self
      · exact (ih h).imp_right (List.mem_cons_of_mem _)
theorem mem_of_mem_sortKey {α : Type} {f : α → Nat} {y : α} {l : List α} (h : y ∈ sortKey f l) : y ∈ l := by
  have sub : ∀ (l r : List α), y ∈ l.foldl (fun r x => insertKey f x r) r → y ∈ r ∨ y ∈ l := by
    intro l
    induction l with
    | nil => exact fun r h => .inl h
    | cons x t ih =>
      intro r h
      rcases ih _ h with h | h
      · exact (mem_insertKey h).elim (fun e => .inr (e ▸ List.mem_cons_self)) .inl
      · exact .inr (List.mem_cons_of_mem _ h)
  exact (sub l [] h).resolve_left List.not_mem_nil

/-- Page requests depend on a team's context and on the needs of the pages alone. -/
theorem demandFault_congr {s : State} {key : Nat} {c : Crew} {t u : Team} {info : TrapInfo} {pages : List Nat} (hctx : u.ctx = t.ctx)
    (hneed : ∀ p ∈ pages, u.pageNeed p = t.pageNeed p) : demandFault s key c u info pages = demandFault s key c t info pages := by
  have e : requestPages s (coreOf key) c.team u pages = requestPages s (coreOf key) c.team t pages :=
    List.foldl_rel (r := Eq) rfl fun p hp s _ h => by rw [h, hctx, hneed p hp]
  unfold demandFault
  rw [e]
/-- The checks of an atomic take its trap or demand fault, or are followed by what leaves every byte as it is. -/
theorem leavesBytes_atomicAccess {s b : State} {c : Crew} {t : Team} {word : Word} {op : AtomicOp} {m : DWord} {as : List (Nat × Nat)}
    (hc : s.crew? s.cur = some c) (hs : c.spec = none) (hb : SameStore s b) :
    LeavesBytes s c t (match takeAccess s s.cur c (noImage t) word (atomicChecks op m t as) with | some s => s | none => b) := by
  split
  · next s' e =>
    obtain ⟨f, hf, rfl⟩ := Option.map_eq_some_iff.mp e
    unfold takeKind
    dsimp only
    split
    · next hd =>
      refine .inr (.inr ⟨_, _, demandFault_congr rfl fun p hp => ?_⟩)
      obtain ⟨x, hx, hp⟩ := List.mem_flatMap.mp (List.mem_eraseDups.mp hp)
      obtain ⟨hx, hxd⟩ := List.mem_filter.mp (mem_of_mem_sortKey hx)
      exact pageNeed_noImage hf hd hx (by simpa using hxd) hp
    · exact .inr (.inl ⟨_, trapOrStop_raises hc hs _⟩)
  · exact .inl hb
/-- AADD to ACAS (R290, R291). -/
theorem leavesBytes_atomic {s : State} {c c' c'' : Crew} {t : Team} {word : Word} {op : AtomicOp} {m : DWord} {as : List (Nat × Nat)}
    {p : Prop} [Decidable p] {kind : OpKind} {o : Op} (hc : s.crew? s.cur = some c) (hs : c.spec = none) :
    LeavesBytes s c t (match takeAccess s s.cur c (noImage t) word (atomicChecks op m t as) with
      | some s => s
      | none => if p then retire (addDone s s.cur c .load kind word) c' else retire (addOp (closeRegion s s.cur c.pc word) o) c'') :=
  leavesBytes_atomicAccess hc hs (sameStore_ite (sameStore_retireDone ..) ((sameStore_closeRegion ..).trans (sameStore_retireOp ..)))

end Machine

open Machine in
/-- Settles O46: each of the instructions moves lines, adds an operation or waits, or its checks take a trap or a demand fault. -/
theorem issueChangesNoByte : Obligations.IssueChangesNoByte := by
  unfold Obligations.IssueChangesNoByte
  intro f o l h n m d a b sa sb i hi
  suffices hl : IssueLeavesBytes i from hl
  simp only [List.mem_cons, List.not_mem_nil, or_false] at hi
  rcases hi with rfl | rfl | rfl | rfl | rfl | rfl | rfl | rfl | rfl | rfl | rfl | rfl | rfl | rfl | rfl | rfl | rfl | rfl | rfl | rfl | rfl |
    rfl | rfl | rfl | rfl | rfl | rfl | rfl | rfl | rfl | rfl
  · exact issueLeavesBytes_ld d sa b
  · exact issueLeavesBytes_st d sa b
  · exact issueLeavesBytes_ldt d h sa
  · exact issueLeavesBytes_stt d h sa
  · exact issueLeavesBytes_shape h sa
  · exact issueLeavesBytes_pref l sa b
  · exact issueLeavesBytes_flush sa sb
  · exact issueLeavesBytes_fence f o
  iterate 3 exact issueLeavesBytes_of_body (fun _ => rfl) fun _ _ _ hc hs _ => leavesBytes_copyLanes hc hs
  · exact issueLeavesBytes_cpyt n h sa
  · exact issueLeavesBytes_semset n sa
  · exact issueLeavesBytes_semacq n sa
  · exact issueLeavesBytes_semtry sa n
  · exact issueLeavesBytes_semrd sa n
  iterate 8 exact issueLeavesBytes_of_body (fun _ => rfl) fun _ _ _ hc hs _ => leavesBytes_atomic hc hs
  · exact issueLeavesBytes_mmas n sa sb
  · exact issueLeavesBytes_tilez m
  · exact issueLeavesBytes_tld m sa
  · exact issueLeavesBytes_tdrn m sa
  · exact issueLeavesBytes_tdrm m sa sb
  · exact issueLeavesBytes_regionClose
  · exact issueLeavesBytes_regionOpen

end Sys2Proof
end

section
/-! PROOF. Atomics on a line that the issuing core holds dirty with a poisoned word (R291, R375): the core's own copy goes to the home segment before
the step reads the location, and its poison with it. -/
namespace Sys2Proof

namespace Machine

/-- An atomic of core 0 with one lane, which adds one to the word at address 0. -/
def addOneLane : Acc := { data := 1 }
def addOne : Op := { crew := 0, team := 0, core := 0, cls := some .load, kind := .atomic .add 7 0, accs := [addOneLane] }
/-- Core 0 holds line 0 dirty, and its first word poisoned; no granule of memory is poisoned, and `addOne` is outstanding. -/
def poisonInOwnCopy : State :=
  { State.reset with
    ops := [(0, addOne)]
    cores := [(0, { l1 := [(0, { way := 0, set := 0, key := 0, bytes := List.replicate 128 0, pois := [0], dirty := true })] })] }

/-- How the lanes of operation 0 stand after an event. -/
def lanesAfter (r : Host.Outcome State Fault Refusal) : Option (List AccSt) :=
  match r with
  | .next s => (Tbl.get? s.ops 0).map fun o => o.accs.map (·.st)
  | _ => none
/-- The step finds the location poisoned, although no granule was before it. -/
theorem atomicStep_poisonInOwnCopy : lanesAfter (exec (.atomicStep 0 0) poisonInOwnCopy) = some [.refused 0] := by decide
theorem performable_poisonInOwnCopy : performable poisonInOwnCopy 0 addOne addOneLane = true := by decide

end Machine

open Machine in
/-- Refutes O48: the clause on ATOMIC_STEP asks that memory hold no poison where the atomic acts, and says that its lane then takes the old value.
A dirty copy in the issuing core's own L1 may hold the word poisoned: dropping that copy poisons the sector before the step reads it, and the lane
is refused. -/
theorem not_operationEvents : ¬ Obligations.OperationEvents := by
  unfold Obligations.OperationEvents
  rintro ⟨-, atomicStep, -⟩
  obtain ⟨s', e, ⟨o', ho, ha⟩, -, -⟩ := atomicStep 0 0 poisonInOwnCopy addOne addOneLane .add 7 0
    ⟨fun _ h => absurd h List.not_mem_nil, fun _ h => absurd h List.not_mem_nil, rfl⟩
    rfl rfl rfl rfl rfl rfl
    performable_poisonInOwnCopy rfl
  have refused := atomicStep_poisonInOwnCopy
  have done : o'.accs.map (·.st) = [.done] := by rw [ha]; rfl
  simp [e, lanesAfter, ho, done] at refused

end Sys2Proof
end

section
/-! PROOF. The vector instructions on lanes and on units (R139 to R142, R144, R145, R147, R151 to R153). -/
namespace Sys2Proof

namespace Machine

/-- Of its crew, what writes lanes of one register changes the vector registers alone. -/
theorem mapLanes_only (c : Crew) (w d : Nat) (f : Nat → Word) : c.mapLanes w d f = { c with vregs := (c.mapLanes w d f).vregs } :=
  setLanes_only ..
/-- An active lane of the register reads as the new value, and every other lane as before. -/
theorem mapLanes_getV (c : Crew) {w : Nat} (d : Nat) (f : Nat → Word) (hw : w ≤ 64) (r : Nat) {l : Nat} (hl : l < 64) :
    (c.mapLanes w d f).getV r l = if r = d ∧ c.isActive w l = true then f l else c.getV r l := by
  rw [Crew.mapLanes, setLanes_getV c d _ f (fun l h => Nat.lt_of_lt_of_le (actives_lt c w l h) hw) r l hl]
  simp only [mem_actives]
/-- An instruction whose lanes need the team, and that never rounds. -/
theorem laneResults_of_mapLanes {i : Instr} {d : VReg} {f : Crew → Team → Nat → Word}
    (hx : ∀ s, exec i s = issue s (needOf s i) fun s c t => retire s (c.mapLanes t.width d.toNat (f c t))) :
    LaneResults i d (fun _ => false) f :=
  gives_of_body hx fun _ c t hw => ⟨⟨_, rfl, fun r _ hl => mapLanes_getV c d.toNat (f c t) hw r hl, mapLanes_only ..⟩, rfl⟩

/-- Where a lane is selected, the selected lanes are those below it, itself and those above. -/
theorem selected_eq_append {w l : Nat} {m : DWord} (hl : l < w) (hm : m.getLsbD l = true) :
    ∃ above, selected w m = (List.range l).filter m.getLsbD ++ l :: above := by
  obtain ⟨k, rfl⟩ := Nat.exists_eq_add_of_lt hl
  refine ⟨(((List.range k).map Nat.succ).map (l + ·)).filter m.getLsbD, ?_⟩
  rw [selected, below, Nat.add_assoc, List.range_add, List.range_succ_eq_map, List.filter_append]
  simp [hm]
theorem contains_selected {w l : Nat} {m : DWord} (hl : l < w) : (selected w m).contains l = m.getLsbD l := by
  rw [Bool.eq_iff_iff]
  simp [selected, below, hl]
/-- The place of a selected lane among the selected lanes is the number of those below it (R151). -/
theorem idxOf_selected {w l : Nat} {m : DWord} (hl : l < w) (hm : m.getLsbD l = true) :
    (selected w m).idxOf l = ((List.range l).filter m.getLsbD).length := by
  obtain ⟨above, e⟩ := selected_eq_append hl hm
  rw [e, List.idxOf_append, if_neg (by simp), List.idxOf_cons_self, Nat.zero_add]

theorem isActive_lt {c : Crew} {w l : Nat} (h : c.isActive w l = true) : l < w := actives_lt c w l ((mem_actives c w l).mpr h)

end Machine

open Machine in
/-- Settles O20: each lane of these instructions is the lane that `mapLanes` writes. -/
theorem vectorArithmetic : Obligations.VectorArithmetic := by
  unfold Obligations.VectorArithmetic
  refine ⟨fun d a b => ?_, fun d a b => ?_, fun d a b => ?_, fun d a b => ?_, fun d a b => ?_, fun d a b => ?_, fun d a b => ?_,
    fun d a b => ?_, fun d => ?_⟩
  all_goals exact laneResults_of_laneOp (fun _ => rfl) (fun _ _ _ _ => rfl) rfl

open Machine in
/-- Settles O21: each unit of these instructions is the unit that `mapUnits` writes. -/
theorem vectorUnits : Obligations.VectorUnits := by
  unfold Obligations.VectorUnits
  refine ⟨fun d a b => ?_, fun d a b => ?_, fun d a b => ?_, fun d a => ?_, fun d a => ?_, fun d a b => ?_, fun d a b => ?_⟩
  all_goals exact unitResults_of_unitOp (fun _ => rfl) fun _ _ _ _ => rfl

open Machine in
/-- Settles O22: an active lane is below the width, so VEXPD finds its place among the selected lanes by counting those below it. -/
theorem vectorSelection : Obligations.VectorSelection := by
  unfold Obligations.VectorSelection
  refine ⟨fun d a b => ?_, fun d a b => ?_, fun d a b => ?_⟩
  · exact unitResults_of_unitOp (fun _ => rfl) fun _ _ _ _ => rfl
  · refine unitResults_of_unitOp (fun _ => rfl) fun c t l hl => ?_
    rw [contains_selected (isActive_lt hl)]
    split
    · next hm => rw [idxOf_selected (isActive_lt hl) hm]
    · rfl
  · exact laneResults_of_mapLanes fun _ => rfl

end Sys2Proof
end

section
/-! PROOF. The vector instructions whose result is a scalar (R143, R146, R150): compares, the lane that VEXT takes out, and reductions. -/
namespace Sys2Proof

namespace Machine

/-! Compares. -/

/-- A mask of lanes holds the bits of its lanes. -/
theorem getLsbD_lanesMask (ls : List Nat) {l : Nat} (hl : l < 64) : (lanesMask ls).getLsbD l = ls.contains l := by
  induction ls with
  | nil => simp [lanesMask]
  | cons x t ih =>
    have hbit : (1#64 <<< x).getLsbD l = (l == x) := by
      rw [Bool.eq_iff_iff, BitVec.getLsbD_shiftLeft, BitVec.getLsbD_one]
      simp
      omega
    rw [lanesMask, BitVec.getLsbD_or, hbit, ih, List.contains_cons]
/-- The scalar of a compare says of each lane whether it is active and the comparison holds (R143). -/
theorem gives_of_compareOp {i : Instr} {d : SReg} {cmp : Crew → Nat → Bool}
    (hx : ∀ s, exec i s = issue s (needOf s i) fun s c t => retire s (c.setS d (lanesMask ((c.actives t.width).filter (cmp c))))) :
    Gives i (fun _ _ t => t.width ≤ 64) fun s c t s' => ∃ m : DWord, s' = retire s (c.setS d m) ∧
      ∀ l, l < 64 → m.getLsbD l = (c.isActive t.width l && cmp c l) := by
  refine gives_of_body hx fun s c t _ => ⟨⟨_, rfl, fun l hl => ?_⟩, rfl⟩
  rw [getLsbD_lanesMask _ hl, Bool.eq_iff_iff]
  simp [mem_actives]

/-! Reductions of integers: the sum, the bounds, and the bitwise operations. -/
section Reductions
variable {ty : Nat} (r : Rnd) (xs : List Nat)

theorem reduce_sumI (hf : isFloat ty = false) : reduce ty 0 r xs = narrowI ty r.sat (xs.map (readI ty)).sum := by
  simp [reduce, hf, List.sum_eq_foldl, List.foldl_map]
theorem narrowI_zero (sat : Bool) : narrowI ty sat 0 = 0 := by
  have h0 : readI ty 0 = 0 := by simp [readI]
  obtain ⟨hlo, hhi⟩ := readI_range ty 0
  simp [narrowI, clampI_of_mem (h0 ▸ hlo) (h0 ▸ hhi), lowBits]
theorem reduce_sumF (hf : isFloat ty = true) (hne : xs ≠ []) :
    reduce ty 0 r xs = roundV (fmtOf ty) r (sumV r.rnd (xs.map (readF (fmtOf ty) r.ftz))) := by
  simp [reduce, hf, hne]
/-- The code of an integer that one of the elements reads as reads as that integer. -/
theorem readI_lowBits_of_mem {xs : List Nat} {y : Int} (h : y ∈ xs.map (readI ty)) : readI ty (lowBits ty y) = y := by
  obtain ⟨x, _, rfl⟩ := List.mem_map.mp h
  exact readI_lowBits (readI_range ty x)
/-- The reduction to a minimum gives the code of the least element: no element is above the bound that it starts with. -/
theorem reduce_minI (hf : isFloat ty = false) (hne : xs ≠ []) : reduce ty 1 r xs < 2 ^ tyBits ty ∧
    readI ty (reduce ty 1 r xs) ∈ xs.map (readI ty) ∧ ∀ y ∈ xs, readI ty (reduce ty 1 r xs) ≤ readI ty y := by
  have hne' : xs.map (readI ty) ≠ [] := by simpa using hne
  have hmem := List.min_mem hne'
  obtain ⟨x, _, hx⟩ := List.mem_map.mp hmem
  have e : reduce ty 1 r xs = lowBits ty ((xs.map (readI ty)).min hne') := by
    simp only [reduce, hf, Bool.false_eq_true, if_false]
    rw [List.foldl_min_eq_min hne', Int.min_eq_right (hx ▸ (readI_range ty x).2)]
  rw [e, readI_lowBits_of_mem hmem]
  exact ⟨lowBits_lt .., hmem, fun y hy => List.min_le_of_mem (List.mem_map_of_mem hy)⟩
/-- To a maximum, the code of the greatest. -/
theorem reduce_maxI (hf : isFloat ty = false) (hne : xs ≠ []) : reduce ty 2 r xs < 2 ^ tyBits ty ∧
    readI ty (reduce ty 2 r xs) ∈ xs.map (readI ty) ∧ ∀ y ∈ xs, readI ty y ≤ readI ty (reduce ty 2 r xs) := by
  have hne' : xs.map (readI ty) ≠ [] := by simpa using hne
  have hmem := List.max_mem hne'
  obtain ⟨x, _, hx⟩ := List.mem_map.mp hmem
  have e : reduce ty 2 r xs = lowBits ty ((xs.map (readI ty)).max hne') := by
    simp only [reduce, hf, Bool.false_eq_true, if_false]
    rw [List.foldl_max_eq_max hne', Int.max_eq_right (hx ▸ (readI_range ty x).1)]
  rw [e, readI_lowBits_of_mem hmem]
  exact ⟨lowBits_lt .., hmem, fun y hy => List.le_max_of_mem (List.mem_map_of_mem hy)⟩

theorem testBit_foldl_and (a k : Nat) : (xs.foldl (· &&& ·) a).testBit k = (a.testBit k && xs.all (·.testBit k)) := by
  induction xs generalizing a with
  | nil => simp
  | cons x t ih => rw [List.foldl_cons, ih, Nat.testBit_and, List.all_cons, Bool.and_assoc]
theorem testBit_foldl_or (a k : Nat) : (xs.foldl (· ||| ·) a).testBit k = (a.testBit k || xs.any (·.testBit k)) := by
  induction xs generalizing a with
  | nil => simp
  | cons x t ih => rw [List.foldl_cons, ih, Nat.testBit_or, List.any_cons, Bool.or_assoc]
theorem testBit_foldl_xor (a k : Nat) :
    (xs.foldl (· ^^^ ·) a).testBit k = xs.foldl (fun p y => p ^^ y.testBit k) (a.testBit k) :=
  (List.foldl_hom (Nat.testBit · k) fun x y => (Nat.testBit_xor x y k).symm).symm
theorem testBit_reduce_and (k : Nat) : (reduce ty 3 r xs).testBit k = (decide (k < tyBits ty) && xs.all (·.testBit k)) := by
  rw [reduce, testBit_foldl_and, Nat.testBit_two_pow_sub_one]
theorem reduce_and_lt : reduce ty 3 r xs < 2 ^ tyBits ty :=
  Nat.lt_pow_two_of_testBit _ fun k hk => by simp [testBit_reduce_and, Nat.not_lt.mpr hk]

end Reductions

/-! Reductions to a minimum or maximum of floats (R94). -/

/-- Of two values the one that is no NaN, and of two such values the better; the older where neither is better. -/
def pickV (better : Val → Val → Bool) (a b : Val) : Val := if a.isNan then b else if b.isNan then a else if better b a then b else a
theorem minV_eq_pickV : minV = pickV belowV := rfl
theorem maxV_eq_pickV : maxV = pickV fun a b => belowV b a := rfl

theorem isNan_iff {v : Val} : v.isNan = true ↔ v = .nan := by cases v <;> simp [Val.isNan]

/-- An order in which no value is better than itself or than what it is worse than. -/
def StrictV (better : Val → Val → Bool) : Prop :=
  (∀ a, better a a = false) ∧ ∀ a b c, better a b = true → better b c = true → better a c = true
/-- No value is both zeros, so an order of zeros is never followed by another. -/
theorem isZero_true_false (v : Val) : (v.isZero true && v.isZero false) = false := by
  unfold Val.isZero
  split <;> simp
theorem strictV_belowV : StrictV belowV := by
  refine ⟨fun a => ?_, fun a b c hab hbc => ?_⟩
  · simp [belowV, isZero_true_false]
  · have hb := isZero_true_false b
    simp only [belowV, Bool.or_eq_true, Bool.and_eq_true, decide_eq_true_eq] at hab hbc ⊢
    rcases hab with hab | ⟨⟨hab, ha⟩, hz⟩ <;> rcases hbc with hbc | ⟨⟨hbc, hz'⟩, hc⟩
    · exact .inl (Int.lt_trans hab hbc)
    · exact .inl (hbc ▸ hab)
    · exact .inl (hab ▸ hbc)
    · simp [hz, hz'] at hb
theorem StrictV.flip {better : Val → Val → Bool} (h : StrictV better) : StrictV fun a b => better b a :=
  ⟨h.1, fun a b c hab hbc => h.2 c b a hbc hab⟩

/-- One of the values, a NaN only where all are, and no other that is no NaN is better. -/
def BestOf (better : Val → Val → Bool) (vs : List Val) (m : Val) : Prop :=
  m ∈ vs ∧ (m = .nan → ∀ v ∈ vs, v = .nan) ∧ ∀ v ∈ vs, v ≠ .nan → better v m = false
theorem bestOf_append_singleton {better : Val → Val → Bool} {vs : List Val} {v m : Val} : BestOf better (vs ++ [v]) m ↔
    (m ∈ vs ∨ m = v) ∧ (m = .nan → (∀ u ∈ vs, u = .nan) ∧ v = .nan) ∧ (∀ u ∈ vs, u ≠ .nan → better u m = false) ∧
      (v ≠ .nan → better v m = false) := by
  simp [BestOf, or_imp, forall_and]
/-- The better of the best so far and one more value is the best of all of them. -/
theorem bestOf_pickV {better : Val → Val → Bool} (h : StrictV better) {vs : List Val} {m : Val} (hm : BestOf better vs m) (v : Val) :
    BestOf better (vs ++ [v]) (pickV better m v) := by
  obtain ⟨hmem, hnan, hbest⟩ := hm
  rw [bestOf_append_singleton]
  unfold pickV
  simp only [isNan_iff]
  split
  case isTrue hmn => exact ⟨.inr rfl, fun hv => ⟨hnan hmn, hv⟩, fun u hu hun => absurd (hnan hmn u hu) hun, fun _ => h.1 v⟩
  case isFalse hmn =>
    split
    case isTrue hvn => exact ⟨.inl hmem, fun hm => absurd hm hmn, hbest, fun hv => absurd hvn hv⟩
    case isFalse hvn =>
      split
      case isTrue hvm =>
        refine ⟨.inr rfl, fun hv => absurd hv hvn, fun u hu hun => ?_, fun _ => h.1 v⟩
        exact Bool.eq_false_iff.mpr fun huv => Bool.eq_false_iff.mp (hbest u hu hun) (h.2 u v m huv hvm)
      case isFalse hvm => exact ⟨.inl hmem, fun hm => absurd hm hmn, hbest, fun _ => Bool.eq_false_iff.mpr hvm⟩
theorem bestOf_foldl {better : Val → Val → Bool} (h : StrictV better) (vs : List Val) {us : List Val} {m : Val} (hm : BestOf better us m) :
    BestOf better (us ++ vs) (vs.foldl (pickV better) m) := by
  induction vs generalizing us m with
  | nil => simpa using hm
  | cons v vs ih => simpa using ih (bestOf_pickV h hm v)
theorem bestOf_foldl_cons {better : Val → Val → Bool} (h : StrictV better) (v : Val) (vs : List Val) :
    BestOf better (v :: vs) (vs.foldl (pickV better) v) :=
  bestOf_foldl h vs (us := [v]) ⟨by simp, by simp, by simp [h.1]⟩
/-- What the reduction of floats to a minimum or maximum says of its result (R150). -/
def ReducesTo (better : Val → Val → Bool) (ty x : Nat) (vs : List Val) : Prop :=
  ((∃ v ∈ vs, v ≠ .nan) → ∃ v ∈ vs, v ≠ .nan ∧ x = exactCode ty v ∧ ∀ y ∈ vs, y ≠ .nan → better y v = false) ∧
    (vs ≠ [] → (∀ v ∈ vs, v = .nan) → x = (fmtOf ty).nan)
/-- The code of the best is such a result, and a NaN's code is the canonical one. -/
theorem BestOf.reducesTo {better : Val → Val → Bool} {vs : List Val} {m : Val} (h : BestOf better vs m) (ty : Nat) :
    ReducesTo better ty (exactCode ty m) vs := by
  obtain ⟨hmem, hnan, hbest⟩ := h
  refine ⟨fun ⟨v, hv, hvn⟩ => ⟨m, hmem, fun hm => hvn (hnan hm v hv), rfl, hbest⟩, fun _ hall => ?_⟩
  rw [hall m hmem]
  rfl
theorem reducesTo_nil (better : Val → Val → Bool) (ty x : Nat) : ReducesTo better ty x [] := ⟨by simp, by simp⟩
theorem reduce_minF {ty : Nat} (r : Rnd) (xs : List Nat) (hf : isFloat ty = true) :
    ReducesTo belowV ty (reduce ty 1 r xs) (xs.map (readF (fmtOf ty) r.ftz)) := by
  simp only [reduce, hf, if_true]
  split
  · next e => exact e ▸ reducesTo_nil ..
  · next v vs e => exact e ▸ (bestOf_foldl_cons strictV_belowV v vs).reducesTo ty
theorem reduce_maxF {ty : Nat} (r : Rnd) (xs : List Nat) (hf : isFloat ty = true) :
    ReducesTo (fun a b => belowV b a) ty (reduce ty 2 r xs) (xs.map (readF (fmtOf ty) r.ftz)) := by
  simp only [reduce, hf, if_true]
  split
  · next e => exact e ▸ reducesTo_nil ..
  · next v vs e => exact e ▸ (bestOf_foldl_cons strictV_belowV.flip v vs).reducesTo ty

/-- A float type that VRED accepts (R134). -/
theorem tyOf_le_two_of_redOk {m : DWord} (h : redOk m = true) (hf : isFloat (tyOf m) = true) : tyOf m ≤ 2 := by
  have hle : tyOf m ≤ 5 := of_decide_eq_true hf
  unfold redOk at h
  split at h
  · simp only [tyIn, arithTypes, List.contains_iff_mem, List.mem_cons, List.not_mem_nil, or_false] at h
    omega
  · simp only [tyIn, shiftTypes, Bool.and_eq_true, List.contains_iff_mem, List.mem_cons, List.not_mem_nil, or_false] at h
    omega
/-- The codes of the infinities of the float types that VRED accepts. -/
theorem exactCode_inf {t : Nat} (h : t ≤ 2) : exactCode t (.inf false) = [0x7F800000, 0x7C00, 0x7F80].getD t 0 ∧
    exactCode t (.inf true) = [0xFF800000, 0xFC00, 0xFF80].getD t 0 :=
  match t, h with
  | 0, _ | 1, _ | 2, _ => ⟨rfl, rfl⟩

/-- The reduction of no element is the empty value of its operation (R150). -/
theorem reduce_nil {ty : Nat} (op : Nat) (r : Rnd) (hty : isFloat ty = true → ty ≤ 2) : reduce ty op r [] = match op, isFloat ty with
    | 1, true => [0x7F800000, 0x7C00, 0x7F80].getD ty 0
    | 1, false => lowBits ty (intHi ty)
    | 2, true => [0xFF800000, 0xFC00, 0xFF80].getD ty 0
    | 2, false => lowBits ty (intLo ty)
    | 3, _ => 2 ^ tyBits ty - 1
    | _, _ => 0 := by
  cases hf : isFloat ty with
  | true =>
    obtain ⟨hlo, hhi⟩ := exactCode_inf (hty hf)
    match op with
    | 0 => simp [reduce, hf]
    | 1 => simpa [reduce, hf] using hlo
    | 2 => simpa [reduce, hf] using hhi
    | 3 | 4 | _ + 5 => rfl
  | false =>
    match op with
    | 0 => simp [reduce, hf, narrowI_zero]
    | 1 | 2 => simp [reduce, hf]
    | 3 | 4 | _ + 5 => rfl

/-- The stochastic-rounding counter advances for a floating sum with RND = 5 alone (R92). -/
theorem countRnd_redRounds (c : Crew) : c.countRnd (redRounds c.mode) =
    { c with rndcnt := if mRedop c.mode = 0 ∧ floats c.mode = true ∧ rndOf c.mode = 5 then c.rndcnt + 1 else c.rndcnt } := by
  unfold Crew.countRnd redRounds
  simp only [Bool.and_eq_true, beq_iff_eq, and_assoc]
  split <;> rfl

/-! What an instruction finds in MODE once it may issue. -/

theorem shadowRegs_mode {s : State} {key : Nat} {t : Team} {rs : List Nat} {c c' : Crew} (h : shadowRegs s key t rs c = some c') :
    c'.mode = c.mode := by
  induction rs generalizing c with
  | nil => cases h; rfl
  | cons r rs ih =>
    unfold shadowRegs at h
    split at h
    · cases h; rfl
    · split at h
      · exact ih h
      · exact (ih (Option.ite_none_left_eq_some.mp h).2 :)
/-- An instruction that may issue has passed check 4 of R63, with the MODE on which it acts. -/
theorem ready_ok {s s1 : State} {i : Instr} {c : Crew} {t : Team} (h : ready s i = some (s1, c, t)) :
    ∃ c0, (needOf s i c0 t).ok = true ∧ c.mode = c0.mode := by
  unfold ready mayIssue at h
  split at h
  · cases h
  · next c0 _ =>
    split at h
    · cases h
    · next t0 _ =>
      dsimp only at h
      split at h
      · cases h
      · next hn =>
        split at h
        · cases h
        · next c' hsh =>
          split at h
          · cases h
          · cases h
            refine ⟨c0, ?_, ?_⟩
            · cases hok : (needOf s i c0 t).ok with
              | true => rfl
              | false => simp [firstFail_illegal hok] at hn
            · rw [shadowRegs_mode hsh, endStall_crew]
/-- What its check of MODE says may be used where an instruction's effect is shown. -/
theorem gives_of_accepted {i : Instr} {ok : DWord → Bool} {p : State → Crew → Team → Prop} {q : State → Crew → Team → State → Prop}
    (hok : ∀ s c t, (needOf s i c t).ok = true → ok c.mode = true) (h : Gives i (fun s c t => ok c.mode = true ∧ p s c t) q) :
    Gives i p q := by
  intro s s1 c t hr hp
  obtain ⟨c0, h0, hm⟩ := ready_ok hr
  exact h s s1 c t hr ⟨hm ▸ hok s c0 t h0, hp⟩

end Machine

open Machine in
/-- Settles O23: a compare is the mask of its lanes, VEXT a lane or a trap, and VRED the reduction that the lemmas on `reduce` describe; a float
type is one of the first three, since R134 lets VRED reduce no other. -/
theorem vectorToScalar : Obligations.VectorToScalar := by
  unfold Obligations.VectorToScalar
  refine ⟨fun d a b => ?_, fun d a b => ?_, fun d a b => ?_, fun d a b => ?_, fun d a b => ?_, fun d a => ?_⟩
  · exact gives_of_compareOp fun _ => rfl
  · exact gives_of_compareOp fun _ => rfl
  · exact gives_of_compareOp fun _ => rfl
  · exact doesWhen_of_body (fun _ => rfl) fun s c t h => ⟨if_neg (Nat.not_le.mpr h), rfl⟩
  · exact trapsWhen_of_body (fun _ => rfl) fun s c t hc hs h => (if_pos h).trans (trapOrStop_raises hc hs _)
  · refine gives_of_accepted (ok := redOk) (fun _ _ _ h => (Bool.and_eq_true_iff.mp h).1) ?_
    refine gives_of_body (fun _ => rfl) fun s c t ⟨hok, _⟩ =>
      ⟨⟨reduce (tyOf c.mode) (mRedop c.mode).toNat (rndAt c 0 0) ((c.actives t.width).map (c.elem a.toNat)), _, rfl,
        by simpa [widen] using countRnd_redRounds (c.setS d _), ?_⟩, rfl⟩
    generalize (c.actives t.width).map (c.elem a.toNat) = xs
    refine ⟨fun h hf hne => ?_, fun h hf => ?_, fun h hf hne => ?_, fun h hf hne => ?_, fun hf h => ?_, fun h => ?_, fun h => ?_, fun h k => ?_,
      fun h k => ?_⟩
    · rw [h]
      exact reduce_sumF _ xs hf hne
    · rw [h]
      exact reduce_sumI _ xs hf
    · rw [h]
      exact reduce_minI _ xs hf hne
    · rw [h]
      exact reduce_maxI _ xs hf hne
    · rcases h with h | h
      · obtain ⟨hbest, hnan⟩ := reduce_minF (rndAt c 0 0) xs hf
        rw [h]
        exact ⟨hbest, fun hne => hnan (by simpa using hne)⟩
      · obtain ⟨hbest, hnan⟩ := reduce_maxF (rndAt c 0 0) xs hf
        rw [h]
        exact ⟨hbest, fun hne => hnan (by simpa using hne)⟩
    · rw [h]
      exact reduce_nil _ _ fun hf => tyOf_le_two_of_redOk hok hf
    · rw [h]
      exact ⟨reduce_and_lt .., fun k hk => (testBit_reduce_and _ xs k).trans (by simp [hk])⟩
    · rw [h]
      exact (testBit_foldl_or xs 0 k).trans (by simp)
    · rw [h]
      exact (testBit_foldl_xor xs 0 k).trans (by simp)

end Sys2Proof
end

section
/-! PROOF. The special functions (R96, R149): the lanes that they write, and their results at the operands that R96 lists. -/
namespace Sys2Proof

namespace Machine

/-- Rounding up depends on the remainder's share of the divisor alone (R85 step 3). -/
theorem roundUp_mul (r : Rnd) (neg : Bool) (q rem d : Nat) {k : Nat} (hk : 0 < k) :
    roundUp r neg q (rem * k) (d * k) = roundUp r neg q rem d := by
  have hshare (x : Nat) : x * k * 2 ^ 32 / (d * k) = x * 2 ^ 32 / d := by
    rw [Nat.mul_right_comm, Nat.mul_div_mul_right _ _ hk]
  have htwice : 2 * (rem * k) = 2 * rem * k := (Nat.mul_assoc ..).symm
  unfold roundUp
  simp only [htwice, ← Nat.sub_mul, hshare, Nat.mul_lt_mul_right hk, Nat.mul_le_mul_right_iff hk, Nat.mul_left_inj (Nat.ne_of_gt hk)]
/-- A fraction is rounded as the number that it is. -/
theorem roundQ_mul_self (f : Fmt) (r : Rnd) (neg : Bool) (n : Nat) {d : Nat} (hd : 0 < d) : roundQ f r neg (n * d) d = roundQ f r neg n 1 := by
  have hzero (m : Nat) : m * d = 0 ↔ m = 0 := by rw [Nat.mul_eq_zero, or_iff_left (Nat.ne_of_gt hd)]
  unfold roundQ
  simp only [hzero, Nat.mul_div_cancel _ hd, Nat.div_one, Nat.mul_comm d, Nat.mul_comm 1, Nat.mul_one, Nat.mul_mod_mul_right,
    Nat.mul_div_mul_right _ _ hd, roundUp_mul r _ _ _ _ hd, ne_eq]

/-- The bits from the top down find the root of a square: it is one of the next 2^(i + 1) numbers from `low` on. -/
theorem isqrtFrom_mul_self {x i low : Nat} (hlo : low ≤ x) (hhi : x < low + 2 ^ (i + 1)) : isqrtFrom (x * x) i low = x := by
  induction i generalizing low with
  | zero =>
    simp only [isqrtFrom, Nat.mul_self_le_mul_self_iff]
    split <;> omega
  | succ i ih =>
    rw [Nat.pow_succ] at hhi
    simp only [isqrtFrom, Nat.mul_self_le_mul_self_iff]
    split
    · next h => exact ih h (by omega)
    · next h => exact ih hlo (by omega)
theorem isqrt_mul_self (x : Nat) : isqrt (x * x) = x := by
  refine isqrtFrom_mul_self (Nat.zero_le x) ?_
  rw [Nat.zero_add]
  refine Nat.mul_self_lt_mul_self_iff.mp ?_
  calc x * x
      < 2 ^ ((x * x).log2 + 1) := Nat.lt_log2_self
    _ ≤ 2 ^ ((x * x).log2 / 2 + 1 + 1 + ((x * x).log2 / 2 + 1 + 1)) := Nat.pow_le_pow_right (by omega) (by omega)
    _ = 2 ^ ((x * x).log2 / 2 + 1 + 1) * 2 ^ ((x * x).log2 / 2 + 1 + 1) := Nat.pow_add ..

/-! The functions of a finite operand. One is 2^298 units (R75). -/

theorem rcp_of_ne_zero (f : Fmt) (r : Rnd) (neg : Bool) {m : Nat} (hm : m ≠ 0) :
    specialV 0 f r (.fin neg m) = roundQ f r neg (2 ^ 596) m := by simp only [specialV, if_neg hm]
theorem rsq_of_ne_zero (f : Fmt) (r : Rnd) (neg : Bool) {m : Nat} (hm : m ≠ 0) :
    specialV 1 f r (.fin neg m) = if neg then f.nan else rsqQ f r m := by simp only [specialV, if_neg hm]
theorem log2_of_ne_zero (f : Fmt) (r : Rnd) (neg : Bool) {m : Nat} (hm : m ≠ 0) :
    specialV 3 f r (.fin neg m) = if neg then f.nan else log2Q f r m := by simp only [specialV, if_neg hm]

/-- VRCP of a power of two is one. -/
theorem rcp_two_pow (f : Fmt) (r : Rnd) (neg : Bool) {e : Nat} (he : e ≤ 596) :
    specialV 0 f r (.fin neg (2 ^ e)) = roundQ f r neg (2 ^ (596 - e)) 1 := by
  rw [rcp_of_ne_zero f r neg (Nat.ne_of_gt (Nat.two_pow_pos e)), ← Nat.pow_sub_mul_pow 2 he, roundQ_mul_self f r neg _ (Nat.two_pow_pos e)]
/-- VRSQ of an even power of two is one. -/
theorem rsq_two_pow (f : Fmt) (r : Rnd) {e k : Nat} (h : k + k + e = 894) :
    specialV 1 f r (.fin false (2 ^ e)) = roundQ f r false (2 ^ k) 1 := by
  have hpos := Nat.two_pow_pos e
  rw [rsq_of_ne_zero f r false (Nat.ne_of_gt hpos), if_neg Bool.false_ne_true]
  unfold rsqQ
  rw [← h, Nat.pow_add, Nat.mul_div_cancel _ hpos, Nat.pow_add, isqrt_mul_self]
  exact if_pos rfl
/-- VEXP2 of a whole number is a power of two. -/
theorem exp2_of_whole (f : Fmt) (r : Rnd) {neg : Bool} {m i : Nat} (hi : i ≤ 1000)
    (h : (if neg then -(m : Int) else m) = i * (2 ^ 298 : Nat)) : specialV 2 f r (.fin neg m) = roundQ f r false (2 ^ (298 + i)) 1 := by
  have hpos : ((2 ^ 298 : Nat) : Int) ≠ 0 := Int.natCast_ne_zero.mpr (Nat.ne_of_gt (Nat.two_pow_pos 298))
  have hup : (298 + (i : Int)).toNat = 298 + i := by omega
  have hdn : (-(298 + (i : Int))).toNat = 0 := by omega
  have hclamp : (if 1000 < (i : Int) then 1000 else if (i : Int) < -1000 then -1000 else (i : Int)) = i := by
    rw [if_neg (by omega), if_neg (by omega)]
  have hfin : specialV 2 f r (.fin neg m) = exp2Q f r neg m := by simp only [specialV]
  rw [hfin]
  unfold exp2Q
  simp only [h, Int.mul_ediv_cancel _ hpos, Int.mul_emod_left, Int.toNat_zero, Nat.zero_div, if_true, hclamp, hup, hdn, Nat.pow_zero]
/-- VLOG2 of a power of two is a whole number. -/
theorem log2_two_pow (f : Fmt) (r : Rnd) (e : Nat) : specialV 3 f r (.fin false (2 ^ e)) =
    roundQ f r (decide ((e : Int) - 298 < 0)) (((e : Int) - 298).natAbs * 2 ^ 298) 1 := by
  rw [log2_of_ne_zero f r false (Nat.ne_of_gt (Nat.two_pow_pos e)), if_neg Bool.false_ne_true]
  unfold log2Q
  simp only [Nat.log2_two_pow, if_true]

/-- The codes of one and two in the formats of the special functions, whether FTZ is set or not. -/
theorem readF_one {t : Nat} (h : t ≤ 2) (ftz : Bool) :
    readF (fmtOf t) ftz ([0x3F800000, 0x3C00, 0x3F80].getD t 0) = .fin false (2 ^ 298) := by
  decide +kernel +revert
theorem readF_two {t : Nat} (h : t ≤ 2) : readF (fmtOf t) false ([0x40000000, 0x4000, 0x4000].getD t 0) = .fin false (2 ^ 299) := by
  decide +kernel +revert
/-- What a format reads as a finite number rounds to the code that it was read from (R85 step 2). -/
theorem roundQ_of_readF (r : Rnd) {t x m : Nat} (hx : x < 2 ^ (fmtOf t).bits) (hmax : x % 2 ^ ((fmtOf t).bits - 1) ≤ (fmtOf t).max)
    (h : readF (fmtOf t) false x = .fin false m) : roundQ (fmtOf t) r false m 1 = x := by
  have hround := roundV_readF_finite r (fmtOf_bits_pos t) hx hmax
  rwa [h] at hround

theorem roundQ_one (r : Rnd) {t : Nat} (h : t ≤ 2) : roundQ (fmtOf t) r false (2 ^ 298) 1 = [0x3F800000, 0x3C00, 0x3F80].getD t 0 :=
  roundQ_of_readF r (by decide +revert) (by decide +revert) (readF_one h false)
theorem roundQ_two (r : Rnd) {t : Nat} (h : t ≤ 2) : roundQ (fmtOf t) r false (2 ^ 299) 1 = [0x40000000, 0x4000, 0x4000].getD t 0 :=
  roundQ_of_readF r (by decide +revert) (by decide +revert) (readF_two h)

/-- A NaN gives a NaN (R96). -/
theorem specialV_nan (op : Nat) (f : Fmt) (r : Rnd) : specialV op f r .nan = f.nan :=
  match op with
  | 0 | 1 | 2 | _ + 3 => rfl

end Machine

open Machine in
/-- Settles O25: each lane is the one that `mapLanes` writes. Of the operands that R96 lists one needs computing: its functions are whole
numbers, which a format gives back as the code that it reads them from. -/
theorem vectorSpecialFunctions : Obligations.VectorSpecialFunctions := by
  unfold Obligations.VectorSpecialFunctions
  refine ⟨fun d a => ⟨?_, ?_, ?_, ?_⟩, fun op f r _ => specialV_nan op f r, fun f r m => ⟨fun neg => ⟨rfl, rfl⟩, fun neg => rfl, rfl, rfl,
    rsq_of_ne_zero f r true, rfl, rfl, fun neg => rfl, rfl, rfl, log2_of_ne_zero f r true, fun t ht => ?_⟩⟩
  case refine_5 =>
    have hone := roundQ_one r ht
    dsimp only
    rw [readF_one ht]
    refine ⟨?_, ?_, ?_, ?_, fun neg => ?_⟩
    · exact (rcp_two_pow (e := 298) _ r false (by decide)).trans hone
    · exact (rsq_two_pow (e := 298) (k := 298) _ r rfl).trans hone
    · exact (exp2_of_whole (i := 1) _ r (by decide) (by simp)).trans (roundQ_two r ht)
    · rw [log2_two_pow]
      rfl
    · exact (exp2_of_whole (i := 0) _ r (by decide) (by simp)).trans hone
  all_goals exact laneResults_of_laneOp (fun _ => rfl) (fun _ _ _ _ => rfl) rfl

end Sys2Proof
end

section
/-! PROOF. Loads and stores at their issue (R197 to R202, R355): what the lanes of LD and ST and the elements of a box are, when no check fails. -/
namespace Sys2Proof

namespace Machine

/-- What an instruction does under a condition it does under a stronger one. -/
theorem DoesWhen.imp {i : Instr} {p q : State → Crew → Team → Prop} {f g : State → Crew → Team → State} (h : DoesWhen i p f)
    (hq : ∀ s c t, q s c t → p s c t ∧ f s c t = g s c t) : DoesWhen i q g := fun s s1 c t hr hp =>
  (h s s1 c t hr (hq _ _ _ hp).1).trans (congrArg _ (hq _ _ _ hp).2)

/-- An instruction that is complete at issue leaves the trace fabric alone. -/
theorem addDone_fabric (s : State) (key : Nat) (c : Crew) (cls : Cls) (kind : OpKind) (word : Word) :
    (addDone s key c cls kind word).fabric = s.fabric := by
  unfold addDone
  obtain ⟨_, e⟩ := completeOp_touches (addOp s _) s.nextOp
  rw [e]
  rfl

/-! The checks. -/

/-- The lanes meet no fault. -/
theorem takeAccess_lanes {s : State} {key : Nat} {c : Crew} {t : Team} {word : Word} {ld st lo mi : Bool} {al z : Nat} {a : SReg} {b : VReg}
    (h : ∀ l ∈ c.actives t.width, accessFaults t ld st lo mi al (laneAddr c a b l).toNat z = []) :
    takeAccess s key c t word (laneChecks t ld st lo mi al z (laneAddrs c t a b)) = none :=
  takeAccess_none (laneChecks_faults (laneAddrs_mem (P := fun va => accessFaults t ld st lo mi al va z = []) h))
/-- The elements of a box meet no fault. -/
theorem takeAccess_box {s : State} {key : Nat} {c : Crew} {t : Team} {word : Word} {ld st : Bool} {z : Nat} {es : List BoxElem}
    (h : ∀ x ∈ es, ∀ va, x.va = some va → accessFaults t ld st true true 1 va z = []) :
    takeAccess s key c t word (boxChecks t ld st z es) = none := by
  refine takeAccess_none (laneChecks_faults fun p hp => ?_)
  obtain ⟨x, hx, he⟩ := List.mem_filterMap.mp hp
  obtain ⟨va, hva, rfl⟩ := Option.map_eq_some_iff.mp he
  exact h x hx va hva

/-- A box of a valid shape whose registers are there and whose coordinates are scalar registers (R201). -/
def BoxFits (d : VReg) (h : BitVec 4) (b : SReg) (sh : Shape) (c : Crew) (t : Team) : Prop :=
  shapeHeld c h.toNat = false ∧ Tbl.get? t.shapes h.toNat = some sh ∧ sh.boxr + 1 ≤ 16 ∧ d.toNat + sh.boxr < t.nvreg ∧
    b.toNat + sh.rank - 1 ≤ 63
theorem BoxFits.operandOk {d : VReg} {h : BitVec 4} {b : SReg} {sh : Shape} {c : Crew} {t : Team} (hf : BoxFits d h b sh c t) :
    boxOperandBad t sh d b = false := by
  obtain ⟨-, -, hrows, hregs, hcoords⟩ := hf
  unfold boxOperandBad
  simp only [decide_eq_false_iff_not]
  omega

/-! Loads. -/

/-- A load issues as an operation of class LDC with its accesses, and the crew goes on (R105). -/
def loadIssued (s : State) (c : Crew) (word : Word) (as : List Acc) : State :=
  retire (addOp s { crew := s.cur, team := c.team, core := coreOf s.cur, cls := some .load, kind := .load, acq := mOrd c.mode == 1,
                    scope := (mScope c.mode).toNat, accs := as, pc := c.pc, word := word }) c
/-- A load issues whose lines are all cached, or whose crew does not speculate, and which the read set takes (R325, R327). -/
theorem issueLoad_tracked {s : State} {c c1 : Crew} {word : Word} {as : List Acc} (hu : c.spec = none ∨ ∀ x ∈ as, uncached x = false)
    (ht : trackLoads s s.cur c as = some c1) : issueLoad s c word as = loadIssued s c1 word as := by
  unfold issueLoad
  rw [if_neg, ht]
  · rfl
  · rcases hu with hs | hu
    · simp [hs]
    · simpa using fun _ => hu
theorem trackLoads_unspeculated {s : State} {key : Nat} {c : Crew} (h : c.spec = none) (as : List Acc) : trackLoads s key c as = some c := by
  unfold trackLoads
  rw [h]
/-- The read set of a crew whose load is tracked holds the load's lines too, and is within its limit (R325). -/
theorem trackLoads_reads {s : State} {key : Nat} {c c1 : Crew} {as : List Acc} {sp : Spec} (hs : c.spec = some sp)
    (h : trackLoads s key c as = some c1) : c1 = { c with spec := some { sp with reads := (trackedLines s c as).foldl setAdd sp.reads } } ∧
      ((trackedLines s c as).foldl setAdd sp.reads).length ≤ Config.readCrew := by
  unfold trackLoads at h
  rw [hs] at h
  dsimp only at h
  split at h
  · cases h
  · next hroom => cases h; exact ⟨rfl, by omega⟩

/-- Under a condition on crew and team, an instruction loads: it issues its accesses, or is counted at once where it has none (R66). -/
def Loads (i : Instr) (p : Crew → Team → Prop) (accs : Crew → Team → List Acc) : Prop :=
  ∃ body, (∀ s, exec i s = issue s (needOf s i) body) ∧ ∀ s c t, p c t → body s c t =
    if accs c t = [] then retire (addDone s s.cur c .load .load (wordOf i)) c else issueLoad s c (wordOf i) (accs c t)

section
variable {i : Instr} {p : Crew → Team → Prop} {accs : Crew → Team → List Acc} (h : Loads i p accs)
include h

theorem Loads.counted : DoesWhen i (fun _ c t => p c t ∧ accs c t = []) fun s c _ => retire (addDone s s.cur c .load .load (wordOf i)) c := by
  obtain ⟨body, hx, hb⟩ := h
  exact doesWhen_of_body hx fun s c t ⟨hp, he⟩ => ⟨(hb s c t hp).trans (if_pos he), addDone_fabric ..⟩
theorem Loads.issued (c1 : Crew → Crew) :
    DoesWhen i (fun s c t => p c t ∧ accs c t ≠ [] ∧ (c.spec = none ∨ ∀ x ∈ accs c t, uncached x = false) ∧
      trackLoads s s.cur c (accs c t) = some (c1 c)) fun s c t => loadIssued s (c1 c) (wordOf i) (accs c t) := by
  obtain ⟨body, hx, hb⟩ := h
  exact doesWhen_of_body hx fun s c t ⟨hp, hne, hu, ht⟩ => ⟨(hb s c t hp).trans ((if_neg hne).trans (issueLoad_tracked hu ht)), rfl⟩
theorem Loads.issued_unspeculated :
    DoesWhen i (fun _ c t => p c t ∧ accs c t ≠ [] ∧ c.spec = none) fun s c t => loadIssued s c (wordOf i) (accs c t) :=
  (h.issued id).imp fun _ _ _ ⟨hp, hne, hs⟩ => ⟨⟨hp, hne, .inl hs, trackLoads_unspeculated hs _⟩, rfl⟩
end

/-- The accesses of LD: one for each active lane (R199). -/
def ldAccs (d : VReg) (a : SReg) (b : VReg) (c : Crew) (t : Team) : List Acc :=
  (c.actives t.width).map fun l =>
    { mkAcc t true false l 0 (laneAddr c a b l).toNat (memSize c.mode) with dst := some (ldDst c.mode d.toNat l) }
theorem loads_ld (d : VReg) (a : SReg) (b : VReg) : Loads (.ld d a b) (fun c t => ∀ l ∈ c.actives t.width,
    accessFaults t true false true true (memSize c.mode) (laneAddr c a b l).toNat (memSize c.mode) = []) (ldAccs d a b) := by
  refine ⟨_, fun _ => rfl, fun s c t hf => ?_⟩
  dsimp only
  rw [takeAccess_lanes hf]
  simp only [laneAddrs, ldAccs, List.isEmpty_iff, List.map_eq_nil_iff, List.map_map]
  rfl

/-- The access of LDT for an element of a box: one that is out of bounds reads nothing and is zero (R201). -/
def ldtAcc (d : VReg) (sh : Shape) (t : Team) (x : BoxElem) : Acc :=
  let dst : Dst := { reg := d.toNat + x.row, lane := x.lane, lo := 8 * sh.z * x.e, bits := 8 * sh.z, clear := x.e == 0 }
  match x.va with
  | some va => { mkAcc t true false x.lane x.e va sh.z with dst := some dst }
  | none => { lane := x.lane, elem := x.e, size := sh.z, clip := true, dst := some dst }
theorem loads_ldt (d : VReg) (h : BitVec 4) (b : SReg) (sh : Shape) : Loads (.ldt d h b) (fun c t => BoxFits d h b sh c t ∧
    ∀ x ∈ boxElems c t sh b, ∀ va, x.va = some va → accessFaults t true false true true 1 va sh.z = [])
      fun c t => (boxElems c t sh b).map (ldtAcc d sh t) := by
  refine ⟨_, fun _ => rfl, fun s c t ⟨hbox, hf⟩ => ?_⟩
  have hok := hbox.operandOk
  obtain ⟨hheld, hshape, -⟩ := hbox
  dsimp only
  rw [hheld, hshape]
  dsimp only
  rw [hok, takeAccess_box hf]
  simp only [List.isEmpty_iff, List.map_eq_nil_iff]
  rfl

/-! Stores. -/

/-- The crew once its region is closed. -/
def Crew.closed (c : Crew) : Crew := { c with region := none, buf := [] }

/-- What the close of a region changes: crews, operations, the time read and the number of the next operation. -/
theorem closeRegion_touches (s : State) (key : Nat) (pc : Addr) (word : Word) :
    ∃ cs os tm n, closeRegion s key pc word = { s with crews := cs, ops := os, time := tm, nextOp := n } := by
  unfold closeRegion
  split
  · exact ⟨s.crews, s.ops, s.time, s.nextOp, rfl⟩
  · split
    · exact ⟨s.crews, s.ops, s.time, s.nextOp, rfl⟩
    · unfold releaseBuf
      split <;> exact ⟨_, _, _, _, rfl⟩
theorem closeRegion_fabric (s : State) (key : Nat) (pc : Addr) (word : Word) : (closeRegion s key pc word).fabric = s.fabric := by
  obtain ⟨_, _, _, _, e⟩ := closeRegion_touches s key pc word
  rw [e]
/-- A crew whose region is open is closed by it. -/
theorem closeRegion_crew? {s : State} {key : Nat} {c : Crew} (hc : s.crew? key = some c) (hr : c.region ≠ none) (pc : Addr) (word : Word) :
    (closeRegion s key pc word).crew? key = some c.closed := by
  obtain ⟨r, hr⟩ := Option.ne_none_iff_exists'.mp hr
  unfold closeRegion
  rw [hc]
  simp only [hr]
  unfold releaseBuf
  split <;> exact Tbl.get?_put_self ..
/-- A record that finds a reservation, or is not delivered, leaves the trace fabric calm (R409, R410). -/
theorem calm_emitS_recorded {s : State} {key : Nat} {c : Crew} (h : Calm s) (hkey : s.cur = key) (hc : s.crew? key = some c) (hr : Recorded s c)
    (event arg : BitVec 8) (payload : Word) : Calm (emitS s key event arg payload) := by
  subst hkey
  rcases hr with hgranted | hoff
  · unfold emitS
    rw [hc]
    dsimp only
    split
    · split
      · exact h
      · next hnone => exact absurd hgranted hnone
    · exact h
  · rw [emitS_undelivered hc (by unfold delivers; dsimp only; rw [hoff]; rfl)]
    exact h
/-- The close of a region leaves a reservation where it is. -/
theorem Recorded.close {s : State} {c : Crew} (h : Recorded s c) (key : Nat) (pc : Addr) (word : Word) :
    Recorded (closeRegion s key pc word) c.closed := by
  obtain ⟨_, _, _, _, e⟩ := closeRegion_touches s key pc word
  rw [e]
  exact h

section
variable {s : State} {c : Crew} {t : Team} {word : Word} {as : List Acc}

/-- Which way a store takes: a release, or one through the mirror window, closes the region (R192, R219). -/
theorem issueStore_closes (hs : c.spec = none) (h : mOrd c.mode = 2 ∨ ∃ a ∈ as, inMirror a.va = true) :
    issueStore s c t word as = plainStore (closeRegion s s.cur c.pc word) c.closed word (mOrd c.mode == 2)
      (if as.any fun a => inMirror a.va then .mirror (t.group.map fun g => (g, false)) 0 else .store) as := by
  unfold issueStore
  dsimp only
  rw [if_neg (by simp [hs]), if_pos (by simpa using h)]
  rfl

variable (hrel : mOrd c.mode ≠ 2) (hmir : ∀ a ∈ as, inMirror a.va = false)
include hrel hmir

/-- Outside regions and speculation it issues at once. -/
theorem issueStore_plain (hr : c.region = none) (hs : c.spec = none) : issueStore s c t word as = plainStore s c word false .store as := by
  unfold issueStore
  dsimp only
  rw [if_neg (by simp [hs]), if_neg (by simpa using ⟨hrel, hmir⟩), if_pos (by simp [hr, hs])]
/-- Inside, it joins the buffer, which has room for it (R198). -/
theorem issueStore_buffered (ho : c.region ≠ none ∨ c.spec ≠ none) (hroom : bufferRoom s s.cur c as = true) :
    issueStore s c t word as = retire (addDone s s.cur c .store .store word)
      { c with buf := c.buf ++ as.map fun a => { a with num := some s.nextOp } } := by
  unfold issueStore
  dsimp only
  rw [if_neg (by simpa using fun _ => hmir), if_neg (by simpa using ⟨hrel, hmir⟩),
    if_neg (by simpa [← Option.ne_none_iff_isSome, or_iff_not_imp_left] using ho), if_pos hroom]
/-- Where a region's buffer has no room, the region closes first (R355). -/
theorem issueStore_overflows (hr : c.region ≠ none) (hs : c.spec = none) (hroom : bufferRoom s s.cur c as = false)
    (hcount : classCount s s.cur .store < 62) (hreq : requestsFull s (coreOf s.cur) (lineCount (c.buf ++ as)) = false) :
    issueStore s c t word as =
      plainStore (emitS (closeRegion s s.cur c.pc word) s.cur 0x11 0 (pcBits c.pc)) c.closed word false .store as := by
  unfold issueStore
  dsimp only
  rw [if_neg (by simp [hs]), if_neg (by simpa using ⟨hrel, hmir⟩), if_neg (by simp [hr]), if_neg (by simp [hroom]), if_neg (by simp [hs]),
    if_neg (by simpa [hreq] using hcount)]
  rfl
end

/-- Under a condition on crew and team, an instruction stores: it issues its accesses, or is counted at once where it has none, and as a release
then closes the region, if a lane takes part. -/
def Stores (i : Instr) (p : Crew → Team → Prop) (accs : Crew → Team → List Acc) (lanes : Crew → Team → Prop) : Prop :=
  ∃ body, (∀ s, exec i s = issue s (needOf s i) body) ∧ ∀ s c t, p c t →
    (accs c t ≠ [] → body s c t = issueStore s c t (wordOf i) (accs c t)) ∧
    (accs c t = [] → mOrd c.mode = 2 → lanes c t →
      body s c t = retire (addDone (closeRegion s s.cur c.pc (wordOf i)) s.cur c .store .store (wordOf i)) c.closed) ∧
    (accs c t = [] → mOrd c.mode ≠ 2 ∨ ¬ lanes c t → body s c t = retire (addDone s s.cur c .store .store (wordOf i)) c)

/-- The accesses of ST: of the active lanes that name one address the last alone stores (R200). -/
def stAccs (d : VReg) (a : SReg) (b : VReg) (c : Crew) (t : Team) : List Acc :=
  keepLast ((c.actives t.width).map fun l =>
    { mkAcc t false true l 0 (laneAddr c a b l).toNat (memSize c.mode) with data := stData c d.toNat l })
theorem keepLast_eq_nil {as : List Acc} : keepLast as = [] ↔ as = [] := by
  induction as with
  | nil => simp [keepLast]
  | cons a as ih =>
    unfold keepLast
    split
    · next hlater =>
      have : as ≠ [] := by rintro rfl; simp at hlater
      simp [ih, this]
    · simp
theorem stores_st (d : VReg) (a : SReg) (b : VReg) : Stores (.st d a b) (fun c t => ∀ l ∈ c.actives t.width,
    accessFaults t false true true true (memSize c.mode) (laneAddr c a b l).toNat (memSize c.mode) = []) (stAccs d a b)
      fun c t => c.actives t.width ≠ [] := by
  have hnil : ∀ c t, stAccs d a b c t = [] ↔ c.actives t.width = [] := fun c t => by simp [stAccs, keepLast_eq_nil]
  refine ⟨_, fun _ => rfl, fun s c t hf => ?_⟩
  dsimp only
  rw [takeAccess_lanes hf]
  simp only [ne_eq, hnil, laneAddrs, List.isEmpty_iff, List.map_eq_nil_iff, List.map_map]
  refine ⟨fun hne => (if_neg hne).trans rfl, fun he _ hl => absurd he hl, fun he _ => if_pos he⟩

/-- The accesses of STT (R202): those of the elements in bounds, where elements that share an address leave the last. -/
def sttAccs (d : VReg) (b : SReg) (sh : Shape) (c : Crew) (t : Team) : List Acc :=
  boxStores ((boxElems c t sh b).filterMap fun x => x.va.map fun va =>
    { mkAcc t false true x.lane x.e va sh.z with
      data := ((c.getV (d.toNat + x.row) x.lane >>> (8 * sh.z * x.e)).setWidth 64) &&& (BitVec.allOnes 64 >>> (64 - 8 * sh.z)) })
theorem stores_stt (d : VReg) (h : BitVec 4) (b : SReg) (sh : Shape) : Stores (.stt d h b) (fun c t => BoxFits d h b sh c t ∧
    ∀ x ∈ boxElems c t sh b, ∀ va, x.va = some va → accessFaults t false true true true 1 va sh.z = []) (sttAccs d b sh)
      fun c t => boxElems c t sh b ≠ [] := by
  refine ⟨_, fun _ => rfl, fun s c t ⟨hbox, hf⟩ => ?_⟩
  have hok := hbox.operandOk
  obtain ⟨hheld, hshape, -⟩ := hbox
  dsimp only
  rw [hheld, hshape]
  dsimp only
  rw [hok, takeAccess_box hf]
  simp only [Bool.false_eq_true, if_false]
  have hnil : (!(sttAccs d b sh c t).isEmpty) = true ↔ sttAccs d b sh c t ≠ [] := by simp
  refine ⟨fun hne => if_pos (hnil.mpr hne), fun he ho hl => ?_, fun he hl => ?_⟩
  · refine (if_neg (mt hnil.mp (not_not.mpr he))).trans ?_
    rw [if_pos (by simpa [ho] using hl)]
    rfl
  · refine (if_neg (mt hnil.mp (not_not.mpr he))).trans ?_
    rw [if_neg (by simpa [imp_iff_not_or] using hl)]

end Machine

open Machine in
/-- Settles O28: with their checks passed LD and LDT are loads of their lanes and elements, which issue, or are counted at once where there are
none. -/
theorem loadsIssue : Obligations.LoadsIssue := by
  unfold Obligations.LoadsIssue
  refine ⟨fun d a b => ?_, fun d a b as c1 => ?_, fun s key c c1 as sp hs h => trackLoads_reads hs h, fun d a b => ?_, fun d h b sh => ?_,
    fun d h b sh => ?_⟩
  · exact (loads_ld d a b).issued_unspeculated.imp fun s c t ⟨hs, hne, hf⟩ => ⟨⟨hf, by simpa [ldAccs] using hne, hs⟩, rfl⟩
  · refine ((loads_ld d a b).issued fun _ => c1).imp fun s c t ⟨_, hne, hf, has, hu, ht⟩ => ?_
    subst has
    exact ⟨⟨hf, by simpa [ldAccs] using hne, .inr hu, ht⟩, rfl⟩
  · exact (loads_ld d a b).counted.imp fun s c t hnil => ⟨⟨by simp [hnil], by simp [ldAccs, hnil]⟩, rfl⟩
  · exact (loads_ldt d h b sh).counted.imp fun s c t ⟨hheld, hshape, hrows, hregs, hcoords, hnil⟩ =>
      ⟨⟨⟨⟨hheld, hshape, hrows, hregs, hcoords⟩, by simp [hnil]⟩, by simp [hnil]⟩, rfl⟩
  · exact (loads_ldt d h b sh).issued_unspeculated.imp fun s c t ⟨hs, hheld, hshape, hrows, hregs, hcoords, hne, hf⟩ =>
      ⟨⟨⟨⟨hheld, hshape, hrows, hregs, hcoords⟩, hf⟩, by simpa using hne, hs⟩, rfl⟩

open Machine in
/-- Settles O29: with their checks passed ST and STT are stores of their lanes and elements, each of which takes one of the ways of `issueStore`. -/
theorem storesIssue : Obligations.StoresIssue := by
  unfold Obligations.StoresIssue
  intro closed issues
  have issues_of : ∀ i p accs lanes, Stores i p accs lanes → (∀ c t, accs (closed c) t = accs c t) → issues i (fun _ => p) accs lanes := by
    intro i p accs lanes ⟨body, hx, hb⟩ hclosed
    dsimp only [issues]
    refine ⟨doesWhen_of_body hx fun s c t ⟨hp, ⟨hne, hrel, hmir⟩, hr, hs⟩ => ⟨?_, rfl⟩,
      doesWhen_of_body hx fun s c t ⟨hp, hne, hs, h⟩ => ⟨?_, closeRegion_fabric ..⟩,
      doesWhen_of_body hx fun s c t ⟨hp, ⟨hne, hrel, hmir⟩, ho, hroom⟩ => ⟨?_, addDone_fabric ..⟩,
      doesWhen_of_calm hx fun s c t ⟨hp, ⟨hne, hrel, hmir⟩, hr, hs, hroom, hcount, hreq, hc, hrec⟩ hcalm => ⟨?_, ?_⟩,
      doesWhen_of_body hx fun s c t ⟨hp, he, hl⟩ => ⟨?_, addDone_fabric ..⟩,
      doesWhen_of_body hx fun s c t ⟨hp, he, ho, hl⟩ => ⟨?_, (addDone_fabric ..).trans (closeRegion_fabric ..)⟩⟩
    all_goals obtain ⟨hstore, hrelease, hdone⟩ := hb s c t hp
    · exact (hstore hne).trans (issueStore_plain hrel hmir hr hs)
    · refine (hstore hne).trans ((issueStore_closes hs h).trans ?_)
      simp only [hclosed]
      rfl
    · exact (hstore hne).trans (issueStore_buffered hrel hmir ho hroom)
    · refine (hstore hne).trans ((issueStore_overflows hrel hmir hr hs hroom hcount hreq).trans ?_)
      simp only [hclosed]
      rfl
    · exact calm_emitS_recorded (solid_closeRegion calm_solid hcalm ..) (closeRegion_cur ..) (closeRegion_crew? hc hr ..) (hrec.close ..) ..
    · exact hdone he hl
    · exact hrelease he ho hl
  refine ⟨fun d a b => issues_of _ _ _ _ (stores_st d a b) fun c t => rfl, fun d h b sh => ?_⟩
  have hstt := issues_of _ _ _ _ (stores_stt d h b sh) fun c t => rfl
  simp only [BoxFits, and_assoc] at hstt
  exact hstt

end Sys2Proof
end

section
/-! PROOF. Accesses that meet faults (R176, R370): the kind, lane, mask and access code that an instruction's checks give, and its trap. -/
namespace Sys2Proof

namespace Machine

/-- The fold to the element of least key gives one of the elements, and none has a lesser key. -/
theorem foldl_least {α : Type} (f : α → Nat) (l : List α) (a : α) :
    let m := l.foldl (fun m d => if f d < f m then d else m) a
    m ∈ a :: l ∧ ∀ d ∈ a :: l, f m ≤ f d := by
  induction l generalizing a with
  | nil => simp
  | cons x l ih =>
    rw [List.foldl_cons]
    obtain ⟨hmem, hle⟩ := ih (if f x < f a then x else a)
    generalize List.foldl _ _ l = m at hmem hle ⊢
    simp only [List.mem_cons, forall_eq_or_imp] at hmem hle ⊢
    obtain ⟨hfirst, hrest⟩ := hle
    split at hfirst
    · refine ⟨?_, by omega, by omega, hrest⟩
      rw [if_pos ‹_›] at hmem
      exact .inr hmem
    · refine ⟨?_, by omega, by omega, hrest⟩
      rw [if_neg ‹_›] at hmem
      exact hmem.imp_right .inr

/-- Checks that ask different things have access code 2 (R370). -/
theorem accessOf_spec (cs : List Check) : (∀ q ∈ cs, q.access = accessOf cs) ∨ accessOf cs = 2 := by
  cases cs with
  | nil => exact .inl nofun
  | cons c r =>
    unfold accessOf
    dsimp only
    split
    · next h => exact .inl (List.forall_mem_cons.mpr ⟨rfl, fun q hq => beq_iff_eq.mp (List.all_eq_true.mp h q hq)⟩)
    · exact .inr rfl

/-- The fault that is taken is made up of the checks that meet its kind. -/
theorem laneFault_inv {cs : List Check} {k : TrapKind} {va : Nat} {m : DWord} {x : Nat} (h : laneFault cs = some (k, va, m, x)) :
    ∃ c r, (cs.filter fun q => q.faults.contains k) = c :: r ∧ va = (r.foldl (fun m d => if d.lane < m.lane then d else m) c).va ∧
      m = lanesMask ((c :: r).map (·.lane)).eraseDups ∧ x = accessOf (c :: r) := by
  unfold laneFault at h
  split at h
  · cases h
  · split at h
    · cases h
    · next c r e => cases h; exact ⟨c, r, e, rfl, rfl, rfl⟩

/-- Checks whose fault is no demand fault take its trap, in a crew that does not speculate. -/
theorem takeAccess_raises {s : State} {c : Crew} {t : Team} {word : Word} {cs : List Check} {f : TrapKind × Nat × DWord × Nat}
    (hc : s.crew? s.cur = some c) (hs : c.spec = none) (hf : laneFault cs = some f) (hd : f.1 ≠ .demand) :
    takeAccess s s.cur c t word cs = some (raise s s.cur
      { kind := f.1, resume := c.pc, fault := c.pc, word := word, addr := BitVec.ofNat 64 f.2.1, mask := f.2.2.1,
        detail := BitVec.ofNat 64 f.2.2.2 }) := by
  unfold takeAccess takeKind
  rw [hf, Option.map_some, if_neg hd, trapOrStop_raises hc hs]

/-- So does an instruction that begins with its checks, whichever team they are given for the pages of a demand fault. -/
theorem doesWhen_of_checks {i : Instr} {cs : Crew → Team → List Check} {body : State → Crew → Team → State}
    (hx : ∀ s, exec i s = issue s (needOf s i) body)
    (hb : ∀ s c t s', (∀ u, takeAccess s s.cur c u (wordOf i) (cs c t) = some s') → body s c t = s') (f : TrapKind × Nat × DWord × Nat) :
    DoesWhen i (fun s c t => s.crew? s.cur = some c ∧ c.spec = none ∧ laneFault (cs c t) = some f ∧ f.1 ≠ .demand) fun s c _ =>
      raise s s.cur { kind := f.1, resume := c.pc, fault := c.pc, word := wordOf i, addr := BitVec.ofNat 64 f.2.1, mask := f.2.2.1,
                      detail := BitVec.ofNat 64 f.2.2.2 } :=
  doesWhen_of_calm hx fun _ _ _ ⟨hc, hs, hf, hd⟩ hcalm =>
    ⟨hb _ _ _ _ fun _ => takeAccess_raises hc hs hf hd, solid_raise calm_solid hcalm ..⟩

end Machine

open Machine in
/-- Settles O30: what the checks that meet the kind give is the fault, and each instruction begins with its checks. -/
theorem accessFaultsTrap : Obligations.AccessFaultsTrap := by
  unfold Obligations.AccessFaultsTrap
  refine ⟨fun cs k va m x h => ?_, fun d a b => ?_, fun d a b => ?_, fun d a => ?_, fun d a b => ?_, fun d a b => ?_, fun d a b => ?_⟩
  · obtain ⟨c, r, e, rfl, rfl, rfl⟩ := laneFault_inv h
    have hmem : ∀ q, q ∈ c :: r ↔ q ∈ cs ∧ k ∈ q.faults := fun q => by rw [← e]; simp
    obtain ⟨hlow, hleast⟩ := foldl_least Check.lane r c
    obtain ⟨hcs, hk⟩ := (hmem _).mp hlow
    refine ⟨⟨_, hcs, hk, rfl, fun q hq hqk => hleast q ((hmem q).mpr ⟨hq, hqk⟩)⟩, fun q hq j hj => laneFault_rank_le h hq hj,
      fun l hl => ?_, ?_⟩
    · rw [getLsbD_lanesMask _ hl, List.contains_iff_mem, List.mem_eraseDups, List.mem_map]
      simp only [hmem, and_assoc]
    · exact (accessOf_spec (c :: r)).imp_left fun hall q hq hqk => hall q ((hmem q).mpr ⟨hq, hqk⟩)
  all_goals exact doesWhen_of_checks (fun _ => rfl) fun _ _ _ _ e => by dsimp only; rw [e]

end Sys2Proof
end

section
/-! PROOF. A prefetch of a line that the core holds dirty under another key index, with a poisoned word (R204, R375, R469): the copy goes to the home
segment first, and its poison with it. -/
namespace Sys2Proof

namespace Machine

/-- PREF of the lane addresses s2 + v3 into L1. -/
def prefLine : Instr := .pref 0 2 3
/-- Crew 0 may issue it for lane 0, at the address of its program, which its team may load and which has key index 0. Core 0 holds that line, number
512, dirty under key index 1 with its first word poisoned, as after a change of the page's key; no granule of memory is poisoned. -/
def poisonUnderOtherKey : State :=
  let s := (State.reset.withFetchWord 32 (wordOf prefLine).toNat).modCrew 0 fun c => ({ c with mode := 5 }.setS 5 1).setS 2 0x10000
  { s with cores := [(0, { l1 := [(512, { way := 0, set := 0, key := 1, bytes := List.replicate 128 0, pois := [0], dirty := true })] })] }

/-- The poisoned granules after an instruction. -/
def poisonAfter (r : Host.Outcome State Fault Refusal) : Option (List Nat) :=
  match r with
  | .next s => some s.poison
  | _ => none
theorem ready_poisonUnderOtherKey : (ready poisonUnderOtherKey prefLine).map (fun r => r.1.poison) = some [] := by decide
/-- The prefetch recalls no copy and puts no crew back, and yet it poisons a granule. -/
theorem pref_poisonUnderOtherKey : poisonAfter (exec prefLine poisonUnderOtherKey) = some [0x10000] := by decide

end Machine

open Machine in
/-- Refutes O31: the clause on PREF says that the poisoned granules are as before. A prefetch into L1 first drops the core's own copy of the line
where that has another key index, and a dirty copy takes the poison of its words to the home segment; no recall is needed, so the hint is not dropped. -/
theorem not_shapesFencesRegions : ¬ Obligations.ShapesFencesRegions := by
  unfold Obligations.ShapesFencesRegions
  rintro ⟨-, pref, -⟩
  obtain ⟨⟨s1, c, t⟩, hr, hbefore⟩ := Option.map_eq_some_iff.mp ready_poisonUnderOtherKey
  obtain ⟨s', e, s2, rfl, -, -, -, -, hpoison, -⟩ := pref 0 2 3 _ s1 c t hr trivial
  dsimp only at hbefore
  have hafter := pref_poisonUnderOtherKey
  rw [prefLine, e] at hafter
  simp [poisonAfter, hpoison, hbefore] at hafter

end Sys2Proof
end

section
/-! PROOF. The refill of a reservation pool (R409) in a state whose table of cores does not rise: a store of core 0 puts it before core 1, and the
entry that core 0 had after it stays. -/
namespace Sys2Proof

namespace Machine

/-- Function 0 runs on core 0, which holds one reservation for it; its trace buffer is active, with two positions free. The table lists core 1
before core 0. -/
def coresFall : State :=
  { State.reset with
    teams := [(0, { entry := 0, ctx := 0, tidx := 0, core := 0, crews := [] })]
    funcs := [(0, { trace := { wp := 253, stat := 1 } })]
    cores := [(1, {}), (0, { granted := 1 })] }

/-- The reservations of core 0 after an event. -/
def grantedAfter (r : Host.Outcome State Fault Refusal) : Option Nat :=
  match r with
  | .next s => some (s.core 0).granted
  | _ => none
/-- Two positions are free, and the refill takes one: it counts the reservation of core 0 twice. -/
theorem traceSpace_coresFall : traceSpace coresFall 0 = 2 := by decide
theorem refill_coresFall : grantedAfter (exec (.traceReservationRefill 0) coresFall) = some 2 := by decide

end Machine

open Machine in
/-- Refutes O55: the clause on TRACE_RESERVATION_REFILL is about every state, also one whose table of cores does not rise. The event stores its
core before it counts the free positions of the buffer. In such a table the store leaves two entries of the core, the count takes the reservations of
both off, and the pool gets one reservation less than the clause says. -/
theorem not_carveTraceTimeEvents : ¬ Obligations.CarveTraceTimeEvents := by
  unfold Obligations.CarveTraceTimeEvents
  rintro ⟨-, -, -, -, refill, -⟩
  obtain ⟨s', e, hgranted⟩ := refill coresFall 0 0 (by decide) (by decide) (by decide) (by decide)
  have hafter := refill_coresFall
  rw [e] at hafter
  simp only [grantedAfter, hgranted, traceSpace_coresFall] at hafter
  exact absurd hafter (by decide)

end Sys2Proof
end

section
/-! PROOF. The length of a sector under another key (R166, R467): AES and XTS give back as many bytes as they take. -/
namespace Sys2Proof

namespace Machine

theorem length_xorBytes (a b : List Byte) : (xorBytes a b).length = min a.length b.length := List.length_zipWith
@[simp] theorem length_shiftSub (b : List Byte) : (shiftSub b).length = 16 := by simp [shiftSub]
@[simp] theorem length_invShiftSub (b : List Byte) : (invShiftSub b).length = 16 := by simp [invShiftSub]
@[simp] theorem length_xtsDouble (t : List Byte) : (xtsDouble t).length = 16 := by simp [xtsDouble]

/-- A list of words of four bytes. -/
def KeyWords (n : Nat) (ws : List (List Byte)) : Prop := ws.length = n ∧ ∀ w ∈ ws, w.length = 4
theorem KeyWords.getD {n : Nat} {ws : List (List Byte)} (h : KeyWords n ws) {i : Nat} (hi : i < n) : (ws.getD i []).length = 4 := by
  have hlt : i < ws.length := h.1.symm ▸ hi
  rw [List.getD_eq_getElem _ _ hlt]
  exact h.2 _ (List.getElem_mem hlt)
theorem KeyWords.append {m n : Nat} {us ws : List (List Byte)} (h : KeyWords m us) (g : KeyWords n ws) : KeyWords (m + n) (us ++ ws) :=
  ⟨by rw [List.length_append, h.1, g.1], fun w hw => (List.mem_append.mp hw).elim (h.2 w) (g.2 w)⟩
theorem KeyWords.length_flatten {n : Nat} {ws : List (List Byte)} (h : KeyWords n ws) : ws.flatten.length = 4 * n := by
  have hsum : (ws.map List.length).sum = (ws.map List.length).length • 4 :=
    List.sum_eq_card_nsmul _ 4 (by simpa using h.2)
  rw [List.length_flatten, hsum, List.length_map, h.1, smul_eq_mul, mul_comm]

/-- The word that a step of the key expansion derives from the last one. -/
theorem keyWords_expandStep {k : List (List Byte)} (h : KeyWords 8 k) (i : Nat) : KeyWords 8 (expandStep i k) := by
  have hlast : (k.getD 7 []).length = 4 := h.getD (by decide)
  obtain ⟨a, b, c, d, e⟩ : ∃ a b c d, k.getD 7 [] = [a, b, c, d] := by
    match k.getD 7 [], hlast with
    | [a, b, c, d], _ => exact ⟨a, b, c, d, rfl⟩
  refine ⟨rfl, ?_⟩
  unfold expandStep
  simp only [e, List.forall_mem_cons, length_xorBytes, List.length_map, h.getD (show 0 < 8 by decide), h.getD (show 1 < 8 by decide),
    h.getD (show 2 < 8 by decide), h.getD (show 3 < 8 by decide), h.getD (show 4 < 8 by decide), h.getD (show 5 < 8 by decide),
    h.getD (show 6 < 8 by decide)]
  simp
theorem keyWords_expandKey (n : Nat) : ∀ (i : Nat) {k : List (List Byte)}, KeyWords 8 k → KeyWords (8 * (n + 1)) (expandKey n i k) := by
  induction n with
  | zero => exact fun _ _ h => h
  | succ n ih =>
    intro i k h
    rw [show 8 * (n + 1 + 1) = 8 + 8 * (n + 1) by ring]
    exact h.append (ih (i + 1) (keyWords_expandStep h i))
/-- Each of the fifteen round keys has the sixteen bytes of a block. -/
theorem length_roundKey {key : List Byte} (hkey : key.length = 32) {r : Nat} (hr : r < 15) : ((roundKeys key).getD r []).length = 16 := by
  have hwords : KeyWords 8 ((List.range 8).map fun i => (key.drop (4 * i)).take 4) := by
    refine ⟨by simp, fun w hw => ?_⟩
    obtain ⟨i, hi, rfl⟩ := List.mem_map.mp hw
    have := List.mem_range.mp hi
    simp only [List.length_take, List.length_drop]
    omega
  have hall := keyWords_expandKey 7 0 hwords
  have hround : KeyWords 4 (((expandKey 7 0 ((List.range 8).map fun i => (key.drop (4 * i)).take 4)).drop (4 * r)).take 4) := by
    refine ⟨?_, fun w hw => hall.2 w (List.mem_of_mem_drop (List.mem_of_mem_take hw))⟩
    rw [List.length_take, List.length_drop, hall.1]
    omega
  rw [show ((roundKeys key).getD r []) = _ from by
    unfold roundKeys
    rw [List.getD_eq_getElem _ _ (by simpa using hr), List.getElem_map, List.getElem_range]]
  exact hround.length_flatten

theorem length_aesBlock {key : List Byte} (hkey : key.length = 32) (b : List Byte) : (aesBlock (roundKeys key) b).length = 16 := by
  unfold aesBlock
  rw [length_xorBytes, length_shiftSub, length_roundKey hkey (by decide)]
  rfl
theorem length_aesInvBlock {key : List Byte} (hkey : key.length = 32) (b : List Byte) : (aesInvBlock (roundKeys key) b).length = 16 := by
  have hfold : ∀ (l : List Nat) (x : List Byte), x.length = 16 →
      (l.foldl (fun b r => invShiftSub (invMixColumns (xorBytes b ((roundKeys key).getD (13 - r) [])))) x).length = 16 :=
    fun l x hx => foldl_keeps (fun y => y.length = 16) _ (fun _ _ _ => length_invShiftSub _) l x hx
  unfold aesInvBlock
  rw [length_xorBytes, hfold _ _ (length_invShiftSub _), length_roundKey hkey (by decide)]
  rfl
/-- A sector of 32 bytes stays one. -/
theorem length_xtsMap {cipher : List Byte → List Byte} (hcipher : ∀ b, (cipher b).length = 16) {key : List Byte} (hkey : key.length = 64)
    (sec : Nat) (bs : List Byte) : (xtsMap cipher key sec bs).length = 32 := by
  have htweak : ∀ b, (aesBlock (roundKeys (key.drop 32)) b).length = 16 := length_aesBlock (by rw [List.length_drop, hkey])
  simp [xtsMap, xtsTweaks, length_xorBytes, hcipher, htweak]
theorem length_recrypt (s : State) (sec k g key : Nat) : (recrypt s sec k g key).length = 32 :=
  length_xtsMap (length_aesInvBlock (by simp [memKeyBytes])) (by simp [memKeyBytes]) ..

end Machine

end Sys2Proof
end

section
/-! PROOF. Bytes that reach their point of coherence (R4, R166, R208): what the writing key reads afterwards, and what the write leaves alone. -/
namespace Sys2Proof

theorem Tbl.mem_of_get? {α : Type} {t : Tbl α} {k : Nat} {v : α} (h : Tbl.get? t k = some v) : (k, v) ∈ t := by
  induction t with
  | nil => cases h
  | cons p t ih =>
    unfold Tbl.get? at h
    split at h
    · next hk => cases h; subst hk; exact List.mem_cons_self
    · exact List.mem_cons_of_mem _ (ih h)

namespace Machine

@[simp] theorem length_leBytes (n v : Nat) : (leBytes n v).length = n := by
  induction n generalizing v with
  | zero => rfl
  | succ n ih => simp [leBytes, ih]
theorem getD_leBytes {n i : Nat} (v : Nat) (hi : i < n) : (leBytes n v).getD i 0 = BitVec.ofNat 8 (v / 256 ^ i) := by
  induction n generalizing v i with
  | zero => omega
  | succ n ih =>
    cases i with
    | zero => simp [leBytes]
    | succ i =>
      show (leBytes n (v / 256)).getD i 0 = _
      rw [ih (v / 256) (by omega), Nat.div_div_eq_div_mul, pow_succ']

/-! One byte, where no page is in flight. -/
theorem route_self {s : State} (h : s.forwards = []) (a : Nat) : route s a = a := by simp [route, h]
theorem inHbm_sector (x : Nat) : inHbm (32 * (x / 32)) = inHbm x := by
  unfold inHbm Config.hbmBytes
  exact decide_eq_decide.mpr (by omega)
/-- A sector that the key has written, or that no key has, reads as it is stored. -/
theorem readByte_stored {s : State} {key x : Nat} (hf : s.forwards = [])
    (h : ∀ p, inHbm x = true → Tbl.get? s.secKey (x / 32) = some p → p = (key, keyGen s key)) :
    readByte s key x = Sparse.get (w := 8) s.mem x := by
  unfold readByte
  rw [route_self hf]
  dsimp only
  split
  · next hx =>
    split
    · rfl
    · next k g hk =>
      obtain ⟨rfl, rfl⟩ := Prod.mk.inj (h _ hx hk)
      exact if_pos ⟨rfl, rfl⟩
  · rfl
/-- A sector of another key reads as that key's bytes decrypted under this one. -/
theorem readByte_recrypted {s : State} {key x k g : Nat} (hf : s.forwards = []) (hx : inHbm x = true)
    (hk : Tbl.get? s.secKey (x / 32) = some (k, g)) (hne : ¬ (k = key ∧ g = keyGen s key)) :
    readByte s key x = (recrypt s (x / 32) k g key).getD (x % 32) 0 := by
  unfold readByte
  rw [route_self hf]
  dsimp only
  rw [if_pos hx, hk]
  exact if_neg hne

/-- Two states in which a sector has the same bytes and the same key, with the same generations of keys and no page in flight. -/
structure SameSector (s t : State) (sec : Nat) : Prop where
  forwards : t.forwards = s.forwards
  keys : t.sec = s.sec
  key : Tbl.get? t.secKey sec = Tbl.get? s.secKey sec
  bytes : ∀ x, x / 32 = sec → Sparse.get (w := 8) t.mem x = Sparse.get (w := 8) s.mem x
theorem keyGen_congr {s t : State} (h : t.sec = s.sec) (key : Nat) : keyGen t key = keyGen s key := by unfold keyGen; rw [h]
theorem recrypt_congr {s t : State} {sec : Nat} (h : SameSector s t sec) (k g key : Nat) : recrypt t sec k g key = recrypt s sec k g key := by
  have hplain : ((List.range 32).map fun i => Sparse.get (w := 8) t.mem (32 * sec + i)) =
      (List.range 32).map fun i => Sparse.get (w := 8) s.mem (32 * sec + i) :=
    List.map_congr_left fun i hi => h.bytes _ (by have := List.mem_range.mp hi; omega)
  unfold recrypt
  rw [hplain, keyGen_congr h.keys]
theorem readByte_congr {s t : State} (hf : s.forwards = []) {x : Nat} (h : SameSector s t (x / 32)) (key : Nat) :
    readByte t key x = readByte s key x := by
  unfold readByte
  rw [route_self hf, route_self (h.forwards.trans hf)]
  dsimp only
  rw [h.key, h.bytes x rfl, keyGen_congr h.keys]
  simp only [recrypt_congr h]

/-! A sector comes under a key. -/
/-- What a write leaves alone besides the bytes: the pages in flight, the keys and the entries. -/
structure Kept (s t : State) : Prop where
  forwards : t.forwards = s.forwards
  keys : t.sec = s.sec
  entries : t.entries = s.entries
theorem Kept.refl (s : State) : Kept s s := ⟨rfl, rfl, rfl⟩
theorem Kept.trans {s t u : State} (h : Kept s t) (g : Kept t u) : Kept s u :=
  ⟨g.forwards.trans h.forwards, g.keys.trans h.keys, g.entries.trans h.entries⟩
theorem kept_lineMove {s t : State} (h : LineMove s t) : Kept s t := by
  obtain ⟨_, _, _, _, _, _, _, _, _, _, rfl⟩ := h
  exact ⟨rfl, rfl, rfl⟩
theorem putList_touches (cached : Bool) (s : State) (a : Nat) (bs : List Byte) :
    ∃ u m, putList cached s a bs = { s with undo := u, mem := m } := by
  induction bs generalizing s a with
  | nil => exact ⟨s.undo, s.mem, rfl⟩
  | cons b t ih =>
    obtain ⟨u, m, e⟩ := ih (putByte cached s a b) (a + 1)
    exact ⟨u, m, e⟩
/-- The key of a sector after it has come under a key. -/
def keyedAs (s : State) (key sec : Nat) : Prop := inHbm (32 * sec) = true → Tbl.get? s.secKey sec = some (key, keyGen s key)

theorem rekey_touches (key : Nat) (s : State) (sec : Nat) : ∃ u m k, rekey key s sec = { s with undo := u, mem := m, secKey := k } := by
  unfold rekey
  dsimp only
  split
  · split
    · exact ⟨s.undo, s.mem, _, rfl⟩
    · split
      · exact ⟨s.undo, s.mem, s.secKey, rfl⟩
      · next k h _ _ =>
        obtain ⟨u, m, e⟩ := putList_touches false s (32 * sec) (recrypt s sec k h key)
        rw [e]
        exact ⟨u, m, _, rfl⟩
  · exact ⟨s.undo, s.mem, s.secKey, rfl⟩
theorem kept_rekey (key : Nat) (s : State) (sec : Nat) : Kept s (rekey key s sec) := by
  obtain ⟨_, _, _, e⟩ := rekey_touches key s sec
  rw [e]; exact ⟨rfl, rfl, rfl⟩
theorem keyedAs_rekey (key : Nat) (s : State) (sec : Nat) : keyedAs (rekey key s sec) key sec := by
  intro hx
  rw [keyGen_congr (kept_rekey key s sec).keys]
  unfold rekey
  dsimp only
  rw [if_pos hx]
  split
  · exact Tbl.get?_put_self ..
  · next k h hk =>
    split
    · next he => rw [hk, he.1, he.2]
    · exact Tbl.get?_put_self ..
theorem sameSector_rekey (key : Nat) (s : State) {sec j : Nat} (h : j ≠ sec) : SameSector s (rekey key s sec) j := by
  unfold rekey
  dsimp only
  split
  · split
    · exact ⟨rfl, rfl, Tbl.get?_put_ne _ _ h, fun _ _ => rfl⟩
    · next k g _ =>
      split
      · exact ⟨rfl, rfl, rfl, fun _ _ => rfl⟩
      · obtain ⟨u, m, e⟩ := putList_touches false s (32 * sec) (recrypt s sec k g key)
        have hmem : ∀ x, x / 32 = j → Sparse.get (w := 8) m x = Sparse.get (w := 8) s.mem x := by
          intro x hx
          have hput := mem_putList false s (32 * sec) x (recrypt s sec k g key)
          rw [e, length_recrypt, if_neg (by omega)] at hput
          exact hput
        rw [e]
        exact ⟨rfl, rfl, Tbl.get?_put_ne _ _ h, hmem⟩
  · exact ⟨rfl, rfl, rfl, fun _ _ => rfl⟩
/-- The bytes of a sector that come under a key read under it as before. -/
theorem mem_rekey {key : Nat} {s : State} (hf : s.forwards = []) {sec x : Nat} (h : x / 32 = sec) :
    Sparse.get (w := 8) (rekey key s sec).mem x = readByte s key x := by
  subst h
  unfold rekey
  dsimp only
  split
  · next hx =>
    rw [inHbm_sector] at hx
    split
    · next hk => exact (readByte_stored hf (by simp [hk])).symm
    · next k g hk =>
      split
      · next he => exact (readByte_stored hf (by simp [hk, he])).symm
      · next hne =>
        have hput := mem_putList false s (32 * (x / 32)) x (recrypt s (x / 32) k g key)
        obtain ⟨u, m, e⟩ := putList_touches false s (32 * (x / 32)) (recrypt s (x / 32) k g key)
        rw [e, length_recrypt, if_pos (by omega), show x - 32 * (x / 32) = x % 32 by omega] at hput
        rw [e, readByte_recrypted hf hx hk hne]
        exact hput
  · next hx =>
    rw [inHbm_sector] at hx
    exact (readByte_stored hf fun _ h => absurd h hx).symm
theorem readByte_rekey {key : Nat} {s : State} (hf : s.forwards = []) (sec x : Nat) : readByte (rekey key s sec) key x = readByte s key x := by
  by_cases h : x / 32 = sec
  · rw [readByte_stored ((kept_rekey key s sec).forwards.trans hf), mem_rekey hf h]
    intro p hx hp
    subst h
    rw [keyedAs_rekey key s (x / 32) (by rwa [inHbm_sector])] at hp
    exact (Option.some.inj hp).symm
  · exact readByte_congr hf (sameSector_rekey key s h) key
/-- So do the sectors that a write touches. -/
theorem rekeys (key base n : Nat) {s : State} (hf : s.forwards = []) :
    let t := (List.range n).foldl (fun s i => rekey key s (base + i)) s
    Kept s t ∧ (∀ i, i < n → keyedAs t key (base + i)) ∧ ∀ x, readByte t key x = readByte s key x := by
  induction n with
  | zero => exact ⟨.refl s, fun i hi => absurd hi (Nat.not_lt_zero i), fun _ => rfl⟩
  | succ n ih =>
    rw [List.range_succ, List.foldl_append]
    revert ih
    generalize (List.range n).foldl (fun s i => rekey key s (base + i)) s = t
    rintro ⟨hkept, hkeyed, hread⟩
    refine ⟨hkept.trans (kept_rekey ..), fun i hi => ?_, fun x => (readByte_rekey (hkept.forwards.trans hf) ..).trans (hread x)⟩
    show keyedAs (rekey key t (base + n)) key (base + i)
    by_cases h : i = n
    · subst h; exact keyedAs_rekey key t (base + i)
    · intro hx
      show Tbl.get? (rekey key t (base + n)).secKey _ = some (key, keyGen (rekey key t (base + n)) key)
      rw [(sameSector_rekey key t (show base + i ≠ base + n by omega)).key, keyGen_congr (kept_rekey key t (base + n)).keys]
      exact hkeyed i (by omega) hx

end Machine

end Sys2Proof
end

section
/-! PROOF. A store that is performed (R4, R208): its bytes read at its address, lowest byte first, and every other byte reads as before. -/
namespace Sys2Proof

namespace Machine

/-- The sectors that n bytes from an address touch come under a key. -/
def rekeySpan (key : Nat) (s : State) (a n : Nat) : State :=
  if n = 0 then s else (List.range ((a + n - 1) / 32 - a / 32 + 1)).foldl (fun s i => rekey key s (a / 32 + i)) s
theorem rekeySpan_spec (key : Nat) {s : State} (hf : s.forwards = []) (a n : Nat) :
    Kept s (rekeySpan key s a n) ∧ (∀ x, a ≤ x ∧ x < a + n → keyedAs (rekeySpan key s a n) key (x / 32)) ∧
      ∀ x, readByte (rekeySpan key s a n) key x = readByte s key x := by
  unfold rekeySpan
  split
  · exact ⟨.refl s, fun x hx => by omega, fun _ => rfl⟩
  · obtain ⟨hkept, hkeyed, hread⟩ := rekeys key (a / 32) ((a + n - 1) / 32 - a / 32 + 1) hf
    refine ⟨hkept, fun x hx => ?_, hread⟩
    have hsec := hkeyed (x / 32 - a / 32) (by omega)
    rwa [show a / 32 + (x / 32 - a / 32) = x / 32 by omega] at hsec
theorem putBytes_touches (key : Nat) (cached : Bool) (s : State) (a : Nat) (bs : List Byte) (bad : Bool) :
    ∃ u m ps, putBytes key cached s a bs bad = { rekeySpan key s a bs.length with undo := u, mem := m, poison := ps } ∧
      ∀ x, Sparse.get (w := 8) m x =
        if a ≤ x ∧ x < a + bs.length then bs.getD (x - a) 0 else Sparse.get (w := 8) (rekeySpan key s a bs.length).mem x := by
  obtain ⟨u, m, e⟩ := putList_touches cached (rekeySpan key s a bs.length) a bs
  have hmem := fun x => mem_putList cached (rekeySpan key s a bs.length) a x bs
  rw [e] at hmem
  have hput : putBytes key cached s a bs bad =
      { putList cached (rekeySpan key s a bs.length) a bs with poison := (putBytes key cached s a bs bad).poison } := rfl
  exact ⟨u, m, _, hput.trans (by rw [e]), hmem⟩
/-- Where the sectors of a span are under a key, bytes that are written there read as written, and every other byte reads as before: a sector that
is not under the key keeps all of its bytes. -/
theorem readByte_written {t v : State} {key a : Nat} {bs : List Byte} (hf : t.forwards = []) (hforwards : v.forwards = t.forwards)
    (hkeys : v.sec = t.sec) (hsectors : v.secKey = t.secKey)
    (hmem : ∀ x, Sparse.get (w := 8) v.mem x = if a ≤ x ∧ x < a + bs.length then bs.getD (x - a) 0 else Sparse.get (w := 8) t.mem x)
    (hkeyed : ∀ x, a ≤ x ∧ x < a + bs.length → keyedAs t key (x / 32)) (x : Nat) :
    readByte v key x = if a ≤ x ∧ x < a + bs.length then bs.getD (x - a) 0 else readByte t key x := by
  have under : ∀ y, a ≤ y ∧ y < a + bs.length → y / 32 = x / 32 → ∀ p, inHbm x = true → Tbl.get? t.secKey (x / 32) = some p →
      p = (key, keyGen t key) := by
    intro y hy hyx p hx hp
    have hk := hkeyed y hy
    rw [hyx] at hk
    exact Option.some.inj (hp.symm.trans (hk (by rwa [inHbm_sector])))
  have stored : (∀ p, inHbm x = true → Tbl.get? t.secKey (x / 32) = some p → p = (key, keyGen t key)) →
      readByte v key x = Sparse.get (w := 8) v.mem x := fun h =>
    readByte_stored (hforwards.trans hf) (by rw [hsectors, keyGen_congr hkeys]; exact h)
  by_cases hin : a ≤ x ∧ x < a + bs.length
  · rw [stored (under x hin rfl), hmem]
    simp only [if_pos hin]
  · rw [if_neg hin]
    by_cases hown : ∀ p, inHbm x = true → Tbl.get? t.secKey (x / 32) = some p → p = (key, keyGen t key)
    · rw [stored hown, readByte_stored hf hown, hmem, if_neg hin]
    · exact readByte_congr hf ⟨hforwards, hkeys, by rw [hsectors],
        fun y hyx => (hmem y).trans (if_neg fun hy => hown (under y hy hyx))⟩ key
/-- Bytes that are put read, under the key of their write, as what was put there, and every other byte reads as before. -/
theorem putBytes_spec (key : Nat) (cached : Bool) {s : State} (hf : s.forwards = []) (a : Nat) (bs : List Byte) (bad : Bool) :
    Kept s (putBytes key cached s a bs bad) ∧ ∀ x, readByte (putBytes key cached s a bs bad) key x =
      if a ≤ x ∧ x < a + bs.length then bs.getD (x - a) 0 else readByte s key x := by
  obtain ⟨hkept, hkeyed, hread⟩ := rekeySpan_spec key hf a bs.length
  obtain ⟨u, m, ps, e, hmem⟩ := putBytes_touches key cached s a bs bad
  rw [e]
  refine ⟨hkept.trans ⟨rfl, rfl, rfl⟩, fun x => ?_⟩
  rw [← hread x]
  refine readByte_written (hkept.forwards.trans hf) ?_ ?_ ?_ hmem hkeyed x <;> rfl

/-- The bytes of one line. -/
theorem performLine_spec {s : State} (hf : s.forwards = []) (core writer : Option Nat) (p : Attr) (a : Nat) (bs : List Byte) (bad : Bool)
    (pick : Nat → Option Nat) :
    Kept s (performLine s core writer p a bs bad pick) ∧ ∀ x, readByte (performLine s core writer p a bs bad pick) p.key x =
      if a ≤ x ∧ x < a + bs.length then bs.getD (x - a) 0 else readByte s p.key x := by
  unfold performLine
  rw [route_self hf]
  extract_lets at_ l s1 sent s2 s3
  have hmove : LineMove s s2 :=
    (lineMove_touch s p l).trans ((lineMove_recall _ core l).trans ((lineMove_time _ l).trans (lineMove_writeOwn _ core writer p l a bs bad)))
  have hf2 : s2.forwards = [] := (kept_lineMove hmove).forwards.trans hf
  obtain ⟨hkept, hread⟩ := putBytes_spec p.key (p.inL2 a && lineHeld s2 core l) hf2 a bs bad
  obtain ⟨cs, ts, ms, fs, fb, tm, n, -, e⟩ := evalMonitors_touches (rollbackLine s3 writer l pick sent) l
  have hback : LineMove s3 (rollbackLine s3 writer l pick sent) := lineMove_rollback ..
  have hsame : SameStore s3 (evalMonitors (rollbackLine s3 writer l pick sent) l) :=
    (sameStore_lineMove hback).trans (by rw [e]; exact ⟨rfl, rfl, rfl, rfl⟩)
  refine ⟨((kept_lineMove hmove).trans hkept).trans ((kept_lineMove hback).trans (by rw [e]; exact ⟨rfl, rfl, rfl⟩)), fun x => ?_⟩
  rw [hsame.sameBytes p.key x]
  exact (hread x).trans (by rw [(sameStore_lineMove hmove).sameBytes p.key x])

/-- The first byte of a span in the line m lines after its first, and the place after the last. -/
def lineLo (a m : Nat) : Nat := max a ((lineOf a + m) * 128)
def lineHi (a n m : Nat) : Nat := min (a + n) ((lineOf a + m + 1) * 128)
/-- With the piece of one more line written, the bytes before the next line are written. -/
theorem written_succ {a m : Nat} {bs : List Byte} (hpos : 0 < bs.length) (x : Nat) (r : Byte) :
    let piece := (bs.drop (lineLo a m - a)).take (lineHi a bs.length m - lineLo a m)
    (if lineLo a m ≤ x ∧ x < lineLo a m + piece.length then piece.getD (x - lineLo a m) 0
      else if a ≤ x ∧ x < min (a + bs.length) ((lineOf a + m) * 128) then bs.getD (x - a) 0 else r) =
    if a ≤ x ∧ x < min (a + bs.length) ((lineOf a + (m + 1)) * 128) then bs.getD (x - a) 0 else r := by
  intro piece
  have hlen : piece.length = lineHi a bs.length m - lineLo a m := by
    simp only [piece, List.length_take, List.length_drop, lineLo, lineHi]
    omega
  have hget : ∀ i, i < piece.length → piece.getD i 0 = bs.getD (lineLo a m - a + i) 0 := by
    intro i hi
    rw [hlen] at hi
    simp only [piece, List.getD_eq_getElem?_getD, List.getElem?_take, List.getElem?_drop, if_pos hi]
  split
  · next hnow =>
    rw [hget _ (by omega)]
    rw [hlen] at hnow
    unfold lineLo lineHi lineOf at *
    rw [if_pos (by omega)]
    congr 1
    omega
  · next hnow =>
    rw [hlen] at hnow
    unfold lineLo lineHi lineOf at *
    exact if_congr (by omega) rfl rfl
/-- Bytes that reach their point of coherence, line by line. -/
theorem performBytes_spec {s : State} (hf : s.forwards = []) (core writer : Option Nat) (p : Attr) (a : Nat) (bs : List Byte) (bad : Bool)
    (pick : Nat → Option Nat) :
    Kept s (performBytes s core writer p a bs bad pick) ∧ ∀ x, readByte (performBytes s core writer p a bs bad pick) p.key x =
      if a ≤ x ∧ x < a + bs.length then bs.getD (x - a) 0 else readByte s p.key x := by
  unfold performBytes
  by_cases hempty : bs.isEmpty = true
  · rw [if_pos hempty]
    have : bs.length = 0 := by simpa using hempty
    exact ⟨.refl s, fun x => (if_neg (by omega)).symm⟩
  · rw [if_neg hempty]
    have hpos : 0 < bs.length := by simpa [List.length_pos_iff] using hempty
    have hlines : ∀ m, m ≤ lineOf (a + bs.length - 1) - lineOf a + 1 →
        let t := (List.range m).foldl (fun s i => performLine s core writer p (lineLo a i)
          ((bs.drop (lineLo a i - a)).take (lineHi a bs.length i - lineLo a i)) bad pick) (noteReads s a bs.length)
        Kept s t ∧ ∀ x, readByte t p.key x =
          if a ≤ x ∧ x < min (a + bs.length) ((lineOf a + m) * 128) then bs.getD (x - a) 0 else readByte s p.key x := by
      intro m
      induction m with
      | zero =>
        refine fun _ => ⟨⟨rfl, rfl, rfl⟩, fun x => ?_⟩
        rw [if_neg (by unfold lineOf; omega)]
        rfl
      | succ m ih =>
        intro hm
        rw [List.range_succ, List.foldl_append]
        have ih := ih (by omega)
        revert ih
        generalize (List.range m).foldl _ (noteReads s a bs.length) = t
        rintro ⟨hkept, hread⟩
        obtain ⟨hk, hr⟩ := performLine_spec (hkept.forwards.trans hf) core writer p (lineLo a m)
          ((bs.drop (lineLo a m - a)).take (lineHi a bs.length m - lineLo a m)) bad pick
        refine ⟨hkept.trans hk, fun x => (hr x).trans ?_⟩
        rw [hread x]
        exact written_succ hpos x _
    obtain ⟨hkept, hread⟩ := hlines _ le_rfl
    refine ⟨hkept, fun x => (hread x).trans (if_congr ?_ rfl rfl)⟩
    unfold lineOf
    omega

/-! The end of an operation, where no entry is ending. -/
def NoneEnding (s : State) : Prop := ∀ p ∈ s.entries, ∀ st d, p.2.st ≠ .ending st d
theorem settleEntry_of_noneEnding {s : State} (h : NoneEnding s) (eid : Nat) : settleEntry s eid = s := by
  unfold settleEntry
  split
  · rfl
  · next e he =>
    split
    · next st d hst => exact absurd hst (h _ (Tbl.mem_of_get? he) st d)
    · rfl
/-- What bytes read and the entries are as before. -/
def SameStoreEntries (s t : State) : Prop := SameStore s t ∧ t.entries = s.entries
theorem SameStoreEntries.refl (s : State) : SameStoreEntries s s := ⟨.refl s, rfl⟩
theorem SameStoreEntries.trans {s t u : State} (h : SameStoreEntries s t) (g : SameStoreEntries t u) : SameStoreEntries s u :=
  ⟨h.1.trans g.1, g.2.trans h.2⟩
theorem SameStoreEntries.noneEnding {s t : State} (h : SameStoreEntries s t) (hs : NoneEnding s) : NoneEnding t := by
  unfold NoneEnding; rw [h.2]; exact hs
theorem Kept.noneEnding {s t : State} (h : Kept s t) (hs : NoneEnding s) : NoneEnding t := by
  unfold NoneEnding; rw [h.entries]; exact hs
theorem sameStoreEntries_ite {p : Prop} [Decidable p] {s a b : State} (ha : SameStoreEntries s a) (hb : SameStoreEntries s b) :
    SameStoreEntries s (if p then a else b) := by
  split
  · exact ha
  · exact hb
theorem sameStoreEntries_holdFault (s : State) (n : Nat) (o : Op) (regs : List Nat) (shape : Option Nat) (info : TrapInfo) :
    SameStoreEntries s (holdFault s n o regs shape info) := by
  obtain ⟨_, e⟩ := holdFault_touches s n o regs shape info
  rw [e]; exact ⟨⟨rfl, rfl, rfl, rfl⟩, rfl⟩
theorem sameStoreEntries_holdBad (s : State) (n : Nat) (o : Op) (regs : List Nat) (bad : List Acc) (ref : List (Acc × Nat)) :
    SameStoreEntries s (holdBad s n o regs bad ref) := by
  unfold holdBad
  split
  · exact .refl s
  · next c _ =>
    extract_lets s1
    have h1 : SameStoreEntries s s1 := by
      unfold s1
      split
      · exact sameStoreEntries_holdFault ..
      · exact .refl s
    split
    · exact h1.trans (sameStoreEntries_holdFault ..)
    · exact h1
theorem sameStoreEntries_completeOp (s : State) (n : Nat) : SameStoreEntries s (completeOp s n) := by
  obtain ⟨_, e⟩ := completeOp_touches s n
  rw [e]; exact ⟨⟨rfl, rfl, rfl, rfl⟩, rfl⟩
theorem sameStoreEntries_settleAbort (s : State) (key : Nat) : SameStoreEntries s (settleAbort s key) := by
  unfold settleAbort
  refine sameStoreEntries_ite (.refl s) ?_
  split
  · exact .refl s
  · split
    · exact .refl s
    · exact ⟨⟨rfl, rfl, rfl, rfl⟩, rfl⟩
theorem sameStore_finishOp {s : State} (h : NoneEnding s) (n : Nat) : SameStore s (finishOp s n) := by
  unfold finishOp
  split
  · exact .refl s
  · next o _ =>
    extract_lets s1 s2
    have h2 : SameStoreEntries s s2 := (sameStoreEntries_completeOp s n).trans (sameStoreEntries_ite (sameStoreEntries_settleAbort ..) (.refl _))
    split
    · rw [settleEntry_of_noneEnding (h2.noneEnding h)]
      exact h2.1
    · exact h2.1
theorem sameStore_settleStore {s : State} (h : NoneEnding s) (n : Nat) : SameStore s (settleStore s n) := by
  have finish : ∀ {t}, SameStoreEntries s t → SameStore s (finishOp t n) := fun ht => ht.1.trans (sameStore_finishOp (ht.noneEnding h) n)
  unfold settleStore
  split
  · exact .refl s
  · refine sameStore_ite (.refl s) ?_
    split
    · exact finish (sameStoreEntries_holdBad ..)
    · exact finish (.refl s)
    · refine finish (.trans ?_ (sameStoreEntries_holdBad ..))
      split
      · exact sameStoreEntries_ite (.refl s) (sameStoreEntries_holdFault ..)
      · exact sameStoreEntries_holdFault ..
    · exact .refl s
theorem sameStoreEntries_clearCovered (s : State) (as : List Acc) : SameStoreEntries s (clearCovered s as) :=
  sameStoreEntries_ite (.refl s) ⟨⟨rfl, rfl, rfl, rfl⟩, rfl⟩

/-- Where an access outside pod window space acts, and what its operation asks of it. -/
theorem reach_here {s : State} {func : Nat} {kind : PodKind} {a : Acc} (h : inPod a.pa = false) : reach s func kind a = .here a := by
  unfold reach; rw [h]; rfl
theorem landing_self {s : State} {team : Nat} {kind : PodKind} {a : Acc} (h : inPod a.pa = false) : landing s team kind a = a := by
  unfold landing; rw [h]; rfl

end Machine

open Machine in
/-- Settles O47: the access reaches its point of coherence by `performBytes`, and what the store's completion does after it changes no byte. -/
theorem storeReachesMemory : Obligations.StoreReachesMemory := by
  unfold Obligations.StoreReachesMemory
  intro n k s o a ho ha hf hending hpod hstore hdone htodo hmirror hperf hfirst hacked
  have first : ((o.accs.take k).all fun b => b.st != .todo || inMirror b.va || !overlap a (landing s o.team .store b)) = true := by
    refine List.all_eq_true.mpr fun b hb => ?_
    by_cases hst : b.st = .todo
    · rcases hfirst b hb hst with h | h <;> simp [h]
    · simp [hst]
  set s1 := setAcc s n k fun a => { a with st := .done }
  obtain ⟨hkept, hread⟩ := performBytes_spec (s := s1) hf (some o.core) (some o.crew) a.attr a.pa (leBytes a.size a.data.toNat) false
    (storeCause (some o.core))
  set here := o.accs.filter fun c => (c.st == .done || c == a) && !inMirror c.va && granOf c.pa == granOf a.pa
  set performed := performStore s1 (some o.core) (some o.crew) a
  set after := settleStore (clearCovered performed here) n
  have hcleared := sameStoreEntries_clearCovered performed here
  have hsame : SameStore performed after := hcleared.1.trans (sameStore_settleStore (hcleared.noneEnding (hkept.noneEnding hending)) n)
  have hbyte : ∀ x, readByte after a.key x =
      if a.pa ≤ x ∧ x < a.pa + a.size then (leBytes a.size a.data.toNat).getD (x - a.pa) 0 else readByte s a.key x := by
    intro x
    rw [hsame.sameBytes a.key x]
    have hx := hread x
    rw [length_leBytes] at hx
    exact hx
  refine ⟨after, ?_, fun i hi => ?_, fun x hx => ?_⟩
  · show execStorePerformed n k s = .next after
    unfold execStorePerformed
    simp only [ho, ha, landing_self hpod, reach_here hpod, hstore, hdone, htodo, hmirror, first, hperf, route_self hf, hacked]
    rfl
  · rw [hbyte, if_pos (by omega), Nat.add_sub_cancel_left, getD_leBytes _ hi]
  · rw [hbyte, if_neg (by omega)]

end Sys2Proof
end

section
/-! PROOF. The end of a drain (R286) in a state whose table of operations lists one operation twice: the first listing is marked and gone, and the
table then gives the second, which is not done. -/
namespace Sys2Proof

namespace Machine

/-- A drain of crew 0 whose reads and writes are all settled: it has no lanes. -/
def settledDrain : Op := { crew := 0, team := 0, core := 0, cls := some .tile, kind := .drain 0 [] }
/-- The table of operations lists the drain twice. -/
def drainTwice : State := { State.reset with crews := [(0, {})], ops := [(0, settledDrain), (0, settledDrain)] }

/-- Whether an operation is done after an event. -/
def doneAfter (r : Host.Outcome State Fault Refusal) (n : Nat) : Option Bool :=
  match r with
  | .next s => (Tbl.get? s.ops n).map (·.done)
  | _ => none
theorem drainComplete_drainTwice : doneAfter (exec (.drainComplete 0) drainTwice) 0 = some false := by decide

end Machine

open Machine in
/-- Refutes O49: the clause on DRAIN_COMPLETE is about every state, also one whose table of operations lists an operation twice. -/
theorem not_engineEvents : ¬ Obligations.EngineEvents := by
  unfold Obligations.EngineEvents
  rintro ⟨-, -, -, -, -, -, drain, -⟩
  obtain ⟨s', e, hdone, -⟩ := drain 0 drainTwice settledDrain {} 0 [] 0 ⟨by decide, by decide, rfl⟩ rfl rfl rfl rfl (by decide) (by decide)
  have hafter := drainComplete_drainTwice
  rw [e] at hafter
  obtain ⟨o', ho', hnot⟩ := Option.map_eq_some_iff.mp hafter
  exact absurd ((hdone o' ho').symm.trans hnot) (by decide)

end Sys2Proof
end

section
/-! PROOF. Invalidations at a core (R216), the waits of WAITC (R306 to R308) and starvation promotion (R101). -/
namespace Sys2Proof

theorem Tbl.get?_foldl_del {α : Type} (ls : List Nat) (t : Tbl α) (k : Nat) :
    Tbl.get? (ls.foldl Tbl.del t) k = if k ∈ ls then none else Tbl.get? t k := by
  induction ls generalizing t with
  | nil => rfl
  | cons l ls ih =>
    rw [List.foldl_cons, ih]
    by_cases hmem : k ∈ ls
    · simp [hmem]
    · by_cases h : k = l
      · subst h; simp
      · simp [hmem, h, Tbl.get?_del_ne]

namespace Machine

/-! What a core has received. -/

theorem applyInvs_core (s : State) (core : Nat) :
    (applyInvs s core).core core = { s.core core with l1 := (s.core core).inv.foldl Tbl.del (s.core core).l1, inv := [] } := by
  unfold applyInvs; rw [State.modCore_core, if_pos rfl]
theorem heard_core (s : State) (core sent k : Nat) : (heard s core sent).core k = s.core k := rfl

theorem invalidationReceive_spec {s : State} {core line : Nat} (hheld : (l1Line s core line).isSome = true)
    (hnew : (s.core core).inv.contains line = false) :
    Yields (.invalidationReceive core line) s fun s' => s' = s.modCore core fun k => { k with inv := k.inv ++ [line] } :=
  ⟨_, if_pos (by simp only [hheld, hnew]; rfl), rfl⟩
theorem invalidationApply_spec {s : State} {core : Nat} (h : (s.core core).inv ≠ []) :
    Yields (.invalidationApplyTimeout core) s fun s' => (s'.core core).inv = [] ∧
      (∀ l ∈ (s.core core).inv, Tbl.get? (s'.core core).l1 l = none) ∧
      ∀ l, l ∉ (s.core core).inv → Tbl.get? (s'.core core).l1 l = Tbl.get? (s.core core).l1 l := by
  refine ⟨applyInvs s core, if_neg (by simpa using h), ?_⟩
  dsimp only
  rw [applyInvs_core]
  exact ⟨rfl, fun l hl => (Tbl.get?_foldl_del ..).trans (if_pos hl), fun l hl => (Tbl.get?_foldl_del ..).trans (if_neg hl)⟩

/-! The end of a WAITC. -/

/-- What a WAITC's end drops are copies in L1. -/
theorem invsOf_touches (s : State) (key : Nat) (c : Crew) (pa : Nat) :
    ∃ ks u ps, invsOf s key c pa = { s with cores := ks, undo := u, poison := ps } := by
  unfold invsOf dropStale
  extract_lets s1
  obtain ⟨ks, u, ps, e⟩ : ∃ ks u ps, s1 = { s with cores := ks, undo := u, poison := ps } := by
    unfold s1
    split
    · exact dropOwnLine_touches ..
    · exact ⟨s.cores, s.undo, s.poison, rfl⟩
  rw [e]
  split
  · exact ⟨_, u, ps, rfl⟩
  · exact ⟨ks, u, ps, rfl⟩
theorem invsOf_crew? (s : State) (key : Nat) (c : Crew) (pa k : Nat) : (invsOf s key c pa).crew? k = s.crew? k := by
  obtain ⟨_, _, _, e⟩ := invsOf_touches s key c pa
  rw [e]; rfl
/-- An acquire at quad scope or wider leaves no invalidation that is received and not applied. -/
theorem invsOf_inv {s : State} {key : Nat} {c : Crew} (hord : mOrd c.mode = 1) (hscope : 2 ≤ (mScope c.mode).toNat) (pa : Nat) :
    ((invsOf s key c pa).core (coreOf key)).inv = [] := by
  unfold invsOf
  rw [if_pos ⟨hord, hscope⟩, applyInvs_core]

/-- A crew that has left its WAITC behind. -/
def pastWaitc (s : State) (c : Crew) : Crew := { c.acquired s with wait := .none, pc := c.pc + 4 }
theorem endWaitc_crew? {s : State} {key : Nat} {c : Crew} (h : s.crew? key = some c) :
    (endWaitc s key).crew? key = some (pastWaitc s c) := by
  unfold endWaitc; rw [State.modCrew_crew?, if_pos rfl, h]; rfl
theorem pastWaitc_regs (s : State) (c : Crew) : (pastWaitc s c).sregs = c.sregs ∧ (pastWaitc s c).vregs = c.vregs := by
  unfold pastWaitc Crew.acquired
  split <;> exact ⟨rfl, rfl⟩

theorem teamOfCrew_eq {s : State} {key : Nat} {c : Crew} {t : Team} (hc : s.crew? key = some c) (ht : s.team? c.team = some t) :
    teamOfCrew s key = some t := by unfold teamOfCrew; rw [hc]; exact ht

section
variable {s : State} {crew : Nat} {c : Crew} {t : Team} (hc : s.crew? crew = some c) (ht : s.team? c.team = some t)
include hc ht

theorem monitorWake_ends {v : DWord} {sent : Nat} (hw : c.wait = .woken (some v) sent) :
    Yields (.monitorWake crew) s fun s' =>
      (mOrd c.mode = 1 → 2 ≤ (mScope c.mode).toNat → (s'.core (coreOf crew)).inv = []) ∧ ∃ c', s'.crew? crew = some c' ∧
      c'.wait = .none ∧ c'.pc = c.pc + 4 ∧ c'.sregs = c.sregs ∧ c'.vregs = c.vregs := by
  set pa := (landing s c.team .load (mkAcc t true false 0 0 (c.getS ((wordAt s t c.pc).extractLsb' 8 6)).toNat 1)).pa
  set heardAll := heard (invsOf s crew c pa) (coreOf crew) sent
  obtain ⟨hsregs, hvregs⟩ := pastWaitc_regs heardAll c
  refine ⟨endWaitc heardAll crew, ?_, fun hord hscope => invsOf_inv hord hscope pa, pastWaitc heardAll c, ?_, rfl, rfl, hsregs, hvregs⟩
  · show execMonitorWake crew s = _
    unfold execMonitorWake
    rw [hc, teamOfCrew_eq hc ht]
    simp only [hw]
    rfl
  · exact endWaitc_crew? ((invsOf_crew? ..).trans hc)

theorem monitorWake_poisoned {sent : Nat} (hw : c.wait = .woken none sent) (hs : c.spec = none) :
    Yields (.monitorWake crew) s fun s' => s' = raise (heard s (coreOf crew) sent) crew
      { kind := .poison, resume := c.pc, fault := c.pc, word := wordAt s t c.pc, addr := c.getS ((wordAt s t c.pc).extractLsb' 8 6), mask := 1 } := by
  refine ⟨_, ?_, rfl⟩
  show execMonitorWake crew s = _
  unfold execMonitorWake
  rw [hc, teamOfCrew_eq hc ht]
  simp only [hw, trapAt, BitVec.ofNat_toNat, BitVec.setWidth_eq]
  rw [trapOrStop_raises (s := heard s (coreOf crew) sent) hc hs]
end

theorem waitcPoll_spec {s : State} {crew x : Nat} {c : Crew} {m : Monitor} (hc : s.crew? crew = some c) (hw : c.wait = .monitor)
    (hm : (s.monitors.find? fun m => m.crew == crew && m.polled && !m.relaunch) = some m)
    (hx : waitRead s crew m.team m.acq m.acc = some (.ok (x, false))) :
    (condHolds m.cond m.acc.size x m.value.toNat = false → Yields (.waitcPoll crew) s fun s' => s' = s) ∧
    (condHolds m.cond m.acc.size x m.value.toNat = true → Yields (.waitcPoll crew) s fun s' => ∃ c', s'.crew? crew = some c' ∧
      c'.wait = .none ∧ c'.pc = c.pc + 4) := by
  set others : State := { s with monitors := s.monitors.filter (· != m) }
  set pa := (landing s m.team .load m.acc).pa
  have hread : exec (.waitcPoll crew) s =
      .next (if condHolds m.cond m.acc.size x m.value.toNat then endWaitc (invsOf others crew c pa) crew else s) := by
    show execWaitcPoll crew s = _
    unfold execWaitcPoll
    simp only [hc, hm, hx, hw]
    rfl
  refine ⟨fun h => ⟨s, ?_, rfl⟩, fun h => ⟨_, hread.trans (by rw [if_pos h]), pastWaitc (invsOf others crew c pa) c, ?_, rfl, rfl⟩⟩
  · rw [hread, h]; rfl
  · exact endWaitc_crew? ((invsOf_crew? ..).trans hc)

theorem starvationPromote_spec {s : State} {crew : Nat} {c : Crew} (hc : s.crew? crew = some c) (h : 64 ≤ c.ready) :
    Yields (.issueStarvationPromote crew) s fun s' => s' = { s with promoted := setAdd s.promoted crew } := by
  refine ⟨_, ?_, rfl⟩
  show execIssueStarvationPromote crew s = _
  unfold execIssueStarvationPromote
  simp only [hc, h, if_true]

end Machine

end Sys2Proof
end

section
/-! PROOF. Relaunches of a halted team (R308, R309) and the halt on a WAITC's threshold (R308, R378). -/
namespace Sys2Proof

namespace Machine

/-- A queued relaunch: the team's relaunch entries are removed, and the relaunch is queued, or due once the halt is complete. -/
theorem queueRelaunch_spec {s : State} {team : Nat} {t : Team} (ht : s.team? team = some t) :
    ∃ t', (queueRelaunch s team).team? team = some t' ∧ (if t.isHalted = true then t'.relaunch = some s.nextId else t'.due = true) ∧
      ∀ m ∈ (queueRelaunch s team).monitors, m.team = team → m.relaunch = false := by
  refine ⟨_, (State.modTeam_team? ..).trans ((if_pos rfl).trans (congrArg _ ht)), ?_, fun m hm hteam => ?_⟩
  · unfold Team.isHalted
    cases hhalt : t.halt <;> simp [hhalt]
  · have hkept := (List.mem_filter.mp hm).2
    simpa [hteam] using hkept

/-- A relaunch entry that no monitor serves. -/
def isPolled (team : Nat) (m : Monitor) : Bool := m.team == team && m.relaunch && m.polled
theorem isPolled_iff {team : Nat} {m : Monitor} : isPolled team m = true ↔ m.team = team ∧ m.relaunch = true ∧ m.polled = true := by
  simp [isPolled, and_assoc]
/-- The poll of an entry finds that its condition holds. -/
def pollHits (s : State) (m : Monitor) : Bool :=
  match waitRead s m.crew m.team m.acq m.acc with
  | some (.ok (x, false)) => condHolds m.cond m.acc.size x m.value.toNat
  | _ => false
theorem pollHits_read {s : State} {m : Monitor} {x : Nat} (h : waitRead s m.crew m.team m.acq m.acc = some (.ok (x, false))) :
    pollHits s m = condHolds m.cond m.acc.size x m.value.toNat := by unfold pollHits; rw [h]

section
variable {s : State} {team : Nat} {t : Team} (ht : s.team? team = some t)
  (hentries : (s.monitors.any fun m => m.team == team && m.relaunch && m.polled) = true)
  (hfree : ∀ x, Tbl.get? s.ctxs t.ctx = some x → frontHeld s x.slice = false)
include ht hentries hfree

/-- The front end polls the team's entries. -/
theorem relaunchPoll_eq : exec (.relaunchPoll team) s =
    .next (if (s.monitors.filter (isPolled team)).any (pollHits s) = true then queueRelaunch s team else s) := by
  have hsome : (s.monitors.filter (isPolled team)).isEmpty = false := by
    obtain ⟨m, hm, hp⟩ := List.any_eq_true.mp hentries
    exact List.isEmpty_eq_false_iff_exists_mem.mpr ⟨m, List.mem_filter.mpr ⟨hm, hp⟩⟩
  show execRelaunchPoll team s = _
  unfold execRelaunchPoll
  extract_lets ms held hit
  have hheld : held = false := by
    unfold held
    rw [ht]
    dsimp only
    split
    · next x hx => exact hfree x hx
    · rfl
  rw [if_neg (by rw [show ms.isEmpty = false from hsome, hheld]; decide)]
  exact (apply_ite ..).symm
theorem relaunchPoll_hit (h : ∃ m ∈ s.monitors, m.team = team ∧ m.relaunch = true ∧ m.polled = true ∧ ∃ x,
      waitRead s m.crew m.team m.acq m.acc = some (.ok (x, false)) ∧ condHolds m.cond m.acc.size x m.value.toNat = true) :
    exec (.relaunchPoll team) s = .next (queueRelaunch s team) := by
  obtain ⟨m, hm, hteam, hrelaunch, hpolled, x, hread, hcond⟩ := h
  have hin := List.mem_filter.mpr ⟨hm, isPolled_iff.mpr ⟨hteam, hrelaunch, hpolled⟩⟩
  rw [relaunchPoll_eq ht hentries hfree, if_pos (List.any_eq_true.mpr ⟨m, hin, (pollHits_read hread).trans hcond⟩)]
theorem relaunchPoll_miss (h : ∀ m ∈ s.monitors, m.team = team → m.relaunch = true → m.polled = true → ∃ x,
      waitRead s m.crew m.team m.acq m.acc = some (.ok (x, false)) ∧ condHolds m.cond m.acc.size x m.value.toNat = false) :
    exec (.relaunchPoll team) s = .next s := by
  have hnone : (s.monitors.filter (isPolled team)).any (pollHits s) = false := by
    refine List.any_eq_false.mpr fun m hm => ?_
    obtain ⟨hm, hp⟩ := List.mem_filter.mp hm
    obtain ⟨hteam, hrelaunch, hpolled⟩ := isPolled_iff.mp hp
    obtain ⟨x, hread, hcond⟩ := h m hm hteam hrelaunch hpolled
    rw [pollHits_read hread, hcond]
    decide
  rw [relaunchPoll_eq ht hentries hfree, hnone]
  rfl
end

/-! The halt of a team (R378): what it does to its crews leaves its own halt and the monitors. -/

/-- The monitors are the same, and no team's halt has changed. -/
def SameHalts (s t : State) : Prop := t.monitors = s.monitors ∧ ∀ tid, (t.team? tid).map (·.halt) = (s.team? tid).map (·.halt)
theorem SameHalts.of_teams {s t : State} (hm : t.monitors = s.monitors) (ht : t.teams = s.teams) : SameHalts s t :=
  ⟨hm, fun tid => by unfold State.team?; rw [ht]⟩
theorem SameHalts.refl (s : State) : SameHalts s s := .of_teams rfl rfl
theorem SameHalts.trans {s t u : State} (h : SameHalts s t) (g : SameHalts t u) : SameHalts s u :=
  ⟨g.1.trans h.1, fun tid => (g.2 tid).trans (h.2 tid)⟩
theorem sameHalts_emitCrewA (s : State) (key : Nat) (event arg : BitVec 8) (payload : Word) (cause : Nat) :
    SameHalts s (emitCrewA s key event arg payload cause) := by
  obtain ⟨_, _, _, _, e⟩ := emitCrewA_touches s key event arg payload cause
  rw [e]; exact .of_teams rfl rfl
theorem sameHalts_stallOver (s : State) (key : Nat) (c : Crew) : SameHalts s (stallOver s key c).1 := by
  obtain ⟨_, _, e⟩ := stallOver_touches s key c
  rw [e]; exact .of_teams rfl rfl
theorem sameHalts_rollback (s : State) (key cause line sent : Nat) : SameHalts s (rollback s key cause line sent) := by
  obtain ⟨_, _, _, _, _, _, e⟩ := rollback_touches s key cause line sent
  rw [e]; exact .of_teams rfl rfl
/-- Semaphores of a team change, its halt does not. -/
theorem sameHalts_modTeam {f : Team → Team} (hf : ∀ t, (f t).halt = t.halt) (s : State) (tid : Nat) : SameHalts s (s.modTeam tid f) := by
  refine ⟨rfl, fun k => ?_⟩
  rw [State.modTeam_team?]
  split
  · next h => subst h; rw [Option.map_map]; exact congrArg (Option.map · _) (funext hf)
  · rfl
theorem semAdd_halt (t : Team) (sem : Nat) (d : Int) : (semAdd t sem d).halt = t.halt := by unfold semAdd; rfl
theorem foldl_semAdd_halt (l : List (Nat × Int)) (t : Team) : (l.foldl (fun t p => semAdd t p.1 (-p.2)) t).halt = t.halt := by
  induction l generalizing t with
  | nil => rfl
  | cons p l ih => exact (ih _).trans (semAdd_halt ..)
theorem sameHalts_settleAbort (s : State) (key : Nat) : SameHalts s (settleAbort s key) := by
  unfold settleAbort
  split
  · exact .refl s
  · split
    · exact .refl s
    · split
      · exact .refl s
      · next r _ => exact (SameHalts.of_teams rfl rfl).trans (sameHalts_modTeam (foldl_semAdd_halt r.sems) ..)
theorem sameHalts_abortRegion (s : State) (key : Nat) (why : BitVec 8) (sent : Nat) : SameHalts s (abortRegion s key why sent) := by
  unfold abortRegion
  split
  · exact .refl s
  · split
    · exact .refl s
    · exact (sameHalts_emitCrewA ..).trans (.trans (.of_teams rfl rfl) (sameHalts_settleAbort ..))
theorem sameHalts_haltCrew (s : State) (key : Nat) (why : HaltWhy) (sent : Nat) : SameHalts s (haltCrew s key why sent) := by
  unfold haltCrew
  split
  · exact .refl s
  · split
    · exact .refl s
    · extract_lets s1 s2
      have h1 : SameHalts s s1 := by
        unfold s1
        split
        · exact .refl s
        · exact (sameHalts_abortRegion ..).trans (sameHalts_rollback ..)
      have h2 : SameHalts s s2 := h1.trans (.of_teams rfl rfl)
      split
      · exact h2.trans ((sameHalts_stallOver ..).trans (sameHalts_emitCrewA ..))
      · exact h2

/-- The state in which the crews of a running team begin to stop. -/
theorem haltTeam_running {s : State} {tid : Nat} {t : Team} (ht : s.team? tid = some t) (hrun : t.halt = .running) (why : HaltWhy) :
    ∃ b, SameHalts b (haltTeam s tid why) ∧ (b.team? tid).map (·.halt) = some (.halting why) ∧
      (why = .threshold → b.monitors = s.monitors.map fun m => if m.team = tid then { m with relaunch := true } else m) := by
  unfold haltTeam
  rw [ht]
  dsimp only
  rw [if_neg (by simp [hrun])]
  refine ⟨_, foldl_keeps (SameHalts _) _ (fun x k h => h.trans (sameHalts_haltCrew x k why _)) _ _ (.refl _), ?_, fun h => if_pos h⟩
  rw [State.modTeam_team?, if_pos rfl, Option.map_map]
  exact congrArg (Option.map _) ht
theorem haltTeam_halting {s : State} {tid : Nat} {t : Team} (ht : s.team? tid = some t) (hrun : t.halt = .running) (why : HaltWhy) :
    ∃ t', (haltTeam s tid why).team? tid = some t' ∧ t'.halt = .halting why := by
  obtain ⟨b, hsame, hhalt, -⟩ := haltTeam_running ht hrun why
  exact Option.map_eq_some_iff.mp ((hsame.2 tid).trans hhalt)
/-- On a threshold its monitors become relaunch entries. -/
theorem haltTeam_monitors {s : State} {tid : Nat} {t : Team} (ht : s.team? tid = some t) (hrun : t.halt = .running) :
    ∀ m ∈ (haltTeam s tid .threshold).monitors, m.team = tid → m.relaunch = true := by
  obtain ⟨b, hsame, -, hmonitors⟩ := haltTeam_running ht hrun .threshold
  rw [hsame.1, hmonitors rfl]
  intro m hm hteam
  obtain ⟨k, -, rfl⟩ := List.mem_map.mp hm
  by_cases h : k.team = tid
  · rw [if_pos h]
  · rw [if_neg h] at hteam; exact absurd hteam h

theorem monitorThresholdHalt_spec {s : State} {crew : Nat} {c : Crew} {t : Team} {m : Monitor} (hc : s.crew? crew = some c)
    (ht : s.team? c.team = some t) (hm : (s.monitors.find? fun m => m.crew == crew && !m.relaunch) = some m) (hlimit : t.monthr ≠ 0)
    (hrun : t.halt = .running) (hlate : t.monthr * 16000 < s.time.master - m.start) :
    Yields (.monitorThresholdHalt crew) s fun s' => (∃ t', s'.team? c.team = some t' ∧ t'.halt = .halting .threshold) ∧
      ∀ m' ∈ s'.monitors, m'.team = c.team → m'.relaunch = true := by
  obtain ⟨fs, fb, tm, -, e⟩ := emitA_touches s
    (sliceDie s (match Tbl.get? s.ctxs t.ctx with | some x => x.slice | none => 0)) 0x34 (funcOfTeam s c.team) none 0x24 0
    (BitVec.ofNat 32 t.tidx) 0 (some t.ctx)
  set recorded : State := { s with funcs := fs, fabric := fb, time := tm }
  refine ⟨haltTeam recorded c.team .threshold, ?_, haltTeam_halting (s := recorded) ht hrun .threshold, haltTeam_monitors (s := recorded) ht hrun⟩
  show execMonitorThresholdHalt crew s = _
  unfold execMonitorThresholdHalt
  simp only [hc, ht, hm]
  rw [if_pos ⟨hlimit, hrun, hlate⟩]
  exact congrArg (fun x => Host.Outcome.next (haltTeam x c.team .threshold)) e

end Machine

end Sys2Proof
end

section
/-! PROOF. The wide contexts of the barriers (R312, R314, R317, R321): a message is applied there, and a completed phase reaches a core. -/
namespace Sys2Proof

theorem Tbl.get?_map {α : Type} {f : Nat × α → Nat × α} (hf : ∀ p, (f p).1 = p.1) (t : Tbl α) (k : Nat) :
    Tbl.get? (t.map f) k = (Tbl.get? t k).map fun v => (f (k, v)).2 := by
  induction t with
  | nil => rfl
  | cons p t ih =>
    show (if (f p).1 = k then some (f p).2 else Tbl.get? (t.map f) k) = (if p.1 = k then some p.2 else Tbl.get? t k).map _
    rw [hf]
    split
    · next h => subst h; rfl
    · exact ih

namespace Machine

/-- R314: a barrier once its phase, if it is due, is over. -/
def Barrier.settled (b : Barrier) : Barrier := if b.armed && b.arr == b.e then b.next else b
theorem emitA_wideMsgs (s : State) (die src func : Nat) (crew : Option Nat) (event arg : BitVec 8) (payload : Word) (cause : Nat)
    (ctx : Option Nat) : (emitA s die src func crew event arg payload cause ctx).wideMsgs = s.wideMsgs := by
  obtain ⟨_, _, _, -, e⟩ := emitA_touches s die src func crew event arg payload cause ctx
  rw [e]
/-- The state of a wide context once its phase, if it is due, is over. -/
theorem settleWide_spec {s : State} {ctx : Nat} {b : Barrier} (h : Tbl.get? s.wide ctx = some b) :
    (settleWide s ctx).wideMsgs = s.wideMsgs ∧ Tbl.get? (settleWide s ctx).wide ctx = some b.settled := by
  unfold settleWide Barrier.settled
  rw [h]
  dsimp only
  split
  · exact ⟨emitA_wideMsgs .., Tbl.get?_put_self ..⟩
  · exact ⟨rfl, h⟩
theorem settleWide_open {s : State} {ctx : Nat} {b : Barrier} (h : Tbl.get? s.wide ctx = some b) (hopen : b.armed = true → b.arr ≠ b.e) :
    settleWide s ctx = s := by
  unfold settleWide
  rw [h]
  exact if_neg (by simpa using hopen)

/-- A barrier that has counted an arrival, and n drops with it. -/
structure Counted (b k : Barrier) (n : Nat) : Prop where
  armed : k.armed = b.armed
  e : k.e = b.e
  phase : k.phase = b.phase
  arr : k.arr = b.arr + 1
  drops : k.drops = b.drops + n
theorem Counted.due {b k : Barrier} {n : Nat} (h : Counted b k n) (harmed : b.armed = true) (hlast : b.arr + 1 = b.e) :
    k.settled.phase = b.phase + 1 ∧ k.settled.arr = 0 ∧ k.settled.drops = 0 ∧ k.settled.e = b.e - (b.drops + n) := by
  have : k.settled = k.next := if_pos (by simp [h.armed, harmed, h.arr, h.e, hlast])
  rw [this]
  exact ⟨congrArg (· + 1) h.phase, rfl, rfl, by rw [← h.e, ← h.drops]; rfl⟩
theorem Counted.undue {b k : Barrier} {n : Nat} (h : Counted b k n) (hopen : b.armed = false ∨ b.arr + 1 ≠ b.e) :
    k.settled.phase = b.phase ∧ k.settled.arr = b.arr + 1 ∧ k.settled.e = b.e ∧ k.settled.drops = b.drops + n := by
  have : k.settled = k := if_neg (by rw [h.armed, h.arr, h.e]; rcases hopen with h | h <;> simp [h])
  rw [this]
  exact ⟨h.phase, h.arr, h.e, h.drops⟩

section
variable {s : State} {ctx : Nat} {m : WideMsg} (hm : (s.wideMsgs.find? fun x => x.ctx == ctx && x.crew == m.crew) = some m)
include hm

/-- An arrival or a drop is counted at the context. -/
theorem wideBarrierArrival_counts (hwhat : m.what = .arrive ∨ m.what = .arriveSplit ∨ m.what = .drop) :
    ∃ (x : State) (k : Barrier), exec (.wideBarrierArrival ctx m.crew) s = .next (settleWide { x with wide := Tbl.put x.wide ctx k } ctx) ∧
      x.wideMsgs = s.wideMsgs.erase m ∧ Counted (Tbl.getD s.wide ctx {}) k (if m.what = .drop then 1 else 0) := by
  have e : exec (.wideBarrierArrival ctx m.crew) s = execWideBarrierArrival ctx m.crew s := rfl
  unfold execWideBarrierArrival at e
  rw [hm] at e
  dsimp only at e
  rcases hwhat with h | h | h <;> rw [h] at e ⊢
  · refine ⟨_, _, e, ?_⟩
    exact ⟨rfl, rfl, rfl, rfl, rfl, rfl⟩
  · refine ⟨_, _, e, ?_⟩
    exact ⟨rfl, rfl, rfl, rfl, rfl, rfl⟩
  · refine ⟨{ s with wideMsgs := s.wideMsgs.erase m }, _, e, ?_⟩
    exact ⟨rfl, rfl, rfl, rfl, rfl, rfl⟩
theorem wideBarrierArrival_spec (hwhat : m.what = .arrive ∨ m.what = .arriveSplit ∨ m.what = .drop) :
    let b := Tbl.getD s.wide ctx {}
    Yields (.wideBarrierArrival ctx m.crew) s fun s' => s'.wideMsgs = s.wideMsgs.erase m ∧ ∃ b', Tbl.get? s'.wide ctx = some b' ∧
      (b.armed = true → b.arr + 1 = b.e → b'.phase = b.phase + 1 ∧ b'.arr = 0 ∧ b'.drops = 0 ∧
        b'.e = b.e - (b.drops + if m.what = .drop then 1 else 0)) ∧
      (b.armed = false ∨ b.arr + 1 ≠ b.e → b'.phase = b.phase ∧ b'.arr = b.arr + 1 ∧ b'.e = b.e ∧
        b'.drops = b.drops + if m.what = .drop then 1 else 0) := by
  obtain ⟨x, k, e, hmsgs, hcounted⟩ := wideBarrierArrival_counts hm hwhat
  obtain ⟨hkept, hwide⟩ := settleWide_spec (s := { x with wide := Tbl.put x.wide ctx k }) (Tbl.get?_put_self ..)
  exact ⟨_, e, hkept.trans hmsgs, _, hwide, hcounted.due, hcounted.undue⟩

variable {k : DWord} {c : Crew} (hk : m.what = .arm k) (hc : s.crew? m.crew = some c)
include hk hc

/-- A BARI that cannot arm the context traps. -/
theorem wideBarrierArrival_refused {t : Team} (hspec : c.spec = none) (ht : s.team? c.team = some t)
    (harm : (Tbl.getD s.wide ctx {}).arm k.toNat = none) :
    Yields (.wideBarrierArrival ctx m.crew) s fun s' =>
      s' = raise ({ s with wideMsgs := s.wideMsgs.erase m }.setCrew m.crew { c with wait := .none }) m.crew
        { kind := .barrierState, resume := c.pc, fault := c.pc, word := wordAt s t c.pc,
          detail := barDetail m.handle (Tbl.getD s.wide ctx {}).phase } := by
  refine ⟨_, ?_, rfl⟩
  show execWideBarrierArrival ctx m.crew s = _
  unfold execWideBarrierArrival
  rw [hm]
  dsimp only
  rw [hk, show ({ s with wideMsgs := s.wideMsgs.erase m } : State).crew? m.crew = some c from hc]
  dsimp only
  rw [harm, show ({ s with wideMsgs := s.wideMsgs.erase m } : State).team? c.team = some t from ht]
  refine congrArg Host.Outcome.next (trapOrStop_raises (c := { c with wait := .none }) ?_ hspec _)
  exact (State.setCrew_crew? ..).trans (if_pos rfl)

/-- One that arms it is applied there, and its crew goes on. -/
theorem wideBarrierArrival_armed {b' : Barrier} (hregion : c.region = none) (hbuf : c.buf = [])
    (harm : (Tbl.getD s.wide ctx {}).arm k.toNat = some b') (hopen : b'.armed = true → b'.arr ≠ b'.e) :
    exec (.wideBarrierArrival ctx m.crew) s = retireArmed ({ { s with wideMsgs := s.wideMsgs.erase m }.setCrew m.crew
      { c with wait := .armed } with wide := Tbl.put s.wide ctx b' }) m.crew := by
  show execWideBarrierArrival ctx m.crew s = _
  unfold execWideBarrierArrival
  rw [hm]
  dsimp only
  rw [hk, show ({ s with wideMsgs := s.wideMsgs.erase m } : State).crew? m.crew = some c from hc]
  dsimp only
  rw [harm]
  dsimp only
  rw [closeRegion_none (s := { s with wideMsgs := s.wideMsgs.erase m }) hc hregion, settleWide_open (Tbl.get?_put_self ..) hopen]
  have hsame : { c with region := none, buf := [], wait := Wait.armed } = { c with wait := .armed } := by rw [hregion, hbuf]
  rw [hsame]
  rfl
end

/-! A crew whose BARI has been applied goes on (R410, R413). -/

/-- A record of a crew finds a reservation, or its function is not traced. -/
def Reserved (s : State) (key : Nat) (c : Crew) : Prop :=
  (0 < (s.core (coreOf key)).granted ∧ (s.core (coreOf key)).grantee = funcOfTeam s c.team) ∨
    (s.func (funcOfTeam s c.team)).trace.cfg.getLsbD 0 = false
theorem emitS_reserved {s : State} {key : Nat} {c : Crew} (hcalm : s.fabric.starved = false) (hc : s.crew? key = some c)
    (hr : Reserved s key c) (event arg : BitVec 8) (payload : Word) (spec : Bool) :
    (emitS s key event arg payload spec).fabric.starved = false := by
  rcases hr with hgranted | hoff
  · unfold emitS
    rw [hc]
    dsimp only
    split
    · split
      · exact hcalm
      · next hnone => exact absurd hgranted hnone
    · exact hcalm
  · rw [emitS_undelivered hc (by unfold delivers; dsimp only; rw [hoff]; rfl)]
    exact hcalm
theorem emitIssue_touches (s : State) (key : Nat) (c : Crew) (op : BitVec 8) :
    ∃ fs fb tm cs, emitIssue s key c op = { s with funcs := fs, fabric := fb, time := tm, cores := cs } := by
  unfold emitIssue
  split
  · exact emitS_touches ..
  · exact ⟨s.funcs, s.fabric, s.time, s.cores, rfl⟩
/-- A crew that retires an instruction in which it waited. -/
def Crew.retired (c : Crew) : Crew := { c with wait := .none }.advance
/-- It retires the BARI, and stalls neither before nor after. -/
theorem retireArmed_spec {s : State} {key : Nat} {c : Crew} (hc : s.crew? key = some c) (hw : c.wait = .armed)
    (hcalm : s.fabric.starved = false) (hstalled : c.stalled = none) (hsum : c.stallSum = 0) (hr : Reserved s key c) :
    ∃ s', retireArmed s key = .next s' ∧ s'.wide = s.wide ∧ s'.crew? key = some c.retired := by
  set after := s.setCrew key c.retired
  have hafter : after.crew? key = some c.retired := (State.setCrew_crew? ..).trans (if_pos rfl)
  have hlate : retireLate s key c 0x99 = emitIssue after key c 0x99 := by
    unfold retireLate; rw [endStall_unstalled hstalled hsum]; rfl
  have hgoes : (emitIssue after key c 0x99).fabric.starved = false := by
    unfold emitIssue
    split
    · exact emitS_reserved (s := after) hcalm hafter hr ..
    · exact hcalm
  obtain ⟨fs, fb, tm, cs, e⟩ := emitIssue_touches after key c 0x99
  refine ⟨emitIssue after key c 0x99, ?_, ?_⟩
  · unfold retireArmed orStall
    simp only [hc, hw, hlate, hgoes]
    rfl
  · rw [e]
    exact ⟨rfl, hafter⟩

/-! The completion of a phase reaches a core. -/

/-- Whether a crew waits on a core for a phase of a wide context, with no message of its own under way. -/
def waitsForPhase (s : State) (ctx core : Nat) (phase : Word) (p : Nat × Crew) : Bool :=
  let h := ctx / 2 ^ 12 % 256
  coreOf p.1 == core && p.2.wait == .barrier h phase && !inFlight s p.1 h &&
    (match s.team? p.2.team with | some t => wideOf s t h == ctx | none => false)
/-- Its wait ends (R317). -/
def endPhaseWait (s : State) (ctx core : Nat) (phase : Word) (p : Nat × Crew) : Nat × Crew :=
  if waitsForPhase s ctx core phase p then (p.1, { p.2 with wait := .none, acqAt := s.nextOp }) else p
theorem endPhaseWait_key (s : State) (ctx core : Nat) (phase : Word) (p : Nat × Crew) : (endPhaseWait s ctx core phase p).1 = p.1 := by
  unfold endPhaseWait; split <;> rfl
theorem wideBarrierCompletion_eq {s : State} {ctx core : Nat} {m : Nat × Nat × Word × Nat}
    (hm : (s.wideDone.find? fun m => m.1 == ctx && m.2.1 == core) = some m) :
    exec (.wideBarrierCompletion ctx core) s = .next (applyInvs (heard
      { s with wideDone := s.wideDone.erase m, crews := s.crews.map (endPhaseWait s ctx core m.2.2.1) } core m.2.2.2) core) := by
  show execWideBarrierCompletion ctx core s = _
  unfold execWideBarrierCompletion
  rw [hm]
  rfl
theorem endPhaseWait_crew? {s : State} {ctx core key : Nat} {phase : Word} {c : Crew} {t : Team} (hc : s.crew? key = some c)
    (hcore : coreOf key = core) (hw : c.wait = .barrier (ctx / 2 ^ 12 % 256) phase) (hclear : inFlight s key (ctx / 2 ^ 12 % 256) = false)
    (ht : s.team? c.team = some t) (hctx : wideOf s t (ctx / 2 ^ 12 % 256) = ctx) :
    Tbl.get? (s.crews.map (endPhaseWait s ctx core phase)) key = some { c with wait := .none, acqAt := s.nextOp } := by
  have hwaits : waitsForPhase s ctx core phase (key, c) = true := by
    unfold waitsForPhase
    simp only [hcore, hw, hclear, ht, hctx, beq_self_eq_true]
    rfl
  rw [Tbl.get?_map (endPhaseWait_key s ctx core phase), show Tbl.get? s.crews key = some c from hc]
  exact congrArg some (congrArg Prod.snd (if_pos hwaits))
theorem wideBarrierCompletion_spec {s : State} {ctx core : Nat} {m : Nat × Nat × Word × Nat}
    (hm : (s.wideDone.find? fun m => m.1 == ctx && m.2.1 == core) = some m) :
    Yields (.wideBarrierCompletion ctx core) s fun s' =>
      s'.wideDone = s.wideDone.erase m ∧ (s'.core core).inv = [] ∧
      ∀ key c t, s.crew? key = some c → coreOf key = core → c.wait = .barrier (ctx / 2 ^ 12 % 256) m.2.2.1 →
        inFlight s key (ctx / 2 ^ 12 % 256) = false → s.team? c.team = some t → wideOf s t (ctx / 2 ^ 12 % 256) = ctx →
        s'.crew? key = some { c with wait := .none, acqAt := s.nextOp } :=
  ⟨_, wideBarrierCompletion_eq hm, rfl, congrArg Core.inv (applyInvs_core ..),
    fun _ _ _ hc hcore hw hclear ht hctx => endPhaseWait_crew? hc hcore hw hclear ht hctx⟩

end Machine

open Machine in
/-- Settles O51, event by event. -/
theorem waitAndBarrierEvents : Obligations.WaitAndBarrierEvents := by
  unfold Obligations.WaitAndBarrierEvents
  extract_lets unhindered
  refine ⟨fun _ _ _ => invalidationReceive_spec, fun _ _ => invalidationApply_spec, fun _ _ _ _ _ _ hc ht => monitorWake_ends hc ht,
    fun _ _ _ _ _ hc ht => monitorWake_poisoned hc ht, fun _ _ _ _ _ hc hw => waitcPoll_spec hc hw, ?relaunch,
    fun _ _ _ _ _ => monitorThresholdHalt_spec, fun _ _ _ => wideBarrierArrival_spec, ?armed,
    fun _ _ _ _ _ _ hm hk hc hspec => wideBarrierArrival_refused hm hk hc hspec, fun _ _ _ _ => wideBarrierCompletion_spec,
    fun _ _ _ => starvationPromote_spec⟩
  case relaunch =>
    intro s team t ht hentries hfree
    exact ⟨fun h => ⟨_, relaunchPoll_hit ht hentries hfree h, queueRelaunch_spec ht⟩,
      fun h => ⟨s, relaunchPoll_miss ht hentries hfree h, rfl⟩⟩
  case armed =>
    rintro s ctx m k c b' hm hk hc hregion hspec hbuf ⟨hcalm, hstalled, hsum, hr⟩ harm hopen
    set armed : State := { { s with wideMsgs := s.wideMsgs.erase m }.setCrew m.crew { c with wait := .armed } with
      wide := Tbl.put s.wide ctx b' }
    obtain ⟨s', e, hwide, hcrew⟩ := retireArmed_spec (s := armed) ((State.setCrew_crew? ..).trans (if_pos rfl)) rfl hcalm hstalled hsum hr
    exact ⟨s', (wideBarrierArrival_armed hm hk hc hregion hbuf harm hopen).trans e, by rw [hwide]; exact Tbl.get?_put_self .., _, hcrew, rfl, rfl⟩

end Sys2Proof
end

section
/-! PROOF. Copies at their issue (R223, R234, R239, R240): the blocks of lanes and the elements of a box, when no check fails. -/
namespace Sys2Proof

namespace Machine

theorem calm_addOp {s : State} (h : Calm s) (o : Op) : Calm (addOp s o) := h
theorem calm_retire {s : State} (h : Calm s) (c : Crew) : Calm (retire s c) := h
theorem calm_raceLoads {s : State} (h : Calm s) (pa size : Nat) : Calm (raceLoads s pa size) := h
theorem calm_issueCopy {s : State} (h : Calm s) (c : Crew) (word : Word) (sem : Nat) (closes : Bool) (parts : List CopyPart) :
    Calm (issueCopy s c word sem closes parts) := by
  refine foldl_keeps Calm _ (fun _ _ hs => solid_ownLines calm_solid hs ..) _ _ (calm_addOp ?_ _)
  refine foldl_keeps Calm _ (fun _ _ hs => calm_raceLoads hs ..) _ _ (calm_retire ?_ _)
  exact solid_ite calm_solid (solid_closeRegion calm_solid h ..) h

@[simp] theorem raceLoads_cur (s : State) (pa size : Nat) : (raceLoads s pa size).cur = s.cur := rfl
/-- The race of loads with an engine's lines leaves the crew of the current move. -/
theorem foldl_raceLoads_cur (team : Nat) (dst : List Acc) (s : State) :
    (dst.foldl (fun s a => let b := landing s team .store a; raceLoads s b.pa b.size) s).cur = s.cur :=
  foldl_keeps (fun x : State => x.cur = s.cur) _ (fun _ _ h => (raceLoads_cur ..).trans h) _ _ rfl

/-- The blocks of a lane-wise copy, one for each active lane (R239). -/
def laneParts (z : Nat) (a b : VReg) (c : Crew) (t : Team) : List CopyPart :=
  (c.actives t.width).map fun l =>
    { row := l, src := some (mkAcc t true false l 0 (c.getPair b.toNat l).toNat z), dst := mkAcc t false true l 0 (c.getPair a.toNat l).toNat z }
/-- No block meets a fault. -/
def LanesFit (z : Nat) (a b : VReg) (c : Crew) (t : Team) : Prop :=
  ∀ l ∈ c.actives t.width, accessFaults t true false true false z (c.getPair b.toNat l).toNat z = [] ∧
    accessFaults t false true true false z (c.getPair a.toNat l).toNat z = []
theorem LanesFit.takeAccess {z : Nat} {a b : VReg} {c : Crew} {t : Team} (h : LanesFit z a b c t) (s : State) (key : Nat) (word : Word) :
    takeAccess s key c t word (laneChecks t true false true false z z (pairAddrs c t b) ++
      laneChecks t false true true false z z (pairAddrs c t a)) = none := by
  refine takeAccess_none (List.forall_mem_append.mpr ⟨laneChecks_faults ?_, laneChecks_faults ?_⟩)
  · exact List.forall_mem_map.mpr fun l hl => (h l hl).1
  · exact List.forall_mem_map.mpr fun l hl => (h l hl).2

/-- CPY4, CPY8 and CPY16 with the sizes of their blocks. -/
def laneCopies (d : BitVec 6) (a b : VReg) : List (Instr × Nat) := [(Instr.cpy4 d a b, 4), (.cpy8 d a b, 8), (.cpy16 d a b, 16)]
/-- With its checks passed each issues its blocks, or is counted at once where it has none. -/
theorem exec_copyLanes (d : BitVec 6) (a b : VReg) : ∀ q ∈ laneCopies d a b,
    ∃ body, (∀ s, exec q.1 s = issue s (needOf s q.1) body) ∧ ∀ s c t, LanesFit q.2 a b c t → body s c t =
      if c.actives t.width = [] then retire (addDone s s.cur c .copy (.copy d.toNat []) (wordOf q.1)) c
      else issueCopy s c (wordOf q.1) d.toNat ((c.actives t.width).any fun l => placeOf (c.getPair a.toNat l).toNat == .global)
        (keepLastPart (laneParts q.2 a b c t)) := by
  intro q hq
  simp only [laneCopies, List.mem_cons, List.not_mem_nil, or_false] at hq
  rcases hq with rfl | rfl | rfl
  all_goals
    refine ⟨_, fun _ => rfl, fun s c t hfit => ?_⟩
    dsimp only
    rw [hfit.takeAccess]
    simp only [pairAddrs, List.isEmpty_iff, List.map_eq_nil_iff, List.any_map, List.zip_map', List.map_map]
    rfl

/-- The parts of a tensor copy (R240): to the shape, its elements in bounds; from it, every element, which reads zeros out of bounds. -/
def tensorParts (t : Team) (sh : Shape) (toShape : Bool) (es : List TensorElem) : List CopyPart :=
  if toShape then es.filterMap fun e => e.sh.map fun va =>
    { row := e.row, src := some (mkAcc t true false e.row 0 e.dense sh.z), dst := mkAcc t false true e.row 0 va sh.z }
  else es.map fun e => { row := e.row, src := e.sh.map fun va => mkAcc t true false e.row 0 va sh.z,
                         dst := mkAcc t false true e.row 0 e.dense sh.z }
/-- The part that an element comes to, if any. -/
def tensorPart (t : Team) (sh : Shape) (toShape : Bool) (e : TensorElem) : Option CopyPart :=
  if toShape then e.sh.map fun va =>
    { row := e.row, src := some (mkAcc t true false e.row 0 e.dense sh.z), dst := mkAcc t false true e.row 0 va sh.z }
  else some { row := e.row, src := e.sh.map fun va => mkAcc t true false e.row 0 va sh.z, dst := mkAcc t false true e.row 0 e.dense sh.z }
theorem filterMap_tensorPart (t : Team) (sh : Shape) (toShape : Bool) (es : List TensorElem) :
    es.filterMap (tensorPart t sh toShape) = tensorParts t sh toShape es := by
  cases toShape with
  | true => rfl
  | false => exact congrFun List.filterMap_eq_map es
/-- A tensor copy of a valid shape passes its checks (R240). -/
def TensorFits (h : BitVec 4) (b : SReg) (sh : Shape) (c : Crew) (t : Team) : Prop :=
  let w := c.getS (sregAt b sh.rank)
  shapeHeld c h.toNat = false ∧ Tbl.get? t.shapes h.toNat = some sh ∧ b.toNat + sh.rank ≤ 63 ∧ w.extractLsb' 56 7 = 0 ∧
    (w.extractLsb' 0 56).toNat % 16 = 0 ∧
    tensorFault t sh (w.extractLsb' 0 56).toNat (w.getLsbD 63) (tensorElems c sh b (w.extractLsb' 0 56).toNat) = none
theorem exec_cpyt (d : BitVec 6) (h : BitVec 4) (b : SReg) (sh : Shape) : ∃ body,
    (∀ s, exec (.cpyt d h b) s = issue s (needOf s (.cpyt d h b)) body) ∧ ∀ s c t, TensorFits h b sh c t → body s c t =
      let w := c.getS (sregAt b sh.rank)
      let dense := (w.extractLsb' 0 56).toNat
      issueCopy s c (wordOf (.cpyt d h b)) d.toNat (if w.getLsbD 63 then placeOf sh.base == .global else placeOf dense == .global)
        (tensorParts t sh (w.getLsbD 63) (tensorElems c sh b dense)) := by
  refine ⟨_, fun _ => rfl, fun s c t hfit => ?_⟩
  obtain ⟨hheld, hshape, hregs, hzero, haligned, hfault⟩ := hfit
  have hoperand : ¬ (63 < b.toNat + sh.rank ∨ (c.getS (sregAt b sh.rank)).extractLsb' 56 7 ≠ 0) := by
    simp only [hzero, ne_eq, not_true, or_false]
    omega
  dsimp only
  rw [if_neg (by simp [hheld]), hshape]
  dsimp only
  rw [if_neg hoperand, if_neg (not_not.mpr haligned), hfault, ← filterMap_tensorPart]
  refine congrArg (issueCopy s c _ _ _) (List.filterMap_congr fun e _ => ?_)
  generalize (c.getS (sregAt b sh.rank)).getLsbD 63 = toShape
  cases hsh : e.sh <;> cases toShape <;> simp [tensorPart, hsh]

end Machine

open Machine in
/-- Settles O32: the copies differ in their parts, and every copy issues in the same way. -/
theorem copiesIssue : Obligations.CopiesIssue := by
  unfold Obligations.CopiesIssue
  intro out lanes
  have issues : ∀ i s c sem global parts, issueCopy s c (wordOf i) sem global parts = out i s c sem global parts := by
    intro i s c sem global parts
    unfold issueCopy
    dsimp only [out]
    cases global with
    | false => simp only [Bool.false_eq_true, if_false, foldl_raceLoads_cur, retire_cur]
    | true => simp only [if_true, foldl_raceLoads_cur, retire_cur, closeRegion_cur]
  refine ⟨fun d a b => ?_, fun d a b i hi => ?_, fun d h b sh => ?_⟩
  · have lanes_of : ∀ q ∈ laneCopies d a b, lanes q.1 q.2 d a b := fun q hq => by
      obtain ⟨body, hx, hb⟩ := exec_copyLanes d a b q hq
      exact doesWhen_of_calm hx fun s c t ⟨hne, hfit⟩ hcalm =>
        ⟨((hb s c t hfit).trans (if_neg hne)).trans (issues ..), issues q.1 .. ▸ calm_issueCopy hcalm ..⟩
    exact ⟨lanes_of (_, 4) (by simp [laneCopies]), lanes_of (_, 8) (by simp [laneCopies]), lanes_of (_, 16) (by simp [laneCopies])⟩
  · obtain ⟨q, hq, rfl⟩ := List.mem_map.mp (show i ∈ (laneCopies d a b).map Prod.fst from hi)
    obtain ⟨body, hx, hb⟩ := exec_copyLanes d a b q hq
    exact doesWhen_of_body hx fun s c t hnil => ⟨(hb s c t (by simp [LanesFit, hnil])).trans (if_pos hnil), addDone_fabric ..⟩
  · obtain ⟨body, hx, hb⟩ := exec_cpyt d h b sh
    exact doesWhen_of_calm hx fun s c t hfit hcalm => ⟨(hb s c t hfit).trans (issues ..), issues (.cpyt d h b) .. ▸ calm_issueCopy hcalm ..⟩

end Sys2Proof
end

section
/-! PROOF. Semaphores (R216, R236, R242 to R244): when the order of R216 lets a crew go on, what a crew that takes a count leaves, and the outcomes of
SEMSET, SEMACQ, SEMTRY and SEMRD. -/
namespace Sys2Proof

namespace Machine

/-! The order of R216. -/
theorem Settled.orderOver {s : State} (h : Settled s) (key ord : Nat) (acq rel wide : Bool) : orderOver s key ord acq rel wide = true := by
  obtain ⟨hops, hbulk⟩ := h
  have howned : bulkOwned s key ord = true := by
    refine List.all_eq_true.mpr fun p hp => ?_
    split
    · simp [hbulk p hp]
    · rfl
  unfold Machine.orderOver
  simp only [howned, Bool.or_true, Bool.true_and, List.all_eq_true]
  exact fun p hp => by simp [hops p hp]
/-- An acquire waits for no operation of its crew that is performed or has no order. -/
theorem orderOver_acquire {s : State} {key : Nat}
    (h : ∀ p ∈ s.ops, p.2.crew = key → p.2.performed = true ∨ (p.2.acq = false ∧ p.2.rel = false)) (ord : Nat) (wide : Bool) :
    orderOver s key ord true false wide = true := by
  unfold orderOver
  simp only [Bool.not_false, Bool.true_or, Bool.true_and, List.all_eq_true]
  intro p hp
  by_cases hkey : p.2.crew = key
  · rcases h p hp hkey with hdone | ⟨hacq, hrel⟩
    · simp [hdone]
    · simp [hacq, hrel]
  · simp [hkey]
/-- Everything waits for an older acquire that is not performed. -/
theorem orderOver_of_acquire {s : State} {key ord : Nat}
    (h : ∃ p ∈ s.ops, p.1 < ord ∧ p.2.crew = key ∧ p.2.acq = true ∧ p.2.performed = false) (acq rel wide : Bool) :
    orderOver s key ord acq rel wide = false := by
  obtain ⟨p, hp, hord, hkey, hacq, hdone⟩ := h
  unfold orderOver
  exact Bool.and_eq_false_imp.mpr fun _ => List.all_eq_false.mpr ⟨p, hp, by simp [hord, hkey, hacq, hdone]⟩

/-! A count. -/
theorem State.modTeam_of_team? {s : State} {k : Nat} {t : Team} (h : s.team? k = some t) (f : Team → Team) :
    s.modTeam k f = s.setTeam k (f t) := by
  unfold State.modTeam Tbl.upd
  rw [show Tbl.get? s.teams k = some t from h]
  rfl
/-- The count of a semaphore that a crew takes k from. -/
theorem semAdd_neg {t : Team} {sem k : Nat} (h : k ≤ (Sparse.get t.sems sem).toNat) :
    semAdd t sem (-(k : Int)) = { t with sems := Sparse.set t.sems sem (BitVec.ofNat 32 ((Sparse.get t.sems sem).toNat - k)) } := by
  have hlt := (Sparse.get t.sems sem).isLt
  have hv : ((Sparse.get t.sems sem).toNat + -(k : Int)) = ((Sparse.get t.sems sem).toNat - k : Nat) := by omega
  unfold semAdd
  simp only [hv]
  rw [if_neg (by omega), if_neg (by omega), BitVec.ofInt_natCast]
/-- A crew takes k from a semaphore that has them: the team's other semaphores keep their counts, and the crew waits for none. -/
theorem takeSem_spec {s : State} {c : Crew} {t : Team} {tid sem k : Nat} (hteam : c.team = tid) (ht : s.team? tid = some t)
    (hk : k ≤ (Sparse.get t.sems sem).toNat) :
    ∃ t', takeSem s c sem k = (retire s { c.noteSem sem (-(k : Int)) with acqAt := s.nextOp }).setTeam tid t' ∧
      t' = { t with sems := t'.sems, semWait := t.semWait.filter fun x => x.2 != s.cur } ∧
      (Sparse.get t'.sems sem).toNat + k = (Sparse.get t.sems sem).toNat ∧ ∀ j, j ≠ sem → Sparse.get t'.sems j = Sparse.get t.sems j := by
  subst hteam
  have hlt := (Sparse.get t.sems sem).isLt
  refine ⟨{ semAdd t sem (-(k : Int)) with semWait := t.semWait.filter fun x => x.2 != s.cur },
    State.modTeam_of_team? (s := retire s _) ht _, ?_⟩
  rw [semAdd_neg hk]
  refine ⟨rfl, ?_, fun j hj => Sparse.get_set_ne _ _ hj⟩
  simp only [Sparse.get_set_self, BitVec.toNat_ofNat]
  omega

/-! The line of a semaphore. -/

/-- The crews that wait at a semaphore, in the order in which they are served (R242). -/
def semLine (t : Team) (d : BitVec 6) : List (Nat × Nat) := t.semWait.filter fun x => x.1 == d.toNat
theorem semLine_any {t : Team} {d : BitVec 6} {key : Nat} :
    ((semLine t d).any fun x => x.2 == key) = true ↔ ∃ x ∈ t.semWait, x.1 = d.toNat ∧ x.2 = key := by
  simp [semLine]
/-- Nobody waits before a crew where the line is empty or begins with it. -/
def firstInLine (t : Team) (d : BitVec 6) (key : Nat) : Bool := match semLine t d with | [] => true | x :: _ => x.2 == key
theorem firstInLine_of_find {t : Team} {d : BitVec 6} {key : Nat}
    (h : match t.semWait.find? fun x => x.1 == d.toNat with | none => True | some x => x.2 = key) : firstInLine t d key = true := by
  unfold firstInLine semLine
  rw [← List.head?_filter] at h
  cases e : t.semWait.filter fun x => x.1 == d.toNat with
  | nil => rfl
  | cons x l => rw [e] at h; exact beq_iff_eq.mpr h
/-- A crew that is not in a line that somebody is in is not served. -/
theorem firstInLine_of_not_mem {t : Team} {d : BitVec 6} {key : Nat} (hout : ∀ x ∈ t.semWait, x.1 = d.toNat → x.2 ≠ key)
    (hsome : ∃ x ∈ t.semWait, x.1 = d.toNat) : firstInLine t d key = false := by
  obtain ⟨x, hx, hd⟩ := hsome
  have hmem : x ∈ semLine t d := List.mem_filter.mpr ⟨hx, beq_iff_eq.mpr hd⟩
  unfold firstInLine
  cases e : semLine t d with
  | nil => rw [e] at hmem; cases hmem
  | cons y l =>
    obtain ⟨hy, hyd⟩ := List.mem_filter.mp (show y ∈ semLine t d from e ▸ List.mem_cons_self)
    exact beq_eq_false_iff_ne.mpr (hout y hy (beq_iff_eq.mp hyd))

/-! SEMACQ. -/

/-- The count that SEMACQ takes. -/
def semNeed (a : SReg) (c : Crew) : Nat := if a = 0 then 1 else (c.getS a).toNat
/-- What SEMACQ does, by what it finds. -/
theorem exec_semacq (d : BitVec 6) (a : SReg) : ∃ body, (∀ s, exec (.semacq d a) s = issue s (needOf s (.semacq d a)) body) ∧
    ∀ s c t, body s c t =
      if 0xFFFFFFFF < semNeed a c then trapAt s s.cur c (wordOf (.semacq d a)) .operand
      else if semNeed a c = 0 then retire s c
      else if !orderOver s s.cur s.nextOp true false false then s
      else if firstInLine t d s.cur && decide (semNeed a c ≤ (Sparse.get t.sems d.toNat).toNat) then takeSem s c d.toNat (semNeed a c)
      else if (semLine t d).any fun x => x.2 == s.cur then s
      else s.modTeam c.team fun t => { t with semWait := t.semWait ++ [(d.toNat, s.cur)] } :=
  ⟨_, fun _ => rfl, fun _ _ _ => rfl⟩

end Machine

open Machine in
/-- Settles O33: SEMSET is not held back where everything is settled, and SEMACQ and SEMTRY find the count, the line and the order of R216. -/
theorem semaphores : Obligations.Semaphores := by
  unfold Obligations.Semaphores
  intro count free taken need
  refine ⟨fun d a => ?_, fun d a => ?_, ?_⟩
  · refine doesWhen_of_body (fun _ => rfl) fun s c t ⟨ho, ht, hs, hlt⟩ => ⟨?_, rfl⟩
    dsimp only
    rw [if_neg (by omega), ho.close, ho.same, if_pos (hs.orderOver ..)]
    exact State.modTeam_of_team? (s := retire s c) ht _
  · refine trapsWhen_of_body (fun _ => rfl) fun s c t hc hs h => ?_
    exact (if_pos (by omega)).trans (trapOrStop_raises hc hs _)
  choose body hx hb using exec_semacq
  refine ⟨fun d a => ?_, fun d a => ?_, fun d a => ?_, fun d a => ?_, fun d a => ?_, fun d a => ?_, fun d a => ?_, fun d a => ?_⟩
  · refine trapsWhen_of_body (hx d a) fun s c t hc hs (h : 2 ^ 32 ≤ semNeed a c) => ?_
    rw [hb, if_pos (by omega)]
    exact trapOrStop_raises hc hs _
  · refine gives_of_body (hx d a) fun s c t ⟨ht, hfree, hline, (hpos : 0 < semNeed a c),
      (hle : semNeed a c ≤ (Sparse.get t.sems d.toNat).toNat)⟩ => ?_
    have hlt := (Sparse.get t.sems d.toNat).isLt
    rw [hb, if_neg (by omega), if_neg (by omega), if_neg (by simp [orderOver_acquire hfree]),
      if_pos (by simpa [firstInLine_of_find hline] using hle)]
    exact ⟨takeSem_spec rfl ht hle, rfl⟩
  · refine doesWhen_of_body (hx d a) fun s c t (h : semNeed a c = 0) => ⟨?_, rfl⟩
    rw [hb, if_neg (by omega), if_pos h]
  · refine doesWhen_of_body (hx d a) fun s c t ⟨ht, hfree, hout, (hpos : 0 < semNeed a c), (hlt : semNeed a c < 2 ^ 32), hshort⟩ => ⟨?_, rfl⟩
    have hkept : ¬ (firstInLine t d s.cur && decide (semNeed a c ≤ (Sparse.get t.sems d.toNat).toNat)) = true := by
      rcases hshort with (hshort : _ < semNeed a c) | hwaits
      · simpa using fun _ => hshort
      · simp [firstInLine_of_not_mem hout hwaits]
    rw [hb, if_neg (by omega), if_neg (by omega), if_neg (by simp [orderOver_acquire hfree]), if_neg hkept,
      if_neg (mt semLine_any.mp fun ⟨x, hx, hd, hk⟩ => hout x hx hd hk)]
    exact State.modTeam_of_team? ht _
  · refine doesWhen_of_body (hx d a) fun s c t ⟨(hpos : 0 < semNeed a c), (hlt : semNeed a c < 2 ^ 32), hwait⟩ => ⟨?_, rfl⟩
    rw [hb, if_neg (by omega), if_neg (by omega)]
    rcases hwait with hacq | ⟨(hshort : _ < semNeed a c), hline⟩
    · exact if_pos (by simp [orderOver_of_acquire hacq])
    · rw [if_neg (c := _ && _) (by simpa using fun _ => hshort), if_pos (semLine_any.mpr hline), ite_self]
  · refine gives_of_body (fun _ => rfl) fun s c t ⟨ht, hfree, hnone, (hne : (Sparse.get t.sems a.toNat).toNat ≠ 0)⟩ => ?_
    dsimp only
    rw [if_pos ⟨fun h => hne (by rw [h]; rfl), by simpa using hnone⟩, if_neg (by simp [orderOver_acquire hfree])]
    exact ⟨takeSem_spec (Crew.setS_team ..) ht (Nat.one_le_iff_ne_zero.mpr hne), rfl⟩
  · refine doesWhen_of_body (fun _ => rfl) fun s c t h => ⟨if_neg fun ⟨hne, hnone⟩ => ?_, rfl⟩
    rcases h with (h : (Sparse.get t.sems a.toNat).toNat = 0) | ⟨x, hx, hxa⟩
    · exact hne (BitVec.eq_of_toNat_eq h)
    · exact absurd (beq_iff_eq.mpr hxa) (List.any_eq_false.mp hnone x hx)
  · exact does_of_body (fun _ => rfl) fun _ _ _ => ⟨rfl, rfl⟩

end Sys2Proof
end

section
/-! PROOF. BINW and BULK at their issue (R246, R250): a BINW whose checks pass hands its lanes to the engine, and a record that is read and whose
spans can be accessed is queued or answered. -/
namespace Sys2Proof

namespace Machine

/-! BINW. -/

/-- The operand of BINW names a table and a semaphore of the team, and its header and descriptors can be accessed in device memory (R246). -/
def BinsFit (a : VReg) (b : SReg) (c : Crew) (t : Team) : Prop :=
  ((c.getS b).extractLsb' 56 8 = 0 ∧ ((c.getS b).extractLsb' 0 6).toNat < t.nsem) ∧
    ∀ k ∈ binChecks c t a (((c.getS b).extractLsb' 6 50).toNat * 64),
      k.faults = [] ∧ counterPage (mkAcc t true (k.access != 0) 0 0 k.va 32) = true
theorem binHomeChecks_faults {t : Team} {cs : List Check} (h : ∀ k ∈ cs, counterPage (mkAcc t true (k.access != 0) 0 0 k.va 32) = true) :
    ∀ k ∈ binHomeChecks t cs, k.faults = [] :=
  List.forall_mem_map.mpr fun k hk => if_pos (h k hk)
/-- No lane is active: nothing is checked. -/
theorem binChecks_nil {c : Crew} {t : Team} (a : VReg) (table : Nat) (h : c.actives t.width = []) : binChecks c t a table = [] := by
  simp [binChecks, laneChecks, h]

/-- BINW with its checks passed closes the region, and adds its operation or is counted at once. -/
theorem exec_binw (d a : VReg) (b : SReg) : ∃ body, (∀ s, exec (.binw d a b) s = issue s (needOf s (.binw d a b)) body) ∧
    ∀ s c t, BinsFit a b c t → body s c t =
      let closed := closeRegion s s.cur c.pc (wordOf (.binw d a b))
      let sem := ((c.getS b).extractLsb' 0 6).toNat
      if c.actives t.width = [] then retire (addDone closed s.cur c.closed .copy (.copy sem []) (wordOf (.binw d a b))) c.closed
      else retire (addOp closed
        { crew := s.cur, team := c.team, core := coreOf s.cur, cls := some .copy, pc := c.pc, word := wordOf (.binw d a b),
          kind := .binw { table := ((c.getS b).extractLsb' 6 50).toNat * 64, sem := sem, reg := d.toNat, redirect := [], res := [], bad := [],
                          pois := [], todo := (c.actives t.width).map fun l => (l, c.getV a.toNat l, c.getV d.toNat l) } }) c.closed := by
  refine ⟨_, fun _ => rfl, fun s c t ⟨⟨hzero, hsem⟩, hf⟩ => ?_⟩
  dsimp only
  rw [if_neg (not_not.mpr hzero), if_neg (by omega), takeAccess_none fun k hk => (hf k hk).1]
  dsimp only
  rw [takeAccess_none (binHomeChecks_faults fun k hk => (hf k hk).2)]
  simp only [List.isEmpty_iff, closeRegion_cur]
  rfl

/-! BULK. -/

theorem mkAcc_va (t : Team) (ld st : Bool) (lane elem va size : Nat) : (mkAcc t ld st lane elem va size).va = va := by
  unfold mkAcc
  dsimp only
  split
  · rfl
  · rfl
  · rfl
  · split <;> rfl

/-- The group of a collective's record (R256). -/
def bulkGroup (s : State) (t : Team) (r : List Byte) : Option Group := if cmdOp r = 3 then groupOf s (funcOfCtx s t.ctx) r else none
/-- The read of the record at a scalar register's address. -/
def readRecord (s : State) (c : Crew) (t : Team) (a : SReg) : Option (Except Nat (List Byte × Bool)) :=
  readNow s s.cur c (mkAcc t true false 0 0 (c.getS a).toNat 64)
/-- BULK whose record can be accessed and is read: a poisoned record is a trap, and one whose spans can be accessed is queued or answered. -/
theorem exec_bulk (d a : SReg) : ∃ body, (∀ s, exec (.bulk d a) s = issue s (needOf s (.bulk d a)) body) ∧
    ∀ s c t r bad, accessFaults t true false true false 64 (c.getS a).toNat 64 = [] → readRecord s c t a = some (.ok (r, bad)) →
      (bad = true → body s c t = trapAt s s.cur c (wordOf (.bulk d a)) .poison 0 (c.getS a) 1) ∧
      (bad = false → (∀ p ∈ cmdSpans r (bulkGroup s t r) (coreOf s.cur / 32), accessFaults t (!p.st) p.st false false 1 p.va p.len = []) →
        body s c t = queueCmd s c t (wordOf (.bulk d a)) d r (cmdSpans r (bulkGroup s t r) (coreOf s.cur / 32))
          ((bulkGroup s t r).map fun g => max 1 g.members.length)) := by
  refine ⟨_, fun _ => rfl, fun s c t r bad hf hread => ?_⟩
  have haccess : takeAccess s s.cur c t (wordOf (.bulk d a)) (laneChecks t true false true false 64 64 [(0, (c.getS a).toNat)]) = none :=
    takeAccess_none (laneChecks_faults (List.forall_mem_singleton.mpr hf))
  unfold readRecord at hread
  dsimp only
  rw [haccess]
  unfold withRead
  dsimp only
  rw [hread]
  refine ⟨fun h => (if_pos h).trans ?_, fun h hspans => (if_neg (by simp [h])).trans ?_⟩
  · rw [mkAcc_va, BitVec.ofNat_toNat, BitVec.setWidth_eq]
  · have hs : takeAccess s s.cur c t (wordOf (.bulk d a)) ((cmdSpans r (bulkGroup s t r) (coreOf s.cur / 32)).map (spanCheck t)) = none :=
      takeAccess_none (List.forall_mem_map.mpr hspans)
    unfold bulkGroup at hs ⊢
    rw [hs]

theorem queueCmd_fabric (s : State) (c : Crew) (t : Team) (word : Word) (d : SReg) (r : List Byte) (spans : List Span) (n : Option Nat) :
    (queueCmd s c t word d r spans n).fabric = s.fabric := by
  unfold queueCmd
  dsimp only
  split_ifs
  iterate 3 rfl
  · exact closeRegion_fabric ..

end Machine

open Machine in
/-- Settles O34: BINW and BULK with their checks passed, and the statuses of a record in the order of R250. -/
theorem binsAndBulk : Obligations.BinsAndBulk := by
  unfold Obligations.BinsAndBulk
  intro closed fine
  refine ⟨fun d a b => ?_, fun d a b => ?_, fun d a r bad g => ?_, fun d a => ?_⟩
  · obtain ⟨body, hx, hb⟩ := exec_binw d a b
    refine doesWhen_of_body hx fun s c t ⟨hfine, hne, hf⟩ => ⟨?_, closeRegion_fabric ..⟩
    exact (hb s c t ⟨hfine, hf⟩).trans (if_neg hne)
  · obtain ⟨body, hx, hb⟩ := exec_binw d a b
    refine doesWhen_of_body hx fun s c t ⟨hfine, hnil⟩ => ⟨?_, (addDone_fabric ..).trans (closeRegion_fabric ..)⟩
    exact (hb s c t ⟨hfine, by simp [binChecks_nil a _ hnil]⟩).trans (if_pos hnil)
  · obtain ⟨body, hx, hb⟩ := exec_bulk d a
    refine gives_of_body hx fun s c t ⟨hf, hread, hbad, hg, hspans⟩ => ?_
    obtain rfl : g = bulkGroup s t r := hg
    rw [(hb s c t r bad hf hread).2 hbad hspans]
    refine ⟨?_, queueCmd_fabric ..⟩
    unfold queueCmd
    dsimp only
    split_ifs
    iterate 3 rfl
    · intro hr hc
      have hclosed : ({ c with region := none, buf := [] } : Crew) = { c with buf := [] } := by rw [← hr]
      rw [closeRegion_none hc hr, hclosed]
      rfl
  · obtain ⟨body, hx, hb⟩ := exec_bulk d a
    exact doesWhen_of_calm hx fun s c t ⟨hc, hs, hf, r, hread⟩ hcalm =>
      ⟨((hb s c t r true hf hread).1 rfl).trans (trapOrStop_raises hc hs _), solid_raise calm_solid hcalm ..⟩

end Sys2Proof
end

section
/-! PROOF. The matrix instructions at their issue (R266 to R269, R281 to R285): with its operands read, each issues a tile step, a drain or a
drain-add, and the crew's open region closes. -/
namespace Sys2Proof

namespace Machine

/-! Tile steps and drains. -/

theorem matrixClose_eq (s : State) (c : Crew) (word : Word) : matrixClose s c word = (closeRegion s s.cur c.pc word, c.closed) := rfl
/-- Outside regions there is nothing to close. -/
theorem Outside.matrixClose {s : State} {c : Crew} (h : Outside s c) (word : Word) : matrixClose s c word = (s, c) :=
  Prod.ext (h.close ..) h.same
/-- A tile step issues for the crew of the current move, whose region closes (R269). -/
theorem issueTile_eq (s : State) (c : Crew) (word : Word) (h : Nat) (step : TileStep) :
    issueTile s c word h step = retire (addOp (closeRegion s s.cur c.pc word)
      { crew := s.cur, team := c.team, core := coreOf s.cur, cls := some .tile, kind := .tile h step, pc := c.pc, word := word }) c.closed := by
  unfold issueTile
  rw [matrixClose_eq]
  simp only [closeRegion_cur]
  rfl
theorem issueTile_fabric (s : State) (c : Crew) (word : Word) (h : Nat) (step : TileStep) : (issueTile s c word h step).fabric = s.fabric :=
  closeRegion_fabric ..
theorem calm_issueDrain {s : State} (h : Calm s) (c : Crew) (t : Team) (word : Word) (hd va pitch : Nat) :
    Calm (issueDrain s c t word hd va pitch) := by
  refine foldl_keeps Calm _ (fun _ _ hs => solid_ownLines calm_solid hs ..) _ _ (calm_retire (calm_addOp ?_ _) _)
  exact foldl_keeps Calm _ (fun _ _ hs => calm_raceLoads hs ..) _ _ (solid_closeRegion calm_solid h ..)

/-- An instruction whose body, under a condition, issues a tile step does just that: no record is emitted. -/
theorem doesWhen_issueTile {i : Instr} {p : State → Crew → Team → Prop} {d : BitVec 6} {st : State → Crew → Team → TileStep}
    {body : State → Crew → Team → State} (hx : ∀ s, exec i s = issue s (needOf s i) body)
    (hb : ∀ s c t, p s c t → body s c t = issueTile s c (wordOf i) d.toNat (st s c t)) :
    DoesWhen i p fun s c t => retire (addOp (closeRegion s s.cur c.pc (wordOf i))
      { crew := s.cur, team := c.team, core := coreOf s.cur, cls := some .tile, kind := .tile d.toNat (st s c t), pc := c.pc,
        word := wordOf i }) c.closed :=
  doesWhen_of_body hx fun s c t hp => ⟨(hb s c t hp).trans (issueTile_eq ..), issueTile_eq .. ▸ issueTile_fabric ..⟩

/-! Drain-adds. -/

/-- The record of a TDRP finds its reservation after the drain-add has issued. -/
theorem Recorded.retire_addOp {s : State} {c : Crew} (h : Recorded s c) (o : Op) : Recorded (retire (addOp s o) c) c.advance := h

end Machine

open Machine in
/-- Settles O35: with its operands read, each of the instructions issues its tile step or its drain; the record of TDRP finds its reservation. -/
theorem matrixStepsIssue : Obligations.MatrixStepsIssue := by
  unfold Obligations.MatrixStepsIssue
  intro closed step drain
  have drains : ∀ i d s c t va pitch, issueDrain s c t (wordOf i) d.toNat va pitch = drain i d s c t va pitch := by
    intro i d s c t va pitch
    unfold issueDrain
    rw [matrixClose_eq]
    dsimp only [drain]
    simp only [foldl_raceLoads_cur, closeRegion_cur]
    rfl
  refine ⟨fun d => ?_, fun d a => ?_, fun d a b => ?_, fun d a => ?_, fun d a b => ?_, fun d a => ?_⟩
  · exact fun s s1 c t hr => doesWhen_issueTile (p := fun _ _ _ => True) (fun _ => rfl) (fun _ _ _ _ => rfl) s s1 c t hr trivial
  · refine doesWhen_issueTile (fun _ => rfl) fun s c t ⟨hfault, hready⟩ => ?_
    dsimp only
    rw [hfault]
    exact if_pos hready
  · refine doesWhen_issueTile (fun _ => rfl) fun s c t ⟨ha, hb, hready⟩ => ?_
    dsimp only
    rw [ha]
    dsimp only
    rw [hb]
    exact if_pos hready
  · refine doesWhen_of_calm (fun _ => rfl) fun s c t hfault hcalm => ⟨?_, drains (.tdrn d a) .. ▸ calm_issueDrain hcalm ..⟩
    rw [hfault]
    exact drains ..
  · refine doesWhen_of_calm (fun _ => rfl) fun s c t ⟨halign, hlen, hpitch, hf⟩ hcalm =>
      ⟨?_, drains (.tdrm d a b) .. ▸ calm_issueDrain hcalm ..⟩
    have haccess : takeAccess s s.cur c t (wordOf (.tdrm d a b)) (laneChecks t false true false false 16 (drainLen c.mode)
        ((List.range (mRows c.mode)).map fun i => (i, (c.getS a).toNat + i * (c.getS b).toNat))) = none :=
      takeAccess_none (laneChecks_faults (List.forall_mem_map.mpr fun i hi => hf i (List.mem_range.mp hi)))
    dsimp only
    rw [if_neg (by omega), haccess]
    exact drains ..
  · refine doesWhen_of_calm (fun _ => rfl) fun s c t ⟨hout, hrec, ⟨e, he, hteam⟩, h30, h22, h11, hfind⟩ hcalm => ⟨?_, ?_⟩
    · dsimp only
      rw [he, if_neg (by simp only [not_or, not_le, not_and, not_not]; exact ⟨hteam, Bool.eq_false_iff.mp h30, h22, h11, hfind⟩),
        hout.matrixClose]
      rfl
    · exact calm_emitS_recorded (calm_retire (calm_addOp hcalm _) _) rfl (Tbl.get?_put_self ..) (hrec.retire_addOp _) ..

end Sys2Proof
end

section
/-! PROOF. Gangs (R272 to R275, R278 to R280): what GANG accepts, and what an MMAG does at the Trivet. -/
namespace Sys2Proof

namespace Machine

/-! Lists without their repetitions. -/

/-- Without its repetitions a list is no longer than it was. -/
theorem length_eraseDups_le (l : List Nat) : l.eraseDups.length ≤ l.length := by
  induction l using List.reverseRecOn with
  | nil => exact Nat.le_refl _
  | append_singleton l a ih =>
    rw [List.eraseDups_append, List.length_append, List.length_append]
    have hlast : (List.removeAll [a] l).eraseDups.length ≤ [a].length := by
      unfold List.removeAll
      rw [List.filter_singleton]
      cases List.elem a l <;> simp [List.eraseDups_cons]
    omega
/-- It is as long where its elements are distinct. -/
theorem length_eraseDups_eq_iff (l : List Nat) : l.eraseDups.length = l.length ↔ l.Nodup := by
  induction l with
  | nil => simp
  | cons a l ih =>
    have hle := length_eraseDups_le (l.filter fun b => !b == a)
    have hlen := List.length_filter_le (fun b => !b == a) l
    rw [List.eraseDups_cons, List.nodup_cons, ← ih, List.length_cons, List.length_cons, Nat.add_right_cancel_iff]
    have hkept : a ∉ l ↔ (l.filter fun b => !b == a) = l := by
      rw [List.filter_eq_self]
      exact ⟨fun h b hb => by simpa using fun e : b = a => h (e ▸ hb), fun h ha => by simpa using h a ha⟩
    refine ⟨fun h => ?_, fun ⟨ha, h⟩ => by rw [hkept.mp ha, h]⟩
    have hself : (l.filter fun b => !b == a) = l := List.filter_sublist.eq_of_length (by omega)
    exact ⟨hkept.mpr hself, by rwa [hself] at h⟩

/-! GANG. -/

/-- A value that GANG accepts (R278). -/
def GangFits (c : Crew) (t : Team) (g : DWord) : Prop :=
  g = 0 ∨ (2 ≤ gangN g ∧ gangN g ≤ 6 ∧ (∀ i, gangN g ≤ i → i < 6 → gangAt g i = 0) ∧
    (∀ m ∈ gangMembers g, m < t.crews.length) ∧ (gangMembers g).Nodup ∧ c.idx ∈ gangMembers g)
/-- The test by which GANG refuses a value. -/
def gangBad (c : Crew) (t : Team) (g : DWord) : Bool :=
  if gangN g = 0 then decide (g ≠ 0)
  else gangN g == 1 || gangN g == 7 || ((List.range 6).any fun i => decide (gangN g ≤ i) && gangAt g i != 0) ||
    (gangMembers g).any (fun m => decide (t.crews.length ≤ m)) || decide ((gangMembers g).eraseDups.length ≠ gangN g) ||
    !(gangMembers g).contains c.idx
theorem gangMembers_length (g : DWord) : (gangMembers g).length = gangN g := by simp [gangMembers]
theorem gangN_lt (g : DWord) : gangN g < 8 := (g.extractLsb' 32 3).isLt
/-- GANG refuses what it does not accept. -/
theorem gangBad_iff (c : Crew) (t : Team) (g : DWord) : gangBad c t g = true ↔ ¬ GangFits c t g := by
  unfold gangBad GangFits
  have hlt := gangN_lt g
  have hdups : (gangMembers g).eraseDups.length = gangN g ↔ (gangMembers g).Nodup := by
    rw [← length_eraseDups_eq_iff, gangMembers_length]
  by_cases hn : gangN g = 0
  · simp [hn]
  · have hg : g ≠ 0 := by rintro rfl; exact hn rfl
    have hcount : (2 ≤ gangN g ∧ gangN g ≤ 6) ↔ gangN g ≠ 1 ∧ gangN g ≠ 7 := by omega
    have hzeros : (∀ i, gangN g ≤ i → i < 6 → gangAt g i = 0) ↔ ∀ i < 6, gangN g ≤ i → gangAt g i = 0 :=
      forall_congr' fun _ => imp.swap
    rw [if_neg hn, ← not_iff_not, not_not, or_iff_right hg, ← and_assoc, hcount, hzeros, ← hdups]
    simp [and_assoc]

/-- The entries of the Trivet that wait for a crew with a value other than g (R274 cause 4). -/
def waitsOther (c : Crew) (g : DWord) (r : Rendezvous) : Bool := listsCrew c.team c.idx r && r.arrived.all fun x => x.gang != g
/-- What GANG does, by what it finds. -/
theorem exec_gang (a : SReg) : ∃ body, (∀ s, exec (.gang a) s = issue s (needOf s (.gang a)) body) ∧ ∀ s c t, body s c t =
    if gangBad c t (c.getS a) then trapAt s s.cur c (wordOf (.gang a)) .operand
    else match c.spec with
      | some sp => retire s { c with gang := c.getS a, gangMarks := [], spec := some { sp with gangs := sp.gangs ++ [c.getS a] } }
      | none => failGangs 65 (retire s { c with gang := c.getS a, gangMarks := [] }) (coreOf s.cur) (waitsOther c (c.getS a)) 4 (some c.idx) :=
  ⟨_, fun _ => rfl, fun _ _ _ => rfl⟩
/-- No entry of the core is selected, and none fails. -/
theorem failGangs_none {s : State} {core : Nat} {sel : Rendezvous → Bool} (h : ∀ r ∈ (s.core core).trivet, sel r = false) (fuel cause : Nat)
    (skip : Option Nat) : failGangs fuel s core sel cause skip = s := by
  cases fuel with
  | zero => rfl
  | succ n =>
    unfold failGangs
    rw [List.find?_eq_none.mpr fun r hr => Bool.eq_false_iff.mp (h r hr)]

/-! MMAG at the Trivet. -/

/-- The arrival record of the crew of the current move (R273). -/
def arrivalHere (d : BitVec 6) (a : SReg) (b : VReg) (s : State) (c : Crew) : Arrival :=
  { crew := s.cur, gang := c.gang, tile := d.toNat, mode := c.mode, reg := b.toNat, addr := c.getS a }
/-- An MMAG names tiles, registers and A blocks that the team has (R279). -/
def MmagFits (d : BitVec 6) (a : SReg) (b : VReg) (c : Crew) (t : Team) : Prop :=
  2 ≤ gangN c.gang ∧ d.toNat + gangN c.gang ≤ t.ntile ∧ b.toNat + sliceRegs (tyOf c.mode == 5) t.width ≤ t.nvreg ∧
    scratchFault t (c.getS a).toNat 64 (gangN c.gang * blockStride (tyOf c.mode == 5) (mRows c.mode)) 0 = none
/-- With its operands in place an MMAG takes the gang fault that it is marked for, or arrives at the Trivet. -/
theorem exec_mmag (d : BitVec 6) (a : SReg) (b : VReg) : ∃ body, (∀ s, exec (.mmag d a b) s = issue s (needOf s (.mmag d a b)) body) ∧
    ∀ s c t, MmagFits d a b c t → body s c t = match c.gangMarks.find? fun m => gangSet m.2 == gangSet c.gang with
      | some m => trapAt (s.setCrew s.cur { c with gangMarks := c.gangMarks.filter (· != m) }) s.cur c (wordOf (.mmag d a b)) .gang m.1 0 0 c.gang
      | none => arriveGang s c t (wordOf (.mmag d a b)) (arrivalHere d a b s c) := by
  refine ⟨_, fun _ => rfl, fun s c t ⟨hn, htiles, hregs, hfault⟩ => ?_⟩
  dsimp only
  rw [if_neg (by omega), if_neg (by omega), if_neg (by omega), hfault]
  rfl

/-- The entry of a team and a member set. -/
def entryOf (team : Nat) (members : List Nat) (r : Rendezvous) : Bool := r.team == team && r.members == members
/-- The members that wait at an entry. -/
def arrivedAt (s : State) (team : Nat) (members : List Nat) : List Arrival :=
  match (s.core (coreOf s.cur)).trivet.find? (entryOf team members) with
  | some r => r.arrived
  | none => []
theorem arrivedAt_eq {s : State} {team : Nat} {members : List Nat} {here : List Arrival}
    (h : match (s.core (coreOf s.cur)).trivet.find? (entryOf team members) with
      | some r => r.arrived = here
      | none => here = []) : arrivedAt s team members = here := by
  unfold arrivedAt
  split
  · next e => rw [e] at h; exact h
  · next e => rw [e] at h; exact h.symm
/-- A member of a set has ended (R274 cause 2). -/
def memberEnded (s : State) (t : Team) (members : List Nat) : Bool :=
  t.crews.any fun k => match s.crew? k with
    | some y => members.contains y.idx && y.wait == .ended
    | none => false
theorem memberEnded_eq_false {s : State} {t : Team} {members : List Nat}
    (h : ∀ k ∈ t.crews, ∀ y, s.crew? k = some y → y.idx ∈ members → y.wait ≠ .ended) : memberEnded s t members = false := by
  refine List.any_eq_false.mpr fun k hk => ?_
  cases e : s.crew? k with
  | none => simp
  | some y => simpa using h k hk y e
/-- The Trivet of a core without the entry of a team and a member set. -/
def dropEntry (s : State) (core team : Nat) (members : List Nat) : State :=
  s.modCore core fun k => { k with trivet := k.trivet.filter fun r => !entryOf team members r }

/-- A member joins those that wait: it waits for the others, or releases the entry where it is the last and every operand can be read (R273). -/
def joinOrRelease (s : State) (c : Crew) (t : Team) (x : Arrival) (here : List Arrival) : State :=
  if (here ++ [x]).length < (gangSet x.gang).length then
    (s.setCrew s.cur { c with wait := .trivet }).modCore (coreOf s.cur) fun k => { k with
      trivet := k.trivet.filter (fun r => !entryOf c.team (gangSet x.gang) r) ++
        [{ team := c.team, members := gangSet x.gang, arrived := here ++ [x] }] }
  else if gangReady s t (here ++ [x]) then
    releaseGang (dropEntry (emitS (s.setCrew s.cur c) s.cur 0x21 (BitVec.ofNat 8 x.tile) (BitVec.ofNat 32 (gangN x.gang)))
      (coreOf s.cur) c.team (gangSet x.gang)) t (here ++ [x]) x.gang
  else s
/-- So does a member of whose set none has ended and whose record agrees with those that wait. -/
theorem arriveGang_agreed {s : State} {c : Crew} {t : Team} {x : Arrival} (hout : Outside s c)
    (hended : ∀ k ∈ t.crews, ∀ y, s.crew? k = some y → y.idx ∈ gangSet x.gang → y.wait ≠ .ended)
    (hagree : ∀ y ∈ arrivedAt s c.team (gangSet x.gang), y.agrees x = true) (word : Word) :
    arriveGang s c t word x = joinOrRelease s c t x (arrivedAt s c.team (gangSet x.gang)) := by
  have hcause : (if memberEnded s t (gangSet x.gang) = true then 2
      else if (arrivedAt s c.team (gangSet x.gang)).all (·.agrees x) = true then 0 else 3) = 0 := by
    rw [memberEnded_eq_false hended, List.all_eq_true.mpr hagree]
    rfl
  unfold arriveGang
  rw [hout.matrixClose]
  exact if_neg (not_not.mpr hcause)

/-! The release of a gang whose function is not traced. -/

/-- The function of a team is not traced (R402). -/
def Untraced (s : State) (team : Nat) : Prop := (s.func (funcOfTeam s team)).trace.cfg.getLsbD 0 = false
/-- Its crews emit nothing (R404). -/
theorem delivers_untraced {s : State} {team : Nat} (h : Untraced s team) (die : Nat) (event arg : BitVec 8) (spec : Bool) (crew : Option Crew) :
    delivers s (funcOfTeam s team) die event arg spec crew = false := by
  unfold delivers
  dsimp only
  rw [h]
  rfl
theorem emitS_untraced {s : State} {key : Nat} {c : Crew} (hc : s.crew? key = some c) (h : Untraced s c.team) (event arg : BitVec 8)
    (payload : Word) (spec : Bool) (cause : Nat) : emitS s key event arg payload spec cause = s :=
  emitS_undelivered hc (delivers_untraced h ..) ..

/-- A number of operations have issued, and the trace fabric, the teams of the crews, and what says whether they are traced are as before. -/
structure Issued (n : Nat) (s u : State) : Prop where
  nextOp : u.nextOp = s.nextOp + n
  fabric : u.fabric = s.fabric
  teams : u.teams = s.teams
  ctxs : u.ctxs = s.ctxs
  cfg : ∀ f, (u.func f).trace.cfg = (s.func f).trace.cfg
  crews : ∀ k, (u.crew? k).map Crew.team = (s.crew? k).map Crew.team
theorem Issued.refl (s : State) : Issued 0 s s := ⟨rfl, rfl, rfl, rfl, fun _ => rfl, fun _ => rfl⟩
theorem Issued.trans {m n : Nat} {s u v : State} (h : Issued m s u) (g : Issued n u v) : Issued (m + n) s v where
  nextOp := by rw [g.nextOp, h.nextOp, Nat.add_assoc]
  fabric := g.fabric.trans h.fabric
  teams := g.teams.trans h.teams
  ctxs := g.ctxs.trans h.ctxs
  cfg f := (g.cfg f).trans (h.cfg f)
  crews k := (g.crews k).trans (h.crews k)
theorem Issued.untraced {n team : Nat} {s u : State} (h : Issued n s u) (hs : Untraced s team) : Untraced u team := by
  have hfunc : funcOfTeam u team = funcOfTeam s team := by
    unfold funcOfTeam State.team? funcOfCtx
    rw [h.teams, h.ctxs]
  unfold Untraced
  rw [hfunc, h.cfg]
  exact hs
theorem Issued.crew {n k : Nat} {s u : State} {c : Crew} (h : Issued n s u) (hc : s.crew? k = some c) :
    ∃ c', u.crew? k = some c' ∧ c'.team = c.team :=
  Option.map_eq_some_iff.mp ((h.crews k).trans (congrArg (Option.map Crew.team) hc))
/-- A fold each of whose steps issues one operation. -/
theorem issued_foldl {α : Type} {s : State} {f : State → α → State} {l : List α} {k : Nat} (hk : l.length = k)
    (h : ∀ x ∈ l, ∀ n u, Issued n s u → Issued 1 u (f u x)) : Issued k s (l.foldl f s) := by
  subst hk
  suffices ∀ n u, Issued n s u → Issued (n + l.length) s (l.foldl f u) by simpa using this 0 s (.refl s)
  induction l with
  | nil => exact fun n u hu => hu
  | cons x l ih =>
    intro n u hu
    have hlast := ih (fun y hy => h y (List.mem_cons_of_mem _ hy)) (n + 1) _ (hu.trans (h x List.mem_cons_self n u hu))
    rwa [Nat.add_assoc, Nat.add_comm 1] at hlast

theorem issued_addOp (s : State) (o : Op) : Issued 1 s (addOp s o) := ⟨rfl, rfl, rfl, rfl, fun _ => rfl, fun _ => rfl⟩
theorem issued_setCrew {s : State} {k : Nat} {c c' : Crew} (hc : s.crew? k = some c) (h : c'.team = c.team) : Issued 0 s (s.setCrew k c') where
  __ := Issued.refl s
  crews j := by
    rw [State.setCrew_crew?]
    split
    · next e => rw [e, hc]; exact congrArg some h
    · rfl
theorem issued_modCrew {f : Crew → Crew} (h : ∀ c, (f c).team = c.team) (s : State) (k : Nat) : Issued 0 s (s.modCrew k f) where
  __ := Issued.refl s
  crews j := by
    rw [State.modCrew_crew?]
    split
    · next e => rw [e, Option.map_map]; exact congrArg (Option.map · _) (funext h)
    · rfl
theorem issued_modFunc {g : Func → Func} (h : ∀ x, (g x).trace.cfg = x.trace.cfg) (s : State) (f : Nat) : Issued 0 s (s.modFunc f g) where
  __ := Issued.refl s
  cfg j := by
    rw [State.modFunc_func]
    split
    · next e => rw [h, e]
    · rfl

/-- The end of a stall is not reported (R410). -/
theorem issued_endStall {s : State} {key : Nat} {c : Crew} (hc : s.crew? key = some c) (h : Untraced s c.team) :
    Issued 0 s (endStall s key c).1 := by
  have hover : Issued 0 s (stallOver s key c).1 := by
    unfold stallOver
    split
    · exact .refl s
    · dsimp only
      refine .trans (m := 0) (issued_modCrew (fun _ => ?_) s key) (issued_modFunc (fun _ => ?_) ..) <;> rfl
  unfold endStall
  dsimp only
  split
  · exact hover
  · have hreset := hover.trans (issued_modCrew (f := fun c => { c with stallSum := 0 }) (fun _ => rfl) _ key)
    obtain ⟨c', hc', hteam⟩ := hreset.crew hc
    rw [emitS_untraced hc' (hteam ▸ hreset.untraced h)]
    exact hreset
/-- Nor is the instruction that a crew retires late (R406). -/
theorem issued_retireLate {s : State} {key : Nat} {c : Crew} (hc : s.crew? key = some c) (h : Untraced s c.team) (op : BitVec 8) :
    Issued 0 s (retireLate s key c op) := by
  have hstall := issued_endStall hc h
  obtain ⟨c', hc', hteam⟩ := hstall.crew hc
  have hcrew : (endStall s key c).2.team = c'.team := by rw [endStall_crew]; exact hteam.symm
  have hset := hstall.trans (issued_setCrew (c' := { (endStall s key c).2 with wait := .none }.advance) hc' hcrew)
  unfold retireLate
  dsimp only
  rw [emitIssue_undelivered (delivers_untraced (hset.untraced ?_) ..)]
  · exact hset
  · rw [endStall_crew]; exact h
/-- One tile step issues for each tile of a gang (R280). -/
theorem issued_releaseGang {s : State} {as : List Arrival} {g : DWord} {team : Nat} (hun : Untraced s team)
    (hteam : ∀ x ∈ as, ∃ y, s.crew? x.crew = some y ∧ y.team = team)
    (hall : ∀ p, p < gangN g → (arrivalOf s as g p).isSome = true) (t : Team) : Issued (gangN g) s (releaseGang s t as g) := by
  unfold releaseGang
  refine issued_foldl List.length_range fun p hp n u hu => ?_
  obtain ⟨a, ha⟩ := Option.isSome_iff_exists.mp (hall p (List.mem_range.mp hp))
  obtain ⟨y, hy, hyteam⟩ := hteam a (List.mem_of_find?_eq_some ha)
  obtain ⟨c, hc, hcteam⟩ := hu.crew hy
  dsimp only
  rw [ha]
  dsimp only
  rw [hc, hy]
  dsimp only
  split
  · exact (issued_addOp u _).trans (n := 0) (issued_setCrew (c := c) hc (by rfl))
  · refine (issued_addOp u _).trans (n := 0) (issued_retireLate ?_ ?_ _)
    · exact hc
    · rw [hcteam, hyteam]
      exact hu.untraced hun

/-- Which arrival is that of a member depends on the crews alone. -/
theorem arrivalOf_congr {s u : State} (h : ∀ k, u.crew? k = s.crew? k) (as : List Arrival) (g : DWord) (p : Nat) :
    arrivalOf u as g p = arrivalOf s as g p := by
  unfold arrivalOf
  simp only [h]
/-- A crew that is stored again as it is leaves every look-up as it was. -/
theorem crew?_setCrew_same {s : State} {k : Nat} {c : Crew} (h : s.crew? k = some c) (j : Nat) : (s.setCrew k c).crew? j = s.crew? j := by
  rw [State.setCrew_crew?]
  split
  · next e => rw [e, h]
  · rfl
/-- The last member of a gang whose function is not traced releases the entry, and a step issues for each tile (R280). -/
theorem joinOrRelease_last {s : State} {c : Crew} {t : Team} {x : Arrival} {here : List Arrival} (hc : s.crew? s.cur = some c)
    (hx : x.crew = s.cur) (hlast : (gangSet x.gang).length ≤ here.length + 1) (hun : Untraced s c.team)
    (hready : gangReady s t (here ++ [x]) = true) (hteam : ∀ y ∈ here, ∃ z, s.crew? y.crew = some z ∧ z.team = c.team)
    (hall : ∀ p, p < gangN x.gang → (arrivalOf s (here ++ [x]) x.gang p).isSome = true) :
    let u := dropEntry (s.setCrew s.cur c) (coreOf s.cur) c.team (gangSet x.gang)
    joinOrRelease s c t x here = releaseGang u t (here ++ [x]) x.gang ∧ Issued (gangN x.gang) u (releaseGang u t (here ++ [x]) x.gang) := by
  intro u
  have hcrews : ∀ k, u.crew? k = s.crew? k := crew?_setCrew_same hc
  refine ⟨?_, issued_releaseGang (s := u) (team := c.team) hun (List.forall_mem_append.mpr ⟨fun y hy => ?_, ?_⟩) (fun p hp => ?_) t⟩
  · unfold joinOrRelease
    rw [if_neg (by simpa using hlast), if_pos hready, emitS_untraced ((crew?_setCrew_same hc _).trans hc) hun]
  · rw [hcrews]
    exact hteam y hy
  · exact List.forall_mem_singleton.mpr ⟨c, by rw [hx, hcrews, hc], rfl⟩
  · rw [arrivalOf_congr hcrews]
    exact hall p hp

end Machine

open Machine in
/-- Settles O36: GANG accepts what fits; an MMAG takes the gang fault that it is marked for, waits at its entry, or is the last to arrive there. -/
theorem gangInstructions : Obligations.GangInstructions := by
  unfold Obligations.GangInstructions
  intro fine waitsFor
  choose gang hgang hg using exec_gang
  choose mmag hmmag hm using exec_mmag
  have accepted : ∀ {c t g}, fine c t g → gangBad c t g ≠ true := fun h => mt (gangBad_iff ..).mp (not_not.mpr h)
  refine ⟨fun a => ?_, fun a => ?_, fun a sp => ?_, fun a => ?_, ?_⟩
  · refine doesWhen_of_body (hgang a) fun s c t ⟨hwait, hfine, hspec⟩ => ⟨?_, rfl⟩
    rw [hg, if_neg (accepted hfine), hspec]
    exact failGangs_none (s := retire s _) hwait ..
  · refine doesWhen_of_calm (hgang a) fun s c t ⟨_, hfine, hspec⟩ hcalm => ⟨?_, solid_failGangs calm_solid _ (calm_retire hcalm _) ..⟩
    rw [hg, if_neg (accepted hfine), hspec]
    rfl
  · refine doesWhen_of_body (hgang a) fun s c t ⟨hfine, hspec⟩ => ⟨?_, rfl⟩
    rw [hg, if_neg (accepted hfine), hspec]
  · refine trapsWhen_of_body (hgang a) fun s c t hc hs hnot => ?_
    rw [hg, if_pos ((gangBad_iff ..).mpr hnot)]
    exact trapOrStop_raises hc hs _
  intro arrival may
  have arrives : ∀ {d a b s c t here}, may s c t d a b here → mmag d a b s c t = joinOrRelease s c t (arrival s c d a b) here := by
    intro d a b s c t here ⟨hout, hn, htiles, hregs, hfault, hmarks, hhere, hended, hagree⟩
    have hat : arrivedAt s c.team (gangSet c.gang) = here := arrivedAt_eq hhere
    have hunmarked : (c.gangMarks.find? fun m => gangSet m.2 == gangSet c.gang) = none :=
      List.find?_eq_none.mpr fun m hmem => by simpa using hmarks m hmem
    rw [hm d a b s c t ⟨hn, htiles, hregs, hfault⟩, hunmarked, ← hat]
    exact arriveGang_agreed hout hended (hat ▸ hagree) _
  refine ⟨fun d a b m => ?_, fun d a b here => ?_, fun d a b here => ?_⟩
  · refine doesWhen_of_calm (hmmag d a b) fun s c t ⟨hc, hs, hn, htiles, hregs, hfault, hmark⟩ hcalm =>
      ⟨?_, solid_raise calm_solid (s := s.setCrew s.cur _) hcalm ..⟩
    rw [hm d a b s c t ⟨hn, htiles, hregs, hfault⟩, hmark]
    exact trapOrStop_raises (c := { c with gangMarks := c.gangMarks.filter (· != m) }) ((State.setCrew_crew? ..).trans (if_pos rfl)) hs _
  · refine doesWhen_of_body (hmmag d a b) fun s c t ⟨hmay, hlt⟩ => ⟨?_, rfl⟩
    rw [arrives hmay]
    exact if_pos (by simpa using hlt)
  · refine gives_of_body (hmmag d a b) fun s c t ⟨hmay, hlast, huntraced, hready, hothers, hall⟩ => ?_
    obtain ⟨hreleases, hissued⟩ := joinOrRelease_last (x := arrival s c d a b) hmay.1.1 rfl hlast huntraced hready
      (fun y hy => (hothers y hy).2) hall
    rw [arrives hmay, hreleases]
    exact ⟨⟨rfl, hissued.nextOp⟩, hissued.fabric⟩

end Sys2Proof
end

section
/-! PROOF. Atomics and WAITC at their issue (R290, R291, R305 to R307): the lanes of an atomic whose checks pass, and what the read of a WAITC leads to. -/
namespace Sys2Proof

namespace Machine

/-! Atomics. -/

/-- The atomic instructions with their operations. -/
def atomics (d : VReg) (a : SReg) (b : VReg) : List (Instr × AtomicOp) :=
  [(.aadd d a b, .add), (.amin d a b, .min), (.amax d a b, .max), (.aand d a b, .and), (.aor d a b, .or), (.axor d a b, .xor),
   (.axch d a b, .xch), (.acas d a b, .cas)]
/-- No lane is active: nothing is checked. -/
theorem atomicChecks_nil {c : Crew} {t : Team} (op : AtomicOp) (m : DWord) (a : SReg) (b : VReg) (h : c.actives t.width = []) :
    atomicChecks op m t (laneAddrs c t a b) = [] := by
  simp [atomicChecks, laneChecks, laneAddrs, h]
/-- An atomic with its checks passed is counted at once where it has no active lane, and else closes the region and adds its operation. -/
theorem exec_atomics (d : VReg) (a : SReg) (b : VReg) : ∀ q ∈ atomics d a b,
    ∃ body, (∀ s, exec q.1 s = issue s (needOf s q.1) body) ∧
      ∀ s c t, (∀ k ∈ atomicChecks q.2 c.mode t (laneAddrs c t a b), k.faults = []) → body s c t =
        if c.actives t.width = [] then retire (addDone s s.cur c .load (.atomic q.2 (mType c.mode) d.toNat) (wordOf q.1)) c
        else retire (addOp (closeRegion s s.cur c.pc (wordOf q.1))
          { crew := s.cur, team := c.team, core := coreOf s.cur, cls := some .load, kind := .atomic q.2 (mType c.mode) d.toNat,
            acq := (mOrd c.mode).getLsbD 0, rel := (mOrd c.mode).getLsbD 1, scope := (mScope c.mode).toNat,
            accs := (c.actives t.width).map fun l => atomicAcc q.2 c t d l (laneAddr c a b l).toNat, pc := c.pc,
            word := wordOf q.1 }) c.closed := by
  intro q hq
  simp only [atomics, List.mem_cons, List.not_mem_nil, or_false] at hq
  rcases hq with rfl | rfl | rfl | rfl | rfl | rfl | rfl | rfl
  all_goals
    refine ⟨_, fun _ => rfl, fun s c t hf => ?_⟩
    dsimp only
    rw [takeAccess_none hf]
    simp only [laneAddrs, List.isEmpty_iff, List.map_eq_nil_iff, List.map_map, closeRegion_cur]
    rfl

/-! WAITC. -/

theorem mkAcc_size (t : Team) (ld st : Bool) (lane elem va size : Nat) : (mkAcc t ld st lane elem va size).size = size := by
  unfold mkAcc
  dsimp only
  split
  · rfl
  · rfl
  · rfl
  · split <;> rfl
/-- A stale copy that is dropped leaves the trace fabric alone. -/
theorem dropStale_fabric (s : State) (core line : Nat) : (dropStale s core line).fabric = s.fabric := by
  obtain ⟨_, _, _, e⟩ := dropOwnLine_touches s core line
  unfold dropStale
  split
  · rw [e]
  · rfl
theorem invsOf_fabric (s : State) (key : Nat) (c : Crew) (pa : Nat) : (invsOf s key c pa).fabric = s.fabric := by
  obtain ⟨_, _, _, e⟩ := invsOf_touches s key c pa
  rw [e]

/-- The location of a WAITC, as an access. -/
def waitAcc (a : SReg) (c : Crew) (t : Team) : Acc := mkAcc t true false 0 0 (c.getS a).toNat (atomicSize (tyOf c.mode))
/-- The value y that the condition compares with (R305). -/
def waitValue (b : SReg) (c : Crew) : Nat := (c.getS b).toNat % 2 ^ (8 * atomicSize (tyOf c.mode))
/-- Where the location lies. -/
def waitPlace (a : SReg) (s : State) (c : Crew) (t : Team) : Nat := (landing s c.team .load (waitAcc a c t)).pa
theorem waitAcc_addr (a : SReg) (c : Crew) (t : Team) : BitVec.ofNat 64 (waitAcc a c t).va = c.getS a := by
  rw [waitAcc, mkAcc_va, BitVec.ofNat_toNat, BitVec.setWidth_eq]
/-- The WAITC has issued, and its crew waits on a monitor or is served by polling (R307). -/
def monitored (k : BitVec 3) (a b : SReg) (s : State) (c : Crew) (t : Team) : State :=
  { (dropStale s (coreOf s.cur) (lineOf (route s (waitPlace a s c t)))).setCrew s.cur { c with wait := .monitor, issued := c.issued + 1 } with
    monitors := s.monitors ++ [{
      crew := s.cur, team := c.team, acc := waitAcc a c t, cond := k, value := BitVec.ofNat 64 (waitValue b c), acq := mOrd c.mode == 1,
      scope := (mScope c.mode).toNat, start := s.time.master,
      polled := !(counterPage (waitAcc a c t) && monitorFree s c.team (waitAcc a c t).pa) }] }
/-- The WAITC's condition holds, and its crew goes on. -/
def passed (a : SReg) (s : State) (c : Crew) (t : Team) : State := retire (invsOf s s.cur c (waitPlace a s c t)) (c.acquired s)
theorem monitored_fabric (k : BitVec 3) (a b : SReg) (s : State) (c : Crew) (t : Team) : (monitored k a b s c t).fabric = s.fabric :=
  dropStale_fabric ..
theorem passed_fabric (a : SReg) (s : State) (c : Crew) (t : Team) : (passed a s c t).fabric = s.fabric := invsOf_fabric ..

/-- What the read of a WAITC leads to; while there is none, the WAITC waits at issue. -/
def afterRead (k : BitVec 3) (a b : SReg) (s : State) (c : Crew) (t : Team) : State :=
  match waitRead s s.cur c.team (mOrd c.mode == 1) (waitAcc a c t) with
  | none => s.setCrew s.cur c
  | some r => onRead s s.cur c (wordOf (.waitc k a b)) (waitAcc a c t) k (waitValue b c) r (passed a s c t) (monitored k a b s c t)
theorem afterRead_none {k : BitVec 3} {a b : SReg} {s : State} {c : Crew} {t : Team}
    (h : waitRead s s.cur c.team (mOrd c.mode == 1) (waitAcc a c t) = none) : afterRead k a b s c t = s.setCrew s.cur c := by
  unfold afterRead
  rw [h]
theorem afterRead_some {k : BitVec 3} {a b : SReg} {s : State} {c : Crew} {t : Team} {r : Except Nat (Nat × Bool)}
    (h : waitRead s s.cur c.team (mOrd c.mode == 1) (waitAcc a c t) = some r) : afterRead k a b s c t =
      onRead s s.cur c (wordOf (.waitc k a b)) (waitAcc a c t) k (waitValue b c) r (passed a s c t) (monitored k a b s c t) := by
  unfold afterRead
  rw [h]
/-- A WAITC whose location can be accessed closes the region and reads it (R306). -/
theorem exec_waitc (k : BitVec 3) (a b : SReg) : ∃ body, (∀ s, exec (.waitc k a b) s = issue s (needOf s (.waitc k a b)) body) ∧
    ∀ s c t, accessFaults t true false false false (atomicSize (tyOf c.mode)) (c.getS a).toNat (atomicSize (tyOf c.mode)) = [] →
      body s c t = afterRead k a b (closeRegion s s.cur c.pc (wordOf (.waitc k a b))) c.closed t := by
  refine ⟨_, fun _ => rfl, fun s c t hf => ?_⟩
  dsimp only
  rw [takeAccess_none (laneChecks_faults (List.forall_mem_singleton.mpr hf))]
  rfl

/-- A read that answers gives the condition its value. -/
theorem onRead_value (s : State) (c : Crew) (t : Team) (word : Word) (a : SReg) (k : BitVec 3) (x y : Nat) (go wait : State) :
    onRead s s.cur c word (waitAcc a c t) k y (.ok (x, false)) go wait =
      if condHolds k (atomicSize (tyOf c.mode)) x y = true then go else wait := by
  rw [← mkAcc_size t true false 0 0 (c.getS a).toNat (atomicSize (tyOf c.mode))]
  rfl
section
variable {s : State} {c : Crew} (hout : Outside s c) (t : Team) (word : Word) (a : SReg) (k : BitVec 3) (y : Nat) (go wait : State)
include hout

/-- The trap's MASK is 1: WAITC has no lanes (log entry 39). -/
theorem onRead_poisoned (x : Nat) : onRead s s.cur c word (waitAcc a c t) k y (.ok (x, true)) go wait = raise s s.cur
    { kind := .poison, resume := c.pc, fault := c.pc, word := word, addr := c.getS a, mask := 1 } := by
  obtain ⟨hc, -, hs, -⟩ := hout
  rw [← waitAcc_addr a c t]
  exact trapOrStop_raises hc hs _
theorem onRead_refused (r : Nat) : onRead s s.cur c word (waitAcc a c t) k y (.error r) go wait = raise s s.cur
    { kind := .remote, cause := BitVec.ofNat 8 r, resume := c.pc, fault := c.pc, word := word, addr := c.getS a, mask := 1,
      detail := BitVec.ofNat 64 (podWin (waitAcc a c t).pa * 2 ^ 10 + podPeer (waitAcc a c t).pa) } := by
  obtain ⟨hc, -, hs, -⟩ := hout
  rw [← waitAcc_addr a c t]
  exact trapOrStop_raises hc hs _
end

/-- The conditions of R305 on 4-byte words. -/
theorem condHolds_word (k : BitVec 3) (x y : BitVec 32) : condHolds k 4 x.toNat y.toNat = true ↔ (match k.toNat with
    | 0 => x = y | 1 => x ≠ y | 2 => x.toInt < y.toInt | 3 => y.toInt ≤ x.toInt | 4 => x.toNat < y.toNat | _ => y.toNat ≤ x.toNat) := by
  have signed : ∀ z : BitVec 32, (BitVec.ofNat (8 * 4) z.toNat).toInt = z.toInt := fun z =>
    congrArg BitVec.toInt (BitVec.ofNat_toNat 32 z |>.trans (BitVec.setWidth_eq z))
  unfold condHolds
  rw [signed, signed]
  match k.toNat with
  | 0 => exact beq_iff_eq.trans BitVec.toNat_inj
  | 1 => exact bne_iff_ne.trans (not_congr BitVec.toNat_inj)
  | 2 => exact decide_eq_true_iff
  | 3 => exact decide_eq_true_iff
  | 4 => exact decide_eq_true_iff
  | _ + 5 => exact decide_eq_true_iff

end Machine

open Machine in
/-- Settles O37: the atomics differ in their operation, and every atomic issues in the same way. -/
theorem atomicsIssue : Obligations.AtomicsIssue := by
  unfold Obligations.AtomicsIssue
  intro issues d a b
  have all : ∀ q ∈ atomics d a b, issues q.1 q.2 d a b := by
    intro q hq
    obtain ⟨body, hx, hb⟩ := exec_atomics d a b q hq
    refine ⟨doesWhen_of_body hx fun s c t hnil => ⟨?_, addDone_fabric ..⟩,
      doesWhen_of_body hx fun s c t ⟨hne, hf⟩ => ⟨(hb s c t hf).trans (if_neg hne), closeRegion_fabric ..⟩⟩
    exact (hb s c t (by simp [atomicChecks_nil, hnil])).trans (if_pos hnil)
  simpa only [atomics, List.forall_mem_cons, List.not_mem_nil, false_imp_iff, implies_true, and_true] using all

open Machine in
/-- Settles O38: a WAITC that issues outside regions does what the outcome of its read leads to. -/
theorem conditionWaits : Obligations.ConditionWaits := by
  unfold Obligations.ConditionWaits
  intro value acc line reads
  choose body hx hb using exec_waitc
  have hafter : ∀ {k a b s c t r}, Outside s c → reads s c t a r → body k a b s c t = afterRead k a b s c t := by
    intro k a b s c t r hout ⟨hf, _⟩
    rw [hb k a b s c t hf, hout.close]
    exact congrArg (afterRead k a b s · t) hout.same
  have hread : ∀ {k a b s c t r}, Outside s c → reads s c t a (some r) → body k a b s c t = onRead s s.cur c (wordOf (.waitc k a b))
      (waitAcc a c t) k (waitValue b c) r (passed a s c t) (monitored k a b s c t) :=
    fun hout h => (hafter hout h).trans (afterRead_some h.2)
  refine ⟨fun k a b x => ?_, fun k a b x => ?_, fun k a b x => ?_, fun k a b r => ?_, fun k a b => ?_, fun k _ x y => condHolds_word k x y⟩
  · refine doesWhen_of_body (hx k a b) fun s c t ⟨hout, h, hholds⟩ => ⟨?_, passed_fabric a s c t⟩
    rw [hread hout h, onRead_value]
    exact if_pos hholds
  · refine doesWhen_of_body (hx k a b) fun s c t ⟨hout, h, hfails⟩ => ⟨?_, monitored_fabric k a b s c t⟩
    rw [hread hout h, onRead_value]
    exact if_neg (Bool.eq_false_iff.mp hfails)
  · exact doesWhen_of_calm (hx k a b) fun s c t ⟨hout, h⟩ hcalm =>
      ⟨(hread hout h).trans (onRead_poisoned hout ..), solid_raise calm_solid hcalm ..⟩
  · exact doesWhen_of_calm (hx k a b) fun s c t ⟨hout, h⟩ hcalm =>
      ⟨(hread hout h).trans (onRead_refused hout ..), solid_raise calm_solid hcalm ..⟩
  · exact doesWhen_of_body (hx k a b) fun s c t ⟨hout, h⟩ => ⟨(hafter hout h).trans (afterRead_none h.2), rfl⟩

end Sys2Proof
end

section
/-! PROOF. The phases of core barriers (R314, R317): a due phase completes, the crews that waited for it go on, and those that speculate past it
commit. -/
namespace Sys2Proof

namespace Machine

/-- The teams are the same, and every crew waits as before. -/
def SameWaits (s t : State) : Prop := t.teams = s.teams ∧ ∀ k, (t.crew? k).map (·.wait) = (s.crew? k).map (·.wait)
theorem SameWaits.refl (s : State) : SameWaits s s := ⟨rfl, fun _ => rfl⟩
theorem SameWaits.trans {s t u : State} (h : SameWaits s t) (g : SameWaits t u) : SameWaits s u :=
  ⟨g.1.trans h.1, fun k => (g.2 k).trans (h.2 k)⟩
theorem SameWaits.of_crews {s t : State} (ht : t.teams = s.teams) (hc : t.crews = s.crews) : SameWaits s t :=
  ⟨ht, fun k => by unfold State.crew?; rw [hc]⟩
theorem SameWaits.team? {s t : State} (h : SameWaits s t) (tid : Nat) : t.team? tid = s.team? tid := by
  unfold State.team?; rw [h.1]
theorem SameWaits.crew {s t : State} {k : Nat} {c : Crew} (h : SameWaits s t) (hc : s.crew? k = some c) :
    ∃ c', t.crew? k = some c' ∧ c'.wait = c.wait :=
  Option.map_eq_some_iff.mp ((h.2 k).trans (congrArg (Option.map (·.wait)) hc))
theorem sameWaits_emitCrewA (s : State) (key : Nat) (event arg : BitVec 8) (payload : Word) (cause : Nat) :
    SameWaits s (emitCrewA s key event arg payload cause) := by
  obtain ⟨_, _, _, -, e⟩ := emitCrewA_touches s key event arg payload cause
  rw [e]; exact .of_crews rfl rfl
theorem sameWaits_modCrew {f : Crew → Crew} (hf : ∀ c, (f c).wait = c.wait) (s : State) (key : Nat) : SameWaits s (s.modCrew key f) := by
  refine ⟨rfl, fun k => ?_⟩
  rw [State.modCrew_crew?]
  split
  · next h => subst h; rw [Option.map_map]; exact congrArg (Option.map · _) (funext hf)
  · rfl
theorem sameWaits_releaseBuf (s : State) (key : Nat) (c : Crew) (pc : Addr) (word : Word) : SameWaits s (releaseBuf s key c pc word) := by
  unfold releaseBuf
  split
  · exact .refl s
  · exact .of_crews rfl rfl

/-- No speculating crew has executed GANG: its commit leaves the Trivet alone. -/
def NoGangs (s : State) : Prop := ∀ p ∈ s.crews, ∀ sp, p.2.spec = some sp → sp.gangs = []
/-- A commit ends no wait where no crew has executed GANG in speculation. -/
theorem sameWaits_commitPhase {s : State} (h : NoGangs s) (tid d : Nat) (phase : Word) : SameWaits s (commitPhase s tid d phase) := by
  unfold commitPhase
  extract_lets cs ended released
  have hended : SameWaits s ended := by
    refine foldl_keeps (SameWaits s) _ (fun x p hx => ?_) _ _ (.refl s)
    exact (hx.trans (sameWaits_emitCrewA ..)).trans (sameWaits_modCrew (fun _ => by rfl) ..)
  have hreleased : SameWaits s released := foldl_keeps (SameWaits s) _ (fun _ _ hx => hx.trans (sameWaits_releaseBuf ..)) _ _ hended
  refine List.foldlRecOn cs _ hreleased fun x hx p hp => ?_
  split
  · next sp hsp =>
    rw [h p (List.mem_of_mem_filter hp) sp hsp]
    exact hx
  · exact hx

/-- A barrier that has been armed stays so while crews are left in it. -/
theorem Barrier.next_armed {b : Barrier} (h : b.armed = true) : b.next.armed = true ↔ b.e - b.drops ≠ 0 := by
  simp [Barrier.next, h]
/-- A phase that is not due leaves everything as it is. -/
theorem settleCore_open {s : State} {tid d : Nat} {t : Team} (ht : s.team? tid = some t)
    (hopen : (Tbl.getD t.bars d {}).armed = false ∨ (Tbl.getD t.bars d {}).arr ≠ (Tbl.getD t.bars d {}).e) : settleCore s tid d = s := by
  unfold settleCore
  rw [ht]
  exact if_neg (by simpa using fun harmed => hopen.resolve_left (by simp [harmed]))

/-- The wait of a crew for a phase of a team's barrier ends (R317). -/
def endCoreWait (tid d : Nat) (phase : Word) (acqAt : Nat) (p : Nat × Crew) : Nat × Crew :=
  if p.2.team == tid && p.2.wait == .barrier d phase then (p.1, { p.2 with wait := .none, acqAt := acqAt }) else p
theorem endCoreWait_key (tid d : Nat) (phase : Word) (acqAt : Nat) (p : Nat × Crew) : (endCoreWait tid d phase acqAt p).1 = p.1 := by
  unfold endCoreWait; split <;> rfl
theorem endCoreWait_spec (tid d : Nat) (phase : Word) (acqAt : Nat) (p : Nat × Crew) : (endCoreWait tid d phase acqAt p).2.spec = p.2.spec := by
  unfold endCoreWait; split <;> rfl
/-- A due phase completes, the waits for it end, and then the crews that speculate past it commit. -/
theorem settleCore_due {s : State} {tid d : Nat} {t : Team} (ht : s.team? tid = some t) (hd : d < 128)
    (harmed : (Tbl.getD t.bars d {}).armed = true) (hdue : (Tbl.getD t.bars d {}).arr = (Tbl.getD t.bars d {}).e) :
    ∃ u : State, settleCore s tid d = commitPhase u tid d (Tbl.getD t.bars d {}).phase ∧
      u.team? tid = some { t with bars := Tbl.put t.bars d (Tbl.getD t.bars d {}).next } ∧
      u.crews = s.crews.map (endCoreWait tid d (Tbl.getD t.bars d {}).phase s.nextOp) := by
  unfold settleCore
  rw [ht]
  dsimp only
  obtain ⟨fs, fb, tm, -, e⟩ := emitA_touches s (t.core / 32) (t.core % 32) (funcOfTeam s tid) none 0x20 (BitVec.ofNat 8 d)
    (Tbl.getD t.bars d {}).phase 0 (some t.ctx)
  rw [if_pos (by rw [harmed, hdue, beq_self_eq_true]; rfl), e]
  unfold setBarrier
  rw [if_pos hd]
  refine ⟨_, rfl, ?_, rfl⟩
  exact (State.modTeam_team? ..).trans ((if_pos rfl).trans (congrArg _ ht))

end Machine

open Machine in
/-- Settles O40: the waits for a due phase end in its step, and the commits after it end or begin none. -/
theorem barrierPhases : Obligations.BarrierPhases := by
  unfold Obligations.BarrierPhases
  refine ⟨?_, fun s tid t d ht hopen => settleCore_open ht hopen⟩
  intro s tid t d ht harmed hdue hd hgangs b
  obtain ⟨u, e, hteam, hcrews⟩ := settleCore_due ht hd harmed hdue
  have hnone : NoGangs u := by
    unfold NoGangs
    rw [hcrews, List.forall_mem_map]
    simpa only [endCoreWait_spec] using hgangs
  have hwaits : SameWaits u (settleCore s tid d) := e ▸ sameWaits_commitPhase hnone ..
  refine ⟨_, b.next, (hwaits.team? tid).trans hteam, Tbl.get?_put_self .., rfl, rfl, rfl, rfl, Barrier.next_armed harmed,
    fun k c hc hin _ hwait => ?_⟩
  have hu : u.crew? k = some { c with wait := .none, acqAt := s.nextOp } := by
    unfold State.crew?
    rw [hcrews, Tbl.get?_map (endCoreWait_key _ _ _ _), show Tbl.get? s.crews k = some c from hc]
    exact congrArg some (congrArg Prod.snd (if_pos (by simp [hin, hwait, b])))
  exact hwaits.crew hu

end Sys2Proof
end

section
/-! PROOF. Arrivals at barriers (R312, R315, R316, R320 to R323): what BAR, BARS, BARA, BARD and BARI do outside regions, when nothing that is
outstanding holds them back. -/
namespace Sys2Proof

namespace Machine

/-! The trace fabric after a phase completes. -/
theorem calm_commitPhase {s : State} (h : Calm s) (tid d : Nat) (phase : Word) : Calm (commitPhase s tid d phase) := by
  unfold commitPhase
  extract_lets cs ended released
  have hended : Calm ended := by
    refine foldl_keeps Calm _ (fun x p hx => ?_) _ _ h
    exact solid_emitCrewA calm_solid hx ..
  have hreleased : Calm released := foldl_keeps Calm _ (fun _ _ hx => solid_releaseBuf calm_solid hx ..) _ _ hended
  refine foldl_keeps Calm _ (fun x p hx => ?_) _ _ hreleased
  split
  · exact foldl_keeps Calm _ (fun _ _ hy => solid_failGangs calm_solid 65 hy ..) _ _ hx
  · exact hx
theorem calm_settleCore {s : State} (h : Calm s) (tid d : Nat) : Calm (settleCore s tid d) := by
  unfold settleCore
  split
  · exact h
  · refine solid_ite calm_solid (calm_commitPhase ?_ ..) h
    unfold setBarrier
    split <;> exact solid_emitA calm_solid h ..

/-! A core barrier of a team. -/

/-- A core barrier that has counted an arrival of a crew in a team of so many crews (R315, R322). -/
def Barrier.arrived (b : Barrier) (key crews : Nat) (op : ArriveOp) : Barrier :=
  { b with
    e := if b.armed then b.e else crews, armed := true, arr := b.arr + 1, drops := b.drops + (if op = .bard then 1 else 0),
    pend := if op = .bara then Tbl.put (Tbl.del b.pend key) key b.phase else Tbl.del b.pend key,
    dropped := if op = .bard then setAdd b.dropped key else b.dropped }
/-- A team with a core barrier in a new state. -/
def Team.withBar (t : Team) (d : Nat) (b : Barrier) : Team := { t with bars := Tbl.put t.bars d b }
theorem barrierOf_core {d : Nat} (hd : d < 128) (s : State) (t : Team) : barrierOf s t d = Tbl.getD t.bars d {} := if_pos hd
theorem setBarrier_core {s : State} {tid d : Nat} {t : Team} (ht : s.team? tid = some t) (hd : d < 128) (b : Barrier) :
    setBarrier s tid t d b = s.setTeam tid (t.withBar d b) := by
  unfold setBarrier
  rw [if_pos hd]
  exact State.modTeam_of_team? ht _
theorem barrierOf_wide {d : Nat} (hd : 128 ≤ d) (s : State) (t : Team) : barrierOf s t d = Tbl.getD s.wide (wideOf s t d) {} :=
  if_neg (Nat.not_lt.mpr hd)
/-- A phase that the new state of a barrier does not make due goes on. -/
theorem settleCore_withBar {s : State} {tid d : Nat} {t : Team} {b : Barrier} (ht : s.team? tid = some (t.withBar d b)) (hopen : b.arr ≠ b.e) :
    settleCore s tid d = s :=
  settleCore_open ht (.inr (by rw [show Tbl.getD (t.withBar d b).bars d {} = b from (Tbl.getD_put ..).trans (if_pos rfl)]; exact hopen))

/-- The reservation for a record stays where it is. -/
theorem Recorded.withBar {s : State} {c : Crew} {t : Team} {d : Nat} {b : Barrier} (h : Recorded s c) (ht : s.team? c.team = some t) :
    Recorded ((s.setTeam c.team (t.withBar d b)).setCrew s.cur c) c := by
  have hfunc : funcOfTeam ((s.setTeam c.team (t.withBar d b)).setCrew s.cur c) c.team = funcOfTeam s c.team := by
    unfold funcOfTeam
    rw [ht, show ((s.setTeam c.team (t.withBar d b)).setCrew s.cur c).team? c.team = some (t.withBar d b) from
      (State.setTeam_team? ..).trans (if_pos rfl)]
    rfl
  unfold Recorded
  rw [hfunc]
  exact h

/-! The wait for a phase. -/

theorem emitS_team? (s : State) (key : Nat) (event arg : BitVec 8) (payload : Word) (tid : Nat) :
    (emitS s key event arg payload).team? tid = s.team? tid := by
  obtain ⟨_, _, _, _, e⟩ := emitS_touches s key event arg payload false 0
  rw [e]; rfl
theorem enterWait_team? (s : State) (c : Crew) (op : ArriveOp) (d : Nat) (phase : Word) (tid : Nat) :
    (enterWait s c op d phase).team? tid = s.team? tid := by
  unfold enterWait
  split
  · exact emitS_team? ..
  · rfl
theorem enterWait_waits {op : ArriveOp} (h : op ≠ .bars) (s : State) (c : Crew) (d : Nat) (phase : Word) :
    enterWait s c op d phase = retire s { c with wait := .barrier d phase } := if_neg fun hop => h hop.1
/-- BARS leaves a checkpoint behind it and speculates (R323, R324). -/
theorem enterWait_speculates {c : Crew} {d : BitVec 8} {phase : Word} (h : c.rolled ≠ some (d.toNat, phase)) (s : State) :
    enterWait s c .bars d.toNat phase = retire (emitS (s.setCrew s.cur c) s.cur 0x12 d phase)
      { c with spec := some { handle := d.toNat, phase := phase, shadow := [], reads := [], first := s.nextOp, stopped := false, bars := c.pc,
                              cp := c.checkpoint (c.pc + 4) } } := by
  obtain ⟨_, _, _, _, e⟩ := emitS_touches (s.setCrew s.cur c) s.cur 0x12 d phase false 0
  unfold enterWait
  rw [if_pos ⟨rfl, h⟩, BitVec.ofNat_toNat, BitVec.setWidth_eq, e]
  rfl

/-! An arrival is counted. -/

section
variable {s : State} {c : Crew} {t : Team} {d : Nat} (ht : s.team? c.team = some t) (hd : d < 128) (b : Barrier) (op : ArriveOp)
include ht hd

/-- What an arrival at a core barrier leaves, before a due phase completes. -/
theorem countArrival_core :
    let k := b.arrived s.cur t.crews.length op
    let s' := s.setTeam c.team (t.withBar d k)
    countArrival s c t op d { b with pend := Tbl.del b.pend s.cur } =
      settleCore (if op.waits = false then retire s' c else if k.arr = k.e then retire s' { c with acqAt := s.nextOp }
        else enterWait s' c op d b.phase) c.team d := by
  intro k s'
  unfold countArrival
  dsimp only
  rw [if_neg (by omega), setBarrier_core ht hd]
  simp only [hd, and_true, Bool.not_eq_true', beq_iff_eq]
  rfl
/-- The arrival that makes the phase due completes it. -/
theorem countArrival_due (hdue : (b.arrived s.cur t.crews.length op).arr = (b.arrived s.cur t.crews.length op).e) :
    countArrival s c t op d { b with pend := Tbl.del b.pend s.cur } =
      settleCore (retire (s.setTeam c.team (t.withBar d (b.arrived s.cur t.crews.length op)))
        (if op.waits then { c with acqAt := s.nextOp } else c)) c.team d := by
  rw [countArrival_core ht hd, if_pos hdue]
  cases op.waits <;> rfl
/-- Another goes on, or waits for the phase. -/
theorem countArrival_open (hopen : (b.arrived s.cur t.crews.length op).arr ≠ (b.arrived s.cur t.crews.length op).e) :
    countArrival s c t op d { b with pend := Tbl.del b.pend s.cur } =
      if op.waits then enterWait (s.setTeam c.team (t.withBar d (b.arrived s.cur t.crews.length op))) c op d b.phase
      else retire (s.setTeam c.team (t.withBar d (b.arrived s.cur t.crews.length op))) c := by
  have hteam : (s.setTeam c.team (t.withBar d (b.arrived s.cur t.crews.length op))).team? c.team =
      some (t.withBar d (b.arrived s.cur t.crews.length op)) := (State.setTeam_team? ..).trans (if_pos rfl)
  rw [countArrival_core ht hd, if_neg hopen]
  cases op.waits with
  | true => exact settleCore_withBar ((enterWait_team? ..).trans hteam) hopen
  | false => exact settleCore_withBar (s := retire _ c) hteam hopen
end

/-- The message of an arrival (R312). -/
def ArriveOp.message : ArriveOp → WideWhat
  | .bar | .bars => .arrive
  | .bara => .arriveSplit
  | .bard => .drop
/-- BAR waits at a wide context too; BARA and BARD go on. -/
theorem ArriveOp.waits_iff {op : ArriveOp} (h : op ≠ .bars) : op.waits = true ↔ op = .bar := by
  cases op <;> simp_all [ArriveOp.waits]
/-- The arrival at a wide context is a message on its way there. -/
theorem countArrival_wide {d : Nat} (hd : 128 ≤ d) (s : State) (c : Crew) (t : Team) {op : ArriveOp} (hop : op ≠ .bars) (b : Barrier) :
    countArrival s c t op d { b with pend := Tbl.del b.pend s.cur } = retire { s with
      wide := Tbl.put s.wide (wideOf s t d)
        { b with pend := if op = .bara then Tbl.put (Tbl.del b.pend s.cur) s.cur b.phase else Tbl.del b.pend s.cur },
      wideMsgs := s.wideMsgs ++ [{ ctx := wideOf s t d, crew := s.cur, handle := d, what := op.message }] }
      (if op = .bar then { c with wait := .barrier d b.phase } else c) := by
  have hlow : ¬ d < 128 := by omega
  unfold countArrival setBarrier
  simp only [hd, hlow, and_false, if_true, if_false, enterWait_waits hop, ArriveOp.waits_iff hop]
  split <;> rfl

/-! The arrivals as instructions. -/

/-- The instructions that arrive at a barrier. -/
def arrivals (d : BitVec 8) : List (Instr × ArriveOp) := [(.bar d, .bar), (.bars d, .bars), (.bara d, .bara), (.bard d, .bard)]
/-- The instructions that arrive at a wide context, with their messages. -/
def wideArrivals (d : BitVec 8) : List (Instr × ArriveOp × WideWhat) :=
  [(.bar d, .bar, .arrive), (.bara d, .bara, .arriveSplit), (.bard d, .bard, .drop)]
theorem wideArrivals_spec {d : BitVec 8} {i : Instr} {op : ArriveOp} {what : WideWhat} (h : (i, op, what) ∈ wideArrivals d) :
    (i, op) ∈ arrivals d ∧ what = op.message ∧ op ≠ .bars := by
  simp only [wideArrivals, List.mem_cons, List.not_mem_nil, or_false, Prod.mk.injEq] at h
  rcases h with ⟨rfl, rfl, rfl⟩ | ⟨rfl, rfl, rfl⟩ | ⟨rfl, rfl, rfl⟩ <;> simp [arrivals, ArriveOp.message]
/-- The barrier of a handle without the record of the crew's BARA there. -/
def clearedAt (s : State) (t : Team) (d : Nat) : Barrier :=
  { barrierOf s t d with pend := Tbl.del (barrierOf s t d).pend s.cur }
/-- What an arrival does, by what it finds at the barrier. -/
def arriveBody (i : Instr) (op : ArriveOp) (d : Nat) (s : State) (c : Crew) (t : Team) : State :=
  let b := barrierOf s t d
  let closed := closeRegion s s.cur c.pc (wordOf i)
  let r := releaseStep closed closed.cur c.fenceAt op.waits (decide (128 ≤ d))
  if op.waits && (Tbl.get? b.pend s.cur).isSome && !orderOver s s.cur s.nextOp true false false then s
  else if pendOpen s s.cur d b then
    if op.waits then enterWait (setBarrier closed c.team t d (clearedAt s t d)) c.closed op d ((Tbl.get? b.pend s.cur).getD b.phase)
    else trapAt s s.cur c (wordOf i) .overArrival 0 0 0 (barDetail d b.phase)
  else if (Tbl.get? b.pend s.cur).isSome && op.waits then
    retire (endWait (setBarrier closed c.team t d (clearedAt s t d)) (coreOf s.cur) d) { c.closed with acqAt := s.nextOp }
  else if hasDropped s s.cur d b then trapAt s s.cur c (wordOf i) .overArrival 0 0 0 (barDetail d b.phase)
  else if r.1 then countArrival closed { c.closed with fenceAt := none } t op d (clearedAt s t d)
  else closed.setCrew closed.cur { c.closed with fenceAt := r.2 }
theorem exec_arrivals (d : BitVec 8) : ∀ q ∈ arrivals d, ∀ s, exec q.1 s = issue s (needOf s q.1) (arriveBody q.1 q.2 d.toNat) := by
  simp only [arrivals, List.forall_mem_cons]
  exact ⟨fun _ => rfl, fun _ => rfl, fun _ => rfl, fun _ => rfl, fun _ h => nomatch h⟩

/-- No message of the crew of the current move is on its way to a barrier. -/
def NoMessage (s : State) (d : Nat) : Prop := ∀ m ∈ s.wideMsgs, m.crew = s.cur → m.handle ≠ d
theorem NoMessage.inFlight {s : State} {d : Nat} (h : NoMessage s d) : inFlight s s.cur d = false :=
  List.any_eq_false.mpr fun m hm => by simpa using h m hm
theorem NoMessage.hasDropped {s : State} {d : Nat} {b : Barrier} (h : NoMessage s d) (hin : s.cur ∉ b.dropped) :
    hasDropped s s.cur d b = false := by
  have hmsgs : (s.wideMsgs.any fun m => m.crew == s.cur && m.handle == d && m.what == .drop) = false :=
    List.any_eq_false.mpr fun m hm => by simpa using fun hcrew hhandle => absurd hhandle (h m hm hcrew)
  unfold Machine.hasDropped
  rw [hmsgs]
  simpa using hin
theorem pendOpen_none {s : State} {d : Nat} {b : Barrier} (h : Tbl.get? b.pend s.cur = none) : pendOpen s s.cur d b = false := by
  unfold pendOpen; rw [h]
theorem NoMessage.pendOpen {s : State} {d : Nat} {b : Barrier} {p : Word} (h : NoMessage s d) (hp : Tbl.get? b.pend s.cur = some p) :
    pendOpen s s.cur d b = (p == b.phase) := by
  unfold Machine.pendOpen; rw [hp]; simp [h.inFlight]
/-- A release waits for nothing that is performed. -/
theorem Settled.releaseStep {s : State} (h : Settled s) (key : Nat) (from_ : Option Nat) (acq wide : Bool) :
    (releaseStep s key from_ acq wide).1 = true := by
  have hdrained : ∀ core n, queueDrained s core n = true := fun core n => List.all_eq_true.mpr fun p hp => by simp [h.1 p hp]
  unfold Machine.releaseStep
  rw [if_pos (h.orderOver ..)]
  simp [hdrained]

/-- Nothing holds the crew of the current move back at a barrier: it is outside regions, what is outstanding is settled, and no message of its own
is on its way to the barrier. -/
structure Unheld (s : State) (c : Crew) (d : Nat) : Prop where
  outside : Outside s c
  settled : Settled s
  clear : NoMessage s d

section
variable {i : Instr} {op : ArriveOp} {s : State} {c : Crew} {t : Team} {d : Nat}

/-- A crew that has left the barrier by BARD takes the over-arrival trap (R315). -/
theorem arriveBody_dropped (hc : s.crew? s.cur = some c) (hs : c.spec = none) (hnone : Tbl.get? (barrierOf s t d).pend s.cur = none)
    (hin : s.cur ∈ (barrierOf s t d).dropped) : arriveBody i op d s c t = raise s s.cur
      { kind := .overArrival, resume := c.pc, fault := c.pc, word := wordOf i, detail := barDetail d (barrierOf s t d).phase } := by
  have hdropped : hasDropped s s.cur d (barrierOf s t d) = true := by unfold hasDropped; simp [hin]
  unfold arriveBody
  simp only [hnone, pendOpen_none hnone, hdropped, Option.isSome_none, Bool.and_false, Bool.false_and, Bool.false_eq_true, if_false, if_true]
  exact trapOrStop_raises hc hs _

variable (h : Unheld s c d)
include h

/-- An arrival that nothing holds back is counted. -/
theorem arriveBody_counts (hnone : Tbl.get? (barrierOf s t d).pend s.cur = none) (hin : s.cur ∉ (barrierOf s t d).dropped) :
    arriveBody i op d s c t = countArrival s c t op d (clearedAt s t d) := by
  obtain ⟨hout, hset, hclear⟩ := h
  have hsame : { c.closed with fenceAt := none } = c := by
    obtain ⟨-, -, -, -, hfence⟩ := id hout
    rw [show c.closed = c from hout.same, ← hfence]
  unfold arriveBody
  simp [hnone, pendOpen_none hnone, hclear.hasDropped hin, hout.close, hset.releaseStep, hsame]
/-- A BAR after a BARA waits for the phase that the BARA arrived in, and goes on when that is over (R316). -/
theorem arriveBody_pends {p : Word} (hp : Tbl.get? (barrierOf s t d).pend s.cur = some p) (hd : d < 128) :
    arriveBody i .bar d s c t = retire (setBarrier s c.team t d (clearedAt s t d))
      (if p = (barrierOf s t d).phase then { c with wait := .barrier d p } else { c with acqAt := s.nextOp }) := by
  obtain ⟨hout, hset, hclear⟩ := h
  have hsame : c.closed = c := hout.same
  have hwait : endWait (setBarrier s c.team t d (clearedAt s t d)) (coreOf s.cur) d = setBarrier s c.team t d (clearedAt s t d) := if_pos hd
  unfold arriveBody
  simp only [hp, hclear.pendOpen hp, hset.orderOver, hout.close, hsame, hwait]
  by_cases hopen : p = (barrierOf s t d).phase
  · simp [hopen, enterWait_waits, ArriveOp.waits]
  · simp [hopen, ArriveOp.waits]
end

/-! BARI. -/

/-- An expected count that BARI accepts (R321). -/
def BariFits (d : BitVec 8) (a : SReg) (c : Crew) (t : Team) : Prop :=
  0 < (c.getS a).toNat ∧ (c.getS a).toNat ≤ if d.toNat < 128 then t.crews.length else 2 ^ 24 - 1
/-- What BARI does, by the count and by what it finds at the barrier. -/
theorem exec_bari (d : BitVec 8) (a : SReg) : ∃ body, (∀ s, exec (.bari d a) s = issue s (needOf s (.bari d a)) body) ∧ ∀ s c t,
    (¬ BariFits d a c t → body s c t = trapAt s s.cur c (wordOf (.bari d a)) .operand) ∧
    (BariFits d a c t → 128 ≤ d.toNat → body s c t = { s.setCrew s.cur { c with wait := .bari d.toNat } with
      wideMsgs := s.wideMsgs ++ [{ ctx := wideOf s t d.toNat, crew := s.cur, handle := d.toNat, what := .arm (c.getS a) }] }) ∧
    (BariFits d a c t → d.toNat < 128 → (Tbl.getD t.bars d.toNat {}).arm (c.getS a).toNat = none →
      body s c t = trapAt s s.cur c (wordOf (.bari d a)) .barrierState 0 0 0 (barDetail d.toNat (Tbl.getD t.bars d.toNat {}).phase)) ∧
    ∀ b, BariFits d a c t → d.toNat < 128 → (Tbl.getD t.bars d.toNat {}).arm (c.getS a).toNat = some b →
      body s c t = settleCore (retire (setBarrier (closeRegion s s.cur c.pc (wordOf (.bari d a))) c.team t d.toNat b) c.closed) c.team d.toNat := by
  refine ⟨_, fun _ => rfl, fun s c t => ?_⟩
  unfold BariFits
  dsimp only
  refine ⟨fun hnot => if_pos (by omega), fun hfits hwide => ?_, fun hfits hcore harm => ?_, fun b hfits hcore harm => ?_⟩
  · rw [if_neg (by omega), if_pos hwide, BitVec.ofNat_toNat, BitVec.setWidth_eq]
  · rw [if_neg (by omega), if_neg (by omega), harm]
  · rw [if_neg (by omega), if_neg (by omega), harm]
    rfl
/-- BARI arms a barrier, and changes the count of one where nobody has arrived. -/
theorem Barrier.arm_some {b : Barrier} {k : Nat} (h : if b.armed then b.arr = 0 ∨ b.e = k else b.arr ≤ k) :
    b.arm k = some { b with e := k, armed := true } := by
  obtain ⟨armed, e, arr, drops, phase, dropped, pend, here⟩ := b
  unfold Barrier.arm
  cases armed with
  | false => simpa using h
  | true =>
    by_cases harr : arr = 0
    · simp [harr]
    · obtain rfl : e = k := h.resolve_left harr
      simp [harr]
theorem Barrier.arm_none {b : Barrier} {k : Nat} (h : if b.armed then b.arr ≠ 0 ∧ b.e ≠ k else k < b.arr) : b.arm k = none := by
  unfold Barrier.arm
  cases harmed : b.armed with
  | false => simpa [harmed] using h
  | true =>
    rw [harmed] at h
    obtain ⟨harr, hne⟩ := h
    simp [harr, Ne.symm hne]
theorem barDetail_handle (d : BitVec 8) (phase : Word) : barDetail d.toNat phase = BitVec.ofNat 64 (phase.toNat * 2 ^ 32 + d.toNat) := by
  unfold barDetail
  rw [Nat.mod_eq_of_lt d.isLt]

end Machine

open Machine in
/-- Settles O39: with nothing to hold it back, an arrival is counted, sent or refused by what its barrier holds, and so is a BARI. -/
theorem barrierArrivals : Obligations.BarrierArrivals := by
  unfold Obligations.BarrierArrivals
  intro counted free may put due
  have hfree : ∀ {s c t d}, free s c t d → Unheld s c d.toNat := fun ⟨hout, _, hset, hclear⟩ => ⟨hout, hset, hclear⟩
  have counts : ∀ {i op s c t d}, may s c t d → arriveBody i op d.toNat s c t = countArrival s c t op d.toNat
      { Tbl.getD t.bars d.toNat {} with pend := Tbl.del (Tbl.getD t.bars d.toNat {}).pend s.cur } := by
    intro i op s c t d ⟨hf, hd, hnone, hin⟩
    have hb := barrierOf_core hd s t
    rw [arriveBody_counts (hfree hf) (hb ▸ hnone) (hb ▸ hin), clearedAt, hb]
  have opens : ∀ {i op s c t d}, may s c t d → ¬ due s c t d op → arriveBody i op d.toNat s c t =
      if op.waits then enterWait (put s c t d op) c op d.toNat (Tbl.getD t.bars d.toNat {}).phase else retire (put s c t d op) c := by
    intro i op s c t d hmay hopen
    obtain ⟨⟨-, ht, -⟩, hd, -⟩ := id hmay
    exact (counts hmay).trans (countArrival_open ht hd _ op hopen)
  refine ⟨fun d => ?bar, fun d => ?bars, fun d => ?bara, fun d => ?bard, fun d x hx => ⟨?last, ?left⟩, fun d p => ?pends, fun d x hx => ?wide,
    fun d a => ?arms, fun d a => ?refused, fun d a => ?sent, fun d a => ?operand⟩
  case bar =>
    refine doesWhen_of_body (exec_arrivals d (.bar d, .bar) (by simp [arrivals])) fun s c t ⟨hmay, hopen⟩ => ⟨?_, rfl⟩
    exact (opens hmay hopen).trans (enterWait_waits (op := .bar) (by decide) _ c d.toNat _)
  case bars =>
    refine doesWhen_of_calm (exec_arrivals d (.bars d, .bars) (by simp [arrivals])) fun s c t ⟨hmay, hopen, hrec, hrolled⟩ hcalm => ⟨?_, ?_⟩
    · exact (opens hmay hopen).trans (enterWait_speculates hrolled _)
    · obtain ⟨⟨-, ht, -⟩, -⟩ := hmay
      exact calm_retire (calm_emitS_recorded (s := (put s c t d .bars).setCrew s.cur c) hcalm rfl ((State.setCrew_crew? ..).trans (if_pos rfl))
        (hrec.withBar ht) ..) _
  case bara =>
    exact doesWhen_of_body (exec_arrivals d (.bara d, .bara) (by simp [arrivals])) fun s c t ⟨hmay, hopen⟩ => ⟨opens hmay hopen, rfl⟩
  case bard =>
    exact doesWhen_of_body (exec_arrivals d (.bard d, .bard) (by simp [arrivals])) fun s c t ⟨hmay, hopen⟩ => ⟨opens hmay hopen, rfl⟩
  case last =>
    refine doesWhen_of_calm (exec_arrivals d x hx) fun s c t ⟨hmay, hdue⟩ hcalm =>
      ⟨?_, calm_settleCore (s := retire (put s c t d x.2) _) hcalm ..⟩
    obtain ⟨⟨-, ht, -⟩, hd, -⟩ := id hmay
    exact (counts hmay).trans (countArrival_due ht hd _ x.2 hdue)
  case left =>
    refine doesWhen_of_calm (exec_arrivals d x hx) fun s c t ⟨hc, hs, hd, hnone, hin⟩ hcalm => ⟨?_, solid_raise calm_solid hcalm ..⟩
    have hb := barrierOf_core hd s t
    rw [arriveBody_dropped hc hs (hb ▸ hnone) (hb ▸ hin), hb, barDetail_handle]
  case pends =>
    refine doesWhen_of_body (exec_arrivals d (.bar d, .bar) (by simp [arrivals])) fun s c t ⟨hf, hd, hp⟩ => ⟨?_, rfl⟩
    obtain ⟨-, ht, -⟩ := id hf
    have hb := barrierOf_core hd s t
    rw [arriveBody_pends (hfree hf) (hb ▸ hp) hd, setBarrier_core ht hd, clearedAt, hb]
    rfl
  case wide =>
    obtain ⟨i, op, what⟩ := x
    obtain ⟨hmem, rfl, hbars⟩ := wideArrivals_spec hx
    refine doesWhen_of_body (exec_arrivals d _ hmem) fun s c t ⟨hf, hd, hnone, hin⟩ => ⟨?_, rfl⟩
    have hb := barrierOf_wide hd s t
    rw [arriveBody_counts (hfree hf) (hb ▸ hnone) (hb ▸ hin), clearedAt, hb]
    exact countArrival_wide hd s c t hbars _
  case arms =>
    obtain ⟨body, hx, hb⟩ := exec_bari d a
    refine doesWhen_of_calm hx fun s c t ⟨hout, ht, hd, hpos, hle, harm⟩ hcalm =>
      ⟨?_, calm_settleCore (s := retire (s.setTeam _ _) _) hcalm ..⟩
    obtain ⟨-, -, -, harms⟩ := hb s c t
    rw [harms _ ⟨hpos, by rwa [if_pos hd]⟩ hd (Barrier.arm_some harm), hout.close, setBarrier_core ht hd, show c.closed = c from hout.same]
    rfl
  case refused =>
    obtain ⟨body, hx, hb⟩ := exec_bari d a
    refine doesWhen_of_calm hx fun s c t ⟨⟨hc, _, hs, _⟩, hd, hpos, hle, harm⟩ hcalm => ⟨?_, solid_raise calm_solid hcalm ..⟩
    obtain ⟨-, -, hrefuses, -⟩ := hb s c t
    rw [hrefuses ⟨hpos, by rwa [if_pos hd]⟩ hd (Barrier.arm_none harm), barDetail_handle]
    exact trapOrStop_raises hc hs _
  case sent =>
    obtain ⟨body, hx, hb⟩ := exec_bari d a
    refine doesWhen_of_body hx fun s c t ⟨_, hwide, hpos, hlt⟩ => ⟨?_, rfl⟩
    obtain ⟨-, hsends, -⟩ := hb s c t
    exact hsends ⟨hpos, by rw [if_neg (by omega)]; omega⟩ hwide
  case operand =>
    obtain ⟨body, hx, hb⟩ := exec_bari d a
    refine trapsWhen_of_body hx fun s c t hc hs hbad => ?_
    obtain ⟨hrefuses, -⟩ := hb s c t
    rw [hrefuses]
    · exact trapOrStop_raises hc hs _
    · rintro ⟨hpos, hle⟩
      rcases hbad with hzero | hbig
      · simp [hzero] at hpos
      · omega

end Sys2Proof
end

section
/-! PROOF. Taking a trap, and TRAP, TRET and SWRITE (R363, R369, R372 to R374). -/
namespace Sys2Proof

/-- Of two stores at a key the later one stands. -/
theorem Tbl.put_put {α : Type} (t : Tbl α) (k : Nat) (a b : α) : Tbl.put (Tbl.put t k a) k b = Tbl.put t k b := by
  induction t with
  | nil => simp [Tbl.put]
  | cons p t ih =>
    obtain ⟨j, v⟩ := p
    by_cases hlt : k < j
    · simp [Tbl.put, hlt]
    · by_cases heq : j = k
      · subst heq; simp [Tbl.put]
      · simp [Tbl.put, hlt, heq, ih]

namespace Machine

@[simp] theorem State.setCrew_setCrew (s : State) (k : Nat) (c c' : Crew) : (s.setCrew k c).setCrew k c' = s.setCrew k c' :=
  congrArg (fun cs => { s with crews := cs }) (Tbl.put_put ..)

/-- What concerns the tracing of a team depends on its context and on the tables of contexts, of functions and of the trace fabric. -/
theorem funcOfTeam_setTeam {s : State} {k : Nat} {t t' : Team} (h : s.team? k = some t) (hctx : t'.ctx = t.ctx) (j : Nat) :
    funcOfTeam (s.setTeam k t') j = funcOfTeam s j := by
  unfold funcOfTeam
  rw [State.setTeam_team?]
  by_cases e : j = k
  · rw [if_pos e, e, h]
    exact congrArg (funcOfCtx s) hctx
  · rw [if_neg e]; rfl
theorem traceHeld_setTeam {s : State} {k : Nat} {t t' : Team} (h : s.team? k = some t) (hctx : t'.ctx = t.ctx) (key : Nat) (c : Crew) :
    traceHeld (s.setTeam k t') key c = traceHeld s key c := by
  unfold traceHeld
  rw [funcOfTeam_setTeam h hctx]
  rfl
theorem untraced_setTeam {s : State} {k : Nat} {t t' : Team} (h : s.team? k = some t) (hctx : t'.ctx = t.ctx) {j : Nat} (hu : Untraced s j) :
    Untraced (s.setTeam k t') j := by
  unfold Untraced
  rw [funcOfTeam_setTeam h hctx]
  exact hu

/-- Nothing counted of the crew is outstanding, and no operation of a region that it has aborted (R363). -/
def Quiesced (s : State) (k : Nat) : Prop := ∀ p ∈ s.ops, p.2.crew = k → p.2.cls = none ∧ (p.2.quiet = true → p.2.done = true)
theorem Quiesced.noneOutstanding {s : State} {k : Nat} (h : Quiesced s k) :
    (s.ops.any fun q => q.2.crew == k && (q.2.cls.isSome || q.2.quiet && !q.2.done)) = false := by
  rw [List.any_eq_false]
  intro p hp
  by_cases hk : p.2.crew = k
  · obtain ⟨hcls, hquiet⟩ := h p hp hk
    cases hq : p.2.quiet <;> simp_all
  · simp [hk]

/-- The crew in its handler (R369): the record is written, MODE is 0 and the trap vector is its program counter. -/
def Crew.handling (c : Crew) (t : Team) (info : TrapInfo) : Crew :=
  { c with trap := recordOf c info false, rclosed := false, pending := none, wait := .none, mode := 0, handler := true, pc := t.trapv }

/-- With its records not delivered and no fault held, a crew that has come to step 4 of R363 enters its handler. -/
theorem takeTrap_untraced {s : State} {k : Nat} {c : Crew} {t : Team} {info : TrapInfo} (hc : s.crew? k = some c) (hu : Untraced s c.team)
    (hcalm : Calm s) (htrace : traceHeld s k c = false) (hheld : c.held = []) (h1 : c.stalled = none) (h2 : c.stallSum = 0)
    (hinfo : info.held = false) (hv : t.trapv ≠ 0) : takeTrap s k c t info = s.setCrew k (c.handling t info) := by
  unfold takeTrap
  have hcalm' : s.fabric.starved = false := hcalm
  simp only [hinfo, Bool.false_eq_true, if_false, endStall_unstalled h1 h2, emitS_untraced hc hu, htrace, hcalm', hv, hheld, List.map_nil,
    List.isEmpty_nil, Bool.not_true]
  unfold Crew.handling
  rw [← hheld]

/-- The crew that is taking a trap (R363). -/
def Crew.taking (c : Crew) (info : TrapInfo) : Crew :=
  { c with pending := some info, wait := .none, spare := none, fenceAt := none, spawn := none }
/-- Outside regions a trap of a crew that has nothing outstanding comes to step 4 of R363 at once. -/
theorem enterTrap_quiesced {s : State} {k : Nat} {c : Crew} {t : Team} {info : TrapInfo} (hc : s.crew? k = some (c.taking info))
    (ht : s.team? c.team = some t) (hr : c.region = none) (hq : Quiesced s k) :
    enterTrap s k = takeTrap s k (c.taking info) t info := by
  unfold enterTrap
  rw [hc]
  dsimp only [Crew.taking]
  rw [ht]
  dsimp only
  rw [if_neg (by exact Bool.false_ne_true), hq.noneOutstanding, hr]
  rfl
theorem setTrap_double {s : State} {k : Nat} {c : Crew} {t : Team} (hc : s.crew? k = some c) (ht : s.team? c.team = some t)
    (he : entryEnding s t = false) (hh : c.handler = true) (info : TrapInfo) :
    setTrap s k info = endEntry s t.entry 0x00FF (endDetail 0 info.kind.code c.idx t.tidx) := by
  unfold setTrap
  rw [hc]
  dsimp only
  rw [ht]
  simp [he, hh]

/-- The team in which a crew waits for no semaphore (R242). -/
def Team.unwaits (t : Team) (k : Nat) : Team := { t with semWait := t.semWait.filter fun p => p.2 != k }
/-- A trap outside the handler: the crew waits for nothing, and is taking the trap. -/
theorem setTrap_first {s : State} {k : Nat} {c : Crew} {t : Team} (hc : s.crew? k = some c) (ht : s.team? c.team = some t)
    (he : entryEnding s t = false) (hh : c.handler = false) (hspawn : c.spawn = none) (info : TrapInfo) :
    setTrap s k info = enterTrap ((s.setTeam c.team (t.unwaits k)).setCrew k (c.taking info)) k := by
  have hdrop : ∀ u : State, u.crew? k = some c → dropSpawn u k = u := fun u hu => by unfold dropSpawn; rw [hu]; simp [hspawn]
  unfold setTrap
  rw [hc]
  dsimp only
  rw [ht]
  dsimp only
  rw [if_neg (Bool.eq_false_iff.mp he), if_neg (Bool.eq_false_iff.mp hh), State.modTeam_of_team? ht, hdrop _ (by exact hc)]
  rfl

end Machine

open Machine in
/-- Settles O43: with nothing to wait for, each of the steps of R363 follows at once. -/
theorem takingATrap : Obligations.TakingATrap := by
  unfold Obligations.TakingATrap
  intro s k c t info hc ht hh hr hheld h1 h2 hspawn he hinfo hq htrace hv htrivet hcalm hu
  have hkeep : (t.unwaits k).ctx = t.ctx := rfl
  have hcrew : ((s.setTeam c.team (t.unwaits k)).setCrew k (c.taking info)).crew? k = some (c.taking info) := by
    rw [State.setCrew_crew?, if_pos rfl]
  have hteam : ((s.setTeam c.team (t.unwaits k)).setCrew k (c.taking info)).team? c.team = some (t.unwaits k) :=
    (State.setTeam_team? ..).trans (if_pos rfl)
  have henter : setTrap s k info = (s.setTeam c.team (t.unwaits k)).setCrew k ((c.taking info).handling t info) := by
    rw [setTrap_first hc ht he hh hspawn, enterTrap_quiesced hcrew hteam hr hq,
      takeTrap_untraced hcrew (untraced_setTeam ht hkeep hu) hcalm ((traceHeld_setTeam ht hkeep k c).trans htrace) hheld h1 h2 hinfo (by exact hv),
      State.setCrew_setCrew]
    rfl
  refine ⟨(c.taking info).handling t info, ?_, rfl, rfl, rfl, rfl, rfl, rfl, rfl, rfl, rfl, rfl, ?_, rfl, rfl, rfl, rfl, rfl, rfl, rfl⟩
  · unfold raise
    rw [hc]
    dsimp only
    rw [ht]
    dsimp only
    rw [if_neg (Bool.eq_false_iff.mp he), henter]
    exact failGangs_none (htrivet ▸ List.forall_mem_nil _) ..
  · simp only [Crew.handling, Crew.taking, recordOf, hinfo, Bool.false_eq_true, if_false, Nat.add_zero]
    rfl

namespace Machine

/-- TRET in the handler, its region closed (R374). -/
def returned (s : State) (c : Crew) : State :=
  if c.trap.w1.toNat < 2 ^ 56 ∧ c.trap.w1.toNat % 4 = 0 then s.setCrew s.cur (leaveHandler c)
  else trapAt s s.cur c (wordOf .tret) .branchTarget 0 c.trap.w1
/-- SWRITE with its region closed (R373). -/
def swritten (i : BitVec 8) (a : SReg) (s : State) (c : Crew) : State :=
  if i = 0x09 then retire s { c with rseed := c.getS a, rndcnt := 0 } else retire s { c with trap := { c.trap with w1 := c.getS a } }
theorem exec_tret : ∃ body, (∀ s, exec .tret s = issue s (needOf s .tret) body) ∧
    (∀ s c t, c.handler = false → body s c t = trapAt s s.cur c (wordOf .tret) .illegal 2) ∧
    ∀ s c t, Outside s c → c.handler = true → body s c t = returned s c := by
  refine ⟨_, fun _ => rfl, fun s c t hh => ?_, fun s c t hout hh => ?_⟩
  · simp [hh]
  · dsimp only
    rw [if_neg (by simp [hh]), hout.close]
    exact congrArg (returned s) hout.same
theorem exec_swrite (i : BitVec 8) (a : SReg) : ∃ body, (∀ s, exec (.swrite i a) s = issue s (needOf s (.swrite i a)) body) ∧
    ∀ s c t, Outside s c → body s c t = swritten i a s c := by
  refine ⟨_, fun _ => rfl, fun s c t hout => ?_⟩
  dsimp only
  rw [hout.close]
  exact congrArg (swritten i a s) hout.same

end Machine

open Machine in
/-- Settles O44: TRET and SWRITE have no region to close, and their traps are raised. -/
theorem trapInstructions : Obligations.TrapInstructions := by
  unfold Obligations.TrapInstructions
  obtain ⟨body, hx, houtside, hreturn⟩ := exec_tret
  choose write hwx hwrite using exec_swrite
  refine ⟨fun i s s1 c t hr => ?_, fun s k c t info hc ht he hh => setTrap_double hc ht he hh info, ?_, ?_, ?_, fun a => ?_, fun a => ?_⟩
  · exact issue_next hr (solid_raise calm_solid (mayIssue_unstarved hr) ..)
  · exact doesWhen_of_body hx fun s c t ⟨hout, hh, hlt, hmod⟩ => ⟨(hreturn s c t hout hh).trans (if_pos ⟨hlt, hmod⟩), rfl⟩
  · exact doesWhen_of_calm hx fun s c t ⟨hc, hs, hh⟩ hcalm =>
      ⟨(houtside s c t hh).trans (trapOrStop_raises hc hs _), solid_raise calm_solid hcalm ..⟩
  · exact trapsWhen_of_body hx fun s c t hc hs ⟨hout, hh, hbad⟩ =>
      ((hreturn s c t hout hh).trans (if_neg (by omega))).trans (trapOrStop_raises hc hs _)
  · exact doesWhen_of_body (hwx 0x09 a) fun s c t hout => ⟨(hwrite 0x09 a s c t hout).trans (if_pos rfl), rfl⟩
  · exact doesWhen_of_body (hwx 0x11 a) fun s c t hout => ⟨(hwrite 0x11 a s c t hout).trans (if_neg (by decide)), rfl⟩

end Sys2Proof
end

section
/-! PROOF. The trace instructions (R416 to R418): each checks its operand and then acts. -/
namespace Sys2Proof

namespace Machine

/-- Bits from k on are zero exactly in a value below 2 to the k. -/
theorem extract_high_eq_zero {k n : Nat} (v : BitVec (k + n)) : v.extractLsb' k n = 0 ↔ v.toNat < 2 ^ k := by
  have hlt : v.toNat / 2 ^ k < 2 ^ n := (Nat.div_lt_iff_lt_mul (Nat.two_pow_pos k)).mpr (by rw [Nat.mul_comm, ← Nat.pow_add]; exact v.isLt)
  rw [← BitVec.toNat_inj, BitVec.extractLsb'_toNat, Nat.shiftRight_eq_div_pow, Nat.mod_eq_of_lt hlt]
  exact Nat.div_eq_zero_iff_lt (Nat.two_pow_pos k)
/-- TRCTL with an operand of k bits: what it does with one that fits, and the trap of one that does not (R418). -/
theorem operandOf {k n : Nat} {v : BitVec (k + n)} {α : Type} {bad good : α} :
    (v.toNat < 2 ^ k → (if v.extractLsb' k n ≠ 0 then bad else good) = good) ∧
    (2 ^ k ≤ v.toNat → (if v.extractLsb' k n ≠ 0 then bad else good) = bad) :=
  ⟨fun h => if_neg (not_not.mpr ((extract_high_eq_zero v).mpr h)), fun h => if_pos fun e => Nat.not_lt.mpr h ((extract_high_eq_zero v).mp e)⟩
/-- A record of the crew is on its way (R418). -/
def awaitsRecord (s : State) : Bool := s.fabric.items.any fun i => i.own && i.crew == some s.cur
theorem exec_trctlDrain (a : SReg) : ∃ body, (∀ s, exec (.trctlDrain a) s = issue s (needOf s (.trctlDrain a)) body) ∧ ∀ s c t, body s c t =
    if c.getS a ≠ 0 then trapAt s s.cur c (wordOf (.trctlDrain a)) .operand else if awaitsRecord s then s else retire s c :=
  ⟨_, fun _ => rfl, fun _ _ _ => rfl⟩

end Machine

open Machine in
/-- Settles O42: an operand that fits sets its field or emits its record, and a drain looks for a record of its crew. -/
theorem traceInstructions : Obligations.TraceInstructions := by
  unfold Obligations.TraceInstructions
  choose drain hdrain hbody using exec_trctlDrain
  refine ⟨fun d a => ?_, fun a => ?_, fun a => ?_, fun a => ?_, fun a => ?_, fun a => ?_, fun a => ?_, fun a => ?_, fun a => ?_, fun a => ?_⟩
  · exact doesWhen_of_calm (fun _ => rfl) fun s c t ⟨hc, hrec⟩ hcalm => ⟨rfl, calm_emitS_recorded hcalm rfl hc hrec ..⟩
  · exact doesWhen_of_body (fun _ => rfl) fun s c t hfit => ⟨(operandOf (k := 1) (n := 63)).1 hfit, rfl⟩
  · exact doesWhen_of_body (fun _ => rfl) fun s c t hfit => ⟨(operandOf (k := 16) (n := 48)).1 hfit, rfl⟩
  · refine doesWhen_of_body (hdrain a) fun s c t ⟨hzero, hnone⟩ => ⟨?_, rfl⟩
    have hall : awaitsRecord s = false := List.any_eq_false.mpr fun i hi => by
      cases hown : i.own with
      | false => simp
      | true => simpa using hnone i hi hown
    rw [hbody, if_neg (not_not.mpr hzero), hall]
    rfl
  · refine doesWhen_of_body (hdrain a) fun s c t ⟨hzero, i, hi, hown, hcrew⟩ => ⟨?_, rfl⟩
    have hone : awaitsRecord s = true := List.any_eq_true.mpr ⟨i, hi, by simp [hown, hcrew]⟩
    rw [hbody, if_neg (not_not.mpr hzero), hone]
    rfl
  · exact doesWhen_of_calm (fun _ => rfl) fun s c t ⟨hc, hrec, hfit⟩ hcalm =>
      ⟨(operandOf (k := 8) (n := 56)).1 hfit, calm_emitS_recorded hcalm rfl hc hrec ..⟩
  · exact trapsWhen_of_body (fun _ => rfl) fun s c t hc hs h => ((operandOf (k := 1) (n := 63)).2 h).trans (trapOrStop_raises hc hs _)
  · exact trapsWhen_of_body (fun _ => rfl) fun s c t hc hs h => ((operandOf (k := 16) (n := 48)).2 h).trans (trapOrStop_raises hc hs _)
  · exact trapsWhen_of_body (hdrain a) fun s c t hc hs h => (hbody ..).trans ((if_pos h).trans (trapOrStop_raises hc hs _))
  · exact trapsWhen_of_body (fun _ => rfl) fun s c t hc hs h => ((operandOf (k := 8) (n := 56)).2 h).trans (trapOrStop_raises hc hs _)

end Sys2Proof
end

section
/-! PROOF. LAUNCH, TSPAWN and TDEP at their issue (R347, R351, R353): the records are read, and what a task's counter holds decides its status. -/
namespace Sys2Proof

namespace Machine

/-- A read that answers goes on with its bytes. -/
theorem withRead_value {s : State} {c : Crew} {a : Acc} {r : List Byte} (h : readNow s s.cur c a = some (.ok (r, false))) (word : Word)
    (k : List Byte → State) : withRead s c word a k = k r := by
  unfold withRead
  rw [h]
  rfl
/-- The record that LAUNCH or TSPAWN names can be accessed and is read (R347, R351). -/
def ReadsRecord (s : State) (c : Crew) (t : Team) (va n : Nat) (r : List Byte) : Prop :=
  accessFaults t true false true false n va n = [] ∧ readNow s s.cur c (mkAcc t true false 0 0 va n) = some (.ok (r, false))
theorem ReadsRecord.access {s : State} {c : Crew} {t : Team} {va n : Nat} {r : List Byte} (h : ReadsRecord s c t va n r) (word : Word) :
    takeAccess s s.cur c t word (laneChecks t true false true false n n [(0, va)]) = none :=
  takeAccess_none (laneChecks_faults (List.forall_mem_singleton.mpr h.1))

/-! LAUNCH. -/

/-- The slice of a context, or 0. -/
def sliceOfCtx (s : State) (ctx : Nat) : Nat := match Tbl.get? s.ctxs ctx with | some x => x.slice | none => 0
/-- LAUNCH with its record read, outside regions (R347). -/
def launched (d a : SReg) (r : List Byte) (s : State) (c : Crew) (t : Team) : State :=
  if launchOk r = false then retire s (c.setS d 2)
  else if frontHeld s (sliceOfCtx s t.ctx) = true then s
  else if queueFull s t.ctx = true then retire s (c.setS d 1)
  else retire (queueEntry s { ctx := t.ctx, rec_ := launchOf r, addr := (c.getS a).toNat, after := some (s.cur, s.nextOp) }) (c.setS d 0)
theorem launched_fabric (d a : SReg) (r : List Byte) (s : State) (c : Crew) (t : Team) : (launched d a r s c t).fabric = s.fabric := by
  unfold launched
  split_ifs <;> rfl
theorem exec_launch (d a : SReg) : ∃ body, (∀ s, exec (.launch d a) s = issue s (needOf s (.launch d a)) body) ∧
    ∀ s c t r, Outside s c → ReadsRecord s c t (c.getS a).toNat 256 r → body s c t = launched d a r s c t := by
  refine ⟨_, fun _ => rfl, fun s c t r hout h => ?_⟩
  dsimp only
  rw [h.access]
  dsimp only
  rw [withRead_value h.2, hout.close, hout.same]
  rfl

/-! TSPAWN. -/

/-- Fields that pass their checks take no fault (R351). -/
theorem taskFault_none {s : State} {c : Crew} {t : Team} {word : Word} {ks : List (Check × Bool)}
    (h : ∀ k ∈ ks, k.1.faults = [] ∧ (k.2 = true → counterPage (mkAcc t true true 0 0 k.1.va 16) = true)) :
    taskFault s c t word ks = none := by
  induction ks with
  | nil => rfl
  | cons k ks ih =>
    obtain ⟨hhead, htail⟩ := List.forall_mem_cons.mp h
    unfold taskFault
    rw [takeAccess_none (List.forall_mem_singleton.mpr hhead.1)]
    have hpage : (k.2 && !counterPage (mkAcc t true true 0 0 k.1.va 16)) = false := by
      cases hk : k.2 with
      | false => rfl
      | true => simp [hhead.2 hk]
    simpa [hpage] using ih htail
/-- TSPAWN's records are read, and the fields of its task record pass their checks (R351). -/
structure SpawnReads (s : State) (c : Crew) (t : Team) (va : Nat) (r q : List Byte) : Prop where
  task : ReadsRecord s c t va 128 r
  fields : ∀ k ∈ taskChecks t (taskOf r), k.1.faults = [] ∧ (k.2 = true → counterPage (mkAcc t true true 0 0 k.1.va 16) = true)
  launch : readNow s s.cur c (mkAcc t true false 0 0 (taskOf r).lrec 256) = some (.ok (q, false))
/-- A place of the context's ready queue is reserved (R351). -/
def reserve (s : State) (ctx : Nat) : State := s.modCtx ctx fun x => { x with reserved := x.reserved + 1 }
/-- TSPAWN with its records read, outside regions (R351). -/
def spawned (d a : SReg) (r q : List Byte) (s : State) (c : Crew) (t : Team) : State :=
  if (taskOk r && launchOk q) = false then retire s (c.setS d 3)
  else if queueFull s t.ctx = true then retire s (c.setS d 2)
  else finishSpawn (reserve s t.ctx) c t d (c.getS a).toNat (taskOf r) (launchOf q)
theorem exec_tspawn (d a : SReg) : ∃ body, (∀ s, exec (.tspawn d a) s = issue s (needOf s (.tspawn d a)) body) ∧
    (∀ s c t r q, Outside s c → c.spawn = none → SpawnReads s c t (c.getS a).toNat r q → body s c t = spawned d a r q s c t) ∧
    ∀ s c t va k q, c.spawn = some (va, k, q) → body s c t = finishSpawn s c t d va k q := by
  refine ⟨_, fun _ => rfl, fun s c t r q hout hspawn h => ?_, fun s c t va k q hspawn => ?_⟩
  · have hsame := hout.same
    rw [hspawn] at hsame
    dsimp only
    rw [hspawn]
    dsimp only
    rw [h.task.access]
    dsimp only
    rw [withRead_value h.task.2, taskFault_none h.fields]
    dsimp only
    rw [withRead_value h.launch, hout.close]
    unfold spawned
    simp only [Bool.not_eq_true']
    exact congrArg (fun x => ite _ _ (ite _ _ (finishSpawn _ x _ _ _ _ _))) hsame
  · dsimp only
    rw [hspawn]

/-- The task is bound to its counter, and a place that it does not take is released (R351). -/
def boundTask (d : SReg) (s : State) (c : Crew) (t : Team) (va : Nat) (k : TaskRec) (q : LaunchRec) : State :=
  retire (if (bindTask s t va k q).2.toNat < 2 then (bindTask s t va k q).1
      else (bindTask s t va k q).1.modCtx t.ctx fun x => { x with reserved := x.reserved - 1 })
    ({ c with spawn := none }.setS d (bindTask s t va k q).2)
/-- A Skillet's step finds a counter that is neither poisoned nor malformed (R350). -/
theorem blockStep_ne_none {s : State} {a : Acc} (hclean : anyPoison s a.pa 16 = false) (hres : (readBlock s a.key a.pa).res = true)
    (ctx : Nat) (core : Option Nat) (f : Block → Block) : blockStep s ctx core a f ≠ none := by
  unfold blockStep
  rw [if_neg (by simp [hclean])]
  dsimp only
  rw [if_neg (by simp [hres])]
  exact Option.some_ne_none _
theorem calm_bindTask {s : State} (h : Calm s) (t : Team) (va : Nat) (k : TaskRec) (q : LaunchRec) : Calm (bindTask s t va k q).1 := by
  unfold bindTask
  dsimp only
  split
  · exact h
  · split
    · exact h
    · split
      · exact h
      · split
        · next s2 e => exact solid_blockStep calm_solid (by exact h) e
        · exact h
theorem calm_boundTask {s : State} (h : Calm s) (d : SReg) (c : Crew) (t : Team) (va : Nat) (k : TaskRec) (q : LaunchRec) :
    Calm (boundTask d s c t va k q) := by
  refine calm_retire ?_ _
  split
  · exact calm_bindTask h ..
  · exact calm_of (calm_bindTask h t va k q) rfl
/-- TSPAWN binds its task once nothing holds it back. -/
theorem finishSpawn_settled {s : State} {c : Crew} {k : TaskRec} {t : Team} (hfence : c.fenceAt = none) (hs : Settled s)
    (hown : owner s s.nextOp (mkAcc t true true 0 0 k.cnt 16).pa 16 = none) (d : SReg) (va : Nat) (q : LaunchRec) :
    finishSpawn s c t d va k q = boundTask d s c t va k q := by
  unfold finishSpawn boundTask
  dsimp only
  rw [hs.releaseStep, hown, ← hfence]
  rfl
/-- A release waits for an older operation that is not performed and owns no line (R216). -/
theorem releaseStep_waits {s : State} {key : Nat}
    (h : ∃ p ∈ s.ops, p.2.crew = key ∧ p.1 < s.nextOp ∧ p.2.performed = false ∧ p.2.kind.isEngine = false) (from_ : Option Nat) (acq : Bool) :
    releaseStep s key from_ acq true = (false, none) := by
  obtain ⟨p, hp, hkey, hord, hdone, hengine⟩ := h
  have howns : p.2.owns = false := by
    unfold Op.owns
    split
    · next e => rw [e] at hengine; exact absurd hengine (by simp [OpKind.isEngine])
    · exact hengine
  have hover : orderOver s key s.nextOp acq true true = false :=
    Bool.and_eq_false_imp.mpr fun _ => List.all_eq_false.mpr ⟨p, hp, by simp [hkey, hord, hdone, howns]⟩
  unfold releaseStep
  rw [hover]
  rfl
theorem finishSpawn_waits {s : State} {c : Crew} (hfence : c.fenceAt = none)
    (h : ∃ p ∈ s.ops, p.2.crew = s.cur ∧ p.1 < s.nextOp ∧ p.2.performed = false ∧ p.2.kind.isEngine = false) (t : Team) (d : SReg) (va : Nat)
    (k : TaskRec) (q : LaunchRec) : finishSpawn s c t d va k q = s.setCrew s.cur { c with spawn := some (va, k, q) } := by
  unfold finishSpawn
  rw [releaseStep_waits h, ← hfence]
  rfl
/-- A change of a context that keeps its function moves no access. -/
theorem funcOfTeam_modCtx {g : Ctx → Ctx} (hg : ∀ x, (g x).func = x.func) (s : State) (ctx team : Nat) :
    funcOfTeam (s.modCtx ctx g) team = funcOfTeam s team := by
  have hfunc : ∀ j, funcOfCtx (s.modCtx ctx g) j = funcOfCtx s j := by
    intro j
    unfold funcOfCtx State.modCtx
    rw [Tbl.get?_upd]
    by_cases e : j = ctx
    · rw [if_pos e, e]
      cases Tbl.get? s.ctxs ctx with
      | none => rfl
      | some x => exact hg x
    · rw [if_neg e]
  unfold funcOfTeam
  simp only [hfunc]
  rfl
theorem owner_modCtx {g : Ctx → Ctx} (hg : ∀ x, (g x).func = x.func) (s : State) (ctx n pa size : Nat) :
    owner (s.modCtx ctx g) n pa size = owner s n pa size := by
  unfold owner owners engineOwners landing
  simp only [funcOfTeam_modCtx hg]
  rfl
theorem owner_reserve (s : State) (ctx n pa size : Nat) : owner (reserve s ctx) n pa size = owner s n pa size :=
  owner_modCtx (fun _ => by rfl) ..
theorem Settled.reserve {s : State} (h : Settled s) (ctx : Nat) : Settled (reserve s ctx) := h

/-! TDEP. -/

/-- TDEP with its operands checked closes the region and adds its operation (R353). -/
def depended (a b : SReg) (s : State) (c : Crew) (t : Team) : State :=
  retire (addOp (closeRegion s s.cur c.pc (wordOf (.tdep a b)))
    { crew := s.cur, team := c.team, core := coreOf s.cur, cls := some .load, kind := .tdep (c.getS b).toInt,
      accs := [mkAcc t true true 0 0 (c.getS a).toNat 16], pc := c.pc, word := wordOf (.tdep a b), acq := true, rel := true, scope := 4 }) c.closed
theorem exec_tdep (a b : SReg) : ∃ body, (∀ s, exec (.tdep a b) s = issue s (needOf s (.tdep a b)) body) ∧
    ∀ s c t, -(2 ^ 31) ≤ (c.getS b).toInt → (c.getS b).toInt ≤ 2 ^ 31 - 1 → accessFaults t true true false false 16 (c.getS a).toNat 16 = [] →
      counterPage (mkAcc t true true 0 0 (c.getS a).toNat 16) = true → body s c t = depended a b s c t := by
  refine ⟨_, fun _ => rfl, fun s c t hlo hhi hf hpage => ?_⟩
  dsimp only
  rw [if_neg (by omega), takeAccess_none (laneChecks_faults (List.forall_mem_singleton.mpr hf))]
  dsimp only
  rw [if_neg (by simp [hpage]), closeRegion_cur]
  rfl

/-! The counter of a task. -/

theorem bindTask_bad {s : State} {t : Team} {k : TaskRec}
    (h : anyPoison s (mkAcc t true true 0 0 k.cnt 16).pa 16 = true ∨
      (readBlock s (mkAcc t true true 0 0 k.cnt 16).key (mkAcc t true true 0 0 k.cnt 16).pa).res = false) (va : Nat) (q : LaunchRec) :
    bindTask s t va k q = (s, 5) := by
  unfold bindTask
  dsimp only
  split_ifs with hpoison hbad
  · rfl
  · rfl
  all_goals simp_all
section
variable {s : State} {t : Team} {k : TaskRec} (hclean : anyPoison s (mkAcc t true true 0 0 k.cnt 16).pa 16 = false)
  (hres : (readBlock s (mkAcc t true true 0 0 k.cnt 16).key (mkAcc t true true 0 0 k.cnt 16).pa).res = true) (va : Nat) (q : LaunchRec)
include hclean hres

theorem bindTask_armed (harmed : (readBlock s (mkAcc t true true 0 0 k.cnt 16).key (mkAcc t true true 0 0 k.cnt 16).pa).armed = true) :
    bindTask s t va k q = (s, 4) := by
  unfold bindTask
  simp [hclean, hres, harmed]
theorem bindTask_free (hfree : (readBlock s (mkAcc t true true 0 0 k.cnt 16).key (mkAcc t true true 0 0 k.cnt 16).pa).armed = false) :
    (bindTask s t va k q).2 = if (readBlock s (mkAcc t true true 0 0 k.cnt 16).key (mkAcc t true true 0 0 k.cnt 16).pa).count ≤ 0 ∧
      (readBlock s (mkAcc t true true 0 0 k.cnt 16).key (mkAcc t true true 0 0 k.cnt 16).pa).fired = false then 1 else 0 := by
  unfold bindTask
  dsimp only
  rw [if_neg (by simp [hclean]), if_neg (by simp [hres]), if_neg (by simp [hfree])]
  split
  · rfl
  · next e => exact (blockStep_ne_none (by exact hclean) (by exact hres) _ _ _ e).elim
end

end Machine

open Machine in
/-- Settles O41: the records that are read are judged in the order of R347 and R351, and the release of TSPAWN ends or waits. -/
theorem workInstructions : Obligations.WorkInstructions := by
  unfold Obligations.WorkInstructions
  intro reads begins binds settled
  choose launch hlaunch hlaunched using exec_launch
  choose spawn hspawn hspawned hgoes using exec_tspawn
  choose dep hdep hdepended using exec_tdep
  have hbegins : ∀ {a r q s c t}, begins a r q s c t → Outside s c ∧ c.spawn = none ∧ SpawnReads s c t (c.getS a).toNat r q :=
    fun ⟨hout, hnone, hread, hfields, hq⟩ => ⟨hout, hnone, hread, hfields, hq⟩
  refine ⟨fun d a r => ?_, fun d a r q => ?_, fun d a r q => ?_, fun d a va k q => ?_, fun s t va k q => ?_, fun a b => ?_⟩
  · refine doesWhen_of_body (hlaunch d a) fun s c t ⟨hout, hread⟩ => ⟨?_, ?_⟩
    · rw [hlaunched d a s c t r hout hread]
      rfl
    · exact launched_fabric d a r s c t
  · refine doesWhen_of_calm (hspawn d a) fun s c t ⟨hb, hsettled⟩ hcalm => ?_
    obtain ⟨hout, hnone, hread⟩ := hbegins hb
    rw [hspawned d a s c t r q hout hnone hread]
    unfold spawned
    split_ifs with hbad hfull
    · exact ⟨rfl, hcalm⟩
    · exact ⟨rfl, hcalm⟩
    · obtain ⟨hs, hown⟩ := hsettled (by simpa using hbad) (by simpa using hfull)
      obtain ⟨-, -, -, -, hfence⟩ := hout
      rw [finishSpawn_settled hfence (hs.reserve t.ctx) ((owner_reserve ..).trans hown)]
      exact ⟨rfl, calm_boundTask (s := reserve s t.ctx) hcalm d c t (c.getS a).toNat (taskOf r) (launchOf q)⟩
  · refine doesWhen_of_body (hspawn d a) fun s c t ⟨hb, hok, hroom, hold⟩ => ?_
    obtain ⟨hout, hnone, hread⟩ := hbegins hb
    obtain ⟨-, -, -, -, hfence⟩ := id hout
    rw [hspawned d a s c t r q hout hnone hread]
    unfold spawned
    rw [if_neg (by simp [hok]), if_neg (by simp [hroom]), finishSpawn_waits hfence (s := reserve s t.ctx) hold]
    exact ⟨rfl, rfl⟩
  · refine doesWhen_of_calm (hspawn d a) fun s c t ⟨hgo, hfence, hs, hown⟩ hcalm => ?_
    rw [hgoes d a s c t va k q hgo, finishSpawn_settled hfence hs hown]
    exact ⟨rfl, calm_boundTask hcalm d c t va k q⟩
  · exact ⟨fun h => bindTask_bad h va q, fun hclean hres => bindTask_armed hclean hres va q, fun hclean hres => bindTask_free hclean hres va q⟩
  · exact doesWhen_of_body (hdep a b) fun s c t ⟨hlo, hhi, hf, hpage⟩ => ⟨hdepended a b s c t hlo hhi hf hpage, closeRegion_fabric ..⟩

end Sys2Proof
end

section
/-! PROOF. The registers after reset (R396, R402, R425, R447). -/
namespace Sys2Proof

namespace Machine

/-- After reset every function holds the reset values, the PF that is listed as well as the others. -/
theorem reset_func (f : Nat) : State.reset.func f = {} := by
  unfold State.func Tbl.getD
  by_cases h : 0 = f <;> simp [State.reset, Tbl.get?, h]

end Machine

open Machine in
/-- Settles O1: the tables of slices and budgets are empty after reset, and the one function listed holds its reset values. -/
theorem resetRegisters : Obligations.ResetRegisters :=
  ⟨rfl, fun f => by rw [reset_func], fun _ => rfl, fun _ => rfl, rfl, rfl, rfl, rfl, rfl, rfl, rfl⟩

end Sys2Proof
end

section
/-! PROOF. Bring-up, clocks, firmware and parts that go out of service (O60). -/
namespace Sys2Proof

/-- A cell that a filter by key drops reads as zero. -/
theorem Sparse.get_filter_key {w : Nat} {q : Nat → Bool} (t : Sparse w) {k : Nat} (h : q k = false) :
    Sparse.get (t.filter fun p => q p.1) k = 0 := by
  induction t with
  | nil => rfl
  | cons p t ih =>
    rw [List.filter_cons]
    split
    · next hp =>
      have hne : p.1 ≠ k := fun e => by simp [e, h] at hp
      simpa [Sparse.get, hne] using ih
    · exact ih

namespace Machine

/-! What a change of a slice's composition leaves alone. -/

/-- A slice's composition changes: lines may leave L2, and the slices and the capability table are written. With L2 empty no line moves. -/
def Recomposes (s t : State) : Prop :=
  ∃ u sl gen cap, LineMove s u ∧ (s.l2 = [] → u = s) ∧
    t = { u with slices := sl, svc := { u.svc with capGen := gen, cap := cap } }

theorem Recomposes.refl (s : State) : Recomposes s s := ⟨s, s.slices, s.svc.capGen, s.svc.cap, .refl s, fun _ => rfl, rfl⟩
theorem Recomposes.trans {s t r : State} (h : Recomposes s t) (g : Recomposes t r) : Recomposes s r := by
  obtain ⟨u, sl, gen, cap, ⟨cs, os, fs, fb, tm, ks, un, ps, l2, hfb, rfl⟩, hid, rfl⟩ := h
  obtain ⟨v, sl', gen', cap', ⟨cs', os', fs', fb', tm', ks', un', ps', l2', hfb', rfl⟩, hid', rfl⟩ := g
  refine ⟨_, sl', gen', cap', ⟨cs', os', fs', fb', tm', ks', un', ps', l2', hfb'.trans hfb, rfl⟩, fun he => ?_, rfl⟩
  have e1 := hid he
  have e2 := hid' (by rw [e1]; exact he)
  simp only [State.mk.injEq] at e1 e2 ⊢
  simp_all
theorem recomposes_modSlice (s : State) (i : Nat) (g : Slice → Slice) : Recomposes s (s.modSlice i g) :=
  ⟨s, _, s.svc.capGen, s.svc.cap, .refl s, fun _ => rfl, rfl⟩
theorem recomposes_capChange (s : State) : Recomposes s (capChange s) := ⟨s, s.slices, _, _, .refl s, fun _ => rfl, rfl⟩
theorem recomposes_fixL2c (s : State) (i : Nat) : Recomposes s (fixL2c s i) := by
  unfold fixL2c; exact recomposes_modSlice ..
theorem recomposes_takeGroups (s : State) (i : Nat) (gs : List Nat) : Recomposes s (takeGroups s i gs) := by
  let r := ((groupLines s gs).filter fun e => !dirtyLine s e.line).foldl (fun s e => evictL2 s e.line) s
  have hr : Recomposes s r := by
    refine ⟨r, r.slices, r.svc.capGen, r.svc.cap, foldl_keeps (LineMove s) _ (fun x e hx => hx.trans (lineMove_evict x _)) _ s (.refl s), fun he => ?_, rfl⟩
    simp [r, groupLines, he]
  exact (hr.trans (recomposes_modSlice r i _)).trans (recomposes_fixL2c ..)
theorem recomposes_startShrink (s : State) (i op : Nat) (cs : Tbl DWord) (m : DWord) (split : Option Nat) :
    Recomposes s (startShrink s i op cs m split) :=
  (recomposes_modSlice s i _).trans (recomposes_fixL2c ..)
theorem recomposes_endShrink (s : State) (i : Nat) : Recomposes s (endShrink s i) := by
  unfold endShrink
  extract_lets _ s1 _ s2
  have h1 : Recomposes s s1 := by
    unfold s1
    split
    · exact (recomposes_modSlice ..).trans (recomposes_takeGroups ..)
    · exact .refl s
  have h2 : Recomposes s s2 := by
    refine h1.trans ?_
    unfold s2
    split
    · split
      · exact (recomposes_modSlice ..).trans (recomposes_modSlice ..)
      · exact .refl _
    · exact .refl _
  split
  · exact .refl s
  · exact ((h2.trans (recomposes_modSlice ..)).trans (recomposes_fixL2c ..)).trans (recomposes_capChange _)
theorem Recomposes.fenced {s t : State} (h : Recomposes s t) : t.svc.fenced = s.svc.fenced := by
  obtain ⟨u, sl, gen, cap, ⟨cs, os, fs, fb, tm, ks, un, ps, l2, _, rfl⟩, _, rfl⟩ := h
  rfl

/-- A fence marks its die, and recomposes slices. -/
theorem fenceDie_recomposes {s : State} {die : Nat} (h : die ∉ s.svc.fenced) :
    Recomposes { s with svc := { s.svc with fenced := setAdd s.svc.fenced die } } (fenceDie s die) := by
  unfold fenceDie
  rw [if_neg (by simpa using h)]
  refine foldl_keeps (Recomposes _) _ (fun x i hx => hx.trans ?_) _ _ (.refl _)
  dsimp only
  split
  · exact recomposes_modSlice ..
  · split
    · exact (recomposes_modSlice ..).trans (recomposes_modSlice ..)
    · exact ((recomposes_modSlice ..).trans (recomposes_startShrink ..)).trans (recomposes_endShrink ..)
theorem mem_fenced_fenceDie (s : State) (die : Nat) : die ∈ (fenceDie s die).svc.fenced := by
  by_cases h : die ∈ s.svc.fenced
  · simp [fenceDie, h]
  · rw [(fenceDie_recomposes h).fenced]
    exact mem_setAdd.mpr (.inl rfl)

/-! Bring-up. -/

/-- What bring-up does before a manifest is active: only slices, parts out of service and the capability table are written. -/
def BringsUp (s t : State) : Prop :=
  ∃ sl v, t = { s with slices := sl, svc := v } ∧ v.recovery = s.svc.recovery ∧ v.ready = s.svc.ready ∧ v.svn = s.svc.svn ∧
    v.manifest = s.svc.manifest

theorem BringsUp.refl (s : State) : BringsUp s s := ⟨s.slices, s.svc, rfl, rfl, rfl, rfl, rfl⟩
theorem BringsUp.trans {s t r : State} (h : BringsUp s t) (g : BringsUp t r) : BringsUp s r := by
  obtain ⟨sl, v, rfl, a, b, c, d⟩ := h
  obtain ⟨sl', v', rfl, a', b', c', d'⟩ := g
  exact ⟨sl', v', rfl, a'.trans a, b'.trans b, c'.trans c, d'.trans d⟩
theorem Recomposes.bringsUp {s t : State} (h : Recomposes s t) (he : s.l2 = []) : BringsUp s t := by
  obtain ⟨u, sl, gen, cap, _, hid, rfl⟩ := h
  obtain rfl := hid he
  exact ⟨sl, _, rfl, rfl, rfl, rfl, rfl⟩
theorem BringsUp.l2 {s t : State} (h : BringsUp s t) : t.l2 = s.l2 := by obtain ⟨sl, v, rfl, _⟩ := h; rfl
theorem bringsUp_failPart {s : State} (he : s.l2 = []) (p : BringupFail) : BringsUp s (failPart s p) := by
  cases p with
  | die d =>
    unfold failPart
    dsimp only
    split
    · by_cases h : d ∈ s.svc.fenced
      · rw [show fenceDie s d = s from if_pos (by simpa using h)]
        exact .refl s
      · exact BringsUp.trans ⟨s.slices, _, rfl, rfl, rfl, rfl, rfl⟩ ((fenceDie_recomposes h).bringsUp he)
    · exact .refl s
  | channelSet k =>
    unfold failPart
    dsimp only
    split
    · exact ⟨s.slices, _, rfl, rfl, rfl, rfl, rfl⟩
    · exact .refl s
  | lane a b =>
    unfold failPart
    dsimp only
    split
    · exact ⟨s.slices, _, rfl, rfl, rfl, rfl, rfl⟩
    · exact .refl s
theorem bringsUp_failParts {s : State} (he : s.l2 = []) (ps : List BringupFail) : BringsUp s (ps.foldl failPart s) :=
  foldl_keeps (BringsUp s) failPart (fun _ p hx => hx.trans (bringsUp_failPart (hx.l2.trans he) p)) ps s (.refl s)

/-- The module before its manifest is applied: parts that failed have left service, and the images are measured. -/
def brought (s : State) (failed : List BringupFail) (boot : Boot) : State :=
  let b := failed.foldl failPart (started s boot.puf)
  { b with svc := { b.svc with images := boot.images.foldl (fun t i => Tbl.put t i.index (Tbl.getD t i.index [] ++ i.bytes)) [] } }
theorem bringsUp_brought (s : State) (failed : List BringupFail) (boot : Boot) : BringsUp (started s boot.puf) (brought s failed boot) :=
  (bringsUp_failParts (s := started s boot.puf) rfl failed).trans ⟨_, _, rfl, rfl, rfl, rfl, rfl⟩

theorem bringsUp_makeSlice {s : State} {p : Nat × Ranges × DWord} {o : Option State} {r : State}
    (h : ∀ x, o = some x → BringsUp s x) (e : makeSlice o p = some r) : BringsUp s r := by
  unfold makeSlice at e
  split at e
  · cases e
  · next x =>
    dsimp only at e
    split at e
    · cases e
      exact (h _ rfl).trans ⟨_, _, rfl, rfl, rfl, rfl, rfl⟩
    · cases e
/-- What an active manifest leaves alone, and what it sets. -/
theorem applyManifest_sets {s r : State} {m : Manifest} (h : applyManifest s m = some r) :
    (∃ sl fs v c, r = { s with slices := sl, funcs := fs, svc := v, sec := c }) ∧ r.svc.modid = m.modid ∧
      r.sec.generation = if s.svc.manifest = some m then s.sec.generation else s.sec.generation + 1 := by
  unfold applyManifest at h
  split at h
  · cases h
  · next x hx =>
    have hup : BringsUp s x := by
      have hall : ∀ x, m.slices.foldl makeSlice (some s) = some x → BringsUp s x :=
        foldl_keeps (fun o : Option State => ∀ x, o = some x → BringsUp s x) makeSlice
          (fun _ p ho _ e => bringsUp_makeSlice ho e) m.slices (some s) (fun x e => by cases e; exact .refl s)
      exact hall x hx
    obtain ⟨sl, v, rfl, _, _, _, hman⟩ := hup
    split at h
    · have hfold : ∃ fs, m.funcs.foldl (fun s p => s.modFunc p.1 fun f => { f with slice := p.2.1 })
          ({ s with slices := sl, svc := v } : State) = { s with slices := sl, svc := v, funcs := fs } :=
        foldl_keeps (fun x : State => ∃ fs, x = { s with slices := sl, svc := v, funcs := fs }) _
          (fun x p hx => by obtain ⟨fs, rfl⟩ := hx; exact ⟨_, rfl⟩) m.funcs _ ⟨s.funcs, rfl⟩
      obtain ⟨fs, hfs⟩ := hfold
      dsimp only at h
      rw [hfs] at h
      cases h
      refine ⟨⟨sl, fs, _, _, rfl⟩, rfl, ?_⟩
      change (if v.manifest = some m then _ else _) = _
      rw [hman]
    · cases h

/-- What the module starts again with in SRAM. -/
theorem started_sram (s : State) (puf : Bool) {a : Nat} (h : 2 ^ 52 ≤ a) : Sparse.get (w := 8) (started s puf).mem a = 0 :=
  Sparse.get_filter_key (q := fun k => decide (k < 2 ^ 52)) _ (by simpa using h)

/-- Nothing is resident and SRAM is zero. -/
def Vacant (t : State) : Prop :=
  t.crews = [] ∧ t.teams = [] ∧ t.ops = [] ∧ t.ctxs = [] ∧ ∀ a, 2 ^ 52 ≤ a → Sparse.get (w := 8) t.mem a = 0
theorem vacant_brought (s : State) (failed : List BringupFail) (boot : Boot) : Vacant (brought s failed boot) := by
  obtain ⟨sl, v, e, _⟩ := bringsUp_brought s failed boot
  rw [e]
  exact ⟨rfl, rfl, rfl, rfl, fun a h => started_sram s boot.puf h⟩

/-- What POWER_ON_SEQUENCE makes of a module that parts have left. -/
def bootWith (b : State) (boot : Boot) (m : Manifest) : State :=
  if boot.puf && bootOk b boot m then
    match applyManifest b m with
    | some r => { r with svc := { r.svc with recovery := false, ready := true }, time := { r.time with timestat := 1#64 <<< 62 } }
    | none => b
  else b
theorem exec_powerOn_none (s : State) (failed : List BringupFail) (boot : Boot) :
    exec (.powerOnSequence failed boot none) s = .next (brought s failed boot) := rfl
theorem exec_powerOn_some (s : State) (failed : List BringupFail) (boot : Boot) (m : Manifest) :
    exec (.powerOnSequence failed boot (some m)) s = .next (bootWith (brought s failed boot) boot m) := by
  have push : ∀ b : State, (if boot.puf && bootOk b boot m then
      match applyManifest b m with
      | some r => .next { r with svc := { r.svc with recovery := false, ready := true }, time := { r.time with timestat := 1#64 <<< 62 } }
      | none => .next b
    else .next b : Host.Outcome State Fault Refusal) = .next (bootWith b boot m) := by
    intro b
    unfold bootWith
    split
    · cases applyManifest b m <;> rfl
    · rfl
  exact push (brought s failed boot)
theorem bootWith_recovers {b : State} {boot : Boot} {m : Manifest}
    (h : boot.puf = false ∨ bootOk b boot m = false ∨ applyManifest b m = none) : bootWith b boot m = b := by
  unfold bootWith
  split
  · next hok =>
    rw [Bool.and_eq_true] at hok
    have hnone : applyManifest b m = none := by simpa [hok.1, hok.2] using h
    rw [hnone]
  · rfl
theorem bootWith_boots {b r : State} {boot : Boot} {m : Manifest} (hpuf : boot.puf = true) (hok : bootOk b boot m = true)
    (hr : applyManifest b m = some r) : bootWith b boot m =
      { r with svc := { r.svc with recovery := false, ready := true }, time := { r.time with timestat := 1#64 <<< 62 } } := by
  unfold bootWith
  rw [if_pos (by rw [hpuf, hok]; rfl), hr]
theorem vacant_bootWith {b : State} (h : Vacant b) (boot : Boot) (m : Manifest) : Vacant (bootWith b boot m) := by
  by_cases hrec : boot.puf = false ∨ bootOk b boot m = false ∨ applyManifest b m = none
  · rwa [bootWith_recovers hrec]
  · simp only [not_or, Bool.not_eq_false] at hrec
    obtain ⟨hpuf, hok, hsome⟩ := hrec
    obtain ⟨r, hr⟩ := Option.ne_none_iff_exists'.mp hsome
    rw [bootWith_boots hpuf hok hr]
    obtain ⟨⟨sl, fs, v, c, rfl⟩, _⟩ := applyManifest_sets hr
    exact h
/-- The rollback record decides which manifest and images are good: bring-up leaves it alone. -/
theorem bootOk_brought (s : State) (failed : List BringupFail) (boot : Boot) (m : Manifest) :
    bootOk (brought s failed boot) boot m = true ↔
      s.svc.svn ≤ m.svn ∧ m.rollback ≤ m.svn ∧ ∀ i ∈ boot.images, i.verified = true ∧ s.svc.svn ≤ i.svn := by
  obtain ⟨sl, v, e, _, _, hsvn, _⟩ := bringsUp_brought s failed boot
  have hs : (brought s failed boot).svc.svn = s.svc.svn := by rw [e]; exact hsvn
  simp [bootOk, hs, and_assoc]

/-! Clocks, firmware and channel sets. -/

theorem setClock_touches (s : State) (die step : Nat) : ∃ ev ck, setClock s die step =
    { s with svc := { s.svc with events := ev, clockStep := ck } } ∧ Tbl.getD ck die 0 = step := by
  unfold setClock
  split
  · next h => exact ⟨s.svc.events, s.svc.clockStep, rfl, h⟩
  · exact ⟨_, _, rfl, by simp [Tbl.getD]⟩
theorem getD_setClock (s : State) (die step : Nat) : Tbl.getD (setClock s die step).svc.clockStep die 0 = step := by
  obtain ⟨ev, ck, e, h⟩ := setClock_touches s die step
  rw [e]; exact h
/-- The governor as it moves the clocks down. -/
theorem setClocks_governed (f : State → Nat → Nat) (ds : List Nat) (s : State) :
    (ds.foldl (fun s d => setClock s d (f s d)) s).svc.governed = s.svc.governed := by
  refine foldl_keeps (fun x => x.svc.governed = s.svc.governed) _ (fun x d hx => ?_) ds s rfl
  obtain ⟨ev, ck, e, _⟩ := setClock_touches x d (f x d)
  rw [e]; exact hx
/-- When nothing was held, the end of an update applies nothing. -/
theorem applyHeld_nothing {s : State} (hr : s.svc.replies = []) (he : NoneEnding s) : applyHeld s = s := by
  have hes : ({ s with svc := { s.svc with replies := [] } } : State) = s := by rw [← hr]
  unfold applyHeld
  dsimp only
  rw [hes, hr]
  refine List.foldlRecOn (motive := (· = s)) _ _ rfl fun x hx p hp => ?_
  subst hx
  obtain ⟨eid, e, _, rfl⟩ : ∃ eid e, (eid, e) ∈ x.entries ∧ (e.due.getD x.clock, Sum.inr eid) = p := by
    simpa using mem_of_mem_sortKey hp
  exact settleEntry_of_noneEnding he eid

end Machine

open Machine in
/-- Settles O60: power-on by what bring-up leaves alone before a manifest is active, the others event by event. -/
theorem serviceEvents : Obligations.ServiceEvents := by
  unfold Obligations.ServiceEvents
  refine ⟨fun s failed boot manifest => ?_, fun s failed boot m => ⟨fun hpuf hver hsome => ?_, fun hrec => ?_⟩, fun s lower hdue hdies => ?_,
    fun s d hdue hd => ?_, fun s die hd hdue => ?_, fun s die svn hd hup hsvn => ?_, fun s die svn verified hd hup hbad => ?_,
    fun s die svn v verified hup hrep hend => ?_, fun s a b hl hlanes => ?_, fun s i hi hl => ?_, fun s i hi => ?_, fun s i keyed hi hl => ?_,
    fun s set hset hheld => ?_, fun s die hd => ?_⟩
  case refine_1 =>
    have hvac := vacant_brought s failed boot
    obtain ⟨sl, v, e, hrecov, hready, -⟩ := bringsUp_brought s failed boot
    have hstay : (brought s failed boot).svc.recovery = true ∧ (brought s failed boot).svc.ready = false := by rw [e]; exact ⟨hrecov, hready⟩
    cases manifest with
    | none =>
      obtain ⟨hc, ht, ho, hx, hm⟩ := hvac
      exact ⟨_, exec_powerOn_none .., hc, ht, ho, hx, hm, fun _ => hstay⟩
    | some m =>
      obtain ⟨hc, ht, ho, hx, hm⟩ := vacant_bootWith hvac boot m
      refine ⟨_, exec_powerOn_some .., hc, ht, ho, hx, hm, fun h => ?_⟩
      rw [bootWith_recovers (.inl (by simpa using h))]
      exact hstay
  case refine_2 =>
    obtain ⟨r, hr⟩ := Option.isSome_iff_exists.mp hsome
    obtain ⟨-, hmod, hgen⟩ := applyManifest_sets (s := brought s failed boot) hr
    obtain ⟨sl, v, e, -, -, -, hman⟩ := bringsUp_brought s failed boot
    refine ⟨_, (exec_powerOn_some ..).trans (congrArg _ (bootWith_boots hpuf ((bootOk_brought ..).mpr hver) hr)), rfl, rfl, hmod, ?_⟩
    rw [e] at hgen
    refine hgen.trans ?_
    dsimp only
    rw [hman]
    rfl
  case refine_3 =>
    refine ⟨_, (exec_powerOn_some ..).trans (congrArg _ (bootWith_recovers ?_)), rfl⟩
    rw [← Bool.not_eq_true (bootOk _ _ _), bootOk_brought]
    exact hrec
  case refine_4 =>
    refine ⟨_, if_neg ?_, setClocks_governed (fun s d => min 11 (Tbl.getD s.svc.clockStep d 0 + 1)) _ _, ?_⟩
    · simpa using ⟨hdue, show ∀ d ∈ lower, d < Config.dies from hdies⟩
    · rintro d rfl
      exact getD_setClock ..
  case refine_5 => exact ⟨_, if_neg (by simpa using ⟨hdue, show d < Config.dies from hd⟩), getD_setClock ..⟩
  case refine_6 =>
    refine ⟨_, if_neg ?_, getD_setClock .., ?_⟩
    · cases h : Tbl.get? s.svc.fast die with
      | none => simpa using show die < Config.dies from hd
      | some t => simpa using ⟨hdue t h, show die < Config.dies from hd⟩
    · obtain ⟨ev, ck, e, -⟩ := setClock_touches { s with svc := { s.svc with fast := Tbl.put s.svc.fast die s.time.master } } die
        (min 11 (Tbl.getD s.svc.clockStep die 0 + 1))
      rw [e]
      exact Tbl.get?_put_self ..
  case refine_7 => exact ⟨_, by simp [exec, execFirmwareUpdate, hup, Tbl.get?, show die < Config.dies from hd, Nat.not_lt.mpr hsvn], rfl⟩
  case refine_8 => exact ⟨_, by simp [exec, execFirmwareUpdate, hup, Tbl.get?, show die < Config.dies from hd, hbad], rfl⟩
  case refine_9 =>
    let u : State := { s with svc := { s.svc with updating := [], fw := Tbl.put s.svc.fw die v }, sec := { s.sec with generation := s.sec.generation + 1 } }
    have hexec : exec (.firmwareUpdate die svn verified) s = .next u := by
      change execFirmwareUpdate die svn verified s = _
      unfold execFirmwareUpdate
      rw [hup]
      exact congrArg _ (applyHeld_nothing (s := u) hrep hend)
    exact ⟨u, hexec, rfl, Tbl.get?_put_self .., rfl⟩
  case refine_10 => exact ⟨_, if_neg (by simpa [hl] using hlanes), by simp [Tbl.getD]⟩
  case refine_11 => exact ⟨_, if_neg (by omega), by simp [modStation, Tbl.getD]⟩
  case refine_12 => exact ⟨_, if_neg (by omega), by simp [modStation, Tbl.getD]⟩
  case refine_13 => exact ⟨_, if_neg (by simp only; omega), by simp [modStation, Tbl.getD]⟩
  case refine_14 =>
    refine ⟨_, if_neg ?_, mem_setAdd.mpr (.inl rfl), rfl⟩
    have hfree : ∀ i < 16, ¬(s.slice i).mem = 0#64 → chBase (s.slice i).mem ≤ set → chLim (s.slice i).mem < set :=
      fun i hi hm hb => (hheld i hi hm).resolve_left (Nat.not_lt.mpr hb)
    simpa using ⟨hset, hfree⟩
  case refine_15 => exact ⟨_, if_neg (by simpa using show die < Config.dies from hd), mem_fenced_fenceDie s die⟩

end Sys2Proof
end

section
/-! PROOF. What the movements of lines and bytes, records, traps and the ends of entries leave alone (R386, R464, R469): the service state, the
slices, and of each function what only firmware, the host and the security events set. -/
namespace Sys2Proof
namespace Machine

/-- What only firmware, the host and the security events set of a function: the MSI-X table, the bulk keys, and TRCFG. -/
structure Wiring where
  msixTab : Tbl DWord
  bulkKeys : Tbl (BitVec 256)
  cfg : DWord
def Func.wiring (f : Func) : Wiring := { msixTab := f.msixTab, bulkKeys := f.bulkKeys, cfg := f.trace.cfg }
/-- The wiring of every function, the slices and the service state. -/
structure Fixed where
  wiring : Nat → Wiring
  slices : Tbl Slice
  svc : Service
def State.fixed (s : State) : Fixed := { wiring := fun f => (s.func f).wiring, slices := s.slices, svc := s.svc }
/-- They are as given. -/
structure Steady (w : Fixed) (s : State) : Prop where
  fixed : s.fixed = w

section
variable {w : Fixed} {s t : State}

theorem steady_self (s : State) : Steady s.fixed s := ⟨rfl⟩
theorem Steady.same (h : Steady w s) (e : (t.funcs, t.slices, t.svc) = (s.funcs, s.slices, s.svc)) : Steady w t := by
  simp only [Prod.mk.injEq] at e
  obtain ⟨hf, hsl, hsvc⟩ := e
  constructor
  rw [← h.fixed]
  unfold State.fixed State.func
  rw [hf, hsl, hsvc]
theorem Steady.modFunc (h : Steady w s) (f : Nat) {g : Func → Func} (hg : ∀ x, (g x).wiring = x.wiring) : Steady w (s.modFunc f g) := by
  have hsame : (fun k => ((s.modFunc f g).func k).wiring) = fun k => (s.func k).wiring := by
    funext k
    rw [State.modFunc_func]
    split
    · next e => rw [hg, e]
    · rfl
  constructor
  rw [← h.fixed]
  exact congrArg (Fixed.mk · s.slices s.svc) hsame
theorem Steady.wiring (h : Steady w s) (f : Nat) : (s.func f).wiring = w.wiring f := congrFun (congrArg Fixed.wiring h.fixed) f
theorem steady_ite {p : Prop} [Decidable p] {a b : State} (ha : Steady w a) (hb : Steady w b) : Steady w (if p then a else b) := by
  split
  · exact ha
  · exact hb
theorem wiring_signal (f : Func) (v : Nat) : (f.signal v).wiring = f.wiring := by
  unfold Func.signal
  split <;> rfl

/-! Records, and the crews that wait for their reservations. -/
theorem steady_loseRecord (h : Steady w s) (i : TraceItem) : Steady w (loseRecord s i) := by
  have hdrop : Steady w (dropRecord s i.func i.die i.src) :=
    (h.modFunc i.func (g := fun f => { f with trace := { f.trace with drop := f.trace.drop + 1 } }) fun _ => by rfl).same (by rfl)
  unfold loseRecord
  dsimp only
  split
  · exact hdrop.same (by rfl)
  · exact hdrop
theorem steady_emitA (h : Steady w s) (die src func : Nat) (crew : Option Nat) (event arg : BitVec 8) (payload : Word) (cause : Nat)
    (ctx : Option Nat) : Steady w (emitA s die src func crew event arg payload cause ctx) := by
  unfold emitA
  dsimp only
  split
  · split
    · exact h.same (by rfl)
    · exact steady_loseRecord h _
  · exact h
theorem steady_stallOver (h : Steady w s) (key : Nat) (c : Crew) : Steady w (stallOver s key c).1 := by
  unfold stallOver
  split
  · exact h
  · dsimp only
    refine Steady.modFunc (h.same (t := s.modCrew key _) (by rfl)) _ fun _ => ?_
    rfl

/-! Lines. -/
theorem steady_rollback (h : Steady w s) (key cause line sent : Nat) : Steady w (rollback s key cause line sent) := by
  unfold rollback
  split
  · exact h
  · split
    · exact h
    · have hemit : ∀ e a p, Steady w (emitCrewA s key e a p sent) := fun e a p => by
        unfold emitCrewA
        split
        · exact h
        · exact steady_emitA h ..
      exact (hemit _ _ _).same (by rfl)
theorem steady_rollbackLine (h : Steady w s) (writer : Option Nat) (line : Nat) (pick : Nat → Option Nat) (sent : Nat) :
    Steady w (rollbackLine s writer line pick sent) := by
  refine foldl_keeps (Steady w) _ (fun x p hx => ?_) _ s h
  split
  · exact steady_rollback hx ..
  · exact hx
theorem steady_recallLine (h : Steady w s) (core : Option Nat) (line : Nat) : Steady w (recallLine s core line) := by
  obtain ⟨_, _, e⟩ := recallLine_touches s core line
  exact h.same (by rw [e])
theorem steady_dropOwnLine (h : Steady w s) (core line : Nat) : Steady w (dropOwnLine s core line) := by
  obtain ⟨_, _, _, e⟩ := dropOwnLine_touches s core line
  exact h.same (by rw [e])
theorem steady_recallTime (h : Steady w s) (line : Nat) : Steady w (recallTime s line).1 := by
  obtain ⟨_, e⟩ := recallTime_touches s line
  exact h.same (by rw [e])
theorem steady_evictL2 (h : Steady w s) (line : Nat) : Steady w (evictL2 s line) := by
  have hgone : Steady w { (recallTime s line).1 with l2 := (recallTime s line).1.l2.filter fun e => e.line != line } :=
    (steady_recallTime h line).same (by rfl)
  exact (steady_rollbackLine (steady_recallLine hgone none line) none line (fun _ => some 2) (recallTime s line).2).same (by rfl)
theorem steady_touchL2 (h : Steady w s) (p : Attr) (line : Nat) : Steady w (touchL2 s p line) := by
  have hkeyed : Steady w (keyedL2 s p line) := by
    unfold keyedL2
    split
    · split
      · exact h
      · exact steady_evictL2 h _
    · exact h
  have hplace : ∀ x, Steady w x → Steady w (placeL2 x p line) := fun x hx => by
    unfold placeL2
    dsimp only
    split
    · exact hx.same (by rfl)
    · split
      · exact hx
      · split
        · exact hx.same (by rfl)
        · split
          · exact (steady_evictL2 hx _).same (by rfl)
          · exact hx
  unfold touchL2
  split
  · exact hplace _ hkeyed
  · exact h
theorem steady_writeOwn (h : Steady w s) (core writer : Option Nat) (p : Attr) (l a : Nat) (bs : List Byte) (bad : Bool) :
    Steady w (writeOwn s core writer p l a bs bad) := by
  unfold writeOwn
  split
  · exact h
  · split
    · exact h.same (by rfl)
    · exact steady_dropOwnLine h ..

/-! Bytes. -/
theorem steady_putList (h : Steady w s) (cached : Bool) (a : Nat) (bs : List Byte) : Steady w (putList cached s a bs) := by
  obtain ⟨_, _, e⟩ := putList_touches cached s a bs
  exact h.same (by rw [e])
theorem steady_rekey (h : Steady w s) (key sec : Nat) : Steady w (rekey key s sec) := by
  unfold rekey
  split
  · dsimp only
    split
    · exact h.same (by rfl)
    · split
      · exact h
      · next k g _ _ =>
        obtain ⟨u, m, e⟩ := putList_touches false s (32 * sec) (recrypt s sec k g key)
        rw [e]
        exact h.same (by rfl)
  · exact h
theorem steady_putBytes (h : Steady w s) (key : Nat) (cached : Bool) (a : Nat) (bs : List Byte) (bad : Bool) :
    Steady w (putBytes key cached s a bs bad) := by
  have hspan : Steady w (rekeySpan key s a bs.length) := by
    unfold rekeySpan
    split
    · exact h
    · exact foldl_keeps (Steady w) _ (fun x i hx => steady_rekey hx ..) _ s h
  exact (steady_putList hspan cached a bs).same (by rfl)
theorem steady_evalMonitors (h : Steady w s) (line : Nat) : Steady w (evalMonitors s line) := by
  refine foldl_keeps (Steady w) _ (fun x m hx => ?_) _ s h
  dsimp only
  split
  · split
    · split
      · exact hx
      · exact hx.same (by rfl)
    · exact (steady_emitA hx ..).same (by rfl)
  · exact hx
theorem steady_performLine (h : Steady w s) (core writer : Option Nat) (p : Attr) (a : Nat) (bs : List Byte) (bad : Bool)
    (pick : Nat → Option Nat) : Steady w (performLine s core writer p a bs bad pick) :=
  steady_evalMonitors (steady_rollbackLine (steady_putBytes (steady_writeOwn (steady_recallTime (steady_recallLine (steady_touchL2 h _ _) _ _) _) ..) ..) ..) _
theorem steady_performBytes (h : Steady w s) (core writer : Option Nat) (p : Attr) (a : Nat) (bs : List Byte) (bad : Bool)
    (pick : Nat → Option Nat) : Steady w (performBytes s core writer p a bs bad pick) := by
  unfold performBytes
  split
  · exact h
  · exact foldl_keeps (Steady w) _ (fun x i hx => steady_performLine hx ..) _ _ (h.same (by rfl))
theorem steady_halfWrite (h : Steady w s) (core : Option Nat) (dst : Acc) (bs : List Byte) (bad : List Bool) :
    Steady w (halfWrite s core dst bs bad) := by
  refine foldl_keeps (Steady w) _ (fun x i hx => ?_) _ s h
  dsimp only
  split
  · exact hx
  · split
    · exact (steady_performBytes hx ..).same (by rfl)
    · exact steady_performBytes hx ..

/-! Completion records and counters. -/
theorem steady_complFailed (h : Steady w s) (ctx compl tindex : Nat) (status : BitVec 16) (why : ComplCause) :
    Steady w (complFailed s ctx compl tindex status why) := by
  have hpost : ∀ {x : State}, Steady w x → ∀ f v, Steady w (postMail x f v) := fun hx f v => hx.modFunc f fun _ => wiring_signal _ _
  exact hpost (hpost (h.same (by rfl)) _ _) _ _
theorem steady_writeCompletion (h : Steady w s) (ctx compl tindex : Nat) (status : BitVec 16) (bs : List Byte) :
    Steady w (writeCompletion s ctx compl tindex status bs) := by
  unfold writeCompletion
  split
  · exact h
  · split
    · exact steady_complFailed h ..
    · split
      · next a _ =>
        have hclear : Steady w (clearCovered s [a]) := by
          unfold clearCovered
          split
          · exact h
          · exact h.same (by rfl)
        exact steady_performBytes (steady_performBytes hclear ..) ..
      · exact steady_complFailed h ..
      · exact h
      · dsimp only
        split
        · exact h
        · exact steady_complFailed h ..
theorem steady_lowerSucc (h : Steady w s) (ctx va : Nat) : Steady w (lowerSucc s ctx va) := by
  unfold lowerSucc
  split
  · exact h.same (by rfl)
  · split
    · split
      · next a _ _ s' e =>
        unfold blockStep at e
        split at e
        · cases e
        · dsimp only at e
          split at e
          · cases e
          · cases e
            refine steady_performBytes ?_ ..
            unfold fireBlock
            split
            · dsimp only
              split <;> exact h.same (by rfl)
            · exact h
      · exact h.same (by rfl)
    · exact h.same (by rfl)

/-! Teams, entries and contexts. -/
theorem steady_settleWide (h : Steady w s) (ctx : Nat) : Steady w (settleWide s ctx) := by
  unfold settleWide
  split
  · exact h
  · split
    · dsimp only
      exact (steady_emitA h ..).same (by rfl)
    · exact h
theorem steady_leaveWide (h : Steady w s) (t : Team) : Steady w (leaveWide s t) := by
  refine foldl_keeps (Steady w) _ (fun x i hx => ?_) _ s h
  dsimp only
  split
  · exact steady_settleWide (hx.same (by rfl)) _
  · exact hx
theorem steady_removeTeam (h : Steady w s) (tid : Nat) : Steady w (removeTeam s tid) := by
  unfold removeTeam
  split
  · exact h
  · next t _ =>
    extract_lets s1 s2 s3 fb s4 s5 o
    have h2 : Steady w s2 := foldl_keeps (Steady w) _ (fun x p hx => steady_stallOver hx p.1 p.2) _ _ (steady_leaveWide h t)
    have h5 : Steady w s5 := by
      have h4 : Steady w s4 := h2.same (by rfl)
      unfold s5 dropPool
      dsimp only
      split
      · exact h4
      · exact h4.same (by rfl)
    split
    · exact h5.same (by rfl)
    · exact h5.same (by rfl)
theorem steady_completeEntry (h : Steady w s) (eid : Nat) (status : BitVec 16) (detail : DWord) :
    Steady w (completeEntry s eid status detail) := by
  unfold completeEntry
  split
  · exact h
  · next e _ =>
    extract_lets s1 s2 s3 s4
    have h1 : Steady w s1 := steady_writeCompletion h ..
    have h2 : Steady w s2 := by
      unfold s2
      split
      · exact foldl_keeps (Steady w) _ (fun x v hx => steady_lowerSucc hx _ _) _ _ h1
      · exact h1
    have h3 : Steady w s3 := by
      unfold s3
      split
      · split
        · exact h2.same (by rfl)
        · exact h2
      · exact h2
    have h4 : Steady w s4 := foldl_keeps (Steady w) _ (fun x p hx => steady_removeTeam hx p.1) _ _ h3
    exact h4.same (by rfl)
theorem steady_stopOp (h : Steady w s) (o : Op) : Steady w (stopOp s o) := by
  unfold stopOp
  split
  · exact h
  · dsimp only
    split
    · refine foldl_keeps (Steady w) _ (fun x q hx => ?_) _ s h
      split
      · split
        · exact hx
        · exact steady_halfWrite hx ..
      · exact steady_halfWrite hx ..
    · exact foldl_keeps (Steady w) _ (fun x a hx => steady_halfWrite hx ..) _ s h
    · exact h
theorem steady_stopCmd (h : Steady w s) (c : Cmd) : Steady w (stopCmd s c) := by
  unfold stopCmd
  split
  · exact foldl_keeps (Steady w) _ (fun x p hx => steady_halfWrite hx ..) _ s h
  · exact h
theorem steady_teardownCtx (h : Steady w s) (ctx : Nat) (lost : Bool) : Steady w (teardownCtx s ctx lost) := by
  unfold teardownCtx
  split
  · exact h
  · extract_lets ts keep away leave s1 s2 _ _ s3 s4 s5
    have h2 : Steady w s2 := foldl_keeps (Steady w) _ (fun x p hx => steady_stopCmd hx p.2) _ _
      (foldl_keeps (Steady w) _ (fun x p hx => steady_stopOp hx p.2) _ s h)
    have h3 : Steady w s3 := h2.same (by rfl)
    have h4 : Steady w s4 := foldl_keeps (Steady w) _ (fun x p hx => steady_completeEntry hx ..) _ _ h3
    have h5 : Steady w s5 := foldl_keeps (Steady w) _ (fun x p hx => steady_writeCompletion hx ..) _ _ h4
    exact h5.same (by rfl)
theorem steady_teardownFunc (h : Steady w s) (func : Nat) : Steady w (teardownFunc s func) :=
  foldl_keeps (Steady w) _ (fun _ p hx => steady_teardownCtx hx p.1 false) _ s h
theorem steady_zeroKey (h : Steady w s) (index : Nat) (owner : Option Nat) : Steady w (zeroKey s index owner) := by
  have hdrop : Steady w (dropKey s index) :=
    foldl_keeps (Steady w) _ (fun x p hx => foldl_keeps (Steady w) _ (fun y e hy => steady_dropOwnLine hy ..) _ x hx) _ _
      (foldl_keeps (Steady w) _ (fun x e hx => steady_evictL2 hx e.line) _ s h)
  exact hdrop.same (by rfl)

/-! Traps. -/
theorem steady_emitCrewA (h : Steady w s) (key : Nat) (event arg : BitVec 8) (payload : Word) (cause : Nat) :
    Steady w (emitCrewA s key event arg payload cause) := by
  unfold emitCrewA
  split
  · exact h
  · exact steady_emitA h ..
theorem steady_emitS (h : Steady w s) (key : Nat) (event arg : BitVec 8) (payload : Word) (spec : Bool) (cause : Nat) :
    Steady w (emitS s key event arg payload spec cause) := by
  unfold emitS
  split
  · exact h
  · dsimp only
    split
    · split
      · exact h.same (by rfl)
      · split
        · exact h.same (by rfl)
        · exact steady_loseRecord (h.same (by rfl)) _
    · exact h
theorem steady_stallCrew (h : Steady w s) (key : Nat) (c : Crew) (n : Nat) : Steady w (stallCrew s key c n) := by
  have hset : ∀ x, Steady w (s.setCrew key x) := fun x => h.same (by rfl)
  unfold stallCrew
  refine (hset _).modFunc _ fun x => ?_
  dsimp only
  split
  · rfl
  · exact (wiring_signal _ _).trans (by rfl)
theorem steady_endStall (h : Steady w s) (key : Nat) (c : Crew) : Steady w (endStall s key c).1 := by
  unfold endStall
  dsimp only
  split
  · exact steady_stallOver h ..
  · exact steady_emitS ((steady_stallOver h key c).same (by rfl)) ..
theorem steady_settleEntry (h : Steady w s) (eid : Nat) : Steady w (settleEntry s eid) := by
  unfold settleEntry
  split
  · exact h
  · split
    · exact steady_ite h (steady_ite (h.same (by rfl)) (steady_completeEntry h ..))
    · exact h
theorem steady_dropSpawn (h : Steady w s) (key : Nat) : Steady w (dropSpawn s key) := by
  unfold dropSpawn
  split
  · exact h
  · split
    · exact h
    · exact h.same (by rfl)
theorem steady_endEntry (h : Steady w s) (eid : Nat) (status : BitVec 16) (detail : DWord) : Steady w (endEntry s eid status detail) := by
  unfold endEntry
  split
  · exact h
  · split
    · exact h
    · have hdrop := foldl_keeps (Steady w) dropSpawn (fun x k hx => steady_dropSpawn hx k) (crewsOfEntry s eid) s h
      exact steady_settleEntry (hdrop.same (by rfl)) _
theorem steady_closeRegion (h : Steady w s) (key : Nat) (pc : Addr) (word : Word) : Steady w (closeRegion s key pc word) := by
  unfold closeRegion
  split
  · exact h
  · split
    · exact h
    · unfold releaseBuf
      split
      · exact h.same (by rfl)
      · exact h.same (by rfl)
theorem steady_takeTrap (h : Steady w s) (key : Nat) (c : Crew) (t : Team) (p : TrapInfo) : Steady w (takeTrap s key c t p) := by
  unfold takeTrap
  extract_lets pick info held e' s'
  have h' : Steady w s' := steady_emitS (steady_endStall h key c) ..
  split
  · exact steady_stallCrew h ..
  · split
    · exact (steady_stallCrew h key c (stallNeeds c s')).same (by rfl)
    · split
      · exact steady_endEntry (h'.same (by rfl)) ..
      · exact h'.same (by rfl)
theorem steady_enterTrap (h : Steady w s) (key : Nat) : Steady w (enterTrap s key) := by
  unfold enterTrap
  split
  · exact h
  · split
    · split
      · exact h
      · split
        · exact h
        · split
          · next p _ _ _ _ _ _ =>
            have hclosed : Steady w ((closeRegion s key p.fault p.word).modCrew key fun c => { c with rclosed := true }) :=
              (steady_closeRegion h key p.fault p.word).same (by rfl)
            dsimp only
            split
            · split
              · exact steady_takeTrap hclosed ..
              · exact hclosed
            · exact hclosed
          · exact steady_takeTrap h ..
    · exact h
theorem steady_setTrap (h : Steady w s) (key : Nat) (info : TrapInfo) : Steady w (setTrap s key info) := by
  unfold setTrap
  split
  · exact h
  · next c _ =>
    split
    · exact h
    · split
      · exact h
      · split
        · exact steady_endEntry h ..
        · have hdrop : ∀ f, Steady w (dropSpawn (s.modTeam c.team f) key) := fun f => steady_dropSpawn (h.same (by rfl)) key
          exact steady_enterTrap ((hdrop _).same (by rfl)) key
theorem steady_failGangs (fuel : Nat) (h : Steady w s) (core : Nat) (sel : Rendezvous → Bool) (cause : Nat) (skip : Option Nat) :
    Steady w (failGangs fuel s core sel cause skip) := by
  induction fuel generalizing s core sel cause skip with
  | zero => exact h
  | succ n ih =>
    unfold failGangs
    split
    · exact h
    · dsimp only
      refine ih (foldl_keeps (Steady w) _ (fun x a hx => ?_) _ _ (foldl_keeps (Steady w) _ (fun x a hx => ?_) _ _ ?_)) ..
      rotate_left 2
      · exact h.same (by rfl)
      · split
        · exact ih hx ..
        · exact hx
      · split
        · split
          · exact steady_setTrap (steady_emitCrewA hx ..) ..
          · exact hx
        · exact hx
theorem steady_raise (h : Steady w s) (key : Nat) (info : TrapInfo) : Steady w (raise s key info) := by
  unfold raise
  split
  · exact h
  · exact steady_ite h (steady_failGangs 65 (steady_setTrap h ..) ..)

/-! Replies to page requests. -/
theorem steady_overflowTeam (h : Steady w s) (t : Team) : Steady w (overflowTeam s t) := by
  refine foldl_keeps (Steady w) _ (fun x k hx => ?_) _ _ (foldl_keeps (Steady w) _ (fun x k hx => ?_) _ s h)
  · split
    · split
      · exact steady_failGangs 65 hx ..
      · exact hx
    · exact hx
  · have hback : Steady w (rollback x k 6 0) := steady_rollback hx ..
    dsimp only
    split
    · split
      · exact hback
      · split
        · exact hback.same (by rfl)
        · exact steady_setTrap hback ..
    · exact hback
theorem steady_notePage (h : Steady w s) (t : Team) (page : Nat) (code : BitVec 8) : Steady w (notePage s t page code) := by
  refine foldl_keeps (Steady w) _ (fun x k hx => ?_) _ s h
  have hdemand : ∀ y, Steady w y → Steady w (settleDemand y k) := fun y hy => by
    unfold settleDemand
    split
    · exact hy
    · split
      · split
        · exact hy
        · split
          · exact steady_raise (hy.same (by rfl)) ..
          · exact hy.same (by rfl)
      · exact hy
  exact hdemand _ (hx.same (by rfl))
theorem steady_applyToTeam (h : Steady w s) (x : Ctx) (page : Nat) (status : BitVec 8) (sent tid : Nat) :
    Steady w (applyToTeam s x page status sent tid) := by
  unfold applyToTeam
  split
  · exact h
  · next t _ =>
    have hheard : Steady w (heard s t.core sent) := h.same (by rfl)
    dsimp only
    split
    · exact steady_notePage hheard ..
    · split
      · exact steady_overflowTeam hheard _
      · exact steady_notePage (hheard.same (by rfl)) ..

end

/-- Each slice runs the function given. -/
def Running (r : Nat → Option Nat) (s : State) : Prop := ∀ i, (s.slice i).running = r i
theorem Running.steady {r : Nat → Option Nat} {s t : State} (h : Running r s) (g : Steady s.fixed t) : Running r t := fun i => by
  have hsl : t.slices = s.slices := congrArg Fixed.slices g.fixed
  rw [← h i]
  unfold State.slice
  rw [hsl]
/-- Posted replies that are applied leave what runs on each slice (R388). -/
theorem running_applyPosted {r : Nat → Option Nat} {s : State} (h : Running r s) (ctx : Nat) : Running r (applyPosted s ctx) := by
  have hreply : ∀ y, Running r y → ∀ page status teams sent, Running r (applyReply y ctx page status teams sent) := by
    intro y hy page status teams sent
    unfold applyReply
    split
    · exact hy
    · dsimp only
      refine foldl_keeps (Running r) _ (fun z t hz => hz.steady (steady_applyToTeam (steady_self z) ..)) _ _ fun i => ?_
      rw [State.modSlice_slice]
      split
      · next e => exact e ▸ hy _
      · exact hy i
  unfold applyPosted
  split
  · exact h
  · refine foldl_keeps (Running r) _ (fun y f hy => ?_) _ _ h
    have hclear : Running r (clearFault y ctx f) := by
      unfold clearFault
      split
      · exact hy.steady (steady_performBytes (steady_self y) ..)
      · exact hy
    dsimp only
    split
    · exact hreply _ (by exact hclear) _ _ _ _
    · exact hclear
theorem running_runFunc (s : State) (slice func : Nat) : ((runFunc s slice func).slice slice).running = some func := by
  unfold runFunc
  split
  · assumption
  · let u := s.modSlice slice fun sl => { sl with running := some func, since := s.time.master }
    have hu : (u.slice slice).running = some func := by
      unfold u
      rw [State.modSlice_slice, if_pos rfl]
    have hall : Running (fun i => (u.slice i).running) (applyAllPosted u slice func) :=
      foldl_keeps (Running _) _ (fun x p hx => running_applyPosted hx p.1) _ u fun _ => rfl
    exact (hall slice).trans hu

end Machine
end Sys2Proof
end

section
/-! PROOF. The security events (O59). -/
namespace Sys2Proof
namespace Machine

/-- A TDI that enters ERROR keeps its MSI-X table. -/
theorem msixTab_clearTdi (s : State) (func : Nat) : ((clearTdi s func).func func).msixTab = (s.func func).msixTab := by
  have hdown : Steady s.fixed (teardownFunc (muteFunc s func) func) :=
    steady_teardownFunc (s := muteFunc s func) ((steady_self s).same (by rfl)) func
  let t := (teardownFunc (muteFunc s func) func).modFunc func fun f => { f with bulkKeys := [] }
  have ht : (t.func func).msixTab = (s.func func).msixTab := by
    change (State.func (State.modFunc _ _ _) _).msixTab = _
    rw [State.modFunc_func, if_pos rfl]
    exact congrArg Wiring.msixTab (hdown.wiring func)
  unfold clearTdi
  dsimp only
  split
  · exact (congrArg Wiring.msixTab ((steady_zeroKey (steady_self t) _ _).wiring func)).trans ht
  · exact ht
/-- A vector that is signalled is pending, or its message is sent. -/
theorem signal_heard (f : Func) (v : Nat) : if (f.msixWord (2 * v + 1)).getLsbD 32 then v ∈ (f.signal v).msixPend
    else (v, (f.msixWord (2 * v)).toNat, (f.msixWord (2 * v + 1)).toNat % 2 ^ 32) ∈ (f.signal v).msix := by
  unfold Func.signal
  split
  · exact mem_setAdd.mpr (.inl rfl)
  · simp

/-- A function-level reset clears TRCFG and the bulk keys. -/
theorem resetFunc_clears (s : State) (func : Nat) :
    ((resetFunc s func).func func).trace.cfg = 0 ∧ ((resetFunc s func).func func).bulkKeys = [] := by
  unfold resetFunc
  extract_lets f s1 s2 s3
  have h3 : (s3.func func).trace.cfg = 0 ∧ (s3.func func).bulkKeys = [] := by
    unfold s3
    rw [State.modFunc_func, if_pos rfl]
    exact ⟨rfl, rfl⟩
  clear_value f s3
  split
  · exact h3
  · next k _ =>
    split
    · exact h3
    · have hkey := (steady_zeroKey (steady_self s3) k (some func)).wiring func
      rw [State.modFunc_func, if_pos rfl]
      exact ⟨(congrArg Wiring.cfg hkey).trans h3.1, (congrArg Wiring.bulkKeys hkey).trans h3.2⟩
/-- A TDI in ERROR has signalled vector 3 (R453). -/
theorem tdiError_signals (s : State) (func : Nat) : ((tdiError s func).func func).tdi = .error ∧
    if ((s.func func).msixWord 7).getLsbD 32 then 3 ∈ ((tdiError s func).func func).msixPend
    else (3, ((s.func func).msixWord 6).toNat, ((s.func func).msixWord 7).toNat % 2 ^ 32) ∈ ((tdiError s func).func func).msix := by
  have hself : (tdiError s func).func func = ({ (clearTdi s func).func func with tdi := .error } : Func).signal 3 := by
    unfold tdiError
    rw [State.modFunc_func, if_pos rfl]
  have hword : ∀ i, ({ (clearTdi s func).func func with tdi := .error } : Func).msixWord i = (s.func func).msixWord i := fun i =>
    congrArg (Tbl.getD · i _) (msixTab_clearTdi s func)
  have hheard := signal_heard { (clearTdi s func).func func with tdi := .error } 3
  rw [hword, hword] at hheard
  rw [hself]
  refine ⟨?_, by exact hheard⟩
  unfold Func.signal
  split <;> rfl
/-- A slot of the bulk key table once it is loaded. -/
theorem loadSlot_bulkKeys (s : State) (func slot : Nat) (key : BitVec 256) :
    Tbl.get? ((loadSlot s func slot key).func func).bulkKeys slot = if key = 0 then none else some key := by
  unfold loadSlot
  rw [State.modFunc_func, if_pos rfl]
  split <;> simp
theorem tdi_tdiError (s : State) (func : Nat) : ((tdiError s func).func func).tdi = .error := (tdiError_signals s func).1

theorem keyState_func (s : State) (op : Option KeyOp) (f : Nat) : (keyState s op).func f = s.func f := rfl
/-- An event of two branches, against a statement of two cases. -/
theorem yields_if {i : Instr} {s x y : State} {c p : Prop} [Decidable c] [Decidable p] {A B : State → Prop}
    (hexec : exec i s = .next (if c then x else y)) (hcp : c ↔ p) (hx : p → A x) (hy : ¬p → B y) :
    Yields i s fun s' => if p then A s' else B s' := by
  refine ⟨_, hexec, ?_⟩
  by_cases hp : p
  · simpa [hp, hcp] using hx hp
  · simpa [hp, hcp] using hy hp
theorem yields_cases {i : Instr} {s x y : State} {c p : Prop} [Decidable c] [Decidable p] {A B : State → Prop}
    (hexec : exec i s = if c then .next x else .next y) (hcp : c ↔ p) (hx : p → A x) (hy : ¬p → B y) :
    Yields i s fun s' => if p then A s' else B s' :=
  yields_if (hexec.trans (apply_ite Host.Outcome.next ..).symm) hcp hx hy

end Machine

open Machine in
/-- Settles O59: each event by its own branches; what a teardown and the loss of a key leave of a function is `Steady`. -/
theorem securityEvents : Obligations.SecurityEvents := by
  unfold Obligations.SecurityEvents
  refine ⟨fun s index func hop hlock => ?assign, fun s index func hop => ?assigned, fun s index func hop hlock => ?assignLocked,
    fun s index func hop how => ?retire, fun s index func hop how => ?retired, fun s index how => ?retireFree, fun s op => ?keystat,
    fun s func hne hf => ?reset, fun s hf => ?resetAll, fun s f hf => ?resetOne, fun s link stream hsec hl hs => ?ide,
    fun s link stream hno => ?ideNone, fun s link stream p hp hs hl ht => ?ideRun, fun s vf stream hvf => ?lock, fun s vf hvf => ?start,
    fun s vf hvf => ?stop, fun s vf hvf hlock => ?report, fun s vf hvf hlock => ?reportError, fun s => ⟨_, rfl, rfl⟩, fun s => ⟨_, rfl, _, rfl⟩,
    fun s hash kex aead => ?negotiate, fun s => ?digests, fun s slot => ?certificate, fun s slot nonce => ?challenge,
    fun s slot index nonce => ?measurements, fun s slot nonce => ?exchange, fun s => ?finish, fun s => ?endSession,
    fun s func slot key hf ht hs => ?mailbox, fun s func slot key => ?session⟩
  case assign =>
    refine ⟨fun hgood => ⟨_, ?_, rfl⟩, fun hbad => ⟨_, ?_, rfl⟩⟩
    · change execKeyAssign index func s = _
      unfold execKeyAssign
      rw [hop]
      dsimp only
      rw [if_neg (by simp [hlock]), if_neg hgood]
    · change execKeyAssign index func s = _
      unfold execKeyAssign
      rw [hop]
      dsimp only
      rw [if_neg (by simp [hlock]), if_pos hbad]
  case assigned =>
    have hexec : exec (.keyAssign index func) s = .next (keyState (State.modFunc { s with sec := { s.sec with
        keys := Tbl.put s.sec.keys index { owner := some func, gen := (Tbl.getD s.sec.keys index {}).gen + 1 } } } func
          fun f => { f with key := some index }) none) := by
      change execKeyAssign index func s = _
      unfold execKeyAssign
      rw [hop]
      exact if_pos rfl
    refine ⟨_, hexec, Tbl.get?_put_self .., ?_, rfl⟩
    rw [keyState_func, State.modFunc_func, if_pos rfl]
  case assignLocked =>
    refine ⟨_, ?_, rfl⟩
    change execKeyAssign index func s = _
    unfold execKeyAssign
    rw [hop]
    exact if_pos hlock
  case retire =>
    have hexec : exec (.keyRetire index) s = if tdiLocked s func then .next (keyLocked s func) else if index = 0 then .next (keyRefuse s)
        else .next (keyState s (some (.retire index))) := by
      change execKeyRetire index s = _
      unfold execKeyRetire
      rw [hop, how]
    unfold Yields
    rw [hexec]
    split
    · exact ⟨_, rfl, rfl⟩
    · split
      · exact ⟨_, rfl, rfl⟩
      · exact ⟨_, rfl, rfl⟩
  case retired =>
    have hexec : exec (.keyRetire index) s =
        .next (keyState ((zeroKey s index none).modFunc func fun f => { f with key := none }) none) := by
      change execKeyRetire index s = _
      unfold execKeyRetire
      rw [hop, how]
      exact if_pos rfl
    refine ⟨_, hexec, ?_, rfl, { owner := none, gen := (Tbl.getD (dropKey s index).sec.keys index {}).gen + 1 }, Tbl.get?_put_self .., rfl, ?_⟩
    · rw [keyState_func, State.modFunc_func, if_pos rfl]
    · have hsec : (dropKey s index).sec = s.sec := by
        have hmove : LineMove s (dropKey s index) :=
          foldl_keeps (LineMove s) _ (fun x p hx => foldl_keeps (LineMove s) _ (fun y e hy => hy.trans (lineMove_drop ..)) _ x hx) _ _
            (foldl_keeps (LineMove s) _ (fun x e hx => hx.trans (lineMove_evict x e.line)) _ s (.refl s))
        obtain ⟨_, _, _, _, _, _, _, _, _, _, e⟩ := hmove
        rw [e]
      change _ < (Tbl.getD (dropKey s index).sec.keys index {}).gen + 1
      rw [hsec]
      exact Nat.lt_succ_self _
  case retireFree =>
    refine ⟨_, ?_, rfl⟩
    change execKeyRetire index s = _
    unfold execKeyRetire
    rw [how]
    cases s.sec.keyOp <;> rfl
  case keystat => cases op <;> rfl
  case reset =>
    refine ⟨_, ?_, resetFunc_clears s func⟩
    change execFunctionLevelReset func s = _
    unfold execFunctionLevelReset
    rw [if_neg (by simpa using Option.isSome_iff_ne_none.mp hf), if_neg hne]
  case resetAll =>
    refine ⟨_, ?_, rfl⟩
    change execFunctionLevelReset 0 s = _
    unfold execFunctionLevelReset
    rw [if_neg (by simpa using Option.isSome_iff_ne_none.mp hf), if_pos rfl]
  case resetOne =>
    refine ⟨_, ?_, resetFunc_clears s 0⟩
    change execFunctionLevelReset 0 s = _
    unfold execFunctionLevelReset
    rw [hf]
    rfl
  case ide => exact ⟨_, if_pos (by rw [hsec]; exact decide_eq_true ⟨hl, hs⟩), List.mem_cons_self⟩
  case ideNone =>
    refine ⟨_, rfl, ?_⟩
    have hnone : (s.funcs.filter fun p => p.2.stream == some stream && p.2.tdi != .unlocked && linkOf s p.1 == link) = [] :=
      List.filter_eq_nil_iff.mpr fun p hp => by simp [hno p hp]
    change List.foldl _ _ (List.map _ (List.filter _ _)) = _
    rw [hnone]
    rfl
  case ideRun =>
    let u : State := { s with sec := { s.sec with streams := s.sec.streams.filter (· != (link, stream)) } }
    have hfunc : u.func p.1 = p.2 := by
      change Tbl.getD s.funcs p.1 {} = _
      rw [hp]
      simp [Tbl.getD, Tbl.get?]
    refine ⟨tdiError u p.1, ?_, hfunc ▸ tdiError_signals u p.1⟩
    change execIdeIntegrityFailure link stream s = _
    unfold execIdeIntegrityFailure
    rw [hp]
    simp [hs, hl, ht, u, hp]
  case lock =>
    refine yields_cases (c := (s.func vf).tdi = .unlocked) (if_neg (by simp [hvf])) Iff.rfl (fun _ => ?_) fun _ => tdi_tdiError s vf
    rw [State.modFunc_func, if_pos rfl]
    exact ⟨rfl, rfl, rfl⟩
  case start =>
    by_cases hlocked : (s.func vf).tdi = .locked
    · refine ⟨_, (if_neg (by simp [hvf])).trans (if_pos hlocked), ?_⟩
      dsimp only
      rw [State.modFunc_func, if_pos rfl, if_pos hlocked]
    · exact ⟨_, (if_neg (by simp [hvf])).trans (if_neg hlocked), (tdi_tdiError s vf).trans (if_neg hlocked).symm⟩
  case stop =>
    refine ⟨_, if_neg (by simp [hvf]), ?_⟩
    dsimp only
    rw [State.modFunc_func, if_pos rfl]
    exact ⟨rfl, rfl⟩
  case report => exact ⟨_, (if_neg (by simp [hvf])).trans (if_pos hlock), rfl⟩
  case reportError => exact ⟨_, (if_neg (by simp [hvf])).trans (if_neg (by simp [hlock])), tdi_tdiError s vf⟩
  case negotiate =>
    exact yields_cases rfl Iff.rfl (fun _ => ⟨rfl, _, List.mem_append_right _ List.mem_cons_self, rfl, rfl⟩) fun _ => rfl
  case digests => exact yields_if rfl (by simp [slotOk]) (fun _ => ⟨_, rfl⟩) fun _ => rfl
  case certificate => exact yields_if rfl (by simp [slotOk]) (fun _ => ⟨_, rfl⟩) fun _ => rfl
  case challenge => exact yields_if rfl (by simp [slotOk]) (fun _ => ⟨_, rfl⟩) fun _ => rfl
  case measurements => exact yields_cases rfl (by simp [slotOk, and_assoc]) (fun _ => ⟨_, rfl⟩) fun _ => rfl
  case exchange =>
    exact yields_cases rfl (by simp [slotOk, and_assoc])
      (fun _ => ⟨rfl, rfl, rfl, _, List.mem_append_right _ List.mem_cons_self, rfl, rfl⟩) fun _ => rfl
  case finish => exact yields_cases rfl (by simp) (fun hopen => by simp [secured, respond, hopen.1]) fun _ => rfl
  case endSession => exact yields_cases rfl Iff.rfl (fun _ => ⟨rfl, rfl⟩) fun _ => rfl
  case mailbox => exact ⟨_, if_pos (by simpa [hf, ht] using hs), loadSlot_bulkKeys s func slot key⟩
  case session => exact yields_cases rfl (by simp [and_assoc]) (fun _ => loadSlot_bulkKeys s func slot key) fun _ => rfl

end Sys2Proof
end

section
/-! PROOF. Writes that reach the BARs, and what the registers read as (O58). -/
namespace Sys2Proof
namespace Machine

/-! Register writes. -/

/-- A request that is reached names an offset below configuration space. -/
theorem barReached_lt {s : State} {link func off : Nat} {stream : Option Nat} (h : barReached s link func off stream = true) : off < 2 ^ 32 := by
  unfold barReached at h
  split at h
  · cases h
  · simp only [Bool.and_eq_true, decide_eq_true_eq] at h
    have hoff := h.1.2
    split at hoff <;> omega
/-- A whole word that reaches BAR0 outside the mailbox, out of recovery (R449, R452). -/
theorem exec_registerWrite_word {s : State} {link func off : Nat} {value : DWord} {stream : Option Nat}
    (h : barReached s link func off stream = true) (hrec : s.svc.recovery = false) (ho : off % 8 = 0) (hmail : off < 0x9000 ∨ 0xA000 ≤ off) :
    exec (.registerWrite link func off 8 value stream) s =
      if off < 0x8000 then execQueueNotify func (off / 8) value s
      else if off < 0x9000 then writeTrace s func (off - 0x8000) value
      else if 0xE000 ≤ off ∧ off < 0xE080 then .next (writeMsix s func ((off - 0xE000) / 8) value)
      else if 0x100000 ≤ off then writeExpert s (off - 0x100000) value
      else .next s := by
  change execRegisterWrite link func off 8 value stream s = _
  unfold execRegisterWrite
  extract_lets mail o s1 v
  have hlt := barReached_lt h
  have hm : mail = false := decide_eq_false (by omega)
  have hv : v = value := rfl
  rw [if_neg (by omega), if_neg (by simp [h]), if_neg (by simp [hrec]), if_neg (by simp [hm]), if_pos ⟨ho, .inl rfl⟩, hv]
/-- One in the trace page. -/
theorem exec_registerWrite_trace {s : State} {link func o : Nat} {value : DWord} {stream : Option Nat}
    (h : barReached s link func (0x8000 + o) stream = true) (hrec : s.svc.recovery = false) (ho : o < 0x1000) (h8 : o % 8 = 0) :
    exec (.registerWrite link func (0x8000 + o) 8 value stream) s = writeTrace s func o value := by
  rw [exec_registerWrite_word h hrec (by omega) (by omega), if_neg (by omega), if_pos (by omega), Nat.add_sub_cancel_left]
/-- One in the expert window. -/
theorem exec_registerWrite_expert {s : State} {link func x : Nat} {value : DWord} {stream : Option Nat}
    (h : barReached s link func (0x100000 + x) stream = true) (hrec : s.svc.recovery = false) (h8 : (0x100000 + x) % 8 = 0) :
    exec (.registerWrite link func (0x100000 + x) 8 value stream) s = writeExpert s x value := by
  rw [exec_registerWrite_word h hrec h8 (by omega), if_neg (by omega), if_neg (by omega), if_neg (by omega), if_pos (by omega),
    Nat.add_sub_cancel_left]
theorem exec_registerWrite_unreached {s : State} {link func off size : Nat} {value : DWord} {stream : Option Nat} (hlt : off < 2 ^ 32)
    (h : barReached s link func off stream = false) : exec (.registerWrite link func off size value stream) s = .next (answer s 7 [] false) := by
  change execRegisterWrite link func off size value stream s = _
  unfold execRegisterWrite
  exact (if_neg (by omega)).trans (if_pos (by simp [h]))
theorem exec_registerWrite_config (s : State) (link func o size : Nat) (value : DWord) (stream : Option Nat) :
    exec (.registerWrite link func (2 ^ 32 + o) size value stream) s = .next (writeConfig s link func o value) := by
  change execRegisterWrite link func (2 ^ 32 + o) size value stream s = _
  unfold execRegisterWrite
  exact (if_pos (by omega)).trans (by rw [Nat.add_sub_cancel_left])
theorem exec_registerWrite_recovery {s : State} {link func off : Nat} {value : DWord} {stream : Option Nat}
    (h : barReached s link func off stream = true) (hrec : s.svc.recovery = true) (hlt : off < 0x9000) :
    exec (.registerWrite link func off 8 value stream) s = .next s := by
  change execRegisterWrite link func off 8 value stream s = _
  unfold execRegisterWrite
  have hmail : decide (0x9000 ≤ off ∧ off < 0xA000) = false := decide_eq_false (by omega)
  exact (if_neg (by omega)).trans ((if_neg (by simp [h])).trans (if_pos (by simp [hrec, hmail])))

/-! The expert window. -/
theorem groupOn_nil {s : State} (h : s.sec.groups = []) (g : Nat) : groupOn s g = false := by simp [groupOn, h]
/-- With no group enabled a write changes nothing and everything reads as zero (R450). -/
theorem writeExpert_closed {s : State} (h : s.sec.groups = []) (x : Nat) (v : DWord) : writeExpert s x v = .next s := by
  have hoff := groupOn_nil h
  unfold writeExpert
  simp only [hoff, Bool.false_and, Bool.false_eq_true, if_false, ite_self]
theorem readExpert_closed {s : State} (h : s.sec.groups = []) (x : Nat) : readExpert s x = 0 := by
  have hoff := groupOn_nil h
  unfold readExpert
  simp only [hoff, Bool.false_eq_true, if_false, ite_self]
/-- SLFAB[i] (R425). -/
theorem writeExpert_slfab {s : State} {i : Nat} (hon : groupOn s 0 = true) (hi : i < 16) (v : DWord) :
    writeExpert s (0x2080 + 8 * i) v = .next (writeSlfab s i v) := by
  unfold writeExpert
  rw [if_neg (by omega), if_neg (by omega), if_pos (by omega), if_pos hon, show (0x2080 + 8 * i) % 0x80 / 8 = i by omega]
theorem writeExpert_tbldat0 {s : State} (hon : groupOn s 5 = true) (v : DWord) :
    writeExpert s 0x5048 v = .next { s with sec := { s.sec with tbldat0 := v } } := by
  unfold writeExpert
  norm_num [hon]
theorem writeExpert_tbldat1 {s : State} (hon : groupOn s 5 = true) (v : DWord) :
    writeExpert s 0x5050 v = .next { s with sec := { s.sec with tbldat1 := v } } := by
  unfold writeExpert
  norm_num [hon]

/-! What the registers read as. -/
theorem readWord_live {s : State} {func off : Nat} (ht : (s.func func).tdi ≠ .error) (hrec : s.svc.recovery = false)
    (hmail : off < 0x9000 ∨ 0xA000 ≤ off) : readWord s func off =
      if off < 0x8000 then 0
      else if off < 0x9000 then readTrace s func (off - 0x8000)
      else if off < 0xA000 then 0
      else if off < 0xE000 then BitVec.ofNat 64 (leVal (((capBytes s func).drop (off - 0xA000)).take 8))
      else if off < 0xE080 then (s.func func).msixWord ((off - 0xE000) / 8)
      else if off = 0xE800 then BitVec.ofNat 64 (funcMask (s.func func).msixPend)
      else if 0x100000 ≤ off then readExpert s (off - 0x100000)
      else 0 := by
  have hm : decide (0x9000 ≤ off ∧ off < 0xA000) = false := decide_eq_false (by omega)
  unfold readWord
  dsimp only
  rw [if_neg (by simp [ht, hrec]), if_neg (by simp [hm])]
/-- What reads as zero (R449, R450, R464, R474). -/
theorem readWord_zero {s : State} {func off : Nat} (h : (s.func func).tdi = .error ∨ off < 0x8000 ∨
    (0xE080 ≤ off ∧ off < 0x100000 ∧ off ≠ 0xE800) ∨ (0x100000 ≤ off ∧ s.sec.groups = [])) : readWord s func off = 0 := by
  by_cases hdead : (s.func func).tdi = .error ∨ s.svc.recovery = true ∧ decide (0x9000 ≤ off ∧ off < 0xA000) = false
  · exact if_pos hdead
  · obtain ⟨ht, hrec⟩ := not_or.mp hdead
    have hlive := h.resolve_left ht
    have hmail : off < 0x9000 ∨ 0xA000 ≤ off := by omega
    rw [readWord_live ht (by
      have hm : decide (0x9000 ≤ off ∧ off < 0xA000) = false := decide_eq_false (by omega)
      simpa [hm] using hrec) hmail]
    obtain hlow | ⟨h1, h2, h3⟩ | ⟨h1, hg⟩ := hlive
    · exact if_pos hlow
    · rw [if_neg (by omega), if_neg (by omega), if_neg (by omega), if_neg (by omega), if_neg (by omega), if_neg h3, if_neg (by omega)]
    · rw [if_neg (by omega), if_neg (by omega), if_neg (by omega), if_neg (by omega), if_neg (by omega), if_neg (by omega), if_pos h1]
      exact readExpert_closed hg _
theorem signal_fields (f : Func) (v : Nat) : (f.signal v).msixTab = f.msixTab ∧ (f.signal v).tdi = f.tdi := by
  unfold Func.signal
  split <;> exact ⟨rfl, rfl⟩
/-- A word of the MSI-X table that is written. -/
theorem writeMsix_func (s : State) (func i : Nat) (v : DWord) :
    ((writeMsix s func i v).func func).tdi = (s.func func).tdi ∧ ((writeMsix s func i v).func func).msixTab =
      Tbl.put (s.func func).msixTab i (if i % 2 = 1 then v &&& 0x1FFFFFFFF else v &&& ~~~3#64) := by
  unfold writeMsix
  rw [State.modFunc_func, if_pos rfl]
  dsimp only
  split
  · obtain ⟨htab, htdi⟩ := signal_fields { s.func func with
      msixTab := Tbl.put (s.func func).msixTab i (if i % 2 = 1 then v &&& 0x1FFFFFFFF else v &&& ~~~3#64)
      msixPend := setDel (s.func func).msixPend (i / 2) } (i / 2)
    exact ⟨htdi, htab⟩
  · exact ⟨rfl, rfl⟩

/-! The mailbox. -/
theorem putMailbox_func (s : State) (func o : Nat) (bs : List Byte) : (putMailbox s func o bs).func func = { s.func func with
    mailbox := (bs.zip (List.range bs.length)).foldl (fun m p => Sparse.set (w := 8) m (o + p.2) p.1) (s.func func).mailbox } := by
  unfold putMailbox
  rw [State.modFunc_func, if_pos rfl]
/-- A word in the outbound mailbox signals vector 0 (R449, R453). -/
theorem mail_heard (f : Func) (w : DWord) : (({ f with mailOut := f.mailOut ++ [w] } : Func).signal 0).mailOut = f.mailOut ++ [w] ∧
    if (f.msixWord 1).getLsbD 32 then 0 ∈ (({ f with mailOut := f.mailOut ++ [w] } : Func).signal 0).msixPend
    else (({ f with mailOut := f.mailOut ++ [w] } : Func).signal 0).msix =
      f.msix ++ [(0, (f.msixWord 0).toNat, (f.msixWord 1).toNat % 2 ^ 32)] := by
  have hsame : ∀ i, ({ f with mailOut := f.mailOut ++ [w] } : Func).msixWord i = f.msixWord i := fun _ => rfl
  unfold Func.signal
  rw [hsame, hsame]
  split
  · exact ⟨rfl, mem_setAdd.mpr (.inl rfl)⟩
  · exact ⟨rfl, rfl⟩

/-! The table port. -/
theorem tblWrite_closed {s : State} (h : groupOn s 5 = false) (base : Option Nat) (ok : Bool) (o : Nat) (bs : List Byte) :
    tblWrite s base ok o bs = .next s := if_pos (by simp [h])
theorem tblWrite_none {s : State} (h : groupOn s 5 = true) (ok : Bool) (o : Nat) (bs : List Byte) :
    tblWrite s none ok o bs = .next (tblRefuse s) := if_neg (by simp [h])
theorem tblWrite_locked {s : State} (h : groupOn s 5 = true) (hl : tdiLocked s (selFunc s) = true) {base : Option Nat} (hb : base.isSome = true)
    (ok : Bool) (o : Nat) (bs : List Byte) : tblWrite s base ok o bs = .next (lockedError (tblRefuse s) (selFunc s)) := by
  obtain ⟨b, rfl⟩ := Option.isSome_iff_exists.mp hb
  exact (if_neg (by simp [h])).trans (if_pos hl)
theorem tblWrite_writes {s : State} (h : groupOn s 5 = true) (hl : tdiLocked s (selFunc s) = false) (b o : Nat) (bs : List Byte) :
    tblWrite s (some b) true o bs = .next (performBytes s none none {} (b + o) bs false (storeCause none)) :=
  (if_neg (by simp [h])).trans ((if_neg (by simp [hl])).trans (if_pos rfl))
theorem exec_tblgoPeer {s : State} (h : selTable s = 0) : exec .tblgoPeer s =
    tblWrite s (s.func (selFunc s)).peerBase (decide (selIndex s ≤ 1023)) (8 * selIndex s) (leBytes 8 s.sec.tbldat0.toNat) :=
  if_neg (by simp [h])
theorem exec_tblgoWindow {s : State} (h : selTable s = 1) : exec .tblgoWindow s =
    tblWrite s (s.func (selFunc s)).winBase true (16 * selIndex s) (leBytes 8 s.sec.tbldat0.toNat ++ leBytes 8 s.sec.tbldat1.toNat) :=
  if_neg (by simp [h])
theorem exec_tblgoRouting {s : State} (h : selTable s = 2) : exec .tblgoRouting s =
    tblWrite s (s.func (selFunc s)).routeBase (decide (selIndex s ≤ 1023)) (8 * selIndex s) (leBytes 8 s.sec.tbldat0.toNat) :=
  if_neg (by simp [h])

end Machine

open Machine in
/-- Settles O58: the writes page by page, the reads from what they leave, and the table port from the bytes that are put. -/
theorem registerEvents : Obligations.RegisterEvents := by
  unfold Obligations.RegisterEvents
  refine ⟨fun s func inbound value hf => ?doorbell, fun s link func off size value stream hlt h => ⟨_, exec_registerWrite_unreached hlt h, rfl⟩,
    fun s link func off value stream h hrec h8 => ?pages, fun s link func size o value stream => ⟨_, exec_registerWrite_config .., rfl⟩,
    fun s func i value hi ht hrec hf => ?msix, fun s link func off value stream h hrec ht => ?held, fun s func off h => readWord_zero h,
    fun s link func off value stream h hrec hlt => ⟨_, exec_registerWrite_recovery h hrec hlt, rfl⟩, fun s x v h => writeExpert_closed h x v,
    fun s i value hon hi hl => ?slfab, fun s hsel hon b hb hidx hl => ?peer, fun s hsel hon b hb hf hlt hidx hl => ?peerRead,
    fun s hon => ⟨fun hsel hb => ?peerNone, fun hsel hb => ?windowNone, fun hsel hb => ?routeNone⟩,
    fun s hon hl => ⟨fun hsel hb => ?peerLocked, fun hsel hb => ?windowLocked, fun hsel hb => ?routeLocked⟩,
    fun s hsel hon b hb hl => ?window, fun s hsel hon b hb hidx hl => ?route, fun s i hsel hi hoff => ?closed⟩
  case doorbell =>
    refine ⟨_, if_neg (by simpa using Option.isSome_iff_ne_none.mp hf), ?_⟩
    cases inbound with
    | true =>
      have hself : ((ring (putMailbox s func 0x7FC (leBytes 4 value.toNat)) func true value).func func).mailIn = (s.func func).mailIn ++ [value] := by
        unfold ring
        rw [if_pos rfl, State.modFunc_func, if_pos rfl, putMailbox_func]
      exact hself
    | false =>
      have hself : (postMail (putMailbox s func 0xFFC (leBytes 4 value.toNat)) func value).func func =
          ({ (putMailbox s func 0xFFC (leBytes 4 value.toNat)).func func with
            mailOut := ((putMailbox s func 0xFFC (leBytes 4 value.toNat)).func func).mailOut ++ [value] } : Func).signal 0 := by
        unfold postMail
        rw [State.modFunc_func, if_pos rfl]
      have hheard := mail_heard ((putMailbox s func 0xFFC (leBytes 4 value.toNat)).func func) value
      rw [← hself, putMailbox_func] at hheard
      exact hheard
  case pages =>
    intro write
    refine ⟨fun hlt => ?_, ?_, ?_, ?_, ?_, ?_, ?_, fun hlo hout hhi => ?_, ?_, ?_⟩
    · rw [exec_registerWrite_word h hrec h8 (by omega), if_pos hlt]
      rfl
    · rintro rfl
      exact exec_registerWrite_trace (o := 0) h hrec (by omega) (by omega)
    · rintro rfl
      exact exec_registerWrite_trace (o := 8) h hrec (by omega) (by omega)
    · rintro rfl
      exact exec_registerWrite_trace (o := 0x18) h hrec (by omega) (by omega)
    · rintro rfl
      refine ⟨_, exec_registerWrite_trace (o := 0x20) h hrec (by omega) (by omega), ?_⟩
      dsimp only
      rw [State.modFunc_func, if_pos rfl]
    · rintro rfl
      refine ⟨_, exec_registerWrite_trace (o := 0x28) h hrec (by omega) (by omega), ?_⟩
      dsimp only
      rw [State.modFunc_func, if_pos rfl]
    · rintro rfl
      refine ⟨_, exec_registerWrite_trace (o := 0x30) h hrec (by omega) (by omega), ?_⟩
      dsimp only
      rw [State.modFunc_func, if_pos rfl]
    · refine ⟨_, ?_, rfl⟩
      rw [exec_registerWrite_word h hrec h8 (by omega), if_neg (by omega), if_neg (by omega), if_neg (by omega), if_neg (by omega)]
    · rintro i hi rfl
      refine ⟨_, ?_, rfl⟩
      rw [exec_registerWrite_word h hrec h8 (by omega), if_neg (by omega), if_neg (by omega), if_pos (by omega),
        show (0xE000 + 8 * i - 0xE000) / 8 = i by omega]
    · rintro x rfl
      exact exec_registerWrite_expert h hrec h8
  case msix =>
    obtain ⟨htdi, htab⟩ := writeMsix_func s func i value
    have ht' : ((writeMsix s func i value).func func).tdi ≠ .error := by rwa [htdi]
    rw [readWord_live ht' hrec (.inr (by omega)), if_neg (by omega), if_neg (by omega), if_neg (by omega), if_neg (by omega), if_pos (by omega),
      show (0xE000 + 8 * i - 0xE000) / 8 = i by omega]
    unfold Func.msixWord
    rw [htab, Tbl.getD_put, if_pos rfl]
  case held =>
    intro held
    refine ⟨?_, ?_⟩
    · rintro rfl
      refine ⟨_, exec_registerWrite_trace (o := 0x28) h hrec (by omega) (by omega), ?_⟩
      have hself := State.modFunc_func s func func fun f => { f with trace := { f.trace with dies := value } }
      rw [if_pos rfl] at hself
      have ht' := (congrArg Func.tdi hself).trans_ne ht
      change readWord (s.modFunc func fun f => { f with trace := { f.trace with dies := value } }) func 0x8028 = value
      refine (readWord_live ht' hrec (.inl (by omega))).trans ?_
      change ((State.func _ _).trace).dies = _
      rw [hself]
    · rintro (rfl | rfl) hon
      · refine ⟨_, (exec_registerWrite_expert (x := 0x5048) h hrec (by omega)).trans (writeExpert_tbldat0 hon value), ?_⟩
        exact (readWord_live (by exact ht) (by exact hrec) (.inr (by omega))).trans (if_pos hon)
      · refine ⟨_, (exec_registerWrite_expert (x := 0x5050) h hrec (by omega)).trans (writeExpert_tbldat1 hon value), ?_⟩
        exact (readWord_live (by exact ht) (by exact hrec) (.inr (by omega))).trans (if_pos hon)
  case slfab =>
    intro v
    rw [writeExpert_slfab hon hi]
    unfold writeSlfab
    refine congrArg _ (if_congr ?_ rfl rfl)
    have hz : ∀ {n : Nat} (x : BitVec n), x.toNat = 0 ↔ x = 0 := fun x => ⟨fun h => BitVec.eq_of_toNat_eq h, fun h => h ▸ rfl⟩
    simp only [Bool.or_eq_true, beq_iff_eq, decide_eq_true_eq, hz, hl, List.isEmpty_nil, Bool.not_true, Bool.false_eq_true, or_false, or_assoc, v]
  case peer => exact ⟨_, by rw [exec_tblgoPeer hsel, hb, decide_eq_true hidx, tblWrite_writes hon hl], rfl⟩
  case peerRead =>
    refine ⟨_, by rw [exec_tblgoPeer hsel, hb, decide_eq_true hidx, tblWrite_writes hon hl], fun i hi => ?_⟩
    refine ((performBytes_spec hf none none {} (b + 8 * selIndex s) _ false _).2 _).trans ?_
    rw [if_pos (by rw [length_leBytes]; omega), Nat.add_sub_cancel_left]
    exact getD_leBytes _ hi
  case peerNone => exact ⟨_, by rw [exec_tblgoPeer hsel, hb, tblWrite_none hon], rfl⟩
  case windowNone => exact ⟨_, by rw [exec_tblgoWindow hsel, hb, tblWrite_none hon], rfl⟩
  case routeNone => exact ⟨_, by rw [exec_tblgoRouting hsel, hb, tblWrite_none hon], rfl⟩
  case peerLocked => exact ⟨_, by rw [exec_tblgoPeer hsel, tblWrite_locked hon hl hb], rfl⟩
  case windowLocked => exact ⟨_, by rw [exec_tblgoWindow hsel, tblWrite_locked hon hl hb], rfl⟩
  case routeLocked => exact ⟨_, by rw [exec_tblgoRouting hsel, tblWrite_locked hon hl hb], rfl⟩
  case window => exact ⟨_, by rw [exec_tblgoWindow hsel, hb, tblWrite_writes hon hl], rfl⟩
  case route => exact ⟨_, by rw [exec_tblgoRouting hsel, hb, decide_eq_true hidx, tblWrite_writes hon hl], rfl⟩
  case closed =>
    subst hi
    refine ⟨s, ?_, rfl⟩
    obtain hsel | hsel | hsel := hsel
    · rw [if_pos hsel, exec_tblgoPeer hsel, tblWrite_closed hoff]
    · rw [if_neg (by omega), if_pos hsel, exec_tblgoWindow hsel, tblWrite_closed hoff]
    · rw [if_neg (by omega), if_neg (by omega), exec_tblgoRouting hsel, tblWrite_closed hoff]

end Sys2Proof
end

section
/-! PROOF. Halts, resumes, world switches, teardown, trap entry and state errors (O54). -/
namespace Sys2Proof
namespace Machine

/-! A halt begins. -/

/-- The halt of a team. -/
def HaltOf (tid : Nat) (h : Halt) (s : State) : Prop := (s.team? tid).map Team.halt = some h
section
variable {tid : Nat} {h : Halt} {s t : State}

theorem HaltOf.same (hs : HaltOf tid h s) (e : t.teams = s.teams) : HaltOf tid h t := by
  unfold HaltOf State.team? at *
  rwa [e]
theorem HaltOf.modTeam (hs : HaltOf tid h s) (k : Nat) {g : Team → Team} (hg : ∀ x, (g x).halt = x.halt) : HaltOf tid h (s.modTeam k g) := by
  unfold HaltOf at *
  rw [State.modTeam_team?]
  split
  · next e =>
    subst e
    rw [Option.map_map, ← hs]
    exact congrArg (Option.map · _) (funext hg)
  · exact hs
/-- Semaphores that an aborted region gives back. -/
theorem haltOf_settleAbort (hs : HaltOf tid h s) (key : Nat) : HaltOf tid h (settleAbort s key) := by
  unfold settleAbort
  split
  · exact hs
  · split
    · exact hs
    · split
      · exact hs
      · next r _ =>
        refine HaltOf.modTeam (hs.same (by rfl)) _ fun x => ?_
        refine foldl_keeps (fun y : Team => y.halt = x.halt) _ (fun y p hy => ?_) r.sems x rfl
        exact (semAdd_halt ..).trans hy
theorem haltOf_abortRegion (hs : HaltOf tid h s) (key : Nat) (why : BitVec 8) (sent : Nat) : HaltOf tid h (abortRegion s key why sent) := by
  unfold abortRegion
  split
  · exact hs
  · split
    · exact hs
    · next r _ =>
      obtain ⟨fs, fb, tm, _, e⟩ := emitCrewA_touches s key 0x10 why (pcBits r.cp.pc) sent
      rw [e]
      exact haltOf_settleAbort (hs.same (by rfl)) key
/-- A crew that stops. -/
theorem haltOf_haltCrew (hs : HaltOf tid h s) (key : Nat) (why : HaltWhy) (sent : Nat) : HaltOf tid h (haltCrew s key why sent) := by
  unfold haltCrew
  split
  · exact hs
  · split
    · exact hs
    · next c _ _ =>
      have hback : HaltOf tid h (if c.pending.isSome then s else rollback (abortRegion s key (why.code + 1) sent) key 6 0 sent) := by
        split
        · exact hs
        · obtain ⟨_, _, _, _, _, _, e⟩ := rollback_touches (abortRegion s key (why.code + 1) sent) key 6 0 sent
          rw [e]
          exact (haltOf_abortRegion hs key (why.code + 1) sent).same (by rfl)
      revert hback
      generalize (if c.pending.isSome then s else rollback (abortRegion s key (why.code + 1) sent) key 6 0 sent) = u
      intro hback
      dsimp only
      split
      · next c' _ =>
        obtain ⟨_, _, e1⟩ := stallOver_touches (u.modCrew key _) key c'
        obtain ⟨_, _, _, _, e2⟩ := emitCrewA_touches (stallOver (u.modCrew key _) key c').1 key 0x04 why.code (pcBits c'.pc) sent
        rw [e2, e1]
        exact hback.same (by rfl)
      · exact hback.same (by rfl)
/-- A running team is halting once its halt has begun. -/
theorem haltOf_haltTeam {x : Team} (ht : s.team? tid = some x) (hrun : x.halt = .running) (why : HaltWhy) :
    HaltOf tid (.halting why) (haltTeam s tid why) := by
  unfold haltTeam
  rw [ht]
  dsimp only
  rw [if_neg (not_not.mpr hrun)]
  refine foldl_keeps (HaltOf tid (.halting why)) _ (fun y k hy => haltOf_haltCrew hy k why _) _ _ ?_
  unfold HaltOf
  rw [State.modTeam_team?, if_pos rfl]
  change Option.map _ (Option.map _ (s.team? tid)) = _
  rw [ht]
  rfl
end

/-! A halt ends. -/
theorem finishSwitch_idle {s : State} {slice : Nat} (h : (s.slice slice).switching = none) : finishSwitch s slice = s := by
  unfold finishSwitch
  rw [h]
theorem dropPool_touches (s : State) (core tid : Nat) : ∃ ks, dropPool s core tid = { s with cores := ks } := by
  unfold dropPool
  dsimp only
  split
  · exact ⟨s.cores, rfl⟩
  · exact ⟨_, rfl⟩
theorem haltDone_of_trapping {s : State} {key : Nat} {c : Crew} {t : Team} (hc : s.crew? key = some c) (htrap : c.trapping = true)
    (hin : key ∈ t.crews) : haltDone s t = false := by
  have hfail : (t.crews.all fun k => match s.crew? k with | some c => !c.trapping | none => true) = false :=
    List.all_eq_false.mpr ⟨key, hin, by rw [hc]; simp [htrap]⟩
  unfold haltDone
  rw [Bool.and_eq_false_iff]
  exact .inl hfail
theorem Crew.pending_of_trapping {c : Crew} (h : c.trapping = true) : c.pending.isSome = true := by
  unfold Crew.trapping at h
  simp only [Bool.and_eq_true] at h
  exact h.1.1.1.1

theorem exec_trapEntry {s : State} {key : Nat} {c : Crew} {t : Team} (hc : s.crew? key = some c) (hp : c.pending.isSome = true)
    (ht : s.team? c.team = some t) : exec (.trapEntry key) s = match t.halt with
      | .running => .next (enterTrap s key)
      | .halting why => if c.trapping then .next (haltRecord (enterTrap s key) key why) else disabled
      | .halted _ => disabled := by
  obtain ⟨p, hp⟩ := Option.isSome_iff_exists.mp hp
  change execTrapEntry key s = _
  unfold execTrapEntry
  rw [hc]
  dsimp only
  simp only [hp, ht] <;> cases t.halt <;> rfl

/-! A quantum ends. -/
/-- The functions that are bound to a slice and enabled. -/
def boundTo (s : State) (slice : Nat) : List Nat := (s.funcs.filter fun p => p.2.slice == slice && p.2.enabled).map (·.1)
theorem exec_quantumExpiry_idle {s : State} {slice : Nat} (hsw : (s.slice slice).switching = none) (hm : merging s slice = false)
    (hrun : (s.slice slice).running = none) : exec (.quantumExpiry slice) s =
      match (boundTo s slice).find? (hasWork s slice) with
      | some g => .next (runFunc s slice g)
      | none => .next s := by
  change execQuantumExpiry slice s = _
  unfold execQuantumExpiry
  dsimp only
  rw [if_neg (by simp [hsw, hm]), hrun]
  rfl
theorem exec_quantumExpiry_busy {s : State} {slice f : Nat} (hsw : (s.slice slice).switching = none) (hm : merging s slice = false)
    (hrun : (s.slice slice).running = some f) (hdue : (s.slice slice).since + (s.func f).quantum * 16000 ≤ s.time.master)
    (hhalts : ∀ p ∈ teamsOfFunc s slice f, ∀ w, p.2.halt ≠ .halting w) : exec (.quantumExpiry slice) s =
      match (((boundTo s slice).filter fun g => decide (f < g)) ++ (boundTo s slice).filter fun g => decide (g < f)).find? (hasWork s slice) with
      | none => .next (s.modSlice slice fun x => { x with since := s.time.master })
      | some g => .next (finishSwitch ((teamsOfFunc s slice f).foldl (fun s p => haltTeam s p.1 .preempt)
          (s.modSlice slice fun x => { x with switching := some g })) slice) := by
  have hnone : ((teamsOfFunc s slice f).any fun p => match p.2.halt with | .halting _ => true | _ => false) = false :=
    List.any_eq_false.mpr fun p hp => by
      cases hh : p.2.halt with
      | halting w => exact absurd hh (hhalts p hp w)
      | running => simp
      | halted w => simp
  change execQuantumExpiry slice s = _
  unfold execQuantumExpiry
  dsimp only
  rw [if_neg (by simp [hsw, hm]), hrun]
  dsimp only
  refine (if_neg (Nat.not_lt.mpr hdue)).trans ((if_neg (Bool.eq_false_iff.mp hnone)).trans ?_)
  rfl

/-! A fetch that fails, and a word that is not an instruction. -/
/-- The crew that an instruction without a vector result finds when it may issue is the one of the move, at its program counter, in its team. -/
theorem mayIssue_pc {s s1 : State} {need : Crew → Team → Need} {c : Crew} {t : Team} (h : mayIssue s need = some (s1, c, t))
    (hw : ∀ c t, (need c t).writes = []) : ∃ c0, s.crew? s.cur = some c0 ∧ s.team? c0.team = some t ∧ c.pc = c0.pc := by
  unfold mayIssue at h
  split at h
  · cases h
  · next c0 hc =>
    split at h
    · cases h
    · next t0 ht =>
      dsimp only at h
      split at h
      · cases h
      · rw [hw] at h
        dsimp only [shadowRegs] at h
        split at h
        · cases h
        · cases h
          exact ⟨c0, hc, ht, by rw [endStall_crew]⟩
/-- A word that is not an instruction waits for nothing. -/
theorem hazard_illegal (s : State) (key : Nat) (c : Crew) (w : Word) : hazard s key c { word := w, ok := false } = false := by
  simp [hazard, requestsFull]

end Machine

open Machine in
/-- Settles O54: each event by its own branches, once it is known that a halt keeps its team halting while its crews stop. -/
theorem haltEvents : Obligations.HaltEvents := by
  unfold Obligations.HaltEvents
  refine ⟨fun s tid t why ht hrun => ?begins, fun s team t ht hret => ?request, fun s team t w ht hh hdone hsw => ?complete,
    fun s team t x r ht hx hserves hinv hhead hr => ?resume, fun s slice hsw hm hrun => ⟨fun g hg => ?startsOne, fun hnone => ?startsNone⟩,
    fun s slice f hsw hm hrun hdue hhalts hidle => ?renews, fun s slice f g hsw hm hrun hdue hhalts => ?switches, fun s ctx hx => ?teardown,
    fun s crew c t hc hp ht hrun => ?enters, fun s crew c t why hc htrap ht hh hin => haltDone_of_trapping hc htrap hin,
    fun s crew c t why hc htrap ht hh => ?entersHalting, fun s crew cause c t hc ht h1 h3 => ?stateError, fun s a ha hb => ?scrubHbm,
    fun s a ha => ?scrubFlat, fun s a => ⟨_, rfl, rfl⟩, fun s core line word hl hw => ?scrubL1, fun s team tile elem t ht htile helem => ?scrubTile,
    fun s s1 c t cause detail hr hf hc hs => ?fetch, fun w s c t hc ht hb hstart htrace hs hstall hsum hcalm => ?illegal⟩
  case begins => exact Option.map_eq_some_iff.mp (haltOf_haltTeam ht hrun why)
  case request =>
    refine ⟨_, ?_, rfl⟩
    change execHaltRequest team s = _
    unfold execHaltRequest
    rw [ht]
    exact if_neg (by simp [hret])
  case complete =>
    let u := s.modTeam team fun t => { t with halt := .halted w, relaunch := if t.due then some s.nextId else t.relaunch, due := false }
    let v : State := { u with nextId := u.nextId + 1, svc := { u.svc with events := u.svc.events ++ [(5, team, 0, 0)] } }
    obtain ⟨ks, e⟩ := dropPool_touches v t.core team
    have hexec : exec (.haltComplete team) s = .next (dropPool v t.core team) := by
      have hrest : (match Tbl.get? (dropPool v t.core team).ctxs t.ctx with
          | some x => finishSwitch (dropPool v t.core team) x.slice | none => dropPool v t.core team) = dropPool v t.core team := by
        split
        · next x hx =>
          rw [e] at hx ⊢
          exact finishSwitch_idle (hsw x hx)
        · rfl
      change execHaltComplete team s = _
      unfold execHaltComplete
      rw [ht]
      dsimp only
      rw [hh]
      exact (if_pos hdone).trans (congrArg _ hrest)
    refine ⟨_, hexec, ?_, by rw [e]; rfl⟩
    rw [e]
    exact (State.modTeam_team? s team team _).trans (by rw [if_pos rfl, ht]; rfl)
  case resume =>
    refine ⟨r, ?_, rfl⟩
    change execResume team s = _
    unfold execResume
    rw [ht]
    dsimp only
    rw [hx]
    dsimp only
    refine (if_neg ?_).trans (by rw [hr])
    simp only [Bool.or_eq_true, Bool.and_eq_true, not_or, not_and, hserves, Bool.not_true, Bool.false_eq_true, not_false_eq_true, true_and,
      beq_iff_eq, bne_iff_ne, ne_eq, not_not, List.any_eq_true, List.contains_iff_mem, not_exists]
    exact ⟨fun hh p hp => hinv hh p hp, hhead⟩
  case startsOne =>
    refine ⟨_, (exec_quantumExpiry_idle hsw hm hrun).trans ?_, running_runFunc s slice g⟩
    rw [show (boundTo s slice).find? (hasWork s slice) = some g from hg]
  case startsNone =>
    refine ⟨_, (exec_quantumExpiry_idle hsw hm hrun).trans ?_, rfl⟩
    rw [show (boundTo s slice).find? (hasWork s slice) = none from hnone]
  case renews =>
    refine ⟨_, (exec_quantumExpiry_busy hsw hm hrun hdue hhalts).trans ?_, rfl⟩
    rw [List.find?_eq_none.mpr fun g _ => by simp [hidle g]]
  case switches =>
    intro bound hg
    refine ⟨_, (exec_quantumExpiry_busy hsw hm hrun hdue hhalts).trans ?_, rfl⟩
    change (match ((bound.filter fun g => decide (f < g)) ++ bound.filter fun g => decide (g < f)).find? (hasWork s slice) with
      | none => _ | some _ => _) = _
    rw [hg]
  case teardown =>
    refine ⟨_, if_pos hx, ?_⟩
    obtain ⟨x, hx⟩ := Option.isSome_iff_exists.mp hx
    unfold teardownCtx
    rw [hx]
    exact Tbl.get?_del_self ..
  case enters =>
    refine ⟨_, (exec_trapEntry hc hp ht).trans ?_, rfl⟩
    rw [hrun]
  case entersHalting =>
    refine ⟨_, (exec_trapEntry hc (Crew.pending_of_trapping htrap) ht).trans ?_, rfl⟩
    rw [hh]
    exact if_pos htrap
  case stateError =>
    refine ⟨_, ?_, rfl⟩
    change execUncorrectableStateError crew cause s = _
    unfold execUncorrectableStateError
    rw [hc]
    dsimp only
    rw [ht]
    exact if_pos ⟨h1, h3⟩
  case scrubHbm => exact ⟨_, (if_pos ha).trans (if_pos hb), mem_setAdd.mpr (.inl rfl)⟩
  case scrubFlat => exact ⟨_, if_neg (by simp [ha]), rfl⟩
  case scrubL1 =>
    obtain ⟨e, he⟩ := Option.isSome_iff_exists.mp hl
    refine ⟨_, if_pos (by simp [hl, hw]), e, { e with pois := setAdd e.pois word }, he, ?_, rfl⟩
    unfold l1Line at *
    rw [State.modCore_core, if_pos rfl]
    dsimp only
    rw [Tbl.get?_upd, if_pos rfl, he]
    rfl
  case scrubTile =>
    refine ⟨_, ?_, rfl⟩
    change execScrubSector (.tile team tile elem) s = _
    unfold execScrubSector
    dsimp only
    rw [ht]
    exact if_pos ⟨htile, helem⟩
  case fetch =>
    obtain ⟨c0, hc0, ht0, hpc⟩ := mayIssue_pc hr fun _ _ => rfl
    have hteam : teamOfCrew s s.cur = some t := by
      unfold teamOfCrew
      rw [hc0]
      exact ht0
    have hbody : trapAt s1 s1.cur c 0 .fetch cause (c.pc.setWidth 64) 0 detail =
        raise s1 s1.cur { kind := .fetch, cause := cause, resume := c.pc, fault := c.pc, addr := c.pc.setWidth 64, detail := detail } :=
      trapOrStop_raises hc hs _
    refine ⟨_, ?_, rfl⟩
    change execInstructionFetchFault cause c.pc detail s = _
    unfold execInstructionFetchFault
    rw [hc0, hteam]
    dsimp only
    rw [if_pos ⟨hpc, hpc ▸ hf⟩]
    refine (issue_next hr ?_).trans (congrArg _ hbody)
    rw [hbody]
    exact solid_raise calm_solid (mayIssue_unstarved hr) ..
  case illegal =>
    have hstay := endStall_unstalled (s := s) (key := s.cur) hstall hsum
    have hraise := trapOrStop_raises hc hs { kind := .illegal, resume := c.pc, fault := c.pc, word := w }
    refine ⟨_, ?_, rfl⟩
    change issue s (fun _ _ => { word := w, ok := false }) (fun s _ _ => s) = _
    rw [issue_of_unhindered hc ht hb hstart htrace (hazard_illegal ..), hstay, issueNow_of_firstFail (firstFail_illegal rfl), hraise]
    have hstill : Calm (raise s s.cur { kind := .illegal, resume := c.pc, fault := c.pc, word := w }) := solid_raise calm_solid hcalm ..
    unfold orStall
    exact congrArg _ (if_neg (Bool.eq_false_iff.mp hstill))

end Sys2Proof
end

section
/-! PROOF. The dispatcher (O52): what heat and page requests leave alone, the end of an entry that fails, placing, compaction and the heat sweep. -/
namespace Sys2Proof

namespace Machine

/-- The bytes of the value of bytes. -/
theorem leBytes_leVal (bs : List Byte) : leBytes bs.length (leVal bs) = bs := by
  induction bs with
  | nil => rfl
  | cons b t ih =>
    have hb := b.isLt
    have hlow : BitVec.ofNat 8 (b.toNat + 256 * leVal t) = b := by
      apply BitVec.eq_of_toNat_eq
      simp only [BitVec.toNat_ofNat]
      omega
    have hhigh : (b.toNat + 256 * leVal t) / 256 = leVal t := by omega
    simp only [List.length_cons, leBytes, leVal, hlow, hhigh, ih]

/-- The value of bytes is within their width. -/
theorem leVal_lt (bs : List Byte) : leVal bs < 256 ^ bs.length := by
  induction bs with
  | nil => exact Nat.one_pos
  | cons b t ih =>
    have hb := b.isLt
    rw [List.length_cons, pow_succ]
    simp only [leVal]
    omega

/-! What bytes that are written leave of the dispatcher's tables. -/

/-- The contexts, entries, slices, forwarding entries and the service state are as before. -/
structure Shelved (s t : State) : Prop where
  ctxs : t.ctxs = s.ctxs
  entries : t.entries = s.entries
  slices : t.slices = s.slices
  forwards : t.forwards = s.forwards
  svc : t.svc = s.svc
theorem Shelved.refl (s : State) : Shelved s s := ⟨rfl, rfl, rfl, rfl, rfl⟩
theorem Shelved.trans {s t r : State} (h : Shelved s t) (g : Shelved t r) : Shelved s r :=
  ⟨g.ctxs.trans h.ctxs, g.entries.trans h.entries, g.slices.trans h.slices, g.forwards.trans h.forwards, g.svc.trans h.svc⟩
theorem shelved_lineMove {s t : State} (h : LineMove s t) : Shelved s t := by
  obtain ⟨_, _, _, _, _, _, _, _, _, _, rfl⟩ := h
  exact ⟨rfl, rfl, rfl, rfl, rfl⟩
theorem shelved_putList (cached : Bool) (s : State) (a : Nat) (bs : List Byte) : Shelved s (putList cached s a bs) := by
  obtain ⟨_, _, e⟩ := putList_touches cached s a bs
  rw [e]
  exact ⟨rfl, rfl, rfl, rfl, rfl⟩
theorem shelved_rekey (key : Nat) (s : State) (sec : Nat) : Shelved s (rekey key s sec) := by
  obtain ⟨_, _, _, e⟩ := rekey_touches key s sec
  rw [e]
  exact ⟨rfl, rfl, rfl, rfl, rfl⟩
theorem shelved_putBytes (key : Nat) (cached : Bool) (s : State) (a : Nat) (bs : List Byte) (bad : Bool) :
    Shelved s (putBytes key cached s a bs bad) := by
  have hspan : Shelved s (rekeySpan key s a bs.length) := by
    unfold rekeySpan
    split
    · exact .refl _
    · exact foldl_keeps (Shelved s) _ (fun x i hx => hx.trans (shelved_rekey ..)) _ s (.refl s)
  exact (hspan.trans (shelved_putList cached _ a bs)).trans ⟨rfl, rfl, rfl, rfl, rfl⟩
theorem shelved_performLine (s : State) (core writer : Option Nat) (p : Attr) (a : Nat) (bs : List Byte) (bad : Bool) (pick : Nat → Option Nat) :
    Shelved s (performLine s core writer p a bs bad pick) := by
  unfold performLine
  extract_lets a l s1 sent s2 s3
  have hmove : LineMove s s2 :=
    (lineMove_touch s p l).trans ((lineMove_recall _ core l).trans ((lineMove_time _ l).trans (lineMove_writeOwn _ core writer p l a bs bad)))
  have hput : Shelved s2 s3 := shelved_putBytes ..
  have hback : LineMove s3 (rollbackLine s3 writer l pick sent) := lineMove_rollback ..
  obtain ⟨_, _, _, _, _, _, _, _, e⟩ := evalMonitors_touches (rollbackLine s3 writer l pick sent) l
  exact (((shelved_lineMove hmove).trans hput).trans (shelved_lineMove hback)).trans (by rw [e]; exact ⟨rfl, rfl, rfl, rfl, rfl⟩)
theorem shelved_performBytes (s : State) (core writer : Option Nat) (p : Attr) (a : Nat) (bs : List Byte) (bad : Bool) (pick : Nat → Option Nat) :
    Shelved s (performBytes s core writer p a bs bad pick) := by
  unfold performBytes
  split
  · exact .refl s
  · exact foldl_keeps (Shelved s) _ (fun x i hx => hx.trans (shelved_performLine ..)) _ _ ⟨rfl, rfl, rfl, rfl, rfl⟩
theorem shelved_changeLeaf (s : State) (a : Nat) (f : DWord → DWord) : Shelved s (changeLeaf s a f) := by
  unfold changeLeaf
  dsimp only
  split
  · exact .refl s
  · exact shelved_performBytes ..
theorem shelved_heatLeaves (s : State) (ls : List (Nat × Bool × Bool)) : Shelved s (heatLeaves s ls) :=
  foldl_keeps (Shelved s) _ (fun _ _ hx => hx.trans (shelved_changeLeaf ..)) ls s (.refl s)

/-- A page request leaves the entries. -/
theorem entries_requestPage (s : State) (ctx page : Nat) (need : Bool × Bool) (team : Option Nat) :
    (requestPage s ctx page need team).entries = s.entries := by
  have hsend : ∀ (x : State) (c r : Nat), (trySend x c r).entries = x.entries := fun x c r => by
    unfold trySend
    split
    · rfl
    · split
      · rfl
      · split
        · rfl
        · split
          · rfl
          · dsimp only
            split
            · rfl
            · split <;> rfl
  unfold requestPage
  split
  · rfl
  · split
    · rfl
    · exact foldl_keeps (fun y : State => y.entries = s.entries) _ (fun y p hy => (hsend ..).trans hy) _ _ rfl

/-! Posted replies where there are none. -/
/-- No context has a posted reply. -/
def NonePosted (s : State) : Prop := ∀ k x, Tbl.get? s.ctxs k = some x → x.faults = []
theorem NonePosted.modCtx {s : State} (h : NonePosted s) (ctx : Nat) {g : Ctx → Ctx} (hg : ∀ x, x.faults = [] → (g x).faults = []) :
    NonePosted (s.modCtx ctx g) := by
  intro k x hx
  change Tbl.get? (Tbl.upd s.ctxs ctx g) k = some x at hx
  rw [Tbl.get?_upd] at hx
  split at hx
  · obtain ⟨y, hy, rfl⟩ := Option.map_eq_some_iff.mp hx
    exact hg y (h _ y hy)
  · exact h k x hx
theorem NonePosted.notePages {s : State} (h : NonePosted s) (ctx : Nat) (es : List Extent) : NonePosted (notePages s ctx es) :=
  h.modCtx ctx fun _ h => by exact h
theorem applyPosted_nothing {s : State} (h : NonePosted s) (ctx : Nat) :
    NonePosted (applyPosted s ctx) ∧ (applyPosted s ctx).entries = s.entries := by
  unfold applyPosted
  split
  · exact ⟨h, rfl⟩
  · next x hx =>
    dsimp only
    rw [h ctx x hx]
    exact ⟨h.modCtx ctx fun _ _ => rfl, rfl⟩
theorem entries_runFunc {s : State} (h : NonePosted s) (slice func : Nat) : (runFunc s slice func).entries = s.entries := by
  unfold runFunc
  split
  · rfl
  · let u := s.modSlice slice fun sl => { sl with running := some func, since := s.time.master }
    have hall : NonePosted (applyAllPosted u slice func) ∧ (applyAllPosted u slice func).entries = s.entries := by
      refine foldl_keeps (fun y : State => NonePosted y ∧ y.entries = s.entries) _ (fun y p hy => ?_) _ u ⟨h, rfl⟩
      obtain ⟨hnone, hent⟩ := applyPosted_nothing hy.1 p.1
      exact ⟨hnone, hent.trans hy.2⟩
    exact hall.2

/-! The steps before dispatch. -/
theorem exec_dispatchEntry {s : State} {ctx eid : Nat} {e : Entry} {x : Ctx} (hh : headEntry s ctx = some (eid, e))
    (hx : Tbl.get? s.ctxs ctx = some x) (hr : e.ready = false) : exec (.dispatchEntry ctx) s =
      if e.refused then .next ((failEntry (heatLeaves s (e.rec_.ranges.foldl (xlatRange s x) {}).leaves) eid 0x0009).modCtx e.ctx fun x => { x with ats := [] })
      else if !e.asked.isEmpty then disabled
      else if e.claimed then translateEntry s eid e x
      else match earlyStatus s x e.rec_ with
        | some st => .next (failEntry s eid st)
        | none =>
          match wideClaims s eid x.slice e.rec_ with
          | none => .next (failEntry s eid 0x0005)
          | some ks =>
            .next ({ s with wide := ks.foldl (fun w k => Tbl.put w k {}) s.wide }.modEntry eid fun e => { e with claimed := true }) := by
  change execDispatchEntry ctx s = _
  unfold execDispatchEntry
  rw [hh, hx]
  exact if_neg (by simp [hr])
theorem get?_foldl_put {α : Type} (v : α) (ks : List Nat) (t : Tbl α) {k : Nat} (h : k ∈ ks ∨ Tbl.get? t k = some v) :
    Tbl.get? (ks.foldl (fun w k => Tbl.put w k v) t) k = some v := by
  induction ks generalizing t with
  | nil => exact h.resolve_left List.not_mem_nil
  | cons j ks ih =>
    refine ih (Tbl.put t j v) ?_
    rw [Tbl.get?_put]
    obtain h | h := h
    · obtain rfl | h := List.mem_cons.mp h
      · exact .inr (if_pos rfl)
      · exact .inl h
    · right
      split
      · rfl
      · exact h
theorem State.modEntry_get? (s : State) (k : Nat) (f : Entry → Entry) (j : Nat) :
    Tbl.get? (s.modEntry k f).entries j = if j = k then (Tbl.get? s.entries k).map f else Tbl.get? s.entries j := Tbl.get?_upd ..

/-- An entry that no crew runs and whose end no engine holds up is gone once it fails (R344, R364). -/
theorem failEntry_gone {s : State} {eid : Nat} {e : Entry} (he : Tbl.get? s.entries eid = some e) (st : BitVec 16) (hnone : crewsOfEntry s eid = [])
    (hfree : ∀ x, Tbl.get? s.ctxs e.ctx = some x → frontHeld s x.slice = false) (hctx : (Tbl.get? s.ctxs e.ctx).isSome = true)
    (hown : ∀ va size a, walkAcc s e.ctx va size false true = .ok a → owner s s.nextOp a.pa size = none) :
    Tbl.get? (failEntry s eid st).entries eid = none := by
  let t := s.modEntry eid fun e => { e with st := .ending st 0 }
  have ht : Tbl.get? t.entries eid = some { e with st := .ending st 0 } := by
    unfold t
    rw [State.modEntry_get?, if_pos rfl, he]
    rfl
  obtain ⟨x, hx⟩ := Option.isSome_iff_exists.mp hctx
  have hwalk : ∀ va size, (match walkAcc t e.ctx va size false true with
      | .ok a => (owner t t.nextOp a.pa size).isSome | .error _ => false) = false := fun va size => by
    change (match walkAcc s e.ctx va size false true with | .ok a => (owner s s.nextOp a.pa size).isSome | .error _ => false) = false
    split
    · next a ha => rw [hown va size a ha]; rfl
    · rfl
  have howned : endOwned t { e with st := .ending st 0 } = false := by
    refine Bool.eq_false_iff.mpr fun h => ?_
    unfold endOwned at h
    simp only [Bool.or_eq_true, Bool.and_eq_true, List.any_eq_true] at h
    obtain ⟨-, h⟩ | ⟨-, v, -, h⟩ := h
    · exact Bool.false_ne_true ((hwalk ..).symm.trans h)
    · exact Bool.false_ne_true ((hwalk ..).symm.trans h)
  have hops : (t.ops.any fun p => (crewsOfEntry t eid).contains p.2.crew && !p.2.done) = false := by
    rw [show crewsOfEntry t eid = [] from hnone]
    simp
  have hgone : settleEntry t eid = completeEntry t eid st 0 := by
    unfold settleEntry
    rw [ht]
    dsimp only
    rw [howned, hops]
    refine (if_neg Bool.false_ne_true).trans (if_neg ?_)
    rw [show Tbl.get? t.ctxs e.ctx = some x from hx]
    exact Bool.eq_false_iff.mp (hfree x hx)
  change Tbl.get? (settleEntry t eid).entries eid = none
  rw [hgone]
  unfold completeEntry
  rw [ht]
  exact Tbl.get?_del_self ..

/-! Placing. -/
/-- The teams are as before while crews start. -/
theorem teams_beginCrew (s : State) (key : Nat) (c : Crew) : (beginCrew s key c).teams = s.teams := by
  have hend : (endStall s key c).1.teams = s.teams := by
    obtain ⟨_, _, _, _, _, e⟩ := endStall_touches s key c
    rw [e]
  have hemit : ∀ e a p, (emitS (endStall s key c).1 key e a p false 0).teams = s.teams := fun e a p => by
    obtain ⟨_, _, _, _, e'⟩ := emitS_touches (endStall s key c).1 key e a p false 0
    rw [e']
    exact hend
  unfold beginCrew
  split
  · rfl
  · unfold startCrew
    dsimp only
    exact (apply_ite State.teams ..).trans (ite_eq_iff'.mpr ⟨fun _ => rfl, fun _ => hemit ..⟩)
/-- The team that is placed on a core (R338). -/
theorem placeOn_team (s : State) (eid : Nat) (e : Entry) (core : Nat) (group : List Nat) :
    ∃ t, (placeOn s eid e core group).team? s.nextId = some t ∧ t.core = core ∧ t.entry = eid ∧ t.tidx = e.next ∧ t.width = e.rec_.width ∧
      t.nvreg = 16 * e.rec_.vregs := by
  unfold placeOn
  extract_lets r tid slots keys blocks t s1 s2 s3 s4
  have h1 : s1.team? s.nextId = some t := Tbl.get?_put_self ..
  have h2 : s2.teams = s1.teams := by
    refine foldl_keeps (fun x : State => x.teams = s1.teams) _ (fun x p hx => ?_) _ s1 rfl
    exact hx
  have h4 : s4.teams = s1.teams := by
    refine foldl_keeps (fun x : State => x.teams = s1.teams) _ (fun x k hx => ?_) keys s3 h2
    split
    · exact (teams_beginCrew ..).trans hx
    · exact hx
  refine ⟨t, ?_, rfl, rfl, rfl, rfl, rfl⟩
  change Tbl.get? s4.teams s.nextId = _
  rw [h4]
  exact h1

/-! Compaction. -/
theorem lowerPlace_le {used : List (Nat × Nat)} {b : Nat × Nat} {a : Nat} (h : lowerPlace used b = some a) : a ≤ b.1 := by
  obtain ⟨k, hk, rfl⟩ := List.mem_map.mp (List.mem_of_find?_eq_some h)
  exact (Nat.mul_le_mul_right _ (List.mem_range.mp hk).le).trans (Nat.div_mul_le_self ..)
/-- Blocks of a crew have moved down, and nothing else of the blocks has changed. -/
def Lowers (idx : Nat) (bs bs' : List (Nat × Nat × Nat)) : Prop :=
  List.Forall₂ (fun b b' => b'.1 = b.1 ∧ b'.2.2 = b.2.2 ∧ b'.2.1 ≤ b.2.1 ∧ (b.1 ≠ idx → b' = b)) bs bs'
theorem Lowers.refl (idx : Nat) (bs : List (Nat × Nat × Nat)) : Lowers idx bs bs := List.forall₂_same.mpr fun _ _ => ⟨rfl, rfl, le_rfl, fun _ => rfl⟩
theorem Lowers.move {idx a : Nat} {bs bs' : List (Nat × Nat × Nat)} (h : Lowers idx bs bs') {b : Nat × Nat × Nat} (hb : b.1 = idx) (ha : a ≤ b.2.1) :
    Lowers idx bs (bs'.map fun q => if q == b then (b.1, a, b.2.2) else q) := by
  refine List.forall₂_map_right_iff.mpr (h.imp fun p q ⟨hidx, hlen, hle, hsame⟩ => ?_)
  split
  · next e =>
    obtain rfl : q = b := by simpa using e
    exact ⟨hidx, hlen, ha.trans hle, fun hne => absurd (hidx.symm.trans hb) hne⟩
  · exact ⟨hidx, hlen, hle, hsame⟩
theorem Lowers.shape {idx : Nat} {bs bs' : List (Nat × Nat × Nat)} (h : Lowers idx bs bs') :
    (bs'.map fun b => (b.1, b.2.2)) = bs.map fun b => (b.1, b.2.2) := by
  induction h with
  | nil => rfl
  | cons hb _ ih =>
    obtain ⟨hidx, hlen, -, -⟩ := hb
    rw [List.map_cons, List.map_cons, hidx, hlen, ih]
theorem Lowers.get {idx i : Nat} {bs bs' : List (Nat × Nat × Nat)} {b b' : Nat × Nat × Nat} (h : Lowers idx bs bs') (hb : bs[i]? = some b)
    (hb' : bs'[i]? = some b') : b'.2.1 ≤ b.2.1 ∧ (b.1 ≠ idx → b' = b) := by
  obtain ⟨hi, rfl⟩ := List.getElem?_eq_some_iff.mp hb
  obtain ⟨hi', rfl⟩ := List.getElem?_eq_some_iff.mp hb'
  obtain ⟨-, -, hle, hsame⟩ := List.Forall₂.get h hi hi'
  exact ⟨hle, hsame⟩
theorem lowerCrew_team {s : State} {tid idx : Nat} {t : Team} (ht : s.team? tid = some t) :
    ∃ t', (lowerCrew s tid t idx).team? tid = some t' ∧ Lowers idx t.blocks t'.blocks := by
  unfold lowerCrew
  dsimp only
  refine List.foldlRecOn (motive := fun x => ∃ t', State.team? x tid = some t' ∧ Lowers idx t.blocks t'.blocks) _ _ ⟨t, ht, .refl ..⟩ fun x hx b hb => ?_
  obtain ⟨t', ht', hl⟩ := hx
  split
  · next a ha =>
    refine ⟨_, (State.modTeam_team? ..).trans (by rw [if_pos rfl, ht']; rfl), hl.move ?_ (lowerPlace_le ha)⟩
    simpa using (List.mem_filter.mp (mem_of_mem_sortKey hb)).2
  · exact ⟨t', ht', hl⟩
theorem compactStep_lowers {s s1 : State} {core tid idx : Nat} (h : compactStep s core = some (tid, idx, s1)) :
    ∃ t t', s.team? tid = some t ∧ s1.team? tid = some t' ∧ Lowers idx t.blocks t'.blocks := by
  obtain ⟨c, -, hc⟩ := List.exists_of_findSome?_eq_some h
  split at hc
  · next t ht =>
    dsimp only at hc
    split at hc
    · cases hc
    · cases hc
      obtain ⟨t', ht', hl⟩ := lowerCrew_team (idx := c.2) ht
      exact ⟨t, t', ht, ht', hl⟩
  · cases hc

/-! The heat sweep. -/
theorem readBytes_leaf {s : State} (hf : s.forwards = []) (a : Nat) (f : DWord → DWord) :
    readBytes (changeLeaf s a f) 0 a 8 = leBytes 8 (f (BitVec.ofNat 64 (leVal (readBytes s 0 a 8)))).toNat := by
  have hlen : (readBytes s 0 a 8).length = 8 := by simp [readBytes]
  have hsame : leBytes 8 (leVal (readBytes s 0 a 8)) = readBytes s 0 a 8 := by
    rw [← hlen]
    exact hlen ▸ leBytes_leVal _
  have hval : (BitVec.ofNat 64 (leVal (readBytes s 0 a 8))).toNat = leVal (readBytes s 0 a 8) :=
    Nat.mod_eq_of_lt ((leVal_lt _).trans_eq (by rw [hlen]; rfl))
  unfold changeLeaf
  extract_lets e
  split
  · next he => rw [he, hval, hsame]
  · refine List.ext_getElem (by simp [readBytes]) fun i hi hj => ?_
    have hin : i < 8 := by simpa [readBytes] using hi
    have hb := (performBytes_spec hf none none {} a (leBytes 8 (f e).toNat) false (storeCause none)).2 (a + i)
    rw [length_leBytes, if_pos ⟨Nat.le_add_right .., by omega⟩, Nat.add_sub_cancel_left] at hb
    simp only [readBytes, List.getElem_map, List.getElem_range]
    exact hb.trans (List.getD_eq_getElem _ _ hj)


/-! What the events of the dispatcher do. -/
section
variable {s : State} {ctx eid : Nat} {e : Entry} {x : Ctx} {r : Xlat} {img : List Extent}
theorem exec_dispatchEntry_asked (hh : headEntry s ctx = some (eid, e)) (hx : Tbl.get? s.ctxs ctx = some x) (hr : e.ready = false)
    (href : e.refused = false) (hask : e.asked = []) (hcl : e.claimed = true) : exec (.dispatchEntry ctx) s = translateEntry s eid e x := by
  rw [exec_dispatchEntry hh hx hr, if_neg (by simp [href]), if_neg (by simp [hask]), if_pos hcl]
theorem exec_dispatchEntry_claiming (hh : headEntry s ctx = some (eid, e)) (hx : Tbl.get? s.ctxs ctx = some x) (hr : e.ready = false)
    (href : e.refused = false) (hask : e.asked = []) (hcl : e.claimed = false) : exec (.dispatchEntry ctx) s =
      match earlyStatus s x e.rec_ with
        | some st => .next (failEntry s eid st)
        | none =>
          match wideClaims s eid x.slice e.rec_ with
          | none => .next (failEntry s eid 0x0005)
          | some ks =>
            .next ({ s with wide := ks.foldl (fun w k => Tbl.put w k {}) s.wide }.modEntry eid fun e => { e with claimed := true }) := by
  rw [exec_dispatchEntry hh hx hr, if_neg (by simp [href]), if_neg (by simp [hask]), if_neg (by simp [hcl])]
theorem translateEntry_eq (himg : xlatImage s x e.rec_ (e.rec_.ranges.foldl (xlatRange s x) {}) = (r, img)) (hask : r.ask = []) :
    translateEntry s eid e x = match r.err with
      | some st => .next ((failEntry (heatLeaves s r.leaves) eid st).modCtx e.ctx fun x => { x with ats := [] })
      | none =>
        if !r.absent.isEmpty then
          let here := fun (p : Nat) => e.rec_.ranges.filter fun d => decide (d.base / 65536 ≤ p ∧ p ≤ (d.base + d.len - 1) / 65536)
          .next ((r.absent.foldl (fun s p => requestPage s e.ctx p ((here p).any (·.r), (here p).any (·.w)) none) s).modEntry eid fun e =>
            { e with asked := r.absent.eraseDups })
        else .next (runFunc ((notePages ((heatLeaves s r.leaves).modEntry eid fun e => { e with extents := r.exts.reverse ++ img, ready := true })
          e.ctx (r.exts ++ img)).modCtx e.ctx fun x => { x with ats := [] }) x.slice x.func) := by
  unfold translateEntry
  rw [himg]
  dsimp only
  rw [hask]
  rfl
theorem exec_placeTeam {sl c : Nat} (hp : placing s ctx = some (eid, e, sl)) (hm : e.rec_.mirror = 0)
    (hc : (coreOrder s sl).find? (fits s e.rec_) = some c) :
    exec (.placeTeam ctx) s = .next ((placeOn s eid e c []).modSlice sl fun x => { x with cursor := some c, compact := none }) := by
  change execPlaceTeam ctx s = _
  unfold execPlaceTeam
  rw [hp]
  dsimp only
  rw [if_neg (not_not.mpr hm), hc]
theorem exec_placeMirrorGroup {sl : Nat} {cs : List Nat} (hp : placing s ctx = some (eid, e, sl)) (hm : e.rec_.mirror ≠ 0)
    (hc : groupCores s sl e.rec_.mirror (fits s e.rec_) = some cs) : exec (.placeMirrorGroup ctx) s = .next (placeGroup s eid sl cs) := by
  change execPlaceMirrorGroup ctx s = _
  unfold execPlaceMirrorGroup
  rw [hp]
  dsimp only
  rw [if_neg hm, hc]
end
theorem exec_compactorMove {s s1 : State} {core crew : Nat} {c : Crew} (hc : s.crew? crew = some c)
    (hstep : compactStep s core = some (c.team, c.idx, s1))
    (hwait : ∃ p ∈ s.slices, ∃ q, p.2.compact = some q ∧ q.1 = core ∧ waitsFor s q = true)
    (hspare : spentOf s 2 core + (match s.team? c.team with | some t => t.nvreg * t.width / 16 | none => 0) ≤
      ((budgetOf s (core / 32)).1.extractLsb' 16 16).toNat) :
    exec (.compactorMove core crew) s = .next (spend s1 2 core (match s.team? c.team with | some t => t.nvreg * t.width / 16 | none => 0)) := by
  obtain ⟨p, hp, q, hq, hcore, hw⟩ := hwait
  have hwanted : (s.slices.any fun p => match p.2.compact with | some q => q.1 == core && waitsFor s q | none => false) = true := by
    refine List.any_eq_true.mpr ⟨p, hp, ?_⟩
    rw [hq]
    simp [hcore, hw]
  change execCompactorMove core crew s = _
  unfold execCompactorMove
  rw [hc, hstep]
  refine if_neg fun h => ?_
  simp only [Bool.or_eq_true, Bool.not_eq_true', bne_self_eq_false, Bool.false_eq_true, or_false, decide_eq_true_eq] at h
  obtain h | h := h
  · exact Bool.false_ne_true (h.symm.trans hwanted)
  · exact absurd h (Nat.not_lt.mpr hspare)
/-- Both counters of a leaf count up to three and down to zero (R167, R168). -/
theorem heat_counts {a b : Nat} (ha : a < 4) (hb : b < 4) :
    heatUp 12 (BitVec.ofNat 64 (4096 * a + 16384 * b)) = BitVec.ofNat 64 (4096 * min 3 (a + 1) + 16384 * b) ∧
    heatDown 14 (BitVec.ofNat 64 (4096 * a + 16384 * b)) = BitVec.ofNat 64 (4096 * a + 16384 * (b - 1)) := by
  interval_cases a <;> interval_cases b <;> decide
/-- The state that a heat sweep leaves (R168). -/
def swept (s : State) (ctx die left : Nat) (ls : List Nat) : State :=
  spend (((ls.take left).foldl (fun s a => changeLeaf s a fun e => heatDown 14 (heatDown 12 e)) s).modCtx ctx fun x =>
    { x with swept := if (ls.take left).length < ls.length then x.swept + (ls.take left).length else 0 }) 4 die (ls.take left).length
theorem shelved_sweep (s : State) (ls : List Nat) : Shelved s (ls.foldl (fun s a => changeLeaf s a fun e => heatDown 14 (heatDown 12 e)) s) :=
  foldl_keeps (Shelved s) _ (fun _ _ hx => hx.trans (shelved_changeLeaf ..)) ls s (.refl s)
theorem spentOf_spend (s : State) (activity place n : Nat) : spentOf (spend s activity place n) activity place = spentOf s activity place + n :=
  (Tbl.getD_put ..).trans (if_pos rfl)
theorem spentOf_swept (s : State) (ctx die left : Nat) (ls : List Nat) :
    spentOf (swept s ctx die left ls) 4 die = spentOf s 4 die + min left ls.length := by
  unfold swept
  rw [spentOf_spend, List.length_take]
  exact congrArg (· + _) (congrArg (fun v : Service => Tbl.getD v.spent (4 * 65536 + die) 0) (shelved_sweep s (ls.take left)).svc)
theorem readBytes_swept {s : State} (hf : s.forwards = []) (ctx die : Nat) {left : Nat} (hleft : left ≠ 0) (a : Nat) :
    readBytes (swept s ctx die left [a]) 0 a 8 = leBytes 8 (heatDown 14 (heatDown 12 (BitVec.ofNat 64 (leVal (readBytes s 0 a 8))))).toNat := by
  have hone : [a].take left = [a] := List.take_of_length_le (Nat.one_le_iff_ne_zero.mpr hleft)
  unfold swept
  rw [hone]
  exact readBytes_leaf hf a fun e => heatDown 14 (heatDown 12 e)
theorem swept_ctx {s : State} {ctx : Nat} {x : Ctx} (hx : Tbl.get? s.ctxs ctx = some x) (die left : Nat) (ls : List Nat) :
    ∃ x', Tbl.get? (swept s ctx die left ls).ctxs ctx = some x' ∧ x'.swept = if left < ls.length then x.swept + left else 0 := by
  refine ⟨{ x with swept := if (ls.take left).length < ls.length then x.swept + (ls.take left).length else 0 },
    (Tbl.get?_upd ..).trans ((if_pos rfl).trans ?_), ?_⟩
  · rw [(shelved_sweep s (ls.take left)).ctxs, hx]
    rfl
  · dsimp only
    rw [List.length_take]
    by_cases h : left < ls.length
    · rw [min_eq_left h.le]
    · rw [if_neg h, if_neg (by omega)]

end Machine

open Machine in
/-- Settles O52: each event is the step that its guards choose; bytes that heat writes, page requests and starting crews leave the tables that
the clauses read, and a block only moves to a lower place. -/
theorem dispatchEvents : Obligations.DispatchEvents := by
  unfold Obligations.DispatchEvents
  refine ⟨fun s ctx eid e x hh hx hr => ⟨fun href => ?refused, fun href hask => ⟨fun st hcl hst => ?early, fun hst hcl hw => ?unclaimed,
      fun ks hst hcl hw => ?claims, fun hcl r img himg hnone => ⟨fun st herr => ?xlatError, fun herr habs he => ?absent, fun herr habs he hf => ?ready⟩⟩⟩,
    fun s eid e st he _ hnone hfree hctx hown => failEntry_gone he st hnone hfree hctx hown,
    fun s r x hok => if_pos (by simp [hok]),
    fun s ctx eid e sl c hp hm hc => ⟨_, exec_placeTeam hp hm hc, ?cursor, placeOn_team s eid e c []⟩,
    fun s ctx eid e sl cs hp hm hc => ⟨_, exec_placeMirrorGroup hp hm hc, rfl⟩,
    fun s core crew c tid idx s1 hc hstep hteam hidx hwait hspare => ?compact,
    fun s core tid idx s1 hstep => ?lowers, fun s ctx x hx => ?sweep, ?heat⟩
  case refused => exact ⟨_, (exec_dispatchEntry hh hx hr).trans (if_pos href), rfl⟩
  case early =>
    refine ⟨_, (exec_dispatchEntry_claiming hh hx hr href hask hcl).trans ?_, rfl⟩
    rw [hst]
  case unclaimed =>
    refine ⟨_, (exec_dispatchEntry_claiming hh hx hr href hask hcl).trans ?_, rfl⟩
    rw [hst]
    dsimp only
    rw [hw]
  case claims =>
    have hexec := exec_dispatchEntry_claiming hh hx hr href hask hcl
    rw [hst] at hexec
    dsimp only at hexec
    rw [hw] at hexec
    refine ⟨_, hexec, fun k hk => get?_foldl_put _ ks s.wide (.inl hk), fun e' he' => ?_⟩
    rw [State.modEntry_get?, if_pos rfl]
    exact congrArg (Option.map _) he'
  case xlatError =>
    refine ⟨_, (exec_dispatchEntry_asked hh hx hr href hask hcl).trans ((translateEntry_eq himg hnone).trans ?_), rfl⟩
    rw [herr]
  case absent =>
    have hexec := (exec_dispatchEntry_asked hh hx hr href hask hcl).trans (translateEntry_eq himg hnone)
    rw [herr] at hexec
    refine ⟨_, hexec.trans (if_pos (by simpa using habs)), ?_⟩
    dsimp only
    rw [State.modEntry_get?, if_pos rfl, foldl_keeps (fun y : State => y.entries = s.entries) _
      (fun y p hy => (entries_requestPage ..).trans hy) r.absent s rfl, he]
    rfl
  case ready =>
    have hheat := shelved_heatLeaves s r.leaves
    have hquiet : NonePosted (heatLeaves s r.leaves) := fun k y hy => hf _ (Tbl.mem_of_get? (hheat.ctxs ▸ hy))
    have hexec := (exec_dispatchEntry_asked hh hx hr href hask hcl).trans (translateEntry_eq himg hnone)
    rw [herr] at hexec
    refine ⟨_, hexec.trans (if_neg (by simp [habs])), ?_, running_runFunc ..⟩
    refine (congrArg (fun es => Tbl.get? es eid) (entries_runFunc ?_ x.slice x.func)).trans ?_
    · refine NonePosted.modCtx (NonePosted.notePages ?_ _ _) _ fun _ h => h
      exact hquiet
    change Tbl.get? ((heatLeaves s r.leaves).modEntry eid _).entries eid = _
    rw [State.modEntry_get?, if_pos rfl, hheat.entries, he]
    rfl
  case cursor => rw [State.modSlice_slice, if_pos rfl]
  case compact =>
    subst hteam hidx
    exact ⟨_, exec_compactorMove hc hstep hwait hspare, rfl⟩
  case lowers =>
    obtain ⟨t, t', ht, ht', hl⟩ := compactStep_lowers hstep
    exact ⟨t, t', ht, ht', hl.shape, fun i b b' hb hb' => hl.get hb hb'⟩
  case sweep =>
    intro left ls hleft
    refine ⟨swept s ctx (sliceDie s x.slice) left ls, ?_, spentOf_swept .., swept_ctx hx .., fun a hls hfwd => ?_⟩
    · change execHeatSweep ctx s = _
      unfold execHeatSweep
      rw [hx]
      exact if_neg hleft
    · rw [hls]
      exact readBytes_swept hfwd _ _ hleft a
  case heat => exact fun a ha b hb => heat_counts ha hb

end Sys2Proof
end

section
/-! PROOF. Slices, queues and admissions (O56). The statement stands or falls with a free value: an admission that claims its slot while the bulk
queue is full leaves the commands as they are only if no running command reads the owner word ahead of the write (R224, log entry 20). -/
namespace Sys2Proof
namespace Machine

/-! What the steps of a slice's changes set. -/
section
variable {s t : State}
theorem Steady.slice (h : Steady s.fixed t) (i : Nat) : t.slice i = s.slice i := by
  unfold State.slice
  rw [show t.slices = s.slices from congrArg Fixed.slices h.fixed]
theorem steady_emptyGroups (s : State) (gs : List Nat) : Steady s.fixed (emptyGroups s gs) :=
  foldl_keeps (Steady s.fixed) _ (fun _ e hx => steady_evictL2 hx e.line) _ s (steady_self s)
theorem fixL2c_slice (s : State) (i : Nat) : ∃ l, (fixL2c s i).slice i = { s.slice i with l2cstat := l } :=
  ⟨_, (State.modSlice_slice ..).trans (if_pos rfl)⟩
theorem fixL2c_slice_ne (s : State) {i j : Nat} (h : j ≠ i) : (fixL2c s i).slice j = s.slice j := (State.modSlice_slice ..).trans (if_neg h)
theorem takeGroups_slice (s : State) (i : Nat) (gs : List Nat) :
    (∃ l tk, (takeGroups s i gs).slice i = { s.slice i with l2cstat := l, taken := tk }) ∧ (takeGroups s i gs).svc = s.svc := by
  unfold takeGroups
  extract_lets u left
  have hu : Steady s.fixed u := foldl_keeps (Steady s.fixed) _ (fun _ e hx => steady_evictL2 hx e.line) _ s (steady_self s)
  refine ⟨?_, congrArg Fixed.svc hu.fixed⟩
  obtain ⟨l, hl⟩ := fixL2c_slice (u.modSlice i fun x => { x with taken := (x.taken.filter fun g => !gs.contains g) ++ left }) i
  exact ⟨l, _, hl.trans (by rw [State.modSlice_slice, if_pos rfl, hu.slice])⟩
theorem capChange_slice (s : State) (i : Nat) : (capChange s).slice i = s.slice i := rfl
theorem capChange_capGen (s : State) : (capChange s).svc.capGen = s.svc.capGen + 1 := rfl
theorem startShrink_slice (s : State) (i op : Nat) (cs : Tbl DWord) (m : DWord) (split : Option Nat) :
    ∃ l st, (startShrink s i op cs m split).slice i =
      { s.slice i with l2cstat := l, stat := st, leaving := lostParts s i (rangesOf cs) m, target := some (cs, m), splitTo := split } := by
  unfold startShrink
  obtain ⟨l, hl⟩ := fixL2c_slice (s.modSlice i fun x => { x with
    leaving := lostParts s i (rangesOf cs) m, target := some (cs, m), splitTo := split,
    stat := statWord x.stat (lostParts s i (rangesOf cs) m).length op (leavingState (lostParts s i (rangesOf cs) m)) }) i
  exact ⟨l, _, hl.trans (by rw [State.modSlice_slice, if_pos rfl])⟩
theorem startShrink_slice_ne (s : State) {i j : Nat} (h : j ≠ i) (op : Nat) (cs : Tbl DWord) (m : DWord) (split : Option Nat) :
    (startShrink s i op cs m split).slice j = s.slice j := (fixL2c_slice_ne _ h).trans ((State.modSlice_slice ..).trans (if_neg h))
theorem endShrink_leaving {i : Nat} (h : (s.slice i).leaving ≠ []) : endShrink s i = s := if_pos (by simp [h])
theorem endShrink_shrunk {i : Nat} {cs : Tbl DWord} {m : DWord} (hl : (s.slice i).leaving = []) (hs : (s.slice i).splitTo = none)
    (ht : (s.slice i).target = some (cs, m)) : ((endShrink s i).slice i).cores = cs ∧ ((endShrink s i).slice i).mem = m := by
  unfold endShrink
  extract_lets x v w u
  rw [if_neg (by simp [x, hl])]
  have hu : u = v := by
    unfold u
    rw [show x.splitTo = none from hs]
  have hv : (v.slice i).cores = cs ∧ (v.slice i).mem = m := by
    unfold v
    rw [show x.target = some (cs, m) from ht]
    dsimp only
    obtain ⟨⟨_, _, hg⟩, -⟩ := takeGroups_slice (s.modSlice i fun x => { x with
      cores := cs, mem := m, left := [], target := none, wide := fitWide s i (coresOf (rangesOf cs)) x.wide }) i
        ((List.range 16).filter fun g => (wgOf m).getLsbD g && (pinOf m).getLsbD g != (pinOf x.mem).getLsbD g)
    rw [hg, State.modSlice_slice, if_pos rfl]
    exact ⟨rfl, rfl⟩
  obtain ⟨_, hf⟩ := fixL2c_slice (v.modSlice i fun x => { x with splitTo := none, stat := statWord x.stat 0 0 0 }) i
  rw [hu]
  have hend : (capChange (fixL2c (v.modSlice i fun x => { x with splitTo := none, stat := statWord x.stat 0 0 0 }) i)).slice i = _ := hf
  rw [hend, State.modSlice_slice, if_pos rfl]
  exact hv
theorem endShrink_idle {i : Nat} (hs : (s.slice i).splitTo = none) (ht : (s.slice i).target = none) :
    ((endShrink s i).slice i).cores = (s.slice i).cores ∧ ((endShrink s i).slice i).mem = (s.slice i).mem ∧
      (∀ j, j ≠ i → (endShrink s i).slice j = s.slice j) ∧ (endShrink s i).funcs = s.funcs := by
  unfold endShrink
  extract_lets x v w u
  split
  · exact ⟨rfl, rfl, fun _ _ => rfl, rfl⟩
  · have hu : u = s := by
      unfold u v
      rw [show x.splitTo = none from hs, show x.target = none from ht]
    rw [hu]
    obtain ⟨_, hf⟩ := fixL2c_slice (s.modSlice i fun x => { x with splitTo := none, stat := statWord x.stat 0 0 0 }) i
    have hend : (capChange (fixL2c (s.modSlice i fun x => { x with splitTo := none, stat := statWord x.stat 0 0 0 }) i)).slice i = _ := hf
    rw [hend, State.modSlice_slice, if_pos rfl]
    exact ⟨rfl, rfl, fun j hj => (fixL2c_slice_ne _ hj).trans ((State.modSlice_slice ..).trans (if_neg hj)), rfl⟩
theorem emptyGroups_l2 (s : State) (gs : List Nat) : ∀ e ∈ (emptyGroups s gs).l2, gs.contains (e.way / 2) = false := by
  have hevict : ∀ (x : State) (line : Nat), (evictL2 x line).l2 = x.l2.filter fun e => e.line != line := fun x line => by
    obtain ⟨_, htime⟩ := recallTime_touches x line
    obtain ⟨_, _, hcall⟩ := recallLine_touches { (recallTime x line).1 with l2 := (recallTime x line).1.l2.filter fun e => e.line != line } none line
    obtain ⟨_, _, _, _, _, _, hback⟩ := rollbackLine_touches (recallLine { (recallTime x line).1 with
      l2 := (recallTime x line).1.l2.filter fun e => e.line != line } none line) none line (fun _ => some 2) (recallTime x line).2
    have hl2 : (evictL2 x line).l2 = (rollbackLine (recallLine { (recallTime x line).1 with
      l2 := (recallTime x line).1.l2.filter fun e => e.line != line } none line) none line (fun _ => some 2) (recallTime x line).2).l2 := rfl
    rw [hl2, hback]
    dsimp only
    rw [hcall]
    dsimp only
    rw [htime]
  have hfold : ∀ (ls : List L2Line) (x : State) (e : L2Line), e ∈ (ls.foldl (fun s e => evictL2 s e.line) x).l2 → e ∈ x.l2 ∧ ∀ l ∈ ls, e.line ≠ l.line := by
    intro ls
    induction ls with
    | nil => exact fun x e he => ⟨he, fun l hl => absurd hl List.not_mem_nil⟩
    | cons l ls ih =>
      intro x e he
      obtain ⟨hin, hne⟩ := ih (evictL2 x l.line) e he
      rw [hevict, List.mem_filter] at hin
      obtain ⟨hin, hl⟩ := hin
      refine ⟨hin, fun k hk => ?_⟩
      obtain rfl | hk := List.mem_cons.mp hk
      · simpa using hl
      · exact hne k hk
  intro e he
  obtain ⟨hin, hne⟩ := hfold _ s e he
  by_contra h
  exact hne e (List.mem_filter.mpr ⟨hin, by simpa using h⟩) rfl
end

/-! Queues. -/
theorem modQueue_queue (s : State) (func queue : Nat) (g : Queue → Queue) :
    Tbl.get? ((modQueue s func queue g).func func).queues queue = (Tbl.get? (s.func func).queues queue).map g := by
  unfold modQueue
  rw [State.modFunc_func, if_pos rfl]
  exact (Tbl.get?_upd ..).trans (if_pos rfl)
theorem not_mem_setDel (l : List Nat) (j : Nat) : j ∉ setDel l j := fun h => by simpa using (List.mem_filter.mp h).2

/-! Owner words. -/
theorem bulk_performLine (s : State) (core writer : Option Nat) (p : Attr) (a : Nat) (bs : List Byte) (bad : Bool) (pick : Nat → Option Nat) :
    (performLine s core writer p a bs bad pick).bulk = s.bulk := by
  unfold performLine
  extract_lets a l s1 sent s2 s3
  have hmove : LineMove s s2 :=
    (lineMove_touch s p l).trans ((lineMove_recall _ core l).trans ((lineMove_time _ l).trans (lineMove_writeOwn _ core writer p l a bs bad)))
  have hput : s3.bulk = s2.bulk := by
    obtain ⟨_, _, e⟩ := putList_touches (p.inL2 a && lineHeld s2 core l) (rekeySpan p.key s2 a bs.length) a bs
    have hspan : (rekeySpan p.key s2 a bs.length).bulk = s2.bulk := by
      unfold rekeySpan
      split
      · rfl
      · refine foldl_keeps (fun x : State => x.bulk = s2.bulk) _ (fun x i hx => ?_) _ s2 rfl
        obtain ⟨_, _, _, e⟩ := rekey_touches p.key x (a / 32 + i)
        rw [e]
        exact hx
    exact Eq.trans (b := (putList (p.inL2 a && lineHeld s2 core l) (rekeySpan p.key s2 a bs.length) a bs).bulk) rfl (by rw [e]; exact hspan)
  obtain ⟨_, _, _, _, _, _, _, _, _, _, hm⟩ := hmove
  obtain ⟨_, _, _, _, _, _, _, _, _, _, hb⟩ : LineMove s3 (rollbackLine s3 writer l pick sent) := lineMove_rollback ..
  obtain ⟨_, _, _, _, _, _, _, _, e⟩ := evalMonitors_touches (rollbackLine s3 writer l pick sent) l
  rw [e]
  dsimp only
  rw [hb]
  dsimp only
  rw [hput, hm]
theorem setOwner_bulk (s : State) (c : Acc) (v : DWord) : (setOwner s c v).bulk = (noteReads s c.pa 8).bulk := by
  unfold setOwner performBytes
  rw [if_neg (by rw [List.isEmpty_iff_length_eq_zero, length_leBytes]; decide), length_leBytes]
  exact foldl_keeps (fun x : State => x.bulk = (noteReads s c.pa 8).bulk) _ (fun x i hx => (bulk_performLine ..).trans hx) _ _ rfl

/-! A merge. -/
theorem Tbl.get?_mapV {α : Type} (t : Tbl α) (f : α → α) (k : Nat) : Tbl.get? (Tbl.mapV t f) k = (Tbl.get? t k).map f := by
  induction t with
  | nil => rfl
  | cons p t ih =>
    obtain ⟨j, v⟩ := p
    simp only [Tbl.mapV, Tbl.get?, List.map_cons]
    split
    · rfl
    · exact ih
/-- The other slices are as before, and so are the functions' slices. -/
structure Binds (b : Nat) (s t : State) : Prop where
  slice : ∀ j, j ≠ b → t.slice j = s.slice j
  known : ∀ f, Tbl.get? s.funcs f ≠ none → Tbl.get? t.funcs f ≠ none
  funcSlice : ∀ f, (t.func f).slice = (s.func f).slice
theorem Binds.modFunc {b : Nat} {s t : State} (h : Binds b s t) (func : Nat) {g : Func → Func} (hg : ∀ f, (g f).slice = f.slice) :
    Binds b s (t.modFunc func g) := by
  refine ⟨h.slice, fun f hf => ?_, fun f => ?_⟩
  · change Tbl.get? (Tbl.put ..) f ≠ none
    rw [Tbl.get?_put]
    split
    · exact Option.some_ne_none _
    · exact h.known f hf
  · rw [State.modFunc_func, ← h.funcSlice]
    split
    · next e => rw [hg, e]
    · rfl
theorem Binds.same {b : Nat} {s t u : State} (h : Binds b s t) (e : (u.funcs, u.slices) = (t.funcs, t.slices)) : Binds b s u := by
  simp only [Prod.mk.injEq] at e
  obtain ⟨hf, hsl⟩ := e
  refine ⟨fun j hj => ?_, fun f hf' => ?_, fun f => ?_⟩
  · rw [← h.slice j hj]
    unfold State.slice
    rw [hsl]
  · rw [hf]
    exact h.known f hf'
  · rw [← h.funcSlice f]
    unfold State.func
    rw [hf]
theorem Binds.refl (b : Nat) (s : State) : Binds b s s := ⟨fun _ _ => rfl, fun _ h => h, fun _ => rfl⟩
theorem binds_emitA {b : Nat} {s t : State} (h : Binds b s t) (die src func : Nat) (crew : Option Nat) (event arg : BitVec 8) (payload : Word)
    (cause : Nat) (ctx : Option Nat) : Binds b s (emitA t die src func crew event arg payload cause ctx) := by
  have hlose : ∀ i, Binds b s (loseRecord t i) := fun i => by
    have hdrop : Binds b s (dropRecord t i.func i.die i.src) :=
      (h.modFunc i.func (g := fun f => { f with trace := { f.trace with drop := f.trace.drop + 1 } }) fun _ => rfl).same (by rfl)
    unfold loseRecord
    dsimp only
    split
    · exact hdrop.same (by rfl)
    · exact hdrop
  unfold emitA
  dsimp only
  split
  · split
    · exact h.same (by rfl)
    · exact hlose _
  · exact h
theorem binds_rollbackLine {b : Nat} {s t : State} (h : Binds b s t) (writer : Option Nat) (line : Nat) (pick : Nat → Option Nat) (sent : Nat) :
    Binds b s (rollbackLine t writer line pick sent) := by
  refine foldl_keeps (Binds b s) _ (fun x p hx => ?_) _ t h
  split
  · next cause _ =>
    have hemit : ∀ e a p', Binds b s (emitCrewA x p.1 e a p' sent) := fun e a p' => by
      unfold emitCrewA
      split
      · exact hx
      · exact binds_emitA hx ..
    unfold rollback
    split
    · exact hx
    · split
      · exact hx
      · exact (hemit _ _ _).same (by rfl)
  · exact hx
theorem binds_emptyGroups (b : Nat) (s : State) (gs : List Nat) : Binds b s (emptyGroups s gs) := by
  refine foldl_keeps (Binds b s) _ (fun x e hx => ?_) _ s (.refl b s)
  have hcall : Binds b s (recallLine { (recallTime x e.line).1 with l2 := (recallTime x e.line).1.l2.filter fun k => k.line != e.line } none e.line) := by
    obtain ⟨_, htime⟩ := recallTime_touches x e.line
    obtain ⟨_, _, hcall⟩ := recallLine_touches { (recallTime x e.line).1 with l2 := (recallTime x e.line).1.l2.filter fun k => k.line != e.line } none e.line
    rw [hcall, htime]
    exact hx.same (by rfl)
  exact (binds_rollbackLine hcall none e.line (fun _ => some 2) (recallTime x e.line).2).same (by rfl)
theorem binds_unmapSlot {b : Nat} {s t : State} (h : Binds b s t) (slot : Nat) : Binds b s (unmapSlot t b slot) := by
  unfold unmapSlot
  split
  · exact h
  · next m _ =>
    dsimp only
    have hslot : Binds b s (t.modSlice b fun x => { x with slots := Tbl.del x.slots slot }) :=
      ⟨fun j hj => ((State.modSlice_slice ..).trans (if_neg hj)).trans (h.slice j hj), h.known, h.funcSlice⟩
    have hqueue := hslot.modFunc m.func (g := fun f => { f with queues := Tbl.upd f.queues m.queue fun q => { q with slot := none } }) fun _ => rfl
    split
    · split
      · exact Binds.modFunc (by exact hqueue) m.func fun _ => rfl
      · exact hqueue
    · exact hqueue
theorem merged_fields {m o : DWord} {lo hi : Nat} (hlo : lo < 256) (hhi : hi < 256) :
    let mem := (m &&& 0x00000000FFC00000) ||| BitVec.ofNat 64 ((wgOf m ||| wgOf o).toNat * 2 ^ 48 + (pinOf m ||| pinOf o).toNat * 2 ^ 32 + hi * 256 + lo)
    chBase mem = lo ∧ chLim mem = hi := by
  intro mem
  have hlow : mem.toNat % 65536 = hi * 256 + lo := by
    have hkeep : (m.toNat &&& 0xFFC00000) % 2 ^ 16 = 0 := by
      rw [Nat.and_mod_two_pow]
      exact Nat.and_zero _
    have hor : mem.toNat % 2 ^ 16 = _ := Nat.or_mod_two_pow ..
    refine hor.trans ?_
    rw [BitVec.toNat_and, show BitVec.toNat (4290772992 : DWord) = 4290772992 from rfl, hkeep, Nat.zero_or, BitVec.toNat_ofNat]
    omega
  unfold chBase chLim
  simp only [BitVec.extractLsb'_toNat, Nat.shiftRight_eq_div_pow]
  omega
theorem joinSlices_spec {s : State} {a b : Nat} (hab : a ≠ b) (hl : (s.slice b).leaving = []) (rs : Ranges) {lo hi : Nat} (hlo : lo < 256) (hhi : hi < 256) :
    let t := joinSlices s a b rs lo hi
    (t.slice a).cores = slcores (s.slice a).cores rs ∧ chBase (t.slice a).mem = lo ∧ chLim (t.slice a).mem = hi ∧
      (t.slice a).target = (s.slice a).target ∧ (t.slice a).splitTo = (s.slice a).splitTo ∧
      t.slice b = { cores := slcores (s.slice b).cores [], fab := (s.slice b).fab, stat := (s.slice b).stat &&& 0x100 } ∧
      ∀ f, Tbl.get? s.funcs f ≠ none → (t.func f).slice = if (s.func f).slice = b then a else (s.func f).slice := by
  unfold joinSlices
  extract_lets x y mem u moveF moveC moveA v wide r t
  have hu : Binds b s u := foldl_keeps (Binds b s) _ (fun _ p hx => binds_unmapSlot hx p.1) _ s (.refl b s)
  rw [show t = r from if_pos (by simp [y, hl])]
  have hva : v.slice a = s.slice a := ((Tbl.getD_put ..).trans (if_neg hab)).trans (hu.slice a hab)
  have ha : r.slice a = { s.slice a with cores := slcores (s.slice a).cores rs, mem := mem, wide := wide } := by
    rw [← hva]
    exact (State.modSlice_slice ..).trans (if_pos rfl)
  have hb : r.slice b = { cores := slcores y.cores [], fab := y.fab, stat := y.stat &&& 0x100 } :=
    ((State.modSlice_slice ..).trans (if_neg (Ne.symm hab))).trans ((Tbl.getD_put ..).trans (if_pos rfl))
  obtain ⟨hbase, hlim⟩ := merged_fields (m := x.mem) (o := y.mem) hlo hhi
  rw [ha]
  refine ⟨rfl, hbase, hlim, rfl, rfl, hb, fun f hf => ?_⟩
  obtain ⟨g, hg⟩ := Option.ne_none_iff_exists'.mp (hu.known f hf)
  have hslice := hu.funcSlice f
  have hug : u.func f = g := by
    unfold State.func Tbl.getD
    rw [hg]
    rfl
  have hr : r.func f = moveF g := by
    change (Tbl.get? (Tbl.mapV u.funcs moveF) f).getD {} = _
    rw [Tbl.get?_mapV, hg]
    rfl
  rw [hr, ← hslice, hug]
  unfold moveF
  split <;> rfl

theorem yields_queueNotify {s : State} {func queue : Nat} {value : DWord} {q : Queue} (hq : Tbl.get? (s.func func).queues queue = some q)
    (hok : ((value.setWidth 16 : BitVec 16) - q.head).toNat ≤ 2 ^ q.log2n) : Yields (.queueNotify func queue value) s fun s' =>
      Tbl.get? (s'.func func).queues queue = some { q with tail := value.setWidth 16 } ∧
      (q.slot = none → value.setWidth 16 ≠ q.tail → queue ∈ (s'.func func).pendingNotify) := by
  by_cases htail : (value.setWidth 16 : BitVec 16) = q.tail
  · refine ⟨s, ?_, ?_, fun _ h => absurd htail h⟩
    · change execQueueNotify func queue value s = _
      unfold execQueueNotify
      rw [hq]
      exact (if_neg (by omega)).trans (if_pos htail)
    · rw [hq, htail]
  · have hm := modQueue_queue s func queue fun q => { q with tail := value.setWidth 16 }
    rw [hq] at hm
    by_cases hslot : q.slot.isSome = true
    · refine ⟨_, ?_, hm, fun h => absurd hslot (by simp [h])⟩
      change execQueueNotify func queue value s = _
      unfold execQueueNotify
      rw [hq]
      exact (if_neg (by omega)).trans ((if_neg htail).trans (if_pos hslot))
    · let u := (modQueue s func queue fun q => { q with tail := value.setWidth 16 }).modFunc func fun f => { f with pendingNotify := setAdd f.pendingNotify queue }
      have hu : Tbl.get? (u.func func).queues queue = some { q with tail := value.setWidth 16 } ∧ queue ∈ (u.func func).pendingNotify := by
        unfold u
        rw [State.modFunc_func, if_pos rfl]
        exact ⟨hm, mem_setAdd.mpr (.inl rfl)⟩
      have hexec : exec (.queueNotify func queue value) s = .next (tellFirmware u 2 func queue (value.setWidth 16 : BitVec 16).toNat) ∨
          exec (.queueNotify func queue value) s = .next (tellFirmware (tellFirmware u 2 func queue (value.setWidth 16 : BitVec 16).toNat) 3 func queue 0) := by
        change execQueueNotify func queue value s = _ ∨ execQueueNotify func queue value s = _
        unfold execQueueNotify
        rw [hq]
        dsimp only
        rw [if_neg (by omega), if_neg htail, if_neg hslot]
        split
        · exact .inr rfl
        · exact .inl rfl
      obtain ⟨hqueue, hpend⟩ := hu
      obtain hexec | hexec := hexec
      · exact ⟨_, hexec, hqueue, fun _ _ => hpend⟩
      · exact ⟨_, hexec, hqueue, fun _ _ => hpend⟩
theorem exec_queueSlotFetch {s : State} {slice slot : Nat} {m : QSlot} {q : Queue} (hm : Tbl.get? (s.slice slice).slots slot = some m)
    (hq : Tbl.get? (s.func m.func).queues m.queue = some q) (hone : ∀ p ∈ (s.slice slice).slots, slotDue s p.2 = true → p.1 = slot)
    (hdue : slotDue s m = true) (hmem : (slot, m) ∈ (s.slice slice).slots) (hres : underReset s slice = false) (hfront : frontHeld s slice = false)
    (hfail : m.failed = false) : exec (.queueSlotFetch slice slot) s = match tableRead (s.modSlice slice fun x => { x with turn := slot + 1 }) q.ctx (q.ring + 256 * (q.head.toNat % 2 ^ q.log2n)) 256 with
          | .bytes r => .next (takeRing (s.modSlice slice fun x => { x with turn := slot + 1 }) slice m.func m.queue q (q.ring + 256 * (q.head.toNat % 2 ^ q.log2n)) r)
          | .fails => .next (advanceHead (setQerr (s.modSlice slice fun x => { x with turn := slot + 1 }) m.func m.queue 1) m.func m.queue)
          | .absent p =>
            .next (requestPage ((s.modSlice slice fun x => { x with turn := slot + 1 }).modSlice slice fun x => { x with slots := Tbl.upd x.slots slot fun m => { m with page := some p } })
              q.ctx p (true, false) none) := by
  have hdues : ∀ i ∈ ((s.slice slice).slots.filter fun p => slotDue s p.2).map (·.1), i = slot := fun i hi => by
    obtain ⟨p, hp, rfl⟩ := List.mem_map.mp hi
    obtain ⟨hp, hd⟩ := List.mem_filter.mp hp
    exact hone p hp hd
  have hin : slot ∈ ((s.slice slice).slots.filter fun p => slotDue s p.2).map (·.1) := List.mem_map.mpr ⟨(slot, m), List.mem_filter.mpr ⟨hmem, hdue⟩, rfl⟩
  have hnext : (match (((s.slice slice).slots.filter fun p => slotDue s p.2).map (·.1)).find? fun i => decide ((s.slice slice).turn ≤ i) with
      | some i => some i | none => (((s.slice slice).slots.filter fun p => slotDue s p.2).map (·.1)).head?) = some slot := by
    generalize ((s.slice slice).slots.filter fun p => slotDue s p.2).map (·.1) = l at hdues hin
    split
    · next i hi => rw [hdues i (List.mem_of_find?_eq_some hi)]
    · cases l with
      | nil => exact absurd hin List.not_mem_nil
      | cons k l => exact congrArg some (hdues k List.mem_cons_self)
  change execQueueSlotFetch slice slot s = _
  unfold execQueueSlotFetch
  extract_lets x due next
  rw [hm]
  dsimp only
  rw [hq]
  dsimp only
  rw [if_neg]
  · exact if_neg (by simp [hfail])
  · rw [show next = some slot from hnext, hres, hfront]
    simp
theorem exec_adapterAdmission_trying {s : State} {id : Nat} {a : Admission} (ha : Tbl.get? s.admissions id = some a) (how : tableOwned s a = false)
    (hst : a.st = .trying) : exec (.adapterAdmission id) s = (match findSlot s a (slotOrder a) with
     | .fails => .next (failAdmission s id a)
     | .none => .next { s with admissions := Tbl.put s.admissions id { a with st := .held } }
     | .ready i => (match queueAdmitted s id a i false with | some s => .next s | none => disabled)
     | .loading i => .next { s with admissions := Tbl.put s.admissions id { a with st := .waiting i } }
     | .claim i =>
       match prefetchCmd s a i, ownerAcc s a i with
       | some c, some w =>
         if fetchRoom (setOwner s w (a.adapter ||| (1#64 <<< 63))) c then
           .next { submitFetch (setOwner s w (a.adapter ||| (1#64 <<< 63))) c with
             admissions := Tbl.put (submitFetch (setOwner s w (a.adapter ||| (1#64 <<< 63))) c).admissions id
               { a with st := .loading i (setOwner s w (a.adapter ||| (1#64 <<< 63))).nextId } }
         else .next { setOwner s w (a.adapter ||| (1#64 <<< 63)) with
           admissions := Tbl.put (setOwner s w (a.adapter ||| (1#64 <<< 63))).admissions id { a with st := .claimed i } }
       | _, _ => .next (failAdmission s id a)) := by
  change execAdapterAdmission id s = _
  unfold execAdapterAdmission
  rw [ha]
  dsimp only
  rw [if_neg (by simp [how]), hst] <;> rfl

/-! What writes read ahead. -/
/-- Where no read is performed ahead, commands keep what they have read. -/
theorem noteReads_quiet (hnow : ∀ c w, Config.readsNow c w = false) (s : State) (a n : Nat) : noteReads s a n = s := by
  have hcmd : ∀ m own c, noteCmd s m a n own c = c := fun m own c => by
    have hnone : ∀ i ∈ List.range ((a + n + 3) / 4 * 4 - a / 4 * 4), (match (c.src ++ c.tag).find? fun r => decide (r.pa ≤ a / 4 * 4 + i ∧ a / 4 * 4 + i < r.pa + r.len) with
      | some r =>
        if Config.readsNow s.clock ((a / 4 * 4 + i) / 4) && !(c.seen.any fun x => x.1 == a / 4 * 4 + i) && !inPod r.pa && !own m then
          some (a / 4 * 4 + i, readByte s r.key (a / 4 * 4 + i), poisoned s (a / 4 * 4 + i))
        else none
      | none => none) = none := fun i _ => by
      split
      · rw [hnow]
        rfl
      · rfl
    have hseen := List.filterMap_eq_nil_iff.mpr hnone
    have hnil : (noteCmd s m a n own c).seen = c.seen := (congrArg (c.seen ++ ·) hseen).trans (List.append_nil _)
    exact congrArg (fun l => { c with seen := l }) hnil
  have hcmds : (Tbl.mapV s.bulk.cmds fun c => match c.running with
      | some (_, m) => noteCmd s m a n (fun m => ownedBefore s m a n) c
      | none => c) = s.bulk.cmds := by
    refine (List.map_congr_left fun p _ => ?_).trans (List.map_id _)
    obtain ⟨k, c⟩ := p
    dsimp only
    split
    · rw [hcmd]
      rfl
    · rfl
  exact congrArg (fun l => { s with bulk := { s.bulk with cmds := l } }) hcmds

/-! The events. -/
/-- What is left to leave once a part has left. -/
def leavePart (i : Nat) (rest : List SlicePart) (s : State) : State :=
  endShrink (s.modSlice i fun x => { x with
    leaving := rest, stat := statWord x.stat rest.length (x.stat.extractLsb' 4 4).toNat (leavingState rest) }) i
theorem leavePart_leaving {rest : List SlicePart} (h : rest ≠ []) (i : Nat) (s : State) : ((leavePart i rest s).slice i).leaving = rest := by
  have hs := (State.modSlice_slice s i i fun x => { x with
    leaving := rest, stat := statWord x.stat rest.length (x.stat.extractLsb' 4 4).toNat (leavingState rest) }).trans (if_pos rfl)
  unfold leavePart
  rw [endShrink_leaving (by rw [hs]; exact h), hs]
theorem exec_sliceMerge {s : State} {a b : Nat} {rs : Ranges} (ha : a < 16) (hb : b < 16) (hab : a ≠ b) (hua : sliceUsed s a = true)
    (hub : sliceUsed s b = true) (hba : sliceBusy s a = false) (hbb : sliceBusy s b = false)
    (hj : joinRanges (rangesIn (s.slice a)) (rangesIn (s.slice b)) = some rs) (hch : chLim (s.slice a).mem + 1 = chBase (s.slice b).mem)
    (hla : lockedFuncs s a = []) (hlb : lockedFuncs s b = [])
    (hteams : ∀ p ∈ s.teams, p.2.retired = true ∨ ∀ x, Tbl.get? s.ctxs p.2.ctx = some x → x.slice ≠ b)
    (hdirty : groupDirty s ((List.range 16).filter fun g => (wgOf (s.slice b).mem).getLsbD g) = []) :
    exec (.sliceMerge a b) s = .next (capChange (endShrink (joinSlices (emptyGroups s ((List.range 16).filter fun g => (wgOf (s.slice b).mem).getLsbD g))
      a b rs (chBase (s.slice a).mem) (chLim (s.slice b).mem)) a)) := by
  have hts : (s.teams.filter fun p => !p.2.retired && (match Tbl.get? s.ctxs p.2.ctx with | some c => c.slice == b | none => false)) = [] := by
    refine List.filter_eq_nil_iff.mpr fun p hp h => ?_
    simp only [Bool.and_eq_true, Bool.not_eq_true'] at h
    obtain ⟨hret, hslice⟩ := h
    split at hslice
    · next c hc =>
      obtain hr | hne := hteams p hp
      · exact Bool.false_ne_true (hret.symm.trans hr)
      · exact hne c hc (by simpa using hslice)
    · exact Bool.false_ne_true hslice
  change execSliceMerge a b s = _
  unfold execSliceMerge
  rw [if_neg (by omega)]
  extract_lets x y ch going groups parts ts drained freed
  have hlohi : ch = some (chBase x.mem, chLim y.mem) := if_pos hch
  rw [hj, hlohi]
  dsimp only
  rw [if_neg (by simp [hba]), if_neg (by simp [hua, hub, hba, hbb]), show ts = [] from hts, if_neg (by simp), show groupDirty s groups = [] from hdirty,
    if_neg (by simp)]
  have hfreed : freed = emptyGroups s groups := by
    unfold freed
    rw [hla, hlb]
    rfl
  rw [hfreed]
  rfl
theorem exec_sliceSplit {s : State} {a b : Nat} {cores : Ranges} {memA memB : DWord} (ha : a < 16) (hb : b < 16) (hab : a ≠ b)
    (hsub : ∀ c ∈ coresOf cores, c ∈ sliceCores s a) (hwgB : (wgOf memB &&& ~~~wgOf (s.slice a).mem) = 0) (hwgAB : (wgOf memA &&& wgOf memB) = 0)
    (hbase : chBase (s.slice a).mem ≤ chBase memB) (hlim : chLim memB ≤ chLim (s.slice a).mem)
    (hapart : chLim memA < chBase memB ∨ chLim memB < chBase memA) (hr : rangesOk cores = true) (hne : cores ≠ []) (hmB : memOk memB = true)
    (hub : sliceUsed s b = false) (hbb : sliceBusy s b = false) (hlb : lockedFuncs s b = [])
    {keep : Ranges} (hk : keep = ((s.slice a).cores.map fun p =>
      let cs := (sliceCores s a).filter fun c => c / 32 == p.1 && !(coresOf cores).contains c
      cs.head?.map fun c => (p.1, c % 32, (cs.getLastD c) % 32)).filterMap id)
    (hkeep : ∀ c ∈ coresOf keep, c ∉ coresOf cores) (hok : shrinkOk s a keep memA = true) :
    exec (.sliceSplit a b cores memA memB) s = .next (endShrink (startShrink
      (s.modSlice b fun y => { y with target := some (slcores y.cores cores, memB), stat := statWord y.stat 0 5 2 }) a 5
      (slcores (s.slice a).cores keep) memA (some b)) a) := by
  have hsame : ((s.slice a).cores.map fun p =>
      let cs := (sliceCores s a).filter fun c => c / 32 == p.1 && !(coresOf cores).contains c
      match cs with
      | [] => none
      | c :: _ => some (p.1, c % 32, (cs.getLastD c) % 32)).filterMap id = keep := by
    rw [hk]
    refine congrArg (List.filterMap id) (List.map_congr_left fun p _ => ?_)
    dsimp only
    split
    · next e => rw [e]; rfl
    · next e => rw [e]; rfl
  have hua : (s.modSlice b fun y => { y with target := some (slcores y.cores cores, memB), stat := statWord y.stat 0 5 2 }).slice a = s.slice a :=
    (State.modSlice_slice ..).trans (if_neg hab)
  change execSliceSplit a b cores memA memB s = _
  unfold execSliceSplit
  rw [if_neg (by omega)]
  extract_lets keep' old within u
  have hkk : keep' = keep := Eq.trans (by rfl) hsame
  have hin : within = true := by
    have hall : (coresOf cores).all (sliceCores s a).contains = true := by simpa using hsub
    have hout : ((coresOf keep).all fun c => !(coresOf cores).contains c) = true := by simpa using hkeep
    unfold within
    rw [hkk, hall, hout]
    simp [old, hwgB, hwgAB, hbase, hlim, hapart, hr, hne, hmB, hub, hbb, hlb]
  rw [hin, hkk, hok]
  refine (if_pos rfl).trans ?_
  rw [show u.slice a = s.slice a from hua]
theorem statWord_op (old : DWord) (pending : Nat) {op state : Nat} (ho : op < 16) (hs : state < 16) :
    (statWord old pending op state).toNat % 256 = op * 16 + state := by
  have hkeep : (old.toNat &&& 0x100) % 2 ^ 8 = 0 := by
    rw [Nat.and_mod_two_pow]
    exact Nat.and_zero _
  have hor : (statWord old pending op state).toNat % 2 ^ 8 = _ := Nat.or_mod_two_pow ..
  refine hor.trans ?_
  rw [BitVec.toNat_and, show BitVec.toNat (0x100 : DWord) = 0x100 from rfl, hkeep, Nat.zero_or, BitVec.toNat_ofNat]
  omega
theorem statWord_fields (old : DWord) (pending : Nat) {op state : Nat} (ho : op < 16) (hs : state < 16) :
    (statWord old pending op state).extractLsb' 4 4 = BitVec.ofNat 4 op ∧ (statWord old pending op state).extractLsb' 0 4 = BitVec.ofNat 4 state ∧
      (statWord old pending op state).extractLsb' 0 8 = BitVec.ofNat 8 (op * 16 + state) := by
  have h := statWord_op old pending ho hs
  refine ⟨BitVec.eq_of_toNat_eq ?_, BitVec.eq_of_toNat_eq ?_, BitVec.eq_of_toNat_eq ?_⟩
  · simp only [BitVec.extractLsb'_toNat, Nat.shiftRight_eq_div_pow, BitVec.toNat_ofNat]
    omega
  · simp only [BitVec.extractLsb'_toNat, Nat.shiftRight_eq_div_pow, BitVec.toNat_ofNat]
    omega
  · simp only [BitVec.extractLsb'_toNat, Nat.shiftRight_eq_div_pow, BitVec.toNat_ofNat]
    omega


/-! A claim with a read ahead. -/
/-- An admission of function 0 to the slot table at 0x20400, for adapter 9, with a prefetch of 16 bytes. -/
def claimingAdmission : Admission :=
  { slice := 0, ctx := 0, queue := 7, lrec := 0x20000, adapter := 9, table := 0x20400, nslots := 1, pref := 0, policy := 0, stride := 0,
    record := leBytes 8 0x1001000000 ++ leBytes 8 0 ++ leBytes 8 0x20600 ++ leBytes 8 0x20700 ++ List.replicate 32 0 }
/-- A prefetch that waits in the bulk queue, and the slot's owner word. -/
def waitingPrefetch : Cmd :=
  { func := 0, ctx := 0, die := 0, core := 0, entry := none, rec_ := claimingAdmission.record, src := [{ pa := 0x20600, len := 16, home := 0, key := 1 }],
    dst := [{ pa := 0x20700, len := 16, home := 0, key := 1 }], compl := [], tag := [] }
def claimedWord : Acc := { va := 0x20400, pa := 0x20400, size := 8, home := 0, key := 1, ctx := some 0 }
/-- A running command whose source is that owner word. -/
def readingCmd : Cmd := { waitingPrefetch with
  running := some (0, 0), src := [{ pa := 0x20400, len := 8, home := 0, key := 1 }] }
/-- The slot is free, and the bulk queue is full. -/
def claimingState : State :=
  [(0, 0x1001), (0x1000, 0x2001), (0x2000, 0x3001), (0x3000, 0x4001), (0x4010, 0x010000000002003D)].foldl (fun s p => putList false s p.1 (leBytes 8 p.2))
    { State.reset with
      sec := { State.reset.sec with keys := [(1, { owner := some 0 })] }, slices := [(0, { cores := slcores [] [(0, 0, 1)], mem := 0xFF00 })]
      ctxs := [(0, { func := 0, slice := 0 })], admissions := [(3, claimingAdmission)]
      bulk := { cmds := ((List.range 64).map fun i => (i, waitingPrefetch)) ++ [(64, readingCmd)] } }
theorem claimingState_claims : tableOwned claimingState claimingAdmission = false ∧
    findSlot claimingState claimingAdmission (slotOrder claimingAdmission) = .claim 0 ∧ (prefetchCmd claimingState claimingAdmission 0).map (fun c => (c.die, c.func)) = some (0, 0) ∧
    ownerAcc claimingState claimingAdmission 0 = some claimedWord ∧ 64 ≤ (waitingCmds claimingState 0 0 0).length := by decide
theorem noteReads_get? {s : State} {k p m : Nat} {c : Cmd} (a n : Nat) (hc : Tbl.get? s.bulk.cmds k = some c) (hrun : c.running = some (p, m)) :
    Tbl.get? (noteReads s a n).bulk.cmds k = some (noteCmd s m a n (fun m => ownedBefore s m a n) c) := by
  unfold noteReads
  dsimp only
  rw [Tbl.get?_mapV, hc, Option.map_some, hrun]
/-- A read that is performed ahead of the write of the owner word is noted at the running command. -/
theorem noteReads_reading (h : Config.readsNow 0 0x8100 = true) : (noteReads claimingState 0x20400 8).bulk.cmds ≠ claimingState.bulk.cmds := by
  intro hcmds
  have hcmd : Tbl.get? claimingState.bulk.cmds 64 = some readingCmd := by decide
  have hget := noteReads_get? 0x20400 8 hcmd rfl
  rw [hcmds, hcmd] at hget
  have hown : ownedBefore claimingState 0 0x20400 8 = false := by simp [ownedBefore]
  have hseen : (noteCmd claimingState 0 0x20400 8 (fun m => ownedBefore claimingState m 0x20400 8) readingCmd).seen = [] :=
    congrArg Cmd.seen (Option.some.inj hget).symm
  refine List.ne_nil_of_mem (a := (0x20400, readByte claimingState 1 0x20400, poisoned claimingState 0x20400)) ?_ hseen
  refine List.mem_append_right _ (List.mem_filterMap.mpr ⟨0, by decide, ?_⟩)
  change (if Config.readsNow 0 0x8100 && true && true && !ownedBefore claimingState 0 0x20400 8 then _ else _) = _
  rw [h, hown]
  rfl
/-- An admission that has claimed its slot and has no place in the bulk queue has changed the commands only as its write did. -/
theorem bulk_claimed {s s' : State} {id i : Nat} {a a' : Admission} {c : Cmd} {w : Acc} (ha : Tbl.get? s.admissions id = some a)
    (how : tableOwned s a = false) (htry : a.st = .trying) (hf : findSlot s a (slotOrder a) = .claim i) (hc : prefetchCmd s a i = some c)
    (hw : ownerAcc s a i = some w) (hexec : exec (.adapterAdmission id) s = .next s') (hadm : Tbl.get? s'.admissions id = some a')
    (hst : a'.st = .claimed i) : s'.bulk = (noteReads s w.pa 8).bulk := by
  rw [exec_adapterAdmission_trying ha how htry, hf] at hexec
  dsimp only at hexec
  rw [hc, hw] at hexec
  dsimp only at hexec
  split at hexec
  · cases hexec
    rw [Tbl.get?_put_self] at hadm
    cases hadm
    cases hst
  · cases hexec
    exact setOwner_bulk ..

end Machine

open Machine in
/-- Every clause of O56 holds where no read is performed ahead (log entry 20), so no refutation of O56 can be found either. -/
theorem sliceAndQueueEvents_of_readsNow_false (hnow : ∀ c w, Config.readsNow c w = false) : Obligations.SliceAndQueueEvents := by
  unfold Obligations.SliceAndQueueEvents
  intro after lost
  refine ⟨fun s i cores mem hi hu hb hr hc hm hp hl => ?create, fun s i cores mem hi h => ?createRefused,
    fun s i cores mem => ?grow, fun s i cores mem hi h => ?growRefused,
    fun s i cores mem hi hok hlost => ?shrink, fun s i cores mem hi hok => ?shrinkRefused, fun s i hl hs cs m ht => endShrink_shrunk hl hs ht,
    fun s a b rs lo hi ha hb hab hua hub hba hbb hj hch hlo hhi hla hlb hteams hdirty hta hsa hlvb => ?merge, fun s a b ha hb hab hj => ?mergeRefused,
    fun s a b cores memA memB => ?split,
    fun s i part hp hq hcore hgroup hset => ?release, fun s i w hnot htk hd => ?taken, fun s i hi hu hst => ?reset, fun s i hi hu hst hl => ?resetEnds,
    fun s func queue value hq => ?notifyNone, fun s func queue value q hq hbad => ?notifyBad, fun s func queue value q hq hok => ?notify,
    fun s func queue slot q hq hslot h64 hen hfree => ?map, fun s func queue q k hq hk hnp => ?unmap, fun s slice slot m q hm hq hnp hdue => ?reclaim,
    fun s slice slot m q hm hq hone hdue hmem hres hfront hfail => ?fetch, fun s id a ha how hst => ?trying, fun s id a i c ha how hst hc hroom => ?claimed,
    fun s id a i code ha how hst hcode => ?loaded, fun s id a i w r ha how hst hw hbit hq => ?waiting, fun s id a ha hst hf hold => ?retry⟩
  case create =>
    refine ⟨_, (if_neg (by omega)).trans (if_neg ?_), ?_⟩
    · simp [hu, hb, hr, hc, hm, hp, hl]
    · have hs := (State.modSlice_slice s i i fun x => { x with
        cores := slcores x.cores cores, mem := mem, left := [], leaving := [], cursor := none, wide := assignWide s (wideFree s i (coresOf cores)) }).trans (if_pos rfl)
      exact ⟨congrArg Slice.cores hs, congrArg Slice.mem hs, rfl⟩
  case createRefused =>
    refine ⟨_, (if_neg (by omega)).trans (if_pos ?_), rfl⟩
    obtain h | h := h
    · simp [h]
    · simp [h]
  case grow =>
    intro old hi hu hb hsub hwg hcol hbase hlim hr hm hp hl
    refine ⟨_, (if_neg (by omega)).trans (if_neg ?_), ?_⟩
    · have hall : (sliceCores s i).all (coresOf cores).contains = true := by simpa using hsub
      simp [hu, hb, hr, hm, hp, hl, hall, show (s.slice i).mem = old from rfl, hwg, hcol, hbase, hlim]
    · obtain ⟨⟨_, _, hg⟩, hsvc⟩ := takeGroups_slice (s.modSlice i fun x => { x with
        cores := slcores x.cores cores, mem := mem, wide := fitWide s i (coresOf cores) x.wide }) i
        ((List.range 16).filter fun g => (wgOf old).getLsbD g && (pinOf mem).getLsbD g != (pinOf old).getLsbD g)
      rw [State.modSlice_slice, if_pos rfl] at hg
      rw [capChange_slice, capChange_capGen, hsvc]
      exact ⟨congrArg Slice.cores hg, congrArg Slice.mem hg, rfl⟩
  case growRefused =>
    refine ⟨_, (if_neg (by omega)).trans (if_pos ?_), rfl⟩
    obtain h | h := h
    · simp [h]
    · simp [h]
  case shrink =>
    obtain ⟨_, _, hs⟩ := startShrink_slice s i 3 (slcores (s.slice i).cores cores) mem none
    have hstay : endShrink (startShrink s i 3 (slcores (s.slice i).cores cores) mem none) i =
        startShrink s i 3 (slcores (s.slice i).cores cores) mem none := endShrink_leaving (by rw [hs]; exact hlost)
    refine ⟨_, ((if_neg (by omega)).trans (if_pos hok)).trans (congrArg _ hstay), ?_⟩
    dsimp only
    rw [hs]
    exact ⟨rfl, rfl, rfl⟩
  case shrinkRefused => exact ⟨_, (if_neg (by omega)).trans (if_neg (by simp [hok])), rfl⟩
  case merge =>
    subst hlo hhi
    have hempty := steady_emptyGroups s ((List.range 16).filter fun g => (wgOf (s.slice b).mem).getLsbD g)
    generalize hg : emptyGroups s ((List.range 16).filter fun g => (wgOf (s.slice b).mem).getLsbD g) = u at hempty
    obtain ⟨hcores, hbase, hlim, htarget, hsplit, hgone, hfuncs⟩ :=
      joinSlices_spec (s := u) (lo := chBase (s.slice a).mem) (hi := chLim (s.slice b).mem) hab (by rw [hempty.slice, hlvb]) rs (BitVec.isLt ((s.slice a).mem.extractLsb' 0 8)) (BitVec.isLt ((s.slice b).mem.extractLsb' 8 8))
    obtain ⟨hecores, hemem, hother, hefuncs⟩ := endShrink_idle (i := a) (by rw [hsplit, hempty.slice, hsa]) (by rw [htarget, hempty.slice, hta])
    have hexec := exec_sliceMerge ha hb hab hua hub hba hbb hj hch hla hlb hteams hdirty
    rw [hg] at hexec
    refine ⟨_, hexec, ?_⟩
    simp only [capChange_slice]
    rw [hother b (Ne.symm hab), hgone, hecores, hemem, hcores, hempty.slice, hempty.slice]
    refine ⟨rfl, hbase, hlim, rfl, fun f hf => ?_⟩
    have hbinds : Binds b s u := hg ▸ binds_emptyGroups ..
    have hend : ((capChange (endShrink (joinSlices u a b rs (chBase (s.slice a).mem) (chLim (s.slice b).mem)) a)).func f) =
      (joinSlices u a b rs (chBase (s.slice a).mem) (chLim (s.slice b).mem)).func f := congrArg (fun t : Tbl Func => Tbl.getD t f {}) hefuncs
    rw [hend, hfuncs f (hbinds.known f hf), hbinds.funcSlice]
  case mergeRefused =>
    refine ⟨_, (if_neg (by omega)).trans ?_, rfl⟩
    dsimp only
    rw [hj]
  case split =>
    intro old keep ha hb hab hsub hwgB hwgAB hbase hlim hapart hr hne hmB hub hbb hlb hkeep hok hlost
    have hexec := exec_sliceSplit ha hb hab hsub hwgB hwgAB hbase hlim hapart hr hne hmB hub hbb hlb (keep := keep) rfl hkeep hok
    generalize hu : (s.modSlice b fun y => { y with target := some (slcores y.cores cores, memB), stat := statWord y.stat 0 5 2 }) = u at hexec
    have hua : u.slice a = s.slice a := hu ▸ (State.modSlice_slice ..).trans (if_neg hab)
    have hub : (u.slice b).target = some (after s b cores, memB) := by rw [← hu, State.modSlice_slice, if_pos rfl]
    obtain ⟨_, _, hs⟩ := startShrink_slice u a 5 (slcores (s.slice a).cores keep) memA (some b)
    have hlostu : lostParts u a (rangesOf (slcores (s.slice a).cores keep)) memA = lost s a keep memA := by
      unfold lost lostParts sliceCores
      rw [hua]
    rw [endShrink_leaving (by rw [hs, hlostu]; exact hlost)] at hexec
    refine ⟨_, hexec, ?_⟩
    dsimp only
    rw [hs, startShrink_slice_ne u (Ne.symm hab)]
    exact ⟨hlostu, rfl, hub⟩
  case release =>
    have hrest : (s.slice i).leaving.filter (· != part) ≠ [] := by
      obtain ⟨q, hq, hne⟩ := hq
      exact List.ne_nil_of_mem (List.mem_filter.mpr ⟨hq, by simpa using hne⟩)
    have hin : (s.slice i).leaving.contains part = true := by simpa using hp
    cases part with
    | core c =>
      refine ⟨_, if_pos (by simp [hp, hcore c rfl]), ?_⟩
      exact leavePart_leaving hrest _ _
    | channelSet k =>
      refine ⟨_, if_pos (by simp [hp, hset k rfl]), ?_⟩
      exact leavePart_leaving hrest _ _
    | wayGroup g =>
      have hd := hgroup g rfl
      have hdr : drainGroups s [g] = s := by
        unfold drainGroups
        rw [hd]
        rfl
      have hdf : groupDirty (fixL2c s i) [g] = [] := hd
      refine ⟨fixL2c (leavePart i ((s.slice i).leaving.filter (· != .wayGroup g)) (emptyGroups (fixL2c s i) [g])) i, (if_pos hin).trans ?_, ?_⟩
      · dsimp only
        rw [hdr]
        exact if_pos (by rw [hdf]; rfl)
      · obtain ⟨_, hfx⟩ := fixL2c_slice (leavePart i ((s.slice i).leaving.filter (· != .wayGroup g)) (emptyGroups (fixL2c s i) [g])) i
        exact (congrArg Slice.leaving hfx).trans (leavePart_leaving hrest _ _)
  case taken =>
    have hdr : drainGroups s [w] = s := by
      unfold drainGroups
      rw [hd]
      rfl
    have hdf : groupDirty (fixL2c s i) [w] = [] := hd
    let u := emptyGroups (fixL2c s i) [w]
    refine ⟨fixL2c (u.modSlice i fun x => { x with taken := setDel x.taken w }) i, (if_neg (by simpa using hnot)).trans ((if_pos (by simpa using htk)).trans ?_), ?_, fun e he => ?_⟩
    · dsimp only
      rw [hdr]
      exact if_pos (by rw [hdf]; rfl)
    · obtain ⟨_, hfx⟩ := fixL2c_slice (u.modSlice i fun x => { x with taken := setDel x.taken w }) i
      obtain ⟨_, hf⟩ := fixL2c_slice s i
      rw [hfx, State.modSlice_slice, if_pos rfl, (steady_emptyGroups ..).slice, hf]
    · simpa using emptyGroups_l2 (fixL2c s i) [w] e he
  case reset =>
    refine ⟨_, (if_neg (by simp [hu]; omega)).trans (if_neg hst), ?_⟩
    dsimp only
    rw [State.modSlice_slice, if_pos rfl]
    obtain ⟨hop, hstate, -⟩ := statWord_fields (State.slice _ i).stat 0 (op := 6) (state := 4) (by decide) (by decide)
    exact ⟨hop, hstate, rfl⟩
  case resetEnds =>
    refine ⟨_, (if_neg (by simp [hu]; omega)).trans (if_pos hst), ?_⟩
    dsimp only
    rw [State.modSlice_slice, if_pos rfl, hl]
    obtain ⟨-, -, hlow⟩ := statWord_fields (s.slice i).stat 0 (op := 0) (state := 0) (by decide) (by decide)
    exact hlow
  case notifyNone =>
    refine ⟨_, ?_, rfl⟩
    change execQueueNotify func queue value s = _
    unfold execQueueNotify
    rw [hq]
  case notifyBad =>
    refine ⟨_, ?_, rfl⟩
    change execQueueNotify func queue value s = _
    unfold execQueueNotify
    rw [hq]
    exact if_pos hbad
  case notify => exact yields_queueNotify hq hok
  case map =>
    have hun : unmapSlot s (s.func func).slice slot = s := by
      unfold unmapSlot
      rw [hfree]
    let v := s.modSlice (s.func func).slice fun x => { x with slots := Tbl.put x.slots slot { func := func, queue := queue, since := s.time.master } }
    let u := (modQueue v func queue fun q => { q with slot := some slot }).modFunc func fun f => { f with pendingNotify := setDel f.pendingNotify queue }
    have hexec : exec (.queueMap func queue slot) s = .next u := by
      change execQueueMap func queue slot s = _
      unfold execQueueMap
      rw [hq]
      dsimp only
      rw [if_neg (by omega), hfree, if_neg (by simp [hslot, hen]; omega), hun]
    have hm := modQueue_queue v func queue fun q => { q with slot := some slot }
    rw [show Tbl.get? (v.func func).queues queue = some q from hq] at hm
    have huf : u.func func = _ := (State.modFunc_func ..).trans (if_pos rfl)
    refine ⟨u, hexec, ?_, ?_, ?_⟩
    · rw [huf]
      exact hm
    · rw [huf]
      exact not_mem_setDel _ _
    · have hus : u.slice (s.func func).slice = v.slice (s.func func).slice := rfl
      rw [hus]
      unfold v
      rw [State.modSlice_slice, if_pos rfl]
      exact Tbl.get?_put_self ..
  case unmap =>
    refine ⟨_, ?_, rfl⟩
    change execQueueMap func queue 64 s = _
    unfold execQueueMap
    rw [hq]
    dsimp only
    rw [if_pos rfl, hk]
    exact if_neg (by simp [hnp])
  case reclaim =>
    refine ⟨_, ?_, rfl⟩
    change execNpQueueReclaim slice slot s = _
    unfold execNpQueueReclaim
    rw [hm]
    dsimp only
    rw [hq]
    exact if_pos ⟨hnp, hdue⟩
  case fetch =>
    intro va s1
    have hexec := exec_queueSlotFetch hm hq hone hdue hmem hres hfront hfail
    refine ⟨fun r hr => ⟨_, hexec.trans ?_, rfl⟩, fun hr => ⟨_, hexec.trans ?_, rfl⟩⟩
    · rw [hr]
    · rw [hr]
  case trying =>
    intro goes
    have hexec := exec_adapterAdmission_trying ha how hst
    have hsame : ∀ w v, (setOwner s w v).bulk = s.bulk := fun w v => by rw [setOwner_bulk, noteReads_quiet hnow]
    refine ⟨fun hf => ⟨_, ?_, rfl⟩, fun i hf => ⟨_, ?_, rfl⟩, fun hf => ⟨_, ?_, rfl⟩, fun i r hf hq => ⟨_, ?_, rfl⟩, fun i c w hf hc hw hroom => ?_, fun i c w hf hc hw hroom => ?_⟩
    · rw [hexec, hf]
    · rw [hexec, hf]
    · rw [hexec, hf]
    · rw [hexec, hf]
      dsimp only
      rw [hq]
    · rw [hf] at hexec
      dsimp only at hexec
      rw [hc, hw] at hexec
      refine ⟨_, hexec.trans (if_pos ?_), _, Tbl.get?_put_self .., _, rfl, Tbl.get?_put_self ..⟩
      unfold fetchRoom waitingCmds
      rw [hsame]
      exact decide_eq_true hroom
    · rw [hf] at hexec
      dsimp only at hexec
      rw [hc, hw] at hexec
      refine ⟨_, hexec.trans (if_neg ?_), _, Tbl.get?_put_self .., rfl, ?_⟩
      · unfold fetchRoom waitingCmds
        rw [hsame]
        exact fun h => absurd (of_decide_eq_true h) (by exact Nat.not_lt.mpr hroom)
      · exact congrArg Bulk.cmds (hsame ..)
  case claimed =>
    refine ⟨{ submitFetch s c with admissions := Tbl.put (submitFetch s c).admissions id { a with st := .loading i s.nextId } }, ?_,
      ⟨_, Tbl.get?_put_self .., s.nextId, rfl, Tbl.get?_put_self ..⟩, rfl⟩
    change execAdapterAdmission id s = _
    unfold execAdapterAdmission
    rw [ha]
    dsimp only
    rw [if_neg (by simp [how]), hst]
    dsimp only
    rw [hc]
    exact if_pos (decide_eq_true hroom)
  case loaded =>
    refine ⟨_, ?_, rfl⟩
    change execAdapterAdmission id s = _
    unfold execAdapterAdmission
    rw [ha]
    dsimp only
    rw [if_neg (by simp [how]), hst]
    exact if_pos hcode
  case waiting =>
    refine ⟨_, ?_, rfl⟩
    change execAdapterAdmission id s = _
    unfold execAdapterAdmission
    rw [ha]
    dsimp only
    rw [if_neg (by simp [how]), hst]
    dsimp only
    rw [hw]
    refine (if_neg (Bool.eq_false_iff.mp hbit)).trans ?_
    rw [hq]
  case retry =>
    refine ⟨_, ?_, rfl⟩
    change execAdmissionRetry id s = _
    unfold execAdmissionRetry
    extract_lets may
    rw [ha]
    have hmay : may a = true := by simp [may, hst, hf]
    refine if_neg ?_
    rw [hmay]
    intro h
    simp only [Bool.not_true, Bool.false_or, List.any_eq_true, Bool.and_eq_true, decide_eq_true_eq, beq_iff_eq] at h
    obtain ⟨p, hp, ⟨⟨hlt, hctx⟩, htab⟩, hm⟩ := h
    have hheld : p.2.st = .held := by
      simp only [may, Bool.and_eq_true, beq_iff_eq] at hm
      exact hm.1
    exact hold p hp hlt hctx htab hheld

open Machine in
/-- O56 says that no read is performed ahead of an admission's claim: in a state where a running command has still to read the owner word, the
commands stay as they were only if the free value `Config.readsNow` is false (log entry 20). So no proof of O56 can be found. -/
theorem readsNow_false_of_sliceAndQueueEvents (h : Obligations.SliceAndQueueEvents) : Config.readsNow 0 0x8100 = false := by
  obtain ⟨-, -, -, -, -, -, -, -, -, -, -, -, -, -, -, -, -, -, -, -, -, htrying, -⟩ := h
  obtain ⟨how, hfind, hfetch, hword, hfull⟩ := claimingState_claims
  have ha : Tbl.get? claimingState.admissions 3 = some claimingAdmission := by decide
  obtain ⟨-, -, -, -, -, hclaim⟩ := htrying claimingState 3 claimingAdmission ha how rfl
  obtain ⟨c, hc, hplace⟩ := Option.map_eq_some_iff.mp hfetch
  obtain ⟨hdie, hfunc⟩ := Prod.mk.inj hplace
  obtain ⟨s', hexec, a', hadm, hst, hcmds⟩ := hclaim 0 c claimedWord hfind hc hword (by rw [hdie, hfunc]; exact hfull)
  by_contra hread
  refine noteReads_reading (Bool.of_not_eq_false hread) ?_
  exact (congrArg Bulk.cmds (bulk_claimed ha how rfl hfind hc hword hexec hadm hst)).symm.trans hcmds

end Sys2Proof
end
